-- ==== Sys2Proof/Word.lean ====
section
/-! DEFINITION. The word types of the machine and the few abbreviations every other file uses. -/

namespace Sys2Proof

/-- One byte (00 R3). -/
abbrev Byte := BitVec 8
/-- A 64-bit scalar word. -/
abbrev Word := BitVec 64
/-- An FP32 or I32 word. -/
abbrev W32 := BitVec 32
/-- A poison provenance tag (01 R25). -/
abbrev Tag := BitVec 12
/-- A 48-bit hallmark (13 R253). -/
abbrev Hall := BitVec 48
/-- A 384-bit bundle (02 R32). -/
abbrev BundleBits := BitVec 384
/-- A vector register's 2,048 bits (03 R62). -/
abbrev VBits := BitVec 2048
/-- A lane mask's 256 bits (03 R62). -/
abbrev QBits := BitVec 256

/-- A sparse map in one canonical form: keys strictly rising, and no entry equal to the default
of the map. What an unlisted key reads as is given where the map is read. -/
abbrev SMap (α : Type) := List (Nat × α)

end Sys2Proof
end

