-- ==== Sys2Proof/Syntax.lean ====
section
/-! DEFINITION. The instructions and events of the machine: one constructor of `Instr` for each row of
spec/opcode_table.json, and the operand records they carry. An instruction's register numbers, formats
and codes are already taken apart here; an event names what it acts on. -/

namespace Sys2Proof

/-! ## Operand fields -/

/-- A scalar register number, s0–s63 (02 R36–R41). -/
abbrev SReg := BitVec 6
/-- A predicate number, p0–p7. -/
abbrev PReg := BitVec 3
/-- A lane mask number, q0–q7. -/
abbrev QReg := BitVec 3
/-- A vector register number, v0–v31. -/
abbrev VReg := BitVec 5
/-- A matrix parameter number, m0–m7. -/
abbrev MReg := BitVec 3
/-- A scale register number, x0–x15. -/
abbrev XReg := BitVec 4

/-- The slot predicate of 02 R34: `pred` names it, `pneg` inverts it. -/
structure Guard where
  pred : PReg
  pneg : Bool
  deriving DecidableEq, Repr

/-- The guard that is always true: p0, not inverted. -/
def Guard.always : Guard := ⟨0, false⟩

/-- The eight slots of a bundle, in the order of 02 R57. -/
inductive Slot where
  | c | s0 | s1 | v | l | m | x | d
  deriving DecidableEq, Repr

/-- Which of the two scalar slots an S instruction stands in. -/
inductive SPos where
  | s0 | s1
  deriving DecidableEq, Repr

/-- Element formats (02 R43). -/
inductive Fmt where
  | i8 | i16 | i32 | i64 | fp32 | bf16 | e4m3 | e5m2 | mxi8 | mxi6 | mxi4 | u8
  deriving DecidableEq, Repr

/-- The three microscaled formats (01 R15). -/
inductive MxFmt where
  | mxi8 | mxi6 | mxi4
  deriving DecidableEq, Repr

/-- Rounding codes (01 R12). -/
inductive Rnd where
  | rne | rtz | rdn | rup
  deriving DecidableEq, Repr

/-- Scope codes (02 R43). -/
inductive Scope where
  | ctx | core | clu | die | pkg | fab
  deriving DecidableEq, Repr

/-- Order codes (02 R40). -/
inductive Ord where
  | relaxed | acquire | release | acqRel
  deriving DecidableEq, Repr

/-- Access sizes (02 R40). -/
inductive Size where
  | b | h | w | d
  deriving DecidableEq, Repr

/-- Condition codes of CMP.cc and VCMP.cc (02 R38). -/
inductive CmpCc where
  | eq | ne | lt | le | ltu | leu
  deriving DecidableEq, Repr

/-- Condition codes of CMPI.cc (02 R38). -/
inductive CmpiCc where
  | eq | ne | lt | le | gt | ge | ltu | geu
  deriving DecidableEq, Repr

/-- Condition codes of FCMP.cc and VFCMP.cc (02 R38). -/
inductive FcmpCc where
  | eq | lt | le | un
  deriving DecidableEq, Repr

/-- Sizes of SEXT and ZEXT (04 R104). -/
inductive ExtSize where
  | b | h | w
  deriving DecidableEq, Repr

/-- Engine classes of FENCE (08 R207). -/
inductive EngClass where
  | ctx | cpy | col | wlk | mtx | crd | hst
  deriving DecidableEq, Repr

/-- Operations of SCTA.op (02 R48). -/
inductive SctaOp where
  | add | min | max | minu
  deriving DecidableEq, Repr

/-- Operations of VSCAN (05 R124). -/
inductive ScanOp where
  | add | max | min
  deriving DecidableEq, Repr

/-- Operand b of the elementwise V instructions: a vector register, or the low bytes of a scalar (05 R118). -/
inductive VSrc where
  | reg (vb : VReg)
  | scalar (s : SReg)
  deriving DecidableEq, Repr

/-! ## Operand records of the instructions -/

/-- BR: signed halfword offset from next_pc (03 R77). -/
structure BrArgs where
  g : Guard
  off : BitVec 24
  deriving DecidableEq, Repr

/-- BRI (03 R77, R80). -/
structure BriArgs where
  g : Guard
  a : SReg
  count : BitVec 12
  first : BitVec 12
  deriving DecidableEq, Repr

/-- CALL (03 R77). -/
structure CallArgs where
  g : Guard
  b : SReg
  off : BitVec 24
  deriving DecidableEq, Repr

/-- CALLX (03 R77, R83). -/
structure CallxArgs where
  g : Guard
  a : SReg
  b : SReg
  scope : Scope
  deriving DecidableEq, Repr

/-- A guard and one scalar register. -/
structure CRegArgs where
  g : Guard
  a : SReg
  deriving DecidableEq, Repr

/-- LOOP (03 R72). -/
structure LoopArgs where
  g : Guard
  count : BitVec 12
  off : BitVec 12
  deriving DecidableEq, Repr

/-- LOOPR (03 R72). -/
structure LooprArgs where
  g : Guard
  a : SReg
  off : BitVec 12
  deriving DecidableEq, Repr

/-- YIELD (03 R84). -/
structure YieldArgs where
  g : Guard
  beat : Bool
  deriving DecidableEq, Repr

/-- TRAP (03 R89). -/
structure TrapArgs where
  g : Guard
  imm : BitVec 24
  deriving DecidableEq, Repr

/-- MWAIT: destination and timeout in units of 1,024 cycles (08 R200). -/
structure MwaitArgs where
  g : Guard
  a : SReg
  timeout : BitVec 24
  deriving DecidableEq, Repr

/-- BAR, BARA, BARW (08 R204). -/
structure BarArgs where
  g : Guard
  num : BitVec 4
  scope : Scope
  deriving DecidableEq, Repr

/-- DRAIN (08 R206). -/
structure DrainArgs where
  g : Guard
  scope : Scope
  deriving DecidableEq, Repr

/-- FENCE A, B (08 R207). -/
structure FenceArgs where
  g : Guard
  a : EngClass
  b : EngClass
  deriving DecidableEq, Repr

/-- PAND, POR, PXOR (03 R87). -/
structure PBinArgs where
  g : Guard
  pd : PReg
  pa : PReg
  pb : PReg
  deriving DecidableEq, Repr

/-- PNOT (03 R87). -/
structure PNotArgs where
  g : Guard
  pd : PReg
  pa : PReg
  deriving DecidableEq, Repr

/-- MFC, MTC: a scalar register and a control register number (03 R88). -/
structure CtlArgs where
  g : Guard
  a : SReg
  reg : BitVec 12
  deriving DecidableEq, Repr

/-- LIDX (03 R75). -/
structure LidxArgs where
  g : Guard
  a : SReg
  k : BitVec 3
  deriving DecidableEq, Repr

/-- S.R instructions of two register operands (04 R101, R103). -/
structure SRArgs where
  pos : SPos
  g : Guard
  d : SReg
  a : SReg
  b : SReg
  deriving DecidableEq, Repr

/-- S.R instructions of one register operand. -/
structure SUnArgs where
  pos : SPos
  g : Guard
  d : SReg
  a : SReg
  deriving DecidableEq, Repr

/-- S.I instructions with a 16-bit immediate (04 R100). -/
structure SIArgs where
  pos : SPos
  g : Guard
  d : SReg
  a : SReg
  imm : BitVec 16
  deriving DecidableEq, Repr

/-- Shifts by an immediate (04 R103). -/
structure SShArgs where
  pos : SPos
  g : Guard
  d : SReg
  a : SReg
  n : BitVec 6
  deriving DecidableEq, Repr

/-- CMP.cc (04 R107). -/
structure CmpArgs where
  pos : SPos
  g : Guard
  cc : CmpCc
  pd : PReg
  a : SReg
  b : SReg
  deriving DecidableEq, Repr

/-- CMPI.cc (04 R107). -/
structure CmpiArgs where
  pos : SPos
  g : Guard
  cc : CmpiCc
  pd : PReg
  a : SReg
  imm : BitVec 16
  deriving DecidableEq, Repr

/-- MOVI, MOVK (04 R105). -/
structure MovArgs where
  pos : SPos
  g : Guard
  d : SReg
  hw : BitVec 2
  imm : BitVec 16
  deriving DecidableEq, Repr

/-- SEXT, ZEXT (04 R104). -/
structure ExtArgs where
  pos : SPos
  g : Guard
  d : SReg
  a : SReg
  size : ExtSize
  deriving DecidableEq, Repr

/-- BEXT (04 R104): `len1` is len − 1. -/
structure BextArgs where
  pos : SPos
  g : Guard
  d : SReg
  a : SReg
  bit : BitVec 6
  len1 : BitVec 6
  signed : Bool
  deriving DecidableEq, Repr

/-- BINS (04 R104): `len1` is len − 1. -/
structure BinsArgs where
  pos : SPos
  g : Guard
  d : SReg
  a : SReg
  bit : BitVec 6
  len1 : BitVec 6
  deriving DecidableEq, Repr

/-- SELP (04 R106). -/
structure SelpArgs where
  pos : SPos
  g : Guard
  d : SReg
  a : SReg
  b : SReg
  n : PReg
  deriving DecidableEq, Repr

/-- LEA (04 R106). -/
structure LeaArgs where
  pos : SPos
  g : Guard
  d : SReg
  a : SReg
  b : SReg
  sh : BitVec 3
  deriving DecidableEq, Repr

/-- PMOV (04 R106). -/
structure PmovArgs where
  pos : SPos
  g : Guard
  d : SReg
  deriving DecidableEq, Repr

/-- PSET (04 R106). -/
structure PsetArgs where
  pos : SPos
  g : Guard
  pd : PReg
  a : SReg
  bit : BitVec 6
  deriving DecidableEq, Repr

/-- FADD.S, FMUL.S, FFMA.S (04 R108). -/
structure SFpArgs where
  pos : SPos
  g : Guard
  d : SReg
  a : SReg
  b : SReg
  rnd : Rnd
  deriving DecidableEq, Repr

/-- FCMP.cc (04 R109). -/
structure SFcmpArgs where
  pos : SPos
  g : Guard
  cc : FcmpCc
  pd : PReg
  a : SReg
  b : SReg
  deriving DecidableEq, Repr

/-- FCVT (04 R110). -/
structure SFcvtArgs where
  pos : SPos
  g : Guard
  d : SReg
  a : SReg
  to_ : Fmt
  from_ : Fmt
  rnd : Rnd
  sat : Bool
  deriving DecidableEq, Repr

/-- PACKWE (04 R111). -/
structure PackweArgs where
  pos : SPos
  g : Guard
  d : SReg
  a : SReg
  b : SReg
  f32 : Bool
  deriving DecidableEq, Repr

/-- Slot predicate and lane mask of a V instruction (02 R39, 05 R117). -/
structure VGuard where
  g : Guard
  q : QReg
  qneg : Bool
  deriving DecidableEq, Repr

/-- Integer elementwise instructions of two operands (05 R119). -/
structure VIntArgs where
  vg : VGuard
  vd : VReg
  va : VReg
  b : VSrc
  fmt : Fmt
  sat : Bool
  deriving DecidableEq, Repr

/-- VABS (05 R119). -/
structure VAbsArgs where
  vg : VGuard
  vd : VReg
  va : VReg
  fmt : Fmt
  sat : Bool
  deriving DecidableEq, Repr

/-- VCMP.cc (05 R120). -/
structure VCmpArgs where
  vg : VGuard
  qd : QReg
  va : VReg
  b : VSrc
  fmt : Fmt
  cc : CmpCc
  deriving DecidableEq, Repr

/-- VSEL, VPERM: two vector registers and a format (05 R120, R124). -/
structure VTwoArgs where
  vg : VGuard
  vd : VReg
  va : VReg
  vb : VReg
  fmt : Fmt
  deriving DecidableEq, Repr

/-- VIOTA, VBCST: a scalar into lanes (05 R120, R124). -/
structure VScalArgs where
  vg : VGuard
  vd : VReg
  s : SReg
  fmt : Fmt
  deriving DecidableEq, Repr

/-- VMOVI (05 R120). -/
structure VMoviArgs where
  vg : VGuard
  vd : VReg
  fmt : Fmt
  imm : BitVec 14
  deriving DecidableEq, Repr

/-- Floating-point elementwise instructions of two operands (05 R121). -/
structure VFBinArgs where
  vg : VGuard
  vd : VReg
  va : VReg
  b : VSrc
  fmt : Fmt
  rnd : Rnd
  deriving DecidableEq, Repr

/-- VFMA (05 R121). -/
structure VFmaArgs where
  vg : VGuard
  vd : VReg
  va : VReg
  b : VSrc
  vc : VReg
  fmt : Fmt
  rnd : Rnd
  deriving DecidableEq, Repr

/-- Floating-point elementwise instructions of one operand (05 R121). -/
structure VFUnArgs where
  vg : VGuard
  vd : VReg
  va : VReg
  fmt : Fmt
  rnd : Rnd
  deriving DecidableEq, Repr

/-- VFCMP.cc (05 R121). -/
structure VFcmpArgs where
  vg : VGuard
  qd : QReg
  va : VReg
  b : VSrc
  fmt : Fmt
  cc : FcmpCc
  deriving DecidableEq, Repr

/-- VFCVT (05 R122). -/
structure VFcvtArgs where
  vg : VGuard
  vd : VReg
  va : VReg
  to_ : Fmt
  from_ : Fmt
  part : BitVec 2
  rnd : Rnd
  sat : Bool
  deriving DecidableEq, Repr

/-- VQNT (05 R123). -/
structure VQntArgs where
  g : Guard
  vd : VReg
  va : VReg
  fmt : MxFmt
  rnd : Rnd
  deriving DecidableEq, Repr

/-- VDQN (05 R123). -/
structure VDqnArgs where
  g : Guard
  vd : VReg
  va : VReg
  fmt : MxFmt
  deriving DecidableEq, Repr

/-- VRADD, VRMAX, VRMIN (05 R124). -/
structure VRedArgs where
  vg : VGuard
  vd : VReg
  va : VReg
  fmt : Fmt
  rnd : Rnd
  sat : Bool
  deriving DecidableEq, Repr

/-- VSCAN (05 R124). -/
structure VScanArgs where
  vg : VGuard
  vd : VReg
  va : VReg
  op : ScanOp
  fmt : Fmt
  rnd : Rnd
  sat : Bool
  deriving DecidableEq, Repr

/-- VEXT (05 R124): `s` is the destination. -/
structure VExtArgs where
  g : Guard
  s : SReg
  va : VReg
  k : BitVec 8
  fmt : Fmt
  deriving DecidableEq, Repr

/-- VINS (05 R124). -/
structure VInsArgs where
  g : Guard
  vd : VReg
  s : SReg
  k : BitVec 8
  fmt : Fmt
  deriving DecidableEq, Repr

/-- VCMPR, VEXPD (05 R124). -/
structure VUnArgs where
  vg : VGuard
  vd : VReg
  va : VReg
  fmt : Fmt
  deriving DecidableEq, Repr

/-- VACRD (05 R125). -/
structure VAcrdArgs where
  vg : VGuard
  vd : VReg
  s : SReg
  fmt : Fmt
  tile : Bool
  half : Bool
  rnd : Rnd
  sat : Bool
  deriving DecidableEq, Repr

/-- VACWR (05 R125). -/
structure VAcwrArgs where
  vg : VGuard
  va : VReg
  s : SReg
  tile : Bool
  half : Bool
  deriving DecidableEq, Repr

/-- QAND, QOR (05 R126). -/
structure QBinArgs where
  g : Guard
  qd : QReg
  qa : QReg
  qb : QReg
  deriving DecidableEq, Repr

/-- QNOT (05 R126). -/
structure QNotArgs where
  g : Guard
  qd : QReg
  qa : QReg
  deriving DecidableEq, Repr

/-- QCNT (05 R126). -/
structure QCntArgs where
  g : Guard
  s : SReg
  qa : QReg
  fmt : Fmt
  deriving DecidableEq, Repr

/-- LD, LDS and the atomics (05 R128, R130, R132). -/
structure LScalarArgs where
  g : Guard
  ord : Ord
  scope : Scope
  t : SReg
  base : SReg
  index : SReg
  size : Size
  land : BitVec 8
  disp : BitVec 8
  deriving DecidableEq, Repr

/-- ST (05 R130). -/
structure LStArgs where
  g : Guard
  ord : Ord
  scope : Scope
  t : SReg
  base : SReg
  index : SReg
  size : Size
  disp : BitVec 8
  deriving DecidableEq, Repr

/-- LDV, LDVS (05 R131): the index is a scalar. -/
structure LVecArgs where
  g : Guard
  q : QReg
  t : VReg
  base : SReg
  index : SReg
  size : Size
  land : BitVec 8
  disp : BitVec 8
  deriving DecidableEq, Repr

/-- STV, STVS (05 R131). -/
structure LVecStArgs where
  g : Guard
  q : QReg
  t : VReg
  base : SReg
  index : SReg
  size : Size
  disp : BitVec 8
  deriving DecidableEq, Repr

/-- GTH (05 R131): the index is a vector. -/
structure LGthArgs where
  g : Guard
  q : QReg
  t : VReg
  base : SReg
  index : VReg
  size : Size
  land : BitVec 8
  disp : BitVec 8
  deriving DecidableEq, Repr

/-- SCT (05 R131). -/
structure LSctArgs where
  g : Guard
  q : QReg
  t : VReg
  base : SReg
  index : VReg
  size : Size
  disp : BitVec 8
  deriving DecidableEq, Repr

/-- SCTA.op (05 R131): size W or D only. -/
structure LSctaArgs where
  g : Guard
  q : QReg
  t : VReg
  base : SReg
  index : VReg
  size : Size
  op : SctaOp
  deriving DecidableEq, Repr

/-- MCALL (06 R154); the gang follows from the two formats (01 R19). -/
structure McallArgs where
  g : Guard
  acc : Bool
  afmt : MxFmt
  bfmt : MxFmt
  routine : BitVec 8
  deriving DecidableEq, Repr

/-- MLDW (06 R154). -/
structure MldwArgs where
  g : Guard
  afmt : MxFmt
  bfmt : MxFmt
  m : MReg
  deriving DecidableEq, Repr

/-- MLDIX (06 R154). -/
structure MldixArgs where
  g : Guard
  v : VReg
  deriving DecidableEq, Repr

/-- MCLR (06 R154). -/
structure MclrArgs where
  g : Guard
  acc : Bool
  deriving DecidableEq, Repr

/-- MSET (06 R154). -/
structure MsetArgs where
  g : Guard
  m : MReg
  s : SReg
  deriving DecidableEq, Repr

/-- MUPLD (06 R154): `at_` is the word offset. -/
structure MupldArgs where
  g : Guard
  m : MReg
  routine : BitVec 8
  at_ : BitVec 10
  deriving DecidableEq, Repr

/-- MASSAY (06 R154). -/
structure MassayArgs where
  g : Guard
  p : PReg
  deriving DecidableEq, Repr

/-- XLD, XLDB (06 R164). -/
structure XLdArgs where
  g : Guard
  x : XReg
  base : SReg
  land : BitVec 6
  disp : BitVec 8
  deriving DecidableEq, Repr

/-- XMOV (06 R164). -/
structure XMovArgs where
  g : Guard
  x : XReg
  src : XReg
  deriving DecidableEq, Repr

/-- XSET (06 R164). -/
structure XSetArgs where
  g : Guard
  x : XReg
  imm : BitVec 8
  deriving DecidableEq, Repr

/-- CPGO (08 R198). -/
structure CpgoArgs where
  g : Guard
  a : SReg
  unit : BitVec 4
  deriving DecidableEq, Repr

/-- CPQ (08 R198). -/
structure CpqArgs where
  g : Guard
  a : SReg
  unit : BitVec 4
  land : BitVec 8
  deriving DecidableEq, Repr

/-- CPSTOP (08 R198). -/
structure CpstopArgs where
  g : Guard
  unit : BitVec 4
  deriving DecidableEq, Repr

/-- WKAPP, WKWALK (09 R215). -/
structure WkArgs where
  g : Guard
  a : SReg
  b : SReg
  c : SReg
  uirq : Bool
  deriving DecidableEq, Repr

/-- WKFIX (09 R215). -/
structure WkfixArgs where
  g : Guard
  a : SReg
  b : SReg
  level : BitVec 4
  uirq : Bool
  deriving DecidableEq, Repr

/-- WKQ, TXID: a destination and a land code (09 R215, 13 R269). -/
structure DLandArgs where
  g : Guard
  a : SReg
  land : BitVec 8
  deriving DecidableEq, Repr

/-- CXTAB (23 R373). -/
structure CxtabArgs where
  g : Guard
  a : SReg
  slot : BitVec 4
  gen : BitVec 8
  uirq : Bool
  deriving DecidableEq, Repr

/-- CXPK (23 R373). -/
structure CxpkArgs where
  g : Guard
  a : SReg
  b : SReg
  c : SReg
  slot : BitVec 4
  count : BitVec 12
  uirq : Bool
  deriving DecidableEq, Repr

/-- WGET, WPUT, WEXP, CXUN: three registers and a count (18 R313, 23 R373). -/
structure D3Args where
  g : Guard
  a : SReg
  b : SReg
  c : SReg
  count : BitVec 12
  uirq : Bool
  deriving DecidableEq, Repr

/-- CLGO (23 R373). -/
structure ClgoArgs where
  g : Guard
  a : SReg
  uirq : Bool
  deriving DecidableEq, Repr

/-- LKSEND, LKRECV (23 R366). -/
structure LkArgs where
  g : Guard
  a : SReg
  b : SReg
  c : SReg
  port : BitVec 4
  uirq : Bool
  deriving DecidableEq, Repr

/-- LKRADD (23 R366): payload format FP32, BF16, E4M3 or E5M2. -/
structure LkraddArgs where
  g : Guard
  a : SReg
  b : SReg
  c : SReg
  port : BitVec 4
  fmt : Fmt
  uirq : Bool
  deriving DecidableEq, Repr

/-- TXABORT (13 R269). -/
structure TxabortArgs where
  g : Guard
  a : SReg
  retry : Bool
  deriving DecidableEq, Repr

/-- QLAUNCH (14 R286). -/
structure QlaunchArgs where
  g : Guard
  a : SReg
  b : SReg
  deriving DecidableEq, Repr

/-- EVPOST (14 R286). -/
structure EvpostArgs where
  g : Guard
  a : SReg
  scope : Scope
  deriving DecidableEq, Repr

/-- Cell operations of STEP (06 R150). -/
inductive CellOp where
  | madd | adadd | csel
  deriving DecidableEq, Repr

/-! ## What events act on -/

/-- A context: 256·die + 32·cluster + 4·core + context (03 R62). -/
abbrev CtxNo := Fin 1024
/-- A core: 64·die + 8·cluster + core. -/
abbrev CoreNo := Fin 256
/-- A cluster: 8·die + cluster. -/
abbrev CluNo := Fin 32
/-- A die. -/
abbrev DieNo := Fin 4
/-- A partition (14 R274). -/
abbrev PartNo := Fin 64
/-- A launch queue (14 R274). -/
abbrev QueueNo := Fin 1024
/-- A coolant zone (22 R346). -/
abbrev ZoneNo := Fin 40
/-- An Ildahar port (23 R358). -/
abbrev PortNo := Fin 16
/-- A command ring: 0–63 a partition's, 64 the operator's (21 R332). -/
abbrev RingNo := Fin 65
/-- What a host access names besides its address: a partition, the job the access belongs to, and the fabric address of the
endpoint it comes to (21 R332). -/
structure HostJob where
  part : PartNo
  job : Word
  endpoint : Word
  deriving DecidableEq, Repr

/-- A STEP micro-word of a context's routine (06 R150). -/
structure UStepArgs where
  c : CtxNo
  gathered : Bool
  op : CellOp
  deriving DecidableEq, Repr

/-- A SETA micro-word. -/
structure USetaArgs where
  c : CtxNo
  base : MReg
  stride : MReg
  r : BitVec 16
  deriving DecidableEq, Repr

/-- A SETACC micro-word. -/
structure USetaccArgs where
  c : CtxNo
  row : BitVec 7
  deriving DecidableEq, Repr

/-- A SCALE micro-word. -/
structure UScaleArgs where
  c : CtxNo
  hold : Bool
  x : XReg
  byte : BitVec 5
  deriving DecidableEq, Repr

/-- A LOOPU micro-word. -/
structure ULoopArgs where
  c : CtxNo
  fromM : Bool
  m : MReg
  len : BitVec 8
  count : BitVec 16
  deriving DecidableEq, Repr

/-- A message between packages (23 R364, R367, R379): who sent it, its matching fields, its bytes with the poison of their
8-byte words, the die that sent it, the epoch sent with it, and on a UET port the other end's address. -/
structure Message where
  net : Bool
  port : BitVec 4
  peer : BitVec 16
  part : PartNo
  tag : BitVec 12
  hall : Hall
  bytes : List Byte
  poison : SMap Tag
  die : DieNo
  epoch : BitVec 32
  addr : BitVec 128
  deriving DecidableEq, Repr

/-- One zone's sensors (22 R349). -/
structure ZoneSample where
  dp : BitVec 16
  tout : BitVec 16
  tin : BitVec 16
  flow : BitVec 16
  cond : BitVec 16
  deriving DecidableEq, Repr

/-- Where a soft error strikes (07 R179): a register of a context. -/
inductive SoftTarget where
  | sflip (n : SReg) (bit : BitVec 6)
  | sbank (n : BitVec 3) (bit : BitVec 6)
  | sres (n : SReg) (bit : BitVec 2)
  | spoison (n : SReg) (tag : Tag)
  | ppoison (n : PReg) (tag : Tag)
  | qpoison (n : QReg) (tag : Tag)
  | vpoison (n : VReg) (group : BitVec 6) (tag : Tag)
  deriving DecidableEq, Repr

/-- A software-visible write to a register block by privileged software: a context (control core) through a
window or translation at supervisor privilege, or the management core (12 R244, 21 R324). -/
inductive RegWho where
  | supervisor
  | management
  deriving DecidableEq, Repr

/-- What a memory controller sees on reading a word (12 R250). -/
inductive Syndrome where
  | clean
  | corrected
  | poisonMark
  | uncorrectable
  deriving DecidableEq, Repr

/-- A window contribution another package or this one sends (23 R362), with the epoch sent with it (23 R364). -/
structure Contribution where
  hall : Hall
  home : BitVec 16
  window : Fin 4
  pa : Nat
  value : Word
  epoch : BitVec 32
  deriving DecidableEq, Repr

/-- One member's contribution to a switch reduction (23 R378): its switch port, payload format and values, with the poison of
its elements. -/
structure Member where
  port : Nat
  fmt : Fmt
  values : List W32
  poison : SMap Tag
  deriving DecidableEq, Repr

/-- The instructions and events: one constructor for each row of spec/opcode_table.json, the instructions
before the events (DESIGN CHOICE, log 107). -/
inductive Instr where
  | nop (slot : Slot)
  | br (o : BrArgs)
  | bri (o : BriArgs)
  | call (o : CallArgs)
  | callx (o : CallxArgs)
  | ret (o : CRegArgs)
  | loop (o : LoopArgs)
  | loopr (o : LooprArgs)
  | lexit (g : Guard)
  | yield (o : YieldArgs)
  | halt (g : Guard)
  | trap (o : TrapArgs)
  | rti (g : Guard)
  | marm (o : CRegArgs)
  | mwait (o : MwaitArgs)
  | mdisarm (g : Guard)
  | bar (o : BarArgs)
  | bara (o : BarArgs)
  | barw (o : BarArgs)
  | drain (o : DrainArgs)
  | fence (o : FenceArgs)
  | pand (o : PBinArgs)
  | por (o : PBinArgs)
  | pxor (o : PBinArgs)
  | pnot (o : PNotArgs)
  | mfc (o : CtlArgs)
  | mtc (o : CtlArgs)
  | uien (g : Guard)
  | uidis (g : Guard)
  | lidx (o : LidxArgs)
  | add (o : SRArgs)
  | addi (o : SIArgs)
  | sub (o : SRArgs)
  | mul (o : SRArgs)
  | mulh (o : SRArgs)
  | mulhu (o : SRArgs)
  | div (o : SRArgs)
  | divu (o : SRArgs)
  | rem (o : SRArgs)
  | remu (o : SRArgs)
  | and (o : SRArgs)
  | andi (o : SIArgs)
  | or (o : SRArgs)
  | ori (o : SIArgs)
  | xor (o : SRArgs)
  | xori (o : SIArgs)
  | shl (o : SRArgs)
  | shr (o : SRArgs)
  | sar (o : SRArgs)
  | shli (o : SShArgs)
  | shri (o : SShArgs)
  | sari (o : SShArgs)
  | rol (o : SRArgs)
  | ror (o : SRArgs)
  | min (o : SRArgs)
  | max (o : SRArgs)
  | minu (o : SRArgs)
  | maxu (o : SRArgs)
  | abs (o : SUnArgs)
  | cmpCc (o : CmpArgs)
  | cmpiCc (o : CmpiArgs)
  | movi (o : MovArgs)
  | movk (o : MovArgs)
  | sext (o : ExtArgs)
  | zext (o : ExtArgs)
  | clz (o : SUnArgs)
  | ctz (o : SUnArgs)
  | popc (o : SUnArgs)
  | bext (o : BextArgs)
  | bins (o : BinsArgs)
  | selp (o : SelpArgs)
  | lea (o : LeaArgs)
  | pmov (o : PmovArgs)
  | pset (o : PsetArgs)
  | faddS (o : SFpArgs)
  | fmulS (o : SFpArgs)
  | ffmaS (o : SFpArgs)
  | fcmpCc (o : SFcmpArgs)
  | fcvt (o : SFcvtArgs)
  | packwe (o : PackweArgs)
  | vadd (o : VIntArgs)
  | vsub (o : VIntArgs)
  | vmul (o : VIntArgs)
  | vmulh (o : VIntArgs)
  | vmin (o : VIntArgs)
  | vmax (o : VIntArgs)
  | vabs (o : VAbsArgs)
  | vand (o : VIntArgs)
  | vor (o : VIntArgs)
  | vxor (o : VIntArgs)
  | vshl (o : VIntArgs)
  | vshr (o : VIntArgs)
  | vsar (o : VIntArgs)
  | vcmpCc (o : VCmpArgs)
  | vsel (o : VTwoArgs)
  | viota (o : VScalArgs)
  | vmovi (o : VMoviArgs)
  | vfadd (o : VFBinArgs)
  | vfsub (o : VFBinArgs)
  | vfmul (o : VFBinArgs)
  | vfma (o : VFmaArgs)
  | vfmin (o : VFBinArgs)
  | vfmax (o : VFBinArgs)
  | vfabs (o : VFUnArgs)
  | vfneg (o : VFUnArgs)
  | vfcmpCc (o : VFcmpArgs)
  | vfrcp (o : VFUnArgs)
  | vfrsq (o : VFUnArgs)
  | vfexp2 (o : VFUnArgs)
  | vflog2 (o : VFUnArgs)
  | vfcvt (o : VFcvtArgs)
  | vqnt (o : VQntArgs)
  | vdqn (o : VDqnArgs)
  | vradd (o : VRedArgs)
  | vrmax (o : VRedArgs)
  | vrmin (o : VRedArgs)
  | vscan (o : VScanArgs)
  | vperm (o : VTwoArgs)
  | vbcst (o : VScalArgs)
  | vext (o : VExtArgs)
  | vins (o : VInsArgs)
  | vcmpr (o : VUnArgs)
  | vexpd (o : VUnArgs)
  | vacrd (o : VAcrdArgs)
  | vacwr (o : VAcwrArgs)
  | qand (o : QBinArgs)
  | qor (o : QBinArgs)
  | qnot (o : QNotArgs)
  | qcnt (o : QCntArgs)
  | ld (o : LScalarArgs)
  | lds (o : LScalarArgs)
  | st (o : LStArgs)
  | ldv (o : LVecArgs)
  | stv (o : LVecStArgs)
  | ldvs (o : LVecArgs)
  | stvs (o : LVecStArgs)
  | gth (o : LGthArgs)
  | sct (o : LSctArgs)
  | sctaOp (o : LSctaArgs)
  | aadd (o : LScalarArgs)
  | amin (o : LScalarArgs)
  | amax (o : LScalarArgs)
  | aminu (o : LScalarArgs)
  | amaxu (o : LScalarArgs)
  | aand (o : LScalarArgs)
  | aor (o : LScalarArgs)
  | axor (o : LScalarArgs)
  | axchg (o : LScalarArgs)
  | acas (o : LScalarArgs)
  | mcall (o : McallArgs)
  | mldw (o : MldwArgs)
  | mswp (g : Guard)
  | mldix (o : MldixArgs)
  | mclr (o : MclrArgs)
  | mset (o : MsetArgs)
  | mupld (o : MupldArgs)
  | massay (o : MassayArgs)
  | msync (g : Guard)
  | step (u : UStepArgs)
  | seta (u : USetaArgs)
  | setacc (u : USetaccArgs)
  | scale (u : UScaleArgs)
  | loopu (u : ULoopArgs)
  | endu (c : CtxNo)
  | xld (o : XLdArgs)
  | xldb (o : XLdArgs)
  | xmov (o : XMovArgs)
  | xset (o : XSetArgs)
  | cpgo (o : CpgoArgs)
  | cpq (o : CpqArgs)
  | cpstop (o : CpstopArgs)
  | wkapp (o : WkArgs)
  | wkwalk (o : WkArgs)
  | wkfix (o : WkfixArgs)
  | wkq (o : DLandArgs)
  | wget (o : D3Args)
  | wput (o : D3Args)
  | wexp (o : D3Args)
  | wsync (o : CRegArgs)
  | cxtab (o : CxtabArgs)
  | cxpk (o : CxpkArgs)
  | cxun (o : D3Args)
  | clgo (o : ClgoArgs)
  | lksend (o : LkArgs)
  | lkradd (o : LkraddArgs)
  | lkrecv (o : LkArgs)
  | lkwait (o : CRegArgs)
  | txid (o : DLandArgs)
  | txabort (o : TxabortArgs)
  | qlaunch (o : QlaunchArgs)
  | evpost (o : EvpostArgs)
  | bundleIssue (k : CoreNo)
  | fixedResultLands (c : CtxNo)
  | landing (c : CtxNo)
  | lateDataArrival (c : CtxNo)
  | landingTimeout (c : CtxNo)
  | bankStallEnd (k : CoreNo)
  | pageWalk (c : CtxNo)
  | queueSpaceFree (c : CtxNo)
  | selectorSwitch (k : CoreNo)
  | contextParks (c : CtxNo)
  | userInterruptTaken (c : CtxNo)
  | asyncCauseTaken (c : CtxNo)
  | haltDrainComplete (c : CtxNo)
  | rendezvousRelease (c : CtxNo)
  | mwaitWake (c : CtxNo)
  | mwaitTimeout (c : CtxNo)
  | barrierPhaseComplete (c : CtxNo) (id : BitVec 4)
  | msyncDone (c : CtxNo)
  | wsyncDone (c : CtxNo)
  | lkwaitDone (c : CtxNo)
  | callxEntryArrives (c : CtxNo)
  | objectTableReadDone (c : CtxNo)
  | rtiWaitDone (c : CtxNo)
  | trapEventEnqueue (k : CluNo)
  | trapEventDelivery (k : CluNo)
  | runtimeTrapAction (k : CluNo)
  | ctxctlKill (c : CtxNo)
  | ctxctlRelease (c : CtxNo)
  | ctxctlPark (c : CtxNo)
  | ctxctlResume (c : CtxNo)
  | channelReset (k : CluNo) (ch : BitVec 4)
  | registerWrite (who : RegWho) (addr : Word) (value : Word)
  | controlPairMismatch (k : CluNo)
  | mcallRun (c : CtxNo)
  | mldwRun (c : CtxNo)
  | mswpRun (c : CtxNo)
  | mldixRun (c : CtxNo)
  | mclrRun (c : CtxNo)
  | mupldRun (c : CtxNo)
  | copyRecord (k : CluNo) (ch : BitVec 4)
  | wkappRun (k : CluNo)
  | wkwalkRun (k : CluNo)
  | wkfixRun (k : CluNo)
  | walkerLockRetry (k : CluNo)
  | wgetRun (c : CtxNo)
  | wputRun (c : CtxNo)
  | wexpRun (c : CtxNo)
  | cxtabRun (c : CtxNo)
  | cxpkRun (c : CtxNo)
  | cxunRun (c : CtxNo)
  | clgoSend (c : CtxNo)
  | clgoRecvadd (c : CtxNo)
  | clgoRecv (c : CtxNo)
  | switchReduction (c : CtxNo) (members : List Member)
  | lksendRun (c : CtxNo)
  | messageArrival (d : DieNo) (m : Message)
  | qlaunchSlotReserved (c : CtxNo)
  | launchCommitting (h : Hall)
  | commitFlip (h : Hall)
  | launchComplete (h : Hall)
  | launchAbort (h : Hall)
  | annealFold (line : Nat)
  | hostWrite (p : HostJob) (va : Word) (bytes : List Byte)
  | hostRead (p : HostJob) (va : Word) (size : Nat)
  | budgetExhausted (h : Hall)
  | tailObserved (q : QueueNo)
  | dispatchDecision
  | tentativePreload (q : QueueNo) (rec : Nat)
  | trinvRange (value : Word)
  | trinvTable (value : Word)
  | trinvAll (value : Word)
  | trinvDone
  | keyLoad (value : Word)
  | keyClear (value : Word)
  | keyFlush (value : Word)
  | keycmdRefused (value : Word)
  | keyCommandDone
  | memoryReadError (pa : Nat) (syn : Syndrome)
  | patrolScrub (line : Nat)
  | d2dLinkFailure (a : DieNo) (b : DieNo)
  | errorRecordCopy (unit : BitVec 7)
  | heartbeatPeriodEnd
  | heartbeatStopTimeout (k : CoreNo)
  | clusterBeat (k : CoreNo)
  | pairMismatch
  | packageReset
  | install (r : RingNo)
  | remove (r : RingNo)
  | qset (r : RingNo)
  | attest (r : RingNo)
  | dbgload (r : RingNo)
  | pcreate (r : RingNo)
  | pswapout (r : RingNo)
  | pswapin (r : RingNo)
  | preset (r : RingNo)
  | pdestroy (r : RingNo)
  | keyloadCmd (r : RingNo)
  | svcset (r : RingNo)
  | ckpt (r : RingNo)
  | restore (r : RingNo)
  | capset (r : RingNo)
  | mread (r : RingNo)
  | hbset (r : RingNo)
  | unprot (r : RingNo)
  | debugen (r : RingNo)
  | unlistedCommandOp (r : RingNo)
  | captureClear (d : DieNo) (u : BitVec 6)
  | sensorSample (samples : List ZoneSample)
  | clallocWrite (z : ZoneNo) (value : Word)
  | pumpAvailLow (avail : BitVec 9)
  | flowLow (z : ZoneNo)
  | deltaT (z : ZoneNo)
  | dry (z : ZoneNo)
  | leak (z : ZoneNo)
  | zoneWithdraw (z : ZoneNo)
  | zoneThrottleClear (z : ZoneNo)
  | gated (z : ZoneNo)
  | inletShut (z : ZoneNo)
  | purge (z : ZoneNo)
  | outletShut (z : ZoneNo)
  | evacuationDry (z : ZoneNo)
  | coolantFault (z : ZoneNo)
  | refill (z : ZoneNo)
  | bleed (z : ZoneNo)
  | refillDone (z : ZoneNo)
  | hbmEdgeTrap (z : ZoneNo)
  | portTrain (p : PortNo)
  | portFailure (p : PortNo)
  | windowContributionMerge (x : Contribution)
  | windowPartialStage (x : Contribution)
  | windowCommitMessage (h : Hall)
  | windowDiscardMessage (h : Hall)
  | commitAck (h : Hall) (home : BitVec 16)
  | commitResend (h : Hall) (home : BitVec 16)
  | commitGiveUp (h : Hall) (home : BitVec 16)
  | epochRelease (pkg : BitVec 16) (epoch : BitVec 32)
  | accessPerforms (c : CtxNo) (seq : Nat) (elem : Nat)
  | dataArrived (c : CtxNo) (seq : Nat)
  | softError (c : CtxNo) (t : SoftTarget)
  | tlbEntryDropped (n : Nat)
  | directoryEntryRelease (h : Hall)
  | pendingLineFilterClear (line : Nat)
  | powerOff
  | controlPairRestart (k : CluNo)
  | portUp (p : PortNo) (sw : BitVec 16) (lanes : BitVec 4)
  | flitReplay (p : PortNo)
  deriving DecidableEq, Repr

end Sys2Proof
end

