-- ==== Sys2Proof/Machine/Num.lean ====
section
/-! DEFINITION. Numbers on the Furus architecture (01 R6–R18): integers, floating-point formats, rounding,
conversion, microscaled blocks, and the four correctly rounded functions of 05 R121. -/

namespace Sys2Proof

/-! ## Integers (01 R7) -/

/-- Wrap an exact integer modulo 2^n. -/
def wrapInt (n : Nat) (v : Int) : Nat := (v % (2 ^ n : Int)).toNat

/-- The signed value of the low `n` bits of `x`. -/
def signedOf (n : Nat) (x : Nat) : Int :=
  let y := x % 2 ^ n
  if n = 0 then 0 else if y < 2 ^ (n - 1) then (y : Int) else (y : Int) - (2 ^ n : Int)

/-- Clamp to `lo … hi`. -/
def clampInt (lo hi v : Int) : Int := if v < lo then lo else if hi < v then hi else v

/-- Width in bits of an element format (05 R116); MX formats by their element width. -/
def Fmt.bits : Fmt → Nat
  | .i8 => 8 | .i16 => 16 | .i32 => 32 | .i64 => 64 | .fp32 => 32 | .bf16 => 16
  | .e4m3 => 8 | .e5m2 => 8 | .mxi8 => 8 | .mxi6 => 6 | .mxi4 => 4 | .u8 => 8

/-- Is the format one of the signed integer formats In? -/
def Fmt.isSignedInt : Fmt → Bool
  | .i8 | .i16 | .i32 | .i64 => true
  | _ => false

/-- Is the format an integer format (In or U8)? -/
def Fmt.isInt : Fmt → Bool
  | .i8 | .i16 | .i32 | .i64 | .u8 => true
  | _ => false

/-- Is the format a floating-point format? -/
def Fmt.isFloat : Fmt → Bool
  | .fp32 | .bf16 | .e4m3 | .e5m2 => true
  | _ => false

/-- Smallest value of an integer format (01 R7). -/
def Fmt.intMin (f : Fmt) : Int := if f.isSignedInt then -(2 ^ (f.bits - 1) : Int) else 0

/-- Largest value of an integer format (01 R7). -/
def Fmt.intMax (f : Fmt) : Int :=
  if f.isSignedInt then (2 ^ (f.bits - 1) : Int) - 1 else (2 ^ f.bits : Int) - 1

/-- The value of an element of an integer format: signed for In, unsigned for U8. -/
def Fmt.intOf (f : Fmt) (x : Nat) : Int :=
  if f.isSignedInt then signedOf f.bits x else ((x % 2 ^ f.bits : Nat) : Int)

/-- Narrow an exact integer to a format: wrap, or clamp when `sat` (01 R7). -/
def Fmt.intFit (f : Fmt) (sat : Bool) (v : Int) : Nat :=
  wrapInt f.bits (if sat then clampInt f.intMin f.intMax v else v)

/-- Integer indefinite value of a conversion (01 R13). -/
def Fmt.intIndefinite (f : Fmt) : Nat := if f.isSignedInt then 2 ^ (f.bits - 1) else 0

/-! ## Floating-point values -/

/-- The value of a floating-point code: NaN, an infinity, or ±m·2^e (m = 0 is a signed zero). -/
inductive FV where
  | nan
  | inf (neg : Bool)
  | num (neg : Bool) (m : Nat) (e : Int)
  deriving DecidableEq, Repr

/-- Fraction bits of a floating-point format (01 R8). -/
def Fmt.frac : Fmt → Nat
  | .fp32 => 23 | .bf16 => 7 | .e4m3 => 3 | .e5m2 => 2 | _ => 0

/-- Exponent bias (01 R8). -/
def Fmt.bias : Fmt → Nat
  | .fp32 => 127 | .bf16 => 127 | .e4m3 => 7 | .e5m2 => 15 | _ => 0

/-- Largest finite magnitude code (01 R8). -/
def Fmt.maxMag : Fmt → Nat
  | .fp32 => 0x7F7FFFFF | .bf16 => 0x7F7F | .e4m3 => 0x7E | .e5m2 => 0x7B | _ => 0

/-- Canonical NaN (01 R10). -/
def Fmt.nanCode : Fmt → Nat
  | .fp32 => 0x7FC00000 | .bf16 => 0x7FC0 | .e4m3 => 0x7F | .e5m2 => 0x7E | _ => 0

/-- Code of +∞; E4M3 has none and uses its NaN (01 R13). -/
def Fmt.infCode : Fmt → Nat
  | .fp32 => 0x7F800000 | .bf16 => 0x7F80 | .e4m3 => 0x7F | .e5m2 => 0x7C | _ => 0

/-- The exponent of the unit in the last place of the subnormals: 1 − bias − frac. -/
def Fmt.qmin (f : Fmt) : Int := 1 - (f.bias : Int) - (f.frac : Int)

/-- Decode a floating-point code (01 R8). -/
def Fmt.decode (f : Fmt) (x : Nat) : FV :=
  let neg := x / 2 ^ (f.bits - 1) % 2 = 1
  let mag := x % 2 ^ (f.bits - 1)
  if mag ≤ f.maxMag then
    let ef := mag / 2 ^ f.frac
    let fr := mag % 2 ^ f.frac
    if ef = 0 then .num neg fr f.qmin else .num neg (2 ^ f.frac + fr) (f.qmin + (ef : Int) - 1)
  else if f ≠ .e4m3 ∧ mag = f.infCode then .inf neg
  else .nan

/-- Bit length of a natural number. -/
def bitLen (m : Nat) : Nat := if m = 0 then 0 else Nat.log2 m + 1

/-- Does rounding the positive quantity whose kept part is `n`, whose rest compares with half a unit as
(`r` against `half`) plus `sticky`, go up (01 R12)? -/
def roundsUp (rnd : Rnd) (neg : Bool) (n r half : Nat) (sticky : Bool) : Bool :=
  match rnd with
  | .rne => if half < r then true else if r < half then false else sticky || n % 2 == 1
  | .rtz => false
  | .rdn => neg && (r != 0 || sticky)
  | .rup => !neg && (r != 0 || sticky)

/-- Round the positive value m·2^e (plus something below 2^e when `sticky`) to the precision of `f` with
unbounded exponent range, as a magnitude code that may exceed `maxMag` (01 R9, R13). -/
def Fmt.roundMag (f : Fmt) (rnd : Rnd) (neg : Bool) (m : Nat) (e : Int) (sticky : Bool) : Nat :=
  if m = 0 ∧ ¬ sticky then 0
  else
    let top : Int := (bitLen m : Int) - 1 + e
    let q : Int := max (top - (f.frac : Int)) f.qmin
    let sh : Int := q - e
    let base : Nat := (q - f.qmin).toNat * 2 ^ f.frac
    if sh ≤ 0 then base + m * 2 ^ ((-sh).toNat)
    else
      let k := sh.toNat
      let n := m / 2 ^ k
      let r := m % 2 ^ k
      base + n + (if roundsUp rnd neg n (2 * r) (2 ^ k) sticky then 1 else 0)

/-- Put a sign on a magnitude code. -/
def Fmt.signed (f : Fmt) (neg : Bool) (mag : Nat) : Nat := mag + (if neg then 2 ^ (f.bits - 1) else 0)

/-- The overflow result: largest finite value when `sat`, else the IEEE result of 01 R14; E4M3 writes its
NaN where the IEEE rule gives an infinity (01 R13). -/
def Fmt.overflow (f : Fmt) (rnd : Rnd) (sat neg : Bool) : Nat :=
  if sat then f.signed neg f.maxMag
  else
    let toInf := match rnd with
      | .rne => true
      | .rtz => false
      | .rdn => neg
      | .rup => !neg
    if toInf then (if f = .e4m3 then f.nanCode else f.signed neg f.infCode) else f.signed neg f.maxMag

/-- Round a nonzero magnitude and apply the overflow rule. -/
def Fmt.finish (f : Fmt) (rnd : Rnd) (sat neg : Bool) (m : Nat) (e : Int) (sticky : Bool) : Nat :=
  let mag := f.roundMag rnd neg m e sticky
  if mag ≤ f.maxMag then f.signed neg mag else f.overflow rnd sat neg

/-- Encode an exact value into a floating-point format (01 R13) (PRESUMED, log 8). -/
def Fmt.encode (f : Fmt) (rnd : Rnd) (sat : Bool) : FV → Nat
  | .nan => f.nanCode
  | .inf neg =>
    if f = .e4m3 then (if sat then f.signed neg f.maxMag else f.nanCode) else f.signed neg f.infCode
  | .num neg m e => f.finish rnd sat neg m e false

/-! ## Exact arithmetic -/

/-- The sign of an exact zero sum of operands that are not two zeros of one sign (01 R9). -/
def zeroSign (rnd : Rnd) : Bool := match rnd with | .rdn => true | _ => false

/-- Signed integer ±m. -/
def smag (neg : Bool) (m : Nat) : Int := if neg then -(m : Int) else (m : Int)

/-- Exact sum (01 R9, R10). -/
def FV.add (rnd : Rnd) : FV → FV → FV
  | .nan, _ => .nan
  | _, .nan => .nan
  | .inf a, .inf b => if a = b then .inf a else .nan
  | .inf a, .num .. => .inf a
  | .num .., .inf b => .inf b
  | .num n1 m1 e1, .num n2 m2 e2 =>
    let e := min e1 e2
    let v := smag n1 m1 * 2 ^ (e1 - e).toNat + smag n2 m2 * 2 ^ (e2 - e).toNat
    if v = 0 then
      if m1 = 0 ∧ m2 = 0 ∧ n1 = n2 then .num n1 0 0 else .num (zeroSign rnd) 0 0
    else .num (v < 0) v.natAbs e

/-- Negation of a value. -/
def FV.neg : FV → FV
  | .nan => .nan
  | .inf n => .inf (!n)
  | .num n m e => .num (!n) m e

/-- Exact product (01 R9, R10). -/
def FV.mul : FV → FV → FV
  | .nan, _ => .nan
  | _, .nan => .nan
  | .inf a, .inf b => .inf (a != b)
  | .inf a, .num b m _ => if m = 0 then .nan else .inf (a != b)
  | .num a m _, .inf b => if m = 0 then .nan else .inf (a != b)
  | .num a m e, .num b m' e' => .num (a != b) (m * m') (e + e')

/-- Exact comparison of two numbers as integers over a common exponent: (a, b) with a ? b. -/
def alignPair (n1 : Bool) (m1 : Nat) (e1 : Int) (n2 : Bool) (m2 : Nat) (e2 : Int) : Int × Int :=
  let e := min e1 e2
  (smag n1 m1 * 2 ^ (e1 - e).toNat, smag n2 m2 * 2 ^ (e2 - e).toNat)

/-- Less-than with −0 = +0; false on NaN (01 R11). -/
def FV.lt : FV → FV → Bool
  | .nan, _ => false
  | _, .nan => false
  | .inf a, .inf b => a && !b
  | .inf a, .num .. => a
  | .num .., .inf b => !b
  | .num n1 m1 e1, .num n2 m2 e2 =>
    let p := alignPair n1 m1 e1 n2 m2 e2
    decide (p.1 < p.2)

/-- Equality with −0 = +0; false on NaN (01 R11). -/
def FV.eq : FV → FV → Bool
  | .nan, _ => false
  | _, .nan => false
  | .inf a, .inf b => a == b
  | .inf _, .num .. => false
  | .num .., .inf _ => false
  | .num n1 m1 e1, .num n2 m2 e2 =>
    let p := alignPair n1 m1 e1 n2 m2 e2
    decide (p.1 = p.2)

/-- Less-or-equal; false on NaN. -/
def FV.le (a b : FV) : Bool := a.lt b || a.eq b

/-- Is the value NaN? -/
def FV.isNan : FV → Bool | .nan => true | _ => false

/-- Is the value a negative zero? -/
def FV.isNegZero : FV → Bool | .num true 0 _ => true | _ => false

/-- Order with −0 below +0, for minimum and maximum (01 R11). -/
def FV.below (a b : FV) : Bool :=
  a.lt b || (a.eq b && a.isNegZero && !b.isNegZero)

/-- Comparison by an FCMP.cc code (01 R11, 02 R38). -/
def FcmpCc.test (cc : FcmpCc) (a b : FV) : Bool :=
  match cc with
  | .eq => a.eq b
  | .lt => a.lt b
  | .le => a.le b
  | .un => a.isNan || b.isNan

/-! ## Operations on codes -/

/-- a + b rounded once. -/
def Fmt.fadd (f : Fmt) (rnd : Rnd) (a b : Nat) : Nat :=
  f.encode rnd false (FV.add rnd (f.decode a) (f.decode b))

/-- a − b rounded once. -/
def Fmt.fsub (f : Fmt) (rnd : Rnd) (a b : Nat) : Nat :=
  f.encode rnd false (FV.add rnd (f.decode a) (f.decode b).neg)

/-- a · b rounded once. -/
def Fmt.fmul (f : Fmt) (rnd : Rnd) (a b : Nat) : Nat :=
  f.encode rnd false (FV.mul (f.decode a) (f.decode b))

/-- a · b + c with one rounding. -/
def Fmt.ffma (f : Fmt) (rnd : Rnd) (a b c : Nat) : Nat :=
  f.encode rnd false (FV.add rnd (FV.mul (f.decode a) (f.decode b)) (f.decode c))

/-- Minimum (01 R11); the operand is returned with its own bits. -/
def Fmt.fmin (f : Fmt) (a b : Nat) : Nat :=
  if (f.decode a).isNan then (if (f.decode b).isNan then f.nanCode else b)
  else if (f.decode b).isNan then a
  else if (f.decode b).below (f.decode a) then b else a

/-- Maximum (01 R11). -/
def Fmt.fmax (f : Fmt) (a b : Nat) : Nat :=
  if (f.decode a).isNan then (if (f.decode b).isNan then f.nanCode else b)
  else if (f.decode b).isNan then a
  else if (f.decode a).below (f.decode b) then b else a

/-- Sign cleared; NaN gives the canonical NaN (05 R121). -/
def Fmt.fabs (f : Fmt) (a : Nat) : Nat :=
  if (f.decode a).isNan then f.nanCode else a % 2 ^ (f.bits - 1)

/-- Sign inverted; NaN gives the canonical NaN (05 R121). -/
def Fmt.fneg (f : Fmt) (a : Nat) : Nat :=
  if (f.decode a).isNan then f.nanCode else a ^^^ 2 ^ (f.bits - 1)

/-! ## Conversions (01 R13) -/

/-- Round ±m·2^e to an integer under `rnd`. -/
def roundToInt (rnd : Rnd) (neg : Bool) (m : Nat) (e : Int) : Int :=
  if 0 ≤ e then smag neg (m * 2 ^ e.toNat)
  else
    let k := (-e).toNat
    let n := m / 2 ^ k
    let r := m % 2 ^ k
    smag neg (n + (if roundsUp rnd neg n (2 * r) (2 ^ k) false then 1 else 0))

/-- Convert an exact value to a format: integer, or floating-point. -/
def Fmt.ofFV (f : Fmt) (rnd : Rnd) (sat : Bool) (v : FV) : Nat :=
  if f.isInt then
    match v with
    | .nan => if sat then 0 else f.intIndefinite
    | .inf neg => if sat then wrapInt f.bits (if neg then f.intMin else f.intMax) else f.intIndefinite
    | .num neg m e =>
      let i := roundToInt rnd neg m e
      if f.intMin ≤ i ∧ i ≤ f.intMax then wrapInt f.bits i
      else if sat then wrapInt f.bits (clampInt f.intMin f.intMax i) else f.intIndefinite
  else f.encode rnd sat v

/-- An integer as an exact value. -/
def FV.ofInt (v : Int) : FV := .num (v < 0) v.natAbs 0

/-- Convert the low bits of `x` from one format to another (01 R13, R14). -/
def convert (from_ to_ : Fmt) (rnd : Rnd) (sat : Bool) (x : Nat) : Nat :=
  if from_.isInt then
    let v := from_.intOf x
    if to_.isInt then to_.intFit sat v else to_.ofFV rnd sat (FV.ofInt v)
  else to_.ofFV rnd sat (from_.decode x)

/-! ## Square roots and quotients to any precision -/

/-- Floor square root by bits: `k` bits of the root remain to be tried. -/
def isqrtBits (x : Nat) : Nat → Nat → Nat
  | 0, r => r
  | k + 1, r =>
    let t := r + 2 ^ k
    isqrtBits x k (if t * t ≤ x then t else r)

/-- Floor of the square root. -/
def isqrt (x : Nat) : Nat := isqrtBits x (bitLen x / 2 + 1) 0

/-- a ÷ b for positive a, b as (n, e, sticky): n·2^e with `extra` bits kept below the leading one. -/
def quot (a b : Nat) (e : Int) (extra : Nat) : Nat × Int × Bool :=
  let k := bitLen b + extra
  let n := a * 2 ^ k / b
  (n, e - (k : Int), a * 2 ^ k % b != 0)

/-- 1 ÷ a, correctly rounded (05 R121). -/
def Fmt.frcp (f : Fmt) (rnd : Rnd) (a : Nat) : Nat :=
  match f.decode a with
  | .nan => f.nanCode
  | .inf neg => f.signed neg 0
  | .num neg m e =>
    if m = 0 then f.signed neg f.infCode
    else
      let q := quot 1 m (-e) (f.frac + 200)
      f.finish rnd false neg q.1 q.2.1 q.2.2

/-- 1 ÷ √a, correctly rounded (05 R121). -/
def Fmt.frsq (f : Fmt) (rnd : Rnd) (a : Nat) : Nat :=
  match f.decode a with
  | .nan => f.nanCode
  | .inf neg => if neg then f.nanCode else 0
  | .num neg m e =>
    if m = 0 then f.signed neg f.infCode
    else if neg then f.nanCode
    else
      let odd := e % 2 ≠ 0
      let m' := if odd then m * 2 else m
      let e' := if odd then e - 1 else e
      let k := bitLen m' + f.frac + 40
      let n := isqrt (2 ^ (2 * k) / m')
      f.finish rnd false false n (-(e' / 2) - (k : Int)) (n * n * m' != 2 ^ (2 * k))

/-! ## 2^a and log2(a), correctly rounded

Each is enclosed between two fixed-point bounds. When both bounds have one floor, that floor with a sticky bit
rounds as the exact value does, since no exact value other than a power of two is a fixed-point number. -/

/-- Multiply the roots 2^(2^-i) for the set bits of the fraction `fr` of `n` bits, from the highest bit down;
`lo`, `hi` bound the current root and `plo`, `phi` the product, at `prec` fraction bits. -/
def exp2Bits (prec : Nat) (fr : Nat) : Nat → Nat → Nat → Nat → Nat → Nat × Nat
  | 0, _, _, plo, phi => (plo, phi)
  | n + 1, lo, hi, plo, phi =>
    let lo' := isqrt (lo * 2 ^ prec)
    let hi' := isqrt (hi * 2 ^ prec) + 1
    if fr / 2 ^ n % 2 = 1 then
      exp2Bits prec fr n lo' hi' (plo * lo' / 2 ^ prec) (phi * hi' / 2 ^ prec + 1)
    else exp2Bits prec fr n lo' hi' plo phi

/-- Floor of 2^(fr/2^n) at `prec` fraction bits, when the bounds decide it; else the lower bound. The list
gives the precisions to try (UNVERIFIED, log 25). -/
def exp2Floor (fr n : Nat) : List Nat → Nat × Nat
  | [] => (1, 0)
  | [prec] => ((exp2Bits prec fr n (2 * 2 ^ prec) (2 * 2 ^ prec) (2 ^ prec) (2 ^ prec)).1, prec)
  | prec :: more =>
    let b := exp2Bits prec fr n (2 * 2 ^ prec) (2 * 2 ^ prec) (2 ^ prec) (2 ^ prec)
    if (b.1 / 2 ^ 64 == b.2 / 2 ^ 64) then (b.1 / 2 ^ 64, prec - 64) else exp2Floor fr n more

/-- 2^a, correctly rounded (05 R121) (UNVERIFIED, log 25). -/
def Fmt.fexp2 (f : Fmt) (rnd : Rnd) (a : Nat) : Nat :=
  match f.decode a with
  | .nan => f.nanCode
  | .inf neg => if neg then 0 else f.infCode
  | .num neg m e =>
    if m = 0 then f.finish rnd false false 1 0 false
    else if 0 ≤ e ∨ m / 2 ^ (-e).toNat ≥ 300 then
      let i := if 0 ≤ e then min (m * 2 ^ (min e 9).toNat) 300 else 300
      f.finish rnd false false 1 (smag neg i) (decide (300 ≤ i))
    else
      let n := (-e).toNat
      let v := smag neg m
      let i := v / (2 ^ n : Int)
      let fr := (v % (2 ^ n : Int)).toNat
      if fr = 0 then f.finish rnd false false 1 i false
      else
        let b := exp2Floor fr n [320, 512, 1024]
        f.finish rnd false false b.1 (i - (b.2 : Int)) true

/-- Bits of log2 of the number in [1, 2) bounded by `lo`, `hi` at `prec` fraction bits: each squaring gives one
bit. `none` when the bounds no longer decide a bit. -/
def log2Bits (prec : Nat) : Nat → Nat → Nat → Nat → Option Nat
  | 0, _, _, acc => some acc
  | n + 1, lo, hi, acc =>
    let lo' := lo * lo / 2 ^ prec
    let hi' := hi * hi / 2 ^ prec + 1
    if 2 * 2 ^ prec ≤ lo' then log2Bits prec n (lo' / 2) (hi' / 2 + 1) (2 * acc + 1)
    else if hi' ≤ 2 * 2 ^ prec then log2Bits prec n lo' hi' (2 * acc)
    else none

/-- Floor of log2(m/2^k)·2^n for 2^k ≤ m < 2^(k+1), by the first precision of the list that decides it (UNVERIFIED,
log 25). -/
def log2Floor (m k n : Nat) : List Nat → Nat
  | [] => 0
  | prec :: more =>
    let x := m * 2 ^ prec / 2 ^ k
    match log2Bits prec n x (if m * 2 ^ prec % 2 ^ k = 0 then x else x + 1) 0 with
    | some r => r
    | none => log2Floor m k n more

/-- log2 of the positive number m·2^e as (neg, n, e, sticky). -/
def log2Exact (m : Nat) (e : Int) : Bool × Nat × Int × Bool :=
  let k := bitLen m - 1
  let i : Int := (k : Int) + e
  if m = 2 ^ k then (decide (i < 0), i.natAbs, 0, false)
  else
    let n := 192
    let fr := log2Floor m k n [512, 1024, 2048]
    if 0 ≤ i then (false, i.toNat * 2 ^ n + fr, -(n : Int), true)
    else (true, i.natAbs * 2 ^ n - fr - 1, -(n : Int), true)

/-- log2(a), correctly rounded (05 R121) (UNVERIFIED, log 25). -/
def Fmt.flog2 (f : Fmt) (rnd : Rnd) (a : Nat) : Nat :=
  match f.decode a with
  | .nan => f.nanCode
  | .inf neg => if neg then f.nanCode else f.infCode
  | .num neg m e =>
    if m = 0 then f.signed true f.infCode
    else if neg then f.nanCode
    else
      let r := log2Exact m e
      if r.2.1 = 0 ∧ ¬ r.2.2.2 then 0 else f.finish rnd false r.1 r.2.1 r.2.2.1 r.2.2.2

/-- ln 2 at `n` fraction bits, from below, with the sum of 1/(k·2^k) cut after `n` terms: the error is below
n + 2 units. -/
def ln2Floor (n : Nat) : Nat → Nat
  | 0 => 0
  | k + 1 => ln2Floor n k + 2 ^ n / ((k + 1) * 2 ^ (k + 1))

/-- RNE(ln n) as FP32 for a count n ≥ 1 (09 R223): log2 n times ln 2, both to 192 bits. -/
def fp32LnNat (n : Nat) : Nat :=
  if n ≤ 1 then 0
  else
    let l := log2Exact n 0
    let fr := if l.2.2.2 then l.2.1 else l.2.1 * 2 ^ 192
    let p := fr * ln2Floor 192 200 / 2 ^ 192
    Fmt.fp32.finish .rne false false (p / 2 ^ 32) (-160) true

/-- RNE(log2 n) as FP32 (09 R223). -/
def fp32Log2Nat (n : Nat) : Nat :=
  if n ≤ 1 then 0
  else
    let l := log2Exact n 0
    Fmt.fp32.finish .rne false l.1 l.2.1 l.2.2.1 l.2.2.2

/-! ## Microscaled blocks (01 R15–R18) -/

/-- Element width in bits. -/
def MxFmt.bits : MxFmt → Nat | .mxi8 => 8 | .mxi6 => 6 | .mxi4 => 4
/-- Implicit fraction bits f (01 R15). -/
def MxFmt.f : MxFmt → Nat | .mxi8 => 6 | .mxi6 => 4 | .mxi4 => 2
/-- Smallest code. -/
def MxFmt.lo (x : MxFmt) : Int := -(2 ^ (x.bits - 1) : Int)
/-- Largest code. -/
def MxFmt.hi (x : MxFmt) : Int := (2 ^ (x.bits - 1) : Int) - 1
/-- The signed code in the low bits. -/
def MxFmt.code (x : MxFmt) (v : Nat) : Int := signedOf x.bits v
/-- The V-slot format of the same name. -/
def MxFmt.fmt : MxFmt → Fmt | .mxi8 => .mxi8 | .mxi6 => .mxi6 | .mxi4 => .mxi4

/-- The exact value of a code under a scale byte; a NaN block reads as NaN (01 R15). -/
def MxFmt.value (x : MxFmt) (code : Int) (scale : Nat) : FV :=
  if scale = 255 then .nan
  else .num (code < 0) code.natAbs ((scale : Int) - 127 - (x.f : Int))

/-- Decode a code to FP32 or BF16: exact but for −2^128, which gives −∞ (01 R15). A zero is +0. -/
def MxFmt.decodeTo (x : MxFmt) (to_ : Fmt) (code : Int) (scale : Nat) : Nat :=
  to_.encode .rne false (x.value code scale)

/-- Quantise a value with a given scale (01 R17). -/
def MxFmt.quantise (x : MxFmt) (rnd : Rnd) (scale : Nat) (v : FV) : Int :=
  if scale = 255 then 0
  else
    match v with
    | .nan => 0
    | .inf neg => if neg then x.lo else x.hi
    | .num neg m e =>
      clampInt x.lo x.hi (roundToInt rnd neg m (e + (x.f : Int) - ((scale : Int) - 127)))

/-- Magnitude order of two values that are numbers: |a| < |b|. -/
def FV.magLt : FV → FV → Bool
  | .num _ m1 e1, .num _ m2 e2 => FV.lt (.num false m1 e1) (.num false m2 e2)
  | _, _ => false

/-- The value of largest magnitude of a block, 0 for an empty one. -/
def amax (vs : List FV) : FV := vs.foldl (fun a v => if a.magLt v then v else a) (.num false 0 0)

/-- Is the value finite? -/
def FV.isFinite : FV → Bool | .num .. => true | _ => false

/-- Is the value a zero? -/
def FV.isZero : FV → Bool | .num _ 0 _ => true | _ => false

/-- The scale a block gets when the device chooses it (01 R18). -/
def blockScale (vs : List FV) : Nat :=
  if vs.any (fun v => !v.isFinite) then 255
  else
    match amax vs with
    | .num _ m e => if m = 0 then 0 else (clampInt (-127) 127 ((bitLen m : Int) - 1 + e) + 127).toNat
    | _ => 255

/-- Choose scale and codes of a block (01 R18). -/
def MxFmt.encodeBlock (x : MxFmt) (rnd : Rnd) (vs : List FV) : Nat × List Int :=
  let sc := blockScale vs
  if sc = 255 then (255, vs.map fun _ => 0)
  else if (amax vs).isZero then (0, vs.map fun _ => 0)
  else (sc, vs.map (x.quantise rnd sc))

/-- Pack codes of n bits with no gaps, element 0 lowest (01 R16). -/
def packCodes (n : Nat) : List Int → Nat
  | [] => 0
  | c :: cs => wrapInt n c + 2 ^ n * packCodes n cs

/-- Products per cell P of a format pair (01 R19). -/
def gangOf (a b : MxFmt) : Nat :=
  match a, b with
  | .mxi4, .mxi4 => 2
  | .mxi4, _ => 1
  | _, .mxi4 => 1
  | _, _ => 0

/-- K = 128·P (06 R140). -/
def gangK (gang : Nat) : Nat := 128 * 2 ^ gang

/-! ## Residue (04 R113) -/

/-- The residue of a 64-bit value: value mod 15. -/
def residue (x : Word) : BitVec 4 := BitVec.ofNat 4 (x.toNat % 15)

end Sys2Proof
end

