-- ==== Sys2Proof/Config.lean ====
section
/-! DEFINITION. What is fixed for one package but not by the spec, and the free values: constants without a body, of
which nothing can be proved but what holds for every value. -/

namespace Sys2Proof

/-! ## The configuration and owner records (21 R336) -/

/-- Package id, as PKG reports (21 R336; log 13) (DESIGN CHOICE, log 13). -/
opaque Config.pkgId : BitVec 16
/-- Serial number (21 R336). -/
opaque Config.serial : Word
/-- Configuration record number (21 R336). -/
opaque Config.recordNo : BitVec 32
/-- The least security version of a firmware stage that may run (21 R336). -/
opaque Config.minVersion : BitVec 32
/-- Device identity public key, x and y (21 R336). -/
opaque Config.identityKey : BitVec 256 × BitVec 256
/-- Repair data of the arrays and HBM lanes (21 R336): no rule of the machine reads it. -/
opaque Config.repair : List Byte
/-- Trim and calibration of clocks and lanes (21 R336): no rule of the machine reads it. -/
opaque Config.trim : List Byte
/-- GiB of shadow region the configuration record asks for (13 R255, 21 R336). -/
opaque Config.shadowGiB : Nat
/-- Fabric address of the operator ring and of what the firmware reports (21 R336). -/
opaque Config.mgmtEndpoint : Word
/-- The configuration record as it stands in flash, and its signature (21 R336) (DESIGN CHOICE, log 13). -/
opaque Config.cfgRecord : List Byte × (BitVec 256 × BitVec 256)
/-- The owner records in flash at a boot, each with its signature: the first owner's, then each that replaced the one
before (21 R336) (DESIGN CHOICE, log 13). -/
opaque Config.owners : Nat → List (List Byte × (BitVec 256 × BitVec 256))
/-- The public key an owner record holds: the record's form is not the spec's (21 R336) (DESIGN CHOICE, log 13). -/
opaque Config.ownerKey : List Byte → BitVec 256 × BitVec 256
/-- The firmware stages in flash at a boot: image, signature, security version (21 R335) (DESIGN CHOICE, log 13). -/
opaque Config.stages : Nat → List (List Byte × (BitVec 256 × BitVec 256) × BitVec 32)
/-- The root public key, and the digest of it that the boot ROM holds (21 R335). -/
opaque Config.rootKey : BitVec 256 × BitVec 256
/-- SHA-256 of the root public key, in the boot ROM (21 R335). -/
opaque Config.rootDigest : BitVec 256
/-- The device identity key as a boot unwraps it from flash (21 R335) (DESIGN CHOICE, log 13). -/
opaque Config.unwrapped : Nat → Nat
/-- Shadow slots of a die: seven eighths of its quarter of the shadow region, which is 4 to 128 GiB (13 R255). -/
def Config.shadowSlots : Nat := max 4 (min 128 Config.shadowGiB) * 3670016
/-- The operator's public key at a boot: that of the newest owner record (21 R336) (DEDUCED, log 89). -/
def Config.ownerAt (n : Nat) : BitVec 256 × BitVec 256 := ((Config.owners n).getLast?.map fun r => Config.ownerKey r.1).getD (0, 0)
/-- The public key a trusted fingerprint names (17 R290) (DESIGN CHOICE, log 13). -/
opaque Config.signerKey : BitVec 256 → BitVec 256 × BitVec 256
/-- The nonce of an ECDSA signature by the identity key: the occasion, the digest, the attempt (21 R337) (DESIGN CHOICE, log
13). -/
opaque Config.nonce : Nat → BitVec 256 → Nat → Nat
/-- Public keys of packages whose checkpoints RESTORE reads (21 R344) (DESIGN CHOICE, log 13). -/
opaque Config.peerKey : Word → BitVec 256 × BitVec 256
/-- The chunks and manifest a safe tier gives RESTORE: the byte at an address of an endpoint (21 R344). -/
opaque Config.safeTier : Word → Word → Nat → Byte

/-! ## Free values -/

/-- The three hash functions of the read signature on this stepping (13 R259: not published). -/
opaque Config.sigHash : Nat → Nat → BitVec 12
/-- A choice the spec leaves to the implementation (14 R278, 17 R305; log 15): the counter names the occasion (DESIGN
CHOICE, log 3, 15, 18). -/
opaque Config.pick : Nat → Nat
/-- Where the installer and the scheduler place what they allocate in a partition's address space (17 R305, R312)
(DESIGN CHOICE, log 3, 15). -/
opaque Config.place : Nat → Nat → Word
/-- A byte of a reduction window's home memory as a fabric read finds it (23 R361): the window, the address, the cycle and the
occasion (DESIGN CHOICE, log 18). -/
opaque Config.homeByte : Nat → Nat → Nat → Nat → Byte
/-- Poison of an 8-byte word there (DESIGN CHOICE, log 18). -/
opaque Config.homePoison : Nat → Nat → Nat → Nat → Option Tag
/-- A port that leads to a package, and the switch it is trained to (23 R358, R365). -/
opaque Config.portOf : BitVec 16 → BitVec 4

/-- Offset in management-private memory of the place of a core snapshot: 16 of them are kept in turn (21 R328) (DESIGN CHOICE,
log 115). -/
opaque Config.snapshotAt : Nat → Nat
/-- Offset in management-private memory of the copy of an error record: 65,536 of them are kept in turn (21 R330) (DESIGN
CHOICE, log 115). -/
opaque Config.errCopyAt : Nat → Nat
/-- Which die's slice of the scheduler holds a queue (14; 21 R339) (DEDUCED, log 74). -/
opaque Config.sliceOf : Nat → Nat
/-- What an independent preload copies into a granule: lines of it, and the addresses of the global lines (14 R282).
The counter names the occasion (DESIGN CHOICE, log 70). -/
opaque Config.preload : Nat → List (Fin 1024 × Word)
/-- Step of the coolant valve of an HBM-edge zone at its die's expected load (22 R350) (DESIGN CHOICE, log 81). -/
opaque Config.edgeLoad : Nat → BitVec 4
/-- Does an inlet valve that closes for an evacuation fail to reach its end stop (22 R355)? The counter names the
occasion (DESIGN CHOICE, log 3). -/
opaque Config.valveFails : Nat → Bool

/-- Does the MLDW at a PC of a kernel of a container load tiles of a tensor: the container's sections do not say what its m
register holds (17 R298) (DESIGN CHOICE, log 91). -/
opaque Config.mldwLoads : List Byte → Nat → Nat → Nat → Bool
/-- Is the last axis of a tensor of a container its block axis? `.tensor` declares it and the sections do not hold it (17
R298, R303) (DESIGN CHOICE, log 91). -/
opaque Config.baxis : List Byte → Nat → Bool
/-- Is an import of a kernel of a container lazy (17 R307)? The sections do not hold it (DESIGN CHOICE, log 91). -/
opaque Config.lazyImport : List Byte → Nat → Nat → Bool
/-- The paths of 02 R55, by their place in its table, that the L-slot request, or the X-slot one, at a PC of a kernel may
take once the kernel is placed on so many clusters: the container's sections do not hold its addresses (17 R304) (DESIGN
CHOICE, log 91). -/
opaque Config.paths : List Byte → Nat → Nat → Bool → Nat → List (Fin 5)
/-- The declared join of the branch at a PC of a kernel: the sections do not hold it (03 R79) (DESIGN CHOICE, log 91). -/
opaque Config.joinOf : List Byte → Nat → Nat → Option Nat
/-- Is there memory for an image (17 R312 SPACE)? The counter names the occasion (DESIGN CHOICE, log 3). -/
opaque Config.hasSpace : Nat → Bool

/-! ## Figures of stepping B1 -/

/-- Cycles after which missing landing data lands as poison (02 R54, 03 R71). -/
def Config.landTimeout : Nat := 65536
/-- Resends of a commit message before it is given up (23 R365). -/
def Config.resendLimit : Nat := 64
/-- Bytes of a die's message holding buffer (23 R367). -/
def Config.holdBytes : Nat := 1048576

end Sys2Proof
end

