-- ==== Sys2Proof/Machine/Map.lean ====
section
/-! DEFINITION. The sparse maps every store of the machine is held in, and little-endian byte helpers. -/

namespace Sys2Proof

/-- What key `k` reads as: its entry, or the default `d`. -/
def mget {α : Type} (d : α) : SMap α → Nat → α
  | [], _ => d
  | (j, v) :: t, k => if k = j then v else if k < j then d else mget d t k

/-- Write key `k`, keeping the canonical form: writing the default removes the entry. -/
def mset {α : Type} [DecidableEq α] (d : α) : SMap α → Nat → α → SMap α
  | [], k, v => if v = d then [] else [(k, v)]
  | (j, w) :: t, k, v =>
    if k = j then (if v = d then t else (k, v) :: t)
    else if k < j then (if v = d then (j, w) :: t else (k, v) :: (j, w) :: t)
    else (j, w) :: mset d t k v

/-- Every key of the map is above `lo`, keys rise strictly, and no entry is the default. -/
def mwfFrom {α : Type} [DecidableEq α] (d : α) : Nat → SMap α → Bool
  | _, [] => true
  | lo, (j, v) :: t => decide (lo ≤ j) && decide (v ≠ d) && mwfFrom d (j + 1) t

/-- The canonical form: strictly rising keys and no default entry. -/
def mwf {α : Type} [DecidableEq α] (d : α) (m : SMap α) : Bool := mwfFrom d 0 m

/-- Keep the entries whose key satisfies `p`. -/
def mfilter {α : Type} (p : Nat → Bool) (m : SMap α) : SMap α := m.filter fun e => p e.1

/-- Add each of a list of (key, value) pairs in order. -/
def msetAll {α : Type} [DecidableEq α] (d : α) (m : SMap α) (l : List (Nat × α)) : SMap α :=
  l.foldl (fun m e => mset d m e.1 e.2) m

/-- Clear keys `lo … lo + n − 1`. -/
def mclear {α : Type} (m : SMap α) (lo n : Nat) : SMap α := mfilter (fun k => k < lo || lo + n ≤ k) m

/-- Entries of keys `lo … lo + n − 1`, keyed from 0. -/
def mslice {α : Type} (m : SMap α) (lo n : Nat) : SMap α :=
  (mfilter (fun k => lo ≤ k && k < lo + n) m).map fun e => (e.1 - lo, e.2)

/-! ## Bytes -/

/-- `n` bytes of a number, least significant first (00 R3). -/
def bytesOf : Nat → Nat → List Byte
  | 0, _ => []
  | n + 1, v => BitVec.ofNat 8 v :: bytesOf n (v / 256)

/-- The number little-endian bytes make. -/
def natOf : List Byte → Nat
  | [] => 0
  | b :: t => b.toNat + 256 * natOf t

/-- Bits [lo + n − 1 : lo] of a number. -/
def bitsAt (w lo n : Nat) : Nat := w / 2 ^ lo % 2 ^ n

/-- Field [lo + n − 1 : lo] of a number as a bit vector. -/
def fld (w lo n : Nat) : BitVec n := BitVec.ofNat n (w / 2 ^ lo)

/-- One bit of a number. -/
def bitAt (w i : Nat) : Bool := w / 2 ^ i % 2 == 1

/-- One bit as 0 or 1. -/
def b2n (b : Bool) : Nat := if b then 1 else 0

/-- Split a list into pieces of `n` elements, at most `k` pieces. -/
def pieces {α : Type} (n : Nat) : Nat → List α → List (List α)
  | 0, _ => []
  | k + 1, l => l.take n :: pieces n k (l.drop n)

/-- Write a field of `n` bits at bit `lo` of a number. -/
def putBits (w lo n v : Nat) : Nat :=
  w / 2 ^ (lo + n) * 2 ^ (lo + n) + (v % 2 ^ n) * 2 ^ lo + w % 2 ^ lo

end Sys2Proof
end

