-- ==== Sys2Proof/WellFormed.lean ====
section
/-! DEFINITION. Which instructions the spec calls instructions: the field values each accepts (02 R43, R50 and the
table of each chapter). An event is well formed whatever it names. -/

namespace Sys2Proof

/-- The integer formats of V-slot integer instructions (05 R119). -/
def Fmt.isVInt : Fmt → Bool
  | .i8 | .i16 | .i32 | .u8 => true
  | _ => false

/-- The formats of 05 R116. -/
def Fmt.isV : Fmt → Bool
  | .i8 | .u8 | .e4m3 | .e5m2 | .i16 | .bf16 | .i32 | .fp32 => true
  | _ => false

/-- FP32 and BF16 (05 R121). -/
def Fmt.isVF : Fmt → Bool
  | .fp32 | .bf16 => true
  | _ => false

/-- Formats FCVT accepts (04 R110). -/
def Fmt.isSConv : Fmt → Bool
  | .mxi8 | .mxi6 | .mxi4 => false
  | _ => true

/-- Formats of VRADD, VRMAX, VRMIN and VSCAN (05 R124). -/
def Fmt.isRed (f : Fmt) : Bool := f.isV && f != .e4m3 && f != .e5m2

/-- Bytes of an element (05 R116). -/
def Fmt.bytes (f : Fmt) : Nat := f.bits / 8

/-- Lanes of a vector register at a format (05 R116). -/
def Fmt.lanes (f : Fmt) : Nat := 256 / f.bytes

/-- Parts VFCVT counts (05 R122). -/
def cvtParts (from_ to_ : Fmt) : Nat :=
  if to_.bytes < from_.bytes then from_.bytes / to_.bytes else to_.bytes / from_.bytes

/-- The control registers of 03 R65. -/
def ctlListed (n : BitVec 12) : Bool :=
  n ∈ [0x000, 0x001, 0x002, 0x008, 0x009, 0x00A, 0x00B, 0x010, 0x011, 0x012, 0x013, 0x018, 0x019,
       0x020, 0x021, 0x022, 0x023, 0x024, 0x028, 0x029, 0x02A, 0x02B, 0x030,
       0x038, 0x039, 0x03A, 0x03B, 0x03C, 0x040]

/-- A scope other than CTX only with an order (02 R40, R50). -/
def ordScopeOk (o : Ord) (sc : Scope) : Bool := o != .relaxed || sc == .ctx

/-- Order values of loads (05 R129). -/
def Ord.isLoad : Ord → Bool
  | .relaxed | .acquire => true
  | _ => false

/-- Order values of stores (05 R129). -/
def Ord.isStore : Ord → Bool
  | .relaxed | .release => true
  | _ => false

/-- Sizes of atomics (05 R132). -/
def Size.isAtomic : Size → Bool
  | .w | .d => true
  | _ => false

/-- An atomic: size W or D, order and scope agree, no land when it fetches nothing (05 R132). -/
def LScalarArgs.atomicWf (o : LScalarArgs) : Bool :=
  o.size.isAtomic && ordScopeOk o.ord o.scope && (o.t != 0 || o.land == 0)

/-- A scalar load (05 R129). -/
def LScalarArgs.loadWf (o : LScalarArgs) : Bool := o.ord.isLoad && ordScopeOk o.ord o.scope

/-- DIV-class instructions stand in S0 (02 R46). -/
def SRArgs.divWf (o : SRArgs) : Bool := o.pos == .s0

/-- VRADD and VSCAN.ADD: rnd for floating point, sat for integers (05 R124). -/
def redAddWf (f : Fmt) (rnd : Rnd) (sat : Bool) : Bool :=
  f.isRed && (f.isFloat || rnd == .rne) && (f.isInt || !sat)

/-- Is the instruction one the spec calls an instruction? -/
def Instr.wf : Instr → Bool
  | .bri o => o.count != 0
  | .callx o => o.scope == .clu || o.scope == .die || o.scope == .pkg || o.scope == .fab
  | .loop o => o.off != 0
  | .loopr o => o.off != 0
  | .fence o => o.a != o.b
  | .mfc o => ctlListed o.reg
  | .mtc o => ctlListed o.reg
  | .lidx o => decide (o.k.toNat ≤ 5)
  | .div o => o.divWf
  | .divu o => o.divWf
  | .rem o => o.divWf
  | .remu o => o.divWf
  | .bext o => decide (o.bit.toNat + o.len1.toNat + 1 ≤ 64)
  | .bins o => decide (o.bit.toNat + o.len1.toNat + 1 ≤ 64)
  | .fcvt o => o.to_.isSConv && o.from_.isSConv && o.to_ != o.from_
  | .vadd o => o.fmt.isVInt
  | .vsub o => o.fmt.isVInt
  | .vmul o => o.fmt.isVInt
  | .vmulh o => o.fmt.isVInt && !o.sat
  | .vmin o => o.fmt.isVInt && !o.sat
  | .vmax o => o.fmt.isVInt && !o.sat
  | .vabs o => o.fmt.isVInt && o.fmt != .u8
  | .vand o => o.fmt.isVInt && !o.sat
  | .vor o => o.fmt.isVInt && !o.sat
  | .vxor o => o.fmt.isVInt && !o.sat
  | .vshl o => o.fmt.isVInt && !o.sat
  | .vshr o => o.fmt.isVInt && !o.sat
  | .vsar o => o.fmt.isVInt && !o.sat
  | .vcmpCc o => o.fmt.isVInt
  | .vsel o => o.fmt.isV
  | .viota o => o.fmt.isVInt
  | .vmovi o => o.fmt.isVInt
  | .vfadd o => o.fmt.isVF
  | .vfsub o => o.fmt.isVF
  | .vfmul o => o.fmt.isVF
  | .vfma o => o.fmt.isVF
  | .vfmin o => o.fmt.isVF && o.rnd == .rne
  | .vfmax o => o.fmt.isVF && o.rnd == .rne
  | .vfabs o => o.fmt.isVF && o.rnd == .rne
  | .vfneg o => o.fmt.isVF && o.rnd == .rne
  | .vfcmpCc o => o.fmt.isVF
  | .vfrcp o => o.fmt.isVF
  | .vfrsq o => o.fmt.isVF
  | .vfexp2 o => o.fmt.isVF
  | .vflog2 o => o.fmt.isVF
  | .vfcvt o => o.to_.isV && o.from_.isV && o.to_ != o.from_ && decide (o.part.toNat < cvtParts o.from_ o.to_)
  | .vradd o => redAddWf o.fmt o.rnd o.sat
  | .vrmax o => o.fmt.isRed && o.rnd == .rne && !o.sat
  | .vrmin o => o.fmt.isRed && o.rnd == .rne && !o.sat
  | .vscan o =>
    if o.op == .add then redAddWf o.fmt o.rnd o.sat
    else o.fmt.isRed && o.rnd == .rne && (o.fmt.isInt || !o.sat)
  | .vperm o => o.fmt.isV
  | .vbcst o => o.fmt.isV
  | .vext o => o.fmt.isV && decide (o.k.toNat < o.fmt.lanes)
  | .vins o => o.fmt.isV && decide (o.k.toNat < o.fmt.lanes)
  | .vcmpr o => o.fmt.isV
  | .vexpd o => o.fmt.isV
  | .vacrd o => (o.fmt == .fp32 && o.rnd == .rne && !o.sat) || (o.fmt == .bf16 && !o.half)
  | .qcnt o => o.fmt.isV
  | .ld o => o.loadWf
  | .lds o => o.loadWf
  | .st o => o.ord.isStore && ordScopeOk o.ord o.scope
  | .sctaOp o => o.size.isAtomic
  | .aadd o => o.atomicWf
  | .amin o => o.atomicWf
  | .amax o => o.atomicWf
  | .aminu o => o.atomicWf
  | .amaxu o => o.atomicWf
  | .aand o => o.atomicWf
  | .aor o => o.atomicWf
  | .axor o => o.atomicWf
  | .axchg o => o.atomicWf
  | .acas o => o.atomicWf
  | .wkfix o => decide (o.level.toNat ≤ 8)
  | .wget o => o.count != 0
  | .wput o => o.count != 0
  | .wexp o => o.count != 0
  | .cxpk o => o.count != 0
  | .cxun o => o.count != 0
  | .lkradd o => o.fmt.isFloat
  | .evpost o => o.scope == .clu || o.scope == .die || o.scope == .pkg
  | _ => true

end Sys2Proof
end

