-- ==== Sys2Proof/Decode.lean ====
section
/-! DEFINITION. The bundle and slot encodings (02 R32–R50), the micro-word encoding (06 R150), their decoder and their
encoder. A slot word decodes to an instruction when its raw reading is well formed and encodes back to the very word:
so every field the instruction does not use is zero (02 R42) and the gang field agrees with 01 R19. -/

namespace Sys2Proof

/-! ## Code tables -/

/-- Codes of element formats (02 R43). -/
def Fmt.code : Fmt → Nat
  | .i8 => 0
  | .i16 => 1
  | .i32 => 2
  | .i64 => 3
  | .fp32 => 4
  | .bf16 => 5
  | .e4m3 => 6
  | .e5m2 => 7
  | .mxi8 => 8
  | .mxi6 => 9
  | .mxi4 => 10
  | .u8 => 11

/-- element formats (02 R43) of a code. -/
def Fmt.ofCode : Nat → Option Fmt
  | 0 => some .i8
  | 1 => some .i16
  | 2 => some .i32
  | 3 => some .i64
  | 4 => some .fp32
  | 5 => some .bf16
  | 6 => some .e4m3
  | 7 => some .e5m2
  | 8 => some .mxi8
  | 9 => some .mxi6
  | 10 => some .mxi4
  | 11 => some .u8
  | _ => none

/-- Codes of microscaled formats as afmt and bfmt (01 R15). -/
def MxFmt.num : MxFmt → Nat
  | .mxi8 => 0
  | .mxi6 => 1
  | .mxi4 => 2

/-- microscaled formats as afmt and bfmt (01 R15) of a code. -/
def MxFmt.ofCode : Nat → Option MxFmt
  | 0 => some .mxi8
  | 1 => some .mxi6
  | 2 => some .mxi4
  | _ => none

/-- Codes of rounding modes (01 R12). -/
def Rnd.code : Rnd → Nat
  | .rne => 0
  | .rtz => 1
  | .rdn => 2
  | .rup => 3

/-- rounding modes (01 R12) of a code. -/
def Rnd.ofCode : Nat → Option Rnd
  | 0 => some .rne
  | 1 => some .rtz
  | 2 => some .rdn
  | 3 => some .rup
  | _ => none

/-- Codes of scopes (02 R43). -/
def Scope.code : Scope → Nat
  | .ctx => 0
  | .core => 1
  | .clu => 2
  | .die => 3
  | .pkg => 4
  | .fab => 5

/-- scopes (02 R43) of a code. -/
def Scope.ofCode : Nat → Option Scope
  | 0 => some .ctx
  | 1 => some .core
  | 2 => some .clu
  | 3 => some .die
  | 4 => some .pkg
  | 5 => some .fab
  | _ => none

/-- Codes of orders (02 R40). -/
def Ord.code : Ord → Nat
  | .relaxed => 0
  | .acquire => 1
  | .release => 2
  | .acqRel => 3

/-- orders (02 R40) of a code. -/
def Ord.ofCode : Nat → Option Ord
  | 0 => some .relaxed
  | 1 => some .acquire
  | 2 => some .release
  | 3 => some .acqRel
  | _ => none

/-- Codes of sizes (02 R40). -/
def Size.code : Size → Nat
  | .b => 0
  | .h => 1
  | .w => 2
  | .d => 3

/-- sizes (02 R40) of a code. -/
def Size.ofCode : Nat → Option Size
  | 0 => some .b
  | 1 => some .h
  | 2 => some .w
  | 3 => some .d
  | _ => none

/-- Codes of CMP conditions (02 R38). -/
def CmpCc.code : CmpCc → Nat
  | .eq => 0
  | .ne => 1
  | .lt => 2
  | .le => 3
  | .ltu => 4
  | .leu => 5

/-- CMP conditions (02 R38) of a code. -/
def CmpCc.ofCode : Nat → Option CmpCc
  | 0 => some .eq
  | 1 => some .ne
  | 2 => some .lt
  | 3 => some .le
  | 4 => some .ltu
  | 5 => some .leu
  | _ => none

/-- Codes of CMPI conditions (02 R38). -/
def CmpiCc.code : CmpiCc → Nat
  | .eq => 0
  | .ne => 1
  | .lt => 2
  | .le => 3
  | .gt => 4
  | .ge => 5
  | .ltu => 6
  | .geu => 7

/-- CMPI conditions (02 R38) of a code. -/
def CmpiCc.ofCode : Nat → Option CmpiCc
  | 0 => some .eq
  | 1 => some .ne
  | 2 => some .lt
  | 3 => some .le
  | 4 => some .gt
  | 5 => some .ge
  | 6 => some .ltu
  | 7 => some .geu
  | _ => none

/-- Codes of FCMP conditions (02 R38). -/
def FcmpCc.code : FcmpCc → Nat
  | .eq => 0
  | .lt => 1
  | .le => 2
  | .un => 3

/-- FCMP conditions (02 R38) of a code. -/
def FcmpCc.ofCode : Nat → Option FcmpCc
  | 0 => some .eq
  | 1 => some .lt
  | 2 => some .le
  | 3 => some .un
  | _ => none

/-- Codes of SEXT and ZEXT sizes (04 R104). -/
def ExtSize.code : ExtSize → Nat
  | .b => 0
  | .h => 1
  | .w => 2

/-- SEXT and ZEXT sizes (04 R104) of a code. -/
def ExtSize.ofCode : Nat → Option ExtSize
  | 0 => some .b
  | 1 => some .h
  | 2 => some .w
  | _ => none

/-- Codes of engine classes (08 R207). -/
def EngClass.code : EngClass → Nat
  | .ctx => 0
  | .cpy => 1
  | .col => 2
  | .wlk => 3
  | .mtx => 4
  | .crd => 5
  | .hst => 6

/-- engine classes (08 R207) of a code. -/
def EngClass.ofCode : Nat → Option EngClass
  | 0 => some .ctx
  | 1 => some .cpy
  | 2 => some .col
  | 3 => some .wlk
  | 4 => some .mtx
  | 5 => some .crd
  | 6 => some .hst
  | _ => none

/-- Codes of SCTA operations (02 R48). -/
def SctaOp.code : SctaOp → Nat
  | .add => 0
  | .min => 1
  | .max => 2
  | .minu => 3

/-- SCTA operations (02 R48) of a code. -/
def SctaOp.ofCode : Nat → Option SctaOp
  | 0 => some .add
  | 1 => some .min
  | 2 => some .max
  | 3 => some .minu
  | _ => none

/-- Codes of VSCAN operations (05 R124). -/
def ScanOp.code : ScanOp → Nat
  | .add => 0
  | .max => 1
  | .min => 2

/-- VSCAN operations (05 R124) of a code. -/
def ScanOp.ofCode : Nat → Option ScanOp
  | 0 => some .add
  | 1 => some .max
  | 2 => some .min
  | _ => none

/-- Codes of cell operations (06 R150). -/
def CellOp.code : CellOp → Nat
  | .madd => 0
  | .adadd => 1
  | .csel => 2

/-- cell operations (06 R150) of a code. -/
def CellOp.ofCode : Nat → Option CellOp
  | 0 => some .madd
  | 1 => some .adadd
  | 2 => some .csel
  | _ => none

/-- The fmt code of a microscaled format (02 R43). -/
def Fmt.mx : Fmt → Option MxFmt
  | .mxi8 => some .mxi8
  | .mxi6 => some .mxi6
  | .mxi4 => some .mxi4
  | _ => none

/-- pred and pneg as the four bits [pred, pneg] (02 R34). -/
def Guard.bits (g : Guard) : Nat := g.pred.toNat * 2 + b2n g.pneg

/-- The guard in a four-bit field at `lo`. -/
def Guard.at (x lo : Nat) : Guard := ⟨fld x (lo + 1) 3, bitAt x lo⟩

/-! ## Slot formats -/

/-- The C slot (02 R36). -/
def encC (op : Nat) (g : Guard) (a b imm : Nat) : Nat := op * 2 ^ 40 + g.bits * 2 ^ 36 + a * 2 ^ 30 + b * 2 ^ 24 + imm

/-- The S slots (02 R37): `lo` is b and fn, or imm16. -/
def encS (op : Nat) (g : Guard) (d a lo : Nat) : Nat := op * 2 ^ 32 + g.bits * 2 ^ 28 + d * 2 ^ 22 + a * 2 ^ 16 + lo

/-- An S.R word (02 R37). -/
def encSR (op : Nat) (g : Guard) (d a b fn : Nat) : Nat := encS op g d a (b * 2 ^ 10 + fn)

/-- The V slot (02 R39). -/
def encV (op : Nat) (g : Guard) (q : Nat) (qneg : Bool) (vd va vb vc fmt rnd : Nat) (sat : Bool) (s imm : Nat) : Nat :=
  op * 2 ^ 56 + g.bits * 2 ^ 52 + q * 2 ^ 49 + b2n qneg * 2 ^ 48 + vd * 2 ^ 43 + va * 2 ^ 38 + vb * 2 ^ 33 + vc * 2 ^ 28
    + fmt * 2 ^ 24 + rnd * 2 ^ 21 + b2n sat * 2 ^ 20 + s * 2 ^ 14 + imm

/-- The L slot (02 R40). -/
def encL (op : Nat) (g : Guard) (q ord scope t base index size land disp : Nat) : Nat :=
  op * 2 ^ 48 + g.bits * 2 ^ 44 + q * 2 ^ 41 + ord * 2 ^ 39 + scope * 2 ^ 36 + t * 2 ^ 30 + base * 2 ^ 24
    + index * 2 ^ 18 + size * 2 ^ 16 + land * 2 ^ 8 + disp

/-- The M slot (02 R41). -/
def encM (op : Nat) (g : Guard) (acc : Bool) (afmt bfmt gang routine imm : Nat) : Nat :=
  op * 2 ^ 40 + g.bits * 2 ^ 36 + b2n acc * 2 ^ 35 + afmt * 2 ^ 32 + bfmt * 2 ^ 29 + gang * 2 ^ 27 + routine * 2 ^ 19 + imm

/-- The X slot (02 R41). -/
def encX (op : Nat) (g : Guard) (x base land disp : Nat) : Nat :=
  op * 2 ^ 28 + g.bits * 2 ^ 24 + x * 2 ^ 20 + base * 2 ^ 14 + land * 2 ^ 8 + disp

/-- The D slot (02 R41). -/
def encD (op : Nat) (g : Guard) (a b c unit imm : Nat) : Nat :=
  op * 2 ^ 40 + g.bits * 2 ^ 36 + a * 2 ^ 30 + b * 2 ^ 24 + c * 2 ^ 18 + unit * 2 ^ 14 + imm

/-- Operand b of a V instruction as (vb, s, bs bit of imm14) (05 R118). -/
def VSrc.fields : VSrc → Nat × Nat × Nat
  | .reg vb => (vb.toNat, 0, 0)
  | .scalar s => (0, s.toNat, 2 ^ 13)

/-- Operand b from a V word (05 R118). -/
def VSrc.at (x : Nat) : VSrc := if bitAt x 13 then .scalar (fld x 14 6) else .reg (fld x 33 5)

/-- A V word of an instruction with a mask, a destination, va and operand b. -/
def encVB (op : Nat) (vg : VGuard) (vd va : Nat) (b : VSrc) (vc fmt rnd : Nat) (sat : Bool) (imm : Nat) : Nat :=
  encV op vg.g vg.q.toNat vg.qneg vd va b.fields.1 vc fmt rnd sat b.fields.2.1 (b.fields.2.2 + imm)

/-- The slot predicate and mask of a V word. -/
def VGuard.at (x : Nat) : VGuard := ⟨Guard.at x 52, fld x 49 3, bitAt x 48⟩

/-! ## Raw readings: the opcode maps -/

/-- The C-slot opcode map (02 R45). -/
def rawC (x : Nat) : Option Instr :=
  let g := Guard.at x 36
  match bitsAt x 40 8 with
  | 0 => some (.nop .c)
  | 1 => some (.br ⟨g, fld x 0 24⟩)
  | 2 => some (.bri ⟨g, fld x 30 6, fld x 12 12, fld x 0 12⟩)
  | 3 => some (.call ⟨g, fld x 24 6, fld x 0 24⟩)
  | 4 => (Scope.ofCode (bitsAt x 0 3)).map fun sc => .callx ⟨g, fld x 30 6, fld x 24 6, sc⟩
  | 5 => some (.ret ⟨g, fld x 30 6⟩)
  | 6 => some (.loop ⟨g, fld x 12 12, fld x 0 12⟩)
  | 7 => some (.loopr ⟨g, fld x 30 6, fld x 0 12⟩)
  | 8 => some (.lexit g)
  | 9 => some (.yield ⟨g, bitAt x 0⟩)
  | 10 => some (.halt g)
  | 11 => some (.trap ⟨g, fld x 0 24⟩)
  | 12 => some (.rti g)
  | 13 => some (.marm ⟨g, fld x 30 6⟩)
  | 14 => some (.mwait ⟨g, fld x 30 6, fld x 0 24⟩)
  | 15 => some (.mdisarm g)
  | 16 => (Scope.ofCode (bitsAt x 4 3)).map fun sc => .bar ⟨g, fld x 0 4, sc⟩
  | 17 => (Scope.ofCode (bitsAt x 4 3)).map fun sc => .bara ⟨g, fld x 0 4, sc⟩
  | 18 => (Scope.ofCode (bitsAt x 4 3)).map fun sc => .barw ⟨g, fld x 0 4, sc⟩
  | 19 => (Scope.ofCode (bitsAt x 0 3)).map fun sc => .drain ⟨g, sc⟩
  | 20 => (EngClass.ofCode (bitsAt x 0 3)).bind fun a => (EngClass.ofCode (bitsAt x 3 3)).map fun b => .fence ⟨g, a, b⟩
  | 21 => some (.pand ⟨g, fld x 30 3, fld x 24 3, fld x 0 3⟩)
  | 22 => some (.por ⟨g, fld x 30 3, fld x 24 3, fld x 0 3⟩)
  | 23 => some (.pxor ⟨g, fld x 30 3, fld x 24 3, fld x 0 3⟩)
  | 24 => some (.pnot ⟨g, fld x 30 3, fld x 24 3⟩)
  | 25 => some (.mfc ⟨g, fld x 30 6, fld x 0 12⟩)
  | 26 => some (.mtc ⟨g, fld x 30 6, fld x 0 12⟩)
  | 27 => some (.uien g)
  | 28 => some (.uidis g)
  | 29 => some (.lidx ⟨g, fld x 30 6, fld x 0 3⟩)
  | _ => none

/-- The S-slot opcode map (02 R46). -/
def rawS (pos : SPos) (x : Nat) : Option Instr :=
  let g := Guard.at x 28
  match bitsAt x 32 8 with
  | 0 => some (.nop (match pos with | .s0 => .s0 | .s1 => .s1))
  | 1 => some (.add ⟨pos, g, fld x 22 6, fld x 16 6, fld x 10 6⟩)
  | 2 => some (.addi ⟨pos, g, fld x 22 6, fld x 16 6, fld x 0 16⟩)
  | 3 => some (.sub ⟨pos, g, fld x 22 6, fld x 16 6, fld x 10 6⟩)
  | 4 => some (.mul ⟨pos, g, fld x 22 6, fld x 16 6, fld x 10 6⟩)
  | 5 => some (.mulh ⟨pos, g, fld x 22 6, fld x 16 6, fld x 10 6⟩)
  | 6 => some (.mulhu ⟨pos, g, fld x 22 6, fld x 16 6, fld x 10 6⟩)
  | 7 => some (.div ⟨pos, g, fld x 22 6, fld x 16 6, fld x 10 6⟩)
  | 8 => some (.divu ⟨pos, g, fld x 22 6, fld x 16 6, fld x 10 6⟩)
  | 9 => some (.rem ⟨pos, g, fld x 22 6, fld x 16 6, fld x 10 6⟩)
  | 10 => some (.remu ⟨pos, g, fld x 22 6, fld x 16 6, fld x 10 6⟩)
  | 11 => some (.and ⟨pos, g, fld x 22 6, fld x 16 6, fld x 10 6⟩)
  | 12 => some (.andi ⟨pos, g, fld x 22 6, fld x 16 6, fld x 0 16⟩)
  | 13 => some (.or ⟨pos, g, fld x 22 6, fld x 16 6, fld x 10 6⟩)
  | 14 => some (.ori ⟨pos, g, fld x 22 6, fld x 16 6, fld x 0 16⟩)
  | 15 => some (.xor ⟨pos, g, fld x 22 6, fld x 16 6, fld x 10 6⟩)
  | 16 => some (.xori ⟨pos, g, fld x 22 6, fld x 16 6, fld x 0 16⟩)
  | 17 => some (.shl ⟨pos, g, fld x 22 6, fld x 16 6, fld x 10 6⟩)
  | 18 => some (.shr ⟨pos, g, fld x 22 6, fld x 16 6, fld x 10 6⟩)
  | 19 => some (.sar ⟨pos, g, fld x 22 6, fld x 16 6, fld x 10 6⟩)
  | 20 => some (.shli ⟨pos, g, fld x 22 6, fld x 16 6, fld x 0 6⟩)
  | 21 => some (.shri ⟨pos, g, fld x 22 6, fld x 16 6, fld x 0 6⟩)
  | 22 => some (.sari ⟨pos, g, fld x 22 6, fld x 16 6, fld x 0 6⟩)
  | 23 => some (.rol ⟨pos, g, fld x 22 6, fld x 16 6, fld x 10 6⟩)
  | 24 => some (.ror ⟨pos, g, fld x 22 6, fld x 16 6, fld x 10 6⟩)
  | 25 => some (.min ⟨pos, g, fld x 22 6, fld x 16 6, fld x 10 6⟩)
  | 26 => some (.max ⟨pos, g, fld x 22 6, fld x 16 6, fld x 10 6⟩)
  | 27 => some (.minu ⟨pos, g, fld x 22 6, fld x 16 6, fld x 10 6⟩)
  | 28 => some (.maxu ⟨pos, g, fld x 22 6, fld x 16 6, fld x 10 6⟩)
  | 29 => some (.abs ⟨pos, g, fld x 22 6, fld x 16 6⟩)
  | 30 => (CmpCc.ofCode (bitsAt x 0 3)).map fun cc => .cmpCc ⟨pos, g, cc, fld x 22 3, fld x 16 6, fld x 10 6⟩
  | 31 => (CmpiCc.ofCode (bitsAt x 25 3)).map fun cc => .cmpiCc ⟨pos, g, cc, fld x 22 3, fld x 16 6, fld x 0 16⟩
  | 32 => some (.movi ⟨pos, g, fld x 22 6, fld x 16 2, fld x 0 16⟩)
  | 33 => some (.movk ⟨pos, g, fld x 22 6, fld x 16 2, fld x 0 16⟩)
  | 34 => (ExtSize.ofCode (bitsAt x 0 2)).map fun z => .sext ⟨pos, g, fld x 22 6, fld x 16 6, z⟩
  | 35 => (ExtSize.ofCode (bitsAt x 0 2)).map fun z => .zext ⟨pos, g, fld x 22 6, fld x 16 6, z⟩
  | 36 => some (.clz ⟨pos, g, fld x 22 6, fld x 16 6⟩)
  | 37 => some (.ctz ⟨pos, g, fld x 22 6, fld x 16 6⟩)
  | 38 => some (.popc ⟨pos, g, fld x 22 6, fld x 16 6⟩)
  | 39 => some (.bext ⟨pos, g, fld x 22 6, fld x 16 6, fld x 10 6, fld x 0 6, bitAt x 6⟩)
  | 40 => some (.bins ⟨pos, g, fld x 22 6, fld x 16 6, fld x 10 6, fld x 0 6⟩)
  | 41 => some (.selp ⟨pos, g, fld x 22 6, fld x 16 6, fld x 10 6, fld x 0 3⟩)
  | 42 => some (.lea ⟨pos, g, fld x 22 6, fld x 16 6, fld x 10 6, fld x 0 3⟩)
  | 43 => some (.pmov ⟨pos, g, fld x 22 6⟩)
  | 44 => some (.pset ⟨pos, g, fld x 22 3, fld x 16 6, fld x 0 6⟩)
  | 45 => (Rnd.ofCode (bitsAt x 0 3)).map fun r => .faddS ⟨pos, g, fld x 22 6, fld x 16 6, fld x 10 6, r⟩
  | 46 => (Rnd.ofCode (bitsAt x 0 3)).map fun r => .fmulS ⟨pos, g, fld x 22 6, fld x 16 6, fld x 10 6, r⟩
  | 47 => (Rnd.ofCode (bitsAt x 0 3)).map fun r => .ffmaS ⟨pos, g, fld x 22 6, fld x 16 6, fld x 10 6, r⟩
  | 48 => (FcmpCc.ofCode (bitsAt x 0 2)).map fun cc => .fcmpCc ⟨pos, g, cc, fld x 22 3, fld x 16 6, fld x 10 6⟩
  | 49 => (Fmt.ofCode (bitsAt x 10 4)).bind fun t => (Fmt.ofCode (bitsAt x 0 4)).bind fun f =>
    (Rnd.ofCode (bitsAt x 4 3)).map fun r => .fcvt ⟨pos, g, fld x 22 6, fld x 16 6, t, f, r, bitAt x 7⟩
  | 50 => some (.packwe ⟨pos, g, fld x 22 6, fld x 16 6, fld x 10 6, bitAt x 0⟩)
  | _ => none

/-- The V-slot opcode map (02 R47). -/
def rawV (x : Nat) : Option Instr :=
  let vg := VGuard.at x
  match bitsAt x 56 8 with
  | 0 => some (.nop .v)
  | 1 => (Fmt.ofCode (bitsAt x 24 4)).map fun f => .vadd ⟨vg, fld x 43 5, fld x 38 5, VSrc.at x, f, bitAt x 20⟩
  | 2 => (Fmt.ofCode (bitsAt x 24 4)).map fun f => .vsub ⟨vg, fld x 43 5, fld x 38 5, VSrc.at x, f, bitAt x 20⟩
  | 3 => (Fmt.ofCode (bitsAt x 24 4)).map fun f => .vmul ⟨vg, fld x 43 5, fld x 38 5, VSrc.at x, f, bitAt x 20⟩
  | 4 => (Fmt.ofCode (bitsAt x 24 4)).map fun f => .vmulh ⟨vg, fld x 43 5, fld x 38 5, VSrc.at x, f, bitAt x 20⟩
  | 5 => (Fmt.ofCode (bitsAt x 24 4)).map fun f => .vmin ⟨vg, fld x 43 5, fld x 38 5, VSrc.at x, f, bitAt x 20⟩
  | 6 => (Fmt.ofCode (bitsAt x 24 4)).map fun f => .vmax ⟨vg, fld x 43 5, fld x 38 5, VSrc.at x, f, bitAt x 20⟩
  | 7 => (Fmt.ofCode (bitsAt x 24 4)).map fun f => .vabs ⟨vg, fld x 43 5, fld x 38 5, f, bitAt x 20⟩
  | 8 => (Fmt.ofCode (bitsAt x 24 4)).map fun f => .vand ⟨vg, fld x 43 5, fld x 38 5, VSrc.at x, f, bitAt x 20⟩
  | 9 => (Fmt.ofCode (bitsAt x 24 4)).map fun f => .vor ⟨vg, fld x 43 5, fld x 38 5, VSrc.at x, f, bitAt x 20⟩
  | 10 => (Fmt.ofCode (bitsAt x 24 4)).map fun f => .vxor ⟨vg, fld x 43 5, fld x 38 5, VSrc.at x, f, bitAt x 20⟩
  | 11 => (Fmt.ofCode (bitsAt x 24 4)).map fun f => .vshl ⟨vg, fld x 43 5, fld x 38 5, VSrc.at x, f, bitAt x 20⟩
  | 12 => (Fmt.ofCode (bitsAt x 24 4)).map fun f => .vshr ⟨vg, fld x 43 5, fld x 38 5, VSrc.at x, f, bitAt x 20⟩
  | 13 => (Fmt.ofCode (bitsAt x 24 4)).map fun f => .vsar ⟨vg, fld x 43 5, fld x 38 5, VSrc.at x, f, bitAt x 20⟩
  | 14 => (Fmt.ofCode (bitsAt x 24 4)).bind fun f => (CmpCc.ofCode (bitsAt x 0 3)).map fun cc => .vcmpCc ⟨vg, fld x 43 3, fld x 38 5, VSrc.at x, f, cc⟩
  | 15 => (Fmt.ofCode (bitsAt x 24 4)).map fun f => .vsel ⟨vg, fld x 43 5, fld x 38 5, fld x 33 5, f⟩
  | 16 => (Fmt.ofCode (bitsAt x 24 4)).bind fun f => (Rnd.ofCode (bitsAt x 21 3)).map fun r => .vfadd ⟨vg, fld x 43 5, fld x 38 5, VSrc.at x, f, r⟩
  | 17 => (Fmt.ofCode (bitsAt x 24 4)).bind fun f => (Rnd.ofCode (bitsAt x 21 3)).map fun r => .vfsub ⟨vg, fld x 43 5, fld x 38 5, VSrc.at x, f, r⟩
  | 18 => (Fmt.ofCode (bitsAt x 24 4)).bind fun f => (Rnd.ofCode (bitsAt x 21 3)).map fun r => .vfmul ⟨vg, fld x 43 5, fld x 38 5, VSrc.at x, f, r⟩
  | 19 => (Fmt.ofCode (bitsAt x 24 4)).bind fun f => (Rnd.ofCode (bitsAt x 21 3)).map fun r => .vfma ⟨vg, fld x 43 5, fld x 38 5, VSrc.at x, fld x 28 5, f, r⟩
  | 20 => (Fmt.ofCode (bitsAt x 24 4)).bind fun f => (Rnd.ofCode (bitsAt x 21 3)).map fun r => .vfmin ⟨vg, fld x 43 5, fld x 38 5, VSrc.at x, f, r⟩
  | 21 => (Fmt.ofCode (bitsAt x 24 4)).bind fun f => (Rnd.ofCode (bitsAt x 21 3)).map fun r => .vfmax ⟨vg, fld x 43 5, fld x 38 5, VSrc.at x, f, r⟩
  | 22 => (Fmt.ofCode (bitsAt x 24 4)).bind fun f => (Rnd.ofCode (bitsAt x 21 3)).map fun r => .vfabs ⟨vg, fld x 43 5, fld x 38 5, f, r⟩
  | 23 => (Fmt.ofCode (bitsAt x 24 4)).bind fun f => (Rnd.ofCode (bitsAt x 21 3)).map fun r => .vfneg ⟨vg, fld x 43 5, fld x 38 5, f, r⟩
  | 24 => (Fmt.ofCode (bitsAt x 24 4)).bind fun f => (FcmpCc.ofCode (bitsAt x 0 2)).map fun cc => .vfcmpCc ⟨vg, fld x 43 3, fld x 38 5, VSrc.at x, f, cc⟩
  | 25 => (Fmt.ofCode (bitsAt x 24 4)).bind fun f => (Rnd.ofCode (bitsAt x 21 3)).map fun r => .vfrcp ⟨vg, fld x 43 5, fld x 38 5, f, r⟩
  | 26 => (Fmt.ofCode (bitsAt x 24 4)).bind fun f => (Rnd.ofCode (bitsAt x 21 3)).map fun r => .vfrsq ⟨vg, fld x 43 5, fld x 38 5, f, r⟩
  | 27 => (Fmt.ofCode (bitsAt x 24 4)).bind fun f => (Rnd.ofCode (bitsAt x 21 3)).map fun r => .vfexp2 ⟨vg, fld x 43 5, fld x 38 5, f, r⟩
  | 28 => (Fmt.ofCode (bitsAt x 24 4)).bind fun f => (Rnd.ofCode (bitsAt x 21 3)).map fun r => .vflog2 ⟨vg, fld x 43 5, fld x 38 5, f, r⟩
  | 29 => (Fmt.ofCode (bitsAt x 24 4)).bind fun t => (Fmt.ofCode (bitsAt x 0 4)).bind fun f => (Rnd.ofCode (bitsAt x 21 3)).map fun r =>
    .vfcvt ⟨vg, fld x 43 5, fld x 38 5, t, f, fld x 4 2, r, bitAt x 20⟩
  | 30 => ((Fmt.ofCode (bitsAt x 24 4)).bind Fmt.mx).bind fun f => (Rnd.ofCode (bitsAt x 21 3)).map fun r => .vqnt ⟨vg.g, fld x 43 5, fld x 38 5, f, r⟩
  | 31 => ((Fmt.ofCode (bitsAt x 24 4)).bind Fmt.mx).map fun f => .vdqn ⟨vg.g, fld x 43 5, fld x 38 5, f⟩
  | 32 => (Fmt.ofCode (bitsAt x 24 4)).bind fun f => (Rnd.ofCode (bitsAt x 21 3)).map fun r => .vradd ⟨vg, fld x 43 5, fld x 38 5, f, r, bitAt x 20⟩
  | 33 => (Fmt.ofCode (bitsAt x 24 4)).bind fun f => (Rnd.ofCode (bitsAt x 21 3)).map fun r => .vrmax ⟨vg, fld x 43 5, fld x 38 5, f, r, bitAt x 20⟩
  | 34 => (Fmt.ofCode (bitsAt x 24 4)).bind fun f => (Rnd.ofCode (bitsAt x 21 3)).map fun r => .vrmin ⟨vg, fld x 43 5, fld x 38 5, f, r, bitAt x 20⟩
  | 35 => (Fmt.ofCode (bitsAt x 24 4)).bind fun f => (Rnd.ofCode (bitsAt x 21 3)).bind fun r => (ScanOp.ofCode (bitsAt x 0 2)).map fun p => .vscan ⟨vg, fld x 43 5, fld x 38 5, p, f, r, bitAt x 20⟩
  | 36 => (Fmt.ofCode (bitsAt x 24 4)).map fun f => .vperm ⟨vg, fld x 43 5, fld x 38 5, fld x 33 5, f⟩
  | 37 => (Fmt.ofCode (bitsAt x 24 4)).map fun f => .vbcst ⟨vg, fld x 43 5, fld x 14 6, f⟩
  | 38 => (Fmt.ofCode (bitsAt x 24 4)).map fun f => .vext ⟨vg.g, fld x 14 6, fld x 38 5, fld x 0 8, f⟩
  | 39 => (Fmt.ofCode (bitsAt x 24 4)).map fun f => .vins ⟨vg.g, fld x 43 5, fld x 14 6, fld x 0 8, f⟩
  | 40 => (Fmt.ofCode (bitsAt x 24 4)).map fun f => .viota ⟨vg, fld x 43 5, fld x 14 6, f⟩
  | 41 => (Fmt.ofCode (bitsAt x 24 4)).map fun f => .vcmpr ⟨vg, fld x 43 5, fld x 38 5, f⟩
  | 42 => (Fmt.ofCode (bitsAt x 24 4)).map fun f => .vexpd ⟨vg, fld x 43 5, fld x 38 5, f⟩
  | 43 => (Fmt.ofCode (bitsAt x 24 4)).bind fun f => (Rnd.ofCode (bitsAt x 21 3)).map fun r => .vacrd ⟨vg, fld x 43 5, fld x 14 6, f, bitAt x 0, bitAt x 1, r, bitAt x 20⟩
  | 44 => some (.vacwr ⟨vg, fld x 38 5, fld x 14 6, bitAt x 0, bitAt x 1⟩)
  | 45 => some (.qand ⟨vg.g, fld x 43 3, fld x 38 3, fld x 33 3⟩)
  | 46 => some (.qor ⟨vg.g, fld x 43 3, fld x 38 3, fld x 33 3⟩)
  | 47 => some (.qnot ⟨vg.g, fld x 43 3, fld x 38 3⟩)
  | 48 => (Fmt.ofCode (bitsAt x 24 4)).map fun f => .qcnt ⟨vg.g, fld x 14 6, fld x 38 3, f⟩
  | 49 => (Fmt.ofCode (bitsAt x 24 4)).map fun f => .vmovi ⟨vg, fld x 43 5, f, fld x 0 14⟩
  | _ => none

/-- The L-slot opcode map (02 R48). -/
def rawL (x : Nat) : Option Instr :=
  let g := Guard.at x 44
  match bitsAt x 48 8 with
  | 0 => some (.nop .l)
  | 1 => (Ord.ofCode (bitsAt x 39 2)).bind fun od => (Scope.ofCode (bitsAt x 36 3)).bind fun sc => (Size.ofCode (bitsAt x 16 2)).map fun z =>
    .ld ⟨g, od, sc, fld x 30 6, fld x 24 6, fld x 18 6, z, fld x 8 8, fld x 0 8⟩
  | 2 => (Ord.ofCode (bitsAt x 39 2)).bind fun od => (Scope.ofCode (bitsAt x 36 3)).bind fun sc => (Size.ofCode (bitsAt x 16 2)).map fun z =>
    .lds ⟨g, od, sc, fld x 30 6, fld x 24 6, fld x 18 6, z, fld x 8 8, fld x 0 8⟩
  | 3 => (Ord.ofCode (bitsAt x 39 2)).bind fun od => (Scope.ofCode (bitsAt x 36 3)).bind fun sc => (Size.ofCode (bitsAt x 16 2)).map fun z =>
    .st ⟨g, od, sc, fld x 30 6, fld x 24 6, fld x 18 6, z, fld x 0 8⟩
  | 4 => (Size.ofCode (bitsAt x 16 2)).map fun z => .ldv ⟨g, fld x 41 3, fld x 30 5, fld x 24 6, fld x 18 6, z, fld x 8 8, fld x 0 8⟩
  | 5 => (Size.ofCode (bitsAt x 16 2)).map fun z => .stv ⟨g, fld x 41 3, fld x 30 5, fld x 24 6, fld x 18 6, z, fld x 0 8⟩
  | 6 => (Size.ofCode (bitsAt x 16 2)).map fun z => .ldvs ⟨g, fld x 41 3, fld x 30 5, fld x 24 6, fld x 18 6, z, fld x 8 8, fld x 0 8⟩
  | 7 => (Size.ofCode (bitsAt x 16 2)).map fun z => .stvs ⟨g, fld x 41 3, fld x 30 5, fld x 24 6, fld x 18 6, z, fld x 0 8⟩
  | 8 => (Size.ofCode (bitsAt x 16 2)).map fun z => .gth ⟨g, fld x 41 3, fld x 30 5, fld x 24 6, fld x 18 5, z, fld x 8 8, fld x 0 8⟩
  | 9 => (Size.ofCode (bitsAt x 16 2)).map fun z => .sct ⟨g, fld x 41 3, fld x 30 5, fld x 24 6, fld x 18 5, z, fld x 0 8⟩
  | 10 => (SctaOp.ofCode (bitsAt x 0 2)).bind fun p => (Size.ofCode (bitsAt x 16 2)).map fun z => .sctaOp ⟨g, fld x 41 3, fld x 30 5, fld x 24 6, fld x 18 5, z, p⟩
  | 11 => (Ord.ofCode (bitsAt x 39 2)).bind fun od => (Scope.ofCode (bitsAt x 36 3)).bind fun sc => (Size.ofCode (bitsAt x 16 2)).map fun z =>
    .aadd ⟨g, od, sc, fld x 30 6, fld x 24 6, fld x 18 6, z, fld x 8 8, fld x 0 8⟩
  | 12 => (Ord.ofCode (bitsAt x 39 2)).bind fun od => (Scope.ofCode (bitsAt x 36 3)).bind fun sc => (Size.ofCode (bitsAt x 16 2)).map fun z =>
    .amin ⟨g, od, sc, fld x 30 6, fld x 24 6, fld x 18 6, z, fld x 8 8, fld x 0 8⟩
  | 13 => (Ord.ofCode (bitsAt x 39 2)).bind fun od => (Scope.ofCode (bitsAt x 36 3)).bind fun sc => (Size.ofCode (bitsAt x 16 2)).map fun z =>
    .amax ⟨g, od, sc, fld x 30 6, fld x 24 6, fld x 18 6, z, fld x 8 8, fld x 0 8⟩
  | 14 => (Ord.ofCode (bitsAt x 39 2)).bind fun od => (Scope.ofCode (bitsAt x 36 3)).bind fun sc => (Size.ofCode (bitsAt x 16 2)).map fun z =>
    .aminu ⟨g, od, sc, fld x 30 6, fld x 24 6, fld x 18 6, z, fld x 8 8, fld x 0 8⟩
  | 15 => (Ord.ofCode (bitsAt x 39 2)).bind fun od => (Scope.ofCode (bitsAt x 36 3)).bind fun sc => (Size.ofCode (bitsAt x 16 2)).map fun z =>
    .amaxu ⟨g, od, sc, fld x 30 6, fld x 24 6, fld x 18 6, z, fld x 8 8, fld x 0 8⟩
  | 16 => (Ord.ofCode (bitsAt x 39 2)).bind fun od => (Scope.ofCode (bitsAt x 36 3)).bind fun sc => (Size.ofCode (bitsAt x 16 2)).map fun z =>
    .aand ⟨g, od, sc, fld x 30 6, fld x 24 6, fld x 18 6, z, fld x 8 8, fld x 0 8⟩
  | 17 => (Ord.ofCode (bitsAt x 39 2)).bind fun od => (Scope.ofCode (bitsAt x 36 3)).bind fun sc => (Size.ofCode (bitsAt x 16 2)).map fun z =>
    .aor ⟨g, od, sc, fld x 30 6, fld x 24 6, fld x 18 6, z, fld x 8 8, fld x 0 8⟩
  | 18 => (Ord.ofCode (bitsAt x 39 2)).bind fun od => (Scope.ofCode (bitsAt x 36 3)).bind fun sc => (Size.ofCode (bitsAt x 16 2)).map fun z =>
    .axor ⟨g, od, sc, fld x 30 6, fld x 24 6, fld x 18 6, z, fld x 8 8, fld x 0 8⟩
  | 19 => (Ord.ofCode (bitsAt x 39 2)).bind fun od => (Scope.ofCode (bitsAt x 36 3)).bind fun sc => (Size.ofCode (bitsAt x 16 2)).map fun z =>
    .axchg ⟨g, od, sc, fld x 30 6, fld x 24 6, fld x 18 6, z, fld x 8 8, fld x 0 8⟩
  | 20 => (Ord.ofCode (bitsAt x 39 2)).bind fun od => (Scope.ofCode (bitsAt x 36 3)).bind fun sc => (Size.ofCode (bitsAt x 16 2)).map fun z =>
    .acas ⟨g, od, sc, fld x 30 6, fld x 24 6, fld x 18 6, z, fld x 8 8, fld x 0 8⟩
  | _ => none

/-- The M-slot opcode map (02 R49). -/
def rawM (x : Nat) : Option Instr :=
  let g := Guard.at x 36
  match bitsAt x 40 8 with
  | 0 => some (.nop .m)
  | 1 => (MxFmt.ofCode (bitsAt x 32 3)).bind fun a => (MxFmt.ofCode (bitsAt x 29 3)).map fun b => .mcall ⟨g, bitAt x 35, a, b, fld x 19 8⟩
  | 2 => (MxFmt.ofCode (bitsAt x 32 3)).bind fun a => (MxFmt.ofCode (bitsAt x 29 3)).map fun b => .mldw ⟨g, a, b, fld x 0 3⟩
  | 3 => some (.mswp g)
  | 4 => some (.mldix ⟨g, fld x 0 5⟩)
  | 5 => some (.mclr ⟨g, bitAt x 35⟩)
  | 6 => some (.mset ⟨g, fld x 0 3, fld x 3 6⟩)
  | 7 => some (.mupld ⟨g, fld x 0 3, fld x 19 8, fld x 3 10⟩)
  | 8 => some (.massay ⟨g, fld x 0 3⟩)
  | 9 => some (.msync g)
  | _ => none

/-- The X-slot opcode map (02 R49). -/
def rawX (x : Nat) : Option Instr :=
  let g := Guard.at x 24
  match bitsAt x 28 4 with
  | 0 => some (.nop .x)
  | 1 => some (.xld ⟨g, fld x 20 4, fld x 14 6, fld x 8 6, fld x 0 8⟩)
  | 2 => some (.xldb ⟨g, fld x 20 4, fld x 14 6, fld x 8 6, fld x 0 8⟩)
  | 3 => some (.xmov ⟨g, fld x 20 4, fld x 14 4⟩)
  | 4 => some (.xset ⟨g, fld x 20 4, fld x 0 8⟩)
  | _ => none

/-- The D-slot opcode map (02 R49). -/
def rawD (x : Nat) : Option Instr :=
  let g := Guard.at x 36
  match bitsAt x 40 8 with
  | 0 => some (.nop .d)
  | 1 => some (.cpgo ⟨g, fld x 30 6, fld x 14 4⟩)
  | 2 => some (.cpq ⟨g, fld x 30 6, fld x 14 4, fld x 0 8⟩)
  | 3 => some (.cpstop ⟨g, fld x 14 4⟩)
  | 4 => some (.wkapp ⟨g, fld x 30 6, fld x 24 6, fld x 18 6, bitAt x 0⟩)
  | 5 => some (.wkwalk ⟨g, fld x 30 6, fld x 24 6, fld x 18 6, bitAt x 0⟩)
  | 6 => some (.wkfix ⟨g, fld x 30 6, fld x 24 6, fld x 1 4, bitAt x 0⟩)
  | 7 => some (.wkq ⟨g, fld x 30 6, fld x 0 8⟩)
  | 8 => some (.cxtab ⟨g, fld x 30 6, fld x 14 4, fld x 0 8, bitAt x 8⟩)
  | 9 => some (.cxpk ⟨g, fld x 30 6, fld x 24 6, fld x 18 6, fld x 14 4, fld x 0 12, bitAt x 12⟩)
  | 10 => some (.cxun ⟨g, fld x 30 6, fld x 24 6, fld x 18 6, fld x 0 12, bitAt x 12⟩)
  | 16 => some (.wget ⟨g, fld x 30 6, fld x 24 6, fld x 18 6, fld x 0 12, bitAt x 12⟩)
  | 17 => some (.wput ⟨g, fld x 30 6, fld x 24 6, fld x 18 6, fld x 0 12, bitAt x 12⟩)
  | 18 => some (.wexp ⟨g, fld x 30 6, fld x 24 6, fld x 18 6, fld x 0 12, bitAt x 12⟩)
  | 11 => some (.clgo ⟨g, fld x 30 6, bitAt x 0⟩)
  | 12 => some (.lksend ⟨g, fld x 30 6, fld x 24 6, fld x 18 6, fld x 14 4, bitAt x 0⟩)
  | 14 => some (.lkrecv ⟨g, fld x 30 6, fld x 24 6, fld x 18 6, fld x 14 4, bitAt x 0⟩)
  | 13 => (Fmt.ofCode (bitsAt x 1 4)).map fun f => .lkradd ⟨g, fld x 30 6, fld x 24 6, fld x 18 6, fld x 14 4, f, bitAt x 0⟩
  | 15 => some (.lkwait ⟨g, fld x 30 6⟩)
  | 19 => some (.wsync ⟨g, fld x 30 6⟩)
  | 20 => some (.txid ⟨g, fld x 30 6, fld x 0 8⟩)
  | 21 => some (.txabort ⟨g, fld x 30 6, bitAt x 0⟩)
  | 22 => some (.qlaunch ⟨g, fld x 30 6, fld x 24 6⟩)
  | 23 => (Scope.ofCode (bitsAt x 0 3)).map fun sc => .evpost ⟨g, fld x 30 6, sc⟩
  | _ => none

/-! ## The encoder -/

/-- The slot an instruction stands in; none for events and micro-words. -/
def Instr.slot : Instr → Option Slot
  | .nop sl => some sl
  | .br _ => some .c
  | .bri _ => some .c
  | .call _ => some .c
  | .callx _ => some .c
  | .ret _ => some .c
  | .loop _ => some .c
  | .loopr _ => some .c
  | .lexit _ => some .c
  | .yield _ => some .c
  | .halt _ => some .c
  | .trap _ => some .c
  | .rti _ => some .c
  | .marm _ => some .c
  | .mwait _ => some .c
  | .mdisarm _ => some .c
  | .bar _ => some .c
  | .bara _ => some .c
  | .barw _ => some .c
  | .drain _ => some .c
  | .fence _ => some .c
  | .pand _ => some .c
  | .por _ => some .c
  | .pxor _ => some .c
  | .pnot _ => some .c
  | .mfc _ => some .c
  | .mtc _ => some .c
  | .uien _ => some .c
  | .uidis _ => some .c
  | .lidx _ => some .c
  | .add o => some (match o.pos with | .s0 => .s0 | .s1 => .s1)
  | .addi o => some (match o.pos with | .s0 => .s0 | .s1 => .s1)
  | .sub o => some (match o.pos with | .s0 => .s0 | .s1 => .s1)
  | .mul o => some (match o.pos with | .s0 => .s0 | .s1 => .s1)
  | .mulh o => some (match o.pos with | .s0 => .s0 | .s1 => .s1)
  | .mulhu o => some (match o.pos with | .s0 => .s0 | .s1 => .s1)
  | .div o => some (match o.pos with | .s0 => .s0 | .s1 => .s1)
  | .divu o => some (match o.pos with | .s0 => .s0 | .s1 => .s1)
  | .rem o => some (match o.pos with | .s0 => .s0 | .s1 => .s1)
  | .remu o => some (match o.pos with | .s0 => .s0 | .s1 => .s1)
  | .and o => some (match o.pos with | .s0 => .s0 | .s1 => .s1)
  | .andi o => some (match o.pos with | .s0 => .s0 | .s1 => .s1)
  | .or o => some (match o.pos with | .s0 => .s0 | .s1 => .s1)
  | .ori o => some (match o.pos with | .s0 => .s0 | .s1 => .s1)
  | .xor o => some (match o.pos with | .s0 => .s0 | .s1 => .s1)
  | .xori o => some (match o.pos with | .s0 => .s0 | .s1 => .s1)
  | .shl o => some (match o.pos with | .s0 => .s0 | .s1 => .s1)
  | .shr o => some (match o.pos with | .s0 => .s0 | .s1 => .s1)
  | .sar o => some (match o.pos with | .s0 => .s0 | .s1 => .s1)
  | .shli o => some (match o.pos with | .s0 => .s0 | .s1 => .s1)
  | .shri o => some (match o.pos with | .s0 => .s0 | .s1 => .s1)
  | .sari o => some (match o.pos with | .s0 => .s0 | .s1 => .s1)
  | .rol o => some (match o.pos with | .s0 => .s0 | .s1 => .s1)
  | .ror o => some (match o.pos with | .s0 => .s0 | .s1 => .s1)
  | .min o => some (match o.pos with | .s0 => .s0 | .s1 => .s1)
  | .max o => some (match o.pos with | .s0 => .s0 | .s1 => .s1)
  | .minu o => some (match o.pos with | .s0 => .s0 | .s1 => .s1)
  | .maxu o => some (match o.pos with | .s0 => .s0 | .s1 => .s1)
  | .abs o => some (match o.pos with | .s0 => .s0 | .s1 => .s1)
  | .cmpCc o => some (match o.pos with | .s0 => .s0 | .s1 => .s1)
  | .cmpiCc o => some (match o.pos with | .s0 => .s0 | .s1 => .s1)
  | .movi o => some (match o.pos with | .s0 => .s0 | .s1 => .s1)
  | .movk o => some (match o.pos with | .s0 => .s0 | .s1 => .s1)
  | .sext o => some (match o.pos with | .s0 => .s0 | .s1 => .s1)
  | .zext o => some (match o.pos with | .s0 => .s0 | .s1 => .s1)
  | .clz o => some (match o.pos with | .s0 => .s0 | .s1 => .s1)
  | .ctz o => some (match o.pos with | .s0 => .s0 | .s1 => .s1)
  | .popc o => some (match o.pos with | .s0 => .s0 | .s1 => .s1)
  | .bext o => some (match o.pos with | .s0 => .s0 | .s1 => .s1)
  | .bins o => some (match o.pos with | .s0 => .s0 | .s1 => .s1)
  | .selp o => some (match o.pos with | .s0 => .s0 | .s1 => .s1)
  | .lea o => some (match o.pos with | .s0 => .s0 | .s1 => .s1)
  | .pmov o => some (match o.pos with | .s0 => .s0 | .s1 => .s1)
  | .pset o => some (match o.pos with | .s0 => .s0 | .s1 => .s1)
  | .faddS o => some (match o.pos with | .s0 => .s0 | .s1 => .s1)
  | .fmulS o => some (match o.pos with | .s0 => .s0 | .s1 => .s1)
  | .ffmaS o => some (match o.pos with | .s0 => .s0 | .s1 => .s1)
  | .fcmpCc o => some (match o.pos with | .s0 => .s0 | .s1 => .s1)
  | .fcvt o => some (match o.pos with | .s0 => .s0 | .s1 => .s1)
  | .packwe o => some (match o.pos with | .s0 => .s0 | .s1 => .s1)
  | .vadd _ => some .v
  | .vsub _ => some .v
  | .vmul _ => some .v
  | .vmulh _ => some .v
  | .vmin _ => some .v
  | .vmax _ => some .v
  | .vabs _ => some .v
  | .vand _ => some .v
  | .vor _ => some .v
  | .vxor _ => some .v
  | .vshl _ => some .v
  | .vshr _ => some .v
  | .vsar _ => some .v
  | .vcmpCc _ => some .v
  | .vsel _ => some .v
  | .vfadd _ => some .v
  | .vfsub _ => some .v
  | .vfmul _ => some .v
  | .vfma _ => some .v
  | .vfmin _ => some .v
  | .vfmax _ => some .v
  | .vfabs _ => some .v
  | .vfneg _ => some .v
  | .vfcmpCc _ => some .v
  | .vfrcp _ => some .v
  | .vfrsq _ => some .v
  | .vfexp2 _ => some .v
  | .vflog2 _ => some .v
  | .vfcvt _ => some .v
  | .vqnt _ => some .v
  | .vdqn _ => some .v
  | .vradd _ => some .v
  | .vrmax _ => some .v
  | .vrmin _ => some .v
  | .vscan _ => some .v
  | .vperm _ => some .v
  | .vbcst _ => some .v
  | .vext _ => some .v
  | .vins _ => some .v
  | .viota _ => some .v
  | .vcmpr _ => some .v
  | .vexpd _ => some .v
  | .vacrd _ => some .v
  | .vacwr _ => some .v
  | .qand _ => some .v
  | .qor _ => some .v
  | .qnot _ => some .v
  | .qcnt _ => some .v
  | .vmovi _ => some .v
  | .ld _ => some .l
  | .lds _ => some .l
  | .st _ => some .l
  | .ldv _ => some .l
  | .stv _ => some .l
  | .ldvs _ => some .l
  | .stvs _ => some .l
  | .gth _ => some .l
  | .sct _ => some .l
  | .sctaOp _ => some .l
  | .aadd _ => some .l
  | .amin _ => some .l
  | .amax _ => some .l
  | .aminu _ => some .l
  | .amaxu _ => some .l
  | .aand _ => some .l
  | .aor _ => some .l
  | .axor _ => some .l
  | .axchg _ => some .l
  | .acas _ => some .l
  | .mcall _ => some .m
  | .mldw _ => some .m
  | .mswp _ => some .m
  | .mldix _ => some .m
  | .mclr _ => some .m
  | .mset _ => some .m
  | .mupld _ => some .m
  | .massay _ => some .m
  | .msync _ => some .m
  | .xld _ => some .x
  | .xldb _ => some .x
  | .xmov _ => some .x
  | .xset _ => some .x
  | .cpgo _ => some .d
  | .cpq _ => some .d
  | .cpstop _ => some .d
  | .wkapp _ => some .d
  | .wkwalk _ => some .d
  | .wkfix _ => some .d
  | .wkq _ => some .d
  | .cxtab _ => some .d
  | .cxpk _ => some .d
  | .cxun _ => some .d
  | .wget _ => some .d
  | .wput _ => some .d
  | .wexp _ => some .d
  | .clgo _ => some .d
  | .lksend _ => some .d
  | .lkrecv _ => some .d
  | .lkradd _ => some .d
  | .lkwait _ => some .d
  | .wsync _ => some .d
  | .txid _ => some .d
  | .txabort _ => some .d
  | .qlaunch _ => some .d
  | .evpost _ => some .d
  | _ => none

/-- The slot word of an instruction; 0 for a nop and for what has no slot word. -/
def encode : Instr → Nat
  | .br o => encC 0x01 o.g 0 0 o.off.toNat
  | .bri o => encC 0x02 o.g o.a.toNat 0 (o.count.toNat * 2 ^ 12 + o.first.toNat)
  | .call o => encC 0x03 o.g 0 o.b.toNat o.off.toNat
  | .callx o => encC 0x04 o.g o.a.toNat o.b.toNat o.scope.code
  | .ret o => encC 0x05 o.g o.a.toNat 0 0
  | .loop o => encC 0x06 o.g 0 0 (o.count.toNat * 2 ^ 12 + o.off.toNat)
  | .loopr o => encC 0x07 o.g o.a.toNat 0 o.off.toNat
  | .lexit g => encC 0x08 g 0 0 0
  | .yield o => encC 0x09 o.g 0 0 (b2n o.beat)
  | .halt g => encC 0x0A g 0 0 0
  | .trap o => encC 0x0B o.g 0 0 o.imm.toNat
  | .rti g => encC 0x0C g 0 0 0
  | .marm o => encC 0x0D o.g o.a.toNat 0 0
  | .mwait o => encC 0x0E o.g o.a.toNat 0 o.timeout.toNat
  | .mdisarm g => encC 0x0F g 0 0 0
  | .bar o => encC 0x10 o.g 0 0 (o.scope.code * 2 ^ 4 + o.num.toNat)
  | .bara o => encC 0x11 o.g 0 0 (o.scope.code * 2 ^ 4 + o.num.toNat)
  | .barw o => encC 0x12 o.g 0 0 (o.scope.code * 2 ^ 4 + o.num.toNat)
  | .drain o => encC 0x13 o.g 0 0 o.scope.code
  | .fence o => encC 0x14 o.g 0 0 (o.b.code * 2 ^ 3 + o.a.code)
  | .pand o => encC 0x15 o.g o.pd.toNat o.pa.toNat o.pb.toNat
  | .por o => encC 0x16 o.g o.pd.toNat o.pa.toNat o.pb.toNat
  | .pxor o => encC 0x17 o.g o.pd.toNat o.pa.toNat o.pb.toNat
  | .pnot o => encC 0x18 o.g o.pd.toNat o.pa.toNat 0
  | .mfc o => encC 0x19 o.g o.a.toNat 0 o.reg.toNat
  | .mtc o => encC 0x1A o.g o.a.toNat 0 o.reg.toNat
  | .uien g => encC 0x1B g 0 0 0
  | .uidis g => encC 0x1C g 0 0 0
  | .lidx o => encC 0x1D o.g o.a.toNat 0 o.k.toNat
  | .add o => encSR 0x01 o.g o.d.toNat o.a.toNat o.b.toNat 0
  | .addi o => encS 0x02 o.g o.d.toNat o.a.toNat o.imm.toNat
  | .sub o => encSR 0x03 o.g o.d.toNat o.a.toNat o.b.toNat 0
  | .mul o => encSR 0x04 o.g o.d.toNat o.a.toNat o.b.toNat 0
  | .mulh o => encSR 0x05 o.g o.d.toNat o.a.toNat o.b.toNat 0
  | .mulhu o => encSR 0x06 o.g o.d.toNat o.a.toNat o.b.toNat 0
  | .div o => encSR 0x07 o.g o.d.toNat o.a.toNat o.b.toNat 0
  | .divu o => encSR 0x08 o.g o.d.toNat o.a.toNat o.b.toNat 0
  | .rem o => encSR 0x09 o.g o.d.toNat o.a.toNat o.b.toNat 0
  | .remu o => encSR 0x0A o.g o.d.toNat o.a.toNat o.b.toNat 0
  | .and o => encSR 0x0B o.g o.d.toNat o.a.toNat o.b.toNat 0
  | .andi o => encS 0x0C o.g o.d.toNat o.a.toNat o.imm.toNat
  | .or o => encSR 0x0D o.g o.d.toNat o.a.toNat o.b.toNat 0
  | .ori o => encS 0x0E o.g o.d.toNat o.a.toNat o.imm.toNat
  | .xor o => encSR 0x0F o.g o.d.toNat o.a.toNat o.b.toNat 0
  | .xori o => encS 0x10 o.g o.d.toNat o.a.toNat o.imm.toNat
  | .shl o => encSR 0x11 o.g o.d.toNat o.a.toNat o.b.toNat 0
  | .shr o => encSR 0x12 o.g o.d.toNat o.a.toNat o.b.toNat 0
  | .sar o => encSR 0x13 o.g o.d.toNat o.a.toNat o.b.toNat 0
  | .shli o => encS 0x14 o.g o.d.toNat o.a.toNat o.n.toNat
  | .shri o => encS 0x15 o.g o.d.toNat o.a.toNat o.n.toNat
  | .sari o => encS 0x16 o.g o.d.toNat o.a.toNat o.n.toNat
  | .rol o => encSR 0x17 o.g o.d.toNat o.a.toNat o.b.toNat 0
  | .ror o => encSR 0x18 o.g o.d.toNat o.a.toNat o.b.toNat 0
  | .min o => encSR 0x19 o.g o.d.toNat o.a.toNat o.b.toNat 0
  | .max o => encSR 0x1A o.g o.d.toNat o.a.toNat o.b.toNat 0
  | .minu o => encSR 0x1B o.g o.d.toNat o.a.toNat o.b.toNat 0
  | .maxu o => encSR 0x1C o.g o.d.toNat o.a.toNat o.b.toNat 0
  | .abs o => encSR 0x1D o.g o.d.toNat o.a.toNat 0 0
  | .cmpCc o => encSR 0x1E o.g o.pd.toNat o.a.toNat o.b.toNat o.cc.code
  | .cmpiCc o => encS 0x1F o.g (o.cc.code * 2 ^ 3 + o.pd.toNat) o.a.toNat o.imm.toNat
  | .movi o => encS 0x20 o.g o.d.toNat o.hw.toNat o.imm.toNat
  | .movk o => encS 0x21 o.g o.d.toNat o.hw.toNat o.imm.toNat
  | .sext o => encSR 0x22 o.g o.d.toNat o.a.toNat 0 o.size.code
  | .zext o => encSR 0x23 o.g o.d.toNat o.a.toNat 0 o.size.code
  | .clz o => encSR 0x24 o.g o.d.toNat o.a.toNat 0 0
  | .ctz o => encSR 0x25 o.g o.d.toNat o.a.toNat 0 0
  | .popc o => encSR 0x26 o.g o.d.toNat o.a.toNat 0 0
  | .bext o => encSR 0x27 o.g o.d.toNat o.a.toNat o.bit.toNat (b2n o.signed * 2 ^ 6 + o.len1.toNat)
  | .bins o => encSR 0x28 o.g o.d.toNat o.a.toNat o.bit.toNat o.len1.toNat
  | .selp o => encSR 0x29 o.g o.d.toNat o.a.toNat o.b.toNat o.n.toNat
  | .lea o => encSR 0x2A o.g o.d.toNat o.a.toNat o.b.toNat o.sh.toNat
  | .pmov o => encSR 0x2B o.g o.d.toNat 0 0 0
  | .pset o => encSR 0x2C o.g o.pd.toNat o.a.toNat 0 o.bit.toNat
  | .faddS o => encSR 0x2D o.g o.d.toNat o.a.toNat o.b.toNat o.rnd.code
  | .fmulS o => encSR 0x2E o.g o.d.toNat o.a.toNat o.b.toNat o.rnd.code
  | .ffmaS o => encSR 0x2F o.g o.d.toNat o.a.toNat o.b.toNat o.rnd.code
  | .fcmpCc o => encSR 0x30 o.g o.pd.toNat o.a.toNat o.b.toNat o.cc.code
  | .fcvt o => encSR 0x31 o.g o.d.toNat o.a.toNat o.to_.code (b2n o.sat * 2 ^ 7 + o.rnd.code * 2 ^ 4 + o.from_.code)
  | .packwe o => encSR 0x32 o.g o.d.toNat o.a.toNat o.b.toNat (b2n o.f32)
  | .vadd o => encVB 0x01 o.vg o.vd.toNat o.va.toNat o.b 0 o.fmt.code 0 o.sat 0
  | .vsub o => encVB 0x02 o.vg o.vd.toNat o.va.toNat o.b 0 o.fmt.code 0 o.sat 0
  | .vmul o => encVB 0x03 o.vg o.vd.toNat o.va.toNat o.b 0 o.fmt.code 0 o.sat 0
  | .vmulh o => encVB 0x04 o.vg o.vd.toNat o.va.toNat o.b 0 o.fmt.code 0 o.sat 0
  | .vmin o => encVB 0x05 o.vg o.vd.toNat o.va.toNat o.b 0 o.fmt.code 0 o.sat 0
  | .vmax o => encVB 0x06 o.vg o.vd.toNat o.va.toNat o.b 0 o.fmt.code 0 o.sat 0
  | .vabs o => encVB 0x07 o.vg o.vd.toNat o.va.toNat (.reg 0) 0 o.fmt.code 0 o.sat 0
  | .vand o => encVB 0x08 o.vg o.vd.toNat o.va.toNat o.b 0 o.fmt.code 0 o.sat 0
  | .vor o => encVB 0x09 o.vg o.vd.toNat o.va.toNat o.b 0 o.fmt.code 0 o.sat 0
  | .vxor o => encVB 0x0A o.vg o.vd.toNat o.va.toNat o.b 0 o.fmt.code 0 o.sat 0
  | .vshl o => encVB 0x0B o.vg o.vd.toNat o.va.toNat o.b 0 o.fmt.code 0 o.sat 0
  | .vshr o => encVB 0x0C o.vg o.vd.toNat o.va.toNat o.b 0 o.fmt.code 0 o.sat 0
  | .vsar o => encVB 0x0D o.vg o.vd.toNat o.va.toNat o.b 0 o.fmt.code 0 o.sat 0
  | .vcmpCc o => encVB 0x0E o.vg o.qd.toNat o.va.toNat o.b 0 o.fmt.code 0 false o.cc.code
  | .vsel o => encVB 0x0F o.vg o.vd.toNat o.va.toNat (.reg o.vb) 0 o.fmt.code 0 false 0
  | .vfadd o => encVB 0x10 o.vg o.vd.toNat o.va.toNat o.b 0 o.fmt.code o.rnd.code false 0
  | .vfsub o => encVB 0x11 o.vg o.vd.toNat o.va.toNat o.b 0 o.fmt.code o.rnd.code false 0
  | .vfmul o => encVB 0x12 o.vg o.vd.toNat o.va.toNat o.b 0 o.fmt.code o.rnd.code false 0
  | .vfma o => encVB 0x13 o.vg o.vd.toNat o.va.toNat o.b o.vc.toNat o.fmt.code o.rnd.code false 0
  | .vfmin o => encVB 0x14 o.vg o.vd.toNat o.va.toNat o.b 0 o.fmt.code o.rnd.code false 0
  | .vfmax o => encVB 0x15 o.vg o.vd.toNat o.va.toNat o.b 0 o.fmt.code o.rnd.code false 0
  | .vfabs o => encVB 0x16 o.vg o.vd.toNat o.va.toNat (.reg 0) 0 o.fmt.code o.rnd.code false 0
  | .vfneg o => encVB 0x17 o.vg o.vd.toNat o.va.toNat (.reg 0) 0 o.fmt.code o.rnd.code false 0
  | .vfcmpCc o => encVB 0x18 o.vg o.qd.toNat o.va.toNat o.b 0 o.fmt.code 0 false o.cc.code
  | .vfrcp o => encVB 0x19 o.vg o.vd.toNat o.va.toNat (.reg 0) 0 o.fmt.code o.rnd.code false 0
  | .vfrsq o => encVB 0x1A o.vg o.vd.toNat o.va.toNat (.reg 0) 0 o.fmt.code o.rnd.code false 0
  | .vfexp2 o => encVB 0x1B o.vg o.vd.toNat o.va.toNat (.reg 0) 0 o.fmt.code o.rnd.code false 0
  | .vflog2 o => encVB 0x1C o.vg o.vd.toNat o.va.toNat (.reg 0) 0 o.fmt.code o.rnd.code false 0
  | .vfcvt o => encVB 0x1D o.vg o.vd.toNat o.va.toNat (.reg 0) 0 o.to_.code o.rnd.code o.sat (o.part.toNat * 2 ^ 4 + o.from_.code)
  | .vqnt o => encV 0x1E o.g 0 false o.vd.toNat o.va.toNat 0 0 o.fmt.fmt.code o.rnd.code false 0 0
  | .vdqn o => encV 0x1F o.g 0 false o.vd.toNat o.va.toNat 0 0 o.fmt.fmt.code 0 false 0 0
  | .vradd o => encVB 0x20 o.vg o.vd.toNat o.va.toNat (.reg 0) 0 o.fmt.code o.rnd.code o.sat 0
  | .vrmax o => encVB 0x21 o.vg o.vd.toNat o.va.toNat (.reg 0) 0 o.fmt.code o.rnd.code o.sat 0
  | .vrmin o => encVB 0x22 o.vg o.vd.toNat o.va.toNat (.reg 0) 0 o.fmt.code o.rnd.code o.sat 0
  | .vscan o => encVB 0x23 o.vg o.vd.toNat o.va.toNat (.reg 0) 0 o.fmt.code o.rnd.code o.sat o.op.code
  | .vperm o => encVB 0x24 o.vg o.vd.toNat o.va.toNat (.reg o.vb) 0 o.fmt.code 0 false 0
  | .vbcst o => encV 0x25 o.vg.g o.vg.q.toNat o.vg.qneg o.vd.toNat 0 0 0 o.fmt.code 0 false o.s.toNat 0
  | .vext o => encV 0x26 o.g 0 false 0 o.va.toNat 0 0 o.fmt.code 0 false o.s.toNat o.k.toNat
  | .vins o => encV 0x27 o.g 0 false o.vd.toNat 0 0 0 o.fmt.code 0 false o.s.toNat o.k.toNat
  | .viota o => encV 0x28 o.vg.g o.vg.q.toNat o.vg.qneg o.vd.toNat 0 0 0 o.fmt.code 0 false o.s.toNat 0
  | .vcmpr o => encVB 0x29 o.vg o.vd.toNat o.va.toNat (.reg 0) 0 o.fmt.code 0 false 0
  | .vexpd o => encVB 0x2A o.vg o.vd.toNat o.va.toNat (.reg 0) 0 o.fmt.code 0 false 0
  | .vacrd o => encV 0x2B o.vg.g o.vg.q.toNat o.vg.qneg o.vd.toNat 0 0 0 o.fmt.code o.rnd.code o.sat o.s.toNat (b2n o.half * 2 + b2n o.tile)
  | .vacwr o => encV 0x2C o.vg.g o.vg.q.toNat o.vg.qneg 0 o.va.toNat 0 0 Fmt.fp32.code 0 false o.s.toNat (b2n o.half * 2 + b2n o.tile)
  | .qand o => encV 0x2D o.g 0 false o.qd.toNat o.qa.toNat o.qb.toNat 0 0 0 false 0 0
  | .qor o => encV 0x2E o.g 0 false o.qd.toNat o.qa.toNat o.qb.toNat 0 0 0 false 0 0
  | .qnot o => encV 0x2F o.g 0 false o.qd.toNat o.qa.toNat 0 0 0 0 false 0 0
  | .qcnt o => encV 0x30 o.g 0 false 0 o.qa.toNat 0 0 o.fmt.code 0 false o.s.toNat 0
  | .vmovi o => encV 0x31 o.vg.g o.vg.q.toNat o.vg.qneg o.vd.toNat 0 0 0 o.fmt.code 0 false 0 o.imm.toNat
  | .ld o => encL 0x01 o.g 0 o.ord.code o.scope.code o.t.toNat o.base.toNat o.index.toNat o.size.code o.land.toNat o.disp.toNat
  | .lds o => encL 0x02 o.g 0 o.ord.code o.scope.code o.t.toNat o.base.toNat o.index.toNat o.size.code o.land.toNat o.disp.toNat
  | .st o => encL 0x03 o.g 0 o.ord.code o.scope.code o.t.toNat o.base.toNat o.index.toNat o.size.code 0 o.disp.toNat
  | .ldv o => encL 0x04 o.g o.q.toNat 0 0 o.t.toNat o.base.toNat o.index.toNat o.size.code o.land.toNat o.disp.toNat
  | .stv o => encL 0x05 o.g o.q.toNat 0 0 o.t.toNat o.base.toNat o.index.toNat o.size.code 0 o.disp.toNat
  | .ldvs o => encL 0x06 o.g o.q.toNat 0 0 o.t.toNat o.base.toNat o.index.toNat o.size.code o.land.toNat o.disp.toNat
  | .stvs o => encL 0x07 o.g o.q.toNat 0 0 o.t.toNat o.base.toNat o.index.toNat o.size.code 0 o.disp.toNat
  | .gth o => encL 0x08 o.g o.q.toNat 0 0 o.t.toNat o.base.toNat o.index.toNat o.size.code o.land.toNat o.disp.toNat
  | .sct o => encL 0x09 o.g o.q.toNat 0 0 o.t.toNat o.base.toNat o.index.toNat o.size.code 0 o.disp.toNat
  | .sctaOp o => encL 0x0A o.g o.q.toNat 0 0 o.t.toNat o.base.toNat o.index.toNat o.size.code 0 o.op.code
  | .aadd o => encL 0x0B o.g 0 o.ord.code o.scope.code o.t.toNat o.base.toNat o.index.toNat o.size.code o.land.toNat o.disp.toNat
  | .amin o => encL 0x0C o.g 0 o.ord.code o.scope.code o.t.toNat o.base.toNat o.index.toNat o.size.code o.land.toNat o.disp.toNat
  | .amax o => encL 0x0D o.g 0 o.ord.code o.scope.code o.t.toNat o.base.toNat o.index.toNat o.size.code o.land.toNat o.disp.toNat
  | .aminu o => encL 0x0E o.g 0 o.ord.code o.scope.code o.t.toNat o.base.toNat o.index.toNat o.size.code o.land.toNat o.disp.toNat
  | .amaxu o => encL 0x0F o.g 0 o.ord.code o.scope.code o.t.toNat o.base.toNat o.index.toNat o.size.code o.land.toNat o.disp.toNat
  | .aand o => encL 0x10 o.g 0 o.ord.code o.scope.code o.t.toNat o.base.toNat o.index.toNat o.size.code o.land.toNat o.disp.toNat
  | .aor o => encL 0x11 o.g 0 o.ord.code o.scope.code o.t.toNat o.base.toNat o.index.toNat o.size.code o.land.toNat o.disp.toNat
  | .axor o => encL 0x12 o.g 0 o.ord.code o.scope.code o.t.toNat o.base.toNat o.index.toNat o.size.code o.land.toNat o.disp.toNat
  | .axchg o => encL 0x13 o.g 0 o.ord.code o.scope.code o.t.toNat o.base.toNat o.index.toNat o.size.code o.land.toNat o.disp.toNat
  | .acas o => encL 0x14 o.g 0 o.ord.code o.scope.code o.t.toNat o.base.toNat o.index.toNat o.size.code o.land.toNat o.disp.toNat
  | .mcall o => encM 0x01 o.g o.acc o.afmt.num o.bfmt.num (gangOf o.afmt o.bfmt) o.routine.toNat 0
  | .mldw o => encM 0x02 o.g false o.afmt.num o.bfmt.num (gangOf o.afmt o.bfmt) 0 o.m.toNat
  | .mswp g => encM 0x03 g false 0 0 0 0 0
  | .mldix o => encM 0x04 o.g false 0 0 0 0 o.v.toNat
  | .mclr o => encM 0x05 o.g o.acc 0 0 0 0 0
  | .mset o => encM 0x06 o.g false 0 0 0 0 (o.s.toNat * 2 ^ 3 + o.m.toNat)
  | .mupld o => encM 0x07 o.g false 0 0 0 o.routine.toNat (o.at_.toNat * 2 ^ 3 + o.m.toNat)
  | .massay o => encM 0x08 o.g false 0 0 0 0 o.p.toNat
  | .msync g => encM 0x09 g false 0 0 0 0 0
  | .xld o => encX 1 o.g o.x.toNat o.base.toNat o.land.toNat o.disp.toNat
  | .xldb o => encX 2 o.g o.x.toNat o.base.toNat o.land.toNat o.disp.toNat
  | .xmov o => encX 3 o.g o.x.toNat o.src.toNat 0 0
  | .xset o => encX 4 o.g o.x.toNat 0 0 o.imm.toNat
  | .cpgo o => encD 0x01 o.g o.a.toNat 0 0 o.unit.toNat 0
  | .cpq o => encD 0x02 o.g o.a.toNat 0 0 o.unit.toNat o.land.toNat
  | .cpstop o => encD 0x03 o.g 0 0 0 o.unit.toNat 0
  | .wkapp o => encD 0x04 o.g o.a.toNat o.b.toNat o.c.toNat 0 (b2n o.uirq)
  | .wkwalk o => encD 0x05 o.g o.a.toNat o.b.toNat o.c.toNat 0 (b2n o.uirq)
  | .wkfix o => encD 0x06 o.g o.a.toNat o.b.toNat 0 0 (o.level.toNat * 2 + b2n o.uirq)
  | .wkq o => encD 0x07 o.g o.a.toNat 0 0 0 o.land.toNat
  | .cxtab o => encD 0x08 o.g o.a.toNat 0 0 o.slot.toNat (b2n o.uirq * 2 ^ 8 + o.gen.toNat)
  | .cxpk o => encD 0x09 o.g o.a.toNat o.b.toNat o.c.toNat o.slot.toNat (b2n o.uirq * 2 ^ 12 + o.count.toNat)
  | .cxun o => encD 0x0A o.g o.a.toNat o.b.toNat o.c.toNat 0 (b2n o.uirq * 2 ^ 12 + o.count.toNat)
  | .wget o => encD 0x10 o.g o.a.toNat o.b.toNat o.c.toNat 0 (b2n o.uirq * 2 ^ 12 + o.count.toNat)
  | .wput o => encD 0x11 o.g o.a.toNat o.b.toNat o.c.toNat 0 (b2n o.uirq * 2 ^ 12 + o.count.toNat)
  | .wexp o => encD 0x12 o.g o.a.toNat o.b.toNat o.c.toNat 0 (b2n o.uirq * 2 ^ 12 + o.count.toNat)
  | .clgo o => encD 0x0B o.g o.a.toNat 0 0 0 (b2n o.uirq)
  | .lksend o => encD 0x0C o.g o.a.toNat o.b.toNat o.c.toNat o.port.toNat (b2n o.uirq)
  | .lkrecv o => encD 0x0E o.g o.a.toNat o.b.toNat o.c.toNat o.port.toNat (b2n o.uirq)
  | .lkradd o => encD 0x0D o.g o.a.toNat o.b.toNat o.c.toNat o.port.toNat (o.fmt.code * 2 + b2n o.uirq)
  | .lkwait o => encD 0x0F o.g o.a.toNat 0 0 0 0
  | .wsync o => encD 0x13 o.g o.a.toNat 0 0 0 0
  | .txid o => encD 0x14 o.g o.a.toNat 0 0 0 o.land.toNat
  | .txabort o => encD 0x15 o.g o.a.toNat 0 0 0 (b2n o.retry)
  | .qlaunch o => encD 0x16 o.g o.a.toNat o.b.toNat 0 0 0
  | .evpost o => encD 0x17 o.g o.a.toNat 0 0 0 o.scope.code
  | _ => 0

/-! ## The decoder -/

/-- Accept a raw reading: well formed, and encoding back to the word (02 R42, R50). -/
def accept (x : Nat) (r : Option Instr) : Option Instr :=
  match r with
  | some i => if i.wf && encode i == x then some i else none
  | none => none

/-- Bits of each slot (02 R32). -/
def Slot.bits : Slot → Nat
  | .c => 48 | .s0 => 40 | .s1 => 40 | .v => 64 | .l => 56 | .m => 48 | .x => 32 | .d => 48

/-- Lowest bit of each slot within the bundle (02 R32). -/
def Slot.lo : Slot → Nat
  | .c => 328 | .s0 => 288 | .s1 => 248 | .v => 184 | .l => 128 | .m => 80 | .x => 48 | .d => 0

/-- Place of a slot in the order C, S0, S1, V, L, M, X, D: its TRAPMASK bit (03 R65) and result order (02 R57). -/
def Slot.pos : Slot → Nat
  | .c => 0 | .s0 => 1 | .s1 => 2 | .v => 3 | .l => 4 | .m => 5 | .x => 6 | .d => 7

/-- The eight slots in that order. -/
def Slot.all : List Slot := [.c, .s0, .s1, .v, .l, .m, .x, .d]

/-- Decode one slot word. -/
def decodeSlot (sl : Slot) (x : Nat) : Option Instr :=
  accept x (match sl with
    | .c => rawC x | .s0 => rawS .s0 x | .s1 => rawS .s1 x | .v => rawV x
    | .l => rawL x | .m => rawM x | .x => rawX x | .d => rawD x)

/-- The header of a bundle (02 R33). -/
structure Header where
  p : PReg
  neg : Bool
  seg : Bool
  rdv : Bool
  deriving DecidableEq, Repr

/-- A header that predicates nothing. -/
def Header.plain : Header := ⟨0, false, false, false⟩

/-- Header bits (02 R33). -/
def Header.bits (h : Header) : Nat := h.p.toNat * 2 ^ 5 + b2n h.neg * 2 ^ 4 + b2n h.seg * 2 ^ 3 + b2n h.rdv * 2 ^ 2

/-- A decoded bundle: its header and its slots that are not nop, in slot order. -/
structure Bundle where
  h : Header
  slots : List (Slot × Instr)
  deriving DecidableEq, Repr

/-- Is the instruction a nop? -/
def Instr.isNop : Instr → Bool
  | .nop _ => true
  | _ => false

/-- Is it a package reset, the one transition of a package that is off (21 R340)? -/
def Instr.isReset : Instr → Bool
  | .packageReset => true
  | _ => false

/-- The word of a slot in a bundle. -/
def slotWord (b : BundleBits) (sl : Slot) : Nat := bitsAt b.toNat sl.lo sl.bits

/-- TRAPMASK of the slots that hold a non-instruction (02 R50). -/
def badSlots (b : BundleBits) : List Slot → Nat
  | [] => 0
  | sl :: t => (if (decodeSlot sl (slotWord b sl)).isNone then 2 ^ sl.pos else 0) + badSlots b t

/-- The instructions of the slots that are not nop. -/
def liveSlots (b : BundleBits) : List Slot → List (Slot × Instr)
  | [] => []
  | sl :: t =>
    match decodeSlot sl (slotWord b sl) with
    | some i => if i.isNop then liveSlots b t else (sl, i) :: liveSlots b t
    | none => liveSlots b t

/-- What decoding a bundle answers: the bundle, or the TRAPMASK of ILLEGAL_BUNDLE (02 R50). -/
inductive Decoded where
  | ok (b : Bundle)
  | illegal (mask : BitVec 8)
  deriving DecidableEq, Repr

/-- Decode a bundle (02 R32, R33, R50). -/
def decodeBundle (b : BundleBits) : Decoded :=
  let hb := bitsAt b.toNat 376 8
  let bad := badSlots b Slot.all
  if hb % 4 ≠ 0 ∨ bad ≠ 0 then .illegal (BitVec.ofNat 8 bad)
  else .ok ⟨⟨fld hb 5 3, bitAt hb 4, bitAt hb 3, bitAt hb 2⟩, liveSlots b Slot.all⟩

/-- The bits of a bundle. -/
def encodeBundle (b : Bundle) : BundleBits :=
  BitVec.ofNat 384 (b.h.bits * 2 ^ 376 + (b.slots.map fun e => encode e.2 * 2 ^ e.1.lo).sum)

/-! ## Micro-words (06 R150) -/

/-- The 128-bit word of a micro-instruction. -/
def encodeMicro : Instr → Nat
  | .step u => 1 * 2 ^ 124 + u.op.code * 2 ^ 122 + b2n u.gathered * 2 ^ 120
  | .seta u => 2 * 2 ^ 124 + u.base.toNat * 2 ^ 119 + u.stride.toNat * 2 ^ 116 + u.r.toNat
  | .setacc u => 3 * 2 ^ 124 + u.row.toNat
  | .scale u => 4 * 2 ^ 124 + b2n u.hold * 2 ^ 12 + u.x.toNat * 2 ^ 8 + u.byte.toNat
  | .loopu u => 5 * 2 ^ 124 + b2n u.fromM * 2 ^ 28 + u.m.toNat * 2 ^ 25 + u.len.toNat * 2 ^ 16 + u.count.toNat
  | .endu _ => 6 * 2 ^ 124
  | _ => 0

/-- Raw reading of a micro-word for a context's routine. -/
def rawMicro (c : CtxNo) (x : Nat) : Option Instr :=
  match bitsAt x 124 4 with
  | 1 => (CellOp.ofCode (bitsAt x 122 2)).map fun op => .step ⟨c, bitAt x 120, op⟩
  | 2 => some (.seta ⟨c, fld x 119 3, fld x 116 3, fld x 0 16⟩)
  | 3 => some (.setacc ⟨c, fld x 0 7⟩)
  | 4 => some (.scale ⟨c, bitAt x 12, fld x 8 4, fld x 0 5⟩)
  | 5 => if bitsAt x 16 8 = 0 then none else some (.loopu ⟨c, bitAt x 28, fld x 25 3, fld x 16 8, fld x 0 16⟩)
  | 6 => some (.endu c)
  | _ => none

/-- Decode a micro-word: fields the uop does not name are zero. -/
def decodeMicro (c : CtxNo) (w : BitVec 128) : Option Instr :=
  match rawMicro c w.toNat with
  | some i => if encodeMicro i == w.toNat then some i else none
  | none => none

/-! ## Land codes (02 R44) and their static minimums (02 R51) -/

/-- The land an 8-bit code stands for. -/
def landL (k : BitVec 8) : Nat := if k.toNat ≤ 191 then k.toNat else 192 + 16 * (k.toNat - 192)

/-- The land a 6-bit code stands for. -/
def landX (k : BitVec 6) : Nat := if k.toNat ≤ 31 then k.toNat else 32 + 16 * (k.toNat - 32)

/-- Is the land of a variable-latency request below the least minimum of any path (02 R51 check 4)? -/
def Instr.landShort : Instr → Bool
  | .ld o => decide (landL o.land < 6)
  | .lds o => decide (landL o.land < 6)
  | .ldv o => decide (landL o.land < 6)
  | .ldvs o => decide (landL o.land < 6)
  | .gth o => decide (landL o.land < 6)
  | .aadd o => o.t != 0 && decide (landL o.land < 6)
  | .amin o => o.t != 0 && decide (landL o.land < 6)
  | .amax o => o.t != 0 && decide (landL o.land < 6)
  | .aminu o => o.t != 0 && decide (landL o.land < 6)
  | .amaxu o => o.t != 0 && decide (landL o.land < 6)
  | .aand o => o.t != 0 && decide (landL o.land < 6)
  | .aor o => o.t != 0 && decide (landL o.land < 6)
  | .axor o => o.t != 0 && decide (landL o.land < 6)
  | .axchg o => o.t != 0 && decide (landL o.land < 6)
  | .acas o => o.t != 0 && decide (landL o.land < 6)
  | .xld o => decide (landX o.land < 6)
  | .xldb o => decide (landX o.land < 6)
  | .cpq o => decide (landL o.land < 24)
  | .wkq o => decide (landL o.land < 24)
  | .txid o => decide (landL o.land < 96)
  | _ => false

/-! ## The opcode table's words -/

/-- The slot whose words have a number of bits: the X slot's four instructions are the table's words of 32 bits;
a wider word is read in the slot of that width. -/
def slotOfBits (nbits : Nat) : Slot :=
  if nbits ≤ 32 then .x else if nbits ≤ 40 then .s0 else if nbits ≤ 48 then .c else if nbits ≤ 56 then .l else .v

/-- The instruction the decoder reads from a word of the opcode table. -/
def decodeTableWord (nbits w : Nat) : Option Instr := decodeSlot (slotOfBits nbits) w

end Sys2Proof
end

