-- ==== Sys2Proof/Machine/State.lean ====
section
/-! DEFINITION. The state of one ZA-6416 package: every register, memory, queue and status the spec names, as plain
data, and the state after package reset. Sparse stores (`SMap`) list only what differs from the default given where
they are read. -/

namespace Sys2Proof.Machine

open Sys2Proof

/-! ## Poison and register values -/

/-- Poison: its provenance tag and the origin bit of 07 R179 (`core`: detected in this core's register files or datapath). -/
structure Poi where
  tag : Tag
  core : Bool
  deriving DecidableEq, Repr

/-- A scalar register: value, residue (04 R113), poison (01 R26). -/
structure SVal where
  v : Word
  r : BitVec 4
  p : Option Poi
  deriving DecidableEq, Repr

/-- A predicate. -/
structure PVal where
  v : Bool
  p : Option Poi
  deriving DecidableEq, Repr

/-- A lane mask. -/
structure QVal where
  v : QBits
  p : Option Poi
  deriving DecidableEq, Repr

/-- A vector register with its poison by 32-bit group. -/
structure VVal where
  v : VBits
  p : SMap Poi
  deriving DecidableEq, Repr

/-- An m register. -/
structure MVal where
  v : Word
  p : Option Poi
  deriving DecidableEq, Repr

/-- A scale register: 32 bytes, poison by group of 8 (06 R164). -/
structure XVal where
  v : QBits
  p : SMap Poi
  deriving DecidableEq, Repr

/-- The register files of a context (03 R62), keyed by register number; unlisted registers read zero. -/
structure Regs where
  s : SMap SVal
  p : SMap PVal
  q : SMap QVal
  v : SMap VVal
  m : SMap MVal
  x : SMap XVal
  /-- the banked s56–s63 (03 R92), keyed 56–63 -/
  bank : SMap SVal
  deriving DecidableEq, Repr

/-- Where a result goes. -/
inductive Dest where
  | s (n : SReg) | p (n : PReg) | q (n : QReg) | v (n : VReg) | m (n : MReg) | x (n : XReg)
  deriving DecidableEq, Repr

/-- A result on its way: for a vector register `mask` says which bytes are written, and `p` gives the poison of the
groups written. -/
inductive RVal where
  | s (x : SVal)
  | p (x : PVal)
  | q (x : QVal)
  | v (bits : VBits) (mask : QBits) (p : SMap Poi)
  | m (x : MVal)
  | x (x : XVal)
  deriving DecidableEq, Repr

/-- A fixed-latency result in flight (02 R52): the tick it lands at, its slot position and issue number (02 R57). -/
structure Res where
  due : Nat
  pos : Nat
  issue : Nat
  dst : Dest
  val : RVal
  deriving DecidableEq, Repr

/-- A landing-buffer entry (03 R70): land tick, destination, the access it waits for, its data, whether the data has
arrived, and the wall cycle in which the context first blocked for it at its land tick (03 R71). -/
structure Land where
  due : Nat
  pos : Nat
  issue : Nat
  seq : Nat
  dst : Dest
  va : Word
  data : Option RVal
  arrived : Bool
  since : Option Nat
  deriving DecidableEq, Repr

/-- A loop-stack entry (03 R62, R72). -/
structure LoopEntry where
  start : BitVec 32
  stop : BitVec 32
  remaining : BitVec 32
  index : BitVec 32
  obj : BitVec 8
  exit : Bool
  deriving DecidableEq, Repr

/-- The control registers a context stores (03 R65–R68); CTXID, CORE, CLU, DIE, PKG, BUDGET, HALL and the level,
stepping and svc fields of STATUS are computed. -/
structure Ctl where
  obj : BitVec 8
  prio : BitVec 1
  uidepth : BitVec 3
  ldepth : BitVec 3
  uiact : Bool
  uie : Bool
  priv : BitVec 2
  trapcause : Word
  trappc : BitVec 32
  trapaddr : Word
  trapmask : BitVec 8
  uivec : Word
  uiret : Word
  uipend : BitVec 32
  uimask : BitVec 32
  landlate : Word
  stallcnt : Word
  dbase : BitVec 12
  dlen : BitVec 12
  cbase : BitVec 48
  otbase : BitVec 48
  wkmode : Word
  wktheta : Word
  wktau : Word
  wkdepth : Word
  wklistmax : Word
  segpc : BitVec 32
  deriving DecidableEq, Repr

/-! ## Traps -/

/-- The 22 trap causes of 03 R95. -/
inductive Cause where
  | illegalBundle | illegalIndex | privilege | align | translate | protect | poisonConsumed | residue
  | loopstack | coordRange | windowFetch | overlap | staleTable | expandSize | txAborted | shadowFull
  | landingTimeout | trapInstr | budget | heartbeat | coolant | barrierMisuse
  deriving DecidableEq, Repr

/-- A cause with what it reports (03 R67, R95). -/
structure Trap where
  cause : Cause
  addr : Word := 0
  sub : BitVec 8 := 0
  poi : Option Poi := none
  deriving DecidableEq, Repr

/-- The unit a deferred fault belongs to (06 R147). -/
inductive DUnit where
  | mtx | crd | col
  deriving DecidableEq, Repr

/-- A recorded deferred fault and the cycle it was recorded in. -/
structure DFault where
  unit : DUnit
  cycle : Nat
  trap : Trap
  deriving DecidableEq, Repr

/-! ## Memory accesses in flight -/

/-- What an element's address resolved to. `mem` is HBM with the key id of its page; `win` is an on-chip window of a
physical core (kind 6: of its cluster); `fabric` is a line of a reduction window homed elsewhere (23 R361). -/
inductive Target where
  | mem (pa : Nat) (key : BitVec 12)
  | win (core : Nat) (kind : Nat) (off : Nat)
  | fabric (win : Nat) (pa : Nat)
  | mgmt (off : Nat)
  deriving DecidableEq, Repr

/-- The atomic operations of 05 R132. -/
inductive AtomicOp where
  | add | min | max | minu | maxu | and | or | xor | xchg | cas
  deriving DecidableEq, Repr

/-- What an access does. -/
inductive AccKind where
  | load
  | store
  | atomic (op : AtomicOp)
  deriving DecidableEq, Repr

/-- One element of an access: its lane, target, size in bytes, data and compare value, and for a read what it returned
with the poison of it. -/
structure Elem where
  lane : Nat
  va : Word
  tgt : Target
  size : Nat
  data : Nat
  cmp : Nat
  got : Option (Nat × List (Nat × Tag))
  done : Bool
  deriving DecidableEq, Repr

/-- How a load's data becomes its destination's value. -/
inductive LandForm where
  | none
  | zext (dst : SReg)
  | sext (dst : SReg) (bytes : Nat)
  | vec (dst : VReg) (bytes : Nat)
  | xld (dst : XReg)
  | xldb (dst : XReg)
  deriving DecidableEq, Repr

/-- A CTX-path access in flight (05 R136–R138): its issue sequence number, order and scope, its elements, and the wall
cycle it issued in (21 R339). -/
structure Access where
  seq : Nat
  kind : AccKind
  ord : Ord
  scope : Scope
  elems : List Elem
  form : LandForm
  hall : Option Hall
  issued : Nat
  deriving DecidableEq, Repr

/-- An access another context waits for after an acquire: who acquired it (the acquire's sequence number), whose access
it is, and its number. -/
structure Dep where
  acq : Nat
  ctx : Nat
  seq : Nat
  deriving DecidableEq, Repr

/-- A DRAIN, or the DRAIN a release is (05 R138): its scope and the first sequence number after it. -/
structure Drain where
  scope : Scope
  seq : Nat
  deriving DecidableEq, Repr

/-- What the last write of a word released: by whom, at which scope, and which accesses had then not performed. -/
structure RelPart where
  ctx : Nat
  scope : Scope
  deps : List (Nat × Nat)
  deriving DecidableEq, Repr

/-! ## Engine commands -/

/-- Matrix commands (06 R143) with their captured operands. -/
inductive MtxOp where
  | mcall (acc : Bool) (afmt bfmt : MxFmt) (routine : BitVec 8) (m : SMap MVal) (x : SMap XVal)
  | mldw (afmt bfmt : MxFmt) (m : MVal)
  | mswp
  | mldix (v : VVal)
  | mclr (acc : Bool)
  | mupld (m : MVal) (routine : BitVec 8) (at_ : BitVec 10)
  deriving DecidableEq, Repr

/-- A queued matrix command: `after` is the CTX sequence number its FENCE makes it wait for (08 R207). -/
structure MtxCmd where
  op : MtxOp
  after : Nat
  issueTick : Nat
  deriving DecidableEq, Repr

/-- Coordinate operations (18 R313). -/
inductive CrdOp where
  | wget | wput | wexp
  deriving DecidableEq, Repr

/-- A queued coordinate command. -/
structure CrdCmd where
  op : CrdOp
  a : Word
  b : Word
  c : Word
  count : Nat
  uirq : Bool
  after : Nat
  deriving DecidableEq, Repr

/-- A tensor map record (17 R300). -/
structure TMap where
  gang : Nat
  afmt : Nat
  baxis : Nat
  penc : Nat
  ptype : Nat
  rank : Nat
  dims : List Nat
  tk : Nat
  tn : Nat
  stride : Nat
  kt : Nat
  plist : Word
  entries : Nat
  slabs : Nat
  deriving DecidableEq, Repr

/-- A placement entry: address, first tile, tiles (17 R300). -/
structure Place where
  va : Nat
  first : Nat
  count : Nat
  deriving DecidableEq, Repr

/-- What a coordinate command works on: the record, its placement list, the indices of its first element (18 R314). -/
structure CrdJob where
  t : TMap
  pl : List Place
  ix : List Nat
  deriving DecidableEq, Repr

/-- COL operations (23 R366, R373). -/
inductive ColOp where
  | lksend (port : BitVec 4)
  | lkradd (port : BitVec 4) (fmt : Fmt)
  | lkrecv (port : BitVec 4)
  | cxtab (slot : BitVec 4) (gen : BitVec 8)
  | cxpk (slot : BitVec 4) (count : Nat)
  | cxun (count : Nat)
  | clgo
  deriving DecidableEq, Repr

/-- What a posted receive waits for (23 R367, R379): the net (false: Ildahar), the port it arrives on, the peer, the
partition and the tag. -/
structure RecvKey where
  net : Bool
  port : BitVec 4
  peer : BitVec 16
  part : PartNo
  tag : BitVec 12
  addr : BitVec 128
  deriving DecidableEq, Repr

/-- A link or collective command that has not ended. `id` orders commands; `want` is its posted receive (LKRECV, LKRADD, or the
receive step of a CLGO), `postedAt` orders postings, `msg` and `lost` are what it was given. Of a CLGO, `step` counts finished
steps, `bad` is the first status of a step that did not end DONE, and `slot` is the table slot it uses. -/
structure ColCmd where
  op : ColOp
  a : Word
  b : Word
  c : Word
  uirq : Bool
  after : Nat
  id : Nat
  want : Option RecvKey
  msg : Option Message
  lost : Bool
  step : Nat
  bad : Nat
  slot : Option Nat
  postedAt : Nat
  deriving DecidableEq, Repr

/-- Walker operations (09 R215). -/
inductive WkOp where
  | wkapp | wkwalk | wkfix (level : BitVec 4)
  deriving DecidableEq, Repr

/-- A queued walker command with the copies of the WK registers (09 R216). -/
structure WkCmd where
  op : WkOp
  a : Word
  b : Word
  c : Word
  mode : Word
  theta : Word
  tau : Word
  depth : Word
  listmax : Word
  uirq : Bool
  ctx : Nat
  after : Nat
  at_ : Nat
  deriving DecidableEq, Repr

/-- A command as the segment buffer holds it (07 R177). -/
inductive EngCmd where
  | mtx (c : MtxCmd)
  | cpgo (unit : BitVec 4) (head : Word) (after : Nat)
  | cpstop (unit : BitVec 4)
  | wk (c : WkCmd)
  | crd (c : CrdCmd)
  | col (c : ColCmd)
  | txabort (code : Word) (retry : Bool)
  | qlaunch (queue : Nat) (slot : Nat) (bytes : List (Byte × Option Tag))
  | evpost (target : Nat) (scope : Scope)
  deriving DecidableEq, Repr

/-- One line of the segment buffer. -/
inductive SegLine where
  | acc (a : Access)
  | cmd (c : EngCmd)
  deriving DecidableEq, Repr

/-- An open segment (07 R176–R181): its snapshot, its lines oldest first, its rewind count, and whether its entry is
about to be reissued after a rewind. -/
structure Seg where
  s : SMap SVal
  p : SMap PVal
  loops : SMap LoopEntry
  ldepth : BitVec 3
  pc : BitVec 32
  ct : Nat
  issue : Nat
  seq : Nat
  lines : List SegLine
  rewinds : Nat
  rerun : Bool
  /-- did the bundle before the entry hold a MUL (25 R389)? -/
  mulPrev : Bool
  deriving DecidableEq, Repr

/-! ## The matrix unit -/

/-- A weight plane (06 R141): the tile image it was loaded from by 8-byte word, with its poison, and its format
tag; `tag = none` is open. Codes, scales and the assay column are read from the image by the layout of 06 R142. -/
structure Plane where
  img : SMap Word
  poison : SMap (Option Tag)
  afmt : MxFmt
  tag : Option (MxFmt × Nat)
  deriving DecidableEq, Repr

/-- One level of LOOPU: first word of the body, body length, iterations left. -/
structure ULevel where
  first : Nat
  len : Nat
  left : Nat
  deriving DecidableEq, Repr

/-- A routine in progress (06 R151): base, stride, row counter, accumulator row, scale position, hold, next word,
word count and open LOOPU levels. -/
structure URun where
  acc : Bool
  afmt : MxFmt
  bfmt : MxFmt
  m : SMap MVal
  x : SMap XVal
  b : MVal
  t : MVal
  r : Nat
  c : Nat
  p : Nat
  hold : Bool
  first : Nat
  len : Nat
  word : Nat
  loops : List ULevel
  deriving DecidableEq, Repr

/-- The assay state (06 R163): step check, assay row A(k), column totals T(n), exact; `p` is the poison of assay sums the
checks have used. -/
structure Assay where
  check : Bool
  a : SMap Int
  t : SMap Int
  p : Option Poi
  deriving DecidableEq, Repr

/-- A context's side of the matrix unit. -/
structure Mtx where
  active : Plane
  standby : Plane
  idx : VVal
  queue : List MtxCmd
  run : Option URun
  assay : Assay
  deriving DecidableEq, Repr

/-! ## Contexts -/

/-- What a blocked context waits for (07 R168, 03 R391). -/
inductive Wait where
  | landing (since : Nat)
  | tlb (va : Word)
  | queueSpace (q : EngClass)
  /-- a control read waits for the context's own earlier accesses -/
  | order
  | qlaunch (queue : Nat)
  | rendezvous
  | mwait (dst : SReg) (deadline : Option Nat)
  | barrier (id : BitVec 4) (scope : Scope)
  | msync
  | wsync (dst : SReg)
  | lkwait (dst : SReg)
  | callx (dst : SReg) (ret : Word) (link : Word) (code : Option (BitVec 48 × BitVec 12 × BitVec 12))
  | object (link : Word) (code : Option (BitVec 48 × BitVec 12 × BitVec 12))
  /-- RTI, before its bundle commits: the handler's results and landings -/
  | rtiWait (since : Nat)
  | rti (since : Nat) (code : Option (BitVec 48 × BitVec 12 × BitVec 12)) (late : Bool)
  | fenceHst (seq : Nat)
  | halt
  deriving DecidableEq, Repr

/-- Activity of a context (07 R168, 08 R209). `trapWaiting`: trapped, its event not yet in the cluster's queue (R210). -/
inductive Act where
  | free | ready | blocked (w : Wait) | parked | trapWaiting | trapped | halting | halted
  deriving DecidableEq, Repr

/-- A monitor (08 R199–R201): the line it watches as a target, and the view it watches in. -/
structure Monitor where
  line : Option Target
  hit : Bool
  filter : Bool
  deriving DecidableEq, Repr

/-- An outstanding barrier arrival (08 R204). -/
structure Arrival where
  id : BitVec 4
  scope : Scope
  /-- sequence number of the first access after it -/
  seq : Nat
  /-- its phase has completed -/
  done : Bool
  /-- accesses of the participants that the end of the wait orders -/
  deps : List (Nat × Nat)
  deriving DecidableEq, Repr

/-- What dispatch granted a context (06 R149, 02 R28): first and count of dictionary entries, micro-words and routine
entries. -/
structure Grant where
  dFirst : Nat
  dCount : Nat
  uwFirst : Nat
  uwCount : Nat
  reFirst : Nat
  reCount : Nat
  deriving DecidableEq, Repr

/-- An asynchronous cause due (03 R95, R391); `ends`: it ends the launch. -/
structure Due where
  trap : Trap
  ends : Bool
  deriving DecidableEq, Repr

/-- An accumulator element VACWR wrote that matrix work does not see yet (02 R52, 06 R166): the tick from which it does. -/
structure AccNew where
  due : Nat
  at_ : Nat
  val : W32
  p : Option Poi
  deriving DecidableEq, Repr

/-- A trap event (08 R209). -/
structure TrapEvent where
  ctx : Nat
  cause : Word
  pc : BitVec 32
  addr : Word
  mask : BitVec 8
  hall : Option Hall
  deriving DecidableEq, Repr

/-- A context (03 R62). -/
structure Ctx where
  regs : Regs
  pc : BitVec 32
  loops : SMap LoopEntry
  ctl : Ctl
  /-- context time, in ticks -/
  ct : Nat
  /-- TICK: bundles issued since dispatch -/
  issues : Nat
  fixed : List Res
  land : List Land
  /-- the interrupted code's tick count and landings while a handler runs (03 R92) -/
  uiCt : Nat
  uiLand : List Land
  /-- did the interrupted code's last bundle hold a MUL (25 R389)? -/
  uiMul : Bool
  act : Act
  parkReq : Bool
  /-- the last bundle ended at a boundary of 03 R85 -/
  boundary : Bool
  causes : List Due
  mon : Monitor
  seg : Option Seg
  /-- lines of a closed segment that wait for their paths, oldest first (07 R177) -/
  rel : List SegLine
  rewindFlag : Bool
  arrivals : List Arrival
  acc : List Access
  deps : List Dep
  drains : List Drain
  /-- per engine class: the CTX sequence number a later command of that class waits for -/
  fences : SMap Nat
  mtx : Mtx
  dfaults : List DFault
  mulPrev : Bool
  crd : List CrdCmd
  /-- the oldest coordinate command has passed its checks: what it works on, and its next element -/
  crdJob : Option (CrdJob × Nat)
  crdEnded : Nat
  crdRe : Nat
  col : List ColCmd
  colEnded : Nat
  colFirstBad : Nat
  colBad : Nat
  wkEnded : Nat
  wkLast : BitVec 8
  evtAcq : List (Nat × Nat)
  hall : Option Hall
  grant : Grant
  /-- failed page walks of the bundle that waits, raised when it issues again -/
  walk : List (Word × Trap)
  /-- wall cycle at which its trap reached 03 R96 step 4, or its late event arose (08 R210) -/
  trapAt : Nat
  /-- `issues` at the end of the last heartbeat period, and of the one before (21 R326) -/
  hb1 : Nat
  hb2 : Nat
  /-- accumulator elements on their way to the matrix unit, oldest first -/
  vac : List AccNew
  /-- the wait of the RTI at the PC has ended (03 R93) -/
  rtiDone : Bool
  /-- results that have landed at the boundary the context stands at: a window write there comes before them (03 R64) -/
  landed : List Res
  /-- the trap event of a fault found for it after it halted, until the cluster's queue takes it (06 R146, 08 R210) -/
  lateEvent : Option TrapEvent
  deriving DecidableEq, Repr

/-- A core. -/
structure Core where
  running : Option (Fin 4)
  /-- the running context is at a switch point made by an executed YIELD -/
  yielded : Bool
  /-- the running context has become unready since it took the port (07 R169): it is at a switch point -/
  released : Bool
  /-- last context that held the port -/
  last : Fin 4
  /-- context whose command the matrix unit ran last (06 R143) -/
  mtxLast : Fin 4
  /-- the cycle from which the port may issue again -/
  freeAt : Nat
  grants : Word
  beaten : Bool
  misses : Nat
  stopped : Bool
  gated : Bool
  deriving DecidableEq, Repr

/-- A chain head queued on a channel (08 R198): its address, the context whose CPGO it is, and the CTX sequence number
that context's FENCE makes it wait for (08 R207). -/
structure Head where
  at_ : Word
  by_ : Nat
  after : Nat
  deriving DecidableEq, Repr

/-- A copy channel (08 R197, R198); `state` 0 idle, 1 running, 2 faulted. `head` is the record it works on, `by_` and
`after` are those of the chain it belongs to. -/
structure Chan where
  head : Word
  state : BitVec 2
  owner : BitVec 8
  cause : BitVec 8
  heads : List Head
  faddr : Word
  done : Nat
  by_ : Nat
  after : Nat
  /-- [3:0] launch-relative number, [7] valid -/
  map : BitVec 8
  hall : Option Hall
  /-- CPSTOP reached it: it goes idle after the record in progress -/
  stop : Bool
  deriving DecidableEq, Repr

/-- A cluster's walker (09 R216, R229). -/
structure Walker where
  queue : List WkCmd
  waiting : Bool
  running : Option WkCmd
  last : BitVec 8
  tree : Word
  pos : Nat
  done : Nat
  faultIssuer : BitVec 8
  faultCause : BitVec 8
  faultAddr : Word
  deriving DecidableEq, Repr

/-- A cluster. -/
structure Cluster where
  chans : SMap Chan
  walker : Walker
  events : List TrapEvent
  delivered : List TrapEvent
  pairStopped : Bool
  deriving DecidableEq, Repr

/-- An error record (21 R330). -/
structure ErrRec where
  unit : BitVec 7
  index : BitVec 5
  kind : BitVec 8
  rewinds : BitVec 8
  time : Nat
  place : Word
  syn : Word
  copied : Bool
  deriving DecidableEq, Repr

/-- A capture unit (21 R338). -/
structure Capture where
  ctl : Word
  min : Word
  max : Word
  count : Word
  sum : Word
  bins : SMap (BitVec 32)
  deriving DecidableEq, Repr

/-- A held message or a lost mark of a die's holding buffer (23 R367). -/
structure LostMark where
  part : PartNo
  peer : BitVec 16
  tag : BitVec 12
  addr : BitVec 128
  deriving DecidableEq, Repr

/-- A die. -/
structure Die where
  held : List Message
  lost : List LostMark
  captures : SMap Capture
  errNext : SMap (BitVec 5)
  deriving DecidableEq, Repr

/-! ## Memory and translation -/

/-- A TLB entry (12 R242). `part = none` is the supervisor table. -/
structure Tlb where
  site : Nat
  part : Option (Fin 64)
  base : Word
  size : Nat
  pa : Nat
  r : Bool
  w : Bool
  x : Bool
  u : Bool
  key : BitVec 12
  deriving DecidableEq, Repr

/-- A key slot (12 R245, R246). -/
structure KeySlot where
  loaded : Bool
  material : BitVec 512
  owner : BitVec 6
  shared : Bool
  deriving DecidableEq, Repr

/-- A line of global memory: its 64 bytes, the poison of its eight words, and the key material it is stored under
(none: plaintext). -/
structure LineVal where
  data : SMap Byte
  poison : SMap (Option Tag)
  key : Option (BitVec 512)
  deriving DecidableEq, Repr

/-- A shadow directory entry with its slot (13 R255, R256): the line's 64 bytes and the poison of its words. -/
structure Shadow where
  line : Nat
  hall : Hall
  ticket : Option Nat
  val : LineVal
  deriving DecidableEq, Repr

/-- On-chip and HBM storage. On-chip stores are keyed by core·size + offset. -/
structure Mem where
  hbm : List Host.Cell
  hbmPoison : SMap (Option Tag)
  /-- per line: the key material it is stored under; unlisted lines are plaintext (12 R245) -/
  lineKey : SMap (Option (BitVec 512))
  /-- scratchpads by 8-byte word: core · 65,536 + word -/
  spad : SMap Word
  spadPoison : SMap (Option Tag)
  spadValid : SMap Bool
  acc : SMap W32
  accPoison : SMap (Option Poi)
  accValid : SMap Bool
  dict : SMap BundleBits
  dictPoison : SMap (Option Tag)
  ucode : SMap (BitVec 128)
  ucodePoison : SMap (Option Tag)
  rtable : SMap W32
  shadow : List Shadow
  /-- lines the pending-line filter reports (13 R257) -/
  filter : List Nat
  /-- shadow slots of each die (13 R255) -/
  slots : Nat
  /-- release records of 8-byte words: keyed by home address (model's bookkeeping of 05 R138) -/
  rel : List (Target × List RelPart)
  deriving DecidableEq, Repr

/-- Translation and key registers (12 R244). -/
structure Trans where
  tlb : List Tlb
  trroot : SMap Word
  trsup : Word
  trinv : Word
  /-- an invalidation is in progress (TRINVST.done = 0) with its TRINV word -/
  inv : Option Word
  /-- a TRINV write that waits for the one in progress -/
  invNext : List Word
  /-- issue number of the first access that cannot have used an entry it names -/
  invSeq : Nat
  keysrc : Word
  keyst : BitVec 2
  keycmd : Word
  keyPending : Option Word
  keys : SMap KeySlot
  rsv : SMap Word
  deriving DecidableEq, Repr

/-! ## Launches and queues -/

/-- Version states (13 R254). -/
inductive LState where
  | running | committing | committed | aborted | merged
  deriving DecidableEq, Repr

/-- Why a launch aborted, for what follows (13 R265, 14 R283). -/
inductive Why where
  | none
  | conflict (retry : Bool)
  | shadowFull
  | budget
  | rerun (c : Cause)
  | fail (c : Cause)
  | outside (c : Cause)
  | reset
  | retryService (c : Cause)
  | failReport (c : Cause)
  deriving DecidableEq, Repr

/-- A commit or discard owed to a window's home (23 R363): resends so far, acknowledged. -/
structure Touch where
  home : BitVec 16
  resends : Nat
  acked : Bool
  given : Bool
  deriving DecidableEq, Repr

/-- An undo-log entry of an exclusive run (13 R267). -/
structure Undo where
  line : Nat
  val : LineVal
  deriving DecidableEq, Repr

/-- A launch (13 R253–R267, 14 R272). `clusters` maps the footprint-relative cluster to the physical one. -/
structure Launch where
  part : Fin 64
  queue : Nat
  recNo : Nat
  clusters : List Nat
  lk : Nat
  team : List Nat
  image : BitVec 32
  node : Nat
  cls : BitVec 4
  state : LState
  ticket : Option Nat
  sig : BitVec 4096
  budget : Nat
  excl : Bool
  runs : Nat
  undo : List Undo
  touch : List Touch
  why : Why
  report : Word
  /-- channels and barriers granted on each cluster -/
  nchan : Nat
  nbars : Nat
  /-- QLAUNCH slots held for commit: queue and record number (14 R287) -/
  held : List (Nat × Nat)
  stampVa : Word
  stampVal : Word
  unconfirmed : Bool
  committingAt : Nat
  /-- the core's copies of the object table, by team position -/
  tables : List Word
  deriving DecidableEq, Repr

/-- What the scheduler keeps for a record (14 R276, R277; 13 R265). -/
structure Rec where
  passes : Nat
  blocking : Option Nat
  aborts : Nat
  exclAborts : Nat
  nextExcl : Bool
  /-- an exclusive run of it aborted: nothing else is dispatched (13 R267) -/
  exclHeld : Bool
  overruns : Nat
  hbMarks : Nat
  /-- what became of the record: the state word's value -/
  state : BitVec 8
  /-- it was requeued and gave up its turn (13 R260) -/
  requeued : Bool
  drawn : Bool
  deriving DecidableEq, Repr

/-- A queue (14 R274) and what the scheduler has seen of it. -/
structure Queue where
  base : Word
  tail : Word
  head : BitVec 32
  part : BitVec 6
  lsize : BitVec 5
  dev : Bool
  en : Bool
  dtail : BitVec 32
  seen : BitVec 32
  /-- en was cleared by the scheduler for a tail error (R275) -/
  tailErr : Bool
  recs : SMap Rec
  deriving DecidableEq, Repr

/-- A tentative preload (14 R281, R282): the record, the clusters, the launch it depends on, the lines it read. -/
structure Preload where
  queue : Nat
  recNo : Nat
  clusters : List Nat
  dependsOn : Option Hall
  sig : BitVec 4096
  /-- cores and granules it has written (07 R186) -/
  grans : List (Nat × Nat)
  deriving DecidableEq, Repr

/-- Transactions and scheduler. -/
structure Sched where
  seqNext : BitVec 32
  ticketNext : Nat
  launches : List (Hall × Launch)
  queues : SMap Queue
  pshare : SMap (BitVec 8)
  /-- by priority: the partition that dispatched last and its turns taken (14 R277) -/
  rot : SMap (Nat × Nat)
  /-- by priority · 64 + partition: the queue that dispatched last -/
  lastQueue : SMap Nat
  blockNext : Nat
  preloads : List Preload
  deriving DecidableEq, Repr

/-! ## Management -/

/-- A partition (21 R331). -/
structure Part where
  colours : Word
  signers : List (BitVec 256)
  qFirst : Nat
  qCount : Nat
  ring : Word
  endpoint : Word
  /-- job ids its endpoint accepts (21 R332) -/
  jobs : List Word
  debugOk : Bool
  deriving DecidableEq, Repr

/-- A command ring's progress (21 R332). -/
structure Ring where
  taken : Word
  seq : Word
  deriving DecidableEq, Repr

/-- A code object as an image lists it (17 R305): its number there, the image that owns it, its number in that image, the
objects its imports are bound to (by owner and number there), its code address, its dictionary and its entry table. -/
structure ImgObj where
  num : Nat
  owner : BitVec 32
  home : Nat
  deps : List (BitVec 32 × Nat)
  cbase : Word
  dict : List BundleBits
  entries : List (BitVec 32)
  deriving DecidableEq, Repr

/-- An installed image (17 R309) as the scheduler and the installer know it: exports by name, object and entry; node table
entries by their first two words (17 R311). -/
structure Image where
  handle : BitVec 32
  part : Fin 64
  header : Word
  level : BitVec 8
  stepping : BitVec 8
  objs : List ImgObj
  exports : List (BitVec 256 × Nat × Nat)
  nodes : List (Word × Word)
  rtab : Word
  measure : BitVec 256
  debug : Bool
  removed : Bool
  deriving DecidableEq, Repr

/-- A core snapshot (21 R328): its 8-byte words by number, with their poison. -/
structure Snapshot where
  words : SMap (Word × Option Tag)
  deriving DecidableEq, Repr

/-- Management core (21). -/
structure Mgmt where
  parts : SMap (Option Part)
  rings : SMap Ring
  images : List Image
  hbPeriod : BitVec 32
  svc : BitVec 2
  unprotected : Bool
  errors : List ErrRec
  errSeq : Word
  /-- copies the management core keeps, with their sequence numbers, oldest first (21 R330; DESIGN CHOICE, log 115) -/
  errCopies : List (Word × ErrRec)
  snapshots : List Snapshot
  /-- snapshots written so far: the next takes slot `snapSeq mod 16` of their place in private memory -/
  snapSeq : Nat
  /-- offset of the operator ring in management-private memory (21 R332) -/
  operatorRing : Word
  /-- the partition ring served last (21 R332) -/
  lastRing : Nat
  /-- partitions whose dispatch is stopped (14 R284, 21 R344) -/
  stopped : BitVec 64
  /-- wall time from which a command waits for running launches, dispatch stopped (21 R341, R342) -/
  waitFrom : Option Nat
  /-- next image handle the installer gives (17 R312) -/
  nextHandle : BitVec 32
  /-- the operator's public key, x and y, as the owner record gives it (21 R336) -/
  operatorKey : BitVec 256 × BitVec 256
  /-- which boot the firmware and the records in force were read at (21 R335; the model's own number) -/
  boot : Nat
  deriving DecidableEq, Repr

/-! ## Coolant and fabric -/

/-- Zone states (22 R347, R353, R355, R356). -/
inductive ZState where
  | dry | filled | withdrawn | quiesce | gated | inletShut | purge | outletShut | refill | bleed | fault
  deriving DecidableEq, Repr

/-- A coolant zone (22 R347, R349, R353). -/
structure Zone where
  state : ZState
  inuse : BitVec 4
  any : Bool
  ov : Bool
  owner : BitVec 6
  step : BitVec 4
  dp : BitVec 16
  tout : BitVec 16
  tin : BitVec 16
  flow : BitVec 16
  cond : BitVec 16
  lowCount : Nat
  deltaCount : Nat
  dryCount : Nat
  throttledAt : Option Nat
  clearSince : Option Nat
  enteredAt : Nat
  leaked : Bool
  /-- DRY after an evacuation (22 R356) -/
  evac : Bool
  /-- withdrawn, or throttled, by an HBM-edge trap until package reset (22 R357) -/
  held : Bool
  /-- pressure drop when the present bleed condition began to hold (22 R356) -/
  dpRef : BitVec 16
  /-- in INLET_SHUT: the inlet valve does not reach its end stop (22 R355); a free value -/
  stuck : Bool
  deriving DecidableEq, Repr

/-- Coolant controller (22). -/
structure Cool where
  zones : SMap Zone
  refused : Bool
  avail : BitVec 9
  budget : BitVec 9
  deriving DecidableEq, Repr

/-- An Ildahar port (23 R359). -/
structure Port where
  sw : BitVec 16
  replays : BitVec 8
  lanes : BitVec 4
  en : Bool
  state : BitVec 3
  deriving DecidableEq, Repr

/-- A partial a switch holds (23 R362), or an entry a home has staged. -/
structure Staged where
  hall : Hall
  home : BitVec 16
  window : Fin 4
  pa : Nat
  value : Word
  epoch : BitVec 32
  deriving DecidableEq, Repr

/-- A compression table slot (23 R372). -/
structure CxSlot where
  gen : BitVec 8
  valid : Bool
  ov : Bool
  owner : BitVec 6
  table : BitVec 1024
  deriving DecidableEq, Repr

/-- Fabric state (23). -/
structure Fabric where
  ports : SMap Port
  frwin : SMap (Word × Word)
  partials : List Staged
  staged : List Staged
  epoch : BitVec 32
  epochs : SMap (BitVec 32)
  cxslots : SMap CxSlot
  links : List (DieNo × DieNo)
  deriving DecidableEq, Repr

/-- What a failed verification names (02 R50): the kernel, the dictionary entry or the PC, and the slot; no slot where the
bundle's header or no one slot is at fault. -/
structure Diag where
  kernel : List Byte
  dict : Option Nat
  pc : Option Nat
  slot : Option Slot
  deriving DecidableEq, Repr

/-- What left the package: kept so that statements can speak of it (model's own). -/
inductive Out where
  | message (dst : BitVec 16) (m : Message)
  | hostData (bytes : List (Option Byte))
  | hostDone
  | hostError
  | response (ring : Nat) (status : Nat) (seq : Word) (r0 r1 : Word)
  | contribution (c : Contribution)
  | commit (hall : Hall) (home : BitVec 16) (epoch : BitVec 32)
  | discard (hall : Hall) (home : BitVec 16) (epoch : BitVec 32)
  | ack (hall : Hall) (pkg : BitVec 16)
  | poisoned (hall : Hall) (rec : BitVec 5)
  | poisonedPart (part : PartNo)
  | reduce (group : BitVec 16) (fmt : Fmt) (vals : List W32) (poison : SMap Tag)
  | report (code : Nat) (arg : Word)
  | chunk (pa : Nat) (bytes : List Byte) (crc : BitVec 32)
  | manifest (bytes : List Byte)
  | installed (handle : BitVec 32) (measure : BitVec 256) (model : List Byte)
  | diagnostic (code : Nat) (d : Option Diag)
  deriving DecidableEq, Repr

/-! ## The machine -/

/-- The whole package. -/
structure State where
  /-- wall cycles since package reset -/
  cycle : Nat
  /-- wall time since package reset, in cycles of 1.1 GHz (00 R2): a cycle at 550 MHz counts twice -/
  wall : Nat
  /-- what happens next, each after a delay in wall cycles (model's own) -/
  agenda : List (Nat × Instr)
  /-- the core whose port acts when the agenda is empty (model's own) -/
  cur : CoreNo
  /-- counter fed to the free values (model's own) -/
  fresh : Nat
  /-- issue sequence number of the next access (model's own) -/
  seq : Nat
  ctxs : SMap Ctx
  cores : SMap Core
  clusters : SMap Cluster
  dies : SMap Die
  mem : Mem
  tr : Trans
  sched : Sched
  mgmt : Mgmt
  cool : Cool
  fab : Fabric
  out : List Out
  powered : Bool
  deriving DecidableEq, Repr

/-! ## How a step can stop -/

/-- The machine stops. -/
inductive Fault where
  /-- raised by `step` when the package has been powered off (21 R340): nothing runs until power returns. Safe. -/
  | poweredOff
  deriving DecidableEq, Repr

/-- No meaning. -/
inductive Refusal where
  /-- raised by an arm of `exec` for an instruction that has no meaning yet. Safe. -/
  | notModelled (mnemonic : String)
  deriving DecidableEq, Repr

/-! ## Defaults of the sparse stores -/

/-- A zero scalar register. -/
def SVal.zero : SVal := ⟨0, 0, none⟩
/-- A false predicate. -/
def PVal.zero : PVal := ⟨false, none⟩
/-- An empty mask. -/
def QVal.zero : QVal := ⟨0, none⟩
/-- A zero vector register. -/
def VVal.zero : VVal := ⟨0, []⟩
/-- A zero m register. -/
def MVal.zero : MVal := ⟨0, none⟩
/-- A zero scale register. -/
def XVal.zero : XVal := ⟨0, []⟩
/-- Empty register files. -/
def Regs.zero : Regs := ⟨[], [], [], [], [], [], []⟩
/-- An empty loop entry. -/
def LoopEntry.zero : LoopEntry := ⟨0, 0, 0, 0, 0, false⟩
/-- Control registers at zero (03 R65). -/
def Ctl.zero : Ctl :=
  ⟨0, 0, 0, 0, false, false, 0, 0, 0, 0, 0, 0, 0, 0, 0, 0, 0, 0, 0, 0, 0, 0, 0, 0, 0, 0, 0⟩
/-- A cleared plane, tagged open (06 R141). -/
def Plane.open_ : Plane := ⟨[], [], .mxi8, none⟩
/-- A cleared assay state (06 R163). -/
def Assay.clear : Assay := ⟨true, [], [], none⟩
/-- The matrix unit's side of a context at dispatch. -/
def Mtx.zero : Mtx := ⟨.open_, .open_, .zero, [], none, .clear⟩
/-- No grant. -/
def Grant.zero : Grant := ⟨0, 0, 0, 0, 0, 0⟩
/-- A free context with every register zero (14 R279) (DESIGN CHOICE, log 6). -/
def Ctx.zero : Ctx :=
  ⟨.zero, 0, [], .zero, 0, 0, [], [], 0, [], false, .free, false, false, [], ⟨none, false, false⟩, none, [], false, [], [], [],
   [], [], .zero, [], false, [], none, 0, 0, [], 0, 0, 0, 0, 0, [], none, .zero, [], 0, 0, 0, [], false, [], none⟩
/-- An idle core (DESIGN CHOICE, log 6). -/
def Core.zero : Core := ⟨none, false, false, 3, 3, 0, 0, false, 0, false, false⟩
/-- An idle channel. -/
def Chan.zero : Chan := ⟨0, 0, 0, 0, [], 0, 0, 0, 0, 0, none, false⟩
/-- An idle walker (09 R229). -/
def Walker.zero : Walker := ⟨[], false, none, 0, 0, 0, 0, 0, 0, 0⟩
/-- A cluster after reset (DESIGN CHOICE, log 6). -/
def Cluster.zero : Cluster := ⟨[], .zero, [], [], false⟩
/-- A cleared capture unit (21 R338). -/
def Capture.zero : Capture := ⟨0, BitVec.allOnes 64, 0, 0, 0, []⟩
/-- A die after reset. -/
def Die.zero : Die := ⟨[], [], [], []⟩
/-- An empty key slot. -/
def KeySlot.zero : KeySlot := ⟨false, 0, 0, false⟩
/-- A disabled queue (14 R274). -/
def Queue.zero : Queue := ⟨0, 0, 0, 0, 0, false, false, 0, 0, false, []⟩
/-- A record the scheduler has not seen. -/
def Rec.zero : Rec := ⟨0, none, 0, 0, false, false, 0, 0, 0, false, false⟩
/-- A ring nothing was taken from. -/
def Ring.zero : Ring := ⟨0, 0⟩
/-- A dry zone (22 R355). -/
def Zone.zero : Zone := ⟨.dry, 0, false, false, 0, 0, 0, 0, 0, 0, 0, 0, 0, 0, none, none, 0, false, false, false, 0, false⟩
/-- A port that is down (23 R359). -/
def Port.zero : Port := ⟨0, 0, 0, false, 0⟩
/-- An empty table slot. -/
def CxSlot.zero : CxSlot := ⟨0, false, false, 0, 0⟩

/-- Memory after package reset: nothing listed (DESIGN CHOICE, log 4). -/
def Mem.reset : Mem := ⟨[], [], [], [], [], [], [], [], [], [], [], [], [], [], [], [], Config.shadowSlots, []⟩
/-- Translation after package reset: no root enabled, no invalidation in progress, every key slot empty (DESIGN
CHOICE, log 6). -/
def Trans.reset : Trans := ⟨[], [], 0, 0, none, [], 0, 0, 0, 0, none, [], []⟩
/-- The scheduler after package reset (DESIGN CHOICE, log 6). -/
def Sched.reset : Sched := ⟨0, 0, [], [], [], [], [], 0, []⟩
/-- The management core after package reset: heartbeat period 1,000 µs, service level S1 (21 R325) (DESIGN CHOICE, log
6; DEDUCED, log 89). -/
def Mgmt.reset : Mgmt := ⟨[], [], [], 1000, 1, false, [], 0, [], [], 0, 0, 63, 0, none, 1, Config.ownerAt 0, 0⟩
/-- The coolant controller after package reset: every zone dry, pump budget 500 (22 R348) (DESIGN CHOICE, log 6). -/
def Cool.reset : Cool := ⟨[], false, 0, 500⟩
/-- The fabric after package reset (DESIGN CHOICE, log 6). -/
def Fabric.reset : Fabric := ⟨[], [], [], [], 0, [], [], []⟩

/-- The machine right after package reset (DESIGN CHOICE, log 4, 6). -/
def State.reset : State :=
  ⟨0, 0, [], 0, 0, 0, [], [], [], [], .reset, .reset, .reset, .reset, .reset, .reset, [], true⟩

end Sys2Proof.Machine
end

