-- ==== Sys2Proof/Machine/Regs.lean ====
section
/-! DEFINITION. Reaching into the state: contexts, cores, clusters and dies; registers and their poison; results and
landings on their way into registers; the control registers. -/

namespace Sys2Proof.Machine

open Sys2Proof

/-! ## Numbers of contexts, cores, clusters and dies -/

/-- The core of a context number. -/
def coreOf (c : Nat) : Nat := c / 4
/-- The cluster of a core number. -/
def cluOf (k : Nat) : Nat := k / 8
/-- The die of a core number. -/
def dieOf (k : Nat) : Nat := k / 64

/-- Context `c`. -/
def State.ctx (s : State) (c : Nat) : Ctx := mget .zero s.ctxs c
/-- Replace context `c`. -/
def State.setCtx (s : State) (c : Nat) (x : Ctx) : State := { s with ctxs := mset .zero s.ctxs c x }
/-- Change context `c`. -/
def State.modCtx (s : State) (c : Nat) (f : Ctx → Ctx) : State := s.setCtx c (f (s.ctx c))
/-- Core `k`. -/
def State.core (s : State) (k : Nat) : Core := mget .zero s.cores k
/-- Change core `k`. -/
def State.modCore (s : State) (k : Nat) (f : Core → Core) : State :=
  { s with cores := mset .zero s.cores k (f (s.core k)) }
/-- A partition by number. -/
def State.partition (s : State) (p : Nat) : Option Part := mget none s.mgmt.parts p

/-- A port's registers. -/
def State.port (s : State) (p : Nat) : Port := mget .zero s.fab.ports p

/-- A zone. -/
def State.zone (s : State) (z : Nat) : Zone := mget .zero s.cool.zones z

/-- Change a zone. -/
def State.modZone (s : State) (z : Nat) (f : Zone → Zone) : State :=
  { s with cool := { s.cool with zones := mset .zero s.cool.zones z (f (s.zone z)) } }

/-- Cluster `k`. -/
def State.cluster (s : State) (k : Nat) : Cluster := mget .zero s.clusters k
/-- Change cluster `k`. -/
def State.modCluster (s : State) (k : Nat) (f : Cluster → Cluster) : State :=
  { s with clusters := mset .zero s.clusters k (f (s.cluster k)) }
/-- Die `d`. -/
def State.die (s : State) (d : Nat) : Die := mget .zero s.dies d
/-- Change die `d`. -/
def State.modDie (s : State) (d : Nat) (f : Die → Die) : State :=
  { s with dies := mset .zero s.dies d (f (s.die d)) }
/-- Channel `ch` of cluster `k`. -/
def State.chan (s : State) (k ch : Nat) : Chan := mget .zero (s.cluster k).chans ch
/-- Change channel `ch` of cluster `k`. -/
def State.modChan (s : State) (k ch : Nat) (f : Chan → Chan) : State :=
  s.modCluster k fun x => { x with chans := mset .zero x.chans ch (f (mget .zero x.chans ch)) }
/-- Change the walker of cluster `k`. -/
def State.modWalker (s : State) (k : Nat) (f : Walker → Walker) : State :=
  s.modCluster k fun x => { x with walker := f x.walker }
/-- Change memory. -/
def State.modMem (s : State) (f : Mem → Mem) : State := { s with mem := f s.mem }
/-- Change the scheduler. -/
def State.modSched (s : State) (f : Sched → Sched) : State := { s with sched := f s.sched }
/-- Change the management core. -/
def State.modMgmt (s : State) (f : Mgmt → Mgmt) : State := { s with mgmt := f s.mgmt }
/-- Change the fabric. -/
def State.modFab (s : State) (f : Fabric → Fabric) : State := { s with fab := f s.fab }
/-- Something leaves the package (DESIGN CHOICE, log 11). -/
def State.emit (s : State) (o : Out) : State := { s with out := s.out ++ [o] }
/-- Take a fresh number for a free value (DESIGN CHOICE, log 3). -/
def State.tick (s : State) : State := { s with fresh := s.fresh + 1 }

/-- Launch `h`, if the state table holds it. -/
def findLaunch (h : Hall) : List (Hall × Launch) → Option Launch
  | [] => none
  | (g, l) :: t => if g = h then some l else findLaunch h t
/-- Launch `h`. -/
def State.launch (s : State) (h : Hall) : Option Launch := findLaunch h s.sched.launches
/-- Change launch `h`. -/
def State.modLaunch (s : State) (h : Hall) (f : Launch → Launch) : State :=
  s.modSched fun x => { x with launches := x.launches.map fun e => if e.1 = h then (e.1, f e.2) else e }
/-- The launch of context `c`. -/
def State.launchOf (s : State) (c : Nat) : Option Launch := (s.ctx c).hall.bind s.launch
/-- Partition of the launch of context `c`. -/
def State.partOf (s : State) (c : Nat) : Option (Fin 64) := (s.launchOf c).map (·.part)
/-- Queue `q`. -/
def State.queue (s : State) (q : Nat) : Queue := mget .zero s.sched.queues q
/-- Change queue `q`. -/
def State.modQueue (s : State) (q : Nat) (f : Queue → Queue) : State :=
  s.modSched fun x => { x with queues := mset .zero x.queues q (f (mget .zero x.queues q)) }
/-- Footprint-relative index of a physical cluster in a launch. -/
def indexIn (l : List Nat) (k : Nat) : Option Nat :=
  match l with
  | [] => none
  | a :: t => if a = k then some 0 else (indexIn t k).map (· + 1)

/-! ## Poison (01 R25–R27) -/

/-- Two poisoned operands meeting: the lowest tag, with the origin of the operand that gave it (R27, 07 R179)
(DEDUCED, log 26). -/
def Poi.meet (a b : Poi) : Poi :=
  if a.tag = b.tag then ⟨a.tag, a.core && b.core⟩ else if a.tag.toNat < b.tag.toNat then a else b

/-- Poison of a result of two operands. -/
def pmeet : Option Poi → Option Poi → Option Poi
  | none, b => b
  | a, none => a
  | some a, some b => some (a.meet b)

/-- Poison of a result of several operands. -/
def pmeets (l : List (Option Poi)) : Option Poi := l.foldl pmeet none

/-- Poison from memory is persistent (07 R179). -/
def Poi.mem (t : Tag) : Poi := ⟨t, false⟩

/-- Lowest of the poison entries whose key is in `lo … lo + n − 1`. -/
def poiRange (m : SMap Poi) (lo n : Nat) : Option Poi :=
  m.foldl (fun a e => if lo ≤ e.1 && e.1 < lo + n then pmeet a (some e.2) else a) none

/-- Lowest of all poison entries. -/
def poiAll (m : SMap Poi) : Option Poi := m.foldl (fun a e => pmeet a (some e.2)) none

/-- A missing or present poison at a key of a group map. -/
def poiAt (m : SMap Poi) (g : Nat) : Option Poi := (m.find? fun e => e.1 == g).map (·.2)

/-- Set or clear the poison of a group. -/
def poiSet (m : SMap Poi) (g : Nat) (p : Option Poi) : SMap Poi :=
  match p with
  | some p => (m.filter fun e => e.1 < g) ++ [(g, p)] ++ (m.filter fun e => g < e.1)
  | none => m.filter fun e => e.1 ≠ g

/-- Is context poison in one tag only? Lowest tag of a tag map. -/
def tagAll (m : SMap Tag) : Option Tag :=
  m.foldl (fun a e => match a with
    | none => some e.2
    | some t => some (if e.2.toNat < t.toNat then e.2 else t)) none

/-- The lower of two tags. -/
def tmeet : Option Tag → Option Tag → Option Tag
  | none, b => b
  | a, none => a
  | some a, some b => some (if a.toNat ≤ b.toNat then a else b)

/-! ## Registers (03 R62) -/

/-- A scalar value with its own residue (04 R113). -/
def SVal.of (v : Word) (p : Option Poi) : SVal := ⟨v, residue v, p⟩

/-- Read a scalar register: s0 reads zero with residue 0. -/
def Ctx.sreg (x : Ctx) (n : SReg) : SVal := if n = 0 then .zero else mget .zero x.regs.s n.toNat
/-- Write a scalar register: writes of s0 are discarded (00 R5). -/
def Ctx.setS (x : Ctx) (n : SReg) (v : SVal) : Ctx :=
  if n = 0 then x else { x with regs := { x.regs with s := mset .zero x.regs.s n.toNat v } }
/-- Read a predicate: p0 is true. -/
def Ctx.preg (x : Ctx) (n : PReg) : PVal := if n = 0 then ⟨true, none⟩ else mget .zero x.regs.p n.toNat
/-- Write a predicate: writes of p0 are discarded. -/
def Ctx.setP (x : Ctx) (n : PReg) (v : PVal) : Ctx :=
  if n = 0 then x else { x with regs := { x.regs with p := mset .zero x.regs.p n.toNat v } }
/-- Read a lane mask: q0 is all ones. -/
def Ctx.qreg (x : Ctx) (n : QReg) : QVal :=
  if n = 0 then ⟨BitVec.allOnes 256, none⟩ else mget .zero x.regs.q n.toNat
/-- Write a lane mask: writes of q0 are discarded. -/
def Ctx.setQ (x : Ctx) (n : QReg) (v : QVal) : Ctx :=
  if n = 0 then x else { x with regs := { x.regs with q := mset .zero x.regs.q n.toNat v } }
/-- Read a vector register. -/
def Ctx.vreg (x : Ctx) (n : VReg) : VVal := mget .zero x.regs.v n.toNat
/-- Write a vector register. -/
def Ctx.setV (x : Ctx) (n : VReg) (v : VVal) : Ctx :=
  { x with regs := { x.regs with v := mset .zero x.regs.v n.toNat v } }
/-- Read an m register. -/
def Ctx.mreg (x : Ctx) (n : MReg) : MVal := mget .zero x.regs.m n.toNat
/-- Write an m register. -/
def Ctx.setM (x : Ctx) (n : MReg) (v : MVal) : Ctx :=
  { x with regs := { x.regs with m := mset .zero x.regs.m n.toNat v } }
/-- Read a scale register. -/
def Ctx.xreg (x : Ctx) (n : XReg) : XVal := mget .zero x.regs.x n.toNat
/-- Write a scale register. -/
def Ctx.setX (x : Ctx) (n : XReg) (v : XVal) : Ctx :=
  { x with regs := { x.regs with x := mset .zero x.regs.x n.toNat v } }

/-- The mask of the bits of bytes whose bit is set in a byte mask: byte j of the value is written iff bit j is 1. -/
def maskBits : Nat → Nat → Nat
  | 0, _ => 0
  | n + 1, m => (if m % 2 = 1 then 255 else 0) + 256 * maskBits n (m / 2)

/-- Merge a vector result into a register: written bytes replace, written groups take the result's poison, and a group
written only in part also keeps the poison it had (log 16) (DEDUCED, log 16). -/
def VVal.merge (old : VVal) (bits : VBits) (mask : QBits) (p : SMap Poi) : VVal :=
  let mb : VBits := BitVec.ofNat 2048 (maskBits 256 mask.toNat)
  let grp (g : Nat) : Nat := bitsAt mask.toNat (4 * g) 4
  let keep := old.p.filter fun e => grp e.1 ≠ 15
  let np := (List.range 64).foldl (fun (m : SMap Poi) g =>
    if grp g = 0 then m else poiSet m g (pmeet (poiAt p g) (poiAt m g))) keep
  ⟨(old.v &&& ~~~mb) ||| (bits &&& mb), np⟩

/-- A result reaches its register. A residue is generated from the value for every result but a predicted one, which
carries its own (04 R113). -/
def Ctx.deliver (x : Ctx) (d : Dest) (v : RVal) : Ctx :=
  match d, v with
  | .s n, .s v => x.setS n v
  | .p n, .p v => x.setP n v
  | .q n, .q v => x.setQ n v
  | .v n, .v bits mask p => x.setV n ((x.vreg n).merge bits mask p)
  | .m n, .m v => x.setM n v
  | .x n, .x v => x.setX n v
  | _, _ => x

/-- Is the destination one that discards writes? -/
def Dest.discards : Dest → Bool
  | .s n => n == 0
  | .p n => n == 0
  | .q n => n == 0
  | _ => false

/-! ## Results landing (02 R52–R57) -/

/-- Insert a result in landing order: earlier ticks first, then slot position, then issue order (02 R57). -/
def insertRes (r : Res) : List Res → List Res
  | [] => [r]
  | a :: t =>
    if r.due < a.due || (r.due == a.due && (r.pos < a.pos || (r.pos == a.pos && r.issue < a.issue)))
    then r :: a :: t else a :: insertRes r t

/-- A landing whose data has arrived, as a result. -/
def Land.res (l : Land) : Option Res :=
  match l.arrived, l.data with
  | true, some v => some ⟨l.due, l.pos, l.issue, l.dst, v⟩
  | _, _ => none

/-- Apply results in list order. A result from before an open segment's entry is also written to the snapshot of its
scalar or predicate (07 R176). -/
def Ctx.apply (x : Ctx) (r : Res) : Ctx :=
  let y := x.deliver r.dst r.val
  match y.seg with
  | none => y
  | some g =>
    if r.issue < g.issue then
      match r.dst, r.val with
      | .s n, .s v => if n = 0 then y else { y with seg := some { g with s := mset .zero g.s n.toNat v } }
      | .p n, .p v => if n = 0 then y else { y with seg := some { g with p := mset .zero g.p n.toNat v } }
      | _, _ => y
    else y

/-- Apply a list of results. -/
def Ctx.applyAll (x : Ctx) (l : List Res) : Ctx := l.foldl Ctx.apply x

/-- Results and landings due by tick `t`, merged in landing order. -/
def Ctx.dueBy (x : Ctx) (t : Nat) : List Res :=
  let ls := (x.land.filter fun l => l.due ≤ t).filterMap Land.res
  let fs := x.fixed.filter fun r => r.due ≤ t
  ls.foldl (fun a r => insertRes r a) fs

/-- Settle every fixed result due by tick `t` and every landing due by `t` whose data has arrived. -/
def Ctx.settle (x : Ctx) (t : Nat) : Ctx :=
  let due := x.dueBy t
  ({ x with
      fixed := x.fixed.filter fun r => t < r.due
      land := x.land.filter fun l => t < l.due || l.res.isNone
      landed := x.landed ++ due }).applyAll due

/-- Do two contexts hold the same in a destination's register? -/
def Ctx.sameAt (x y : Ctx) : Dest → Bool
  | .s n => x.sreg n == y.sreg n
  | .p n => x.preg n == y.preg n
  | .q n => x.qreg n == y.qreg n
  | .v n => x.vreg n == y.vreg n
  | .m n => x.mreg n == y.mreg n
  | .x n => x.xreg n == y.xreg n

/-- A window write between two bundles: what lands at that boundary in a register it changed is applied after it (03 R64). -/
def Ctx.written (x : Ctx) (f : Ctx → Ctx) : Ctx :=
  let y := f x
  y.applyAll (x.landed.filter fun r => !x.sameAt y r.dst)

/-- Is a landing due by tick `t` still without its data? -/
def Ctx.late (x : Ctx) (t : Nat) : Bool := x.land.any fun l => l.due ≤ t && l.res.isNone

/-- Drain every fixed-latency result (03 R96 step 2, R92) (DEDUCED, log 86). -/
def Ctx.drainFixed (x : Ctx) : Ctx := ({ x with fixed := [] }).applyAll x.fixed

/-- Landing-buffer entries held (03 R70): the interrupted code's stay held while a handler runs. -/
def Ctx.held (x : Ctx) : Nat := x.land.length + x.uiLand.length

/-- Queue a fixed-latency result. -/
def Ctx.pushRes (x : Ctx) (r : Res) : Ctx := { x with fixed := insertRes r x.fixed }

/-! ## Control registers (03 R65, R66) -/

/-- STATUS (03 R66): level 0x10, stepping 0x21, svc from SVC (DEDUCED, log 7). -/
def statusWord (t : Ctl) (svc : BitVec 2) : Word :=
  BitVec.ofNat 64 (0x10 * 2 ^ 32 + 0x21 * 2 ^ 24 + t.obj.toNat * 2 ^ 16 + t.prio.toNat * 2 ^ 12 + svc.toNat * 2 ^ 10
    + t.uidepth.toNat * 2 ^ 7 + t.ldepth.toNat * 2 ^ 4 + b2n t.uiact * 2 ^ 3 + b2n t.uie * 2 ^ 2 + t.priv.toNat)

/-- CLU: footprint-relative cluster index and the number of clusters of the footprint. Without a launch: the physical
cluster of 32 (log 17) (DESIGN CHOICE, log 17). -/
def cluWord (s : State) (c : Nat) : Word :=
  let k := cluOf (coreOf c)
  match s.launchOf c with
  | some l => BitVec.ofNat 64 (l.clusters.length * 2 ^ 16 + (indexIn l.clusters k).getD 0)
  | none => BitVec.ofNat 64 (32 * 2 ^ 16 + k)

/-- DIE: footprint-relative die index (DESIGN CHOICE, log 17). -/
def dieWord (s : State) (c : Nat) : Word :=
  let k := cluOf (coreOf c)
  match s.launchOf c with
  | some l => BitVec.ofNat 64 ((indexIn l.clusters k).getD 0 / 2 ^ l.lk)
  | none => BitVec.ofNat 64 (k / 8)

/-- Cycles that a wait for a late landing has lasted: each counts in LANDLATE as it passes (03 R71). -/
def Ctx.lateSoFar (x : Ctx) (now : Nat) : Nat :=
  match x.act with
  | .blocked (.landing since) => now - since
  | _ => 0

/-- Read control register `n` (03 R65); a number that is not listed reads zero. -/
def readCtl (s : State) (c : Nat) (n : BitVec 12) : Word :=
  let x := s.ctx c
  let t := x.ctl
  match n.toNat with
  | 0x000 => statusWord t s.mgmt.svc
  | 0x001 => BitVec.ofNat 64 x.issues
  | 0x002 => BitVec.ofNat 64 ((s.launchOf c).map (·.budget) |>.getD 0)
  | 0x008 => t.trapcause
  | 0x009 => t.trappc.setWidth 64
  | 0x00A => t.trapaddr
  | 0x00B => t.trapmask.setWidth 64
  | 0x010 => t.uivec
  | 0x011 => t.uiret
  | 0x012 => t.uipend.setWidth 64
  | 0x013 => t.uimask.setWidth 64
  | 0x018 => t.landlate + BitVec.ofNat 64 (x.lateSoFar s.cycle)
  | 0x019 => t.stallcnt
  | 0x020 => BitVec.ofNat 64 (c % 4)
  | 0x021 => BitVec.ofNat 64 (coreOf c % 8)
  | 0x022 => cluWord s c
  | 0x023 => dieWord s c
  | 0x024 => Config.pkgId.setWidth 64
  | 0x028 => t.dbase.setWidth 64
  | 0x029 => t.dlen.setWidth 64
  | 0x02A => t.cbase.setWidth 64
  | 0x02B => t.otbase.setWidth 64
  | 0x030 => (x.hall.getD 0).setWidth 64
  | 0x038 => t.wkmode
  | 0x039 => t.wktheta
  | 0x03A => t.wktau
  | 0x03B => t.wkdepth
  | 0x03C => t.wklistmax
  | 0x040 => t.segpc.setWidth 64
  | _ => 0

/-- May a context at this privilege write control register `n` at all (03 R65, R88)? RW registers and UIPEND always;
registers marked S above user privilege (DEDUCED, log 29). -/
def ctlWritable (priv : BitVec 2) (n : BitVec 12) : Bool :=
  n ∈ [0x010, 0x011, 0x012, 0x013, 0x018, 0x019, 0x038, 0x039, 0x03A, 0x03B, 0x03C] ||
  (priv != 0 && n ∈ [0x000, 0x008, 0x009, 0x00A, 0x00B, 0x028, 0x029, 0x02A, 0x02B])

/-- Implemented bits of TRAPCAUSE (03 R67). -/
def trapcauseMask : Word := 0x000000001FFFFFFF
/-- Implemented bits of UIPEND and UIMASK (03 R68). -/
def uiMaskBits : BitVec 32 := 0x001FFFFF

/-- Write control register `n`: reserved bits are dropped (03 R88) (DEDUCED, log 29). The reserved value 3 of STATUS.priv is
stored, and acts as a privilege above user (DESIGN CHOICE, log 114). -/
def Ctl.write (t : Ctl) (n : BitVec 12) (v : Word) : Ctl :=
  match n.toNat with
  | 0x000 =>
    { t with
      obj := v.extractLsb' 16 8
      prio := v.extractLsb' 12 1
      uidepth := v.extractLsb' 7 3
      ldepth := if v.extractLsb' 4 3 = 7 then t.ldepth else v.extractLsb' 4 3
      uiact := v.getLsbD 3
      uie := v.getLsbD 2
      priv := v.extractLsb' 0 2 }
  | 0x008 => { t with trapcause := v &&& trapcauseMask }
  | 0x009 => { t with trappc := v.setWidth 32 }
  | 0x00A => { t with trapaddr := v }
  | 0x00B => { t with trapmask := v.setWidth 8 }
  | 0x010 => { t with uivec := v }
  | 0x011 => { t with uiret := v }
  | 0x012 => { t with uipend := t.uipend &&& ~~~(v.setWidth 32) }
  | 0x013 => { t with uimask := v.setWidth 32 &&& uiMaskBits }
  | 0x018 => { t with landlate := v }
  | 0x019 => { t with stallcnt := v }
  | 0x028 => { t with dbase := v.setWidth 12 }
  | 0x029 => { t with dlen := v.setWidth 12 }
  | 0x02A => { t with cbase := v.setWidth 48 }
  | 0x02B => { t with otbase := v.setWidth 48 }
  | 0x038 => { t with wkmode := v &&& 0xF }
  | 0x039 => { t with wktheta := v &&& 0xFFFFFFFF }
  | 0x03A => { t with wktau := v &&& 0xFFFFFFFF }
  | 0x03B => { t with wkdepth := v &&& 0xF }
  | 0x03C => { t with wklistmax := v &&& 0xFF003F }
  | _ => t

/-- Set a UIPEND bit of a context (03 R68). -/
def Ctx.pend (x : Ctx) (bit : Nat) : Ctx :=
  { x with ctl := { x.ctl with uipend := x.ctl.uipend ||| BitVec.ofNat 32 (2 ^ bit) } }

/-! ## Activity -/

/-- The contexts of a core after context `i`, in rotation, `i` last. -/
def rotation (i : Fin 4) : List (Fin 4) := [i + 1, i + 2, i + 3, i]

/-- Ready: may be chosen by the selector (07 R168). -/
def Ctx.isReady (x : Ctx) : Bool := x.act == .ready

/-- CTXCTL.state (08 R209). -/
def Act.code : Act → Nat
  | .free => 0 | .ready => 1 | .blocked _ => 2 | .parked => 3 | .trapWaiting => 4 | .trapped => 4
  | .halting => 5 | .halted => 5

/-- The cause code of a cause (03 R95). -/
def Cause.code : Cause → Nat
  | .illegalBundle => 0x01 | .illegalIndex => 0x02 | .privilege => 0x03 | .align => 0x04 | .translate => 0x05
  | .protect => 0x06 | .poisonConsumed => 0x07 | .residue => 0x08 | .loopstack => 0x09 | .coordRange => 0x0A
  | .windowFetch => 0x0B | .overlap => 0x0C | .staleTable => 0x0D | .expandSize => 0x0E | .txAborted => 0x0F
  | .shadowFull => 0x10 | .landingTimeout => 0x11 | .trapInstr => 0x12 | .budget => 0x13 | .heartbeat => 0x14
  | .coolant => 0x15 | .barrierMisuse => 0x16

/-- The cause of a code. -/
def Cause.ofCode : Nat → Option Cause
  | 0x01 => some .illegalBundle | 0x02 => some .illegalIndex | 0x03 => some .privilege | 0x04 => some .align
  | 0x05 => some .translate | 0x06 => some .protect | 0x07 => some .poisonConsumed | 0x08 => some .residue
  | 0x09 => some .loopstack | 0x0A => some .coordRange | 0x0B => some .windowFetch | 0x0C => some .overlap
  | 0x0D => some .staleTable | 0x0E => some .expandSize | 0x0F => some .txAborted | 0x10 => some .shadowFull
  | 0x11 => some .landingTimeout | 0x12 => some .trapInstr | 0x13 => some .budget | 0x14 => some .heartbeat
  | 0x15 => some .coolant | 0x16 => some .barrierMisuse
  | _ => none

/-- The TRAPCAUSE word (03 R67). -/
def Trap.word (t : Trap) : Word :=
  BitVec.ofNat 64 (t.cause.code + t.sub.toNat * 2 ^ 8 +
    match t.poi with
    | some p => p.tag.toNat * 2 ^ 16 + 2 ^ 28
    | none => 0)

end Sys2Proof.Machine
end

