-- ==== Sys2Proof/Machine/Flags.lean ====
section
/-! DEFINITION. The condition codes (02 R38, 04 R107, R109), the predicted residues (04 R113) and the poison of vector
results by 32-bit group (05 R127). -/

namespace Sys2Proof

/-- CMP.cc (04 R107). -/
def CmpCc.test (cc : CmpCc) (x y : Word) : Bool :=
  match cc with
  | .eq => x == y
  | .ne => x != y
  | .lt => x.slt y
  | .le => x.sle y
  | .ltu => x.ult y
  | .leu => x.ule y

/-- CMPI.cc (04 R107). -/
def CmpiCc.test (cc : CmpiCc) (x y : Word) : Bool :=
  match cc with
  | .eq => x == y
  | .ne => x != y
  | .lt => x.slt y
  | .le => x.sle y
  | .gt => y.slt x
  | .ge => y.sle x
  | .ltu => x.ult y
  | .geu => y.ule x

/-- VCMP.cc on elements of an integer format: LT and LE signed for In and unsigned for U8, LTU and LEU unsigned
(05 R120). -/
def CmpCc.testFmt (cc : CmpCc) (f : Fmt) (x y : Nat) : Bool :=
  match cc with
  | .eq => x == y
  | .ne => x != y
  | .lt => decide (f.intOf x < f.intOf y)
  | .le => decide (f.intOf x ≤ f.intOf y)
  | .ltu => decide (x < y)
  | .leu => decide (x ≤ y)

/-! ## Predicted residues: 2^64 and 2^16 are 1 modulo 15 -/

/-- A residue of an exact integer. -/
def resOf (v : Int) : BitVec 4 := BitVec.ofNat 4 (v % 15).toNat

/-- ADD and ADDI: the wrap takes 2^64 away (DEDUCED, log 28). -/
def predAdd (a b : Word) (ra rb : BitVec 4) : BitVec 4 :=
  resOf ((ra.toNat : Int) + rb.toNat - ((a.toNat + b.toNat) / 2 ^ 64 : Nat))

/-- SUB: a borrow adds 2^64. -/
def predSub (a b : Word) (ra rb : BitVec 4) : BitVec 4 :=
  resOf ((ra.toNat : Int) - rb.toNat + (if a.toNat < b.toNat then 1 else 0))

/-- MUL: the high half is taken away (DEDUCED, log 28). -/
def predMul (a b : Word) (ra rb : BitVec 4) : BitVec 4 :=
  resOf ((ra.toNat : Int) * rb.toNat - ((a.toNat * b.toNat) / 2 ^ 64 : Nat))

/-- SHL and SHLI by `n`: the bits shifted out are taken away (DEDUCED, log 28). -/
def predShl (a : Word) (n : Nat) (ra : BitVec 4) : BitVec 4 :=
  resOf ((ra.toNat : Int) * 2 ^ n - ((a.toNat * 2 ^ n) / 2 ^ 64 : Nat))

/-- LEA (DEDUCED, log 28). -/
def predLea (a b : Word) (n : Nat) (ra rb : BitVec 4) : BitVec 4 :=
  resOf ((ra.toNat : Int) + rb.toNat * 2 ^ n - ((a.toNat + b.toNat * 2 ^ n) / 2 ^ 64 : Nat))

/-- MOVK: one 16-bit quarter is replaced (DEDUCED, log 28). -/
def predMovk (old new : Nat) (r : BitVec 4) : BitVec 4 := resOf ((r.toNat : Int) - old + new)

namespace Machine

/-! ## Poison of vector results (05 R127) -/

/-- Poison groups that lane `i` of `bytes` bytes touches. -/
def laneGroup (bytes i : Nat) : Nat := bytes * i / 4

/-- Poison of lane `i` of a vector register. -/
def VVal.laneP (v : VVal) (bytes i : Nat) : Option Poi := poiAt v.p (laneGroup bytes i)

/-- Join a lane's poison into a result's groups. -/
def joinP (m : SMap Poi) (g : Nat) (p : Option Poi) : SMap Poi :=
  match p with
  | none => m
  | some _ => poiSet m g (pmeet p (poiAt m g))

end Machine

end Sys2Proof
end

