-- ==== Sys2Proof/Machine/Capture.lean ====
section
/-! DEFINITION. Capture units (21 R338, R339): which samples a unit takes and what a sample does. -/

namespace Sys2Proof.Machine

open Sys2Proof

/-- Where a sample is taken: cores of the package, a die's scheduler slice, or a coolant zone. -/
inductive ProbeAt where
  | cores (l : List Nat)
  | die (d : Nat)
  | zone (z : Nat)
  deriving DecidableEq, Repr

/-- Die of a coolant zone (22 R346). -/
def zoneDie (z : Nat) : Nat := if z < 32 then z / 8 else (z - 32) / 2

/-- Does the place lie where a unit of die `d` with these scope and `where` fields looks? (DEDUCED, log 74). -/
def ProbeAt.seen (p : ProbeAt) (d scope at_ : Nat) : Bool :=
  match p with
  | .cores l => l.any fun k => dieOf k == d &&
      (match scope with
        | 0 => true
        | 1 => cluOf k % 8 == at_ / 8
        | 2 => k % 64 == at_
        | _ => false)
  | .die e => e == d && decide (scope ≤ 2)
  | .zone z => scope == 3 && z == at_ && zoneDie z == d

/-- Does a unit of die `d` take a sample of this probe, partition and place? -/
def Capture.takes (u : Capture) (d probe : Nat) (part : Option Nat) (p : ProbeAt) : Bool :=
  let w := u.ctl.toNat
  bitAt w 63 && bitsAt w 48 8 == probe && (!bitAt w 41 || part == some (bitsAt w 42 6)) &&
    p.seen d (bitsAt w 38 3) (bitsAt w 32 6)

/-- Bin of a value. -/
def binOf (ctl : Word) (v : Nat) : Nat :=
  let w := ctl.toNat
  if bitAt w 31 then (if v = 0 then 0 else min 31 (Nat.log2 v + 1))
  else
    let base := bitsAt w 0 26
    if v < base then 0 else min 31 ((v - base) / 2 ^ bitsAt w 26 5)

/-- A count that saturates at its largest value. -/
def satAdd (n : Nat) (x : BitVec n) (v : Nat) : BitVec n := BitVec.ofNat n (min (x.toNat + v) (2 ^ n - 1))

/-- A sample enters a unit. -/
def Capture.add (u : Capture) (v : Nat) : Capture :=
  let w : Word := BitVec.ofNat 64 v
  let b := binOf u.ctl v
  { u with
    min := if w < u.min then w else u.min
    max := if u.max < w then w else u.max
    count := satAdd 64 u.count 1
    sum := satAdd 64 u.sum v
    bins := mset 0 u.bins b (satAdd 32 (mget 0 u.bins b) 1) }

/-- Every capture unit that looks for it takes a sample (DEDUCED, log 74). -/
def State.sample (s : State) (probe : Nat) (part : Option Nat) (p : ProbeAt) (v : Nat) : State :=
  { s with dies := s.dies.map fun e =>
      (e.1, { e.2 with captures := e.2.captures.map fun u =>
        (u.1, bif u.2.takes e.1 probe part p then u.2.add v else u.2) }) }

/-- A sample of something a context does. -/
def State.sampleCtx (s : State) (probe c v : Nat) : State :=
  s.sample probe ((s.partOf c).map (·.val)) (.cores [coreOf c]) v

/-- A sample of a launch's commit or abort (DEDUCED, log 74). -/
def State.sampleLaunch (s : State) (probe : Nat) (l : Launch) (v : Nat) : State :=
  s.sample probe (some l.part.val) (.cores (l.clusters.flatMap fun q => (List.range 8).map (8 * q + ·))) v

end Sys2Proof.Machine
end

