-- ==== Sys2Proof/Machine/Crypto.lean ====
section
/-! DEFINITION. The published algorithms the spec names: SHA-256 (FIPS 180-4), AES-256 (FIPS 197), XTS-AES-256
(IEEE 1619, 12 R245), CRC-32C (23 R371) and ECDSA verification on P-256 (FIPS 186, 17 R290). -/

namespace Sys2Proof

/-! ## SHA-256 -/

/-- The 64 round constants, 32 bits each, the first lowest. -/
def shaK : Nat := 0xc67178f2bef9a3f7a4506ceb90befffa8cc7020884c8781478a5636f748f82ee682e6ff35b9cca4f4ed8aa4a391c0cb334b0bcb52748774c1e376c0819a4c116106aa070f40e3585d6990624d192e819c76c51a3c24b8b70a81a664ba2bfe8a192722c8581c2c92e766a0abb650a735453380d134d2c6dfc2e1b213827b70a851429296706ca6351d5a79147c6e00bf3bf597fc7b00327c8a831c66d983e515276f988da5cb0a9dc4a7484aa2de92c6f240ca1cc0fc19dc6efbe4786e49b69c1c19bf1749bdc06a780deb1fe72be5d74550c7dc3243185be12835b01d807aa98ab1c5ed5923f82a459f111f13956c25be9b5dba5b5c0fbcf71374491428a2f98
/-- The initial hash value, 32 bits each, the first lowest. -/
def shaH : Nat := 0x5be0cd191f83d9ab9b05688c510e527fa54ff53a3c6ef372bb67ae856a09e667

/-- Rotate a 32-bit word right. -/
def ror32 (x : BitVec 32) (n : Nat) : BitVec 32 := x.rotateRight n

/-- The next word of the message schedule from the last 16, newest first. -/
def shaNext (w : List (BitVec 32)) : BitVec 32 :=
  let at' (i : Nat) : BitVec 32 := (w[i]?).getD 0
  let a := at' 14
  let b := at' 1
  (ror32 b 17 ^^^ ror32 b 19 ^^^ (b >>> 10)) + at' 6 + (ror32 a 7 ^^^ ror32 a 18 ^^^ (a >>> 3)) + at' 15

/-- The eight working variables. -/
structure ShaState where
  a : BitVec 32
  b : BitVec 32
  c : BitVec 32
  d : BitVec 32
  e : BitVec 32
  f : BitVec 32
  g : BitVec 32
  h : BitVec 32
  deriving DecidableEq, Repr

/-- Rounds with the message schedule held newest first; `n` rounds remain. -/
def shaRounds : Nat → List (BitVec 32) → List (BitVec 32) → ShaState → ShaState
  | 0, _, _, s => s
  | n + 1, block, w, s =>
    let r := 63 - n
    let (x, rest) := match block with
      | x :: t => (x, t)
      | [] => (shaNext w, [])
    let t1 := s.h + (ror32 s.e 6 ^^^ ror32 s.e 11 ^^^ ror32 s.e 25) + ((s.e &&& s.f) ^^^ (~~~s.e &&& s.g))
      + fld shaK (32 * r) 32 + x
    let t2 := (ror32 s.a 2 ^^^ ror32 s.a 13 ^^^ ror32 s.a 22) + ((s.a &&& s.b) ^^^ (s.a &&& s.c) ^^^ (s.b &&& s.c))
    shaRounds n rest (x :: w) ⟨t1 + t2, s.a, s.b, s.c, s.d + t1, s.e, s.f, s.g⟩

/-- The big-endian number of a byte list. -/
def beNat (l : List Byte) : Nat := l.foldl (fun a b => 256 * a + b.toNat) 0

/-- One 64-byte block. -/
def shaBlock (s : ShaState) (b : List Byte) : ShaState :=
  let w := (pieces 4 16 b).map fun p => BitVec.ofNat 32 (beNat p)
  let t := shaRounds 64 w [] s
  ⟨s.a + t.a, s.b + t.b, s.c + t.c, s.d + t.d, s.e + t.e, s.f + t.f, s.g + t.g, s.h + t.h⟩

/-- `n` bytes of a number, most significant first. -/
def beBytes (n v : Nat) : List Byte := (bytesOf n v).reverse

/-- SHA-256 of a byte list, as a 256-bit big-endian number (PRESUMED, log 8). -/
def sha256 (m : List Byte) : BitVec 256 :=
  let z := (119 - m.length % 64) % 64
  let p := m ++ [0x80] ++ List.replicate z 0 ++ beBytes 8 (8 * m.length)
  let i (k : Nat) : BitVec 32 := fld shaH (32 * k) 32
  let s := (pieces 64 (p.length / 64) p).foldl shaBlock ⟨i 0, i 1, i 2, i 3, i 4, i 5, i 6, i 7⟩
  s.a ++ s.b ++ s.c ++ s.d ++ s.e ++ s.f ++ s.g ++ s.h

/-! ## AES-256 and XTS -/

/-- The S-box, entry i in byte i. -/
def sbox : Nat := 0x16bb54b00f2d99416842e6bf0d89a18cdf2855cee9871e9b948ed9691198f8e19e1dc186b95735610ef6034866b53e708a8bbd4b1f74dde8c6b4a61c2e2578ba08ae7a65eaf4566ca94ed58d6d37c8e779e4959162acd3c25c2406490a3a32e0db0b5ede14b8ee4688902a22dc4f816073195d643d7ea7c41744975fec130ccdd2f3ff1021dab6bcf5389d928f40a351a89f3c507f02f94585334d43fbaaefd0cf584c4a39becb6a5bb1fc20ed00d153842fe329b3d63b52a05a6e1b1a2c830975b227ebe28012079a059618c323c7041531d871f1e5a534ccf73f362693fdb7c072a49cafa2d4adf04759fa7dc982ca76abd7fe2b670130c56f6bf27b777c63
/-- The inverse S-box. -/
def invSbox : Nat := 0x7d0c2155631469e126d677ba7e042b17619953833cbbebc8b0f52aae4d3be0a0ef9cc9939f7ae52d0d4ab519a97f51605fec8027591012b131c7078833a8dd1ff45acd78fec0db9a2079d2c64b3e56fc1bbe18aa0e62b76f89c5291d711af1476edf751ce837f9e28535ade72274ac9673e6b4f0cecff297eadc674f4111913a6b8a130103bdafc1020f3fca8f1e2cd00645b3b80558e4f70ad3bc8c00abd890849d8da75746155edab9edfd5048706c92b6655dcc5ca4d41698688664f6f87225d18b6d49a25b76b224d92866a12e084ec3fa420b954cee3d23c2a632947b54cbe9dec444438e3487ff2f9b8239e37cfbd7f3819ea340bf38a53630d56a0952
/-- Substitute a byte. -/
def subByte (t : Nat) (b : Byte) : Byte := fld t (8 * b.toNat) 8

/-- Multiply by x in GF(2^8). -/
def xtime (b : Byte) : Byte := (b <<< 1) ^^^ (if b.getLsbD 7 then 0x1B else 0)

/-- Multiply in GF(2^8) by a small constant, bit by bit. -/
def gmulBits : Nat → Byte → Nat → Byte
  | 0, _, _ => 0
  | n + 1, b, k => (if k % 2 = 1 then b else 0) ^^^ gmulBits n (xtime b) (k / 2)

/-- Byte i of a list, or 0. -/
def byteAt (l : List Byte) (i : Nat) : Byte := (l[i]?).getD 0

/-- Bytewise exclusive or. -/
def xorBytes (a b : List Byte) : List Byte := List.zipWith (· ^^^ ·) a b

/-- Four bytes mixed by a circulant matrix. -/
def mixCol (k0 k1 k2 k3 : Nat) (c : List Byte) : List Byte :=
  (List.range 4).map fun i =>
    gmulBits 4 (byteAt c i) k0 ^^^ gmulBits 4 (byteAt c ((i + 1) % 4)) k1
      ^^^ gmulBits 4 (byteAt c ((i + 2) % 4)) k2 ^^^ gmulBits 4 (byteAt c ((i + 3) % 4)) k3

/-- Key expansion: the words so far newest first; `n` words remain (FIPS 197 5.2, Nk = 8). -/
def aesExpand : Nat → List (List Byte) → Byte → List (List Byte)
  | 0, w, _ => w
  | n + 1, w, rc =>
    let i := w.length
    let t := (w[0]?).getD []
    let (t, rc') :=
      if i % 8 = 0 then
        let r := ((t.drop 1) ++ (t.take 1)).map (subByte sbox)
        (xorBytes r [rc, 0, 0, 0], xtime rc)
      else if i % 8 = 4 then (t.map (subByte sbox), rc) else (t, rc)
    aesExpand n (xorBytes ((w[7]?).getD []) t :: w) rc'

/-- The 15 round keys of a 32-byte key, first first. -/
def aesKeys (k : List Byte) : List (List Byte) :=
  pieces 16 15 (aesExpand 52 (pieces 4 8 k).reverse 1).reverse.flatten

/-- ShiftRows by `d` columns per row (1 forward, 3 inverse). -/
def shiftRows (d : Nat) (b : List Byte) : List Byte :=
  (List.range 16).map fun i => byteAt b ((i + 4 * d * (i % 4)) % 16)

/-- Encrypt one block with the remaining round keys. -/
def aesEncRounds : List (List Byte) → List Byte → List Byte
  | [], b => b
  | [k], b => xorBytes (shiftRows 1 (b.map (subByte sbox))) k
  | k :: ks, b =>
    aesEncRounds ks (xorBytes ((pieces 4 4 (shiftRows 1 (b.map (subByte sbox)))).map (mixCol 2 3 1 1)).flatten k)

/-- AES-256 encryption of a 16-byte block. -/
def aesEnc (key block : List Byte) : List Byte :=
  match aesKeys key with
  | k :: ks => aesEncRounds ks (xorBytes block k)
  | [] => block

/-- Decrypt one block with the remaining round keys, last round's first. -/
def aesDecRounds : List (List Byte) → List Byte → List Byte
  | [], b => b
  | [k], b => xorBytes ((shiftRows 3 b).map (subByte invSbox)) k
  | k :: ks, b =>
    aesDecRounds ks ((pieces 4 4 (xorBytes ((shiftRows 3 b).map (subByte invSbox)) k)).map (mixCol 14 11 13 9)).flatten

/-- AES-256 decryption of a 16-byte block. -/
def aesDec (key block : List Byte) : List Byte :=
  match (aesKeys key).reverse with
  | k :: ks => aesDecRounds ks (xorBytes block k)
  | [] => block

/-- Multiply an XTS tweak by x (IEEE 1619): little-endian, with feedback 0x87. -/
def tweakNext (t : Nat) : Nat := (2 * t) % 2 ^ 128 ^^^ (if t / 2 ^ 127 = 1 then 0x87 else 0)

/-- XTS over blocks. -/
def xtsBlocks (f : List Byte → List Byte) : List (List Byte) → Nat → List Byte
  | [], _ => []
  | b :: t, tw =>
    let w := bytesOf 16 tw
    xorBytes (f (xorBytes b w)) w ++ xtsBlocks f t (tweakNext tw)

/-- Key material: bytes 0–31 the data key, 32–63 the tweak key (12 R245) (PRESUMED, log 8). -/
def xtsLine (enc : Bool) (material : BitVec 512) (unit : Nat) (line : List Byte) : List Byte :=
  let m := bytesOf 64 material.toNat
  let k1 := m.take 32
  let tw := natOf (aesEnc (m.drop 32) (bytesOf 16 unit))
  xtsBlocks (if enc then aesEnc k1 else aesDec k1) (pieces 16 4 line) tw

/-! ## CRC-32C -/

/-- Eight steps of the reflected Castagnoli polynomial. -/
def crcBits : Nat → BitVec 32 → BitVec 32
  | 0, c => c
  | n + 1, c => crcBits n ((c >>> 1) ^^^ (if c.getLsbD 0 then 0x82F63B78 else 0))

/-- CRC-32C of a byte list (23 R371) (PRESUMED, log 8). -/
def crc32c (m : List Byte) : BitVec 32 :=
  ~~~(m.foldl (fun c b => crcBits 8 (c ^^^ b.setWidth 32)) (BitVec.allOnes 32))

/-! ## P-256 -/

/-- The field prime of P-256. -/
def p256P : Nat := 0xFFFFFFFF00000001000000000000000000000000FFFFFFFFFFFFFFFFFFFFFFFF
/-- The order of the group. -/
def p256N : Nat := 0xFFFFFFFF00000000FFFFFFFFFFFFFFFFBCE6FAADA7179E84F3B9CAC2FC632551
/-- The curve's b. -/
def p256B : Nat := 0x5AC635D8AA3A93E7B3EBBD55769886BC651D06B0CC53B0F63BCE3C3E27D2604B
/-- The base point. -/
def p256G : Nat × Nat :=
  (0x6B17D1F2E12C4247F8BCE6E563A440F277037D812DEB33A0F4A13945D898C296,
   0x4FE342E2FE1A7F9B8EE7EB4A7C0F9E162BCE33576B315ECECBB6406837BF51F5)

/-- a^e mod m by squaring over the bits of e. -/
def powMod (m : Nat) : Nat → Nat → Nat → Nat
  | 0, _, _ => 1 % m
  | n + 1, a, e => (if e % 2 = 1 then a else 1) * powMod m n (a * a % m) (e / 2) % m

/-- Inverse modulo a prime of at most 256 bits. -/
def invMod (m a : Nat) : Nat := powMod m 256 (a % m) (m - 2)

/-- Point addition in affine coordinates; none is the point at infinity. -/
def ecAdd : Option (Nat × Nat) → Option (Nat × Nat) → Option (Nat × Nat)
  | none, q => q
  | p, none => p
  | some (x1, y1), some (x2, y2) =>
    let m := p256P
    if x1 = x2 ∧ (y1 + y2) % m = 0 then none
    else
      let l := if x1 = x2 then (3 * x1 * x1 + m - 3) % m * invMod m (2 * y1) % m
        else (y2 + m - y1) % m * invMod m ((x2 + m - x1) % m) % m
      let x3 := (l * l + 2 * m - x1 - x2) % m
      some (x3, (l * ((x1 + m - x3) % m) + m - y1) % m)

/-- k·P over the bits of k. -/
def ecMul : Nat → Nat → Option (Nat × Nat) → Option (Nat × Nat)
  | 0, _, _ => none
  | n + 1, k, p => ecAdd (if k % 2 = 1 then p else none) (ecMul n (k / 2) (ecAdd p p))

/-- Is a public key a point of the curve? -/
def onCurve (q : BitVec 256 × BitVec 256) : Bool :=
  let x := q.1.toNat
  let y := q.2.toNat
  decide (x < p256P) && decide (y < p256P) && y * y % p256P == (x * x * x + (p256P - 3) * x + p256B) % p256P

/-- FIPS 186 ECDSA verification on P-256 over a SHA-256 digest (PRESUMED, log 8). -/
def ecdsaVerify (q : BitVec 256 × BitVec 256) (digest r s : BitVec 256) : Bool :=
  let n := p256N
  let r := r.toNat
  let s := s.toNat
  if r = 0 ∨ n ≤ r ∨ s = 0 ∨ n ≤ s ∨ !onCurve q then false
  else
    let w := invMod n s
    match ecAdd (ecMul 256 (digest.toNat * w % n) (some p256G))
        (ecMul 256 (r * w % n) (some (q.1.toNat, q.2.toNat))) with
    | some (x, _) => x % n == r
    | none => false

/-- FIPS 186 ECDSA signature on P-256 over a SHA-256 digest by the private key `d`: a nonce that gives a zero is tried anew, four
times at most (PRESUMED, log 8). -/
def ecdsaSign (d : Nat) (nonce : Nat → Nat) (digest : BitVec 256) : BitVec 256 × BitVec 256 :=
  let n := p256N
  ((List.range 4).findSome? fun i =>
    let k := 1 + nonce i % (n - 1)
    (ecMul 256 k (some p256G)).bind fun p =>
      let r := p.1 % n
      let s := invMod n k * ((digest.toNat + r * d) % n) % n
      if r = 0 ∨ s = 0 then none else some (BitVec.ofNat 256 r, BitVec.ofNat 256 s)).getD (0, 0)

end Sys2Proof
end

