-- ==== Sys2Proof/Machine/Memory.lean ====
section
/-! DEFINITION. What memory holds: global lines with their keys, shadows and poison (12, 13), the on-chip windows
(08 R187–R189), and one read and one write of bytes at a resolved target. -/

namespace Sys2Proof.Machine

open Sys2Proof

/-- A byte with the poison tag of the word it came from. -/
abbrev PByte := Byte × Option Tag

/-- Lowest tag of some bytes. -/
def tagOf (l : List PByte) : Option Tag := l.foldl (fun a b => tmeet a b.2) none

/-- The number some bytes make. -/
def valOf (l : List PByte) : Nat := natOf (l.map (·.1))

/-- Clean bytes. -/
def clean (l : List Byte) : List PByte := l.map fun b => (b, none)

/-- Bytes of a number under one tag. -/
def taggedBytes (n v : Nat) (t : Option Tag) : List PByte := (bytesOf n v).map fun b => (b, t)

/-! ## Words: the unit of poison (01 R26, 12 R251) -/

/-- Bit mask of the bits of the bytes of `mask`. -/
def byteMask (mask : Nat) : Word := BitVec.ofNat 64 (maskBits 8 mask)

/-- A word after some of its bytes are written (12 R251): a whole write takes the new value and its poison; a write of
fewer bytes leaves a poisoned word poisoned, with the same tag, its bytes lost. -/
def putWord (old : Word) (oldTag : Option Tag) (val : Word) (mask : Nat) (tag : Option Tag) : Word × Option Tag :=
  if mask % 256 = 255 then (val, tag)
  else if oldTag.isSome then (old, oldTag)
  else ((old &&& ~~~ byteMask mask) ||| (val &&& byteMask mask), tag)

/-- One write to an aligned 8-byte word: its index, value, byte mask and poison. -/
structure WordWrite where
  word : Nat
  val : Word
  mask : Nat
  tag : Option Tag
  deriving DecidableEq, Repr

/-- Add one byte at address `a` to a list of word writes, newest word first. -/
def addByte (l : List WordWrite) (a : Nat) (b : PByte) : List WordWrite :=
  let i := a % 8
  let v : Word := BitVec.ofNat 64 (b.1.toNat * 2 ^ (8 * i))
  match l with
  | w :: t => if w.word = a / 8 then ⟨w.word, w.val ||| v, w.mask + 2 ^ i, tmeet w.tag b.2⟩ :: t
    else ⟨a / 8, v, 2 ^ i, b.2⟩ :: w :: t
  | [] => [⟨a / 8, v, 2 ^ i, b.2⟩]

/-- Word writes of bytes from address `a`, newest first. -/
def splitWords : List WordWrite → Nat → List PByte → List WordWrite
  | acc, _, [] => acc
  | acc, a, b :: t => splitWords (addByte acc a b) (a + 1) t

/-- Bytes `a … a + n − 1` read through a word reader. -/
def readBytes (rd : Nat → Word × Option Tag) (a : Nat) : Nat → List PByte
  | 0 => []
  | n + 1 =>
    let w := rd (a / 8)
    (w.1.extractLsb' (8 * (a % 8)) 8, w.2) :: readBytes rd (a + 1) n

/-! ## Lines of global memory -/

/-- An empty plaintext line. -/
def LineVal.zero : LineVal := ⟨[], [], none⟩

/-- What a byte of HBM that nothing has written reads as (log 4) (DESIGN CHOICE, log 4). -/
def hbmDefault : Byte := 0

/-- The canonical form of memory: addresses strictly rising, no entry equal to what an unlisted address reads as
(DESIGN CHOICE, log 4). -/
def Memory.wf (m : List Host.Cell) : Bool := mwf hbmDefault m

/-- The 64 bytes of a line value. -/
def LineVal.bytes (l : LineVal) : List Byte := (List.range 64).map (mget 0 l.data)

/-- A line value of given bytes. -/
def LineVal.ofBytes (b : List Byte) (p : SMap (Option Tag)) (k : Option (BitVec 512)) : LineVal :=
  ⟨msetAll 0 [] (List.zip (List.range 64) b), p, k⟩

/-- The bytes stored: ciphertext under the line's key (12 R245). -/
def storedBytes (line : Nat) (l : LineVal) : List Byte :=
  match l.key with
  | none => l.bytes
  | some k => xtsLine true k line l.bytes

/-- The bytes stored, with the stored form of each poisoned word: its tag, as it is (12 R250). -/
def storedForm (line : Nat) (l : LineVal) : List Byte :=
  let b := storedBytes line l
  (List.range 8).flatMap fun i =>
    match mget none l.poison i with
    | some t => bytesOf 8 t.toNat
    | none => (b.drop (8 * i)).take 8

/-- Some words of a line are poisoned where they are stored: the form of 12 R250. -/
def LineVal.spoil (l : LineVal) (words : List Nat) (t : Tag) : LineVal :=
  { l with
    data := msetAll 0 l.data (words.flatMap fun i => (List.range 8).map fun j => (8 * i + j, 0))
    poison := msetAll none l.poison (words.map fun i => (i, some t)) }

/-- The line as read under other key material: the ciphertext stored, decrypted under it (12 R247). Poison stays. Under its own
key a word keeps its plaintext when the other half of its cipher block is replaced by the stored form of poison (DESIGN
CHOICE, log 114). -/
def LineVal.under (l : LineVal) (line : Nat) (j : Option (BitVec 512)) : LineVal :=
  if l.key = j then l
  else
    let c := storedForm line l
    .ofBytes (match j with | none => c | some k => xtsLine false k line c) l.poison j

/-- A word of a line. -/
def LineVal.word (l : LineVal) (i : Nat) : Word × Option Tag :=
  (BitVec.ofNat 64 (natOf ((List.range 8).map fun j => mget 0 l.data (8 * i + j))), mget none l.poison i)

/-- Write a word of a line. -/
def LineVal.put (l : LineVal) (w : WordWrite) : LineVal :=
  let i := w.word % 8
  let o := l.word i
  let r := putWord o.1 o.2 w.val w.mask w.tag
  { l with
    data := msetAll 0 l.data ((List.range 8).map fun j => (8 * i + j, r.1.extractLsb' (8 * j) 8))
    poison := mset none l.poison i r.2 }

/-- Line `n` as memory holds it. -/
def Mem.line (m : Mem) (n : Nat) : LineVal :=
  ⟨mslice m.hbm (64 * n) 64, mslice m.hbmPoison (8 * n) 8, mget none m.lineKey n⟩

/-- Write one word of HBM under key material `j`. -/
def Mem.putHbm (m : Mem) (w : WordWrite) (j : Option (BitVec 512)) : Mem :=
  let n := w.word / 8
  let l := (m.line n).under n j
  let v := l.put w
  let m := if (mget none m.lineKey n) = j then m else
    { m with
      hbm := msetAll hbmDefault m.hbm ((List.range 64).map fun i => (64 * n + i, mget 0 l.data i))
      lineKey := mset none m.lineKey n j }
  let r := v.word (w.word % 8)
  { m with
    hbm := msetAll hbmDefault m.hbm ((List.range 8).map fun i => (8 * w.word + i, r.1.extractLsb' (8 * i) 8))
    hbmPoison := mset none m.hbmPoison w.word r.2 }

/-- Replace a whole line of memory. -/
def Mem.setLine (m : Mem) (n : Nat) (v : LineVal) : Mem :=
  { m with
    hbm := msetAll hbmDefault m.hbm ((List.range 64).map fun i => (64 * n + i, mget 0 v.data i))
    hbmPoison := msetAll none m.hbmPoison ((List.range 8).map fun i => (8 * n + i, mget none v.poison i))
    lineKey := mset none m.lineKey n v.key }

/-! ## Shadows (13 R255–R258) -/

/-- Does the pending-line filter report the line (13 R257)? -/
def Mem.reported (m : Mem) (n : Nat) : Bool := m.filter.contains n

/-- The entry of a line for a hallmark. -/
def Mem.entry (m : Mem) (n : Nat) (h : Hall) : Option Shadow := m.shadow.find? fun e => e.line = n && e.hall = h

/-- The committed entry of a line with the highest ticket. -/
def bestEntry (n : Nat) : List Shadow → Option Shadow
  | [] => none
  | e :: t =>
    let r := bestEntry n t
    if e.line = n then
      match e.ticket, r with
      | some a, some b => if a < b.ticket.getD 0 then some b else some e
      | some _, none => some e
      | none, r => r
    else r

/-- The committed value of a line (13 R256). -/
def Mem.committed (m : Mem) (n : Nat) : LineVal :=
  if m.reported n then
    match bestEntry n m.shadow with
    | some e => e.val
    | none => m.line n
  else m.line n

/-- The line as a launch sees it (13 R258); none: an agent outside every launch (DESIGN CHOICE, log 14). -/
def Mem.view (m : Mem) (h : Option Hall) (n : Nat) : LineVal :=
  match h with
  | none => m.committed n
  | some h =>
    if m.reported n then
      match m.entry n h with
      | some e => e.val
      | none => m.committed n
    else m.line n

/-- Replace the value of the entry of a line for a hallmark. -/
def Mem.setEntry (m : Mem) (n : Nat) (h : Hall) (v : LineVal) : Mem :=
  { m with shadow := m.shadow.map fun e => if e.line = n ∧ e.hall = h then { e with val := v } else e }

/-- Insert into the filter's rising list. -/
def insertSorted (n : Nat) : List Nat → List Nat
  | [] => [n]
  | a :: t => if n = a then a :: t else if n < a then n :: a :: t else a :: insertSorted n t

/-- Create the entry of a line for a hallmark: the filter first, then the entry (13 R257, R258). -/
def Mem.addEntry (m : Mem) (n : Nat) (h : Hall) (v : LineVal) : Mem :=
  { m with filter := insertSorted n m.filter, shadow := m.shadow ++ [⟨n, h, none, v⟩] }

/-- Fold one line (13 R268): the entry of highest ticket is written, the line's committed entries are released. -/
def Mem.fold (m : Mem) (n : Nat) : Mem :=
  match bestEntry n m.shadow with
  | some e => { (m.setLine n e.val) with shadow := m.shadow.filter fun e => e.line ≠ n || e.ticket.isNone }
  | none => m

/-- The die that owns a line (12 R233). -/
def homeDie (n : Nat) : Nat := n / 2 ^ 31 % 4

/-- Fold every committed line of a die (13 R258). -/
def Mem.foldDie (m : Mem) (d : Nat) : Mem :=
  (m.shadow.filter fun e => e.ticket.isSome && homeDie e.line = d).foldl (fun m e => m.fold e.line) m

/-- Shadow slots in use on a die: directory entries, undo entries, staged window entries (13 R255, R267, 23 R362). -/
def State.slotsUsed (s : State) (d : Nat) : Nat :=
  (s.mem.shadow.filter fun e => homeDie e.line = d).length
    + (s.sched.launches.map fun e => (e.2.undo.filter fun u => homeDie u.line = d).length).sum
    + (s.fab.staged.filter fun e => homeDie (e.pa / 64) = d).length

/-! ## Read signatures (13 R259) -/

/-- The signature with line `n` added: the three bits the hash functions select. -/
def sigAdd (g : BitVec 4096) (n : Nat) : BitVec 4096 :=
  g ||| BitVec.ofNat 4096 (2 ^ (Config.sigHash 0 n).toNat) ||| BitVec.ofNat 4096 (2 ^ (Config.sigHash 1 n).toNat)
    ||| BitVec.ofNat 4096 (2 ^ (Config.sigHash 2 n).toNat)

/-- The test of line `n` against a signature. -/
def sigTest (g : BitVec 4096) (n : Nat) : Bool :=
  g.getLsbD (Config.sigHash 0 n).toNat && g.getLsbD (Config.sigHash 1 n).toNat && g.getLsbD (Config.sigHash 2 n).toNat

/-- Line `n` enters the signature of launch `h`. -/
def State.addSig (s : State) (h : Option Hall) (n : Nat) : State :=
  match h with
  | none => s
  | some h => s.modLaunch h fun l => { l with sig := sigAdd l.sig n }

/-! ## Aborting (13 R264): the moment of the abort -/

/-- An asynchronous cause becomes due in a context; one that has halted or is free takes none (03 R391), and a second
cause that ends the launch adds nothing (08 R210). -/
def Ctx.raiseDue (x : Ctx) (d : Due) : Ctx :=
  match x.act with
  | .free | .halting | .halted => x
  | _ => if d.ends && x.causes.any (·.ends) then x else { x with causes := x.causes ++ [d] }

/-- The cause an abort raises in the team (13 R264) (DEDUCED, log 21). -/
def Why.cause : Why → Cause
  | .shadowFull => .shadowFull
  | .budget => .budget
  | _ => .txAborted

/-- The cause of an abort, as the capture probe of aborts reports it (21 R339) (DEDUCED, log 74). -/
def Why.reason : Why → Cause
  | .shadowFull => .shadowFull
  | .budget => .budget
  | .rerun c | .fail c | .outside c | .retryService c | .failReport c => c
  | .none | .conflict _ | .reset => .txAborted

/-- May the reason take a COMMITTING launch to ABORTED (13 R254)? -/
def Why.reachesCommitting : Why → Bool
  | .conflict _ | .reset => true
  | _ => false

/-- TRAPADDR of the cause an abort raises: the hallmark for TX_ABORTED, else 0 (03 R95). -/
def Why.addr (w : Why) (h : Hall) : Word := if w.cause = .txAborted then h.setWidth 64 else 0

/-- Drop the launch's commands from a context (13 R264). -/
def Ctx.dropCommands (x : Ctx) : Ctx :=
  { x with mtx := { x.mtx with queue := [] }, crd := [], crdJob := none, col := [] }

/-- Drop the commands of some contexts from a walker, one that waits for a tree lock included. -/
def Walker.dropOf (w : Walker) (p : Nat → Bool) : Walker :=
  let gone := w.waiting && match w.running with | some q => p q.ctx | none => false
  { w with
    queue := w.queue.filter fun q => !p q.ctx
    running := if gone then none else w.running
    waiting := w.waiting && !gone }

/-- A message with every word poisoned. -/
def poisonMsg (t : Tag) (m : Message) : Message :=
  { m with poison := (List.range ((m.bytes.length + 7) / 8)).map fun i => (i, t) }

/-- Poison every word of the held messages that satisfy `p` (23 R370, R381). -/
def State.poisonHeld (s : State) (p : Message → Bool) (t : Tag) : State :=
  let f (m : Message) : Message := bif p m then poisonMsg t m else m
  { s with dies := s.dies.map fun e => (e.1, { e.2 with held := e.2.held.map f }) }

/-- Messages of an aborted hallmark held at the dies, or matched to a receive that has not written them, are poisoned under a
tag of unit 21 of the die that sent each; so are those in flight (23 R370) (DESIGN CHOICE, log 59). -/
def State.poisonHall (s : State) (h : Hall) : State :=
  let r := BitVec.ofNat 5 (Config.pick s.fresh)
  let f (m : Message) : Message := bif m.hall == h then poisonMsg (BitVec.ofNat 7 (32 * m.die.val + 21) ++ r) m else m
  let s := s.tick
  let s : State := { s with dies := s.dies.map fun e => (e.1, { e.2 with held := e.2.held.map f }) }
  let s : State := { s with ctxs := s.ctxs.map fun e =>
    (e.1, { e.2 with col := e.2.col.map fun d => { d with msg := d.msg.map f } }) }
  s.emit (.poisoned h r)

/-- Launch `h` aborts (13 R264): its state, its signature, its engine commands, discard messages to its touch list, and
the cause in every team context that has not halted. The undo log of an exclusive run is applied at once, newest entry
first (13 R267). What follows for the record waits until the team is gone. -/
def State.abortLaunch (s : State) (h : Hall) (why : Why) : State :=
  match s.launch h with
  | none => s
  | some l =>
    if l.state = .running ∨ l.state = .committing ∧ why.reachesCommitting then
      let s := s.modMem fun m => l.undo.foldl (fun m u => m.setLine u.line u.val) m
      let s := s.sampleLaunch 6 l (2 * why.reason.code + b2n l.unconfirmed)
      let s := s.modLaunch h fun l => { l with state := .aborted, sig := 0, why := why, undo := [] }
      let s := l.team.foldl (fun s c => s.modCtx c fun x =>
        x.dropCommands.raiseDue ⟨⟨why.cause, why.addr h, 0, none⟩, true⟩) s
      let s := l.clusters.foldl (fun s k => s.modCluster k fun x =>
        { x with
          walker := x.walker.dropOf fun c => l.team.contains c
          chans := x.chans.map fun e => if e.2.hall = some h then (e.1, { e.2 with heads := [], state := 0 }) else e }) s
      let s := l.touch.foldl (fun s t => s.emit (.discard h t.home s.fab.epoch)) s
      let s := s.poisonHall h
      s.modSched fun x => { x with preloads := x.preloads.filter fun p => p.dependsOn ≠ some h }
    else s

/-- Abort every RUNNING or COMMITTING launch that a test of one of the lines `ns` hits, but `but` (13 R260, R262). The
abort is unconfirmed when none of the lines tested is in the victim's entries (13 R265). -/
def State.conflictsOf (s : State) (ns : List Nat) (but : Option Hall) (p : Launch → Bool) : State :=
  s.sched.launches.foldl (fun s e =>
    if some e.1 ≠ but && (e.2.state == .running || e.2.state == .committing) && p e.2 && ns.any (sigTest e.2.sig) then
      let unc := ns.all fun n => (s.mem.entry n e.1).isNone
      (s.modLaunch e.1 fun l => { l with unconfirmed := unc }).abortLaunch e.1 (.conflict true)
    else s) s

/-! ## Monitors (08 R199–R201) -/

/-- The line and the 4 KiB block of a target, for comparing. -/
def Target.line : Target → Option (Nat × Nat × Nat)
  | .mem pa _ => some (0, 0, pa / 64)
  | .win k kind off => some (k + 1, kind, off / 64)
  | _ => none

/-- Bytes `lo … lo + n − 1` of a window are written: as `hitMonitors`, for every line of them. -/
def State.hitWin (s : State) (k kind lo n : Nat) : State :=
  { s with ctxs := s.ctxs.map fun e =>
      match e.2.mon.line with
      | some (.win k' kind' off) =>
        if k' = k ∧ kind' = kind ∧ lo < off / 64 * 64 + 64 ∧ off / 64 * 64 < lo + n then
          (e.1, { e.2 with mon := { e.2.mon with hit := true } })
        else if k' = k ∧ kind' = kind ∧ lo < off / 4096 * 4096 + 4096 ∧ off / 4096 * 4096 < lo + n then
          (e.1, { e.2 with mon := { e.2.mon with filter := true } })
        else e
      | _ => e }

/-- A write performed at a target: armed monitors on the line are hit, monitors on the same 4 KiB remember a filter
match. `only`: a shadow store counts for its own team only (08 R199). -/
def State.hitMonitors (s : State) (t : Target) (only : Option Hall) : State :=
  { s with ctxs := s.ctxs.map fun e =>
      match e.2.mon.line.bind Target.line, t.line with
      | some a, some b =>
        if only.isSome && e.2.hall ≠ only then e
        else if a = b then (e.1, { e.2 with mon := { e.2.mon with hit := true } })
        else if a.1 = b.1 ∧ a.2.1 = b.2.1 ∧ a.2.2 / 64 = b.2.2 / 64 then
          (e.1, { e.2 with mon := { e.2.mon with filter := true } })
        else e
      | _, _ => e }

/-! ## Global reads and writes -/

/-- Material of a key id; id 0 is plaintext. An access translated before a CLEAR and performed after it uses what the emptied slot
holds (DESIGN CHOICE, log 114). -/
def Trans.material (t : Trans) (key : BitVec 12) : Option (BitVec 512) :=
  if key = 0 then none else some (mget .zero t.keys key.toNat).material

/-- Bytes of the undo log for a line of an exclusive run: what the host reads (13 R262) (DEDUCED, log 66). -/
def undoOf (n : Nat) : List Undo → Option LineVal
  | [] => none
  | u :: t => if u.line = n then some u.val else undoOf n t

/-- A host read's value of a line: committed, or the undo log's during an exclusive run. -/
def State.hostLine (s : State) (n : Nat) : LineVal :=
  match s.sched.launches.findSome? fun e =>
      if e.2.excl && (e.2.state == .running || e.2.state == .committing) then undoOf n e.2.undo else none with
  | some v => v
  | none => s.mem.committed n

/-- Is the launch of an exclusive run? (DEDUCED, log 66). -/
def State.isExcl (s : State) (h : Option Hall) : Bool := ((h.bind s.launch).map (·.excl)).getD false

/-- The hallmark whose entries an agent of launch `h` sees: those of an ABORTED one are visible to no agent (13 R254). -/
def State.seenBy (s : State) (h : Option Hall) : Option Hall :=
  h.bind fun g => if ((s.launch g).map (·.state)) == some .aborted then none else some g

/-- Global bytes at `pa` under a key id as launch `h` sees them (DESIGN CHOICE, log 14). -/
def State.readMem (s : State) (h : Option Hall) (pa : Nat) (key : BitVec 12) (n : Nat) : List PByte :=
  let k := s.tr.material key
  readBytes (fun w => ((s.mem.view (s.seenBy h) (w / 8)).under (w / 8) k).word (w % 8)) pa n

/-- Lines that bytes `pa … pa + n − 1` touch. -/
def linesOf (pa n : Nat) : List Nat :=
  if n = 0 then [] else (List.range ((pa + n - 1) / 64 - pa / 64 + 1)).map (· + pa / 64)

/-- The lines read enter the signature. -/
def State.noteRead (s : State) (h : Option Hall) (pa n : Nat) : State :=
  (linesOf pa n).foldl (fun s l => s.addSig h l) s

/-- Committed hallmarks with no entry left are MERGED (13 R268). -/
def State.markMerged (s : State) : State :=
  s.modSched fun x => { x with launches := x.launches.map fun e =>
    if e.2.state = .committed ∧ !(s.mem.shadow.any fun y => y.hall == e.1) then (e.1, { e.2 with state := .merged }) else e }

/-- Fold some lines: a hallmark whose last entry goes with them is MERGED. -/
def State.folding (s : State) (f : Mem → Mem) : State :=
  let t := s.modMem f
  if t.mem.shadow.length < s.mem.shadow.length then t.markMerged else t

/-- Make room for one slot on a die, folding its committed lines first; false when none is free (13 R258). -/
def State.makeRoom (s : State) (d : Nat) : State × Bool :=
  if s.slotsUsed d < s.mem.slots then (s, true)
  else
    let s := s.folding fun m => m.foldDie d
    (s, decide (s.slotsUsed d < s.mem.slots))

/-- One word write of launch `h` in its view (13 R258): copy on write, the signature, the entry, the write. A write with
no free slot aborts the launch; an exclusive run writes memory itself after logging the line (13 R266, R267); a write
of an aborted launch is dropped (13 R264). -/
def State.writeShadow (s : State) (h : Hall) (w : WordWrite) (k : Option (BitVec 512)) : State :=
  let n := w.word / 8
  match s.launch h with
  | none => s
  | some l =>
    if l.state = .running then
      if l.excl then
        if (undoOf n l.undo).isSome then s.modMem fun m => m.putHbm w k
        else
          match s.makeRoom (homeDie n) with
          | (s, true) =>
            let s := (s.folding fun m => m.fold n).addSig (some h) n
            let s := s.modLaunch h fun l => { l with undo := ⟨n, s.mem.line n⟩ :: l.undo }
            s.modMem fun m => m.putHbm w k
          | (s, false) => s.abortLaunch h (.fail .shadowFull)
      else
        match (if s.mem.reported n then s.mem.entry n h else none) with
        | some e => s.modMem fun m => m.setEntry n h ((e.val.under n k).put w)
        | none =>
          match s.makeRoom (homeDie n) with
          | (s, true) =>
            let v := (s.mem.committed n).under n k
            (s.addSig (some h) n).modMem fun m => m.addEntry n h (v.put w)
          | (s, false) => s.abortLaunch h .shadowFull
    else s

/-- A write outside every launch (13 R262): fold the line, test it against every signature, write memory (DEDUCED, log
84). -/
def State.writeHost (s : State) (w : WordWrite) (k : Option (BitVec 512)) : State :=
  let n := w.word / 8
  let s := s.folding fun m => m.fold n
  let s := s.conflictsOf [n] none fun _ => true
  (s.modMem fun m => m.putHbm w k).hitMonitors (.mem (64 * n) 0) none

/-- Write global bytes at `pa` under a key id, for launch `h` or outside every launch. -/
def State.writeMem (s : State) (h : Option Hall) (pa : Nat) (key : BitVec 12) (b : List PByte) : State :=
  let k := s.tr.material key
  let ws := (splitWords [] pa b).reverse
  match h with
  | some g => (ws.foldl (fun s w => s.writeShadow g w k) s).hitMonitors (.mem pa key) (if s.isExcl h then none else h)
  | none => ws.foldl (fun s w => s.writeHost w k) s

/-! ## On-chip windows (08 R189) -/

/-- Scratchpad bytes of a core (07 R185). -/
def spadBytes : Nat := 0x80000

/-- One word of a scratchpad: an invalid line reads zero and never poisoned (07 R186). -/
def Mem.spadWord (m : Mem) (k w : Nat) : Word × Option Tag :=
  let i := k * 65536 + w
  if mget false m.spadValid (i / 8) then (mget 0 m.spad i, mget none m.spadPoison i) else (0, none)

/-- Write one scratchpad word: a partial write to an invalid line first makes the line zero; the line becomes valid. -/
def Mem.putSpad (m : Mem) (k : Nat) (w : WordWrite) : Mem :=
  let i := k * 65536 + w.word
  let m := if mget false m.spadValid (i / 8) then m else
    { m with
      spad := mclear m.spad (i / 8 * 8) 8
      spadPoison := mclear m.spadPoison (i / 8 * 8) 8
      spadValid := mset false m.spadValid (i / 8) true }
  let r := putWord (mget 0 m.spad i) (mget none m.spadPoison i) w.val w.mask w.tag
  { m with spad := mset 0 m.spad i r.1, spadPoison := mset none m.spadPoison i r.2 }

/-- One accumulator element: element number is core · 131,072 + offset ÷ 4 (06 R148). -/
def Mem.accElem (m : Mem) (i : Nat) : W32 × Option Poi :=
  if mget false m.accValid (i / 16) then (mget 0 m.acc i, mget none m.accPoison i) else (0, none)

/-- Write one accumulator element. -/
def Mem.putAcc (m : Mem) (i : Nat) (v : W32) (p : Option Poi) : Mem :=
  let m := if mget false m.accValid (i / 16) then m else
    { m with
      acc := mclear m.acc (i / 16 * 16) 16
      accPoison := mclear m.accPoison (i / 16 * 16) 16
      accValid := mset false m.accValid (i / 16) true }
  { m with acc := mset 0 m.acc i v, accPoison := mset none m.accPoison i p }

/-- The element of an accumulator partition's newest write that matrix work does not see yet. -/
def newestAcc (i : Nat) : List AccNew → Option (W32 × Option Poi)
  | [] => none
  | e :: t => match newestAcc i t with
    | some r => some r
    | none => if e.at_ = i then some (e.val, e.p) else none

/-- One accumulator element as every path but the matrix unit's sees it: VACWR has written it (05 R136, 06 R166). -/
def State.accRead (s : State) (i : Nat) : W32 × Option Poi :=
  (newestAcc i (s.ctx (i / 32768)).vac).getD (s.mem.accElem i)

/-- VACWR writes an element: matrix work sees it from tick `due` on (02 R52). -/
def State.accLater (s : State) (c due i : Nat) (v : W32) (p : Option Poi) : State :=
  s.modCtx c fun x => { x with vac := x.vac ++ [⟨due, i, v, p⟩] }

/-- An element is written at once, after any VACWR of it. -/
def State.accNow (s : State) (i : Nat) (v : W32) (p : Option Poi) : State :=
  (s.modCtx (i / 32768) fun x => { x with vac := x.vac.filter fun e => e.at_ ≠ i }).modMem fun m => m.putAcc i v p

/-- VACWR's elements of a context that satisfy `p` reach the matrix unit. -/
def State.landAcc (s : State) (c : Nat) (p : AccNew → Bool) : State :=
  if (s.ctx c).vac.any p then
    (((s.ctx c).vac.filter p).foldl (fun s e => s.modMem fun m => m.putAcc e.at_ e.val e.p) s).modCtx c fun x =>
      { x with vac := x.vac.filter fun e => !p e }
  else s

/-- All of them do (03 R96 step 2). -/
def State.landVac (s : State) (c : Nat) : State := s.landAcc c fun _ => true

/-- Element (row, col) of a tile of a context (06 R148). -/
def accIndex (c : Nat) (tile : Bool) (row col : Nat) : Nat :=
  coreOf c * 131072 + c % 4 * 32768 + b2n tile * 16384 + row * 128 + col

/-- Two 32-bit halves as a word. -/
def halves (lo hi : BitVec 32) : Word := hi ++ lo

/-- Tag of an optional poison. -/
def ptag (p : Option Poi) : Option Tag := p.map (·.tag)

/-- One word of a context's register-file window (03 R63). Word index is offset ÷ 8. -/
def regWord (s : State) (c w : Nat) : Word × Option Tag :=
  let x := s.ctx c
  let off := 8 * w
  if off < 0x200 then let r := x.sreg (BitVec.ofNat 6 w); (r.v, ptag r.p)
  else if off < 0x208 then
    ((List.range 8).foldl (fun a i => a + BitVec.ofNat 64 (b2n (x.preg (BitVec.ofNat 3 i)).v * 2 ^ (8 * i))) 0,
     (List.range 8).foldl (fun a i => tmeet a (ptag (x.preg (BitVec.ofNat 3 i)).p)) none)
  else if off < 0x240 then (0, none)
  else if off < 0x340 then
    let r := x.qreg (BitVec.ofNat 3 ((off - 0x240) / 32))
    (r.v.extractLsb' (64 * ((off - 0x240) % 32 / 8)) 64, ptag r.p)
  else if off < 0x380 then let r := x.mreg (BitVec.ofNat 3 ((off - 0x340) / 8)); (r.v, ptag r.p)
  else if off < 0x580 then
    let r := x.xreg (BitVec.ofNat 4 ((off - 0x380) / 32))
    let g := (off - 0x380) % 32 / 8
    (r.v.extractLsb' (64 * g) 64, ptag (poiAt r.p g))
  else if off < 0x600 then (0, none)
  else if off < 0x6C0 then
    let e := mget .zero x.loops ((off - 0x600) / 32)
    ((match (off - 0x600) % 32 / 8 with
      | 0 => halves e.start e.stop
      | 1 => halves e.remaining e.index
      | 2 => BitVec.ofNat 64 (e.obj.toNat + b2n e.exit * 256)
      | _ => 0), none)
  else if off < 0x700 then (0, none)
  else if off < 0x708 then (x.pc.setWidth 64, none)
  else if off < 0x800 then (0, none)
  else if off < 0xC00 then (readCtl s c (BitVec.ofNat 12 ((off - 0x800) / 8)), none)
  else if off < 0xD00 then
    match (x.land ++ x.uiLand)[(off - 0xC00) / 8]? with
    | none => (0, none)
    | some l =>
      let (d, kind) := match l.dst with
        | .s n => (n.toNat, 1) | .v n => (n.toNat, 2) | .x n => (n.toNat, 3) | _ => (0, 0)
      (BitVec.ofNat 64 (l.due % 2 ^ 32 + d * 2 ^ 32 + kind * 2 ^ 38 + b2n l.arrived * 2 ^ 41), none)
  else if off < 0x2000 then (0, none)
  else
    let r := x.vreg (BitVec.ofNat 5 ((off - 0x2000) / 256))
    let g := (off - 0x2000) % 256 / 8
    (r.v.extractLsb' (64 * g) 64, tmeet (ptag (poiAt r.p (2 * g))) (ptag (poiAt r.p (2 * g + 1))))

/-- Write one word of a register-file window; of UIPEND only the ones written clear (03 R68); a clean write of one word of
a lane mask clears the poison of all of it, as its one tag has it (DESIGN CHOICE, log 114); register poison written this way is persistent (07 R179), and residues
are generated (04 R113). -/
def Ctx.putReg (x : Ctx) (old : Word × Option Tag) (w : WordWrite) : Ctx :=
  let off := 8 * w.word
  let r := putWord old.1 old.2 w.val w.mask w.tag
  let v := r.1
  let p := r.2.map Poi.mem
  if off < 0x200 then x.setS (BitVec.ofNat 6 w.word) (.of v p)
  else if off < 0x208 then
    (List.range 8).foldl (fun x i =>
      if w.mask / 2 ^ i % 2 = 1 then x.setP (BitVec.ofNat 3 i) ⟨w.val.getLsbD (8 * i), w.tag.map Poi.mem⟩ else x) x
  else if off < 0x240 then x
  else if off < 0x340 then
    let n : QReg := BitVec.ofNat 3 ((off - 0x240) / 32)
    let i := (off - 0x240) % 32 / 8
    let o := x.qreg n
    x.setQ n ⟨BitVec.ofNat 256 (putBits o.v.toNat (64 * i) 64 v.toNat), p⟩
  else if off < 0x380 then if off < 0x340 then x else x.setM (BitVec.ofNat 3 ((off - 0x340) / 8)) ⟨v, p⟩
  else if off < 0x580 then
    let n : XReg := BitVec.ofNat 4 ((off - 0x380) / 32)
    let g := (off - 0x380) % 32 / 8
    let o := x.xreg n
    x.setX n ⟨BitVec.ofNat 256 (putBits o.v.toNat (64 * g) 64 v.toNat), poiSet o.p g p⟩
  else if off < 0x600 then x
  else if off < 0x6C0 then
    let i := (off - 0x600) / 32
    let e := mget .zero x.loops i
    let e := match (off - 0x600) % 32 / 8 with
      | 0 => { e with start := v.extractLsb' 0 32, stop := v.extractLsb' 32 32 }
      | 1 => { e with remaining := v.extractLsb' 0 32, index := v.extractLsb' 32 32 }
      | 2 => { e with obj := v.extractLsb' 0 8, exit := v.getLsbD 8 }
      | _ => e
    { x with loops := mset .zero x.loops i e }
  else if off < 0x700 then x
  else if off < 0x708 then { x with pc := v.setWidth 32 }
  else if off < 0x800 then x
  else if off < 0xC00 then
    let n : BitVec 12 := BitVec.ofNat 12 ((off - 0x800) / 8)
    { x with ctl := x.ctl.write n (if n = 0x012 then w.val &&& byteMask w.mask else v) }
  else if off < 0x2000 then x
  else
    let n : VReg := BitVec.ofNat 5 ((off - 0x2000) / 256)
    let g := (off - 0x2000) % 256 / 8
    let bits : VBits := BitVec.ofNat 2048 (w.val.toNat * 2 ^ (64 * g))
    let mask : QBits := BitVec.ofNat 256 (w.mask * 2 ^ (8 * g))
    let o := x.vreg n
    let np : SMap Poi := match w.tag with
      | some t => (if w.mask % 16 = 0 then [] else [(2 * g, Poi.mem t)]) ++
          (if w.mask / 16 = 0 then [] else [(2 * g + 1, Poi.mem t)])
      | none => []
    x.setV n (o.merge bits mask np)

/-- LANDLATE, word 0x118 of the window, written while a wait runs: only the cycles from now on are added to it (03 R71). -/
def Ctx.lateFrom (x : Ctx) (now w : Nat) : Ctx :=
  if w = 0x118 then { x with ctl := { x.ctl with landlate := x.ctl.landlate - BitVec.ofNat 64 (x.lateSoFar now) } } else x

/-- WKSTATE and WKFAULT issuer: context and core of a context number (09 R229). -/
def issuerBits (c : Nat) : Nat := c % 4 + coreOf c % 8 * 4

/-- Opcode of a walker command (09 R229). -/
def WkOp.opcode : WkOp → Nat
  | .wkapp => 4 | .wkwalk => 5 | .wkfix _ => 6

/-- Walker commands of a context that have not ended (09 R216). -/
def Walker.countOf (w : Walker) (c : Nat) : Nat :=
  (w.queue.filter fun q => q.ctx = c).length + (match w.running with | some q => b2n (q.ctx = c) | none => 0)

/-- One word of a cluster's engine window (08 R197, 09 R229) (DEDUCED, log 49). -/
def engWord (s : State) (clu w : Nat) : Word :=
  let off := 8 * w
  let wk := (s.cluster clu).walker
  if off < 0x400 then
    let ch := s.chan clu (off / 0x40)
    match off % 0x40 with
    | 0x00 => ch.head
    | 0x08 => BitVec.ofNat 64 (ch.owner.toNat * 2 ^ 16 + ch.cause.toNat * 2 ^ 8 + ch.heads.length * 4 + ch.state.toNat)
    | 0x10 => ch.faddr
    | 0x18 => BitVec.ofNat 64 ch.done
    | _ => 0
  else if off < 0x800 then 0
  else if off < 0x880 then (s.chan clu ((off - 0x800) / 8)).map.setWidth 64
  else if off = 0x1000 then
    BitVec.ofNat 64 ((match wk.running with
      | some q => issuerBits q.ctx * 2 ^ 32 + q.op.opcode * 2 ^ 24 + (if wk.waiting then 2 else 1)
      | none => 0) + wk.queue.length % 32 * 2 ^ 16 + wk.last.toNat * 2 ^ 8)
  else if off = 0x1008 then wk.tree
  else if off = 0x1010 then BitVec.ofNat 64 wk.pos
  else if off = 0x1018 then BitVec.ofNat 64 wk.done
  else if off = 0x1020 then BitVec.ofNat 64 (wk.faultIssuer.toNat * 2 ^ 16 + wk.faultCause.toNat)
  else if off = 0x1028 then wk.faultAddr
  else if 0x1040 ≤ off ∧ off < 0x1140 then
    let i := (off - 0x1040) / 8
    BitVec.ofNat 64 (wk.countOf (clu * 32 + i) % 8)
  else 0

/-- CTXCTL of a context (08 R209): its state; the command bits read zero. -/
def ctxctlWord (s : State) (c : Nat) : Word := BitVec.ofNat 64 ((s.ctx c).act.code * 16)

/-- One word of a window of a core (08 R189). -/
def State.winWord (s : State) (k kind w : Nat) : Word × Option Tag :=
  match kind with
  | 0 => s.mem.spadWord k w
  | 1 =>
    let a := s.accRead (k * 131072 + 2 * w)
    let b := s.accRead (k * 131072 + 2 * w + 1)
    (halves a.1 b.1, tmeet (ptag a.2) (ptag b.2))
  | 2 => regWord s (4 * k + w / 2048) (w % 2048)
  | 3 => ((mget 0 s.mem.dict (k * 4096 + w / 6)).extractLsb' (64 * (w % 6)) 64, mget none s.mem.dictPoison (k * 4096 + w / 6))
  | 4 =>
    if w < 2048 then
      ((mget 0 s.mem.ucode (k * 1024 + w / 2)).extractLsb' (64 * (w % 2)) 64, mget none s.mem.ucodePoison (k * 1024 + w / 2))
    else (halves (mget 0 s.mem.rtable (k * 256 + 2 * (w - 2048))) (mget 0 s.mem.rtable (k * 256 + 2 * (w - 2048) + 1)), none)
  | 5 =>
    let r := (s.ctx (4 * k + w / 64)).xreg (BitVec.ofNat 4 (w % 64 / 4))
    (r.v.extractLsb' (64 * (w % 4)) 64, ptag (poiAt r.p (w % 4)))
  | 6 => (engWord s (cluOf k) w, none)
  | 15 => if w = 0 then ((s.core k).grants, none) else if 8 ≤ w ∧ w < 12 then (ctxctlWord s (4 * k + (w - 8)), none) else (0, none)
  | _ => (0, none)

/-- Bytes of a window. -/
def State.readWin (s : State) (k kind off n : Nat) : List PByte := readBytes (s.winWord k kind) off n

/-- A channel reset by a supervisor write of state 0 (08 R197): idle, nothing queued (DEDUCED, log 85). -/
def Chan.clear (ch : Chan) : Chan := { ch with state := 0, heads := [], stop := false }

/-- GRANTS as written at supervisor privilege: valid and ctx bits (07 R185). -/
def grantsMask : Word := 0x8383838383838383

/-- Write one word of a window. CTXCTL is written by the operations of 08 R209; a dictionary entry and a micro-word hold
one poison tag each, which a write of one of their words replaces (DEDUCED, log 85, 106; DESIGN CHOICE, log 114). -/
def State.putWin (s : State) (k kind : Nat) (w : WordWrite) : State :=
  match kind with
  | 0 => s.modMem fun m => m.putSpad k w
  | 1 =>
    let i := k * 131072 + 2 * w.word
    let half (s : State) (j : Nat) : State :=
      let mk := w.mask / 2 ^ (4 * j) % 16
      if mk = 0 then s
      else
        let o := s.accRead (i + j)
        let v := w.val.extractLsb' (32 * j) 32
        if mk = 15 then s.accNow (i + j) v (w.tag.map Poi.mem)
        else
          let b : BitVec 32 := (byteMask mk).setWidth 32
          s.accNow (i + j) (if o.2.isSome then o.1 else (o.1 &&& ~~~b) ||| (v &&& b))
            (pmeet o.2 (w.tag.map Poi.mem))
    half (half s 0) 1
  | 2 =>
    let c := 4 * k + w.word / 2048
    s.modCtx c fun x => (x.written fun x => x.putReg (regWord s c (w.word % 2048)) { w with word := w.word % 2048 }).lateFrom s.cycle (w.word % 2048)
  | 3 =>
    let i := k * 4096 + w.word / 6
    let j := w.word % 6
    s.modMem fun m =>
      let o := mget 0 m.dict i
      let r := putWord (o.extractLsb' (64 * j) 64) (mget none m.dictPoison i) w.val w.mask w.tag
      { m with dict := mset 0 m.dict i (BitVec.ofNat 384 (putBits o.toNat (64 * j) 64 r.1.toNat))
               dictPoison := mset none m.dictPoison i r.2 }
  | 4 =>
    if w.word < 2048 then
      let i := k * 1024 + w.word / 2
      let j := w.word % 2
      s.modMem fun m =>
        let o := mget 0 m.ucode i
        let r := putWord (o.extractLsb' (64 * j) 64) (mget none m.ucodePoison i) w.val w.mask w.tag
        { m with ucode := mset 0 m.ucode i (BitVec.ofNat 128 (putBits o.toNat (64 * j) 64 r.1.toNat))
                 ucodePoison := mset none m.ucodePoison i r.2 }
    else
      let i := k * 256 + 2 * (w.word - 2048)
      s.modMem fun m =>
        let o := halves (mget 0 m.rtable i) (mget 0 m.rtable (i + 1))
        let r := (putWord o none w.val w.mask w.tag).1
        { m with rtable := mset 0 (mset 0 m.rtable i (r.extractLsb' 0 32)) (i + 1) (r.extractLsb' 32 32) }
  | 5 =>
    let c := 4 * k + w.word / 64
    s.modCtx c fun x =>
      let n : XReg := BitVec.ofNat 4 (w.word % 64 / 4)
      let g := w.word % 4
      let o := x.xreg n
      let r := putWord (o.v.extractLsb' (64 * g) 64) (ptag (poiAt o.p g)) w.val w.mask w.tag
      x.written fun x => x.setX n ⟨BitVec.ofNat 256 (putBits o.v.toNat (64 * g) 64 r.1.toNat), poiSet o.p g (r.2.map Poi.mem)⟩
  | 6 =>
    let off := 8 * w.word
    let clu := cluOf k
    if off < 0x400 ∧ off % 0x40 = 0x08 then
      s.modChan clu (off / 0x40) fun ch =>
        let ch := if bitAt w.mask 2 then { ch with owner := w.val.extractLsb' 16 8 &&& 0x1F } else ch
        if bitAt w.mask 0 ∧ w.val.extractLsb' 0 2 = 0 then ch.clear else ch
    else if 0x800 ≤ off ∧ off < 0x880 then
      if bitAt w.mask 0 then s.modChan clu ((off - 0x800) / 8) fun ch => { ch with map := w.val.extractLsb' 0 8 &&& 0x8F }
      else s
    else s
  | 15 =>
    if w.word = 0 then s.modCore k fun x => { x with grants := (putWord x.grants none w.val w.mask none).1 &&& grantsMask }
    else s
  | _ => s

/-- Write bytes of a window and let its monitors see it. -/
def State.writeWin (s : State) (k kind off : Nat) (b : List PByte) : State :=
  ((splitWords [] off b).reverse.foldl (fun s w => s.putWin k kind w) s).hitMonitors (.win k kind off) none

/-- Bytes at a target, as launch `h` sees them. A fabric line is the home's: what the fabric returned for it is given by
the free values of log 18 (DESIGN CHOICE, log 18). -/
def State.readT (s : State) (h : Option Hall) (t : Target) (n : Nat) : List PByte :=
  match t with
  | .mem pa key => s.readMem h pa key n
  | .win k kind off => s.readWin k kind off n
  | .fabric i pa => (List.range n).map fun j =>
    (Config.homeByte i (pa + j) s.cycle s.fresh, Config.homePoison i ((pa + j) / 8) s.cycle s.fresh)
  | .mgmt _ => clean (List.replicate n 0)

/-- Write bytes at a target. -/
def State.writeT (s : State) (h : Option Hall) (t : Target) (b : List PByte) : State :=
  match t with
  | .mem pa key => s.writeMem h pa key b
  | .win k kind off => s.writeWin k kind off b
  | _ => s

end Sys2Proof.Machine
end

