-- ==== Sys2Proof/Machine/Translate.lean ====
section
/-! DEFINITION. Translation (12 R238–R242), the windows (08 R187–R189) and who may reach what (05 R133, 07 R185,
12 R241, 23 R361). -/

namespace Sys2Proof.Machine

open Sys2Proof

/-- Who makes an access: at supervisor or management privilege or not, its partition, its launch, the core whose TLB
and windows are its own, whether an engine makes it. -/
structure Who where
  sup : Bool
  part : Option (Fin 64)
  hall : Option Hall
  core : Nat
  engine : Bool
  deriving DecidableEq, Repr

/-- A context as the maker of an access. -/
def State.who (s : State) (c : Nat) : Who :=
  let x := s.ctx c
  if x.ctl.priv = 0 then ⟨false, s.partOf c, x.hall, coreOf c, false⟩ else ⟨true, none, none, coreOf c, false⟩

/-- An engine acting for the launch of a context. -/
def State.engine (s : State) (c : Nat) : Who := ⟨false, s.partOf c, (s.ctx c).hall, coreOf c, true⟩

/-- The host acting for a partition (12 R238). -/
def hostWho (p : Fin 64) : Who := ⟨false, some p, none, 0, true⟩

/-- What an access does, as far as permissions go. -/
inductive AMode where
  | read
  | write
  | atomic (op : AtomicOp) (bytes : Nat) (fetching : Bool)
  | fetch
  deriving DecidableEq, Repr

/-! ## Page tables (12 R239, R240) -/

/-- The TRROOT or TRSUP word an access translates through: none when it has no table. -/
def State.rootOf (s : State) (w : Who) : Option Word :=
  if w.sup then some s.tr.trsup else w.part.map fun p => mget 0 s.tr.trroot p.val

/-- Outcome of a walk. -/
inductive Walk where
  | fault (t : Trap)
  | ok (e : Tlb)
  deriving DecidableEq, Repr

/-- A TRANSLATE fault at an address (DEDUCED, log 87). -/
def Walk.bad (va : Word) : Walk := .fault ⟨.translate, va, 0, none⟩

/-- Walk from table address `t` at level `lvl` down (12 R240) (DEDUCED, log 87). -/
def walkFrom (s : State) (w : Who) (va : Word) : Nat → Nat → Walk
  | 0, _ => .bad va
  | lvl + 1, t =>
    let b := s.readMem none (t + 8 * bitsAt va.toNat (9 * (lvl + 1) + 3) 9) 0 8
    let e := valOf b
    match tagOf b with
    | some g => .fault ⟨.poisonConsumed, va, 0, some (.mem g)⟩
    | none =>
      if bitsAt e 0 1 = 0 ∨ bitsAt e 48 4 ≠ 0 ∨ bitsAt e 11 1 ≠ 0 ∨ bitsAt e 39 9 ≠ 0 then .bad va
      else if bitsAt e 1 1 = 0 then
        if lvl = 0 ∨ bitsAt e 2 5 ≠ 0 ∨ bitsAt e 52 12 ≠ 0 then .bad va
        else walkFrom s w va lvl (bitsAt e 12 36 * 4096)
      else
        let pg64 := bitAt e 6
        if lvl = 3 ∨ (pg64 ∧ lvl ≠ 0) then .bad va
        else
          let size := if lvl = 2 then 2 ^ 30 else if lvl = 1 then 2 ^ 21 else if pg64 then 2 ^ 16 else 2 ^ 12
          let pa := bitsAt e 12 36 * 4096
          if pa % size ≠ 0 then .bad va
          else .ok ⟨w.core, if w.sup then none else w.part, BitVec.ofNat 64 (va.toNat / size * size), size, pa,
            bitAt e 2, bitAt e 3, bitAt e 4, bitAt e 5, fld e 52 12⟩

/-- The walk of an address (12 R240): a table that is not enabled faults TRANSLATE (12 R244) (DEDUCED, log 19). -/
def walkVA (s : State) (w : Who) (va : Word) : Walk :=
  match s.rootOf w with
  | none => .bad va
  | some r => if r.getLsbD 0 then walkFrom s w va 4 (bitsAt r.toNat 12 36 * 4096) else .bad va

/-- Does a TLB entry translate the address for this maker? -/
def Tlb.hits (e : Tlb) (w : Who) (va : Word) : Bool :=
  e.site = w.core && e.part = (if w.sup then none else w.part) && (w.sup || w.part.isSome) &&
    decide (e.base.toNat ≤ va.toNat) && decide (va.toNat < e.base.toNat + e.size)

/-! ## Addresses (12 R238, 08 R187, R188) -/

/-- A canonical 48-bit address. -/
def canonical (va : Word) : Bool := va.toNat / 2 ^ 47 = 0 || va.toNat / 2 ^ 47 = 2 ^ 17 - 1

/-- In the on-chip window range. -/
def inWindows (va : Word) : Bool := va.toNat / 2 ^ 44 = 1

/-- Size of a window kind; 0 for a reserved kind (08 R189). -/
def windowSize : Nat → Nat
  | 0 => 0x80000 | 1 => 0x80000 | 2 => 0x10000 | 3 => 0x30000 | 4 => 0x4400 | 5 => 0x800 | 6 => 0x10000 | 15 => 0x1000
  | _ => 0

/-- The physical cluster a window address names (08 R188). -/
def State.clusterOf (s : State) (w : Who) (die clu : Nat) : Option Nat :=
  if w.sup then some (8 * die + clu)
  else
    match w.hall.bind s.launch with
    | none => none
    | some l =>
      let k := 2 ^ l.lk
      if clu < k ∧ die * k + clu < l.clusters.length then l.clusters[die * k + clu]? else none

/-- The window an address names, or none: TRANSLATE. -/
def State.windowOf (s : State) (w : Who) (va : Word) : Option Target :=
  let a := va.toNat
  let kind := bitsAt a 24 4
  let off := bitsAt a 0 24
  if bitsAt a 38 6 ≠ 0 ∨ bitsAt a 35 1 ≠ 0 ∨ bitsAt a 31 1 ≠ 0 ∨ windowSize kind ≤ off then none
  else if kind = 6 ∧ bitsAt a 28 3 ≠ 0 then none
  else (s.clusterOf w (bitsAt a 36 2) (bitsAt a 32 3)).map fun q => .win (8 * q + bitsAt a 28 3) kind off

/-- The reduction window an address lies in, if one is in force (23 R360). -/
def frwinFind (pa : Nat) : List (Nat × Word × Word) → Option (Nat × Word)
  | [] => none
  | (i, a, b) :: t =>
    if a.getLsbD 63 ∧ bitsAt a.toNat 58 4 ≤ 3 ∧ 2 ≤ bitsAt a.toNat 56 2 ∧ bitsAt b.toNat 0 23 ≤ pa / 65536
      ∧ pa / 65536 ≤ bitsAt b.toNat 23 23 then some (i, a) else frwinFind pa t

/-- The reduction window of a physical address. -/
def State.frwin (s : State) (pa : Nat) : Option (Nat × Word) := frwinFind pa s.fab.frwin

/-- Is this package the home of a window word? -/
def frHome (a : Word) : Bool := a.getLsbD 62

/-- Permissions of what an address resolved to. -/
structure Perm where
  r : Bool
  w : Bool
  x : Bool
  u : Bool
  deriving DecidableEq, Repr

/-- What an address resolves to. -/
inductive XRes where
  | fault (t : Trap)
  | miss
  | ok (t : Target) (p : Perm)
  deriving DecidableEq, Repr

/-- A TRANSLATE fault. -/
def XRes.bad (va : Word) : XRes := .fault ⟨.translate, va, 0, none⟩

/-- Key check (12 R241 check 3) (DEDUCED, log 88). -/
def Trans.keyOk (t : Trans) (w : Who) (key : BitVec 12) : Bool :=
  if key = 0 then true
  else
    let k := mget .zero t.keys key.toNat
    k.loaded && (w.sup || k.shared || (w.part.map fun p => p.val) == some k.owner.toNat)

/-- The target of an address under a leaf translation. A fabric target carries no key: a page whose key the maker may not
use gives no permission there. -/
def State.leaf (s : State) (w : Who) (e : Tlb) (va : Word) : XRes :=
  let pa := e.pa + va.toNat % e.size
  let p : Perm := ⟨e.r, e.w, e.x, e.u⟩
  match s.frwin pa with
  | some (i, a) =>
    if frHome a then .ok (.mem pa e.key) p
    else .ok (.fabric i pa) (if s.tr.keyOk w e.key then p else ⟨false, false, false, false⟩)
  | none => .ok (.mem pa e.key) p

/-- Resolve an address as a context does: through its core's TLB. -/
def State.resolve (s : State) (w : Who) (va : Word) : XRes :=
  if !canonical va then .bad va
  else if inWindows va then
    match s.windowOf w va with
    | some t => .ok t ⟨true, true, false, true⟩
    | none => .bad va
  else
    match s.tr.tlb.find? fun e => e.hits w va with
    | some e => s.leaf w e va
    | none => .miss

/-- Where a management-space offset lies (21 R324). -/
inductive SpaceBlock where
  | system (off : Nat)
  | trans (off : Nat)
  | queue (n i : Nat)
  | share (p : Nat)
  | capture (d u off : Nat)
  | cool (off : Nat)
  | errors (u i w : Nat)
  | priv (off : Nat)
  | empty
  | outside
  deriving DecidableEq, Repr

/-- The block of an offset. -/
def blockOf (off : Nat) : SpaceBlock :=
  if off < 0x10000 then .system off
  else if off < 0x20000 then .trans (off - 0x10000)
  else if 0x100000 ≤ off ∧ off < 0x108000 then .queue ((off - 0x100000) / 32) ((off - 0x100000) % 32 / 8)
  else if 0x108000 ≤ off ∧ off < 0x108200 then .share ((off - 0x108000) / 8)
  else if 0x108200 ≤ off ∧ off < 0x110000 then .empty
  else if 0x200000 ≤ off ∧ off < 0x210000 then
    let o := off - 0x200000
    .capture (o / 0x4000) (o % 0x4000 / 0x100) (o % 0x100)
  else if 0x300000 ≤ off ∧ off < 0x310000 then .cool (off - 0x300000)
  else if 0x400000 ≤ off ∧ off < 0x420000 then
    let o := off - 0x400000
    .errors (o / 0x400) (o % 0x400 / 32) (o % 32 / 8)
  else if 0x10000000 ≤ off ∧ off < 0x20000000 then .priv (off - 0x10000000)
  else .outside

/-- First address of management space. -/
def mgmtBase : Nat := 0xFFFF800000000000

/-- An address of management space, at management privilege: it is not translated (21 R324). -/
def inMgmt (va : Word) : XRes :=
  if blockOf (va.toNat - mgmtBase) = .outside then .bad va else .ok (.mgmt (va.toNat - mgmtBase)) ⟨true, true, false, false⟩

/-- Resolve an address for a bundle of context `c`: at management privilege in management space, else through the tables; a
walk that failed for it answers its fault. -/
def State.resolveFor (s : State) (c : Nat) (w : Who) (va : Word) : XRes :=
  match (s.ctx c).walk.find? fun e => e.1 == va with
  | some e => .fault e.2
  | none => if (s.ctx c).ctl.priv = 2 ∧ mgmtBase ≤ va.toNat then inMgmt va else s.resolve w va

/-- Resolve an address as an engine or the host does: a walk of its own (log 19). -/
def State.resolveWalk (s : State) (w : Who) (va : Word) : XRes :=
  match s.resolve w va with
  | .ok (.win k kind off) p => .ok (.win k kind off) p
  | .fault t => .fault t
  | _ =>
    match walkVA s w va with
    | .fault t => .fault t
    | .ok e => s.leaf w e va

/-! ## Minimum lands (02 R55) -/

/-- The least land of the path to a target from a core: every own-core window is of the first row, the own cluster's engine
registers of the second; management space, for which the table has no row, takes the last row's (DESIGN CHOICE, log 114). -/
def minLand (core : Nat) : Target → Nat
  | .win k kind _ => if k = core ∧ kind ≠ 6 then 6 else if cluOf k = cluOf core then 24 else 96
  | .mem _ _ => 140
  | .fabric _ _ => 400
  | .mgmt _ => 400

/-! ## Permission (05 R133 check 5) -/

/-- The context of a core that belongs to a launch. -/
def State.member (s : State) (k : Nat) (h : Option Hall) : Option Nat :=
  if h.isNone then none else ([0, 1, 2, 3].map (4 * k + ·)).find? fun c => (s.ctx c).hall = h

/-- Do a context and an access belong to one launch? -/
def State.sameLaunch (s : State) (w : Who) (c : Nat) : Bool := w.hall.isSome && (s.ctx c).hall = w.hall

/-- Granule access (07 R185). -/
def State.granuleOk (s : State) (w : Who) (k off : Nat) : Bool :=
  let g := (s.core k).grants.toNat / 2 ^ (8 * (off / 65536))
  bitAt g 7 && s.sameLaunch w (4 * k + g % 4)

/-- Do bytes `off … off + n − 1` of the microprogram store lie in the own grant (08 R189, 06 R149)? -/
def State.ucodeOk (s : State) (w : Who) (k off n : Nat) : Bool :=
  match s.member k w.hall with
  | none => false
  | some c =>
    let g := (s.ctx c).grant
    if off + n ≤ 0x4000 then decide (g.uwFirst ≤ off / 16) && decide ((off + n - 1) / 16 < g.uwFirst + g.uwCount)
    else decide (0x4000 ≤ off) && decide (g.reFirst ≤ (off - 0x4000) / 4) &&
      decide ((off + n - 1 - 0x4000) / 4 < g.reFirst + g.reCount)

/-- Window access of `n` bytes at user privilege (08 R189). -/
def State.windowOk (s : State) (w : Who) (m : AMode) (k kind off n : Nat) : Bool :=
  match kind with
  | 0 => s.granuleOk w k off
  | 1 => s.sameLaunch w (4 * k + off / 0x20000)
  | 2 => s.sameLaunch w (4 * k + off / 0x4000) && (off % 0x4000 < 0x600 || 0x2000 ≤ off % 0x4000)
  | 3 => m == .read
  | 4 => m == .read && s.ucodeOk w k off n
  | 5 => s.sameLaunch w (4 * k + off / 0x200)
  | 15 => m == .read
  | _ => false

/-- Does the PA lie in a valid reserved range (12 R241, R244)? -/
def Trans.reserved (t : Trans) (pa : Nat) : Bool :=
  [0, 1, 2, 3].any fun i =>
    let r := (mget 0 t.rsv i).toNat
    bitAt r 63 && decide (bitsAt r 0 23 ≤ pa / 65536) && decide (pa / 65536 ≤ bitsAt r 23 23)

/-- Page permissions. -/
def AMode.allowed (m : AMode) (p : Perm) : Bool :=
  match m with
  | .read => p.r
  | .write => p.w
  | .atomic _ _ _ => p.r && p.w
  | .fetch => p.x

/-- The operation a window contributes with (23 R361). -/
def frOp (a : Word) : AtomicOp :=
  match bitsAt a.toNat 58 4 with
  | 0 => .add | 1 => .min | 2 => .max | _ => .minu

/-- May an atomic contribute to the reduction window (23 R361)? A fetching one, AXCHG and ACAS pass here and fault
WINDOW_FETCH at the next check. -/
def frAtomicOk (a : Word) : AMode → Bool
  | .atomic .xchg _ _ => true
  | .atomic .cas _ _ => true
  | .atomic op bytes fetching => fetching || (op == frOp a && bytes == 2 ^ bitsAt a.toNat 56 2)
  | _ => true

/-- PROTECT step: may the access of `n` bytes be made? An atomic reaches no window but the scratchpads: 05 R132 names no
other home (DEDUCED, log 88; DESIGN CHOICE, log 114). -/
def State.permitted (s : State) (w : Who) (m : AMode) (t : Target) (n : Nat) (p : Perm) : Bool :=
  match t with
  | .win k kind off =>
    (match m with | .atomic _ _ _ => decide (kind = 0) | .fetch => false | _ => true) && (w.sup || s.windowOk w m k kind off n)
  | .mem pa key =>
    (w.sup || p.u) && m.allowed p && s.tr.keyOk w key && !s.tr.reserved pa &&
      (match s.frwin pa with | some (_, a) => frAtomicOk a m | none => true)
  | .fabric i pa =>
    (w.sup || p.u) && m.allowed p && !s.tr.reserved pa &&
      (match m with
        | .write => false
        | .atomic _ _ _ => frAtomicOk (mget (0, 0) s.fab.frwin i).1 m
        | _ => true)
  | .mgmt _ => w.sup && (match m with | .fetch => false | _ => true)

/-- Check 6 of 05 R133: a fetching atomic, AXCHG or ACAS to the reduction window. -/
def State.windowFetch (s : State) (m : AMode) (t : Target) : Bool :=
  (match m with
    | .atomic .xchg _ _ => true
    | .atomic .cas _ _ => true
    | .atomic _ _ f => f
    | _ => false) &&
  (match t with
    | .mem pa _ => (s.frwin pa).isSome
    | .fabric _ _ => true
    | _ => false)

/-- An engine's or the host's access to `n` bytes of one line: their target, or the fault (DEDUCED, log 19). -/
def State.engineTarget (s : State) (w : Who) (m : AMode) (va : Word) (n : Nat) : Except Trap Target :=
  match s.resolveWalk w va with
  | .fault t => .error t
  | .miss => .error ⟨.translate, va, 0, none⟩
  | .ok t p => if s.permitted w m t n p then .ok t else .error ⟨.protect, va, 0, none⟩

/-- The reduction window a target lies in. -/
def State.windowAt (s : State) : Target → Option (Nat × Nat)
  | .mem pa _ => (s.frwin pa).map fun e => (e.1, pa)
  | .fabric i pa => some (i, pa)
  | _ => none

/-! ## Key commands in progress (12 R246) -/

/-- Does a key command in progress hold up the target (12 R246)? (DEDUCED, log 75). -/
def State.keyBusy (s : State) (t : Target) : Bool :=
  match s.tr.keyPending, t with
  | some v, .mem _ k => k != 0 && k == v.extractLsb' 4 12
  | _, _ => false

/-- The key command in progress ends (DEDUCED, log 75). -/
def State.endKey (s : State) : State := { s with tr := { s.tr with keyPending := none, keyst := s.tr.keyst &&& 2 } }

/-- An engine or the host waits for a command on the key it is to use: the command has ended when it goes on (12 R246)
(DEDUCED, log 75). -/
def State.awaitKey (s : State) (t : Target) : State := if s.keyBusy t then s.endKey else s

/-! ## Runs of bytes by address, for engines -/

/-- Pieces of `va … va + n − 1` that do not cross a 64-byte line; `k` bounds their number. -/
def linePieces : Nat → Word → Nat → List (Word × Nat)
  | 0, _, _ => []
  | k + 1, va, n =>
    if n = 0 then []
    else
      let m := min n (64 - va.toNat % 64)
      (va, m) :: linePieces k (va + BitVec.ofNat 64 m) (n - m)

/-- Number of pieces `linePieces` needs. -/
def pieceCount (n : Nat) : Nat := n / 64 + 2

/-- Targets of a run of bytes, or the first fault. -/
def State.engineTargets (s : State) (w : Who) (m : AMode) (va : Word) (n : Nat) : Except Trap (List (Target × Nat)) :=
  (linePieces (pieceCount n) va n).mapM fun e => (s.engineTarget w m e.1 e.2).map fun t => (t, e.2)

/-- Lines read enter the launch's signature when the target is global. -/
def State.noteT (s : State) (h : Option Hall) (t : Target) (n : Nat) : State :=
  match t with
  | .mem pa _ => s.noteRead h pa n
  | _ => s

/-- Read resolved pieces as a launch sees them; global lines enter its signature. -/
def State.readRun (s : State) (h : Option Hall) (l : List (Target × Nat)) : State × List PByte :=
  l.foldl (fun a e => ((a.1.awaitKey e.1).noteT h e.1 e.2, a.2 ++ a.1.readT h e.1 e.2)) (s, [])

/-- Write resolved pieces. -/
def State.writeRun (s : State) (h : Option Hall) : List (Target × Nat) → List PByte → State
  | [], _ => s
  | e :: t, b => ((s.awaitKey e.1).writeT h e.1 (b.take e.2)).writeRun h t (b.drop e.2)

/-- An engine's read of a run of bytes. -/
def State.engineRead (s : State) (w : Who) (va : Word) (n : Nat) : Except Trap (State × List PByte) :=
  (s.engineTargets w .read va n).map fun l => s.readRun w.hall l

/-- An engine's write of a run of bytes. -/
def State.engineWrite (s : State) (w : Who) (va : Word) (b : List PByte) : Except Trap State :=
  (s.engineTargets w .write va b.length).map fun l => s.writeRun w.hall l b

end Sys2Proof.Machine
end

