-- ==== Sys2Proof/Machine/SpaceRead.lean ====
section
/-! DEFINITION. How management space reads: the registers of the package as words, and management-private memory (12 R243–R246,
14 R274, 21 R324, R325, R330, R338, 22 R347–R349, 23 R359, R360, R372). -/

namespace Sys2Proof.Machine

open Sys2Proof

/-- Keep bits [lo + n − 1 : lo] of a word. -/
def keep (w : Word) (lo n : Nat) : Nat := bitsAt w.toNat lo n * 2 ^ lo

/-- Physical address of an offset of management-private memory, the range of RSV.0. -/
def State.privPa (s : State) (off : Nat) : Option Nat :=
  let r := (mget 0 s.tr.rsv 0).toNat
  let pa := bitsAt r 0 23 * 65536 + off
  if bitAt r 63 ∧ pa / 65536 ≤ bitsAt r 23 23 ∧ off < 0x10000000 then some pa else none

/-- Code of a zone's state (22 R347, R353). -/
def ZState.code : ZState → Nat
  | .dry => 0 | .filled => 1 | .withdrawn => 2 | .quiesce => 3 | .gated => 4 | .inletShut => 5 | .purge => 6 | .outletShut => 7
  | .refill => 8 | .bleed => 9 | .fault => 10

/-- Σ CLALLOC.step. -/
def State.stepSum (s : State) : Nat := (s.cool.zones.map fun e => e.2.step.toNat).sum

/-- CLALLOC.z as read. -/
def Zone.word (z : Zone) : Nat :=
  z.state.code * 2 ^ 28 + z.inuse.toNat * 2 ^ 24 + b2n z.any * 2 ^ 23 + b2n z.ov * 2 ^ 22 + z.owner.toNat * 2 ^ 16 + z.step.toNat

/-- A port's register as read. -/
def Port.word (p : Port) : Nat :=
  p.sw.toNat * 2 ^ 32 + p.replays.toNat * 2 ^ 24 + p.lanes.toNat * 2 ^ 8 + b2n p.en * 8 + p.state.toNat

/-- A capture unit. -/
def State.capture (s : State) (d u : Nat) : Capture := mget .zero (s.die d).captures u

/-- A word of a capture unit. -/
def Capture.word (u : Capture) (off : Nat) : Word :=
  match off with
  | 0x00 => u.ctl
  | 0x08 => u.min
  | 0x10 => u.max
  | 0x18 => u.count
  | 0x20 => u.sum
  | _ => if 0x80 ≤ off ∧ off < 0x100 then halves (mget 0 u.bins ((off - 0x80) / 4)) (mget 0 u.bins ((off - 0x80) / 4 + 1)) else 0

/-- The words of a queue descriptor as read. -/
def Queue.word (q : Queue) (i : Nat) : Nat :=
  match i with
  | 0 => q.base.toNat
  | 1 => q.tail.toNat
  | 2 => q.head.toNat * 2 ^ 32 + q.part.toNat * 2 ^ 10 + q.lsize.toNat * 2 ^ 5 + b2n q.dev * 2 + b2n q.en
  | _ => q.dtail.toNat

/-- HBSTATE of a die. -/
def State.hbState (s : State) (d : Nat) : Nat :=
  ((List.range 64).map fun i => b2n (s.core (64 * d + i)).stopped * 2 ^ i).sum

/-- The latest record of an error log's place. -/
def State.errAt (s : State) (u i : Nat) : Option ErrRec := s.mgmt.errors.reverse.find? fun e => e.unit.toNat == u && e.index.toNat == i

/-- A word of an error record (21 R330). -/
def ErrRec.word (e : ErrRec) (i : Nat) : Word :=
  match i with
  | 0 => BitVec.ofNat 64 (e.rewinds.toNat * 256 + e.kind.toNat)
  | 1 => BitVec.ofNat 64 e.time
  | 2 => e.place
  | _ => e.syn

/-- A word of the system control block. -/
def State.sysWord (s : State) (off : Nat) : Word :=
  if off = 0 then s.mgmt.hbPeriod.setWidth 64
  else if 0x08 ≤ off ∧ off < 0x28 then BitVec.ofNat 64 (s.hbState ((off - 8) / 8))
  else if off = 0x40 then s.mgmt.svc.setWidth 64
  else if 0x100 ≤ off ∧ off < 0x180 then BitVec.ofNat 64 (s.port ((off - 0x100) / 8)).word
  else if 0x180 ≤ off ∧ off < 0x1C0 then
    let w := mget (0, 0) s.fab.frwin ((off - 0x180) / 16)
    if off % 16 = 0 then w.1 else w.2
  else if 0x1C0 ≤ off ∧ off < 0x240 then
    let x := mget .zero s.fab.cxslots ((off - 0x1C0) / 8)
    BitVec.ofNat 64 (x.gen.toNat * 256 + b2n x.valid * 128 + b2n x.ov * 64 + x.owner.toNat)
  else 0

/-- A word of the translation block. -/
def Trans.word (t : Trans) (off : Nat) : Word :=
  if off < 0x200 then mget 0 t.trroot (off / 8)
  else if off = 0x200 then t.trsup
  else if off = 0x208 then t.trinv
  else if off = 0x210 then BitVec.ofNat 64 (b2n t.inv.isNone)
  else if off = 0x218 then t.keysrc
  else if off = 0x220 then t.keycmd
  else if off = 0x228 then t.keyst.setWidth 64
  else if 0x240 ≤ off ∧ off < 0x260 then mget 0 t.rsv ((off - 0x240) / 8)
  else 0

/-- A word of the coolant block (PRESUMED, log 30). -/
def State.coolWord (s : State) (off : Nat) : Word :=
  if off < 0x140 then BitVec.ofNat 64 (s.zone (off / 8)).word
  else if 0x200 ≤ off ∧ off < 0x480 then
    -- CLPUMP and the first word of CLSENS.32 are given one address; it reads CLPUMP (log 30)
    if off = 0x400 then
      BitVec.ofNat 64 (b2n s.cool.refused * 2 ^ 63 + s.cool.avail.toNat * 2 ^ 32 + s.stepSum * 2 ^ 16 + s.cool.budget.toNat)
    else
      let z := s.zone ((off - 0x200) / 16)
      if off % 16 = 0 then BitVec.ofNat 64 (z.dp.toNat * 2 ^ 48 + z.tout.toNat * 2 ^ 32 + z.tin.toNat * 2 ^ 16 + z.flow.toNat)
      else z.cond.setWidth 64
  else 0

/-- The word at an 8-byte aligned offset; none outside every block (DEDUCED, log 106). -/
def State.mgmtWord (s : State) (off : Nat) : Option (Word × Option Tag) :=
  match blockOf off with
  | .system o => some (s.sysWord o, none)
  | .trans o => some (s.tr.word o, none)
  | .queue n i => some (BitVec.ofNat 64 ((s.queue n).word i), none)
  | .share p => some ((mget 0 s.sched.pshare p).setWidth 64, none)
  | .capture d u o => some ((s.capture d u).word o, none)
  | .cool o => some (s.coolWord o, none)
  | .errors u i w => some ((match s.errAt u i with | some e => e.word w | none => 0), none)
  | .priv o => (s.privPa o).map fun pa => let b := s.readMem none pa 0 8; (BitVec.ofNat 64 (valOf b), tagOf b)
  | .empty => some (0, none)
  | .outside => none

/-- Bytes of management space; where private memory is not there they read zero (DEDUCED, log 106). -/
def State.mgmtBytes (s : State) (off n : Nat) : List PByte := readBytes (fun w => (s.mgmtWord (8 * w)).getD (0, none)) off n

/-- Bytes at any target, management space among them. -/
def State.readAny (s : State) (h : Option Hall) (t : Target) (n : Nat) : List PByte :=
  match t with
  | .mgmt o => s.mgmtBytes o n
  | t => s.readT h t n

/-- The management core writes bytes in management-private memory, when that range holds them. -/
def State.writePriv (s : State) (off : Nat) (b : List PByte) : State :=
  match s.privPa off, s.privPa (off + b.length - 1) with
  | some pa, some _ => s.writeMem none pa 0 b
  | _, _ => s

end Sys2Proof.Machine
end

