-- ==== Sys2Proof/Machine/Records.lean ====
section
/-! DEFINITION. Launch records in their queues (14 R272–R275): where they lie, how the scheduler reads them and writes
the fields marked S. Everything the scheduler writes is a write outside every launch (13 R262). -/

namespace Sys2Proof.Machine

open Sys2Proof

/-! ## Error records (21 R329, R330) -/

/-- Wall cycles of a microsecond at a service level (00 R2, 21 R325) (DEDUCED, log 2). -/
def cyclesPerUs (svc : BitVec 2) : Nat := if svc = 2 then 1100 else 550

/-- Wall time of `n` cycles at a service level, in cycles of 1.1 GHz (DEDUCED, log 2). -/
def wallOf (svc : BitVec 2) (n : Nat) : Nat := n * (1100 / cyclesPerUs svc)

/-- Wall time in µs since package reset: every cycle at the clock that was in force in it (00 R2) (DEDUCED, log 2). -/
def State.micros (s : State) : Nat := s.wall / 1100

/-- A poison tag of a unit and a record index (01 R25). -/
def mkTag (unit : BitVec 7) (rec : BitVec 5) : Tag := unit ++ rec

/-- Unit number of a unit of a die. -/
def dieUnit (d u : Nat) : BitVec 7 := BitVec.ofNat 7 (32 * d + u)

/-- Next record index of a unit's log. -/
def State.nextRec (s : State) (u : BitVec 7) : BitVec 5 := mget 0 (s.die (u.toNat / 32)).errNext u.toNat

/-- Open an error record with a rewind count. -/
def State.openErrorAt (s : State) (u : BitVec 7) (kind rewinds : Nat) (place syn : Word) : State :=
  let i := s.nextRec u
  let s := s.modDie (u.toNat / 32) fun d => { d with errNext := mset 0 d.errNext u.toNat (i + 1) }
  s.modMgmt fun m => { m with errors := m.errors ++ [⟨u, i, BitVec.ofNat 8 kind, BitVec.ofNat 8 rewinds, s.micros, place, syn, false⟩] }

/-- Open an error record. -/
def State.openError (s : State) (u : BitVec 7) (kind : Nat) (place syn : Word) : State := s.openErrorAt u kind 0 place syn

/-- Unit number of the arrays of a core's cluster (21 R329). -/
def coreUnit (k : Nat) : BitVec 7 := dieUnit (dieOf k) (cluOf k % 8)

/-- A unit writes poison: the record of it, and the tag. -/
def State.newPoison (s : State) (u : BitVec 7) (place : Word) : State × Tag :=
  (s.openError u 3 place 0, mkTag u (s.nextRec u))

/-! ## Core snapshots (21 R328) -/

/-- Words of a snapshot of core `k`, without those that are zero. -/
def State.snapWords (s : State) (k cause : Nat) : SMap (Word × Option Tag) :=
  let head : SMap (Word × Option Tag) := [(0, (BitVec.ofNat 64 (k + cause * 2 ^ 16), none)), (1, (BitVec.ofNat 64 s.micros, none))]
  let halls : SMap (Word × Option Tag) := (List.range 4).map fun i =>
    (2 + i, (((s.ctx (4 * k + i)).hall.getD 0).setWidth 64, none))
  let ctl : SMap (Word × Option Tag) := (List.range 512).map fun i => (32 + i, s.winWord k 15 i)
  let regs : SMap (Word × Option Tag) := (List.range 8192).map fun i => (544 + i, s.winWord k 2 i)
  (head ++ halls ++ ctl ++ regs).filter fun e => e.2 != (0, none)

/-- The bytes of a snapshot as they stand in memory: 8,736 words. -/
def Snapshot.bytes (x : Snapshot) : List PByte :=
  (List.range 8736).flatMap fun i => let w := mget (0, none) x.words i; taggedBytes 8 w.1.toNat w.2

/-- What a snapshot of core `k` taken now holds. -/
def State.snapOf (s : State) (k cause : Nat) : Snapshot := ⟨s.snapWords k cause⟩

/-- A snapshot is written in management-private memory, at the place the firmware gives the slot it takes of 16 in turn; the last
16 are kept (DESIGN CHOICE, log 115). -/
def State.keepSnap (s : State) (x : Snapshot) : State :=
  (s.writePriv (Config.snapshotAt (s.mgmt.snapSeq % 16)) x.bytes).modMgmt fun m =>
    let l := m.snapshots ++ [x]
    { m with snapshots := l.drop (l.length - 16), snapSeq := m.snapSeq + 1 }

/-! ## Queues -/

/-- Partition of a queue. -/
def Queue.owner (q : Queue) : Fin 64 := ⟨q.part.toNat % 64, Nat.mod_lt _ (by decide)⟩

/-- Address of record `n` of a queue (14 R275). -/
def Queue.recAddr (q : Queue) (n : Nat) : Word :=
  BitVec.ofNat 64 (q.base.toNat + 128 * (n % 2 ^ q.lsize.toNat))

/-- Bytes at an address of a partition's space as the scheduler reads them: committed values. -/
def State.hostBytes (s : State) (p : Fin 64) (va : Word) (n : Nat) : Option (List PByte) :=
  match s.engineRead (hostWho p) va n with
  | .ok r => some r.2
  | .error _ => none

/-- A read of a partition's memory by the scheduler or the management core waits for a command on the key it is to use (12 R246)
(DEDUCED, log 75). -/
def State.awaitAt (s : State) (p : Fin 64) (va : Word) (n : Nat) : State :=
  match s.engineTargets (hostWho p) .read va n with
  | .ok l => l.foldl (fun s e => s.awaitKey e.1) s
  | .error _ => s

/-- Write bytes at an address of a partition's space outside every launch; an address that cannot be reached is left
alone (log 20) (DESIGN CHOICE, log 20). -/
def State.hostPut (s : State) (p : Fin 64) (va : Word) (b : List PByte) : State :=
  match s.engineWrite (hostWho p) va b with
  | .ok s' => s'
  | .error _ => s

/-- Write an 8-byte word (DESIGN CHOICE, log 20). -/
def State.hostWord (s : State) (p : Fin 64) (va v : Word) : State := s.hostPut p va (clean (bytesOf 8 v.toNat))

/-- An 8-byte word as the scheduler reads it, or none when it cannot be reached or is poisoned (DESIGN CHOICE, log
20). -/
def State.hostWord? (s : State) (p : Fin 64) (va : Word) : Option Nat :=
  match s.hostBytes p va 8 with
  | some b => if (tagOf b).isSome then none else some (valOf b)
  | none => none

/-- A decoded launch record (14 R272). -/
structure Record where
  w0 : Nat
  w1 : Nat
  params : List Nat
  deps : List Nat
  stamp : Nat
  report : Nat
  deriving DecidableEq, Repr

/-- A record of its 128 bytes. -/
def Record.ofBytes (b : List PByte) : Record :=
  let w (i : Nat) : Nat := valOf ((b.drop (8 * i)).take 8)
  ⟨w 0, w 1, (List.range 8).map fun i => w (2 + i), (List.range 4).map fun i => w (10 + i), w 14, w 15⟩

/-- Image handle. -/
def Record.image (r : Record) : BitVec 32 := fld r.w0 0 32
/-- Graph node. -/
def Record.node (r : Record) : Nat := bitsAt r.w0 32 16
/-- Grant-token mask. -/
def Record.tmask (r : Record) : Nat := bitsAt r.w0 48 8
/-- Budget in units of 1,024 cycles. -/
def Record.budget (r : Record) : Nat := bitsAt r.w1 32 32
/-- Aborted runs so far. -/
def Record.runs (r : Record) : Nat := bitsAt r.w1 12 4
/-- Thermal class. -/
def Record.cls (r : Record) : BitVec 4 := fld r.w1 8 4
/-- Priority. -/
def Record.prio (r : Record) : Nat := bitsAt r.w1 4 3
/-- 2^lk clusters on each die. -/
def Record.lk (r : Record) : Nat := bitsAt r.w1 2 2
/-- 2^ld dies. -/
def Record.ld (r : Record) : Nat := bitsAt r.w1 0 2

/-- Record `n` of queue `q`, if its words can be read. -/
def State.record (s : State) (q n : Nat) : Option Record :=
  let d := s.queue q
  match s.hostBytes d.owner (d.recAddr n) 128 with
  | some b => if (tagOf b).isSome then none else some (.ofBytes b)
  | none => none

/-- What the scheduler keeps of a record. -/
def State.recOf (s : State) (q n : Nat) : Rec := mget .zero (s.queue q).recs n

/-- Change what the scheduler keeps of a record. -/
def State.modRec (s : State) (q n : Nat) (f : Rec → Rec) : State :=
  s.modQueue q fun d => { d with recs := mset .zero d.recs n (f (mget .zero d.recs n)) }

/-- Rewrite the second word of a record in memory. -/
def State.modRecWord (s : State) (q n : Nat) (f : Nat → Nat) : State :=
  let d := s.queue q
  let a := d.recAddr n + 8
  match s.hostWord? d.owner a with
  | some v => s.hostWord d.owner a (BitVec.ofNat 64 (f v))
  | none => s

/-- Set a record's state, in memory and in the scheduler (a release at PKG scope, 14 R275). -/
def State.setRecState (s : State) (q n st : Nat) : State :=
  (s.modRecWord q n fun v => putBits v 24 8 st).modRec q n fun r => { r with state := BitVec.ofNat 8 st }

/-- Write a record's report word. -/
def State.setReport (s : State) (q n : Nat) (v : Word) : State :=
  let d := s.queue q
  s.hostWord d.owner (d.recAddr n + 0x78) v

/-- The scheduler takes a record up: what software wrote in the fields marked S counts for nothing (14 R272). -/
def State.seeRec (s : State) (q n : Nat) : State :=
  ((s.modRecWord q n fun v => putBits (putBits v 24 8 1) 12 12 0).setReport q n 0).modRec q n fun r => { r with state := 1 }

/-- Set a record's cause. -/
def State.setRecCause (s : State) (q n : Nat) (code : Nat) : State := s.modRecWord q n fun v => putBits v 16 8 code

/-- Raise a record's runs by one, saturating at 15. -/
def State.bumpRuns (s : State) (q n : Nat) : State :=
  s.modRecWord q n fun v => putBits v 12 4 (min 15 (bitsAt v 12 4 + 1))

/-- Is a record's state a finished one (14 R275)? -/
def finished (st : BitVec 8) : Bool := st == 4 || st == 5 || st == 6

/-- Has every record before `n` in its queue drawn its ticket, finished, or given up its turn by a requeue? (DEDUCED,
log 67). -/
def State.turnToDraw (s : State) (q n : Nat) : Bool :=
  let d := s.queue q
  let no : BitVec 32 := BitVec.ofNat 32 n
  (List.range (min (no - d.head).toNat 65536)).all fun i =>
    let r := s.recOf q (d.head + BitVec.ofNat 32 i).toNat
    r.drawn || finished r.state || r.requeued

/-- Draw a ticket. -/
def State.drawTicket (s : State) (h : Hall) (l : Launch) : State :=
  let t := s.sched.ticketNext
  ((s.modSched fun x => { x with ticketNext := t + 1 }).modLaunch h fun l => { l with ticket := some t }).modRec l.queue l.recNo
    fun r => { r with drawn := true }

/-- The launch that draws next: of those eligible, the one of the lowest queue (13 R260). -/
def State.drawsNext (s : State) : Option (Hall × Launch) :=
  s.sched.launches.foldl (fun a e =>
    if e.2.state = .committing ∧ e.2.ticket = none ∧ s.turnToDraw e.2.queue e.2.recNo then
      match a with
      | some b => if e.2.queue < b.2.queue then some e else a
      | none => some e
    else a) none

/-- At most `k` launches draw their tickets. -/
def State.drawUpTo (s : State) : Nat → State
  | 0 => s
  | k + 1 => match s.drawsNext with
    | some e => (s.drawTicket e.1 e.2).drawUpTo k
    | none => s

/-- Every launch that has become eligible draws its ticket at once, so that tickets go in the order of eligibility (13
R260) (DEDUCED, log 67). -/
def State.drawDue (s : State) : State := s.drawUpTo s.sched.launches.length

/-- Advance head past records that are finished, at most `k` of them (14 R275). -/
def State.advanceHead (s : State) (q : Nat) : Nat → State
  | 0 => s
  | k + 1 =>
    let d := s.queue q
    if d.head ≠ d.seen ∧ finished (mget .zero d.recs d.head.toNat).state then
      (s.modQueue q fun d => { d with head := d.head + 1, recs := mset .zero d.recs d.head.toNat .zero }).advanceHead q k
    else s

/-- A record is finished: its state, then head. -/
def State.finishRec (s : State) (q n st : Nat) : State := ((s.setRecState q n st).advanceHead q 65536).drawDue

end Sys2Proof.Machine
end

