-- ==== Sys2Proof/Machine/Engine.lean ====
section
/-! DEFINITION. What the engines outside the core share: a computation over memory that may stop on a fault and keeps
what it had written, elements read as numbers with their poison, and exact norms. -/

namespace Sys2Proof.Machine

open Sys2Proof

/-! ## Engine work -/

/-- Work of an engine: it may stop on a fault, and what it did before stands. -/
abbrev EM (α : Type) := ExceptT Trap (StateM State) α

/-- Run engine work. -/
def EM.go {α : Type} (m : EM α) (s : State) : Except Trap α × State := m s

/-- Stop on a fault. -/
def emFail {α : Type} (t : Trap) : EM α := fun s => (.error t, s)

/-- Read bytes. -/
def emRead (w : Who) (va : Word) (n : Nat) : EM (List PByte) := fun s =>
  match s.engineRead w va n with
  | .ok (s', b) => (.ok b, s')
  | .error t => (.error t, s)

/-- Does the launch an engine works for still go on? An engine outside every launch always does (09 R232). -/
def State.goesOn (s : State) (h : Option Hall) : Bool :=
  match h with
  | none => true
  | some g => match s.launch g with
    | some l => l.state == .running || l.state == .committing
    | none => false

/-- Write bytes. A write that finds no shadow slot aborts the launch, and the command goes no further (13 R266). -/
def emWrite (w : Who) (va : Word) (b : List PByte) : EM Unit := fun s =>
  match s.engineWrite w va b with
  | .ok s' => (if s.goesOn w.hall && !s'.goesOn w.hall then .error ⟨.shadowFull, va, 0, none⟩ else .ok (), s')
  | .error t => (.error t, s)

/-- Write bytes where they can be written. -/
def emTry (w : Who) (va : Word) (b : List PByte) : EM Unit := fun s =>
  match s.engineWrite w va b with
  | .ok s' => (.ok (), s')
  | .error _ => (.ok (), s)

/-- Check that a run of bytes can be reached. -/
def emReach (w : Who) (m : AMode) (va : Word) (n : Nat) : EM Unit := fun s =>
  match s.engineTargets w m va n with
  | .ok _ => (.ok (), s)
  | .error t => (.error t, s)

/-- Look at the state. -/
def emGet : EM State := fun s => (.ok s, s)

/-- Stop unless the condition holds. -/
def emNeed (p : Bool) (t : Trap) : EM Unit := if p then pure () else emFail t

/-- An address some bytes after another. -/
def atOff (a : Word) (n : Nat) : Word := a + BitVec.ofNat 64 n

/-- A word whose poison stops the engine; TRAPADDR is its address. -/
def emWord (w : Who) (va : Word) : EM Nat := do
  let b ← emRead w va 8
  match tagOf b with
  | some t => emFail ⟨.poisonConsumed, va, 0, some (.mem t)⟩
  | none => pure (valOf b)

/-- Words of a run are written poisoned under a tag: the run starts on a word and covers whole words. -/
def emPoison (w : Who) (va : Word) (n : Nat) (t : Tag) : EM Unit := emWrite w va (taggedBytes ((n + 7) / 8 * 8) 0 (some t))

/-- `n` words, each as `emWord` reads it. -/
def emWords (w : Who) (va : Word) (n : Nat) : EM (List Nat) := (List.range n).mapM fun i => emWord w (atOff va (8 * i))

/-! ## Elements -/

/-- A number with the poison of its word. -/
abbrev El := Nat × Option Tag

/-- `n` elements of `k` bytes. -/
def elems (k n : Nat) (b : List PByte) : List El := (pieces k n b).map fun d => (valOf d, tagOf d)

/-- Bytes of elements of `k` bytes. -/
def elBytes (k : Nat) (l : List El) : List PByte := l.flatMap fun e => taggedBytes k e.1 e.2

/-- `n` elements of `k` bytes from memory. -/
def emVec (w : Who) (va : Word) (k n : Nat) : EM (List El) := do
  let b ← emRead w va (k * n)
  pure (elems k n b)

/-- Map the numbers of elements. -/
def elMap (f : Nat → Nat) (l : List El) : List El := l.map fun e => (f e.1, e.2)

/-- Combine elements of two lists; poison meets (01 R27). -/
def elZip (f : Nat → Nat → Nat) (a b : List El) : List El := List.zipWith (fun x y => (f x.1 y.1, tmeet x.2 y.2)) a b

/-- Lowest tag of some elements. -/
def elTag (l : List El) : Option Tag := l.foldl (fun t e => tmeet t e.2) none

/-- A BF16 number as FP32: exact. -/
def bf16to32 (x : Nat) : Nat := convert .bf16 .fp32 .rne false x

/-- FP32 numbers as exact values. -/
def fvs (l : List El) : List FV := l.map fun e => Fmt.fp32.decode e.1

/-! ## Exact norms, sums and quotients (09 R214) -/

/-- Exact sum (DEDUCED, log 101). -/
def FV.sum (l : List FV) : FV := l.foldl (FV.add .rne) (.num false 0 0)

/-- Exact difference. -/
def FV.sub (a b : FV) : FV := FV.add .rne a b.neg

/-- ‖v‖², exact. -/
def normSq (l : List FV) : FV := FV.sum (l.map fun x => x.mul x)

/-- a + √n rounded once to FP32, the sum exact before the rounding; `n` is not negative (DEDUCED, log 101). -/
def addSqrt (rnd : Rnd) (a n : FV) : Nat :=
  match a, n with
  | .num na ma ea, .num _ mn en =>
    let u : Int := min (min ea (en / 2)) (-149) - 64
    let x : Int := smag na ma * 2 ^ (ea - u).toNat
    let m : Nat := mn * 2 ^ (en - 2 * u).toNat
    let r := isqrt m
    let sticky := r * r != m
    let v : Int := x + r
    if 0 ≤ v then Fmt.fp32.finish rnd false false v.toNat u sticky
    else Fmt.fp32.finish rnd false true (v.natAbs - b2n sticky) u sticky
  | a, n => Fmt.fp32.encode rnd false (FV.add rnd a n)

/-- RUP(‖v‖) and RDN(‖v‖). -/
def normRound (rnd : Rnd) (l : List FV) : Nat := addSqrt rnd (.num false 0 0) (normSq l)

/-- An exact value divided by a count, rounded to nearest. -/
def divRne (f : Fmt) (v : FV) (n : Nat) : Nat :=
  match v with
  | .num neg m e =>
    if m = 0 then f.signed neg 0
    else let q := quot m n e (f.frac + 200); f.finish .rne false neg q.1 q.2.1 q.2.2
  | v => f.encode .rne false v

/-- The larger of two FP32 bounds; a NaN stays one (09 R230: a NaN gives a NaN summary) (DEDUCED, log 48, 101). -/
def maxBound (a b : Nat) : Nat :=
  let x := Fmt.fp32.decode a
  let y := Fmt.fp32.decode b
  if x.isNan || y.isNan then Fmt.fp32.nanCode else if x.lt y then b else a

end Sys2Proof.Machine
end

