-- ==== Sys2Proof/Machine/Order.lean ====
section
/-! DEFINITION. The order in which accesses may perform (05 R136–R138, 08 R206, 12 R249): when an element of an access
in flight, or a read made at issue, has to wait for other accesses (log 10). -/

namespace Sys2Proof

/-- Acquire orders. -/
def Ord.acquires : Ord → Bool
  | .acquire | .acqRel => true
  | _ => false

/-- Release orders. -/
def Ord.releases : Ord → Bool
  | .release | .acqRel => true
  | _ => false

/-- Width of a scope, to find the smaller of two. -/
def Scope.rank : Scope → Nat
  | .ctx => 0 | .core => 1 | .clu => 2 | .die => 3 | .pkg => 4 | .fab => 5

/-- The smaller of two scopes. -/
def Scope.meet (a b : Scope) : Scope := if a.rank ≤ b.rank then a else b

end Sys2Proof

namespace Sys2Proof.Machine

open Sys2Proof

/-- Do two runs of bytes share a byte? -/
def Target.overlaps (a : Target) (n : Nat) (b : Target) (m : Nat) : Bool :=
  match a, b with
  | .mem p _, .mem q _ => decide (p < q + m) && decide (q < p + n)
  | .win k i p, .win l j q => k == l && i == j && decide (p < q + m) && decide (q < p + n)
  | .fabric _ p, .fabric _ q => decide (p < q + m) && decide (q < p + n)
  | .mgmt p, .mgmt q => decide (p < q + m) && decide (q < p + n)
  | _, _ => false

/-- Has an element not performed yet? -/
def Access.undone (a : Access) : Bool := a.elems.any fun e => !e.done

/-- A window of the core itself (05 R136); the engine registers are the cluster's. -/
def Target.own (core : Nat) : Target → Bool
  | .win k kind _ => k == core && kind != 6
  | _ => false

/-- Has access `q` of context `c` still an element to perform? -/
def State.pending (s : State) (c q : Nat) : Bool := (s.ctx c).acc.any fun b => b.seq == q && b.undone

/-- Do two contexts lie in one instance of a scope (02 R43)? -/
def sameInst (sc : Scope) (a b : Nat) : Bool :=
  match sc with
  | .ctx => a == b
  | .core => coreOf a == coreOf b
  | .clu => cluOf (coreOf a) == cluOf (coreOf b)
  | .die => dieOf (coreOf a) == dieOf (coreOf b)
  | _ => true

/-- Lines that have not left the context, oldest first: of a closed segment, then of the open one. -/
def Ctx.heldLines (x : Ctx) : List SegLine := x.rel ++ match x.seg with | some g => g.lines | none => []

/-- Is a line that has not left the context an acquire numbered below `seq`? -/
def SegLine.acquiresBefore (seq : Nat) : SegLine → Bool
  | .acc b => decide (b.seq < seq) && b.ord.acquires
  | .cmd _ => false

/-- Earlier accesses of the context that hold up an access with sequence number `seq` at a target: one to a shared byte
(05 R137), or an acquire (05 R138), one that a segment still holds among them (07 R177) (DEDUCED, log 10). -/
def Ctx.heldUp (x : Ctx) (seq : Nat) (t : Target) (n : Nat) : Bool :=
  (x.acc.any fun b => decide (b.seq < seq) && b.undone &&
    (b.ord.acquires || b.elems.any fun e => !e.done && e.tgt.overlaps e.size t n)) ||
    x.heldLines.any fun l => l.acquiresBefore seq

/-- A DRAIN, or the DRAIN a release is, whose earlier accesses have not all performed (08 R206): an access performs once,
at its home, for every scope (24 R382); scope CTX adds nothing (DEDUCED, log 10). -/
def Ctx.drainHolds (x : Ctx) (seq : Nat) : Bool :=
  x.drains.any fun d => d.scope != .ctx && decide (d.seq ≤ seq) && x.acc.any fun b => decide (b.seq < d.seq) && b.undone

/-- Own-core accesses of any of the core's contexts with lower sequence numbers (05 R136) (DEDUCED, log 35). -/
def State.coreHolds (s : State) (core seq : Nat) : Bool :=
  [0, 1, 2, 3].any fun i => (s.ctx (4 * core + i)).acc.any fun b =>
    decide (b.seq < seq) && b.elems.any fun e => !e.done && e.tgt.own core

/-- Must an access of context `c` numbered `seq` at a target wait? (DEDUCED, log 10). -/
def State.mustWait (s : State) (c seq : Nat) (t : Target) (n : Nat) : Bool :=
  let x := s.ctx c
  x.heldUp seq t n || x.drainHolds seq ||
    (x.deps.any fun d => decide (d.acq < seq) && s.pending d.ctx d.seq) ||
    (t.own (coreOf c) && s.coreHolds (coreOf c) seq)

/-- Accesses of a context numbered below `seq` that have not performed, and those it has acquired (05 R138, 24 R383). -/
def State.unperformed (s : State) (c seq : Nat) : List (Nat × Nat) :=
  ((s.ctx c).acc.filter fun b => decide (b.seq < seq) && b.undone).map (fun b => (c, b.seq))
    ++ ((s.ctx c).deps.filter fun d => decide (d.acq < seq) && s.pending d.ctx d.seq).map fun d => (d.ctx, d.seq)

/-- Has the context accesses numbered below `seq` that have not performed? -/
def Ctx.earlier (x : Ctx) (seq : Nat) : Bool := x.acc.any fun a => decide (a.seq < seq) && a.undone

/-- Must a command or wait that a FENCE of context `c` at `seq` holds still wait: for the context's own earlier accesses, or
for those it had acquired (08 R207, 06 R165, 24 R383) (DEDUCED, log 39)? -/
def State.fenced (s : State) (c seq : Nat) : Bool :=
  (s.ctx c).earlier seq || (s.ctx c).deps.any fun d => decide (d.acq < seq) && s.pending d.ctx d.seq

/-- Context `c` acquires: its accesses numbered above `seq` wait for these. -/
def Ctx.acquire (x : Ctx) (seq : Nat) (l : List (Nat × Nat)) : Ctx :=
  { x with deps := x.deps ++ l.map fun e => ⟨seq, e.1, e.2⟩ }

/-- Context `c` acquires, dropping what has performed meanwhile. -/
def State.acquire (s : State) (c seq : Nat) (l : List (Nat × Nat)) : State :=
  s.modCtx c fun x =>
    { x with deps := x.deps.filter fun d => s.pending d.ctx d.seq }.acquire seq (l.filter fun e => s.pending e.1 e.2)

/-- Context `c` acquires now: every access it issues later waits. -/
def State.acquireNow (s : State) (c : Nat) (l : List (Nat × Nat)) : State :=
  if l.isEmpty then s else let s := s.acquire c s.seq l; { s with seq := s.seq + 1 }

/-! ## Atomics (05 R132, 12 R251) and buffered stores (07 R177) -/

/-- The new value of an atomic at a width of `n` bytes: old value `x`, operand `y`, compare value `z`. -/
def atomicVal (op : AtomicOp) (n x y z : Nat) : Nat :=
  match op with
  | .add => (x + y) % 2 ^ (8 * n)
  | .min => if signedOf (8 * n) y < signedOf (8 * n) x then y else x
  | .max => if signedOf (8 * n) x < signedOf (8 * n) y then y else x
  | .minu => min x y
  | .maxu => max x y
  | .and => x &&& y
  | .or => x ||| y
  | .xor => x ^^^ y
  | .xchg => y
  | .cas => if x = z then y else x

/-- The low `n` bytes of a number. -/
def lowBytes (n v : Nat) : Nat := v % 2 ^ (8 * n)

/-- A word after an element writes `size` bytes at byte `off` of it (DEDUCED, log 104). -/
def applyElem (kind : AccKind) (w : Word × Option Tag) (off size data cmp : Nat) : Word × Option Tag :=
  let put (v : Nat) : Word × Option Tag :=
    putWord w.1 w.2 (BitVec.ofNat 64 (lowBytes size v * 2 ^ (8 * off))) ((2 ^ size - 1) * 2 ^ off) none
  match kind with
  | .load => w
  | .store => put data
  | .atomic op =>
    match w.2 with
    | some _ => if op = .xchg ∧ size = 8 then put data else w
    | none => put (atomicVal op size (bitsAt w.1.toNat (8 * off) (8 * size)) (lowBytes size data) (lowBytes size cmp))

/-- Offset of a target within its space, and the target with another offset. -/
def Target.off : Target → Nat
  | .mem pa _ => pa
  | .win _ _ o => o
  | .fabric _ pa => pa
  | .mgmt o => o
/-- The target at another offset of the same space. -/
def Target.at_ (t : Target) (o : Nat) : Target :=
  match t with
  | .mem _ k => .mem o k
  | .win k i _ => .win k i o
  | .fabric i _ => .fabric i o
  | .mgmt _ => .mgmt o

/-- A word with the buffered elements of an access applied. -/
def overlayElems (kind : AccKind) (t : Target) (w : Word × Option Tag) : List Elem → Word × Option Tag
  | [] => w
  | e :: l => overlayElems kind t
      (if t.overlaps 8 e.tgt e.size then applyElem kind w (e.tgt.off % 8) e.size e.data e.cmp else w) l

/-- A word with the segment's buffered stores numbered below `seq` applied, oldest first (DEDUCED, log 104). -/
def overlayLines (seq : Nat) (t : Target) (w : Word × Option Tag) : List SegLine → Word × Option Tag
  | [] => w
  | .acc a :: l => overlayLines seq t (if a.seq < seq then overlayElems a.kind t w a.elems else w) l
  | .cmd _ :: l => overlayLines seq t w l

/-- Is a line a contribution to a reduction window, which a load of the issuer does not see (23 R361, R362)? -/
def SegLine.contributes : SegLine → Bool
  | .acc a => match a.kind with | .atomic _ => true | _ => false
  | .cmd _ => false

/-- Bytes a context reads at a target: what is there, under its own buffered stores (DEDUCED, log 104). -/
def State.readCtx (s : State) (c : Nat) (h : Option Hall) (seq : Nat) (t : Target) (n : Nat) : List PByte :=
  match (s.ctx c).heldLines.filter fun l => !((s.windowAt t).isSome && l.contributes) with
  | [] => s.readAny h t n
  | l =>
    readBytes (fun w =>
      let t8 := t.at_ (8 * w)
      let b := s.readAny h t8 8
      overlayLines seq t8 (BitVec.ofNat 64 (valOf b), tagOf b) l) t.off n

/-- Read bytes at a VA now, as part of an issuing bundle: checks of 05 R133 but alignment. -/
inductive Got where
  | fault (t : Trap)
  | miss (va : Word)
  | order
  | ok (b : List PByte) (t : Target)

/-- A control read of a context at issue: CALLX's entry, BRI's table, the object table, QLAUNCH's record (DEDUCED, log 24). -/
def State.readNow (s : State) (c : Nat) (va : Word) (n : Nat) : Got :=
  let w := s.who c
  match s.resolveFor c w va with
  | .fault t => .fault t
  | .miss => .miss va
  | .ok t p =>
    if !s.permitted w .read t n p then .fault ⟨.protect, va, 0, none⟩
    else if s.mustWait c s.seq t n || s.keyBusy t then .order
    else .ok (s.readCtx c w.hall s.seq t n) t

/-! ## The code stream (02 R28, R29) -/

/-- One halfword of the code stream. -/
inductive Half where
  | fault (t : Trap)
  | miss (va : Word)
  | ok (h : Nat)
  deriving DecidableEq, Repr

/-- Address of a halfword. -/
def Ctx.codeAddr (x : Ctx) (pc : BitVec 32) : Word := x.ctl.cbase.setWidth 64 + BitVec.ofNat 64 (2 * pc.toNat)

/-- Read a halfword of the code stream: a page must carry execute permission, windows carry none. -/
def State.half (s : State) (c : Nat) (pc : BitVec 32) : Half :=
  let va := (s.ctx c).codeAddr pc
  let w := s.who c
  if inWindows va then .fault ⟨.protect, va, 0, none⟩
  else
    match s.resolveFor c w va with
    | .fault t => .fault t
    | .miss => .miss va
    | .ok t p =>
      if !s.permitted w .fetch t 2 p then .fault ⟨.protect, va, 0, none⟩
      else
        let b := s.readT w.hall t 2
        match tagOf b with
        | some g => .fault ⟨.poisonConsumed, va, 0, some (.mem g)⟩
        | none => .ok (valOf b)

/-- Does a command on the key of the code page at the PC hold up the fetch (12 R246)? -/
def State.codeBusy (s : State) (c : Nat) : Bool :=
  match s.resolveFor c (s.who c) ((s.ctx c).codeAddr (s.ctx c).pc) with
  | .ok t _ => s.keyBusy t
  | _ => false

/-- Length of the bundle at the PC, for an instruction that is given and not fetched: a literal's when the halfword
there is the escape, else one halfword. -/
def State.pcLen (s : State) (c : Nat) : Nat :=
  match s.half c (s.ctx c).pc with
  | .ok h => if h = 0xFFFF then 25 else 1
  | _ => 1

end Sys2Proof.Machine
end

