-- ==== Sys2Proof/Machine/Receive.lean ====
section
/-! DEFINITION. Faults of engines, and posted receives: how a COL command ends, how a receive is matched to a message
(23 R367), and LKRECV and LKRADD (23 R368), which need no event of their own. -/

namespace Sys2Proof.Machine

open Sys2Proof

/-! ## Faults of engines (03 R95, R391, 06 R145–R147) -/

/-- A fault found for a context that has halted goes to the cluster's control core (06 R146): its event waits in its core for the
cluster's queue; a second one makes no second event (08 R210). -/
def State.haltedEvent (s : State) (c : Nat) (t : Trap) : State :=
  s.modCtx c fun x =>
    if x.lateEvent.isSome then x
    else { x with lateEvent := some ⟨c, t.word, x.pc, t.addr, 0, x.hall⟩, trapAt := s.cycle }

/-- A copy-engine or walker fault of a context's command: an asynchronous cause, or an event when it has halted. -/
def State.asyncFault (s : State) (c : Nat) (t : Trap) : State :=
  match (s.ctx c).act with
  | .free => s
  | .halting | .halted => s.haltedEvent c t
  | _ => s.modCtx c fun x => x.raiseDue ⟨t, false⟩

/-- Does a wait belong to a unit (06 R146)? -/
def Wait.ofUnit : Wait → Option DUnit
  | .msync => some .mtx
  | .wsync _ => some .crd
  | .lkwait _ => some .col
  | _ => none

/-- The engine class of a command with a queue of its own. -/
def EngCmd.cls : EngCmd → EngClass
  | .mtx _ => .mtx
  | .cpgo _ _ _ => .cpy
  | .wk _ => .wlk
  | .crd _ => .crd
  | .col _ => .col
  | _ => .ctx

/-- Released lines that still wait for the queue of a unit are among the later commands a fault of it discards (18 R320). -/
def State.dropLines (s : State) (c : Nat) (u : EngClass) : State :=
  s.modCtx c fun x => { x with rel := x.rel.filter fun l => match l with | .cmd e => e.cls != u | .acc _ => true }

/-- A unit records a deferred fault of a context (06 R145–R147): in its own wait the wait ends and the fault follows as
an asynchronous cause; a second one of the unit is not recorded. -/
def State.defer (s : State) (c : Nat) (u : DUnit) (t : Trap) : State :=
  let x := s.ctx c
  let keep := s.modCtx c fun x =>
    if x.dfaults.any fun d => d.unit == u then x else { x with dfaults := x.dfaults ++ [⟨u, s.cycle, t⟩] }
  match x.act with
  | .free => s
  | .halting | .halted => s.haltedEvent c t
  | .blocked w =>
    if w.ofUnit = some u then s.modCtx c fun x => { x with act := .ready, causes := x.causes ++ [⟨t, false⟩] } else keep
  | _ => keep

/-! ## COL commands (23 R366, R369) -/

/-- UIPEND bit of a COL command: lnk of a link command, col of a collective command (03 R68). -/
def ColOp.pendBit : ColOp → Nat
  | .lksend _ | .lkradd _ _ | .lkrecv _ => 20
  | _ => 19

/-- Is the command a receive that stays posted? -/
def ColOp.posts : ColOp → Bool
  | .lkradd _ _ | .lkrecv _ => true
  | _ => false

/-- Change the COL command numbered `id`. -/
def Ctx.modCol (x : Ctx) (id : Nat) (f : ColCmd → ColCmd) : Ctx :=
  { x with col := x.col.map fun d => if d.id = id then f d else d }

/-- Change the COL command numbered `id` of a context. -/
def State.modCol (s : State) (c id : Nat) (f : ColCmd → ColCmd) : State := s.modCtx c fun x => x.modCol id f

/-- A COL command ends with a status (DEDUCED, log 60). -/
def Ctx.endCol (x : Ctx) (d : ColCmd) (status : Nat) : Ctx :=
  if x.col.any fun e => e.id == d.id then
    let x := { x with col := x.col.filter (fun e => e.id ≠ d.id), colEnded := x.colEnded + 1 }
    let x := if status = 1 then x else
      { x with colBad := x.colBad + 1, colFirstBad := if x.colBad = 0 then status else x.colFirstBad }
    if d.uirq then x.pend d.op.pendBit else x
  else x

/-- A COL command of a context ends. -/
def State.endCol (s : State) (c : Nat) (d : ColCmd) (status : Nat) : State := s.modCtx c fun x => x.endCol d status

/-- A COL command stops on a fault and ends FAULT (23 R369): the context's later COL commands are discarded (DEDUCED,
log 55). One that an abort took away is not there. -/
def State.colFault (s : State) (c : Nat) (d : ColCmd) (t : Trap) : State :=
  if (s.ctx c).col.any fun e => e.id == d.id then
    (((s.endCol c d 11).modCtx c fun x => { x with col := x.col.filter fun e => e.id < d.id }).dropLines c .col).defer c .col t
  else s

/-! ## Messages (23 R367) -/

/-- Matching fields of a message. -/
def msgKey (m : Message) : RecvKey := ⟨m.net, m.port, m.peer, m.part, m.tag, m.addr⟩

/-- The die whose engine serves a port: four Ildahar ports, or two UET ports, to a die. -/
def RecvKey.die (k : RecvKey) : Nat := if k.net then k.port.toNat / 2 % 4 else k.port.toNat / 4

/-- Bytes of a message with the poison of its words. -/
def msgBytes (m : Message) : List PByte :=
  m.bytes.zipIdx.map fun e => (e.1, (m.poison.find? fun p => p.1 == e.2 / 8).map (·.2))

/-- The poison of bytes by 8-byte word, as a message carries it. -/
def msgPoison (b : List PByte) : SMap Tag :=
  ((pieces 8 ((b.length + 7) / 8) b).zipIdx).filterMap fun e => (tagOf e.1).map fun t => (e.2, t)

/-- Remove the first element that satisfies `p`. -/
def takeFirst {α : Type} (p : α → Bool) : List α → Option (α × List α)
  | [] => none
  | a :: t => if p a then some (a, t) else (takeFirst p t).map fun r => (r.1, a :: r.2)

/-- Does a lost mark match a receive? (DEDUCED, log 57). -/
def LostMark.isFor (m : LostMark) (k : RecvKey) : Bool := m.part == k.part && m.peer == k.peer && m.addr == k.addr && m.tag == k.tag

/-- Post a receive, younger than every one posted before it: a lost mark is consumed, else the oldest held message that matches is
taken. -/
def State.post_ (s : State) (c id : Nat) (k : RecvKey) : State :=
  let s := s.tick.modCol c id fun d => { d with want := some k, postedAt := s.fresh }
  match takeFirst (fun m => LostMark.isFor m k) (s.die k.die).lost with
  | some (_, rest) => (s.modDie k.die fun x => { x with lost := rest }).modCol c id fun d => { d with lost := true }
  | none =>
    match takeFirst (fun m => msgKey m == k) (s.die k.die).held with
    | some (m, rest) => (s.modDie k.die fun x => { x with held := rest }).modCol c id fun d => { d with msg := some m }
    | none => s

/-! ## LKRECV and LKRADD (23 R368) -/

/-- Bytes of one element of a link command: its payload format's for LKRADD, else one. -/
def ColOp.unit : ColOp → Nat
  | .lkradd _ f => f.bits / 8
  | _ => 1

/-- What a link command's operands break: alignment, the length, the reserved bits of the route (DEDUCED, log 55). -/
def ColCmd.linkBad (d : ColCmd) : Option Trap :=
  let n := d.b.toNat
  if d.a.toNat % 64 ≠ 0 then some ⟨.align, d.a, 0, none⟩
  else if n = 0 ∨ 2 ^ 24 < n ∨ n % d.op.unit ≠ 0 then some ⟨.illegalIndex, d.b, 0, none⟩
  else if d.c.toNat / 2 ^ 28 ≠ 0 then some ⟨.illegalIndex, d.c, 0, none⟩
  else none

/-- Bytes a receive writes. -/
def ColCmd.dstLen (d : ColCmd) : Nat := d.b.toNat / d.op.unit * (match d.op with | .lkradd _ _ => 4 | _ => 1)

/-- Partition of a context's launch, 0 without one. -/
def State.partNo (s : State) (c : Nat) : PartNo := (s.partOf c).getD 0

/-- What a route names on a port. -/
def State.routeKey (s : State) (c : Nat) (port : BitVec 4) (r : Word) : RecvKey :=
  ⟨false, port, r.extractLsb' 0 16, s.partNo c, r.extractLsb' 16 12, 0⟩

/-- Port of a receive. -/
def ColOp.port : ColOp → BitVec 4
  | .lkradd p _ => p
  | .lkrecv p => p
  | .lksend p => p
  | _ => 0

/-- An LKRADD destination lies in the issuing cluster's scratchpad windows. -/
def needOwnSpad (w : Who) (va : Word) (n : Nat) : EM Unit := do
  let s ← emGet
  match s.engineTargets w .write va n with
  | .error t => emFail t
  | .ok l =>
    emNeed (l.all fun e => match e.1 with | .win k 0 _ => cluOf k == cluOf w.core | _ => false) ⟨.protect, va, 0, none⟩

/-- The checks of a receive before it is posted (DEDUCED, log 57). -/
def recvCheck (w : Who) (d : ColCmd) : EM Unit := do
  match d.linkBad with
  | some t => emFail t
  | none =>
    match d.op with
    | .lkradd _ _ => needOwnSpad w d.a d.dstLen
    | _ => pure ()

/-- A poison tag of a unit for a place. -/
def emTag (u : BitVec 7) (place : Word) : EM Tag := fun s => let r := s.newPoison u place; (.ok r.2, r.1)

/-- A payload element added to a destination word: RNE (01 R24, 23 R368) (DEDUCED, log 58). -/
def addPayload (f : Fmt) (d y : Nat) : Nat := Fmt.fp32.fadd .rne d (convert f .fp32 .rne false y)

/-- A receive has its message: its status (DEDUCED, log 58). -/
def recvWork (w : Who) (d : ColCmd) (m : Message) : EM Nat := do
  if m.bytes.length ≠ d.b.toNat then
    let t ← emTag (dieUnit (d.op.port.toNat / 4) 21) d.a
    let n := (d.dstLen + 7) / 8 * 8
    let got : List Byte := match d.op with | .lkradd _ _ => [] | _ => m.bytes.take d.b.toNat
    emWrite w d.a ((got ++ List.replicate (n - got.length) 0).map fun b => (b, some t))
    pure 5
  else
    match d.op with
    | .lkradd _ f => do
      let n := d.b.toNat / d.op.unit
      let old ← emVec w d.a 4 n
      emWrite w d.a (elBytes 4 (elZip (addPayload f) old (elems d.op.unit n (msgBytes m))))
      pure 1
    | _ => do
      emWrite w d.a (msgBytes m)
      pure 1

/-- Carry a receive on: post it once its FENCE allows, finish it once it has its message or is lost (DEDUCED, log 58).
-/
def State.recvStep (s : State) (c : Nat) (d : ColCmd) : State :=
  let w := s.engine c
  if !d.op.posts || s.fenced c d.after then s
  else
    match (if d.want.isSome then pure () else recvCheck w d).go s with
    | (.error t, s) => s.colFault c d t
    | (.ok _, s) =>
      let s := if d.want.isSome then s else s.post_ c d.id (s.routeKey c d.op.port d.c)
      match (s.ctx c).col.find? fun e => e.id == d.id with
      | none => s
      | some d =>
        if d.lost then s.endCol c d 6
        else
          match d.msg with
          | none => s
          | some m =>
            match (recvWork w d m).go s with
            | (.error t, s) => s.colFault c d t
            | (.ok st, s) => s.endCol c d st

/-- Carry on every receive of a context, oldest first (DEDUCED, log 57). -/
def State.colSettle (s : State) (c : Nat) : State :=
  (s.ctx c).col.foldl (fun s d =>
    match (s.ctx c).col.find? fun e => e.id == d.id with
    | some d => s.recvStep c d
    | none => s) s

end Sys2Proof.Machine
end

