-- ==== Sys2Proof/Machine/Ops.lean ====
section
/-! DEFINITION. The shared operations on a context: the clock, engine queues and the segment buffer, taking a trap and
rewinding, moving to a link value, taking and leaving a user-level interrupt, blocking, parking and killing. -/

namespace Sys2Proof.Machine

open Sys2Proof

/-! ## The clock (00 R4) -/

/-- Wall cycles pass: budgets of RUNNING launches count down (14 R280) (DESIGN CHOICE, log 1; DEDUCED, log 2). -/
def State.advance (s : State) (n : Nat) : State :=
  if n = 0 then s
  else
    { s with
      cycle := s.cycle + n
      wall := s.wall + wallOf s.mgmt.svc n
      sched := { s.sched with launches := s.sched.launches.map fun e =>
        if e.2.state == .running then (e.1, { e.2 with budget := e.2.budget - n }) else e } }

/-- Move the clock to cycle `t` if it lies ahead. -/
def State.advanceTo (s : State) (t : Nat) : State := s.advance (t - s.cycle)

/-- The port of core `k` is taken for `n` cycles from now. -/
def State.busy (s : State) (k n : Nat) : State := s.modCore k fun x => { x with freeAt := s.cycle + n }

/-! ## Blocking and waking (07 R168) -/

/-- The context that holds its core's port has become unready: a switch point (07 R169). -/
def State.letGo (s : State) (c : Nat) : State :=
  if (s.core (coreOf c)).running.any fun i => 4 * coreOf c + i.val == c then
    s.modCore (coreOf c) fun k => { k with released := true }
  else s

/-- A context blocks. -/
def State.block (s : State) (c : Nat) (w : Wait) : State :=
  (s.letGo c).modCtx c fun x => { x with act := .blocked w }

/-- A context blocks for the landings due at its tick whose data is late: the count of 03 R71 runs from the first time
it blocks for each. -/
def State.blockLate (s : State) (c : Nat) : State :=
  (s.modCtx c fun x => { x with land := x.land.map fun l =>
    if l.due ≤ x.ct ∧ l.res.isNone ∧ l.since = none then { l with since := some s.cycle } else l }).block c (.landing s.cycle)

/-- A context becomes ready. -/
def State.ready (s : State) (c : Nat) : State := s.modCtx c fun x => { x with act := .ready }

/-- Waits that end when an access of the context performs. -/
def State.wakeOrder (s : State) (c : Nat) : State :=
  match (s.ctx c).act with
  | .blocked .order => s.ready c
  | .blocked (.fenceHst q) => if s.fenced c q then s else s.ready c
  | _ => s

/-- Does a context wait before its bundle issues (03 R391, first row)? -/
def Wait.beforeIssue : Wait → Bool
  | .landing _ | .tlb _ | .queueSpace _ | .order | .qlaunch _ | .rendezvous => true
  | _ => false

/-! ## Engine queues -/

/-- The physical channel a launch-relative number names on the issuing cluster (08 R190, R197). -/
def State.physChan (s : State) (c unit : Nat) : Option Nat :=
  let h := (s.ctx c).hall
  if h.isNone then none
  else (List.range 16).find? fun p =>
    let ch := s.chan (cluOf (coreOf c)) p
    ch.hall = h && ch.map.getLsbD 7 && ch.map.toNat % 16 = unit

/-- Contexts of a die. -/
def dieCtxs (d : Nat) : List Nat := (List.range 256).map (256 * d + ·)

/-- Are the walker's queue entries taken: 16 for the cluster, 4 for the context? -/
def State.walkerFull (s : State) (c : Nat) : Bool :=
  let w := (s.cluster (cluOf (coreOf c))).walker
  decide (16 ≤ w.queue.length) || decide (4 ≤ w.countOf c)

/-- Eight coordinate commands of the context, or 64 of the die, have not ended. -/
def State.crdFull (s : State) (c : Nat) : Bool :=
  decide (8 ≤ (s.ctx c).crd.length) ||
    decide (64 ≤ ((dieCtxs (dieOf (coreOf c))).map fun d => (s.ctx d).crd.length).sum)

/-- Eight COL commands of the context, or 64 of the die, have not ended. -/
def State.colFull (s : State) (c : Nat) : Bool :=
  decide (8 ≤ (s.ctx c).col.length) ||
    decide (64 ≤ ((dieCtxs (dieOf (coreOf c))).map fun d => (s.ctx d).col.length).sum)

/-- Is the queue of an engine class full for a context? Of the copy engine: are the heads of every channel of the launch
taken (08 R198)? (DEDUCED, log 38). -/
def State.queueFull (s : State) (c : Nat) (q : EngClass) : Bool :=
  match q with
  | .mtx => decide (8 ≤ (s.ctx c).mtx.queue.length)
  | .wlk => s.walkerFull c
  | .crd => s.crdFull c
  | .col => s.colFull c
  | .cpy => (List.range 16).all fun u => match s.physChan c u with
    | some p => decide (4 ≤ (s.chan (cluOf (coreOf c)) p).heads.length)
    | none => true
  | _ => false

/-- May a launch's commands still enter queues (13 R264)? A context without a launch queues freely. -/
def State.accepts (s : State) (c : Nat) : Bool :=
  match s.launchOf c with
  | some l => l.state == .running
  | none => true

/-- A chain starts on a channel, which is its issuer's from then on (08 R197) (DEDUCED, log 33). -/
def Chan.start (ch : Chan) (h : Head) : Chan :=
  { ch with state := 1, head := h.at_, by_ := h.by_, after := h.after, owner := BitVec.ofNat 8 (issuerBits h.by_), stop := false }

/-- CPGO reaches its channel (08 R198): it waits for its own context's FENCE (08 R207), and behind the chains queued before it. -/
def Chan.go (ch : Chan) (c : Nat) (head : Word) (after : Nat) : Chan :=
  if ch.state = 1 then { ch with heads := ch.heads ++ [⟨head, c, after⟩] } else ch.start ⟨head, c, after⟩

/-- CPSTOP reaches its channel: the heads queued so far are dropped. -/
def Chan.halt (ch : Chan) : Chan := if ch.state = 1 then { ch with heads := [], stop := true } else ch

/-- The team context an EVPOST target names (14 R288). -/
def State.postTarget (s : State) (c target : Nat) : Option Nat :=
  match s.launchOf c with
  | none => none
  | some l => (l.clusters[target % 65536]?).bind fun k => s.member (8 * k + bitsAt target 16 3) (s.ctx c).hall

/-- EVPOST: the posting, and what the target acquires (14 R288). -/
def State.post (s : State) (c target : Nat) (sc : Scope) : State :=
  let s := s.modCtx c fun x => { x with drains := x.drains ++ [⟨sc, s.seq⟩] }
  match s.postTarget c target with
  | none => s
  | some d =>
    match (s.ctx d).act with
    | .free | .halting | .halted => s
    | _ =>
      let l := if sameInst sc c d then s.unperformed c s.seq else []
      s.modCtx d fun x => { x.pend 16 with evtAcq := x.evtAcq ++ l }

/-- Write a QLAUNCH record into its reserved slot: S fields zero, state 7 (14 R287) (DEDUCED, log 73). -/
def State.putHeld (s : State) (q n : Nat) (b : List PByte) : State :=
  let d := s.queue q
  let w1 := valOf ((b.drop 8).take 8)
  let w1' := putBits (putBits w1 12 20 0) 24 8 7
  s.hostPut d.owner (d.recAddr n)
    (b.take 8 ++ taggedBytes 8 w1' (tagOf ((b.drop 8).take 8)) ++ (b.drop 16).take 104 ++ clean (bytesOf 8 0))

/-- A QLAUNCH whose launch aborted, or whose command was dropped: a void record (14 R287). -/
def State.voidHeld (s : State) (q n : Nat) : State := s.finishRec q n 6

/-- A walker command arrives: commands of one cycle stand in ascending core and then context number (09 R217). -/
def WkCmd.into (c : WkCmd) (l : List WkCmd) : List WkCmd :=
  let before (q : WkCmd) : Bool := decide (q.at_ < c.at_) || decide (q.ctx ≤ c.ctx)
  l.takeWhile before ++ c :: l.dropWhile before

/-- Has a unit recorded a deferred fault of a context that is not raised yet (06 R147)? -/
def Ctx.recorded (x : Ctx) (u : DUnit) : Bool := x.dfaults.any fun d => d.unit == u

/-- A command reaches its engine's queue (07 R177). While a deferred fault of the coordinate unit or of the COL engines is recorded,
the context's later commands of that unit are discarded (18 R320, 23 R369); after one of the matrix unit, they queue and run
as before it (DESIGN CHOICE, log 114). -/
def State.enqueue (s : State) (c : Nat) (e : EngCmd) : State :=
  let k := cluOf (coreOf c)
  match e with
  | .evpost target sc => s.post c target sc
  | .txabort code retry =>
    match (s.ctx c).hall with
    | none => s
    | some h =>
      if s.accepts c then (s.modLaunch h fun l => { l with report := code }).abortLaunch h (.conflict retry) else s
  | e =>
    if !s.accepts c then s
    else
      match e with
      | .mtx m => s.modCtx c fun x => { x with mtx := { x.mtx with queue := x.mtx.queue ++ [m] } }
      | .cpgo unit head after =>
        match s.physChan c unit.toNat with
        | some p => s.modChan k p fun ch => ch.go c head after
        | none => s
      | .cpstop unit =>
        match s.physChan c unit.toNat with
        | some p => s.modChan k p Chan.halt
        | none => s
      | .wk w => s.modWalker k fun x => { x with queue := WkCmd.into { w with at_ := s.cycle } x.queue }
      | .crd m => s.modCtx c fun x => if x.recorded .crd then x else { x with crd := x.crd ++ [m] }
      | .col m =>
        if (s.ctx c).recorded .col then s
        else (s.tick.modCtx c fun x => { x with col := x.col ++ [{ m with id := s.fresh }] }).colSettle c
      | .qlaunch q slot b => s.putHeld q slot b
      | _ => s

/-- A command is issued: a line of the open segment, or at once into its queue (07 R177). -/
def State.command (s : State) (c : Nat) (e : EngCmd) : State :=
  match (s.ctx c).seg with
  | some g => s.modCtx c fun x => { x with seg := some { g with lines := g.lines ++ [.cmd e] } }
  | none => s.enqueue c e

/-! ## Segments (07 R176–R184) -/

/-- An access is handed to its path; a release is a DRAIN before it (05 R138). -/
def Ctx.submit (x : Ctx) (a : Access) : Ctx :=
  { x with
    acc := x.acc ++ [a]
    drains := if a.ord.releases then x.drains ++ [⟨a.scope, a.seq⟩] else x.drains }

/-- May a command enter its queue now? One of a launch that runs no more is dropped and needs no room (13 R264). -/
def State.roomFor (s : State) (c : Nat) (e : EngCmd) : Bool :=
  if !s.accepts c then true
  else
    match e with
    | .cpgo unit _ _ =>
      match s.physChan c unit.toNat with
      | some p => decide ((s.chan (cluOf (coreOf c)) p).heads.length < 4)
      | none => true
    | e => !s.queueFull c e.cls

/-- Release lines in issue order, as far as their paths take them; the others wait (07 R177) (DEDUCED, log 38). -/
def State.release (s : State) (c : Nat) : List SegLine → State
  | [] => s.modCtx c fun x => { x with rel := [] }
  | .acc a :: t => (s.modCtx c fun x => x.submit a).release c t
  | .cmd e :: t =>
    if s.roomFor c e then (s.enqueue c e).release c t else s.modCtx c fun x => { x with rel := .cmd e :: t }

/-- Go on releasing the lines that wait; control may then pass for a trapped context (08 R210). -/
def State.releaseMore (s : State) (c : Nat) : State :=
  match (s.ctx c).rel with
  | [] => s
  | l => (s.release c l).modCtx c fun x => if x.act == .trapWaiting then { x with trapAt := s.cycle } else x

/-- Close the open segment, releasing its lines; a rerun's flag is lowered (07 R178, R182). -/
def State.closeSeg (s : State) (c : Nat) : State :=
  match (s.ctx c).seg with
  | none => s
  | some g => (s.modCtx c fun x => { x with seg := none, rewindFlag := false }).release c ((s.ctx c).rel ++ g.lines)

/-- What a bundle waits for while lines wait for their paths: the queue the oldest is for. -/
def Ctx.relWait (x : Ctx) : Option Wait :=
  match x.rel with
  | [] => none
  | .acc _ :: _ => some (.queueSpace .ctx)
  | .cmd e :: _ => some (.queueSpace e.cls)

/-- Are there unreleased lines (03 R91)? -/
def Ctx.unreleased (x : Ctx) : Bool :=
  !x.rel.isEmpty || match x.seg with | some g => !g.lines.isEmpty | none => false

/-- Restored scalars take fresh residues (07 R176). -/
def freshResidues (m : SMap SVal) : SMap SVal := m.map fun e => (e.1, { e.2 with r := residue e.2.v })

/-- Slots that dropped QLAUNCH lines had reserved (14 R287). -/
def droppedSlots : List SegLine → List (Nat × Nat)
  | [] => []
  | .cmd (.qlaunch q n _) :: t => (q, n) :: droppedSlots t
  | _ :: t => droppedSlots t

/-- Reserved slots whose QLAUNCH was dropped become void, and the launch holds them no longer (14 R287). -/
def State.voidDropped (s : State) (c : Nat) (l : List (Nat × Nat)) : State :=
  let s := l.foldl (fun s e => s.voidHeld e.1 e.2) s
  match (s.ctx c).hall with
  | some h => s.modLaunch h fun x => { x with held := x.held.filter fun e => !l.contains e }
  | none => s

/-- Rewind to the segment entry (07 R180): 8 cycles, no ticks. -/
def State.rewind (s : State) (c : Nat) (g : Seg) : State :=
  let s := (s.landVac c).modCtx c fun x =>
    let x := x.drainFixed
    let g := x.seg.getD g
    { x with
      regs := { x.regs with s := freshResidues g.s, p := g.p }
      loops := g.loops
      ctl := { x.ctl with ldepth := g.ldepth }
      pc := g.pc
      ct := g.ct
      land := x.land.filter fun l => l.issue < g.issue
      seg := some { g with lines := [], rewinds := g.rewinds + 1, rerun := true }
      mulPrev := g.mulPrev
      rewindFlag := true
      rtiDone := false
      walk := []
      landed := []
      act := .ready }
  (s.voidDropped c (droppedSlots g.lines)).busy (coreOf c) 8

/-! ## Traps (03 R96, 07 R179–R184) -/

/-- Causes whose subcode is the rewind count (07 R181). -/
def Trap.counted (t : Trap) : Bool := t.cause == .poisonConsumed || t.cause == .residue

/-- A trap with the rewind count of the open segment as its subcode, where its cause has it (07 R181). -/
def Trap.withCount (t : Trap) (g : Option Seg) : Trap :=
  match g with
  | some g => if t.counted then { t with sub := BitVec.ofNat 8 g.rewinds } else t
  | none => t

/-- Take a trap: the segment is released, fixed results drain, the cause is recorded and the context stops for the
control core, its event waiting for the cluster's queue (08 R209, R210). Landings stay in the landing buffer (DEDUCED,
log 86). -/
def State.stopAt (s : State) (c : Nat) (t : Trap) (pc : BitVec 32) (mask : BitVec 8) : State :=
  let t := t.withCount (s.ctx c).seg
  ((((s.closeSeg c).landVac c).letGo c).modCtx c fun x =>
    let x := x.drainFixed
    { x with
      ctl := { x.ctl with trapcause := t.word, trappc := pc, trapaddr := t.addr, trapmask := mask }
      act := .trapWaiting
      rtiDone := false
      walk := []
      landed := []
      trapAt := s.cycle })

/-- Does a fault rewind (07 R179)? Tag 0xFE0 is persistent wherever it arose (DEDUCED, log 44). -/
def Trap.rewinds (t : Trap) : Bool :=
  match t.cause, t.poi with
  | .residue, _ => true
  | .poisonConsumed, some p => p.core && p.tag != 0xFE0
  | _, _ => false

/-- A residue mismatch detected takes a record of kind 5 in the core's unit, with the segment's rewind count (21 R330);
the array location is free (DESIGN CHOICE, log 3). -/
def State.noteResidue (s : State) (c : Nat) (t : Trap) : State :=
  if t.cause = .residue then
    let g := match (s.ctx c).seg with | some g => g.rewinds | none => 0
    s.tick.openErrorAt (coreUnit (coreOf c)) 5 g (BitVec.ofNat 64 (Config.pick s.fresh)) 0
  else s

/-- A fault at issue: rewind when R179 holds, else the trap. -/
def State.issueFault (s : State) (c : Nat) (t : Trap) (mask : BitVec 8) : State :=
  let s := s.noteResidue c t
  let x := s.ctx c
  match x.seg with
  | some g =>
    if t.rewinds && decide (g.rewinds < 2) then s.rewind c g else s.stopAt c t x.pc mask
  | none => s.stopAt c t x.pc mask

/-! ## Moving to a link value (03 R81) -/

/-- A link value. -/
def linkOf (obj : BitVec 8) (pc : BitVec 32) : Word := BitVec.ofNat 64 (obj.toNat * 2 ^ 32 + pc.toNat)

/-- The code registers of an object-table entry. -/
abbrev Code := BitVec 48 × BitVec 12 × BitVec 12

/-- Outcome of the object-table read of go(). -/
inductive Go where
  | fault (t : Trap)
  | miss (va : Word)
  | order
  | ok (code : Option Code) (note : State → State)

/-- The object-table read of go(v), made before any state changes (03 R81) (DEDUCED, log 24). -/
def State.goRead (s : State) (c : Nat) (v : Word) : Go :=
  let x := s.ctx c
  let obj : BitVec 8 := v.extractLsb' 32 8
  if obj = x.ctl.obj then .ok none id
  else
    let va : Word := x.ctl.otbase.setWidth 64 + BitVec.ofNat 64 (16 * obj.toNat)
    if va.toNat % 16 ≠ 0 then .fault ⟨.align, va, 0, none⟩
    else
      match s.readNow c va 16 with
      | .fault t => .fault (if t.cause = .poisonConsumed then { t with addr := 0 } else t)
      | .miss a => .miss a
      | .order => .order
      | .ok b t =>
        match tagOf b with
        | some g => .fault ⟨.poisonConsumed, 0, 0, some (.mem g)⟩
        | none =>
          let e := valOf b
          if bitsAt e 80 12 = 0 then .fault ⟨.illegalIndex, v, 0, none⟩
          else .ok (some (fld e 0 48, fld e 64 12, fld e 80 12)) fun s => s.noteT (s.who c).hall t 16

/-- The transfer of go(v). -/
def Ctx.go (x : Ctx) (v : Word) (code : Option Code) : Ctx :=
  let x := { x with pc := v.extractLsb' 0 32 }
  match code with
  | none => x
  | some (cb, db, dl) =>
    { x with ctl := { x.ctl with cbase := cb, dbase := db, dlen := dl, obj := v.extractLsb' 32 8 } }

/-! ## User-level interrupts (03 R91–R93) -/

/-- Is an interrupt due (03 R91)? -/
def Ctx.interruptDue (x : Ctx) : Bool :=
  x.ctl.uie && !x.ctl.uiact && (x.ctl.uipend &&& x.ctl.uimask) != 0 && !x.unreleased && decide (x.held ≤ 24)

/-- Swap s56–s63 with the banked set. -/
def Regs.swapBank (r : Regs) : Regs :=
  { r with
    s := (mfilter (fun k => decide (k < 56)) r.s) ++ r.bank
    bank := mfilter (fun k => decide (56 ≤ k)) r.s }

/-- Take what a pending EVPOST has ordered before it (14 R288). -/
def State.acquireEvt (s : State) (c : Nat) : State :=
  let x := s.ctx c
  if x.ctl.uipend.getLsbD 16 && !x.evtAcq.isEmpty then
    (s.acquireNow c x.evtAcq).modCtx c fun x => { x with evtAcq := [] }
  else s

/-- Take the interrupt (03 R92). -/
def State.takeInterrupt (s : State) (c : Nat) : State :=
  let x := s.ctx c
  match s.goRead c x.ctl.uivec with
  | .fault t => s.stopAt c t x.pc 0
  | .miss va => s.block c (.tlb va)
  | .order => s.block c .order
  | .ok code note =>
    let s := ((((note s).closeSeg c).landVac c).acquireEvt c).modCtx c fun x =>
      let x := x.drainFixed
      { x with
        ctl := { x.ctl with uiret := linkOf x.ctl.obj x.pc, uidepth := x.ctl.ldepth, uiact := true, uie := false }
        regs := x.regs.swapBank
        uiCt := x.ct
        uiLand := x.land
        uiMul := x.mulPrev
        walk := []
        landed := []
        land := [] }.go x.ctl.uivec code
    s.busy (coreOf c) 2

/-- Leave the handler (03 R93): after the wait. -/
def State.finishRti (s : State) (c : Nat) (code : Option Code) : State :=
  let s := s.modCtx c fun x =>
    { x with
      regs := x.regs.swapBank
      ctl := { x.ctl with uiact := false, uie := true }
      ct := x.uiCt
      land := x.uiLand
      uiLand := []
      mulPrev := x.uiMul
      act := .ready
      rtiDone := false
      landed := []
      boundary := false }.go x.ctl.uiret code
  s.busy (coreOf c) 2

/-! ## Asynchronous causes (03 R95, R391) -/

/-- LANDLATE counts a wait for a late landing that ends now (03 R71). -/
def Ctx.endLate (x : Ctx) (now : Nat) : Ctx :=
  { x with ctl := { x.ctl with landlate := x.ctl.landlate + BitVec.ofNat 64 (x.lateSoFar now) } }

/-- The wait for a late landing that ends now is sampled (21 R339). -/
def State.lateSample (s : State) (c : Nat) : State :=
  match (s.ctx c).act with
  | .blocked (.landing since) => s.sampleCtx 2 c (s.cycle - since)
  | _ => s

/-- Take the oldest cause due as a trap at the boundary. -/
def State.trapAsync (s : State) (c : Nat) (d : Due) (rest : List Due) : State :=
  let pc := (s.ctx c).pc
  let s := (s.lateSample c).modCtx c fun x => { x.endLate s.cycle with causes := rest }
  s.stopAt c d.trap pc 0

/-- MWAIT ends with a reason (08 R200). -/
def State.endMwait (s : State) (c : Nat) (dst : SReg) (reason : Nat) : State :=
  s.modCtx c fun x => { (x.setS dst (.of (BitVec.ofNat 64 reason) none)) with
    act := .ready, mon := ⟨none, false, false⟩ }

/-- The first cause that ends the launch, with the rest; else the first cause. -/
def pickCause (l : List Due) : Option (Due × List Due) :=
  match l.find? (·.ends) with
  | some d => some (d, l.filter fun e => !e.ends)
  | none => match l with | [] => none | d :: t => some (d, t)

/-- An asynchronous cause that is due is taken where the context stands (03 R391) (DEDUCED, log 32): none before an RTI that
has waited has completed or, for one that ends the launch, waits again (03 R93). -/
def State.takeCause (s : State) (c : Nat) : State :=
  let x := s.ctx c
  match pickCause x.causes with
  | none => s
  | some (d, rest) =>
    if x.rtiDone && (!d.ends || x.isReady) then s
    else
    match x.act with
    | .ready | .parked => s.trapAsync c d rest
    | .blocked w =>
      if d.ends || w.beforeIssue then s.trapAsync c d rest
      else
        match w with
        | .mwait dst _ => s.endMwait c dst 4
        | _ => s
    | _ => s

/-! ## Parking, releasing, resuming, killing (03 R85, 08 R209, R211) -/

/-- A park request. -/
def State.requestPark (s : State) (c : Nat) : State :=
  s.modCtx c fun x => match x.act with
    | .free | .halting | .halted | .parked => x
    | _ => { x with parkReq := true }

/-- Park at a boundary (03 R85, 07 R178): fixed-latency results in flight land, at once (03 R97) (DEDUCED, log 86). -/
def State.park (s : State) (c : Nat) : State :=
  (((s.closeSeg c).landVac c).letGo c).modCtx c fun x =>
    { x.drainFixed with act := .parked, parkReq := false, rtiDone := false, walk := [], landed := [] }

/-- Release a parked context. -/
def State.unpark (s : State) (c : Nat) : State :=
  s.modCtx c fun x => if x.act == .parked then { x with act := .ready, boundary := false } else x

/-- Resume a trapped context at its PC window value. While its event still waits for the cluster's queue it is not resumed
(DESIGN CHOICE, log 114). -/
def State.resume (s : State) (c : Nat) : State :=
  s.modCtx c fun x => if x.act == .trapped then { x with act := .ready, boundary := false } else x

/-- Discard a context: nothing of it is left (03 R97) (DEDUCED, log 108). -/
def State.killCtx (s : State) (c : Nat) : State :=
  let k := cluOf (coreOf c)
  let s := s.setCtx c .zero
  s.modCluster k fun x =>
    { x with
      events := x.events.filter fun e => e.ctx ≠ c
      delivered := x.delivered.filter fun e => e.ctx ≠ c
      walker := x.walker.dropOf fun d => d == c }

end Sys2Proof.Machine
end

