-- ==== Sys2Proof/Machine/Abort.lean ====
section
/-! DEFINITION. What follows an abort or a kill (13 R264, R265, 14 R280, R283, 08 R211): the team is discarded, the
record is requeued or failed, the resources come free. -/

namespace Sys2Proof.Machine

open Sys2Proof

/-- The granules a core has granted to a context are withdrawn (07 R185). -/
def ungrant (g : Word) (i : Nat) : Word :=
  BitVec.ofNat 64 ((List.range 8).foldl (fun a b =>
    let f := g.toNat / 2 ^ (8 * b) % 256
    a + (if f / 128 = 1 ∧ f % 4 = i then 0 else f) * 2 ^ (8 * b)) 0)

/-- inuse of a cluster zone, from the launches still on it (22 R350). -/
def State.recomputeUse (s : State) (k : Nat) : State :=
  let u := (s.sched.launches.filter fun e => e.2.clusters.contains k && !e.2.team.isEmpty).foldl (fun (a : BitVec 4) e =>
    if a < e.2.cls then e.2.cls else a) 0
  { s with cool := { s.cool with zones := mset .zero s.cool.zones k { (mget .zero s.cool.zones k) with inuse := u } } }

/-- Has a launch a context on some of these cores? -/
def Launch.onCore (l : Launch) (p : Nat → Bool) : Bool := l.team.any fun c => p (coreOf c)

/-- Has a launch a context on a cluster zone? -/
def Launch.onZone (l : Launch) (z : Nat) : Bool := l.onCore fun k => cluOf k == z

/-- Power-gate, or ungate, the cores of a cluster zone. -/
def State.gateZone (s : State) (z : Nat) (g : Bool) : State :=
  if 32 ≤ z then s else (List.range 8).foldl (fun s i => s.modCore (8 * z + i) fun k => { k with gated := g }) s

/-- The cores of a withdrawn zone are gated, once no launch that commits has a context on it (22 R354). -/
def State.gateWithdrawn (s : State) (z : Nat) : State :=
  if (s.zone z).state = .withdrawn ∧ !(s.sched.launches.any fun e => e.2.state == .committing && e.2.onZone z) then s.gateZone z true else s

/-- Clear the leaf of a page, walking down from a table (12 R240). -/
def State.clearLeaf (s : State) (va : Word) : Nat → Nat → State
  | 0, _ => s
  | l + 1, t =>
    let a := t + 8 * bitsAt va.toNat (9 * (l + 1) + 3) 9
    let e := valOf (s.readMem none a 0 8)
    if bitsAt e 0 1 = 0 then s
    else if l = 0 ∨ bitsAt e 1 1 = 1 then s.writeMem none a 0 (clean (List.replicate 8 0))
    else s.clearLeaf va l (bitsAt e 12 36 * 4096)

/-- Free a page of a partition's address space: it is unmapped, and no TLB keeps it. -/
def State.freePage (s : State) (p : Fin 64) (va : Word) : State :=
  let root := (mget 0 s.tr.trroot p.val).toNat
  let s := s.clearLeaf va 4 (bitsAt root 12 36 * 4096)
  { s with tr := { s.tr with tlb := s.tr.tlb.filter fun e => !(e.part == some p && e.base == va) } }

/-- The copies of the object table come free when the launch commits, fails or is requeued (17 R305) (DEDUCED, log 69). -/
def State.freeTables (s : State) (h : Hall) (l : Launch) : State :=
  (l.tables.foldl (fun s va => s.freePage l.part va) s).modLaunch h fun l => { l with tables := [] }

/-- The team's contexts, granules and channels come free (14 R283) (DEDUCED, log 108). -/
def State.freeTeam (s : State) (h : Hall) : State :=
  match s.launch h with
  | none => s
  | some l =>
    let s := l.team.foldl (fun s c =>
      (s.killCtx c).modCore (coreOf c) fun k => { k with grants := ungrant k.grants (c % 4) }) s
    let s := l.clusters.foldl (fun s k => s.modCluster k fun x =>
      { x with chans := x.chans.filter fun e => e.2.hall ≠ some h }) s
    let s := l.clusters.foldl State.recomputeUse ((s.freeTables h l).modLaunch h fun l => { l with team := [] })
    l.clusters.foldl State.gateWithdrawn s

/-- Requeue a record at its queue position (13 R265, R260): it returns to state 1 and gives up its turn. -/
def State.requeue (s : State) (q n : Nat) : State :=
  ((s.setRecState q n 1).modRec q n fun r => { r with requeued := true, drawn := false }).drawDue

/-- Fail a record to the host. -/
def State.failRec (s : State) (q n : Nat) (c : Cause) : State := (s.setRecCause q n c.code).finishRec q n 5

/-- What a conflict abort or a retry brings (13 R265) (DEDUCED, log 109). -/
def State.conflictRec (s : State) (q n : Nat) (excl : Bool) (c : Cause) : State :=
  let s := ((s.setRecCause q n c.code).bumpRuns q n).modRec q n fun r =>
    if excl then { r with exclAborts := r.exclAborts + 1, nextExcl := true }
    else { r with aborts := r.aborts + 1, nextExcl := r.nextExcl || decide (4 ≤ r.aborts + 1) }
  if excl && decide (3 ≤ (s.recOf q n).exclAborts) then s.failRec q n c else s.requeue q n

/-- What a budget overrun brings (14 R280): prio lowered, budget doubled, runs raised; a third overrun fails (DEDUCED,
log 113). -/
def State.budgetRec (s : State) (q n : Nat) : State :=
  let s := (s.setRecCause q n Cause.budget.code).bumpRuns q n
  let s := s.modRec q n fun r => { r with overruns := r.overruns + 1 }
  if 3 ≤ (s.recOf q n).overruns then s.finishRec q n 5
  else
    (s.modRecWord q n fun v =>
      putBits (putBits v 4 3 (bitsAt v 4 3 - 1)) 32 32 (min (2 * bitsAt v 32 32) (2 ^ 32 - 1))).requeue q n

/-- Requeue with runs raised, or fail when runs, once raised, is 4 or more (08 R211). -/
def State.rerunRec (s : State) (q n : Nat) (c : Cause) : State :=
  let s := (s.setRecCause q n c.code).bumpRuns q n
  let runs := match s.record q n with | some r => r.runs | none => 4
  if 4 ≤ runs then s.failRec q n c else s.requeue q n

/-- Handle the record of an aborted launch. An exclusive run that aborted runs exclusively again, and until it has
committed or failed nothing else is dispatched (13 R267) (DEDUCED, log 109). -/
def State.afterAbort (s : State) (l : Launch) : State :=
  let q := l.queue
  let n := l.recNo
  let s := if l.excl then s.modRec q n fun r => { r with exclHeld := true, nextExcl := true } else s
  let s := match l.why with
    | .conflict _ | .retryService _ | .failReport _ => s.setReport q n l.report
    | _ => s.setReport q n 0
  match l.why with
  | .conflict true => s.conflictRec q n l.excl .txAborted
  | .conflict false => (s.bumpRuns q n).failRec q n .txAborted
  | .retryService c => s.conflictRec q n l.excl c
  | .failReport c => (s.bumpRuns q n).failRec q n c
  | .shadowFull =>
    (((s.setRecCause q n Cause.shadowFull.code).bumpRuns q n).modRec q n fun r => { r with nextExcl := true }).requeue q n
  | .fail c => (s.bumpRuns q n).failRec q n c
  | .rerun c => s.rerunRec q n c
  | .budget => s.budgetRec q n
  | .outside _ | .reset | .none => s.requeue q n

/-- Complete the abort of launch `h`: the team is killed, held QLAUNCH slots become void, the record is handled
(DEDUCED, log 72). -/
def State.finishAbort (s : State) (h : Hall) : State :=
  match s.launch h with
  | none => s
  | some l =>
    if l.state = .aborted ∧ l.team ≠ [] then
      let s := s.freeTeam h
      let s := l.held.foldl (fun s e => s.voidHeld e.1 e.2) s
      (s.modLaunch h fun l => { l with held := [] }).afterAbort l
    else s

/-- Kill a launch (08 R209, R211): abort it, unless it has aborted already, and complete the abort. -/
def State.killLaunch (s : State) (h : Hall) (why : Why) : State := (s.abortLaunch h why).finishAbort h

/-- Does a reason to kill come of a cause of the launch's own, and not of its abort? -/
def Why.own : Why → Bool
  | .rerun _ | .fail _ | .failReport _ | .retryService _ => true
  | .outside c => c != .txAborted
  | _ => false

/-- A kill for the cause a trapped context shows: a launch that has aborted since is handled by the first cause (08 R210,
R211). -/
def State.killBy (s : State) (h : Hall) (why : Why) : State :=
  (s.modLaunch h fun l => if l.state = .aborted ∧ why.own then { l with why := why } else l).killLaunch h why

/-- The first-level action of the cluster runtime for a cause, as a reason to abort (08 R211) (DESIGN CHOICE, log 65).
-/
def Cause.why : Cause → Why
  | .poisonConsumed => .rerun .poisonConsumed
  | .residue => .rerun .residue
  | .landingTimeout => .rerun .landingTimeout
  | .expandSize => .rerun .expandSize
  | .staleTable => .rerun .staleTable
  | .heartbeat => .outside .heartbeat
  | .coolant => .outside .coolant
  | .txAborted => .conflict true
  | .shadowFull => .shadowFull
  | .budget => .budget
  | c => .fail c

/-- A kill through CTXCTL (08 R211, 14 R283): that of a trapped context carries its cause; any other is for a reason
outside the launch (log 21) (DEDUCED, log 21). -/
def State.ctxctlKill (s : State) (c : Nat) : State :=
  let x := s.ctx c
  match x.hall with
  | none => s
  | some h =>
    let why := match x.act with
      | .trapped | .trapWaiting => ((Cause.ofCode (x.ctl.trapcause.toNat % 256)).map Cause.why).getD (.outside .txAborted)
      | _ => .outside .txAborted
    s.killBy h why

/-- A write of CTXCTL at supervisor privilege (08 R209). -/
def State.writeCtxctl (s : State) (c v : Nat) : State :=
  let s := if bitAt v 0 then s.resume c else s
  let s := if bitAt v 1 then s.requestPark c else s
  let s := if bitAt v 2 then s.unpark c else s
  if bitAt v 3 then s.ctxctlKill c else s

end Sys2Proof.Machine
end

