-- ==== Sys2Proof/Machine/Space.lean ====
section
/-! DEFINITION. Management space: the registers of the package, what a write of each does (12 R243–R246,
14 R274, 21 R324, R325, R329, R330, R338, 22 R347–R349, 23 R359, R360, R372). -/

namespace Sys2Proof.Machine

open Sys2Proof

/-! ## Invalidation (12 R243) -/

/-- Bytes a TRINV size names. -/
def trinvSize (v : Word) : Nat := match bitsAt v.toNat 4 2 with | 0 => 2 ^ 12 | 1 => 2 ^ 16 | 2 => 2 ^ 21 | _ => 2 ^ 30

/-- Is the entry of the table a TRINV word names? -/
def Tlb.inTable (e : Tlb) (v : Word) : Bool :=
  if v.getLsbD 1 then e.part.isNone else (e.part.map fun p => p.val) == some (bitsAt v.toNat 6 6)

/-- Does a TRINV word name the entry? -/
def Tlb.named (e : Tlb) (v : Word) : Bool :=
  let n := trinvSize v
  let lo := v.toNat / 2 ^ 12 * 2 ^ 12 / n * n
  match bitsAt v.toNat 2 2 with
  | 0 => e.inTable v && decide (e.base.toNat < lo + n) && decide (lo < e.base.toNat + e.size)
  | 1 => e.inTable v
  | 2 => true
  | _ => false

/-- A TRINV write takes effect: mode 3 is ignored; go drops the entries named (DEDUCED, log 76). -/
def Trans.trinv_ (t : Trans) (seq : Nat) (v : Word) : Trans :=
  if bitsAt v.toNat 2 2 = 3 then t
  else
    let t := { t with trinv := v &&& ~~~ 1 }
    if v.getLsbD 0 then { t with inv := some v, invSeq := seq, tlb := t.tlb.filter fun e => !e.named v } else t

/-- A write of TRINV: while an invalidation is in progress it waits. -/
def State.writeTrinv (s : State) (v : Word) : State :=
  { s with tr := if s.tr.inv.isSome then { s.tr with invNext := s.tr.invNext ++ [v] } else s.tr.trinv_ s.seq v }

/-- Has every access that may have used an entry named performed? One that a segment still holds has not. -/
def State.invSettled (s : State) : Bool :=
  s.ctxs.all fun e =>
    (e.2.acc.all fun a => !(decide (a.seq < s.tr.invSeq) && a.undone)) &&
      e.2.heldLines.all fun l => match l with | .acc a => !decide (a.seq < s.tr.invSeq) | .cmd _ => true

/-- Writes of TRINV that waited take effect, up to one that starts an invalidation; `k` bounds their number. -/
def Trans.trinvRest (t : Trans) (seq : Nat) : Nat → Trans
  | 0 => t
  | k + 1 =>
    match t.inv, t.invNext with
    | none, v :: l => ({ t with invNext := l }.trinv_ seq v).trinvRest seq k
    | _, _ => t

/-- The invalidation in progress ends (DEDUCED, log 76). -/
def State.endTrinv (s : State) : State :=
  match s.tr.inv with
  | some v =>
    if s.invSettled then
      let t : Trans := { s.tr with inv := none, tlb := s.tr.tlb.filter fun e => !e.named v }
      { s with tr := t.trinvRest s.seq t.invNext.length }
    else s
  | none => s

/-! ## Keys (12 R246) -/

/-- Is a KEYCMD word refused? -/
def Trans.keyRefuses (t : Trans) (v : Word) : Bool :=
  t.keyPending.isSome || v.extractLsb' 4 12 == 0 || !(bitsAt v.toNat 0 4 == 1 || bitsAt v.toNat 0 4 == 2 || bitsAt v.toNat 0 4 == 3)

/-- Committed lines held under a key's material are folded (13 R268). -/
def Mem.foldKey (m : Mem) (k : Option (BitVec 512)) : Mem :=
  (m.shadow.filter fun e => e.ticket.isSome && e.val.key == k).foldl (fun m e => m.fold e.line) m

/-- The 64 bytes of key material KEYSRC names in management-private memory: by its management-space address, or by its
physical one (DEDUCED, log 75). -/
def State.keyMaterial (s : State) (src : Word) : BitVec 512 :=
  let a := src.toNat % 2 ^ 48
  let pa := if a / 2 ^ 47 = 1 then s.privPa (a % 2 ^ 28) else some a
  match pa with
  | some pa => BitVec.ofNat 512 (valOf (s.readMem none (pa / 64 * 64) 0 64))
  | none => 0

/-- A write of KEYCMD (12 R246): a refused command sets KEYST.error and changes nothing else. Lines keep the material they
are stored under; the slot takes the new material, and its TLB entries are dropped (DEDUCED, log 75). -/
def State.writeKeycmd (s : State) (v : Word) : State :=
  if s.tr.keyRefuses v then { s with tr := { s.tr with keyst := s.tr.keyst ||| 2 } }
  else
    let k := v.extractLsb' 4 12
    let s := s.folding fun m => m.foldKey (s.tr.material k)
    let t := { s.tr with keycmd := v &&& 0x7FFFF0, keyPending := some v, keyst := 1 }
    let drop := t.tlb.filter fun e => e.key != k
    match bitsAt v.toNat 0 4 with
    | 1 => { s with tr := { t with
        keys := mset .zero t.keys k.toNat ⟨true, s.keyMaterial t.keysrc, v.extractLsb' 16 6, v.getLsbD 22⟩
        tlb := drop } }
    | 2 => { s with tr := { t with keys := mset .zero t.keys k.toNat .zero, tlb := drop } }
    | _ => { s with tr := t }

/-- A KEYCMD event: the word is written when it carries the op and is not refused. -/
def State.keyEvent (s : State) (op : Nat) (v : Word) : State :=
  if bitsAt v.toNat 0 4 = op ∧ !s.tr.keyRefuses v then s.writeKeycmd v else s

/-! ## Coolant allocation (22 R347, R348) -/

/-- The least step of a zone: of a cluster zone its inuse; of an HBM-edge zone what the controller holds it at, the step of its
die's expected load, and 9 or more in S2 (22 R350) (DEDUCED, log 81). -/
def State.leastStep (s : State) (z : Nat) : BitVec 4 :=
  let u := (s.zone z).inuse
  if z < 32 then u else
    let l := Config.edgeLoad z
    if s.mgmt.svc = 2 ∧ l < 9 then 9 else l

/-- Is a write of CLALLOC.z refused? -/
def State.allocRefuses (s : State) (z : Nat) (v : Word) : Bool :=
  let x := s.zone z
  let w := v.toNat
  decide (min s.cool.budget.toNat s.cool.avail.toNat < s.stepSum - x.step.toNat + bitsAt w 0 4) ||
    decide (bitsAt w 0 4 < (s.leastStep z).toNat) ||
    (x.inuse != 0 && !(x.owner == fld w 16 6 && x.ov == bitAt w 22 && x.any == bitAt w 23))

/-- A write of CLALLOC.z: applied, or refused whole. -/
def State.writeAlloc (s : State) (z : Nat) (v : Word) : State :=
  let w := v.toNat
  if s.allocRefuses z v then { s with cool := { s.cool with refused := true } }
  else s.modZone z fun x => { x with step := fld w 0 4, owner := fld w 16 6, ov := bitAt w 22, any := bitAt w 23 }

/-! ## Ports (23 R359) -/

/-- Change a port. -/
def State.modPort (s : State) (p : Nat) (f : Port → Port) : State :=
  s.modFab fun x => { x with ports := mset .zero x.ports p (f (mget .zero x.ports p)) }

/-- en becomes 1: the port trains; a failed one retrains. en becomes 0: it is down, but a failed one stays failed until
it is trained again. -/
def Port.setEn (p : Port) (en : Bool) : Port :=
  if en && !p.en then { p with en := true, state := 1 }
  else if !en && p.en then { p with en := false, state := if p.state = 3 then 3 else 0, lanes := 0 }
  else p

/-- A write of a port's register: replays clears the bits written 1. -/
def Port.write (p : Port) (v : Word) : Port :=
  { p with replays := p.replays &&& ~~~ (v.extractLsb' 24 8) }.setEn (v.getLsbD 3)

/-! ## Capture units (21 R338) -/

/-- The clear of a capture unit: count, sum and bins zero, min all ones, max zero. -/
def Capture.clear (u : Capture) : Capture := { Capture.zero with ctl := u.ctl }

/-- A write of CAPCTL. -/
def Capture.write (u : Capture) (v : Word) : Capture :=
  let u := { u with ctl := v &&& 0x80FFFFFFFFFFFFFF }
  if v.getLsbD 62 then u.clear else u

/-- Change a capture unit. -/
def State.modCapture (s : State) (d u : Nat) (f : Capture → Capture) : State :=
  s.modDie d fun x => { x with captures := mset .zero x.captures u (f (mget .zero x.captures u)) }

/-! ## Queues (14 R274) -/

/-- A write of a word of a queue descriptor: en cleared by software takes the queue out of sight, and with the tail error. -/
def Queue.write (q : Queue) (i : Nat) (v : Word) : Queue :=
  let w := v.toNat
  match i with
  | 0 => { q with base := BitVec.ofNat 64 (keep v 7 41) }
  | 1 => { q with tail := BitVec.ofNat 64 (keep v 3 45) }
  | 2 => { q with part := fld w 10 6, lsize := fld w 5 5, dev := bitAt w 1, en := bitAt w 0, tailErr := false }
  | _ => q

/-! ## Writing management space -/

/-- A legal heartbeat period (21 R325). -/
def hbPeriodOk (v : Nat) : Bool := decide (100 ≤ v) && decide (v ≤ 100000)

/-- Write HBCTL.period; other values are ignored. -/
def State.writeHbctl (s : State) (v : Nat) : State :=
  if hbPeriodOk v then s.modMgmt fun m => { m with hbPeriod := BitVec.ofNat 32 v } else s

/-- Clear the HBSTATE bits written 1: the cores return to scheduling. -/
def State.clearHb (s : State) (d : Nat) (v : Word) : State :=
  (List.range 64).foldl (fun s i =>
    if v.getLsbD i then s.modCore (64 * d + i) fun k => { k with stopped := false, misses := if k.stopped then 0 else k.misses }
    else s) s

/-- Write a word of the system control block. -/
def State.writeSys (s : State) (off : Nat) (v : Word) : State :=
  if off = 0 then s.writeHbctl (bitsAt v.toNat 0 32)
  else if 0x08 ≤ off ∧ off < 0x28 then s.clearHb ((off - 8) / 8) v
  else if 0x100 ≤ off ∧ off < 0x180 then s.modPort ((off - 0x100) / 8) fun p => p.write v
  else if 0x180 ≤ off ∧ off < 0x1C0 then
    let i := (off - 0x180) / 16
    s.modFab fun f =>
      let o := mget (0, 0) f.frwin i
      let n : Word × Word := if off % 16 = 0 then (v &&& 0xFFFCFFFF00000000, o.2) else (o.1, v &&& 0x3FFFFFFFFFFF)
      { f with frwin := mset (0, 0) f.frwin i n }
  else if 0x1C0 ≤ off ∧ off < 0x240 then
    let i := (off - 0x1C0) / 8
    s.modFab fun f =>
      { f with cxslots := mset .zero f.cxslots i { (mget .zero f.cxslots i) with ov := v.getLsbD 6, owner := v.extractLsb' 0 6 } }
  else s

/-- Write a word of the translation block. -/
def State.writeTrans (s : State) (off : Nat) (v : Word) : State :=
  let root : Word := BitVec.ofNat 64 (keep v 12 36 + bitsAt v.toNat 0 1)
  if off < 0x200 then { s with tr := { s.tr with trroot := mset 0 s.tr.trroot (off / 8) root } }
  else if off = 0x200 then { s with tr := { s.tr with trsup := root } }
  else if off = 0x208 then s.writeTrinv v
  else if off = 0x218 then { s with tr := { s.tr with keysrc := BitVec.ofNat 64 (keep v 6 42) } }
  else if off = 0x220 then s.writeKeycmd v
  else if off = 0x228 then (if v.getLsbD 1 then { s with tr := { s.tr with keyst := s.tr.keyst &&& 1 } } else s)
  else if 0x240 ≤ off ∧ off < 0x260 then
    { s with tr := { s.tr with rsv := mset 0 s.tr.rsv ((off - 0x240) / 8) (BitVec.ofNat 64 (keep v 63 1 + keep v 0 46)) } }
  else s

/-- Write a word of the coolant block (PRESUMED, log 30). -/
def State.writeCool (s : State) (off : Nat) (v : Word) : State :=
  if off < 0x140 then s.writeAlloc (off / 8) v
  else if off = 0x400 then
    { s with cool := { s.cool with
        refused := s.cool.refused && !v.getLsbD 63
        budget := BitVec.ofNat 9 (min (bitsAt v.toNat 0 9) 500) } }
  else s

/-- A write of an 8-byte word of management space at management privilege: outside every block it faults TRANSLATE, which the
pair reports (21 R324) (DEDUCED, log 106). -/
def State.writeMgmt (s : State) (off : Nat) (v : Word) : State :=
  match blockOf off with
  | .system o => s.writeSys o v
  | .trans o => s.writeTrans o v
  | .queue n i => s.modQueue n fun q => q.write i v
  | .share p => s.modSched fun x => { x with pshare := mset 0 x.pshare p (v.setWidth 8) }
  | .capture d u o => if o = 0 then s.modCapture d u fun c => c.write v else s
  | .cool o => s.writeCool o v
  | .priv o => match s.privPa o with
    | some pa => s.writeMem none pa 0 (clean (bytesOf 8 v.toNat))
    | none => s
  | .errors _ _ _ => s
  | .empty => s
  | .outside => s.emit (.report 10 (BitVec.ofNat 64 (mgmtBase + off)))

/-- The bits of the register at an offset that a 1 written clears (21 R325, 12 R244, 22 R348, 23 R359): a byte that is not
written writes none of them. -/
def clearsAt (off : Nat) : Word :=
  match blockOf off with
  | .system o => if 0x08 ≤ o ∧ o < 0x28 then BitVec.allOnes 64 else if 0x100 ≤ o ∧ o < 0x180 then 0xFF000000 else 0
  | .trans o => if o = 0x228 then 2 else 0
  | .cool o => if o = 0x400 then 0x8000000000000000 else 0
  | _ => 0

/-- A write of bytes at management privilege: private memory takes the bytes, a register the word they stand in (21 R324)
(DEDUCED, log 106). -/
def State.putMgmt (s : State) (off : Nat) (b : List PByte) : State :=
  match blockOf off with
  | .priv o => match s.privPa o with
    | some pa => s.writeMem none pa 0 b
    | none => s
  | _ =>
    let w := ((s.mgmtWord (off / 8 * 8)).getD (0, none)).1 &&& ~~~(clearsAt (off / 8 * 8))
    s.writeMgmt (off / 8 * 8)
      (putWord w none (BitVec.ofNat 64 (valOf b * 2 ^ (8 * (off % 8)))) ((2 ^ b.length - 1) * 2 ^ (off % 8)) none).1

/-- Write bytes at any target, management space among them. -/
def State.writeAny (s : State) (h : Option Hall) (t : Target) (b : List PByte) : State :=
  match t with
  | .mgmt o => s.putMgmt o b
  | t => s.writeT h t b

end Sys2Proof.Machine
end

