-- ==== Sys2Proof/Machine/Access.lean ====
section
/-! DEFINITION. Accesses of the CTX path: how an element performs (05 R130–R132, 12 R248–R251, 13 R258, 23 R361), how
its data reaches its landing, and the checks an access runs at issue (05 R133). -/

namespace Sys2Proof.Machine

open Sys2Proof

/-! ## Contributions to a reduction window (23 R361, R362) -/

/-- A staged entry's value joined with a contribution (DEDUCED, log 102). -/
def joinStaged (a : Word) (x y : Word) : Word :=
  let n := 2 ^ bitsAt a.toNat 56 2
  BitVec.ofNat 64 (atomicVal (frOp a) n (lowBytes n x.toNat) (lowBytes n y.toNat) 0)

/-- Package that issued a hallmark (13 R253). -/
def issuerOf (h : Hall) : BitVec 16 := h.extractLsb' 32 16

/-- Epoch known of an issuer. -/
def State.epochOf (s : State) (p : BitVec 16) : BitVec 32 := if p = Config.pkgId then s.fab.epoch else mget 0 s.fab.epochs p.toNat

/-- Release the staged entries that satisfy `p`. -/
def State.dropStaged (s : State) (p : Staged → Bool) : State :=
  s.modFab fun f => { f with staged := f.staged.filter fun e => !p e }

/-- An epoch of another package is seen: a newer one releases its older staged entries (23 R364). -/
def State.seeEpoch (s : State) (pkg : BitVec 16) (epoch : BitVec 32) : State :=
  if s.epochOf pkg < epoch ∧ pkg ≠ Config.pkgId then
    (s.dropStaged fun e => issuerOf e.hall == pkg && decide (e.epoch < epoch)).modFab fun f =>
      { f with epochs := mset 0 f.epochs pkg.toNat epoch }
  else s

/-- Is a staged entry the one of a contribution's hallmark and word? -/
def Staged.isFor (e : Staged) (x : Contribution) : Bool := decide (e.hall = x.hall ∧ e.pa = x.pa)

/-- A staged entry with a contribution joined to it. -/
def Staged.join (a : Word) (x : Contribution) (e : Staged) : Staged :=
  if e.isFor x then { e with value := joinStaged a e.value x.value } else e

/-- Stage a partial at this package, the home of its window, under its hallmark; false when no slot is free (DEDUCED,
log 102). -/
def State.stage (s : State) (x : Contribution) : State × Bool :=
  let a := (mget (0, 0) s.fab.frwin x.window.val).1
  if s.fab.staged.any fun e => e.isFor x then
    (s.modFab fun f => { f with staged := f.staged.map (Staged.join a x) }, true)
  else
    let r := s.makeRoom (homeDie (x.pa / 64))
    if r.2 then
      (r.1.modFab fun f =>
        { f with staged := f.staged ++ [⟨x.hall, x.home, x.window, x.pa, x.value, x.epoch⟩] }, true)
    else (r.1, false)

/-- Add a home to a launch's touch list (23 R363). -/
def State.touch (s : State) (h : Hall) (home : BitVec 16) : State :=
  s.modLaunch h fun l => if l.touch.any (·.home = home) then l else { l with touch := l.touch ++ [⟨home, 0, false, false⟩] }

/-- A contribution to window `i` from this package. -/
def State.contribution (s : State) (h : Hall) (i pa v : Nat) : Contribution :=
  ⟨h, (mget (0, 0) s.fab.frwin i).1.extractLsb' 32 16, ⟨i % 4, Nat.mod_lt _ (by decide)⟩, pa, BitVec.ofNat 64 v, s.fab.epoch⟩

/-- A launch's contribution leaves for its home: staged here when this package is the home, else sent (23 R361). -/
def State.contribute (s : State) (h : Hall) (i pa v : Nat) : State :=
  let a := (mget (0, 0) s.fab.frwin i).1
  let x := s.contribution h i pa v
  match s.launch h with
  | some l =>
    if l.state = .running then
      let s := s.touch h x.home
      if frHome a then
        match s.stage x with
        | (s, true) => s
        | (s, false) => s.abortLaunch h .shadowFull
      else s.emit (.contribution x)
    else s
  | none => s

/-! ## Release and acquire bookkeeping (05 R138, 24 R383) -/

/-- What earlier releases of the bytes at a target ordered, for an acquire of context `c` at scope `sc` (DEDUCED, log
10). -/
def State.acquired (s : State) (c : Nat) (sc : Scope) (t : Target) (n : Nat) : List (Nat × Nat) :=
  (s.mem.rel.filter fun e => e.1.overlaps 8 t n).flatMap fun e =>
    (e.2.filter fun p => sameInst (p.scope.meet sc) c p.ctx).flatMap (·.deps)

/-- A write of the bytes at a target: it replaces what was released there, and a release records its own (DEDUCED, log
10). -/
def State.noteWrite (s : State) (c : Nat) (a : Access) (t : Target) (n : Nat) : State :=
  let l := if a.ord.releases then s.unperformed c a.seq else []
  let t8 := t.at_ (t.off / 8 * 8)
  s.modMem fun m =>
    let rest := m.rel.filter fun e => !e.1.overlaps 8 t n
    { m with rel := if l.isEmpty then rest else rest ++ [(t8, [⟨c, a.scope, l⟩])] }

/-! ## Performing -/

/-- What bytes read hold: their value and the poison of each 8-byte piece. -/
def gotOf (b : List PByte) : Nat × List (Nat × Tag) :=
  (valOf b, ((pieces 8 (b.length / 8 + 1) b).zipIdx).filterMap fun e => (tagOf e.1).map fun t => (e.2, t))

/-- CTXCTL writes (08 R209) and every other write. -/
def State.storeT (s : State) (h : Option Hall) (t : Target) (n v : Nat) : State :=
  match t with
  | .win k 15 off =>
    if 0x40 ≤ off ∧ off < 0x60 then
      if off % 8 = 0 then s.writeCtxctl (4 * k + (off - 0x40) / 8) (lowBytes n v) else s
    else s.writeT h t (clean (bytesOf n v))
  | _ => s.writeAny h t (clean (bytesOf n v))

/-- A contribution without a launch, to a window whose home is another package, is sent and committed at once (DESIGN CHOICE,
log 85). -/
def State.contributeFree (s : State) (i pa v : Nat) : State :=
  let x := s.contribution 0 i pa v
  (s.emit (.contribution x)).emit (.commit 0 x.home s.fab.epoch)

/-- Perform one element: the state after it, and what it read. -/
def State.doElem (s : State) (c : Nat) (a : Access) (e : Elem) : State × Option (Nat × List (Nat × Tag)) :=
  match a.kind with
  | .load =>
    let s' := s.noteT a.hall e.tgt e.size
    (if a.ord.acquires then s'.acquire c a.seq (s.acquired c a.scope e.tgt e.size) else s',
     some (gotOf (s.readCtx c a.hall a.seq e.tgt e.size)))
  | .store => ((s.storeT a.hall e.tgt e.size e.data).noteWrite c a e.tgt e.size, none)
  | .atomic op =>
    match a.hall, s.windowAt e.tgt, e.tgt with
    | some h, some (i, pa), _ => (s.contribute h i pa (lowBytes e.size e.data), none)
    | none, _, .fabric i pa => (s.contributeFree i pa (lowBytes e.size e.data), none)
    | _, _, _ =>
      let l := if a.ord.acquires then s.acquired c a.scope e.tgt e.size else []
      let t8 := e.tgt.at_ (e.tgt.off / 8 * 8)
      let b := s.readAny a.hall t8 8
      let o := e.tgt.off % 8
      let w := applyElem (.atomic op) (BitVec.ofNat 64 (valOf b), tagOf b) o e.size e.data e.cmp
      let nb := ((taggedBytes 8 w.1.toNat w.2).drop o).take e.size
      (((s.writeAny a.hall e.tgt nb).noteWrite c a e.tgt e.size).acquire c a.seq l, some (gotOf ((b.drop o).take e.size)))

/-- Does an access return data to a landing? -/
def Access.returns (a : Access) : Bool := match a.form with | .none => false | _ => true

/-- The access with element of lane `i` performed. -/
def Access.setDone (a : Access) (i : Nat) (g : Option (Nat × List (Nat × Tag))) : Access :=
  { a with elems := a.elems.map fun e => if e.lane = i then { e with done := true, got := g } else e }

/-- Replace access `q` of a context. -/
def Ctx.modAcc (x : Ctx) (q : Nat) (f : Access → Access) : Ctx :=
  { x with acc := x.acc.map fun a => if a.seq = q then f a else a }

/-- Drop accesses that are over (all performed, nothing to return) and DRAINs that hold nothing. -/
def Ctx.cleanAcc (x : Ctx) : Ctx :=
  let acc := x.acc.filter fun a => a.undone || a.returns
  { x with acc := acc, drains := x.drains.filter fun d => acc.any fun b => decide (b.seq < d.seq) && b.undone }

/-- May the element perform now? Elements of one access to shared bytes perform in ascending order, those of an SCTA all
do (05 R131) (DEDUCED, log 10). -/
def State.mayPerform (s : State) (c : Nat) (a : Access) (e : Elem) : Bool :=
  !e.done && !s.mustWait c a.seq e.tgt e.size && !s.keyBusy e.tgt &&
    !(a.elems.any fun d => decide (d.lane < e.lane) && !d.done &&
      (d.tgt.overlaps d.size e.tgt e.size || match a.kind with | .atomic _ => true | _ => false))

/-- Contexts that wait for order look again. -/
def State.wakeOrders (s : State) : State := s.ctxs.foldl (fun s e => s.wakeOrder e.1) s

/-- Perform an element that may perform. -/
def State.perform (s : State) (c : Nat) (a : Access) (e : Elem) : State :=
  let r := s.doElem c a e
  (r.1.modCtx c fun x => (x.modAcc a.seq fun b => b.setDone e.lane r.2).cleanAcc).wakeOrders

/-! ## Landing -/

/-- Poison groups of a vector element with a tag. -/
def elemGroups (bytes lane : Nat) (t : Option Tag) (m : SMap Poi) : SMap Poi :=
  match t with
  | none => m
  | some t => ((List.range ((bytes + 3) / 4)).map (· + bytes * lane / 4)).foldl (fun m g => poiSet m g (pmeet (some (.mem t)) (poiAt m g))) m

/-- First tag of what an element read. -/
def firstTag (l : List (Nat × Tag)) : Option Tag := l.head?.map (·.2)

/-- The vector value of the elements read. -/
def vecOf (bytes : Nat) : List Elem → Nat × Nat × SMap Poi
  | [] => (0, 0, [])
  | e :: t =>
    let r := vecOf bytes t
    match e.got with
    | some (v, l) =>
      (r.1 + v * 2 ^ (8 * bytes * e.lane), r.2.1 + (2 ^ bytes - 1) * 2 ^ (bytes * e.lane),
       elemGroups bytes e.lane (firstTag l) r.2.2)
    | none => r

/-- A byte in all 32 places. -/
def spread (b : Nat) : Nat := (List.range 32).foldl (fun a i => a + b % 256 * 2 ^ (8 * i)) 0

/-- The value that lands for an access whose elements have all performed. -/
def Access.value (a : Access) : Option RVal :=
  let g := (a.elems.head?.bind (·.got)).getD (0, [])
  match a.form with
  | .none => none
  | .zext _ => some (.s (.of (BitVec.ofNat 64 g.1) ((firstTag g.2).map Poi.mem)))
  | .sext _ n => some (.s (.of (BitVec.ofInt 64 (signedOf (8 * n) g.1)) ((firstTag g.2).map Poi.mem)))
  | .vec _ n =>
    let r := vecOf n a.elems
    some (.v (BitVec.ofNat 2048 r.1) (BitVec.ofNat 256 r.2.1) r.2.2)
  | .xld _ => some (.x ⟨BitVec.ofNat 256 g.1, g.2.map fun e => (e.1, Poi.mem e.2)⟩)
  | .xldb _ => some (.x ⟨BitVec.ofNat 256 (spread g.1),
      match firstTag g.2 with | some t => (List.range 4).map fun i => (i, Poi.mem t) | none => []⟩)

/-- Data reaches its landing-buffer entry. -/
def Land.arrive (l : Land) (q : Nat) (v : Option RVal) : Land :=
  if l.seq = q ∧ l.arrived = false then { l with arrived := true, data := v } else l

/-- Data of access `q` arrives (02 R54): its landing has it, and the access is over. -/
def Ctx.arrive (x : Ctx) (q : Nat) : Ctx :=
  match x.acc.find? fun a => a.seq == q && a.returns && !a.undone with
  | none => x
  | some a =>
    { x with
      acc := x.acc.filter fun b => b.seq ≠ q
      land := x.land.map fun l => l.arrive q a.value
      uiLand := x.uiLand.map fun l => l.arrive q a.value }

/-- DATA_ARRIVED for a context: the latency of a load is sampled (21 R339). -/
def State.arrive (s : State) (c q : Nat) : State :=
  match (s.ctx c).acc.find? fun a => a.seq == q && a.returns && !a.undone with
  | none => s
  | some a =>
    let s := if a.kind = .load then s.sampleCtx 1 c (s.cycle - a.issued) else s
    s.modCtx c fun x => x.arrive q

/-! ## Own-core accesses perform as soon as they may (05 R136) -/

/-- Perform what may perform of the own-core elements of an access. -/
def State.settleElems (s : State) (c q : Nat) : List Elem → State
  | [] => s
  | e :: t =>
    match (s.ctx c).acc.find? fun a => a.seq == q with
    | none => s
    | some a =>
      let s := if e.tgt.own (coreOf c) && s.mayPerform c a e then s.perform c a e else s
      s.settleElems c q t

/-- The own-core accesses of a context, in issue order; data of one that stays on the core arrives at once. -/
def State.settleOwn (s : State) (c : Nat) : List Access → State
  | [] => s
  | a :: t =>
    let s := s.settleElems c a.seq (a.elems.filter fun e => !e.done)
    let s := if a.elems.all fun e => e.tgt.own (coreOf c) then s.arrive c a.seq else s
    s.settleOwn c t

/-- Settle every context of a core (DEDUCED, log 10). -/
def State.settleCore (s : State) (k : Nat) : State :=
  [0, 1, 2, 3].foldl (fun s i => s.settleOwn (4 * k + i) (s.ctx (4 * k + i)).acc) s

/-! ## Checks at issue (05 R133) -/

/-- An element before translation: its lane, address, size in bytes, data and compare value. -/
structure Want where
  lane : Nat
  va : Word
  size : Nat
  data : Nat := 0
  cmp : Nat := 0
  deriving DecidableEq, Repr

/-- What the checks answer. -/
inductive Checked where
  | fault (t : Trap)
  | miss (va : Word)
  | ok (l : List Elem)
  deriving DecidableEq, Repr

/-- Checks 3 to 6 of 05 R133, with the land check of 02 R51 between 4 and 5. `align` 0 asks for none. -/
def State.check (s : State) (c : Nat) (w : Who) (m : AMode) (align : Nat) (land : Option Nat) (l : List Want) : Checked :=
  match l.find? fun e => align ≠ 0 && e.va.toNat % align ≠ 0 with
  | some e => .fault ⟨.align, e.va, 0, none⟩
  | none =>
    let r := l.map fun e => (e, s.resolveFor c w e.va)
    match r.find? fun e => e.2 == .miss with
    | some e => .miss e.1.va
    | none =>
      match r.findSome? fun e => match e.2 with | .fault t => some t | _ => none with
      | some t => .fault t
      | none =>
        let g := r.filterMap fun e => match e.2 with | .ok t p => some (e.1, t, p) | _ => none
        if g.any fun e => match land with | some n => decide (n < minLand w.core e.2.1) | none => false then
          .fault ⟨.illegalBundle, 0, 0, none⟩
        else
          match g.find? fun e => !s.permitted w m e.2.1 e.1.size e.2.2 with
          | some e => .fault ⟨.protect, e.1.va, 0, none⟩
          | none =>
            match g.find? fun e => s.windowFetch m e.2.1 with
            | some e => .fault ⟨.windowFetch, e.1.va, 0, none⟩
            | none => .ok (g.map fun e => ⟨e.1.lane, e.1.va, e.2.1, e.1.size, e.1.data, e.1.cmp, none, false⟩)

/-! ## Issuing an access -/

/-- Hand an access to its path, or into the open segment when `buffer`; its landing entry, if it returns data. -/
def State.issueAccess (s : State) (c : Nat) (a : Access) (buffer : Bool) (ld : Option Land) : State :=
  let q := s.seq
  let a := { a with seq := q, issued := s.cycle }
  let s := { s with seq := q + 1 }
  s.modCtx c fun x =>
    let x := match ld with | some l => { x with land := x.land ++ [{ l with seq := q }] } | none => x
    match x.seg with
    | some g => if buffer then { x with seg := some { g with lines := g.lines ++ [.acc a] } } else x.submit a
    | none => x.submit a

end Sys2Proof.Machine
end

