-- ==== Sys2Proof/Machine/Issue.lean ====
section
/-! DEFINITION. Issuing a bundle (02 R29–R35, R51, R390, 03 R71–R73, R85, R91, 07 R172–R182): the boundary before it, the
fetch, the guards, the checks, and the commit of all executing slots together. A slot's meaning answers a `SlotRes`. -/

namespace Sys2Proof

/-- The slot predicate of an instruction (02 R34). -/
def Instr.guard : Instr → Guard
  | .lexit g => g
  | .halt g => g
  | .rti g => g
  | .mdisarm g => g
  | .uien g => g
  | .uidis g => g
  | .mswp g => g
  | .msync g => g
  | .br o => o.g
  | .bri o => o.g
  | .call o => o.g
  | .callx o => o.g
  | .ret o => o.g
  | .loop o => o.g
  | .loopr o => o.g
  | .yield o => o.g
  | .trap o => o.g
  | .marm o => o.g
  | .mwait o => o.g
  | .bar o => o.g
  | .bara o => o.g
  | .barw o => o.g
  | .drain o => o.g
  | .fence o => o.g
  | .pand o => o.g
  | .por o => o.g
  | .pxor o => o.g
  | .pnot o => o.g
  | .mfc o => o.g
  | .mtc o => o.g
  | .lidx o => o.g
  | .add o => o.g
  | .addi o => o.g
  | .sub o => o.g
  | .mul o => o.g
  | .mulh o => o.g
  | .mulhu o => o.g
  | .div o => o.g
  | .divu o => o.g
  | .rem o => o.g
  | .remu o => o.g
  | .and o => o.g
  | .andi o => o.g
  | .or o => o.g
  | .ori o => o.g
  | .xor o => o.g
  | .xori o => o.g
  | .shl o => o.g
  | .shr o => o.g
  | .sar o => o.g
  | .shli o => o.g
  | .shri o => o.g
  | .sari o => o.g
  | .rol o => o.g
  | .ror o => o.g
  | .min o => o.g
  | .max o => o.g
  | .minu o => o.g
  | .maxu o => o.g
  | .abs o => o.g
  | .cmpCc o => o.g
  | .cmpiCc o => o.g
  | .movi o => o.g
  | .movk o => o.g
  | .sext o => o.g
  | .zext o => o.g
  | .clz o => o.g
  | .ctz o => o.g
  | .popc o => o.g
  | .bext o => o.g
  | .bins o => o.g
  | .selp o => o.g
  | .lea o => o.g
  | .pmov o => o.g
  | .pset o => o.g
  | .faddS o => o.g
  | .fmulS o => o.g
  | .ffmaS o => o.g
  | .fcmpCc o => o.g
  | .fcvt o => o.g
  | .packwe o => o.g
  | .vqnt o => o.g
  | .vdqn o => o.g
  | .vext o => o.g
  | .vins o => o.g
  | .qand o => o.g
  | .qor o => o.g
  | .qnot o => o.g
  | .qcnt o => o.g
  | .ld o => o.g
  | .lds o => o.g
  | .st o => o.g
  | .ldv o => o.g
  | .stv o => o.g
  | .ldvs o => o.g
  | .stvs o => o.g
  | .gth o => o.g
  | .sct o => o.g
  | .sctaOp o => o.g
  | .aadd o => o.g
  | .amin o => o.g
  | .amax o => o.g
  | .aminu o => o.g
  | .amaxu o => o.g
  | .aand o => o.g
  | .aor o => o.g
  | .axor o => o.g
  | .axchg o => o.g
  | .acas o => o.g
  | .mcall o => o.g
  | .mldw o => o.g
  | .mldix o => o.g
  | .mclr o => o.g
  | .mset o => o.g
  | .mupld o => o.g
  | .massay o => o.g
  | .xld o => o.g
  | .xldb o => o.g
  | .xmov o => o.g
  | .xset o => o.g
  | .cpgo o => o.g
  | .cpq o => o.g
  | .cpstop o => o.g
  | .wkapp o => o.g
  | .wkwalk o => o.g
  | .wkfix o => o.g
  | .wkq o => o.g
  | .wget o => o.g
  | .wput o => o.g
  | .wexp o => o.g
  | .wsync o => o.g
  | .cxtab o => o.g
  | .cxpk o => o.g
  | .cxun o => o.g
  | .clgo o => o.g
  | .lksend o => o.g
  | .lkradd o => o.g
  | .lkrecv o => o.g
  | .lkwait o => o.g
  | .txid o => o.g
  | .txabort o => o.g
  | .qlaunch o => o.g
  | .evpost o => o.g
  | .vadd o => o.vg.g
  | .vsub o => o.vg.g
  | .vmul o => o.vg.g
  | .vmulh o => o.vg.g
  | .vmin o => o.vg.g
  | .vmax o => o.vg.g
  | .vabs o => o.vg.g
  | .vand o => o.vg.g
  | .vor o => o.vg.g
  | .vxor o => o.vg.g
  | .vshl o => o.vg.g
  | .vshr o => o.vg.g
  | .vsar o => o.vg.g
  | .vcmpCc o => o.vg.g
  | .vsel o => o.vg.g
  | .viota o => o.vg.g
  | .vmovi o => o.vg.g
  | .vfadd o => o.vg.g
  | .vfsub o => o.vg.g
  | .vfmul o => o.vg.g
  | .vfma o => o.vg.g
  | .vfmin o => o.vg.g
  | .vfmax o => o.vg.g
  | .vfabs o => o.vg.g
  | .vfneg o => o.vg.g
  | .vfcmpCc o => o.vg.g
  | .vfrcp o => o.vg.g
  | .vfrsq o => o.vg.g
  | .vfexp2 o => o.vg.g
  | .vflog2 o => o.vg.g
  | .vfcvt o => o.vg.g
  | .vradd o => o.vg.g
  | .vrmax o => o.vg.g
  | .vrmin o => o.vg.g
  | .vscan o => o.vg.g
  | .vperm o => o.vg.g
  | .vbcst o => o.vg.g
  | .vcmpr o => o.vg.g
  | .vexpd o => o.vg.g
  | .vacrd o => o.vg.g
  | .vacwr o => o.vg.g
  | _ => .always

/-- Instructions that fault POISON_CONSUMED when a predicate that decides them is poisoned (02 R35). The others write
poison (DEDUCED, log 27). -/
def Instr.guardFaults (sl : Slot) : Instr → Bool
  | .pand _ | .por _ | .pxor _ | .pnot _ | .mfc _ | .lidx _ | .xmov _ | .xset _ | .mset _ | .massay _ => false
  | _ => match sl with | .s0 | .s1 | .v => false | _ => true

/-- Does the instruction ask for a landing-buffer entry when it executes (03 R70)? -/
def Instr.lands : Instr → Bool
  | .ld _ | .lds _ | .ldv _ | .ldvs _ | .gth _ | .xld _ | .xldb _ | .cpq _ | .wkq _ | .txid _ => true
  | .aadd o | .amin o | .amax o | .aminu o | .amaxu o | .aand o | .aor o | .axor o | .axchg o | .acas o => o.t != 0
  | _ => false

/-- Does the instruction take a line of an open segment (07 R177)? -/
def Instr.buffered : Instr → Bool
  | .st _ | .stv _ | .stvs _ | .sct _ | .sctaOp _ => true
  | .aadd o | .amin o | .amax o | .aminu o | .amaxu o | .aand o | .aor o | .axor o => o.t == 0
  | .mcall _ | .mldw _ | .mswp _ | .mldix _ | .mclr _ | .mupld _ => true
  | .cpgo _ | .cpstop _ | .wkapp _ | .wkwalk _ | .wkfix _ | .wget _ | .wput _ | .wexp _ | .cxtab _ | .cxpk _ | .cxun _
  | .clgo _ | .lksend _ | .lkradd _ | .lkrecv _ | .txabort _ | .qlaunch _ | .evpost _ => true
  | _ => false

/-- Does the instruction close an open segment when it executes (07 R178)? -/
def Instr.closes : Instr → Bool
  | .halt _ | .bar _ | .bara _ | .drain _ | .fence _ | .marm _ | .mwait _ | .yield _ | .axchg _ | .acas _ => true
  | .aadd o | .amin o | .amax o | .aminu o | .amaxu o | .aand o | .aor o | .axor o => o.t != 0
  | _ => false

/-- MUL, MULH and MULHU (25 R389). -/
def Instr.isMul : Instr → Bool
  | .mul _ | .mulh _ | .mulhu _ => true
  | _ => false

end Sys2Proof

namespace Sys2Proof.Machine

open Sys2Proof

/-! ## What a slot answers -/

/-- What a slot's meaning knows of its issue: the context, its place in the bundle, the PC after the bundle, the tick
and issue number, and the poison of a poisoned deciding predicate (02 R35). -/
structure Env where
  c : Nat
  pos : Nat
  npc : BitVec 32
  tick : Nat
  issue : Nat
  over_ : Option Poi
  deriving DecidableEq, Repr

/-- What the C slot does to the flow of control. -/
inductive Flow where
  | next
  /-- the next bundle is at this PC, but this is no transfer (03 R73) -/
  | skip (pc : BitVec 32)
  /-- a transfer -/
  | jump (pc : BitVec 32)
  /-- a transfer that is made when a wait ends -/
  | later
  deriving DecidableEq, Repr

/-- What a slot answers: its fault at check 5, what it waits for in check 5 (a walk, or order), what it waits for after
the checks (queue space), and its effect: reads, then commits, then what is done once the PC has moved. -/
structure SlotRes where
  fault : Option Trap := none
  wait : Option Wait := none
  full : Option Wait := none
  flow : Flow := .next
  reads : State → State := id
  commit : State → State := id
  post : State → State := id
  /-- what the fault, if it is the one raised, leaves behind -/
  raised : State → State := id

/-- The meaning of an instruction in a slot. -/
abbrev SlotM := Env → State → SlotRes

/-- A slot that faults. -/
def SlotRes.trap (c : Cause) (addr : Word := 0) (p : Option Poi := none) : SlotRes := { fault := some ⟨c, addr, 0, p⟩ }

/-- A slot that only commits. -/
def SlotRes.of (f : State → State) : SlotRes := { commit := f }

/-- One poison in every listed group (DEDUCED, log 27). -/
def poiFill (o : Option Poi) (l : List Nat) : SMap Poi :=
  match o with
  | some a => l.map fun g => (g, a)
  | none => []

/-- Poison a result under a poisoned guard: everything it would write (02 R35) (DEDUCED, log 27). -/
def RVal.over_ (o : Option Poi) (v : RVal) : RVal :=
  if o.isNone then v
  else
    match v with
    | .s r => .s { r with p := pmeet r.p o }
    | .p r => .p { r with p := pmeet r.p o }
    | .q r => .q { r with p := pmeet r.p o }
    | .m r => .m { r with p := pmeet r.p o }
    | .x r => .x { r with p := poiFill (pmeet (poiAll r.p) o) (List.range 4) }
    | .v b k ps => .v b k (poiFill (pmeet (poiAll ps) o) ((List.range 64).filter fun g => bitsAt k.toNat (4 * g) 4 ≠ 0))

/-- A fixed-latency result (02 R52) that lands `lat` ticks after issue; a destination that discards writes takes none. -/
def Env.put (e : Env) (lat : Nat) (d : Dest) (v : RVal) (s : State) : State :=
  if d.discards then s
  else s.modCtx e.c fun x => x.pushRes ⟨e.tick + lat, e.pos, e.issue, d, v.over_ e.over_⟩

/-- A landing entry for a request with land `n`. -/
def Env.landing (e : Env) (n : Nat) (d : Dest) (va : Word) : Land :=
  ⟨e.tick + n, e.pos, e.issue, 0, d, va, none, false, none⟩

/-- Poison, then residue, of scalars at a checked use (04 R114, R115); `addr` is TRAPADDR of a residue mismatch: of
several, the first in the order base, index, data (DEDUCED, log 28, 110; DESIGN CHOICE, log 114). -/
def checkedUse (l : List (SVal × Word)) : Option Trap :=
  match pmeets (l.map (·.1.p)) with
  | some p => some ⟨.poisonConsumed, 0, 0, some p⟩
  | none =>
    match l.find? fun e => e.1.r ≠ residue e.1.v with
    | some e => some ⟨.residue, e.2, 0, none⟩
    | none => none

/-! ## Fetch (02 R29) -/

/-- What a fetch answers. -/
inductive Fetch where
  | fault (t : Trap)
  | miss (va : Word)
  | ok (b : BundleBits) (len : Nat)
  deriving DecidableEq, Repr

/-- The `n` halfwords of a literal from `pc`, as the number they make. -/
def State.literal (s : State) (c : Nat) : Nat → BitVec 32 → Fetch
  | 0, _ => .ok 0 25
  | n + 1, pc =>
    match s.half c pc with
    | .fault t => .fault t
    | .miss a => .miss a
    | .ok h =>
      match s.literal c n (pc + 1) with
      | .ok b l => .ok (BitVec.ofNat 384 (h + b.toNat * 65536)) l
      | r => r

/-- Fetch the bundle at the context's PC. -/
def State.fetch (s : State) (c : Nat) : Fetch :=
  let x := s.ctx c
  match s.half c x.pc with
  | .fault t => .fault t
  | .miss a => .miss a
  | .ok h =>
    if h = 0 then .ok 0 1
    else if h ≤ 0x0FFF then
      if x.ctl.dlen.toNat < h ∨ 4095 < x.ctl.dbase.toNat + h - 1 then .fault ⟨.illegalIndex, BitVec.ofNat 64 h, 0, none⟩
      else
        let i := coreOf c * 4096 + (x.ctl.dbase.toNat + h - 1)
        match mget none s.mem.dictPoison i with
        | some g => .fault ⟨.poisonConsumed, x.codeAddr x.pc, 0, some (.mem g)⟩
        | none => .ok (mget 0 s.mem.dict i) 1
    else if h = 0xFFFF then s.literal c 24 (x.pc + 1)
    else .fault ⟨.illegalIndex, BitVec.ofNat 64 h, 0, none⟩

/-! ## Guards (02 R34, R35) -/

/-- Does a slot execute? -/
inductive Runs where
  | yes
  | no
  | poisoned (p : Poi)
  deriving DecidableEq, Repr

/-- A guard's value. -/
def Ctx.guardVal (x : Ctx) (n : PReg) (neg : Bool) : PVal := let p := x.preg n; ⟨p.v != neg, p.p⟩

/-- The bundle predicate and a slot predicate together. -/
def Ctx.runs (x : Ctx) (h : Header) (g : Guard) : Runs :=
  let a := x.guardVal h.p h.neg
  let b := x.guardVal g.pred g.pneg
  if (a.p.isNone && !a.v) || (b.p.isNone && !b.v) then .no
  else
    match pmeet a.p b.p with
    | some p => .poisoned p
    | none => .yes

/-! ## The loop-end test (03 R73) -/

/-- The top entry after the test found its end: one more iteration is over. -/
def LoopEntry.turn (e : LoopEntry) : LoopEntry := { e with index := e.index + 1, remaining := e.remaining - 1 }

/-- The test: the context with its PC at next_pc; `k` bounds the pops. Answers whether it looped back. -/
def loopEnd : Nat → Ctx → Ctx × Bool
  | 0, x => (x, false)
  | k + 1, x =>
    let d := x.ctl.ldepth
    if d = 0 ∨ (x.ctl.uiact ∧ d.toNat ≤ x.ctl.uidepth.toNat) then (x, false)
    else
      let i := d.toNat - 1
      let e : LoopEntry := mget .zero x.loops i
      if e.obj ≠ x.ctl.obj ∨ x.pc ≠ e.stop then (x, false)
      else
        let e' := e.turn
        let y : Ctx := { x with loops := mset .zero x.loops i e' }
        if e'.remaining = 0 ∨ e'.exit then loopEnd k { y with ctl := { y.ctl with ldepth := d - 1 } }
        else ({ y with pc := e'.start }, true)

/-! ## Commit (07 R172, R176–R178) -/

/-- A slot that executes, with its answer. -/
structure Ran where
  slot : Slot
  instr : Instr
  res : SlotRes

/-- Open a segment (07 R176): the snapshot, and SEGPC. -/
def Ctx.enterSeg (x : Ctx) (seq : Nat) : Ctx :=
  { x with
    seg := some ⟨x.regs.s, x.regs.p, x.loops, x.ctl.ldepth, x.pc, x.ct, x.issues, seq, [], 0, false, x.mulPrev⟩
    ctl := { x.ctl with segpc := x.pc } }

/-- Is this issue of a seg bundle the one that begins a rerun? -/
def Ctx.isRerun (x : Ctx) : Bool := match x.seg with | some g => g.rerun && g.pc == x.pc | none => false

/-- Before a seg bundle issues it closes the current segment and opens its own, unless it begins a rerun (07 R176)
(DEDUCED, log 22). -/
def State.segEntry (s : State) (c : Nat) (h : Header) : State :=
  if h.seg && !(s.ctx c).isRerun then
    let s := s.closeSeg c
    s.modCtx c fun x => x.enterSeg s.seq
  else s

/-- A rerun's seg bundle has issued. -/
def Ctx.rerunBegun (x : Ctx) : Ctx := { x with seg := x.seg.map fun g => { g with rerun := false } }

/-- Does the bundle close the open segment: by a closing slot or for want of a line (DEDUCED, log 22)? -/
def Ctx.segEnds (x : Ctx) (ran : List Ran) : Bool :=
  let lines := (ran.filter fun r => r.instr.buffered).length
  ran.any (fun r => r.instr.closes) || match x.seg with | some g => decide (64 < g.lines.length + lines) | none => false

/-- The segment before the slots commit. -/
def State.segStep (s : State) (c : Nat) (h : Header) (ran : List Ran) : State :=
  let s := if h.seg then s.modCtx c Ctx.rerunBegun else s
  if (s.ctx c).segEnds ran then s.closeSeg c else s

/-- The flow of the bundle: that of its C slot. -/
def flowOf (ran : List Ran) : Flow := ran.foldl (fun f r => match r.res.flow with | .next => f | g => g) .next

/-- Move the PC and run the loop-end test (03 R73, R85); a bundle issued counts one tick (03 R69) (DEDUCED, log 9). -/
def Ctx.moveOn (x : Ctx) (npc : BitVec 32) (f : Flow) (mul : Bool) : Ctx :=
  let x := { x with ct := x.ct + 1, issues := x.issues + 1, boundary := false, mulPrev := mul, walk := [], rtiDone := false, landed := [] }
  match f with
  | .jump pc => { x with pc := pc }
  | .later => { x with pc := npc }
  | .next => let r := loopEnd 7 { x with pc := npc }; { r.1 with boundary := r.2 }
  | .skip pc => let r := loopEnd 7 { x with pc := pc }; { r.1 with boundary := r.2 }

/-- Commit a bundle whose segment step is made: reads, commits, PC, own-core accesses (05 R135), which so take effect between
this bundle and the next (03 R64). An L-slot store and a VACWR of one bundle to one accumulator element perform in the order
V, L: the store remains (DESIGN CHOICE, log 114). -/
def State.commit (s : State) (c : Nat) (ran : List Ran) (mul : Bool) (npc : BitVec 32) : State :=
  let s := ran.foldl (fun s r => r.res.reads s) s
  let s := ran.foldl (fun s r => r.res.commit s) s
  let s := s.modCtx c fun x => x.moveOn npc (flowOf ran) mul
  let s := s.settleCore (coreOf c)
  ran.foldl (fun s r => r.res.post s) s

/-! ## The boundary before a bundle -/

/-- The context that holds a core's port, when it may issue: not from a switch point on, before the selector has chosen (07
R169). -/
def State.holder (s : State) (k : Nat) : Option Nat :=
  let x := s.core k
  match x.running with
  | none => none
  | some i =>
    let c := 4 * k + i.val
    if x.stopped || x.gated || x.yielded || x.released || !(s.ctx c).isReady then none else some c

/-- What comes before a bundle at a boundary: causes due (03 R95), a park request (03 R85), an interrupt (03 R91), a
late landing (03 R71). `none`: the bundle may issue; an RTI whose wait has ended does. -/
def State.boundary (s : State) (c : Nat) : Option State :=
  let x := s.ctx c
  if x.rtiDone then none
  else if !x.causes.isEmpty then some (s.takeCause c)
  else if x.parkReq && x.boundary then some (s.park c)
  else if x.interruptDue then some (s.takeInterrupt c)
  else if x.late x.ct then some (s.blockLate c)
  else none

/-- Landings and results due at this tick are applied (03 R71). -/
def State.settleNow (s : State) (c : Nat) : State :=
  (s.landAcc c fun e => decide (e.due ≤ (s.ctx c).ct)).modCtx c fun x => x.settle x.ct

/-! ## Checks and issue (02 R51) -/

/-- TRAPMASK of some slots (DEDUCED, log 34). -/
def maskOf (l : List Slot) : BitVec 8 := BitVec.ofNat 8 (l.map fun sl => 2 ^ sl.pos).sum

/-- Are team flags raised that an rdv bundle waits for (07 R182)? -/
def State.teamRewinds (s : State) (c : Nat) : Bool :=
  match s.launchOf c with
  | some l => l.team.any fun d => d ≠ c && (s.ctx d).rewindFlag
  | none => false

/-- The answer of a slot under its guard: none when it is nullified (02 R34, R35) (DEDUCED, log 27). -/
def slotAnswer (mean : Instr → SlotM) (s : State) (e : Env) (h : Header) (sl : Slot) (i : Instr) : Option Ran :=
  match (s.ctx e.c).runs h i.guard with
  | .no => none
  | .yes => some ⟨sl, i, mean i { e with pos := sl.pos } s⟩
  | .poisoned p =>
    some ⟨sl, i,
      if i.guardFaults sl then .trap .poisonConsumed 0 (some p) else mean i { e with pos := sl.pos, over_ := some p } s⟩

/-- What a bundle that closes a segment waits for once the lines are in their queues: room for its own command (06 R143). -/
def fullAfter (mean : Instr → SlotM) (t : State) (e : Env) (b : Bundle) : Option Wait :=
  (b.slots.filterMap fun p => slotAnswer mean t e b.h p.1 p.2).findSome? fun r => r.res.full

/-- Wall cycles the port is taken by a bundle: one, and one more for a literal (03 R69) (DEDUCED, log 2). -/
def bundleCost (len : Nat) : Nat := if len = 25 then 2 else 1

/-- The context waits before its bundle issues: what was due at its tick stays unapplied (03 R64, R391). -/
def State.waitAt (s0 : State) (c : Nat) (w : Wait) : State := s0.block c w

/-- Issue a decoded bundle of context `c`, `s0` being the state before the landings due at its tick were applied: static
lands, rendezvous, segment entry, check 5, landing entries, queue space, commit (DEDUCED, log 9, 22, 23, 34). -/
def State.issueBundle (s0 s : State) (mean : Instr → SlotM) (c : Nat) (b : Bundle) (len : Nat) : State :=
  let x := s.ctx c
  let npc := x.pc + BitVec.ofNat 32 len
  let short := (b.slots.filter fun e => e.2.landShort).map (·.1)
  if !short.isEmpty then s.issueFault c ⟨.illegalBundle, 0, 0, none⟩ (maskOf short)
  else
    let lower (s : State) : State := if b.h.rdv then s.modCtx c fun x => { x with rewindFlag := false } else s
    let s := lower s
    if b.h.rdv && s.teamRewinds c then (lower s0).waitAt c .rendezvous
    else
      let s := s.segEntry c b.h
      let e : Env := ⟨c, 0, npc, x.ct, x.issues, none⟩
      let ran := b.slots.filterMap fun p => slotAnswer mean s e b.h p.1 p.2
      match ran.findSome? fun r => r.res.wait with
      | some w => s0.waitAt c w
      | none =>
        let asks := ran.filter fun r => r.instr.lands
        if 32 < x.held + asks.length ∧ asks ≠ [] then
          s.issueFault c ⟨.illegalBundle, 0, 0, none⟩ (maskOf (asks.map (·.slot)))
        else
          match ran.findSome? fun r => r.res.fault.map fun t => (t, r.res.raised) with
          | some (t, raised) => (raised s).issueFault c t (maskOf ((ran.filter fun r => r.res.fault.isSome).map (·.slot)))
          | none =>
            match ran.findSome? fun r => r.res.full with
            | some w => s0.waitAt c w
            | none =>
              let t := s.segStep c b.h ran
              match (t.ctx c).relWait with
              | some w => (if (b.h.seg && !x.isRerun) || (s.ctx c).segEnds ran then s0.closeSeg c else s0).waitAt c w
              | none =>
                match (if (s.ctx c).seg.isSome && (s.ctx c).segEnds ran then fullAfter mean t e b else none) with
                | some w => (s0.closeSeg c).waitAt c w
                | none => (t.busy (coreOf c) (bundleCost len)).commit c ran (b.slots.any fun p => p.2.isMul) npc

/-- The port's next issue: the clock moves to the cycle from which it may issue. -/
def State.portReady (s : State) (k : Nat) : State := s.advanceTo (s.core k).freeAt

/-- Issue of the bundle that core `k`'s port holder fetches (02 R29, R51). -/
def State.issueFetched (s0 s : State) (mean : Instr → SlotM) (c : Nat) : State :=
  if s.codeBusy c then s0.waitAt c .order
  else
  match s.fetch c with
  | .miss a => s0.waitAt c (.tlb a)
  | .fault t => s.issueFault c t 0
  | .ok b len =>
    match decodeBundle b with
    | .illegal m => s.issueFault c ⟨.illegalBundle, 0, 0, none⟩ m
    | .ok d => s0.issueBundle s mean c d len

/-- BUNDLE_ISSUE of a core: a cycle in which the port idles when no context of it may issue. -/
def State.issueOn (s : State) (mean : Instr → SlotM) (k : Nat) : State :=
  match s.holder k with
  | none => s.advance 1
  | some c =>
    let s := s.portReady k
    match s.boundary c with
    | some s' => s'
    | none => s.issueFetched (s.settleNow c) mean c

/-- The bundle that holds one instruction, under a header that predicates nothing. -/
def bundleOnly (sl : Slot) (i : Instr) : Bundle := ⟨.plain, if i.isNop then [] else [(sl, i)]⟩

/-- Issue of a bundle that holds one given instruction, by the port holder of the core that acts. -/
def State.issueAlone (s : State) (m : SlotM) (sl : Slot) (i : Instr) : State :=
  match s.holder s.cur.val with
  | none => s
  | some c =>
    let s := s.portReady s.cur.val
    match s.boundary c with
    | some s' => s'
    | none => s.issueBundle (s.settleNow c) (fun _ => m) c (bundleOnly sl i) ((s.settleNow c).pcLen c)

/-- The outcome of a step that goes on. -/
abbrev Out' := Host.Outcome State Fault Refusal

/-- The instruction given is issued alone. -/
def execSlot (m : SlotM) (sl : Slot) (i : Instr) (s : State) : Out' := .next (s.issueAlone m sl i)

end Sys2Proof.Machine
end

