-- ==== Sys2Proof/Machine/Operands.lean ====
section
/-! DEFINITION. Operand forms: scalars of the S slot, lanes and masks of the V slot (05 R116–R118), addresses of the L
and X slots (05 R128, 06 R164). -/

namespace Sys2Proof

/-- The slot of an S instruction. -/
def SPos.slot : SPos → Slot
  | .s0 => .s0
  | .s1 => .s1

/-- Bytes of an access size (02 R40). -/
def Size.bytes : Size → Nat
  | .b => 1 | .h => 2 | .w => 4 | .d => 8

/-- Bits SEXT and ZEXT extend from (04 R104). -/
def ExtSize.bits : ExtSize → Nat
  | .b => 8 | .h => 16 | .w => 32

end Sys2Proof

namespace Sys2Proof.Machine

open Sys2Proof

/-! ## The S slot -/

/-- A scalar result with its own residue (DEDUCED, log 9). -/
def sRes (e : Env) (lat : Nat) (d : SReg) (v : Word) (p : Option Poi) : SlotRes := .of (e.put lat (.s d) (.s (.of v p)))

/-- A scalar result with a predicted residue (04 R113). -/
def sPred (e : Env) (lat : Nat) (d : SReg) (v : Word) (r : BitVec 4) (p : Option Poi) : SlotRes :=
  .of (e.put lat (.s d) (.s ⟨v, r, p⟩))

/-- A predicate result (DEDUCED, log 7). -/
def pRes (e : Env) (lat : Nat) (d : PReg) (v : Bool) (p : Option Poi) : SlotRes := .of (e.put lat (.p d) (.p ⟨v, p⟩))

/-- A result of one scalar. -/
def sOp1 (lat : Nat) (d a : SReg) (f : Word → Word) : SlotM := fun e s =>
  let a := (s.ctx e.c).sreg a
  sRes e lat d (f a.v) a.p

/-- A result of two scalars. -/
def sOp2 (lat : Nat) (d a b : SReg) (f : Word → Word → Word) : SlotM := fun e s =>
  let a := (s.ctx e.c).sreg a
  let b := (s.ctx e.c).sreg b
  sRes e lat d (f a.v b.v) (pmeet a.p b.p)

/-- A result of two scalars with a predicted residue. -/
def sOp2p (lat : Nat) (d a b : SReg) (f : Word → Word → Word) (r : Word → Word → BitVec 4 → BitVec 4 → BitVec 4) : SlotM :=
  fun e s =>
  let a := (s.ctx e.c).sreg a
  let b := (s.ctx e.c).sreg b
  sPred e lat d (f a.v b.v) (r a.v b.v a.r b.r) (pmeet a.p b.p)

/-! ## The V slot (05 R116–R118) -/

/-- Lane `i` of a register at `bytes` bytes, as a number. -/
def lane (v : VBits) (bytes i : Nat) : Nat := bitsAt v.toNat (8 * bytes * i) (8 * bytes)

/-- Is lane `i` active (05 R117)? -/
def laneOn (q : QBits) (neg : Bool) (bytes i : Nat) : Bool := q.getLsbD (bytes * i) != neg

/-- Operands of an elementwise instruction: a lane's value and poison. -/
structure Lanes where
  val : Nat → Nat
  p : Nat → Option Poi

/-- A vector register as lanes. -/
def Ctx.lanesOf (x : Ctx) (n : VReg) (bytes : Nat) : Lanes :=
  let v := x.vreg n
  ⟨fun i => lane v.v bytes i, fun i => v.laneP bytes i⟩

/-- A scalar's low bytes in every lane (05 R118). -/
def Ctx.lanesOfS (x : Ctx) (n : SReg) (bytes : Nat) : Lanes :=
  let v := x.sreg n
  ⟨fun _ => lowBytes bytes v.v.toNat, fun _ => v.p⟩

/-- Operand b (05 R118). -/
def Ctx.lanesB (x : Ctx) (b : VSrc) (bytes : Nat) : Lanes :=
  match b with
  | .reg n => x.lanesOf n bytes
  | .scalar n => x.lanesOfS n bytes

/-- The value of some lanes, each given with its number. -/
def packLanes (bytes : Nat) (l : List (Nat × Nat)) : Nat :=
  l.foldl (fun a e => a + lowBytes bytes e.2 * 2 ^ (8 * bytes * e.1)) 0

/-- The byte mask of some lanes. -/
def maskLanes (bytes : Nat) (l : List Nat) : Nat := l.foldl (fun a i => a + (2 ^ bytes - 1) * 2 ^ (bytes * i)) 0

/-- Poison groups of some lanes with their poison. -/
def poiLanes (bytes : Nat) (l : List (Nat × Option Poi)) : SMap Poi :=
  l.foldl (fun m e => (List.range ((bytes + 3) / 4)).foldl (fun m j => joinP m (laneGroup bytes e.1 + j) e.2) m) []

/-- A vector result of lanes: (lane, value, poison). Unlisted lanes keep what they hold (DEDUCED, log 7, 9). -/
def vRes (bytes : Nat) (l : List (Nat × Nat × Option Poi)) : RVal :=
  .v (BitVec.ofNat 2048 (packLanes bytes (l.map fun e => (e.1, e.2.1))))
    (BitVec.ofNat 256 (maskLanes bytes (l.map (·.1))))
    (poiLanes bytes (l.map fun e => (e.1, e.2.2)))

/-- The active lanes of `n`, ascending. -/
def activeLanes (q : QBits) (neg : Bool) (bytes n : Nat) : List Nat :=
  (List.range n).filter fun i => laneOn q neg bytes i

/-- An elementwise result: each active lane by `f`; every group written also depends on the mask (05 R127). -/
def vMap (lat : Nat) (g : VGuard) (vd : VReg) (f : Fmt) (val : Ctx → Nat → Nat) (p : Ctx → Nat → Option Poi) : SlotM :=
  fun e s =>
  let x := s.ctx e.c
  let q := x.qreg g.q
  let l := activeLanes q.v g.qneg f.bytes f.lanes
  .of (e.put lat (.v vd) (vRes f.bytes (l.map fun i => (i, val x i, pmeet q.p (p x i)))))

/-- Two-operand elementwise. -/
def vMap2 (lat : Nat) (g : VGuard) (vd va : VReg) (b : VSrc) (f : Fmt) (op : Nat → Nat → Nat) : SlotM :=
  vMap lat g vd f
    (fun x i => op ((x.lanesOf va f.bytes).val i) ((x.lanesB b f.bytes).val i))
    (fun x i => pmeet ((x.lanesOf va f.bytes).p i) ((x.lanesB b f.bytes).p i))

/-- One-operand elementwise. -/
def vMap1 (lat : Nat) (g : VGuard) (vd va : VReg) (f : Fmt) (op : Nat → Nat) : SlotM :=
  vMap lat g vd f (fun x i => op ((x.lanesOf va f.bytes).val i)) (fun x i => (x.lanesOf va f.bytes).p i)

/-- A lane mask result of a comparison: all w bits of an active lane are the test, every other bit is 0 (05 R117). -/
def vTest (lat : Nat) (g : VGuard) (qd : QReg) (va : VReg) (b : VSrc) (f : Fmt) (t : Nat → Nat → Bool) : SlotM := fun e s =>
  let x := s.ctx e.c
  let q := x.qreg g.q
  let l := activeLanes q.v g.qneg f.bytes f.lanes
  let la := x.lanesOf va f.bytes
  let lb := x.lanesB b f.bytes
  let v := l.foldl (fun a i => if t (la.val i) (lb.val i) then a + (2 ^ f.bytes - 1) * 2 ^ (f.bytes * i) else a) 0
  .of (e.put lat (.q qd) (.q ⟨BitVec.ofNat 256 v, pmeets (q.p :: l.map fun i => pmeet (la.p i) (lb.p i))⟩))

/-! ## Addresses (05 R128) -/

/-- S[base] + S[index] + sext(disp8)·b. -/
def addrScalar (base index : Word) (disp : BitVec 8) (b : Nat) : Word :=
  base + index + disp.signExtend 64 * BitVec.ofNat 64 b

/-- Element `i` of LDV and STV. -/
def addrVec (base index : Word) (disp : BitVec 8) (b i : Nat) : Word :=
  base + index + disp.signExtend 64 * 256 + BitVec.ofNat 64 (i * b)

/-- Element `i` of LDVS and STVS. -/
def addrStride (base stride : Word) (disp : BitVec 8) (i : Nat) : Word :=
  base + disp.signExtend 64 * 256 + stride * BitVec.ofNat 64 i

/-- Element `i` of GTH, SCT and SCTA (DEDUCED, log 12). -/
def addrGather (base : Word) (index : VBits) (disp : BitVec 8) (i : Nat) : Word :=
  base + disp.signExtend 64 * 256 + BitVec.ofNat 64 (lane index 4 i)

/-- XLD and XLDB (06 R164). -/
def addrX (base : Word) (disp : BitVec 8) : Word := base + disp.signExtend 64 * 32

end Sys2Proof.Machine
end

