-- ==== Sys2Proof/Machine/LoadStore.lean ====
section
/-! DEFINITION. The L-slot and X-slot instructions (05 R128–R135, 06 R164). -/

namespace Sys2Proof.Machine

open Sys2Proof

/-! ## Shared forms -/

/-- A slot's answer once the checks of 05 R133 have been run: the fault, the walk, or the effect on the elements. -/
def checkedSlot (r : Checked) (f : List Elem → SlotRes) : SlotRes :=
  match r with
  | .fault t => { fault := some t }
  | .miss va => { wait := some (.tlb va) }
  | .ok l => f l

/-- An access about to issue. -/
def newAccess (kind : AccKind) (ord : Ord) (sc : Scope) (l : List Elem) (form : LandForm) (h : Option Hall) : Access :=
  ⟨0, kind, ord, sc, l, form, h, 0⟩

/-- Checks 1 and 2 of 05 R133: poison of any operand, with the lowest tag, then residues (DEDUCED, log 110). -/
def operandTrap (more : Option Poi) (uses : List (SVal × Word)) : Option Trap :=
  if more.isSome then some ⟨.poisonConsumed, 0, 0, pmeets (more :: uses.map (·.1.p))⟩ else checkedUse uses

/-- A load: checks of the address operands, then of the elements; its read is taken before the bundle's writes. -/
def loadSlot (e : Env) (s : State) (uses : List (SVal × Word)) (q : Option Poi) (align land : Nat) (l : List Want)
    (ord : Ord) (sc : Scope) (form : LandForm) (d : Dest) (va : Word) (post : List Elem → State → State) : SlotRes :=
  match operandTrap q uses with
  | some t => { fault := some t }
  | none =>
    let w := s.who e.c
    checkedSlot (s.check e.c w .read align (some land) l) fun l =>
      { reads := fun s => s.issueAccess e.c (newAccess .load ord sc l form w.hall) false (some (e.landing land d va))
        post := post l }

/-- A store or a non-fetching atomic. -/
def storeSlot (e : Env) (s : State) (uses : List (SVal × Word)) (more : Option Poi) (m : AMode) (align : Nat)
    (l : List Want) (kind : AccKind) (ord : Ord) (sc : Scope) (post : List Elem → State → State) : SlotRes :=
  match operandTrap more uses with
  | some t => { fault := some t }
  | none =>
    let w := s.who e.c
    checkedSlot (s.check e.c w m align none l) fun l =>
      { commit := fun s => s.issueAccess e.c (newAccess kind ord sc l .none w.hall) true none
        post := post l }

/-! ## Bank stalls (05 R134) -/

/-- The 16-byte rows of the own scratchpad some elements touch. -/
def ownRows (core : Nat) (l : List Elem) : List Nat :=
  (l.filterMap fun e => match e.tgt with
    | .win k 0 off => if k = core then some (off / 16) else none
    | _ => none).eraseDups

/-- Cycles of a vector access: the most rows any bank delivers. -/
def bankCycles (core : Nat) (l : List Elem) : Nat :=
  let rows := ownRows core l
  (List.range 16).foldl (fun a b => max a (rows.filter fun r => r % 16 = b).length) 0

/-- The port stays with the context for the stall, which STALLCNT counts. -/
def bankStall (c : Nat) (l : List Elem) (s : State) : State :=
  let n := bankCycles (coreOf c) l - 1
  if n = 0 then s
  else
    ((s.sampleCtx 3 c n).modCore (coreOf c) fun k => { k with freeAt := k.freeAt + n }).modCtx c fun x =>
      { x with ctl := { x.ctl with stallcnt := x.ctl.stallcnt + BitVec.ofNat 64 n } }

/-- Scalar accesses never stall. -/
def noStall (_ : List Elem) (s : State) : State := s

/-! ## Scalar loads and stores (05 R130) -/

/-- A scalar load. -/
def scalarLoad (o : LScalarArgs) (form : LandForm) : SlotM := fun e s =>
  let x := s.ctx e.c
  let base := x.sreg o.base
  let index := x.sreg o.index
  let b := o.size.bytes
  let va := addrScalar base.v index.v o.disp b
  loadSlot e s [(base, 0), (index, 0)] none b (landL o.land) [⟨0, va, b, 0, 0⟩] o.ord o.scope form (.s o.t) va noStall

/-- LD. -/
def slotLd (o : LScalarArgs) : SlotM := scalarLoad o (.zext o.t)
/-- LDS. -/
def slotLds (o : LScalarArgs) : SlotM := scalarLoad o (.sext o.t o.size.bytes)

/-- ST. -/
def slotSt (o : LStArgs) : SlotM := fun e s =>
  let x := s.ctx e.c
  let base := x.sreg o.base
  let index := x.sreg o.index
  let t := x.sreg o.t
  let b := o.size.bytes
  let va := addrScalar base.v index.v o.disp b
  storeSlot e s [(base, 0), (index, 0), (t, va)] none .write b [⟨0, va, b, lowBytes b t.v.toNat, 0⟩] .store o.ord o.scope
    noStall

/-! ## Vector forms (05 R131) -/

/-- The active elements of a vector form: element i is active when bit step·i of the mask is 1. -/
def wants (q : QBits) (step n b : Nat) (addr : Nat → Word) (data : Nat → Nat) : List Want :=
  ((List.range n).filter fun i => q.getLsbD (step * i)).map fun i => ⟨i, addr i, b, data i, 0⟩

/-- Number of elements of the indexed forms (05 R128). -/
def gatherCount (b : Nat) : Nat := min 64 (256 / b)

/-- A contiguous, strided or indexed vector load. -/
def vecLoad (e : Env) (s : State) (q : QVal) (t : VReg) (uses : List (SVal × Word)) (ip : Option Poi) (b land : Nat)
    (l : List Want) : SlotRes :=
  loadSlot e s uses (pmeet q.p ip) b land l .relaxed .ctx (.vec t b) (.v t) ((l.head?.map (·.va)).getD 0) (bankStall e.c)

/-- LDV. -/
def slotLdv (o : LVecArgs) : SlotM := fun e s =>
  let x := s.ctx e.c
  let base := x.sreg o.base
  let index := x.sreg o.index
  let q := x.qreg o.q
  let b := o.size.bytes
  vecLoad e s q o.t [(base, 0), (index, 0)] none b (landL o.land)
    (wants q.v b (256 / b) b (addrVec base.v index.v o.disp b) fun _ => 0)

/-- LDVS. -/
def slotLdvs (o : LVecArgs) : SlotM := fun e s =>
  let x := s.ctx e.c
  let base := x.sreg o.base
  let index := x.sreg o.index
  let q := x.qreg o.q
  let b := o.size.bytes
  vecLoad e s q o.t [(base, 0), (index, 0)] none b (landL o.land)
    (wants q.v b (256 / b) b (addrStride base.v index.v o.disp) fun _ => 0)

/-- Poison of the index lanes of active elements. -/
def indexPoison (v : VVal) (l : List Want) : Option Poi := pmeets (l.map fun w => v.laneP 4 w.lane)

/-- GTH. -/
def slotGth (o : LGthArgs) : SlotM := fun e s =>
  let x := s.ctx e.c
  let base := x.sreg o.base
  let index := x.vreg o.index
  let q := x.qreg o.q
  let b := o.size.bytes
  let l := wants q.v 4 (gatherCount b) b (addrGather base.v index.v o.disp) fun _ => 0
  vecLoad e s q o.t [(base, 0)] (indexPoison index l) b (landL o.land) l

/-- Poison of the data of active elements. -/
def dataPoison (v : VVal) (b : Nat) (l : List Want) : Option Poi :=
  pmeets (l.map fun w => pmeets ((List.range ((b + 3) / 4)).map fun j => poiAt v.p (laneGroup b w.lane + j)))

/-- A vector store. -/
def vecStore (e : Env) (s : State) (q : QVal) (t : VVal) (uses : List (SVal × Word)) (ip : Option Poi) (b : Nat)
    (m : AMode) (kind : AccKind) (l : List Want) : SlotRes :=
  storeSlot e s uses (pmeets [q.p, ip, dataPoison t b l]) m b l kind .relaxed .ctx (bankStall e.c)

/-- STV. -/
def slotStv (o : LVecStArgs) : SlotM := fun e s =>
  let x := s.ctx e.c
  let base := x.sreg o.base
  let index := x.sreg o.index
  let q := x.qreg o.q
  let t := x.vreg o.t
  let b := o.size.bytes
  vecStore e s q t [(base, 0), (index, 0)] none b .write .store
    (wants q.v b (256 / b) b (addrVec base.v index.v o.disp b) (lane t.v b))

/-- STVS. -/
def slotStvs (o : LVecStArgs) : SlotM := fun e s =>
  let x := s.ctx e.c
  let base := x.sreg o.base
  let index := x.sreg o.index
  let q := x.qreg o.q
  let t := x.vreg o.t
  let b := o.size.bytes
  vecStore e s q t [(base, 0), (index, 0)] none b .write .store
    (wants q.v b (256 / b) b (addrStride base.v index.v o.disp) (lane t.v b))

/-- SCT. -/
def slotSct (o : LSctArgs) : SlotM := fun e s =>
  let x := s.ctx e.c
  let base := x.sreg o.base
  let index := x.vreg o.index
  let q := x.qreg o.q
  let t := x.vreg o.t
  let b := o.size.bytes
  let l := wants q.v 4 (gatherCount b) b (addrGather base.v index.v o.disp) (lane t.v b)
  vecStore e s q t [(base, 0)] (indexPoison index l) b .write .store l

/-- The atomic of an SCTA. -/
def sctaAtomic : SctaOp → AtomicOp
  | .add => .add | .min => .min | .max => .max | .minu => .minu

/-- SCTA.op. -/
def slotSctaOp (o : LSctaArgs) : SlotM := fun e s =>
  let x := s.ctx e.c
  let base := x.sreg o.base
  let index := x.vreg o.index
  let q := x.qreg o.q
  let t := x.vreg o.t
  let b := o.size.bytes
  let l := wants q.v 4 (gatherCount b) b (addrGather base.v index.v 0) (lane t.v b)
  vecStore e s q t [(base, 0)] (indexPoison index l) b (.atomic (sctaAtomic o.op) b false) (.atomic (sctaAtomic o.op)) l

/-! ## Atomics (05 R132) -/

/-- A scalar atomic: `cmp` is the compare register of ACAS; the land check is for the fetching form only. -/
def atomicSlot (o : LScalarArgs) (op : AtomicOp) (va : Word → Word → Word) (form : LandForm) : SlotM := fun e s =>
  let x := s.ctx e.c
  let base := x.sreg o.base
  let index := x.sreg o.index
  let t := x.sreg o.t
  let b := o.size.bytes
  let a := va base.v index.v
  let isCas := op == .cas
  match checkedUse [(base, 0), (index, if isCas then a else 0), (t, a)] with
  | some t => { fault := some t }
  | none =>
    let fetching := o.t != 0
    let w := s.who e.c
    let want : Want := ⟨0, a, b, lowBytes b t.v.toNat, if isCas then lowBytes b index.v.toNat else 0⟩
    checkedSlot (s.check e.c w (.atomic op b fetching) b (if fetching then some (landL o.land) else none) [want]) fun l =>
      { commit := fun s => s.issueAccess e.c
          (newAccess (.atomic op) o.ord o.scope l (if fetching then form else .none) w.hall)
          (!fetching && op != .xchg && op != .cas)
          (if fetching then some (e.landing (landL o.land) (.s o.t) a) else none) }

/-- The address of every atomic but ACAS. -/
def atomicAddr (o : LScalarArgs) (base index : Word) : Word := addrScalar base index o.disp o.size.bytes

/-- AADD. -/
def slotAadd (o : LScalarArgs) : SlotM := atomicSlot o .add (atomicAddr o) (.zext o.t)
/-- AMIN: sign-extended at size W. -/
def slotAmin (o : LScalarArgs) : SlotM := atomicSlot o .min (atomicAddr o) (.sext o.t o.size.bytes)
/-- AMAX: sign-extended at size W. -/
def slotAmax (o : LScalarArgs) : SlotM := atomicSlot o .max (atomicAddr o) (.sext o.t o.size.bytes)
/-- AMINU. -/
def slotAminu (o : LScalarArgs) : SlotM := atomicSlot o .minu (atomicAddr o) (.zext o.t)
/-- AMAXU. -/
def slotAmaxu (o : LScalarArgs) : SlotM := atomicSlot o .maxu (atomicAddr o) (.zext o.t)
/-- AAND. -/
def slotAand (o : LScalarArgs) : SlotM := atomicSlot o .and (atomicAddr o) (.zext o.t)
/-- AOR. -/
def slotAor (o : LScalarArgs) : SlotM := atomicSlot o .or (atomicAddr o) (.zext o.t)
/-- AXOR. -/
def slotAxor (o : LScalarArgs) : SlotM := atomicSlot o .xor (atomicAddr o) (.zext o.t)
/-- AXCHG. -/
def slotAxchg (o : LScalarArgs) : SlotM := atomicSlot o .xchg (atomicAddr o) (.zext o.t)
/-- ACAS: no index in the address, the index register is the compare value. -/
def slotAcas (o : LScalarArgs) : SlotM :=
  atomicSlot o .cas (fun base _ => addrScalar base 0 o.disp o.size.bytes) (.zext o.t)

/-! ## Issued alone: the meaning the opcode table's row has as an instruction of its own -/

/-- ld issued alone. -/
def execLd (o : LScalarArgs) (s : State) : Out' := execSlot (slotLd o) .l (.ld o) s
/-- lds issued alone. -/
def execLds (o : LScalarArgs) (s : State) : Out' := execSlot (slotLds o) .l (.lds o) s
/-- st issued alone. -/
def execSt (o : LStArgs) (s : State) : Out' := execSlot (slotSt o) .l (.st o) s
/-- ldv issued alone. -/
def execLdv (o : LVecArgs) (s : State) : Out' := execSlot (slotLdv o) .l (.ldv o) s
/-- ldvs issued alone. -/
def execLdvs (o : LVecArgs) (s : State) : Out' := execSlot (slotLdvs o) .l (.ldvs o) s
/-- gth issued alone. -/
def execGth (o : LGthArgs) (s : State) : Out' := execSlot (slotGth o) .l (.gth o) s
/-- stv issued alone. -/
def execStv (o : LVecStArgs) (s : State) : Out' := execSlot (slotStv o) .l (.stv o) s
/-- stvs issued alone. -/
def execStvs (o : LVecStArgs) (s : State) : Out' := execSlot (slotStvs o) .l (.stvs o) s
/-- sct issued alone. -/
def execSct (o : LSctArgs) (s : State) : Out' := execSlot (slotSct o) .l (.sct o) s
/-- sctaOp issued alone. -/
def execSctaOp (o : LSctaArgs) (s : State) : Out' := execSlot (slotSctaOp o) .l (.sctaOp o) s
/-- aadd issued alone. -/
def execAadd (o : LScalarArgs) (s : State) : Out' := execSlot (slotAadd o) .l (.aadd o) s
/-- amin issued alone. -/
def execAmin (o : LScalarArgs) (s : State) : Out' := execSlot (slotAmin o) .l (.amin o) s
/-- amax issued alone. -/
def execAmax (o : LScalarArgs) (s : State) : Out' := execSlot (slotAmax o) .l (.amax o) s
/-- aminu issued alone. -/
def execAminu (o : LScalarArgs) (s : State) : Out' := execSlot (slotAminu o) .l (.aminu o) s
/-- amaxu issued alone. -/
def execAmaxu (o : LScalarArgs) (s : State) : Out' := execSlot (slotAmaxu o) .l (.amaxu o) s
/-- aand issued alone. -/
def execAand (o : LScalarArgs) (s : State) : Out' := execSlot (slotAand o) .l (.aand o) s
/-- aor issued alone. -/
def execAor (o : LScalarArgs) (s : State) : Out' := execSlot (slotAor o) .l (.aor o) s
/-- axor issued alone. -/
def execAxor (o : LScalarArgs) (s : State) : Out' := execSlot (slotAxor o) .l (.axor o) s
/-- axchg issued alone. -/
def execAxchg (o : LScalarArgs) (s : State) : Out' := execSlot (slotAxchg o) .l (.axchg o) s
/-- acas issued alone. -/
def execAcas (o : LScalarArgs) (s : State) : Out' := execSlot (slotAcas o) .l (.acas o) s

end Sys2Proof.Machine
end

