-- ==== Sys2Proof/Machine/Scale.lean ====
section
/-! DEFINITION. The X-slot instructions (06 R164). -/

namespace Sys2Proof.Machine

open Sys2Proof

/-- A scale load. -/
def scaleLoad (o : XLdArgs) (align n : Nat) (form : LandForm) : SlotM := fun e s =>
  let base := (s.ctx e.c).sreg o.base
  let va := addrX base.v o.disp
  loadSlot e s [(base, 0)] none align (landX o.land) [⟨0, va, n, 0, 0⟩] .relaxed .ctx form (.x o.x) va noStall

/-- XLD: 32 bytes aligned to 32. -/
def slotXld (o : XLdArgs) : SlotM := scaleLoad o 32 32 (.xld o.x)
/-- XLDB: one byte, any alignment, into all 32 scales. -/
def slotXldb (o : XLdArgs) : SlotM := scaleLoad o 0 1 (.xldb o.x)
/-- XMOV: groups carry across. -/
def slotXmov (o : XMovArgs) : SlotM := fun e s => .of (e.put 2 (.x o.x) (.x ((s.ctx e.c).xreg o.src)))
/-- XSET: all 32 scales, not poisoned. -/
def slotXset (o : XSetArgs) : SlotM := fun e _ => .of (e.put 1 (.x o.x) (.x ⟨BitVec.ofNat 256 (spread o.imm.toNat), []⟩))

/-! ## Issued alone: the meaning the opcode table's row has as an instruction of its own -/

/-- xld issued alone. -/
def execXld (o : XLdArgs) (s : State) : Out' := execSlot (slotXld o) .x (.xld o) s
/-- xldb issued alone. -/
def execXldb (o : XLdArgs) (s : State) : Out' := execSlot (slotXldb o) .x (.xldb o) s
/-- xmov issued alone. -/
def execXmov (o : XMovArgs) (s : State) : Out' := execSlot (slotXmov o) .x (.xmov o) s
/-- xset issued alone. -/
def execXset (o : XSetArgs) (s : State) : Out' := execSlot (slotXset o) .x (.xset o) s

end Sys2Proof.Machine
end

