-- ==== Sys2Proof/Machine/Control.lean ====
section
/-! DEFINITION. The C-slot instructions (03 R72–R94, 08 R199–R207). -/

namespace Sys2Proof.Machine

open Sys2Proof

/-! ## Shared forms -/

/-- A slot's answer to a control read made at issue. -/
def gotSlot (g : Got) (f : List PByte → Target → SlotRes) : SlotRes :=
  match g with
  | .fault t => { fault := some t }
  | .miss va => { wait := some (.tlb va) }
  | .order => { wait := some .order }
  | .ok b t => f b t

/-- A slot's answer to the object-table read of go(). -/
def goSlot (g : Go) (f : Option Code → (State → State) → SlotRes) : SlotRes :=
  match g with
  | .fault t => { fault := some t }
  | .miss va => { wait := some (.tlb va) }
  | .order => { wait := some .order }
  | .ok code note => f code note

/-- A fault, when the test found one. -/
def trapOr (t : Option Trap) (r : SlotRes) : SlotRes := match t with | some t => { fault := some t } | none => r

/-- A change of the issuing context once the PC has moved. -/
def postCtx (e : Env) (f : Ctx → Ctx) : SlotRes := { post := fun s => s.modCtx e.c f }

/-- A link value {STATUS.obj, next_pc} written with bound 1 (03 R81). -/
def putLink (e : Env) (s : State) (d : SReg) : State → State :=
  e.put 1 (.s d) (.s (.of (linkOf (s.ctx e.c).ctl.obj e.npc) none))

/-! ## Branches, calls and returns -/

/-- NOP in any slot (03 R90). -/
def slotNop (_ : Slot) : SlotM := fun _ _ => {}

/-- BR (03 R77, R78). -/
def slotBr (o : BrArgs) : SlotM := fun e _ => { flow := .jump (e.npc + o.off.signExtend 32) }

/-- BRI (03 R80): the target arrives from the kernel's entry table. -/
def slotBri (o : BriArgs) : SlotM := fun e s =>
  let x := s.ctx e.c
  let a := x.sreg o.a
  let k := a.v.toNat
  trapOr (checkedUse [(a, 0)])
    (if o.count.toNat ≤ k then .trap .illegalIndex a.v
     else
       let va : Word := x.ctl.cbase.setWidth 64 - BitVec.ofNat 64 (4 * (o.first.toNat + k + 1))
       if va.toNat % 4 ≠ 0 then .trap .align va
       else
         gotSlot (s.readNow e.c va 4) fun b t =>
           match tagOf b with
           | some g => .trap .poisonConsumed 0 (some (.mem g))
           | none =>
             { flow := .later
               reads := fun s => s.noteT (s.who e.c).hall t 4
               post := fun s => s.block e.c (.object (linkOf x.ctl.obj (BitVec.ofNat 32 (valOf b))) none) })

/-- CALL (03 R77, R81). -/
def slotCall (o : CallArgs) : SlotM := fun e s =>
  { flow := .jump (e.npc + o.off.signExtend 32), commit := putLink e s o.b }

/-- CALLX (03 R83): the entry is read as an acquire; link and transfer follow when it arrives. -/
def slotCallx (o : CallxArgs) : SlotM := fun e s =>
  let x := s.ctx e.c
  let a := x.sreg o.a
  trapOr (checkedUse [(a, 0)])
    (if a.v.toNat % 8 ≠ 0 then .trap .align a.v
     else
       gotSlot (s.readNow e.c a.v 8) fun b t =>
         match tagOf b with
         | some g => .trap .poisonConsumed 0 (some (.mem g))
         | none =>
           let v : Word := BitVec.ofNat 64 (valOf b)
           goSlot (s.goRead e.c v) fun code note =>
             { flow := .later
               reads := fun s => note ((s.noteT (s.who e.c).hall t 8).acquireNow e.c (s.acquired e.c o.scope t 8))
               post := fun s => s.block e.c (.callx o.b (linkOf x.ctl.obj e.npc) v code) })

/-- RET (03 R81): within the object at once, to another when its table entry has arrived. -/
def slotRet (o : CRegArgs) : SlotM := fun e s =>
  let a := (s.ctx e.c).sreg o.a
  trapOr (checkedUse [(a, 0)])
    (goSlot (s.goRead e.c a.v) fun code note =>
      match code with
      | none => { flow := .jump (a.v.extractLsb' 0 32) }
      | some k => { flow := .later, reads := note, post := fun s => s.block e.c (.object a.v (some k)) })

/-! ## Hardware loops -/

/-- Open a loop of `n` iterations ending at `off` halfwords after the bundle (03 R72). -/
def loopSlot (e : Env) (s : State) (n : BitVec 32) (off : BitVec 12) : SlotRes :=
  let x := s.ctx e.c
  let stop := e.npc + off.setWidth 32
  if n = 0 then { flow := .skip stop }
  else if x.ctl.ldepth = 6 then .trap .loopstack
  else
    .of fun s => s.modCtx e.c fun x =>
      { x with
        loops := mset .zero x.loops x.ctl.ldepth.toNat ⟨e.npc, stop, n, 0, x.ctl.obj, false⟩
        ctl := { x.ctl with ldepth := x.ctl.ldepth + 1 } }

/-- LOOP (03 R72). -/
def slotLoop (o : LoopArgs) : SlotM := fun e s => loopSlot e s (o.count.setWidth 32) o.off

/-- LOOPR (03 R72). -/
def slotLoopr (o : LooprArgs) : SlotM := fun e s =>
  let a := (s.ctx e.c).sreg o.a
  trapOr (checkedUse [(a, 0)])
    (if a.v.extractLsb' 32 32 ≠ 0 then .trap .loopstack a.v else loopSlot e s (a.v.extractLsb' 0 32) o.off)

/-- LEXIT (03 R74). -/
def slotLexit (_ : Guard) : SlotM := fun e s =>
  let t := (s.ctx e.c).ctl
  if t.ldepth = 0 ∨ (t.uiact ∧ t.ldepth = t.uidepth) then .trap .loopstack
  else
    .of fun s => s.modCtx e.c fun x =>
      let i := x.ctl.ldepth.toNat - 1
      { x with loops := mset .zero x.loops i { (mget .zero x.loops i) with exit := true } }

/-- LIDX (03 R75); under a poisoned guard it only poisons its destination (02 R35). -/
def slotLidx (o : LidxArgs) : SlotM := fun e s =>
  let x := s.ctx e.c
  if x.ctl.ldepth.toNat ≤ o.k.toNat ∧ e.over_.isNone then .trap .loopstack
  else
    let l := mget .zero x.loops (x.ctl.ldepth.toNat - 1 - o.k.toNat)
    .of (e.put 1 (.s o.a) (.s (.of (l.index.setWidth 64) none)))

/-! ## YIELD, HALT, TRAP, RTI -/

/-- YIELD (03 R84, R85): a switch point and a parking boundary; `beat` emits the core's heartbeat. -/
def slotYield (o : YieldArgs) : SlotM := fun e _ =>
  { post := fun s =>
      (s.modCore (coreOf e.c) fun k => { k with yielded := true, beaten := k.beaten || o.beat }).modCtx e.c fun x =>
        { x with boundary := true } }

/-- Is `a` raised before `b` (06 R147)? -/
def DFault.before (a b : DFault) : Bool :=
  let rank (u : DUnit) : Nat := match u with | .mtx => 0 | .crd => 1 | .col => 2
  decide (a.cycle < b.cycle) || (a.cycle == b.cycle && decide (rank a.unit < rank b.unit))

/-- The deferred fault of some units that is raised first. -/
def firstFault (u : DUnit → Bool) (l : List DFault) : Option DFault :=
  (l.filter fun d => u d.unit).foldl (fun a d => match a with
    | none => some d
    | some b => if d.before b then some d else some b) none

/-- A deferred fault is raised at issue of an instruction of its unit and is then recorded no longer (06 R145, R147). -/
def deferredOr (e : Env) (s : State) (u : DUnit → Bool) (r : SlotRes) : SlotRes :=
  match firstFault u (s.ctx e.c).dfaults with
  | none => r
  | some d =>
    { fault := some d.trap
      raised := fun s => s.modCtx e.c fun x => { x with dfaults := x.dfaults.filter fun f => f.unit ≠ d.unit } }

/-- HALT (03 R86, 06 R146, R147): it suppresses the loop-end test (03 R73). -/
def slotHalt (_ : Guard) : SlotM := fun e s =>
  deferredOr e s (fun _ => true)
    { flow := .later
      post := fun s => (s.letGo e.c).modCtx e.c fun x => { x with act := .halting, parkReq := false } }

/-- TRAP (03 R89). -/
def slotTrap (o : TrapArgs) : SlotM := fun _ _ => .trap .trapInstr (o.imm.setWidth 64)

/-- Has the running code results or landings that have not landed? -/
def Ctx.inFlight (x : Ctx) : Bool := !x.fixed.isEmpty || !x.land.isEmpty || !x.vac.isEmpty

/-- RTI (03 R93): once the handler's results and landings have landed its object-table read is made and its bundle commits;
the transfer is made when what the bundle itself issued has landed too (DEDUCED, log 24). -/
def slotRti (_ : Guard) : SlotM := fun e s =>
  let t := (s.ctx e.c).ctl
  if !t.uiact then .trap .privilege
  else if t.ldepth ≠ t.uidepth then .trap .loopstack
  else if (s.ctx e.c).inFlight then { full := some (.rtiWait s.cycle) }
  else
    goSlot (s.goRead e.c t.uiret) fun code note =>
      { flow := .later, reads := note, post := fun s => s.block e.c (.rti s.cycle code false) }

/-! ## Monitors (08 R199–R202) -/

/-- May a monitor watch the target (08 R199)? -/
def Target.watchable (core : Nat) : Target → Bool
  | .win k kind _ => cluOf k == cluOf core && (kind == 0 || kind == 1)
  | _ => true

/-- MARM (08 R200) (DEDUCED, log 31). -/
def slotMarm (o : CRegArgs) : SlotM := fun e s =>
  let a := (s.ctx e.c).sreg o.a
  let line := a.v &&& ~~~63
  let w := s.who e.c
  trapOr (checkedUse [(a, 0)])
    (checkedSlot (s.check e.c w .read 0 none [⟨0, line, 64, 0, 0⟩]) fun l =>
      match l with
      | [] => {}
      | d :: _ =>
        if d.tgt.watchable (coreOf e.c) then
          .of fun s => (s.noteT w.hall d.tgt 64).modCtx e.c fun x => { x with mon := ⟨some d.tgt, false, false⟩ }
        else .trap .protect line)

/-- MWAIT (08 R200, R201). -/
def slotMwait (o : MwaitArgs) : SlotM := fun e _ =>
  { post := fun s =>
      let m := (s.ctx e.c).mon
      if m.line.isNone then s.modCtx e.c fun x => x.setS o.a (.of 2 none)
      else if m.hit then s.endMwait e.c o.a 1
      else if m.filter then s.endMwait e.c o.a 2
      else s.block e.c (.mwait o.a (if o.timeout = 0 then none else some (s.cycle + 1024 * o.timeout.toNat))) }

/-- MDISARM (08 R200). -/
def slotMdisarm (_ : Guard) : SlotM := fun e _ => .of fun s => s.modCtx e.c fun x => { x with mon := ⟨none, false, false⟩ }

/-! ## Barriers (08 R203–R205) -/

/-- Outstanding arrival of a context on an id. -/
def Ctx.arrival (x : Ctx) (id : BitVec 4) : Option Arrival := x.arrivals.find? fun a => a.id == id

/-- Scope in force on an id: that of an arrival at a phase still open anywhere in the footprint (08 R205) (DEDUCED,
log 45). -/
def State.barInForce (s : State) (l : Launch) (id : BitVec 4) : Option Scope :=
  l.team.findSome? fun c => ((s.ctx c).arrivals.find? fun a => a.id == id && !a.done).map (·.scope)

/-- A scope a barrier has (08 R203). -/
def Scope.barrier : Scope → Bool
  | .clu | .die | .pkg => true
  | _ => false

/-- Is the instruction a misuse (08 R205)? `arrive`: BAR and BARA (DEDUCED, log 45). -/
def State.barMisuse (s : State) (c : Nat) (o : BarArgs) (arrive : Bool) : Bool :=
  match s.launchOf c with
  | none => true
  | some l =>
    decide (l.nbars ≤ o.num.toNat) || !Scope.barrier o.scope ||
      (match (s.ctx c).arrival o.num with
        | some a => arrive || a.scope != o.scope
        | none => !arrive) ||
      (match s.barInForce l o.num with | some f => f != o.scope | none => false)

/-- A misuse faults; TRAPADDR is the barrier number. -/
def barSlot (e : Env) (s : State) (o : BarArgs) (arrive : Bool) (r : SlotRes) : SlotRes :=
  if s.barMisuse e.c o arrive then .trap .barrierMisuse (o.num.setWidth 64) else r

/-- Arrive: a DRAIN at the scope, then the arrival. -/
def Ctx.arriveAt (x : Ctx) (o : BarArgs) (seq : Nat) : Ctx :=
  { x with arrivals := x.arrivals ++ [⟨o.num, o.scope, seq, false, []⟩], drains := x.drains ++ [⟨o.scope, seq⟩] }

/-- The end of the wait: an acquire of what the participants issued before they arrived. -/
def State.leaveBarrier (s : State) (c : Nat) (id : BitVec 4) (a : Arrival) : State :=
  let s := s.acquireNow c a.deps
  s.modCtx c fun x => { x with arrivals := x.arrivals.filter fun b => b.id ≠ id, act := .ready }

/-- Wait for the phase of the outstanding arrival. -/
def State.barWait (s : State) (c : Nat) (o : BarArgs) : State :=
  match (s.ctx c).arrival o.num with
  | some a => if a.done then s.leaveBarrier c o.num a else s.block c (.barrier o.num o.scope)
  | none => s

/-- BAR (08 R204). -/
def slotBar (o : BarArgs) : SlotM := fun e s =>
  barSlot e s o true
    { commit := fun t => t.modCtx e.c fun x => x.arriveAt o s.seq, post := fun s => s.barWait e.c o }

/-- BARA (08 R204). -/
def slotBara (o : BarArgs) : SlotM := fun e s =>
  barSlot e s o true (.of fun t => t.modCtx e.c fun x => x.arriveAt o s.seq)

/-- BARW (08 R204). -/
def slotBarw (o : BarArgs) : SlotM := fun e s => barSlot e s o false { post := fun s => s.barWait e.c o }

/-! ## DRAIN and FENCE (08 R206, R207) -/

/-- DRAIN: scope CTX adds nothing. -/
def slotDrain (o : DrainArgs) : SlotM := fun e s =>
  .of fun t => if o.scope = .ctx then t else t.modCtx e.c fun x => { x with drains := x.drains ++ [⟨o.scope, s.seq⟩] }

/-- Code of an engine class. -/
def fenceCode : EngClass → Nat
  | .ctx => 0 | .cpy => 1 | .col => 2 | .wlk => 3 | .mtx => 4 | .crd => 5 | .hst => 6

/-- FENCE: A = CTX holds later commands of the class, or the context itself when B is HST. Every other A is work whose
completion the context has observed: it has performed. -/
def slotFence (o : FenceArgs) : SlotM := fun e s =>
  if o.a ≠ .ctx then {}
  else if o.b = .hst then
    { post := fun t => if t.fenced e.c s.seq then t.block e.c (.fenceHst s.seq) else t }
  else .of fun t => t.modCtx e.c fun x => { x with fences := mset 0 x.fences (fenceCode o.b) s.seq }

/-! ## Predicates and control registers (03 R87, R88, R94) -/

/-- A predicate result of two predicates. -/
def pBin (o : PBinArgs) (f : Bool → Bool → Bool) : SlotM := fun e s =>
  let a := (s.ctx e.c).preg o.pa
  let b := (s.ctx e.c).preg o.pb
  pRes e 1 o.pd (f a.v b.v) (pmeet a.p b.p)

/-- PAND. -/
def slotPand (o : PBinArgs) : SlotM := pBin o (· && ·)
/-- POR. -/
def slotPor (o : PBinArgs) : SlotM := pBin o (· || ·)
/-- PXOR. -/
def slotPxor (o : PBinArgs) : SlotM := pBin o (· != ·)
/-- PNOT. -/
def slotPnot (o : PNotArgs) : SlotM := fun e s =>
  let a := (s.ctx e.c).preg o.pa
  pRes e 1 o.pd (!a.v) a.p

/-- MFC (03 R88): a read of UIPEND also takes what a pending EVPOST has ordered (14 R288). -/
def slotMfc (o : CtlArgs) : SlotM := fun e s =>
  let put := e.put 1 (.s o.a) (.s (.of (readCtl s e.c o.reg) none))
  .of fun s => put (if o.reg = 0x012 ∧ e.over_.isNone then s.acquireEvt e.c else s)

/-- Does a write of STATUS change a field that no privilege writes: level, stepping or svc (03 R66, R88)? -/
def statusFixed (s : State) (c : Nat) (v : Word) : Bool :=
  let m : Word := 0xFFFF000C00
  (v &&& m) != (readCtl s c 0x000 &&& m)

/-- MTC (03 R88): a write that changes a field without write access faults as a register without does (DEDUCED, log 29). -/
def slotMtc (o : CtlArgs) : SlotM := fun e s =>
  let x := s.ctx e.c
  let a := x.sreg o.a
  if !ctlWritable x.ctl.priv o.reg || (o.reg == 0x000 && a.p.isNone && statusFixed s e.c a.v) then .trap .privilege (o.reg.setWidth 64)
  else if a.p.isSome then .trap .poisonConsumed 0 a.p
  else postCtx e fun x => { x with ctl := x.ctl.write o.reg a.v }

/-- UIEN (03 R94). -/
def slotUien (_ : Guard) : SlotM := fun e _ => postCtx e fun x => { x with ctl := { x.ctl with uie := true } }
/-- UIDIS (03 R94). -/
def slotUidis (_ : Guard) : SlotM := fun e _ => postCtx e fun x => { x with ctl := { x.ctl with uie := false } }

/-! ## Issued alone: the meaning the opcode table's row has as an instruction of its own -/

/-- A NOP of any slot issued alone. -/
def execNop (sl : Slot) (s : State) : Out' := execSlot (slotNop sl) sl (.nop sl) s
/-- br issued alone. -/
def execBr (o : BrArgs) (s : State) : Out' := execSlot (slotBr o) .c (.br o) s
/-- bri issued alone. -/
def execBri (o : BriArgs) (s : State) : Out' := execSlot (slotBri o) .c (.bri o) s
/-- call issued alone. -/
def execCall (o : CallArgs) (s : State) : Out' := execSlot (slotCall o) .c (.call o) s
/-- callx issued alone. -/
def execCallx (o : CallxArgs) (s : State) : Out' := execSlot (slotCallx o) .c (.callx o) s
/-- ret issued alone. -/
def execRet (o : CRegArgs) (s : State) : Out' := execSlot (slotRet o) .c (.ret o) s
/-- loop issued alone. -/
def execLoop (o : LoopArgs) (s : State) : Out' := execSlot (slotLoop o) .c (.loop o) s
/-- loopr issued alone. -/
def execLoopr (o : LooprArgs) (s : State) : Out' := execSlot (slotLoopr o) .c (.loopr o) s
/-- lexit issued alone. -/
def execLexit (g : Guard) (s : State) : Out' := execSlot (slotLexit g) .c (.lexit g) s
/-- lidx issued alone. -/
def execLidx (o : LidxArgs) (s : State) : Out' := execSlot (slotLidx o) .c (.lidx o) s
/-- yield issued alone. -/
def execYield (o : YieldArgs) (s : State) : Out' := execSlot (slotYield o) .c (.yield o) s
/-- halt issued alone. -/
def execHalt (g : Guard) (s : State) : Out' := execSlot (slotHalt g) .c (.halt g) s
/-- trap issued alone. -/
def execTrap (o : TrapArgs) (s : State) : Out' := execSlot (slotTrap o) .c (.trap o) s
/-- rti issued alone. -/
def execRti (g : Guard) (s : State) : Out' := execSlot (slotRti g) .c (.rti g) s
/-- marm issued alone. -/
def execMarm (o : CRegArgs) (s : State) : Out' := execSlot (slotMarm o) .c (.marm o) s
/-- mwait issued alone. -/
def execMwait (o : MwaitArgs) (s : State) : Out' := execSlot (slotMwait o) .c (.mwait o) s
/-- mdisarm issued alone. -/
def execMdisarm (g : Guard) (s : State) : Out' := execSlot (slotMdisarm g) .c (.mdisarm g) s
/-- bar issued alone. -/
def execBar (o : BarArgs) (s : State) : Out' := execSlot (slotBar o) .c (.bar o) s
/-- bara issued alone. -/
def execBara (o : BarArgs) (s : State) : Out' := execSlot (slotBara o) .c (.bara o) s
/-- barw issued alone. -/
def execBarw (o : BarArgs) (s : State) : Out' := execSlot (slotBarw o) .c (.barw o) s
/-- drain issued alone. -/
def execDrain (o : DrainArgs) (s : State) : Out' := execSlot (slotDrain o) .c (.drain o) s
/-- fence issued alone. -/
def execFence (o : FenceArgs) (s : State) : Out' := execSlot (slotFence o) .c (.fence o) s
/-- pand issued alone. -/
def execPand (o : PBinArgs) (s : State) : Out' := execSlot (slotPand o) .c (.pand o) s
/-- por issued alone. -/
def execPor (o : PBinArgs) (s : State) : Out' := execSlot (slotPor o) .c (.por o) s
/-- pxor issued alone. -/
def execPxor (o : PBinArgs) (s : State) : Out' := execSlot (slotPxor o) .c (.pxor o) s
/-- pnot issued alone. -/
def execPnot (o : PNotArgs) (s : State) : Out' := execSlot (slotPnot o) .c (.pnot o) s
/-- mfc issued alone. -/
def execMfc (o : CtlArgs) (s : State) : Out' := execSlot (slotMfc o) .c (.mfc o) s
/-- mtc issued alone. -/
def execMtc (o : CtlArgs) (s : State) : Out' := execSlot (slotMtc o) .c (.mtc o) s
/-- uien issued alone. -/
def execUien (g : Guard) (s : State) : Out' := execSlot (slotUien g) .c (.uien g) s
/-- uidis issued alone. -/
def execUidis (g : Guard) (s : State) : Out' := execSlot (slotUidis g) .c (.uidis g) s

end Sys2Proof.Machine
end

