-- ==== Sys2Proof/Machine/Matrix.lean ====
section
/-! DEFINITION. The matrix unit (06 R140–R167): the M-slot instructions, the commands as the unit runs them, and the
micro-words of a routine. -/

namespace Sys2Proof.Machine

open Sys2Proof

/-! ## M-slot instructions (06 R154–R163) -/

/-- Queue a matrix command: it waits while eight are queued (06 R143, 02 R390), unless a segment holds it (DEDUCED,
log 38). -/
def mtxSlot (e : Env) (s : State) (op : MtxOp) : SlotRes :=
  let x := s.ctx e.c
  { full := if x.seg.isNone && decide (8 ≤ x.mtx.queue.length) then some (.queueSpace .mtx) else none
    commit := fun s => s.command e.c (.mtx ⟨op, mget 0 x.fences (fenceCode .mtx), e.tick⟩) }

/-- MCALL (06 R155). -/
def slotMcall (o : McallArgs) : SlotM := fun e s =>
  let x := s.ctx e.c
  if x.grant.reCount ≤ o.routine.toNat then .trap .illegalIndex (o.routine.setWidth 64)
  else mtxSlot e s (.mcall o.acc o.afmt o.bfmt o.routine x.regs.m x.regs.x)
/-- MLDW (06 R156). -/
def slotMldw (o : MldwArgs) : SlotM := fun e s => mtxSlot e s (.mldw o.afmt o.bfmt ((s.ctx e.c).mreg o.m))
/-- MSWP (06 R157). -/
def slotMswp (_ : Guard) : SlotM := fun e s => mtxSlot e s .mswp
/-- MLDIX (06 R158). -/
def slotMldix (o : MldixArgs) : SlotM := fun e s => mtxSlot e s (.mldix ((s.ctx e.c).vreg o.v))
/-- MCLR (06 R159). -/
def slotMclr (o : MclrArgs) : SlotM := fun e s => mtxSlot e s (.mclr o.acc)
/-- MSET (06 R160). -/
def slotMset (o : MsetArgs) : SlotM := fun e s =>
  let a := (s.ctx e.c).sreg o.s
  if a.p.isNone ∧ e.over_.isNone ∧ a.r ≠ residue a.v then .trap .residue
  else .of (e.put 1 (.m o.m) (.m ⟨a.v, a.p⟩))
/-- MUPLD (06 R161): of its issue faults PROTECT comes before POISON_CONSUMED, the offset before the routine (DESIGN CHOICE,
log 114). -/
def slotMupld (o : MupldArgs) : SlotM := fun e s =>
  let x := s.ctx e.c
  let m := x.mreg o.m
  if x.grant.uwCount ≤ o.at_.toNat then .trap .protect (o.at_.setWidth 64)
  else if x.grant.reCount ≤ o.routine.toNat then .trap .protect (o.routine.setWidth 64)
  else if m.p.isSome then .trap .poisonConsumed 0 m.p
  else mtxSlot e s (.mupld m o.routine o.at_)
/-- MSYNC (06 R162). -/
def slotMsync (_ : Guard) : SlotM := fun e s =>
  deferredOr e s (· == .mtx)
    { post := fun s => if (s.ctx e.c).mtx.queue.isEmpty then s else s.block e.c .msync }

/-! ## Planes (06 R141, R142) -/

/-- Blocks of 32 along K. -/
def nBlocks (a b : MxFmt) : Nat := gangK (gangOf a b) / 32

/-- Bytes of a tile image's codes. -/
def codeBytes (a b : MxFmt) : Nat := 128 * nBlocks a b * (4 * b.bits)

/-- Bytes of a tile image. -/
def imageBytes (a b : MxFmt) : Nat := codeBytes a b + 128 * nBlocks a b + 4 * gangK (gangOf a b)

/-- A number of `k` words of the plane from word `w`, with their lowest tag. -/
def Plane.words (p : Plane) (w : Nat) : Nat → Nat × Option Tag
  | 0 => (0, none)
  | k + 1 =>
    let r := p.words (w + 1) k
    ((mget 0 p.img w).toNat + r.1 * 2 ^ 64, tmeet (mget none p.poison w) r.2)

/-- Bytes `o … o + n − 1` of the plane's image, within one 8-byte word. -/
def Plane.small (p : Plane) (o n : Nat) : Nat × Option Tag :=
  (bitsAt (mget 0 p.img (o / 8)).toNat (8 * (o % 8)) (8 * n), mget none p.poison (o / 8))

/-- A block of codes with its scale and the lowest tag of what made it. -/
structure Block where
  codes : List Int
  scale : Nat
  tag : Option Tag
  deriving DecidableEq, Repr

/-- The codes a number packs. -/
def unpack (f : MxFmt) (v : Nat) : List Int := (List.range 32).map fun i => f.code (bitsAt v (f.bits * i) f.bits)

/-- Weight block (n, j) of a plane under formats a, b. -/
def Plane.block (p : Plane) (a b : MxFmt) (n j : Nat) : Block :=
  let i := n * nBlocks a b + j
  let c := p.words (i * b.bits / 2) (b.bits / 2)
  let s := p.small (codeBytes a b + i) 1
  ⟨unpack b c.1, s.1, tmeet c.2 s.2⟩

/-- Assay sum of row k: the FP32 number, with its tag. -/
def Plane.assay (p : Plane) (a b : MxFmt) (k : Nat) : FV × Option Tag :=
  let s := p.small (codeBytes a b + 128 * nBlocks a b + 4 * k) 4
  (Fmt.fp32.decode s.1, s.2)

/-! ## Reading the own scratchpad (06 R144) -/

/-- First byte of a run that lies outside the granted granules (DEDUCED, log 41). -/
def State.outside (s : State) (c off n : Nat) : Option Nat :=
  let w := s.engine c
  ((List.range (n / 65536 + 2)).map fun i => if i = 0 then off else (off / 65536 + i) * 65536).find? fun o =>
    decide (o < off + n) && !s.granuleOk w (coreOf c) (o % spadBytes)

/-- Bytes the unit reads at a scratchpad offset, modulo 2^19 (DEDUCED, log 41). -/
def State.mtxRead (s : State) (c off n : Nat) : Except Trap (List PByte) :=
  match s.outside c off n with
  | some o => .error ⟨.protect, BitVec.ofNat 64 (o % spadBytes), 0, none⟩
  | none => .ok (readBytes (fun w => s.mem.spadWord (coreOf c) (w % 65536)) off n)

/-- Offset of an m register's value. -/
def offOf (v : Word) : Nat := v.toNat % spadBytes

/-! ## The queue -/

/-- Change the matrix side of a context. -/
def State.modMtx (s : State) (c : Nat) (f : Mtx → Mtx) : State := s.modCtx c fun x => { x with mtx := f x.mtx }

/-- The oldest command of a context, once what its FENCE names has performed (06 R165). -/
def State.mtxReady (s : State) (c : Nat) : Option MtxOp :=
  match (s.ctx c).mtx.queue with
  | [] => none
  | m :: _ => if s.fenced c m.after then none else some m.op

/-- Is it the context's turn at its core's matrix unit (06 R143)? While a routine runs, its context's; else the first in
rotation after the context served last of those with a command ready, of high priority first (DEDUCED, log 39). -/
def State.mtxTurn (s : State) (c : Nat) : Bool :=
  let k := coreOf c
  let all := [0, 1, 2, 3].map (4 * k + ·)
  match all.find? fun d => (s.ctx d).mtx.run.isSome with
  | some d => d == c
  | none =>
    let l := ((rotation (s.core k).mtxLast).map fun i => 4 * k + i.val).filter fun d => (s.mtxReady d).isSome
    let high := l.filter fun d => (s.ctx d).ctl.prio == 1
    (if high.isEmpty then l else high).head? == some c

/-- The command the unit may run next for a context (DESIGN CHOICE, log 39). -/
def State.mtxHead (s : State) (c : Nat) : Option MtxOp := if s.mtxTurn c then s.mtxReady c else none

/-- The unit has served the context: it lies last in rotation, and a trapped context's matrix work may be over (06 R167). -/
def State.mtxServed (s : State) (c : Nat) : State :=
  (s.modCore (coreOf c) fun k => { k with mtxLast := BitVec.ofNat 2 c |>.toFin }).modCtx c fun x =>
    if x.act == .trapWaiting then { x with trapAt := s.cycle } else x

/-- The running command ends (DEDUCED, log 38). -/
def State.mtxDone (s : State) (c : Nat) : State :=
  (s.modMtx c fun m => { m with queue := m.queue.drop 1, run := none }).mtxServed c

/-- A deferred fault: the rest of the command is skipped, later queued commands are discarded (06 R145). -/
def State.mtxFault (s : State) (c : Nat) (t : Trap) : State :=
  ((s.modMtx c fun m => { m with queue := [], run := none }).mtxServed c).defer c .mtx t

/-- A number as TRAPADDR. -/
def trapAt (c : Cause) (n : Nat) : Trap := ⟨c, BitVec.ofNat 64 n, 0, none⟩

/-- A deferred POISON_CONSUMED: what an engine reports is persistent (07 R179) (DEDUCED, log 44). -/
def poisonAt (n : Nat) (t : Tag) : Trap := ⟨.poisonConsumed, BitVec.ofNat 64 n, 0, some (.mem t)⟩

/-! ## Micro-words (06 R150) -/

/-- A decoded micro-word. -/
inductive Uop where
  | step (gathered : Bool) (op : CellOp)
  | seta (base stride : MReg) (r : BitVec 16)
  | setacc (row : BitVec 7)
  | scale (hold : Bool) (x : XReg) (byte : BitVec 5)
  | loopu (fromM : Bool) (m : MReg) (len : BitVec 8) (count : BitVec 16)
  | end_
  deriving DecidableEq, Repr

/-- Decode a micro-word; none when it is not one. -/
def decodeUop (w : BitVec 128) : Option Uop :=
  let n := w.toNat
  let cell := bitsAt n 122 2
  let rest (m : Nat) : Bool := bitsAt n 0 122 &&& (2 ^ 122 - 1 - m) == 0
  match bitsAt n 124 4 with
  | 1 =>
    if !rest (3 * 2 ^ 120) || 1 < bitsAt n 120 2 then none
    else match cell with
      | 0 => some (.step (bitAt n 120) .madd)
      | 1 => some (.step (bitAt n 120) .adadd)
      | 2 => some (.step (bitAt n 120) .csel)
      | _ => none
  | 2 => if cell ≠ 0 || !rest (0x3F * 2 ^ 116 + 0xFFFF) then none else some (.seta (fld n 119 3) (fld n 116 3) (fld n 0 16))
  | 3 => if cell ≠ 0 || !rest 0x7F then none else some (.setacc (fld n 0 7))
  | 4 => if cell ≠ 0 || !rest 0x1F1F then none else some (.scale (bitAt n 12) (fld n 8 4) (fld n 0 5))
  | 5 =>
    if cell ≠ 0 || !rest 0x1EFFFFFF || bitsAt n 16 8 = 0 then none
    else some (.loopu (bitAt n 28) (fld n 25 3) (fld n 16 8) (fld n 0 16))
  | 6 => if cell ≠ 0 || !rest 0 then none else some .end_
  | _ => none

/-! ## A routine (06 R151) -/

/-- Where the word concerned lies in the context's grant (06 R145). -/
def State.wordNo (s : State) (c : Nat) (r : URun) : Nat := r.first + r.word - (s.ctx c).grant.uwFirst

/-- The next micro-word of a run: none past the routine's last word or where no micro-word stands (DEDUCED, log 40). -/
def State.nextUop (s : State) (c : Nat) (r : URun) : Option Uop :=
  if r.len ≤ r.word then none
  else decodeUop (mget 0 s.mem.ucode (coreOf c * 1024 + (r.first + r.word) % 1024))

/-- The run after the word before `w` is over: bodies that end there count down (DEDUCED, log 40). A body that reaches past the
end of the body around it ends the outer one's iteration when it ends itself (DESIGN CHOICE, log 114). -/
def URun.settle : Nat → URun → URun
  | 0, r => r
  | k + 1, r =>
    match r.loops with
    | [] => r
    | l :: t =>
      if r.word < l.first + l.len then r
      else if 1 < l.left then { r with word := l.first, loops := { l with left := l.left - 1 } :: t }
      else URun.settle k { r with word := l.first + l.len, loops := t }

/-- The run moves past `n` words. -/
def URun.past (r : URun) (n : Nat) : URun := URun.settle 3 { r with word := r.word + n }

/-- MCALL starts (06 R155): the entry must be valid and the active plane's tag must match (DEDUCED, log 42). -/
def State.startCall (s : State) (c : Nat) : State :=
  let x := s.ctx c
  match x.mtx.run, s.mtxHead c with
  | none, some (.mcall acc afmt bfmt routine m xs) =>
    let e := (mget 0 s.mem.rtable (coreOf c * 256 + (x.grant.reFirst + routine.toNat) % 256)).toNat
    let tagOk := match x.mtx.active.tag with
      | none => true
      | some (b, g) => b == bfmt && g == gangOf afmt bfmt
    if !bitAt e 31 then s.mtxFault c (trapAt .illegalIndex routine.toNat)
    else if !tagOk then s.mtxFault c (trapAt .illegalBundle 0)
    else
      s.modMtx c fun u => { u with
        run := some ⟨acc, afmt, bfmt, m, xs, mget .zero m 0, mget .zero m 1, 0, 0, 0, false,
          bitsAt e 0 10, bitsAt e 10 11, 0, []⟩ }
  | _, _ => s

/-! ## A step (06 R151, R152, R163) -/

/-- Address of a step's activation row, or the fault. -/
def stepAddr (idx : VVal) (r : URun) (gathered : Bool) : Except Trap Nat :=
  if gathered ∧ 128 ≤ r.r then .error (trapAt .illegalIndex r.r)
  else
    let i : Word := if gathered then BitVec.ofNat 64 (bitsAt idx.v.toNat (16 * r.r) 16) else BitVec.ofNat 64 r.r
    let p := pmeet (pmeet r.b.p r.t.p) (if gathered then poiAt idx.p (r.r / 2) else none)
    match p with
    | some p => .error (poisonAt 0 p.tag)
    | none =>
      let a := offOf (r.b.v + i * r.t.v)
      if a % 32 ≠ 0 then .error (trapAt .align a) else .ok a

/-- The activation blocks of a row. -/
def rowBlocks (r : URun) (b : List PByte) : List Block :=
  let n := nBlocks r.afmt r.bfmt
  (List.range n).map fun j =>
    let d := (b.drop (j * (4 * r.afmt.bits))).take (4 * r.afmt.bits)
    let q := r.p + j
    let x := mget XVal.zero r.x (q / 32 % 16)
    ⟨unpack r.afmt (valOf d), bitsAt x.v.toNat (8 * (q % 32)) 8,
      tmeet (tagOf d) (ptag (poiAt x.p (q % 32 / 8)))⟩

/-- The block integer of a cell operation (06 R152). -/
def blockInt (op : CellOp) (a w : List Int) : Int :=
  match op with
  | .madd => (List.zipWith (· * ·) a w).foldl (· + ·) 0
  | .adadd => (List.zipWith (fun x y => ((x - y).natAbs : Int)) a w).foldl (· + ·) 0
  | .csel => match List.zipWith (· * ·) a w with
    | [] => 0
    | h :: t => t.foldl max h

/-- Contribution of a block, as FP32. -/
def contribution (op : CellOp) (af bf : MxFmt) (a w : Block) : Nat :=
  let k := blockInt op a.codes w.codes
  let sa : Int := (a.scale : Int) - 127
  let sb : Int := (w.scale : Int) - 127
  if a.scale = 255 ∨ w.scale = 255 then Fmt.fp32.nanCode
  else
    match op with
    | .adadd =>
      if af ≠ bf ∨ a.scale ≠ w.scale then Fmt.fp32.nanCode
      else Fmt.fp32.encode .rne false (.num (k < 0) k.natAbs (sa - (af.f : Int)))
    | _ => Fmt.fp32.encode .rne false (.num (k < 0) k.natAbs (sa + sb - (af.f : Int) - (bf.f : Int)))

/-- An accumulator element takes a contribution (06 R152). -/
def accTake (op : CellOp) (acc c : Nat) : Nat :=
  match op with
  | .csel =>
    let x := Fmt.fp32.decode acc
    let y := Fmt.fp32.decode c
    if y.isNan then acc else if x.isNan || x.lt y then c else acc
  | _ => Fmt.fp32.fadd .rne acc c

/-- An accumulator element after a step. -/
def accStep (op : CellOp) (af bf : MxFmt) (e : W32 × Option Poi) : List (Block × Block) → W32 × Option Poi
  | [] => e
  | (a, w) :: t =>
    accStep op af bf
      (BitVec.ofNat 32 (accTake op e.1.toNat (contribution op af bf a w)),
       pmeet e.2 ((tmeet a.tag w.tag).map Poi.mem)) t

/-- Is a block of a MADD step left out of the assay (06 R163)? -/
def leftOut (a : Block) (ws : List Block) : Bool :=
  a.tag.isSome || a.scale == 255 || ws.any fun w => w.tag.isSome || w.scale == 255

/-- Finite numbers as integers over 2^149: every finite FP32 number is one. -/
def overUnit : FV → Option Int
  | .num neg m e => some (smag neg (if 0 ≤ e + 149 then m * 2 ^ (e + 149).toNat else m / 2 ^ (-(e + 149)).toNat))
  | _ => none

/-- Σ a(k) · assay(k) over one block, over 2^149; none when a sum is not finite (DEDUCED, log 43). -/
def assaySum : List Int → List FV → Option Int
  | a :: s, f :: t => match overUnit f, assaySum s t with
    | some x, some y => some (a * x + y)
    | _, _ => none
  | _, _ => some 0

/-- Add to an integer of a sparse row. -/
def addAt (m : SMap Int) (k : Nat) (v : Int) : SMap Int := mset 0 m k (mget 0 m k + v)

/-- One block of a MADD step enters the assay state (DEDUCED, log 43). -/
def assayBlock (y : Assay) (a : Block) (ws : List Block) (sums : List (FV × Option Tag)) (j : Nat) : Assay :=
  if leftOut a ws then y
  else
    let ints := ws.map fun w => blockInt .madd a.codes w.codes
    let ok := match assaySum a.codes (sums.map (·.1)) with
      | some v => decide (ints.foldl (· + ·) 0 * 2 ^ 149 = v)
      | none => false
    { check := y.check && ok
      a := (a.codes.zipIdx).foldl (fun m e => addAt m (32 * j + e.2) e.1) y.a
      t := (ints.zipIdx).foldl (fun m e => addAt m e.2 e.1) y.t
      p := sums.foldl (fun p e => pmeet p (e.2.map Poi.mem)) y.p }

/-- The cell operations of one step, on the row's blocks. -/
def State.cells (s : State) (c : Nat) (r : URun) (op : CellOp) (row : List Block) : State :=
  let pl := (s.ctx c).mtx.active
  let cols := (List.range 128).map fun n => (row.zipIdx).map fun e => (e.1, pl.block r.afmt r.bfmt n e.2)
  let s := ((cols.zipIdx).foldl (fun s e => s.modMem fun m =>
    let i := accIndex c r.acc r.c e.2
    let v := accStep op r.afmt r.bfmt (m.accElem i) e.1
    m.putAcc i v.1 v.2) s).hitWin (coreOf c) 1 (4 * (accIndex c r.acc r.c 0 % 131072)) 512
  match op with
  | .madd =>
    s.modMtx c fun u => { u with
      assay := (row.zipIdx).foldl (fun y e =>
        assayBlock y e.1 ((List.range 128).map fun n => pl.block r.afmt r.bfmt n e.2)
          ((List.range 32).map fun k => pl.assay r.afmt r.bfmt (32 * e.2 + k)) e.2) u.assay }
  | _ => s

/-- The run after a step. -/
def URun.stepped (r : URun) : URun :=
  { r with
    r := r.r + 1
    c := (r.c + 1) % 128
    p := if r.hold then r.p else (r.p + nBlocks r.afmt r.bfmt) % 512 }

/-- Set the run. -/
def State.setRun (s : State) (c : Nat) (r : URun) : State := s.modMtx c fun u => { u with run := some r }

/-- STEP (06 R151) (DEDUCED, log 40). -/
def State.uStep (s : State) (c : Nat) (r : URun) (gathered : Bool) (op : CellOp) : State :=
  match stepAddr (s.ctx c).mtx.idx r gathered with
  | .error t => s.mtxFault c t
  | .ok a =>
    match s.mtxRead c a (nBlocks r.afmt r.bfmt * (4 * r.afmt.bits)) with
    | .error t => s.mtxFault c t
    | .ok b => (s.cells c r op (rowBlocks r b)).setRun c (r.stepped.past 1)

/-- LOOPU (06 R151). -/
def State.uLoop (s : State) (c : Nat) (r : URun) (fromM : Bool) (m : MReg) (len : BitVec 8) (count : BitVec 16) : State :=
  let v := mget MVal.zero r.m m.toNat
  if 2 ≤ r.loops.length then s.mtxFault c (trapAt .loopstack (s.wordNo c r))
  else
    match (if fromM then v.p else none) with
    | some p => s.mtxFault c (poisonAt 0 p.tag)
    | none =>
      let n := if fromM then bitsAt v.v.toNat 0 16 else count.toNat
      if n = 0 then s.setRun c (r.past (1 + len.toNat))
      else s.setRun c { r with word := r.word + 1, loops := ⟨r.word + 1, len.toNat, n⟩ :: r.loops }

/-- One micro-word. -/
def State.uWord (s : State) (c : Nat) (r : URun) : State :=
  match s.nextUop c r with
  | none => s.mtxFault c (trapAt .illegalBundle (s.wordNo c r))
  | some (.step g op) => s.uStep c r g op
  | some (.seta b t n) =>
    s.setRun c ({ r with b := mget .zero r.m b.toNat, t := mget .zero r.m t.toNat, r := n.toNat }.past 1)
  | some (.setacc n) => s.setRun c ({ r with c := n.toNat }.past 1)
  | some (.scale h x b) => s.setRun c ({ r with p := 32 * x.toNat + b.toNat, hold := h }.past 1)
  | some (.loopu f m l n) => s.uLoop c r f m l n
  | some .end_ => s.mtxDone c

/-- Run micro-words until the routine ends; `k` bounds their number. -/
def State.runWords (c : Nat) : Nat → State → State
  | 0, s => s
  | k + 1, s =>
    match (s.ctx c).mtx.run with
    | none => s
    | some r => State.runWords c k (s.uWord c r)

/-- More micro-words than any routine runs: LOOPU nests two deep, each level at most 65,535 times. -/
def wordBound : Nat := 2 ^ 44

/-- A micro-word of a context's routine, when it is the one that comes next (DESIGN CHOICE, log 39). -/
def State.uEvent (s : State) (c : Nat) (u : Uop) : State :=
  let s' := s.startCall c
  match (s'.ctx c).mtx.run with
  | none => s
  | some r => if s'.nextUop c r = some u then s'.uWord c r else s

/-- STEP. -/
def execStep (u : UStepArgs) (s : State) : Out' := .next (s.uEvent u.c.val (.step u.gathered u.op))
/-- SETA. -/
def execSeta (u : USetaArgs) (s : State) : Out' := .next (s.uEvent u.c.val (.seta u.base u.stride u.r))
/-- SETACC. -/
def execSetacc (u : USetaccArgs) (s : State) : Out' := .next (s.uEvent u.c.val (.setacc u.row))
/-- SCALE. -/
def execScale (u : UScaleArgs) (s : State) : Out' := .next (s.uEvent u.c.val (.scale u.hold u.x u.byte))
/-- LOOPU. -/
def execLoopu (u : ULoopArgs) (s : State) : Out' := .next (s.uEvent u.c.val (.loopu u.fromM u.m u.len u.count))
/-- END. -/
def execEndu (c : CtxNo) (s : State) : Out' := .next (s.uEvent c.val .end_)

/-! ## The commands -/

/-- MCALL_RUN: the routine from its entry, or from where it stands, to its end (06 R151). -/
def execMcallRun (c : CtxNo) (s : State) : Out' := .next (State.runWords c.val wordBound (s.startCall c.val))

/-- Words of bytes, without the zero ones. -/
def wordsOf (b : List PByte) : SMap Word :=
  ((pieces 8 (b.length / 8) b).zipIdx).filterMap fun e =>
    let v := valOf e.1
    if v = 0 then none else some (e.2, BitVec.ofNat 64 v)

/-- Tags of the words of bytes. -/
def tagsOf (b : List PByte) : SMap (Option Tag) :=
  ((pieces 8 (b.length / 8) b).zipIdx).filterMap fun e => (tagOf e.1).map fun t => (e.2, some t)

/-- MLDW_RUN (06 R142, R156). A fault leaves the standby plane as it was (DESIGN CHOICE, log 114). -/
def State.mldw (s : State) (c : Nat) (a b : MxFmt) (m : MVal) : State :=
  match m.p with
  | some p => s.mtxFault c (poisonAt 0 p.tag)
  | none =>
    let off := offOf m.v
    if off % 256 ≠ 0 then s.mtxFault c (trapAt .align off)
    else
      match s.mtxRead c off (imageBytes a b) with
      | .error t => s.mtxFault c t
      | .ok d => (s.modMtx c fun u => { u with standby := ⟨wordsOf d, tagsOf d, a, some (b, gangOf a b)⟩ }).mtxDone c

/-- MLDW_RUN. -/
def execMldwRun (c : CtxNo) (s : State) : Out' :=
  .next (match s.mtxHead c.val with | some (.mldw a b m) => s.mldw c.val a b m | _ => s)

/-- MSWP_RUN (06 R157). -/
def execMswpRun (c : CtxNo) (s : State) : Out' :=
  .next (match s.mtxHead c.val with
    | some .mswp =>
      (s.modMtx c.val fun u => { u with active := u.standby, standby := u.active, assay := .clear }).mtxDone c.val
    | _ => s)

/-- MLDIX_RUN (06 R158). -/
def execMldixRun (c : CtxNo) (s : State) : Out' :=
  .next (match s.mtxHead c.val with
    | some (.mldix v) => (s.modMtx c.val fun u => { u with idx := v }).mtxDone c.val
    | _ => s)

/-- Lines `i … i + n − 1` of the accumulators have been written (07 R186). -/
def Mem.markAcc (m : Mem) (i n : Nat) : Mem :=
  { m with accValid := mfilter (fun k => decide (k < i)) m.accValid ++ ((List.range n).map fun j => (i + j, true))
      ++ mfilter (fun k => decide (i + n ≤ k)) m.accValid }

/-- MCLR_RUN (06 R159): every element of the tile +0, its poison lost; its lines have been written (07 R186). -/
def execMclrRun (c : CtxNo) (s : State) : Out' :=
  .next (match s.mtxHead c.val with
    | some (.mclr t) =>
      let i := accIndex c.val t 0 0
      let s := (s.modMem fun m => { m with acc := mclear m.acc i 16384, accPoison := mclear m.accPoison i 16384 }.markAcc (i / 16) 1024).hitWin
        (coreOf c.val) 1 (4 * (i % 131072)) 65536
      (s.modMtx c.val fun u => { u with assay := .clear }).mtxDone c.val
    | _ => s)

/-- The micro-words of an image, checked in order from number `i` (06 R161 check 3). -/
def upldWords : Nat → List (List PByte) → Except Trap (List (BitVec 128))
  | _, [] => .ok []
  | i, b :: t =>
    match tagOf b with
    | some g => .error (poisonAt i g)
    | none =>
      let w := BitVec.ofNat 128 (valOf b)
      if (decodeUop w).isNone then .error (trapAt .illegalBundle i)
      else (upldWords (i + 1) t).map (w :: ·)

/-- What MUPLD loads, or the first check that fails (06 R161). The whole body is read before its words are checked (DESIGN
CHOICE, log 114). -/
def State.upldImage (s : State) (c : Nat) (m : MVal) (at_ : Nat) : Except Trap (List (BitVec 128)) := do
  let off := offOf m.v
  if off % 32 ≠ 0 then throw (trapAt .align off)
  let h ← s.mtxRead c off 16
  match tagOf h with
  | some g => throw (poisonAt 0 g)
  | none => pure ()
  let v := valOf h
  let n := bitsAt v 0 11
  if v / 2 ^ 11 ≠ 0 ∨ n = 0 ∨ 1024 < n then throw (trapAt .illegalBundle 0)
  let cnt := (s.ctx c).grant.uwCount
  if cnt < at_ + n then throw (trapAt .protect cnt)
  let d ← s.mtxRead c (off + 16) (16 * n)
  upldWords 1 (pieces 16 n d)

/-- MUPLD_RUN (06 R161). -/
def State.mupld (s : State) (c : Nat) (m : MVal) (routine : BitVec 8) (at_ : BitVec 10) : State :=
  match s.upldImage c m at_.toNat with
  | .error t => s.mtxFault c t
  | .ok ws =>
    let g := (s.ctx c).grant
    let k := coreOf c
    let first := (g.uwFirst + at_.toNat) % 1024
    (s.modMem fun m =>
      { m with
        ucode := (ws.zipIdx).foldl (fun u e => mset 0 u (k * 1024 + (first + e.2) % 1024) e.1) m.ucode
        ucodePoison := (ws.zipIdx).foldl (fun u e => mset none u (k * 1024 + (first + e.2) % 1024) none) m.ucodePoison
        rtable := mset 0 m.rtable (k * 256 + (g.reFirst + routine.toNat) % 256)
          (BitVec.ofNat 32 (first + ws.length * 2 ^ 10 + 2 ^ 31)) }).mtxDone c

/-- MUPLD_RUN. -/
def execMupldRun (c : CtxNo) (s : State) : Out' :=
  .next (match s.mtxHead c.val with | some (.mupld m r a) => s.mupld c.val m r a | _ => s)

/-! ## MASSAY (06 R163) -/

/-- Σ over k of A(k) · w(k, n), over the blocks of a column. -/
def rowSum (pl : Plane) (a : SMap Int) (n : Nat) : Int :=
  match pl.tag with
  | none => 0
  | some (b, _) =>
    ((List.range (nBlocks pl.afmt b)).map fun j =>
      ((pl.block pl.afmt b n j).codes.zipIdx).foldl (fun v e => v + e.1 * mget 0 a (32 * j + e.2)) 0).foldl (· + ·) 0

/-- The result of MASSAY. -/
def assayOk (pl : Plane) (y : Assay) : Bool :=
  y.check && (List.range 128).all fun n => decide (rowSum pl y.a n = mget 0 y.t n)

/-- MASSAY: under a poisoned guard it only poisons its destination (DEDUCED, log 43). -/
def slotMassay (o : MassayArgs) : SlotM := fun e s =>
  let u := (s.ctx e.c).mtx
  let put := e.put 2 (.p o.p) (.p ⟨assayOk u.active u.assay, u.assay.p⟩)
  if e.over_.isSome then .of put
  else
    deferredOr e s (· == .mtx)
      (.of fun s => put (s.modMtx e.c fun u => { u with assay := .clear }))

/-- MSYNC_DONE: the wait ends when every command has completed (06 R162). -/
def execMsyncDone (c : CtxNo) (s : State) : Out' :=
  let x := s.ctx c.val
  .next (if x.act == .blocked .msync && x.mtx.queue.isEmpty then s.ready c.val else s)

/-! ## Issued alone: the meaning the opcode table's row has as an instruction of its own -/

/-- mcall issued alone. -/
def execMcall (o : McallArgs) (s : State) : Out' := execSlot (slotMcall o) .m (.mcall o) s
/-- mldw issued alone. -/
def execMldw (o : MldwArgs) (s : State) : Out' := execSlot (slotMldw o) .m (.mldw o) s
/-- mswp issued alone. -/
def execMswp (g : Guard) (s : State) : Out' := execSlot (slotMswp g) .m (.mswp g) s
/-- mldix issued alone. -/
def execMldix (o : MldixArgs) (s : State) : Out' := execSlot (slotMldix o) .m (.mldix o) s
/-- mclr issued alone. -/
def execMclr (o : MclrArgs) (s : State) : Out' := execSlot (slotMclr o) .m (.mclr o) s
/-- mset issued alone. -/
def execMset (o : MsetArgs) (s : State) : Out' := execSlot (slotMset o) .m (.mset o) s
/-- mupld issued alone. -/
def execMupld (o : MupldArgs) (s : State) : Out' := execSlot (slotMupld o) .m (.mupld o) s
/-- msync issued alone. -/
def execMsync (g : Guard) (s : State) : Out' := execSlot (slotMsync g) .m (.msync g) s
/-- massay issued alone. -/
def execMassay (o : MassayArgs) (s : State) : Out' := execSlot (slotMassay o) .m (.massay o) s

end Sys2Proof.Machine
end

