-- ==== Sys2Proof/Machine/Queueing.lean ====
section
/-! DEFINITION. The D-slot instructions: commands to the copy engine, walker, coordinate unit and COL engines, the status
words, the transaction and queue instructions (08 R198, 09 R215, R216, R228, 13 R269–R271, 14 R286–R288, 18 R313, R314,
R319, 23 R366, R369, R373). -/

namespace Sys2Proof.Machine

open Sys2Proof

/-! ## Shared forms -/

/-- A command: checks of its operands (04 R114), then what its queue refuses, then room in the queue, then the queue. -/
def cmdSlot (e : Env) (s : State) (uses : List SVal) (bad : Option Trap) (full : Bool) (q : EngClass) (cmd : EngCmd) :
    SlotRes :=
  trapOr (checkedUse (uses.map fun a => (a, 0)))
    (trapOr bad
      { full := if (s.ctx e.c).seg.isNone && full then some (.queueSpace q) else none
        commit := fun s => s.command e.c cmd })

/-- The fence a later command of an engine class waits for (08 R207). -/
def State.fenceOf (s : State) (c : Nat) (q : EngClass) : Nat := mget 0 (s.ctx c).fences (fenceCode q)

/-- A word that lands: it was sampled at issue (02 R54) (DEDUCED, log 24). -/
def wordLand (e : Env) (land : BitVec 8) (d : SReg) (v : Word) : SlotRes :=
  .of fun s => s.modCtx e.c fun x =>
    { x with land := x.land ++ [{ e.landing (landL land) (.s d) 0 with arrived := true, data := some (.s (.of v none)) }] }

/-! ## Copy channels (08 R198) -/

/-- PROTECT for a unit at or beyond the grant. -/
def State.unitTrap (s : State) (c : Nat) (unit : BitVec 4) : Option Trap :=
  let n := match s.launchOf c with | some l => l.nchan | none => 0
  if n ≤ unit.toNat then some ⟨.protect, unit.setWidth 64, 0, none⟩ else none

/-- The channel of a unit, idle when it names none. -/
def State.chanOf (s : State) (c unit : Nat) : Chan :=
  match s.physChan c unit with | some p => s.chan (cluOf (coreOf c)) p | none => .zero

/-- CPGO. -/
def slotCpgo (o : CpgoArgs) : SlotM := fun e s =>
  let a := (s.ctx e.c).sreg o.a
  cmdSlot e s [a] (s.unitTrap e.c o.unit) (decide (4 ≤ (s.chanOf e.c o.unit.toNat).heads.length)) .cpy
    (.cpgo o.unit a.v (s.fenceOf e.c .cpy))

/-- The CPQ channel word. -/
def Chan.word (ch : Chan) : Word :=
  BitVec.ofNat 64 (ch.state.toNat + ch.heads.length * 4 + ch.cause.toNat * 2 ^ 8 + ch.done % 2 ^ 32 * 2 ^ 32)

/-- CPQ (DEDUCED, log 24). -/
def slotCpq (o : CpqArgs) : SlotM := fun e s =>
  trapOr (s.unitTrap e.c o.unit) (wordLand e o.land o.a (s.chanOf e.c o.unit.toNat).word)

/-- CPSTOP. -/
def slotCpstop (o : CpstopArgs) : SlotM := fun e s =>
  cmdSlot e s [] (s.unitTrap e.c o.unit) false .cpy (.cpstop o.unit)

/-! ## Walker (09 R215, R216, R228) -/

/-- A walker command. -/
def walkerSlot (e : Env) (s : State) (op : WkOp) (a b : SReg) (cc : Option SReg) (uirq : Bool) : SlotRes :=
  let x := s.ctx e.c
  let t := x.ctl
  let vc := match cc with | some r => x.sreg r | none => .zero
  cmdSlot e s ([x.sreg a, x.sreg b] ++ (if cc.isSome then [vc] else [])) none (s.walkerFull e.c) .wlk
    (.wk ⟨op, (x.sreg a).v, (x.sreg b).v, vc.v, t.wkmode, t.wktheta, t.wktau, t.wkdepth, t.wklistmax, uirq, e.c,
      s.fenceOf e.c .wlk, 0⟩)

/-- WKAPP. -/
def slotWkapp (o : WkArgs) : SlotM := fun e s => walkerSlot e s .wkapp o.a o.b (some o.c) o.uirq
/-- WKWALK. -/
def slotWkwalk (o : WkArgs) : SlotM := fun e s => walkerSlot e s .wkwalk o.a o.b (some o.c) o.uirq
/-- WKFIX. -/
def slotWkfix (o : WkfixArgs) : SlotM := fun e s => walkerSlot e s (.wkfix o.level) o.a o.b none o.uirq
/-- WKQ (DEDUCED, log 24). -/
def slotWkq (o : DLandArgs) : SlotM := fun e s =>
  let x := s.ctx e.c
  let busy := (s.cluster (cluOf (coreOf e.c))).walker.countOf e.c ≠ 0
  wordLand e o.land o.a
    (BitVec.ofNat 64 (x.wkEnded % 2 ^ 32 * 2 ^ 32 + x.wkLast.toNat * 2 ^ 8 + (if busy then 1 else 0)))

/-! ## Coordinate unit (18 R313, R314, R319) -/

/-- A coordinate command. -/
def coordSlot (op : CrdOp) (o : D3Args) : SlotM := fun e s =>
  let x := s.ctx e.c
  cmdSlot e s [x.sreg o.a, x.sreg o.b, x.sreg o.c] none (s.crdFull e.c) .crd
    (.crd ⟨op, (x.sreg o.a).v, (x.sreg o.b).v, (x.sreg o.c).v, o.count.toNat, o.uirq, s.fenceOf e.c .crd⟩)

/-- WGET. -/
def slotWget (o : D3Args) : SlotM := coordSlot .wget o
/-- WPUT. -/
def slotWput (o : D3Args) : SlotM := coordSlot .wput o
/-- WEXP. -/
def slotWexp (o : D3Args) : SlotM := coordSlot .wexp o

/-- The word WSYNC writes; the span it covers ends. -/
def Ctx.endWsync (x : Ctx) (d : SReg) : Ctx :=
  { x.setS d (.of (BitVec.ofNat 64 (x.crdEnded % 2 ^ 32 * 2 ^ 32 + min x.crdRe 0xFFFF)) none) with
    crdEnded := 0, crdRe := 0 }

/-- WSYNC. -/
def slotWsync (o : CRegArgs) : SlotM := fun e s =>
  deferredOr e s (· == .crd)
    { post := fun s =>
        if (s.ctx e.c).crd.isEmpty then s.modCtx e.c fun x => x.endWsync o.a else s.block e.c (.wsync o.a) }

/-- WSYNC_DONE. -/
def execWsyncDone (c : CtxNo) (s : State) : Out' :=
  let x := s.ctx c.val
  .next (match x.act with
    | .blocked (.wsync d) =>
      if x.crd.isEmpty then s.modCtx c.val fun x => { x.endWsync d with act := .ready } else s
    | _ => s)

/-! ## Link and collective engines (23 R366, R369, R372, R373) -/

/-- A COL command. -/
def colSlot (e : Env) (s : State) (op : ColOp) (a b c : Option SReg) (uirq : Bool) (bad : Option Trap) : SlotRes :=
  let x := s.ctx e.c
  let val (r : Option SReg) : SVal := match r with | some r => x.sreg r | none => .zero
  cmdSlot e s (([a, b, c].filterMap id).map x.sreg) bad (s.colFull e.c) .col
    (.col ⟨op, (val a).v, (val b).v, (val c).v, uirq, s.fenceOf e.c .col, 0, none, none, false, 0, 0, none, 0⟩)

/-- May a launch use a table slot (23 R372)? -/
def State.slotOwned (s : State) (c slot : Nat) : Bool :=
  let t := mget .zero s.fab.cxslots slot
  t.ov && ((s.partOf c).map fun p => p.val) == some t.owner.toNat

/-- PROTECT for a slot that is not the launch's. -/
def State.slotTrap (s : State) (c slot : Nat) : Option Trap :=
  if s.slotOwned c slot then none else some ⟨.protect, BitVec.ofNat 64 slot, 0, none⟩

/-- The slot a CLGO descriptor names, as far as it can be read at issue (DEDUCED, log 46). -/
def State.clgoSlot (s : State) (c : Nat) (va : Word) : Option Nat :=
  match s.engineRead (s.engine c) va 8 with
  | .ok (_, b) => if (tagOf b).isNone && bitAt (valOf b) 12 then some (bitsAt (valOf b) 16 4) else none
  | .error _ => none

/-- The descriptor word read at issue enters the launch's signature (13 R263). -/
def State.noteClgo (s : State) (c : Nat) (va : Word) : State :=
  match s.engineRead (s.engine c) va 8 with
  | .ok (s', _) => s'
  | .error _ => s

/-- CXTAB. -/
def slotCxtab (o : CxtabArgs) : SlotM := fun e s =>
  colSlot e s (.cxtab o.slot o.gen) (some o.a) none none o.uirq (s.slotTrap e.c o.slot.toNat)
/-- CXPK. -/
def slotCxpk (o : CxpkArgs) : SlotM := fun e s =>
  colSlot e s (.cxpk o.slot o.count.toNat) (some o.a) (some o.b) (some o.c) o.uirq (s.slotTrap e.c o.slot.toNat)
/-- CXUN. -/
def slotCxun (o : D3Args) : SlotM := fun e s =>
  colSlot e s (.cxun o.count.toNat) (some o.a) (some o.b) (some o.c) o.uirq none
/-- CLGO. -/
def slotClgo (o : ClgoArgs) : SlotM := fun e s =>
  let va := ((s.ctx e.c).sreg o.a).v
  { colSlot e s .clgo (some o.a) none none o.uirq ((s.clgoSlot e.c va).bind fun n => s.slotTrap e.c n) with
    reads := fun s => s.noteClgo e.c va }
/-- LKSEND. -/
def slotLksend (o : LkArgs) : SlotM := fun e s => colSlot e s (.lksend o.port) (some o.a) (some o.b) (some o.c) o.uirq none
/-- LKRADD. -/
def slotLkradd (o : LkraddArgs) : SlotM := fun e s =>
  colSlot e s (.lkradd o.port o.fmt) (some o.a) (some o.b) (some o.c) o.uirq none
/-- LKRECV. -/
def slotLkrecv (o : LkArgs) : SlotM := fun e s => colSlot e s (.lkrecv o.port) (some o.a) (some o.b) (some o.c) o.uirq none

/-- The word LKWAIT writes; the span it covers ends. -/
def Ctx.endLkwait (x : Ctx) (d : SReg) : Ctx :=
  let bad := if x.colBad = 0 then 1 else x.colFirstBad
  { x.setS d (.of (BitVec.ofNat 64 (x.colEnded % 2 ^ 32 * 2 ^ 32 + bad % 256 * 2 ^ 8 + min x.colBad 255)) none) with
    colEnded := 0, colFirstBad := 0, colBad := 0 }

/-- LKWAIT. -/
def slotLkwait (o : CRegArgs) : SlotM := fun e s =>
  deferredOr e s (· == .col)
    { post := fun s =>
        if (s.ctx e.c).col.isEmpty then s.modCtx e.c fun x => x.endLkwait o.a else s.block e.c (.lkwait o.a) }

/-- LKWAIT_DONE. -/
def execLkwaitDone (c : CtxNo) (s : State) : Out' :=
  let x := s.ctx c.val
  .next (match x.act with
    | .blocked (.lkwait d) =>
      if x.col.isEmpty then s.modCtx c.val fun x => { x.endLkwait d with act := .ready } else s
    | _ => s)

/-! ## Transactions (13 R269–R271) -/

/-- A context with a launch transaction. -/
def State.inLaunch (s : State) (c : Nat) : Bool := (s.launchOf c).isSome && (s.ctx c).ctl.priv == 0

/-- Bits set. -/
def popcount : Nat → Nat → Nat
  | 0, _ => 0
  | n + 1, v => v % 2 + popcount n (v / 2)

/-- Shadow or undo-log lines of a launch. -/
def State.linesHeld (s : State) (h : Hall) (l : Launch) : Nat :=
  if l.excl then l.undo.length else (s.mem.shadow.filter fun e => e.hall = h).length

/-- The word TXID lands. -/
def State.txidWord (s : State) (c : Nat) : Word :=
  match (s.ctx c).hall, s.launchOf c with
  | some h, some l =>
    BitVec.ofNat 64 (b2n l.excl * 2 ^ 52 + min l.runs 7 * 2 ^ 48 + popcount 4096 l.sig.toNat * 2 ^ 32
      + min (s.linesHeld h l) (2 ^ 32 - 1))
  | _, _ => 0

/-- TXID (DEDUCED, log 24). -/
def slotTxid (o : DLandArgs) : SlotM := fun e s =>
  if s.inLaunch e.c then wordLand e o.land o.a (s.txidWord e.c) else .trap .privilege

/-- TXABORT: its operand is checked before the launch is (DESIGN CHOICE, log 114). -/
def slotTxabort (o : TxabortArgs) : SlotM := fun e s =>
  let a := (s.ctx e.c).sreg o.a
  trapOr (checkedUse [(a, 0)])
    (if s.inLaunch e.c then { commit := fun s => s.command e.c (.txabort a.v o.retry) } else .trap .privilege)

/-! ## QLAUNCH and EVPOST (14 R286–R288) -/

/-- May the launch of context `c` enqueue into queue `v`? -/
def State.qlaunchOk (s : State) (c : Nat) (v : Word) : Bool :=
  let q := s.queue v.toNat
  decide (v.toNat < 1024) && q.dev && q.en && ((s.partOf c).map fun p => p.val) == some q.part.toNat

/-- Is a slot of the queue free? -/
def Queue.room (q : Queue) : Bool := decide ((q.seen - q.head).toNat < 2 ^ q.lsize.toNat)

/-- Reserve the next slot of a queue for a launch: a held record (14 R287). -/
def State.reserveSlot (s : State) (c q : Nat) : State :=
  let n := (s.queue q).seen.toNat
  let s := (s.modQueue q fun d => { d with seen := d.seen + 1 }).modRec q n fun r => { r with state := 7 }
  match (s.ctx c).hall with
  | some h => s.modLaunch h fun l => { l with held := l.held ++ [(q, n)] }
  | none => s

/-- QLAUNCH. -/
def slotQlaunch (o : QlaunchArgs) : SlotM := fun e s =>
  let a := (s.ctx e.c).sreg o.a
  let b := (s.ctx e.c).sreg o.b
  let q := b.v.toNat
  trapOr (checkedUse [(a, 0), (b, 0)])
    (if !s.qlaunchOk e.c b.v then .trap .protect b.v
     else if a.v.toNat % 128 ≠ 0 then .trap .align a.v
     else
       gotSlot (s.readNow e.c a.v 128) fun d t =>
         { full := if (s.queue q).room then none else some (.qlaunch q)
           reads := fun s => s.noteT (s.who e.c).hall t 128
           commit := fun s =>
             let n := (s.queue q).seen.toNat
             (s.reserveSlot e.c q).command e.c (.qlaunch q n d) })

/-- EVPOST: a release at its scope, then the posting. -/
def slotEvpost (o : EvpostArgs) : SlotM := fun e s =>
  let a := (s.ctx e.c).sreg o.a
  let k := match s.launchOf e.c with | some l => l.clusters.length | none => 0
  cmdSlot e s [a] (if k ≤ bitsAt a.v.toNat 0 16 ∨ bitsAt a.v.toNat 19 45 ≠ 0 then some ⟨.protect, a.v, 0, none⟩ else none)
    false .ctx (.evpost a.v.toNat o.scope)

/-! ## Issued alone: the meaning the opcode table's row has as an instruction of its own -/

/-- cpgo issued alone. -/
def execCpgo (o : CpgoArgs) (s : State) : Out' := execSlot (slotCpgo o) .d (.cpgo o) s
/-- cpq issued alone. -/
def execCpq (o : CpqArgs) (s : State) : Out' := execSlot (slotCpq o) .d (.cpq o) s
/-- cpstop issued alone. -/
def execCpstop (o : CpstopArgs) (s : State) : Out' := execSlot (slotCpstop o) .d (.cpstop o) s
/-- wkapp issued alone. -/
def execWkapp (o : WkArgs) (s : State) : Out' := execSlot (slotWkapp o) .d (.wkapp o) s
/-- wkwalk issued alone. -/
def execWkwalk (o : WkArgs) (s : State) : Out' := execSlot (slotWkwalk o) .d (.wkwalk o) s
/-- wkfix issued alone. -/
def execWkfix (o : WkfixArgs) (s : State) : Out' := execSlot (slotWkfix o) .d (.wkfix o) s
/-- wkq issued alone. -/
def execWkq (o : DLandArgs) (s : State) : Out' := execSlot (slotWkq o) .d (.wkq o) s
/-- wget issued alone. -/
def execWget (o : D3Args) (s : State) : Out' := execSlot (slotWget o) .d (.wget o) s
/-- wput issued alone. -/
def execWput (o : D3Args) (s : State) : Out' := execSlot (slotWput o) .d (.wput o) s
/-- wexp issued alone. -/
def execWexp (o : D3Args) (s : State) : Out' := execSlot (slotWexp o) .d (.wexp o) s
/-- wsync issued alone. -/
def execWsync (o : CRegArgs) (s : State) : Out' := execSlot (slotWsync o) .d (.wsync o) s
/-- cxtab issued alone. -/
def execCxtab (o : CxtabArgs) (s : State) : Out' := execSlot (slotCxtab o) .d (.cxtab o) s
/-- cxpk issued alone. -/
def execCxpk (o : CxpkArgs) (s : State) : Out' := execSlot (slotCxpk o) .d (.cxpk o) s
/-- cxun issued alone. -/
def execCxun (o : D3Args) (s : State) : Out' := execSlot (slotCxun o) .d (.cxun o) s
/-- clgo issued alone. -/
def execClgo (o : ClgoArgs) (s : State) : Out' := execSlot (slotClgo o) .d (.clgo o) s
/-- lksend issued alone. -/
def execLksend (o : LkArgs) (s : State) : Out' := execSlot (slotLksend o) .d (.lksend o) s
/-- lkradd issued alone. -/
def execLkradd (o : LkraddArgs) (s : State) : Out' := execSlot (slotLkradd o) .d (.lkradd o) s
/-- lkrecv issued alone. -/
def execLkrecv (o : LkArgs) (s : State) : Out' := execSlot (slotLkrecv o) .d (.lkrecv o) s
/-- lkwait issued alone. -/
def execLkwait (o : CRegArgs) (s : State) : Out' := execSlot (slotLkwait o) .d (.lkwait o) s
/-- txid issued alone. -/
def execTxid (o : DLandArgs) (s : State) : Out' := execSlot (slotTxid o) .d (.txid o) s
/-- txabort issued alone. -/
def execTxabort (o : TxabortArgs) (s : State) : Out' := execSlot (slotTxabort o) .d (.txabort o) s
/-- qlaunch issued alone. -/
def execQlaunch (o : QlaunchArgs) (s : State) : Out' := execSlot (slotQlaunch o) .d (.qlaunch o) s
/-- evpost issued alone. -/
def execEvpost (o : EvpostArgs) (s : State) : Out' := execSlot (slotEvpost o) .d (.evpost o) s

end Sys2Proof.Machine
end

