-- ==== Sys2Proof/Machine/Copy.lean ====
section
/-! DEFINITION. The copy engine: halyard records and channels (08 R190–R197). -/

namespace Sys2Proof.Machine

open Sys2Proof

/-! ## Records (08 R191) -/

/-- A halyard record. -/
structure Halyard where
  next : Word
  flags : Nat
  src : Word
  dst : Word
  rows : Nat
  rowBytes : Nat
  srcStride : Nat
  dstStride : Nat
  stampAddr : Word
  stampValue : Word
  deriving DecidableEq, Repr

/-- A record of its 64 bytes. -/
def Halyard.ofBytes (b : List PByte) : Halyard :=
  let w (i : Nat) : Nat := valOf ((b.drop (8 * i)).take 8)
  ⟨BitVec.ofNat 64 (w 0), bitsAt (w 1) 0 32, BitVec.ofNat 64 (w 2), BitVec.ofNat 64 (w 3), bitsAt (w 4) 0 32,
   bitsAt (w 4) 32 32, bitsAt (w 5) 0 32, bitsAt (w 5) 32 32, BitVec.ofNat 64 (w 6), BitVec.ofNat 64 (w 7)⟩

/-- Ready for the engine. -/
def Halyard.own (r : Halyard) : Bool := bitAt r.flags 0
/-- Write the stamp. -/
def Halyard.stamp (r : Halyard) : Bool := bitAt r.flags 1
/-- Raise UIPEND.cpy. -/
def Halyard.uirq (r : Halyard) : Bool := bitAt r.flags 2
/-- Compute assay sums. -/
def Halyard.assay (r : Halyard) : Bool := bitAt r.flags 3
/-- Transform code. -/
def Halyard.transform (r : Halyard) : Nat := bitsAt r.flags 4 4
/-- from-format code. -/
def Halyard.fromFmt (r : Halyard) : Nat := bitsAt r.flags 8 4
/-- to-format code. -/
def Halyard.toFmt (r : Halyard) : Nat := bitsAt r.flags 12 4
/-- Rounding code. -/
def Halyard.rndCode (r : Halyard) : Nat := bitsAt r.flags 16 2
/-- Saturate. -/
def Halyard.sat (r : Halyard) : Bool := bitAt r.flags 18

/-- Rounding of a two-bit code (01 R12). -/
def rndOf : Nat → Rnd
  | 0 => .rne | 1 => .rtz | 2 => .rdn | _ => .rup

/-- Element formats of 05 R116 by code. -/
def laneFmtOf : Nat → Option Fmt
  | 0 => some .i8 | 1 => some .i16 | 2 => some .i32 | 4 => some .fp32 | 5 => some .bf16 | 6 => some .e4m3 | 7 => some .e5m2
  | 11 => some .u8
  | _ => none

/-- Microscaled formats by fmt code 8–10. -/
def mxOf : Nat → Option MxFmt
  | 8 => some .mxi8 | 9 => some .mxi6 | 10 => some .mxi4
  | _ => none

/-- What a record asks the engine to do with the data. -/
inductive Plan where
  | copy
  | assay (a b : MxFmt)
  | convert (f t : Fmt)
  | transpose (f : Fmt)
  | expand
  deriving DecidableEq, Repr

/-- A convert the engine accepts (08 R192). -/
def convertOk (f t : Fmt) : Bool :=
  match f, t with
  | .bf16, .e4m3 => true
  | .bf16, .e5m2 => true
  | .e4m3, .bf16 => true
  | .e5m2, .bf16 => true
  | _, _ => false

/-- The plan of a record whose formats, limits and assay condition hold (08 R192, R193); none: ILLEGAL_BUNDLE. -/
def Halyard.plan (r : Halyard) : Option Plan :=
  if r.flags / 2 ^ 19 ≠ 0 ∨ 3 < r.transform ∨ 2 ^ 20 < r.rows ∨ 2 ^ 24 < r.rowBytes then none
  else if r.assay ∧ r.transform ≠ 0 then none
  else if r.transform ≠ 1 ∧ (r.rndCode ≠ 0 ∨ r.sat) then none
  else
    match r.transform with
    | 0 =>
      if r.assay then
        match mxOf r.toFmt, mxOf r.fromFmt with
        | some a, some b =>
          if r.rows * r.rowBytes = codeBytes a b + 128 * nBlocks a b ∧
              (r.rows = 1 ∨ (r.srcStride = r.rowBytes ∧ r.dstStride = r.rowBytes)) then some (.assay a b) else none
        | _, _ => none
      else if r.fromFmt = 0 ∧ r.toFmt = 0 then some .copy else none
    | 1 =>
      match laneFmtOf r.fromFmt, laneFmtOf r.toFmt with
      | some f, some t => if convertOk f t then some (.convert f t) else none
      | _, _ => none
    | 2 =>
      match laneFmtOf r.fromFmt with
      | some f =>
        if r.fromFmt = r.toFmt ∧ r.rows ≤ 4096 ∧ r.rowBytes / f.bytes ≤ 4096 then some (.transpose f) else none
      | none => none
    | _ => if r.fromFmt = 0 ∧ r.toFmt = 0 ∧ r.rowBytes ≤ r.dstStride then some .expand else none

/-- The element width a record's addresses and lengths must be multiples of. -/
def Halyard.elemWidth (r : Halyard) : Nat × Nat :=
  let w (n : Nat) : Nat := match laneFmtOf n with | some f => f.bytes | none => 1
  if r.transform = 1 ∨ r.transform = 2 then (w r.fromFmt, w r.toFmt) else (1, 1)

/-- Misalignment of the record (08 R195) (DEDUCED, log 50). -/
def Halyard.misaligned (r : Halyard) (at_ : Word) : Bool :=
  let f := r.elemWidth.1
  let t := r.elemWidth.2
  at_.toNat % 64 != 0 || r.next.toNat % 64 != 0 || r.stampAddr.toNat % 8 != 0 ||
    r.src.toNat % f != 0 || r.rowBytes % f != 0 || r.srcStride % f != 0 ||
    r.dst.toNat % t != 0 || r.dstStride % t != 0

/-- Rows and row length of the destination side. -/
def Halyard.dstShape (r : Halyard) : Plan → Nat × Nat
  | .convert f t => (r.rows, r.rowBytes * t.bytes / f.bytes)
  | .transpose f => (r.rowBytes / f.bytes, r.rows * f.bytes)
  | .expand => (r.rows, r.dstStride)
  | _ => (r.rows, r.rowBytes)

/-- Does the record move nothing? -/
def Halyard.empty (r : Halyard) : Bool := r.rows == 0 || r.rowBytes == 0

/-- Length of the hull of a side (08 R195) (DEDUCED, log 52). -/
def hullLen (rows stride len : Nat) : Nat := if rows = 0 ∨ len = 0 then 0 else (rows - 1) * stride + len

/-- Bytes of the destination's hull. -/
def Halyard.dstLen (r : Halyard) (p : Plan) : Nat :=
  let d := r.dstShape p
  hullLen d.1 r.dstStride d.2

/-- Bytes of the assay part, which follows the codes and scales (08 R193). -/
def Plan.assayLen : Plan → Nat
  | .assay a b => 4 * gangK (gangOf a b)
  | _ => 0

/-- Do the hulls overlap in a way the plan does not allow? (DEDUCED, log 51). -/
def Halyard.overlapBad (r : Halyard) (p : Plan) : Bool :=
  let a := r.src.toNat
  let b := r.dst.toNat
  let over_ := decide (a < b + r.dstLen p) && decide (b < a + hullLen r.rows r.srcStride r.rowBytes) && !r.empty
  match p with
  | .copy => over_ && !(r.srcStride == r.dstStride && decide (b ≤ a))
  | _ => over_

/-! ## Moving the data (08 R192–R194) -/

/-- The rows of the source. -/
def readRows (w : Who) (r : Halyard) : EM (List (List PByte)) :=
  (List.range r.rows).mapM fun i => emRead w (atOff r.src (i * r.srcStride)) r.rowBytes

/-- Bytes the engine moves at a time (08 R194). -/
def chunkBytes : Nat := 4096

/-- Copy `n` bytes in ascending chunks, each read before it is written (08 R194). -/
def copyRun (w : Who) (src dst : Word) (n : Nat) : EM Unit :=
  (List.range ((n + chunkBytes - 1) / chunkBytes)).forM fun i => do
    let o := chunkBytes * i
    let b ← emRead w (atOff src o) (min chunkBytes (n - o))
    emWrite w (atOff dst o) b

/-- Write rows at the destination. -/
def writeRows (w : Who) (r : Halyard) (l : List (List PByte)) : EM Unit :=
  (l.zipIdx).forM fun e => emWrite w (atOff r.dst (e.2 * r.dstStride)) e.1

/-- Column `j` of rows of elements of `n` bytes. -/
def column (n j : Nat) (l : List (List PByte)) : List PByte := l.flatMap fun b => (b.drop (j * n)).take n

/-- Exact sum over columns of the weight w(k, n), with the lowest tag of the bytes that hold them (08 R193). -/
def assayOf (a b : MxFmt) (d : List PByte) (k : Nat) : El :=
  let nb := nBlocks a b
  let one (n : Nat) : Int × Option Tag :=
    let bit := (n * nb + k / 32) * (32 * b.bits) + k % 32 * b.bits
    let bs := (d.drop (bit / 8)).take ((bit % 8 + b.bits + 7) / 8)
    (b.code (bitsAt (valOf bs) (bit % 8) b.bits), tagOf bs)
  let r := (List.range 128).foldl (fun x n => let o := one n; (x.1 + o.1, tmeet x.2 o.2)) ((0 : Int), (none : Option Tag))
  (Fmt.fp32.encode .rne false (FV.ofInt r.1), r.2)

/-- Carry out the data move of a record: a plain copy in chunks of its rows; of the other transforms the hulls do not
overlap, so no order of chunks shows (DEDUCED, log 51). -/
def moveData (w : Who) (r : Halyard) (p : Plan) : EM Unit := do
  if r.empty then pure ()
  else if p = .copy then
    (List.range r.rows).forM fun i => copyRun w (atOff r.src (i * r.srcStride)) (atOff r.dst (i * r.dstStride)) r.rowBytes
  else
    let rows ← readRows w r
    match p with
    | .copy => writeRows w r rows
    | .convert f t =>
      writeRows w r (rows.map fun b =>
        elBytes t.bytes (elMap (convert f t (rndOf r.rndCode) r.sat) (elems f.bytes (r.rowBytes / f.bytes) b)))
    | .transpose f =>
      writeRows w r ((List.range (r.rowBytes / f.bytes)).map fun j => column f.bytes j rows)
    | .expand => writeRows w r (rows.map fun b => b ++ clean (List.replicate (r.dstStride - r.rowBytes) 0))
    | .assay a b => do
      writeRows w r rows
      let d := rows.flatten
      emWrite w (atOff r.dst (codeBytes a b + 128 * nBlocks a b))
        (elBytes 4 ((List.range (gangK (gangOf a b))).map (assayOf a b d)))

/-! ## A record (08 R194–R196) -/

/-- What became of a record. -/
inductive RecEnd where
  | stopped
  | done (next : Word) (uirq : Bool)
  deriving DecidableEq, Repr

/-- Carry out a record: read it, check it, move the data, write stamp and status (DEDUCED, log 103). -/
def doRecord (w : Who) (at_ : Word) : EM RecEnd := do
  let b ← emRead w at_ 64
  let r := Halyard.ofBytes b
  if (tagOf ((b.drop 8).take 8)).isNone && !r.own then pure .stopped
  else
    emNeed (!r.misaligned at_) ⟨.align, 0, 0, none⟩
    match r.plan with
    | none => emFail ⟨.illegalBundle, 0, 0, none⟩
    | some p =>
      match tagOf b with
      | some t => emFail ⟨.poisonConsumed, 0, 0, some (.mem t)⟩
      | none =>
        emNeed (!r.overlapBad p) ⟨.overlap, 0, 0, none⟩
        emReach w .read r.src (hullLen r.rows r.srcStride r.rowBytes)
        emReach w .write r.dst (if r.empty then 0 else r.dstLen p + p.assayLen)
        emReach w .write r.stampAddr (if r.stamp then 8 else 0)
        moveData w r p
        if r.stamp then emWrite w r.stampAddr (clean (bytesOf 8 r.stampValue.toNat))
        emWrite w (atOff at_ 8) (clean (bytesOf 8 (r.flags / 2 * 2 + 2 ^ 32)))
        pure (.done r.next r.uirq)

/-- Context number of a channel's owner on cluster `k` (08 R197) (DEDUCED, log 33). -/
def Chan.ownerCtx (ch : Chan) (k : Nat) : Nat := 32 * k + 4 * bitsAt ch.owner.toNat 2 3 + bitsAt ch.owner.toNat 0 2

/-- The chain is over: the next queued head starts, or the channel goes idle. -/
def Chan.chainEnd (ch : Chan) : Chan :=
  match ch.heads with
  | h :: t => { ch with heads := t }.start h
  | [] => { ch with state := 0, stop := false }

/-- After a record: the next of the chain, unless CPSTOP asked the channel to stop; heads queued since then start. -/
def Chan.after_ (ch : Chan) (next : Word) : Chan :=
  if ch.stop ∨ next = 0 then ch.chainEnd else { ch with head := next }

/-- The engine acting for a channel's launch. -/
def State.chanWho (s : State) (k : Nat) (ch : Chan) : Who :=
  ⟨false, (ch.hall.bind s.launch).map (·.part), ch.hall, coreOf (ch.ownerCtx k), true⟩

/-- The launch of a channel still runs. -/
def State.chanLive (s : State) (ch : Chan) : Bool :=
  match ch.hall.bind s.launch with | some l => l.state == .running | none => false

/-- A record fault (08 R196) (DEDUCED, log 50). -/
def State.recordFault (s : State) (k p : Nat) (ch : Chan) (t : Trap) : State :=
  let w := s.chanWho k ch
  let s := match s.engineWrite w (atOff ch.head 12) (clean (bytesOf 4 (2 + t.cause.code * 256))) with
    | .ok s' => s'
    | .error _ => s
  let s := s.modChan k p fun ch =>
    { ch with
      state := 2
      heads := []
      stop := false
      cause := BitVec.ofNat 8 t.cause.code
      faddr := if t.cause = .translate ∨ t.cause = .protect then t.addr else ch.faddr }
  s.asyncFault (ch.ownerCtx k) { t with addr := ch.head }

/-- Work on the head record of a running channel. -/
def State.copyRecord (s : State) (k p : Nat) : State :=
  let ch := s.chan k p
  let o := ch.ownerCtx k
  if ch.state ≠ 1 ∨ s.fenced ch.by_ ch.after ∨ !s.chanLive ch then s
  else if ch.head = 0 then s.modChan k p Chan.chainEnd
  else
    match (doRecord (s.chanWho k ch) ch.head).go s with
    | (r, s') =>
      if !s'.chanLive ch then s'
      else
        match r with
        | .error t => s'.recordFault k p ch t
        | .ok .stopped => s'.modChan k p Chan.chainEnd
        | .ok (.done next uirq) =>
          let s' := s'.modChan k p fun ch => { ch with done := ch.done + 1 }.after_ next
          if uirq then s'.modCtx o fun x => if x.act == .free then x else x.pend (ch.map.toNat % 16) else s'

/-- COPY_RECORD. -/
def execCopyRecord (k : CluNo) (ch : BitVec 4) (s : State) : Out' := .next (s.copyRecord k.val ch.toNat)

/-- CHANNEL_RESET: state 0 written at supervisor (08 R197) (DEDUCED, log 85). -/
def execChannelReset (k : CluNo) (ch : BitVec 4) (s : State) : Out' :=
  .next (s.modChan k.val ch.toNat Chan.clear)

end Sys2Proof.Machine
end

