-- ==== Sys2Proof/Machine/Walk.lean ====
section
/-! DEFINITION. The walker and its pennant trees (09 R212–R230). -/

namespace Sys2Proof.Machine

open Sys2Proof

/-! ## Trees (09 R212, R213) -/

/-- A tree whose header has passed its checks. `bases` holds leaf_base, then level_base 1 … 8. -/
structure Tree where
  handle : Word
  n : Nat
  dk : Nat
  dv : Nat
  depth : Nat
  bases : List Word
  deriving DecidableEq, Repr

/-- Bytes of a pennant or leaf. -/
def Tree.size (t : Tree) (lvl : Nat) : Nat :=
  if lvl = 0 then 64 + 72 * t.dk + 68 * t.dv else 192 + 8 * t.dk + 4 * t.dv

/-- Address of leaf or pennant `i` of a level. -/
def Tree.node (t : Tree) (lvl i : Nat) : Word := atOff ((t.bases[lvl]?).getD 0) (i * t.size lvl)

/-- Keys a tree holds at most. -/
def Tree.cap (t : Tree) : Nat := 32 * 16 ^ t.depth

/-- Offset of a node's centroid. -/
def centroidAt (lvl : Nat) : Nat := if lvl = 0 then 0x40 else 0xC0

/-- Address of key row `j` of leaf `i`. -/
def Tree.keyRow (t : Tree) (i j : Nat) : Word := atOff (t.node 0 i) (0x40 + 8 * t.dk + 4 * t.dv + 2 * t.dk * j)

/-- Address of value row `j` of leaf `i`. -/
def Tree.valRow (t : Tree) (i j : Nat) : Word := atOff (t.node 0 i) (0x40 + 72 * t.dk + 4 * t.dv + 2 * t.dv * j)

/-- Does the header meet R212? `h` holds its words (DEDUCED, log 47). Of the fields R212 calls zero, a nonzero one of the word at
+0x08 makes it BADTREE; one above depth or from +0x60 on does not (DESIGN CHOICE, log 114). -/
def headerOk (h : List Nat) : Bool :=
  let w (i : Nat) : Nat := (h[i]?).getD 0
  let dk := bitsAt (w 1) 0 16
  let dv := bitsAt (w 1) 16 16
  let depth := bitsAt (w 1) 32 4
  let dim (d : Nat) : Bool := decide (32 ≤ d) && decide (d ≤ 256) && d % 32 == 0
  dim dk && dim dv && decide (1 ≤ depth) && decide (depth ≤ 8) && w 1 / 2 ^ 36 == 0 &&
    decide (w 0 ≤ 32 * 16 ^ depth) &&
    (List.range (depth + 1)).all fun i => w (2 + i) % 64 == 0 && !inWindows (BitVec.ofNat 64 (w (2 + i)))

/-- The tree a header describes (DEDUCED, log 47). -/
def treeOf (handle : Word) (h : List Nat) : Tree :=
  let w (i : Nat) : Nat := (h[i]?).getD 0
  ⟨handle, w 0, bitsAt (w 1) 0 16, bitsAt (w 1) 16 16, bitsAt (w 1) 32 4,
   (List.range 9).map fun i => BitVec.ofNat 64 (w (2 + i))⟩

/-! ## Summaries (09 R214) -/

/-- A node's summary. -/
structure Summary where
  count : Nat
  radius : El
  c : List El
  ks : List El
  vs : List El
  deriving DecidableEq, Repr

/-- A pennant as read: its children count, child table and summary. -/
structure Pennant where
  children : Nat
  table : List Word
  sum : Summary
  deriving DecidableEq, Repr

/-- RNE running sum of rows. -/
def runningSum : List (List El) → List El
  | [] => []
  | h :: t => t.foldl (fun a r => elZip (Fmt.fp32.fadd .rne) a r) h

/-- Largest RUP(‖key − c‖). -/
def leafRadius (keys : List (List El)) (c : List El) : Nat :=
  keys.foldl (fun r k => maxBound r (normRound .rup (List.zipWith FV.sub (fvs k) (fvs c)))) 0

/-- A full leaf's summary. -/
def leafSummary (keys vals : List (List El)) : Summary :=
  let ks := runningSum keys
  let c := elMap (fun x => divRne .fp32 (Fmt.fp32.decode x) 32) ks
  ⟨32, (leafRadius keys c, elTag ks), c, ks, runningSum vals⟩

/-- RUP(r + ‖a − b‖). -/
def movedRadius (r : El) (a b : List El) : Nat :=
  addSqrt .rup (Fmt.fp32.decode r.1) (normSq (List.zipWith FV.sub (fvs a) (fvs b)))

/-- Insert a full leaf's summary into a pennant's. -/
def Summary.insert (x l : Summary) : Summary :=
  if x.count = 0 then { l with count := 32 }
  else
    let ks := elZip (Fmt.fp32.fadd .rne) x.ks l.ks
    let n := x.count + 32
    let c := elMap (fun v => divRne .fp32 (Fmt.fp32.decode v) n) ks
    let r := maxBound (movedRadius x.radius c x.c) (movedRadius l.radius l.c c)
    let tag := tmeet (tmeet x.radius.2 l.radius.2) (tmeet (tmeet (elTag x.c) (elTag l.c)) (elTag ks))
    ⟨n, (r, tag), c, ks, elZip (Fmt.fp32.fadd .rne) x.vs l.vs⟩

/-- A summary of no keys. -/
def Summary.none_ : Summary := ⟨0, (0, none), [], [], []⟩

/-! ## Nodes in memory -/

/-- Count of keys below a node when the tree has `leaves` full leaves. -/
def expectCount (lvl i leaves : Nat) : Nat := 32 * min (16 ^ lvl) (leaves - i * 16 ^ lvl)

/-- Read a pennant or a full leaf; a level, count or child entry that disagrees with R213 faults (09 R230) (DEDUCED,
log 47). -/
def readNode (w : Who) (t : Tree) (lvl i leaves : Nat) : EM Pennant := do
  let a := t.node lvl i
  let count ← emWord w a
  let v ← emWord w (atOff a 8)
  let children := bitsAt v 8 8
  let table ← emWords w (atOff a 0x40) (if lvl = 0 then 0 else 16)
  let want (s : Nat) : Nat := if s < children then (t.node (lvl - 1) (16 * i + s)).toNat else 0
  let good := bitsAt v 0 8 == lvl && count == expectCount lvl i leaves && decide (children ≤ if lvl = 0 then 0 else 16) &&
    (table.zipIdx).all fun e => e.1 == want e.2
  emNeed good ⟨.illegalIndex, a, 0, none⟩
  let o := centroidAt lvl
  let c ← emVec w (atOff a o) 4 t.dk
  let ks ← emVec w (atOff a (o + 4 * t.dk)) 4 t.dk
  let vs ← emVec w (atOff a (o + 8 * t.dk)) 4 t.dv
  pure ⟨children, table.map (BitVec.ofNat 64), ⟨count, (v / 2 ^ 32, none), c, ks, vs⟩⟩

/-- Write a node: every field of it but a leaf's rows. -/
def writeNode (w : Who) (t : Tree) (lvl i : Nat) (x : Pennant) : EM Unit := do
  let a := t.node lvl i
  emWrite w a (taggedBytes 8 x.sum.count none ++
    taggedBytes 8 (lvl + x.children * 2 ^ 8 + x.sum.radius.1 * 2 ^ 32) x.sum.radius.2 ++ clean (List.replicate 48 0))
  if lvl ≠ 0 then emWrite w (atOff a 0x40) (clean (x.table.flatMap fun c => bytesOf 8 c.toNat))
  let o := centroidAt lvl
  emWrite w (atOff a o) (elBytes 4 x.sum.c)
  emWrite w (atOff a (o + 4 * t.dk)) (elBytes 4 x.sum.ks)
  emWrite w (atOff a (o + 8 * t.dk)) (elBytes 4 x.sum.vs)

/-- The first `m` key rows of a leaf, as FP32. -/
def readKeys (w : Who) (t : Tree) (i m : Nat) : EM (List (List El)) :=
  (List.range m).mapM fun j => do pure (elMap bf16to32 (← emVec w (t.keyRow i j) 2 t.dk))

/-- The first `m` value rows of a leaf, as FP32. -/
def readVals (w : Who) (t : Tree) (i m : Nat) : EM (List (List El)) :=
  (List.range m).mapM fun j => do pure (elMap bf16to32 (← emVec w (t.valRow i j) 2 t.dv))

/-! ## WKAPP (09 R219) -/

/-- Bytes of a node before a leaf's rows. -/
def Tree.nodeBytes (t : Tree) (lvl : Nat) : Nat := centroidAt lvl + 8 * t.dk + 4 * t.dv

/-- Pennant `k` of level `lvl` once full leaf `i`, of summary `l`, is inserted into it. -/
def grown (w : Who) (t : Tree) (i : Nat) (l : Summary) (lvl k : Nat) : EM Pennant := do
  let x ← if i % 16 ^ lvl = 0 then pure (⟨0, List.replicate 16 0, .none_⟩ : Pennant) else readNode w t lvl k i
  let s := i / 16 ^ (lvl - 1) % 16
  let grow := s = x.children
  pure ⟨if grow then s + 1 else x.children,
    if grow then x.table.set s (t.node (lvl - 1) (i / 16 ^ (lvl - 1))) else x.table, x.sum.insert l⟩

/-- Leaf `i` has its 32nd key: its summary, and its insertion into every ancestor. Every node is read and every place
reached before any is written, so that a stop leaves the tree as it was (09 R219). -/
def closeLeaf (w : Who) (t : Tree) (i : Nat) : EM Unit := do
  let l := leafSummary (← readKeys w t i 32) (← readVals w t i 32)
  let ups ← (List.range t.depth).mapM fun d => do pure (d + 1, i / 16 ^ (d + 1), ← grown w t i l (d + 1) (i / 16 ^ (d + 1)))
  let all := (0, i, (⟨0, [], l⟩ : Pennant)) :: ups
  all.forM fun e => emReach w .write (t.node e.1 e.2.1) (t.nodeBytes e.1)
  all.forM fun e => writeNode w t e.1 e.2.1 e.2.2

/-- The tail leaf's count is the number of keys it holds (09 R213, R230) (DEDUCED, log 47). -/
def readTail (w : Who) (t : Tree) (i j : Nat) : EM Unit := do
  let count ← emWord w (t.node 0 i)
  emNeed (count == j) ⟨.illegalIndex, t.node 0 i, 0, none⟩

/-- Append key `k` of a source of `cnt` keys to a tree of `n` keys. -/
def appendKey (w : Who) (t : Tree) (n : Nat) (src : Word) (cnt k : Nat) : EM Unit := do
  let i := n / 32
  let j := n % 32
  if j ≠ 0 then readTail w t i j
  let key ← emRead w (atOff src (2 * t.dk * k)) (2 * t.dk)
  emWrite w (t.keyRow i j) key
  let val ← emRead w (atOff src (2 * t.dk * cnt + 2 * t.dv * k)) (2 * t.dv)
  emWrite w (t.valRow i j) val
  if j = 31 then closeLeaf w t i else emWrite w (t.node 0 i) (clean (bytesOf 8 (j + 1)))

/-- Note the walker's progress. -/
def notePos (k n : Nat) : EM Unit := fun s => (.ok (), s.modWalker k fun x => { x with pos := n })

/-- Append the keys that are left, counting down; the header's key count is written however it ends. A killed launch's
command stops at its next key (09 R232). -/
def appendKeys (w : Who) (clu : Nat) (t : Tree) (src : Word) (cnt : Nat) : Nat → EM Nat
  | 0 => do
    emWrite w t.handle (clean (bytesOf 8 (t.n + cnt)))
    pure 1
  | k + 1 => fun s =>
    let n := t.n + (cnt - (k + 1))
    let keep (s : State) : State := ((emTry w t.handle (clean (bytesOf 8 n))).go s).2
    if !s.goesOn w.hall then (.ok 0, s)
    else if n = t.cap then (.ok 4, keep s)
    else
      match (appendKey w t n src cnt (cnt - (k + 1))).go s with
      | (.error e, s') => (.error e, keep s')
      | (.ok _, s') => (do notePos clu (cnt - k); appendKeys w clu t src cnt k).go s'

/-- WKAPP on a checked tree. -/
def walkerAppend (w : Who) (clu : Nat) (t : Tree) (src cnt : Word) : EM Nat :=
  if 4096 < cnt.toNat then pure 5
  else if cnt = 0 then pure 1
  else appendKeys w clu t src cnt.toNat cnt.toNat

/-! ## WKWALK (09 R220–R225) -/

/-- Where a walk's output lies (09 R223), and its limits. -/
structure Layout where
  base : Word
  xl : Nat
  pm : Nat
  fmt : MxFmt
  dk : Nat
  dv : Nat
  deriving DecidableEq, Repr

/-- E: exact rows. -/
def Layout.e (l : Layout) : Nat := 32 * l.xl
/-- Bytes of a staged row. -/
def Layout.rb (l : Layout) : Nat := l.dk * l.fmt.bits / 8
/-- Scales of a row. -/
def Layout.sb (l : Layout) : Nat := l.dk / 32
/-- Rounded up to a multiple of 256. -/
def up256 (n : Nat) : Nat := (n + 255) / 256 * 256
/-- Key numbers. -/
def Layout.ok (l : Layout) : Nat := 0x40 + 2 * l.e
/-- Staged codes. -/
def Layout.oc (l : Layout) : Nat := l.ok + 8 * l.e
/-- Staged scales. -/
def Layout.os (l : Layout) : Nat := l.oc + l.e * l.rb
/-- Exact values. -/
def Layout.ov (l : Layout) : Nat := up256 (l.os + l.e * l.sb)
/-- Pseudo centroids. -/
def Layout.op (l : Layout) : Nat := l.ov + 2 * l.dv * l.e
/-- Pseudo biases. -/
def Layout.ob (l : Layout) : Nat := l.op + 2 * l.dk * l.pm
/-- Pseudo value means. -/
def Layout.om (l : Layout) : Nat := up256 (l.ob + 4 * l.pm)

/-- The opening test's parameters (09 R220, R221). -/
structure Opening where
  l2 : Bool
  base2 : Bool
  theta : FV
  tau : FV
  lmin : Nat
  q : List FV
  qn : FV
  deriving DecidableEq, Repr

/-- What a walk has done so far (09 R225). `full`: it stopped at a limit. -/
structure Progress where
  rows : Nat
  leaves : Nat
  pseudo : Nat
  tested : Nat
  pruned : Nat
  summ : Nat
  opened : Nat
  mrun : Nat
  full : Bool
  deriving DecidableEq, Repr

/-- −∞ as FP32. -/
def negInf32 : Nat := 0xFF800000

/-- A walk that has done nothing. -/
def Progress.start : Progress := ⟨0, 0, 0, 0, 0, 0, 0, negInf32, false⟩

/-- Write one key's staged row, index, number, scales and value. -/
def emitRow (w : Who) (l : Layout) (leaf e r j : Nat) (key : List El) (val : List PByte) : EM Unit := do
  let σ := 32 * e + j
  let blocks := (List.range l.sb).map fun b => (key.drop (32 * b)).take 32
  let enc := blocks.map fun b => (l.fmt.encodeBlock .rne (fvs b), elTag b)
  emWrite w (atOff l.base (0x40 + 2 * r)) (clean (bytesOf 2 σ))
  emWrite w (atOff l.base (l.ok + 8 * r)) (clean (bytesOf 8 (32 * leaf + j)))
  emWrite w (atOff l.base (l.oc + σ * l.rb))
    (enc.flatMap fun b => taggedBytes (4 * l.fmt.bits) (packCodes l.fmt.bits b.1.2) b.2)
  emWrite w (atOff l.base (l.os + r * l.sb)) (enc.flatMap fun b => taggedBytes 1 b.1.1 b.2)
  emWrite w (atOff l.base (l.ov + 2 * l.dv * r)) val

/-- emit_exact: a leaf's first `m` keys, unless the leaf limit is reached (09 R223, R224). -/
def emitExact (w : Who) (t : Tree) (l : Layout) (leaf m : Nat) (p : Progress) : EM Progress := do
  if p.leaves = l.xl then pure { p with full := true }
  else
    (List.range m).forM fun j => do
      let key ← emVec w (t.keyRow leaf j) 2 t.dk
      let val ← emRead w (t.valRow leaf j) (2 * t.dv)
      emitRow w l leaf p.leaves (p.rows + j) j (elMap bf16to32 key) val
    pure { p with rows := p.rows + m, leaves := p.leaves + 1 }

/-- emit_pseudo, unless the pseudo-key limit is reached: the pennant that meets it counts as tested, not as summarised (09 R224;
DESIGN CHOICE, log 114). -/
def emitPseudo (w : Who) (l : Layout) (base2 : Bool) (x : Summary) (p : Progress) : EM Progress := do
  if p.pseudo = l.pm then pure { p with full := true }
  else
    emWrite w (atOff l.base (l.op + 2 * l.dk * p.pseudo)) (elBytes 2 (elMap (convert .fp32 .bf16 .rne false) x.c))
    emWrite w (atOff l.base (l.ob + 4 * p.pseudo))
      (clean (bytesOf 4 (if base2 then fp32Log2Nat x.count else fp32LnNat x.count)))
    emWrite w (atOff l.base (l.om + 2 * l.dv * p.pseudo))
      (elBytes 2 (elMap (fun v => divRne .bf16 (Fmt.fp32.decode v) x.count) x.vs))
    pure { p with pseudo := p.pseudo + 1, summ := p.summ + 1 }

/-- What the test of a node says. -/
inductive Verdict where
  | prune | summarise | open_
  deriving DecidableEq, Repr

/-- The opening test (09 R221, R222), with mrun after it (DEDUCED, log 48). -/
def Opening.test (o : Opening) (lvl : Nat) (x : Summary) (mrun : Nat) : Verdict × Nat :=
  if (elTag x.c).isSome then (.open_, mrun)
  else
    let r := Fmt.fp32.decode x.radius.1
    let may := decide (max 1 o.lmin ≤ lvl)
    if o.l2 then
      let dlo := Fmt.fp32.decode (normRound .rdn (List.zipWith FV.sub o.q (fvs x.c)))
      if o.tau.le (FV.sub dlo r) then (.prune, mrun)
      else if r.le (o.theta.mul dlo) && may then (.summarise, mrun) else (.open_, mrun)
    else
      let g := FV.sum (List.zipWith FV.mul o.q (fvs x.c))
      let qr := o.qn.mul r
      let u := Fmt.fp32.encode .rup false (FV.add .rne g qr)
      let low := Fmt.fp32.encode .rdn false (FV.add .rdn g qr.neg)
      if (Fmt.fp32.decode u).le (FV.sub (Fmt.fp32.decode mrun) o.tau) then (.prune, mrun)
      else
        let m := Fmt.fp32.fmax mrun low
        if (Fmt.fp32.decode (Fmt.fp32.encode .rup false qr)).le o.theta && may then (.summarise, m) else (.open_, m)

/-- Visit a list of nodes (level, index) in order: `k` bounds the nodes left (09 R222) (DEDUCED, log 48). -/
def visit (w : Who) (clu : Nat) (t : Tree) (l : Layout) (o : Opening) :
    Nat → List (Nat × Nat) → Progress → EM Progress
  | 0, _, p => pure p
  | _, [], p => pure p
  | k + 1, (lvl, i) :: rest, p => do
    let x ← readNode w t lvl i (t.n / 32)
    let v := o.test lvl x.sum p.mrun
    let p := { p with tested := p.tested + 1, mrun := v.2 }
    notePos clu p.tested
    match v.1 with
    | .prune => visit w clu t l o k rest { p with pruned := p.pruned + 1 }
    | .summarise => do
      let p ← emitPseudo w l o.base2 x.sum p
      if p.full then pure p else visit w clu t l o k rest p
    | .open_ =>
      if lvl = 0 then do
        let p ← emitExact w t l i 32 p
        if p.full then pure p else visit w clu t l o k rest p
      else
        visit w clu t l o k ((List.range x.children).map (fun s => (lvl - 1, 16 * i + s)) ++ rest)
          { p with opened := p.opened + 1 }

/-- More nodes than a walk can visit. -/
def visitBound : Nat := 2 ^ 34

/-- The status block (09 R225). -/
def statusBlock (code keys : Nat) (p : Progress) (mrun : Nat) : List PByte :=
  clean (bytesOf 4 code ++ ([p.rows, p.leaves, p.pseudo, p.tested, p.pruned, p.summ, p.opened].flatMap (bytesOf 4)) ++
    bytesOf 8 keys ++ bytesOf 4 mrun ++ List.replicate 20 0)

/-- The query: a poisoned element stops the walk (09 R230). -/
def readQuery (w : Who) (va : Word) (dk : Nat) : EM (List El) := do
  let q ← emVec w va 2 dk
  match (q.zipIdx).find? fun e => e.1.2.isSome with
  | some e => emFail ⟨.poisonConsumed, atOff va (2 * e.2 / 8 * 8), 0, e.1.2.map Poi.mem⟩
  | none => pure q

/-- WKWALK on a checked tree: BADREG comes before the query is read (09 R218). -/
def walkerWalk (w : Who) (clu : Nat) (t : Tree) (c : WkCmd) : EM Nat := do
  let mode := c.mode.toNat
  let sfmt := bitsAt mode 2 2
  let xl := bitsAt c.listmax.toNat 0 6
  let pk := bitsAt c.listmax.toNat 16 8
  if sfmt = 3 ∨ 32 < xl then
    emWrite w c.c (statusBlock 3 t.n .start 0)
    pure 3
  else
    let q ← readQuery w c.b t.dk
    let l : Layout := ⟨c.c, if xl = 0 then 32 else xl, if pk = 0 then 256 else pk,
      if sfmt = 0 then .mxi8 else if sfmt = 1 then .mxi6 else .mxi4, t.dk, t.dv⟩
    let qs := fvs (elMap bf16to32 q)
    let o : Opening := ⟨bitAt mode 0, bitAt mode 1, Fmt.fp32.decode (bitsAt c.theta.toNat 0 32),
      Fmt.fp32.decode (bitsAt c.tau.toNat 0 32), bitsAt c.depth.toNat 0 4, qs,
      Fmt.fp32.decode (normRound .rup qs)⟩
    if t.n % 32 ≠ 0 then readTail w t (t.n / 32) (t.n % 32)
    let p ← if t.n % 32 = 0 then pure Progress.start else emitExact w t l (t.n / 32) (t.n % 32) .start
    let p ← if t.n < 32 then pure p else visit w clu t l o visitBound [(t.depth, 0)] p
    emWrite w (atOff l.base (0x40 + 2 * p.rows)) (clean (List.replicate (2 * (l.e - p.rows)) 0))
    let code := if p.full then 2 else 1
    emWrite w l.base (statusBlock code t.n p p.mrun)
    pure code

/-! ## WKFIX (09 R227) -/

/-- Exact sum of column `i` of rows, with the lowest tag of it. -/
def columnSum (rows : List (List El)) (i : Nat) : FV × Option Tag :=
  let col := rows.map fun r => (r[i]?).getD (0, none)
  (FV.sum (fvs col), elTag col)

/-- Recompute a node's summary from its keys. -/
def fixSummary (dk dv : Nat) (keys vals : List (List El)) : Summary :=
  let ks := (List.range dk).map (columnSum keys)
  let vs := (List.range dv).map (columnSum vals)
  let enc (l : List (FV × Option Tag)) : List El := l.map fun e => (Fmt.fp32.encode .rne false e.1, e.2)
  let c := ks.map fun e => (divRne .fp32 e.1 keys.length, e.2)
  ⟨keys.length, (leafRadius keys c, elTag c), c, enc ks, enc vs⟩

/-- A full leaf below a fixed pennant: its count and its level word are read, and agree with R213 (09 R230). -/
def checkLeaf (w : Who) (t : Tree) (i : Nat) : EM Unit := do
  let a := t.node 0 i
  let count ← emWord w a
  let v ← emWord w (atOff a 8)
  emNeed (count == 32 && bitsAt v 0 16 == 0) ⟨.illegalIndex, a, 0, none⟩

/-- WKFIX on a checked tree. -/
def walkerFix (w : Who) (clu : Nat) (t : Tree) (lvl : Nat) (ix : Word) : EM Nat := do
  let i := ix.toNat
  let full := t.n / 32
  if t.depth < lvl ∨ full ≤ i * 16 ^ lvl then pure 5
  else
    let x ← readNode w t lvl i full
    let leaves := (List.range (min (16 ^ lvl) (full - i * 16 ^ lvl))).map (· + i * 16 ^ lvl)
    if lvl ≠ 0 then leaves.forM (checkLeaf w t)
    let keys ← leaves.mapM fun k => readKeys w t k 32
    let vals ← leaves.mapM fun k => readVals w t k 32
    notePos clu (32 * leaves.length)
    writeNode w t lvl i { x with sum := fixSummary t.dk t.dv keys.flatten vals.flatten }
    pure 1

/-! ## Commands (09 R217, R218, R230) -/

/-- Is the output base in a scratchpad window of the issuing cluster (09 R223)? -/
def ownSpad (s : State) (w : Who) (clu : Nat) (va : Word) : Bool :=
  match s.resolveWalk w va with
  | .ok (.win k kind _) _ => cluOf k == clu && kind == 0
  | _ => false

/-- Where a command stands before its lock: ended, or to take the lock. -/
inductive Pre where
  | ended (code : Nat)
  | lock
  deriving DecidableEq, Repr

/-- The checks before the lock: tree handle, then source, query and output base (DEDUCED, log 103). -/
def preCheck (w : Who) (clu : Nat) (c : WkCmd) : EM Pre := do
  emNeed (c.a.toNat % 128 == 0) ⟨.align, c.a, 0, none⟩
  let out : EM Unit := do
    emNeed (c.c.toNat % 256 == 0) ⟨.align, c.c, 0, none⟩
    emReach w .write c.c 1
    let s ← emGet
    emNeed (ownSpad s w clu c.c) ⟨.protect, c.c, 0, none⟩
  if inWindows c.a then
    match c.op with
    | .wkwalk => do
      out
      emWrite w c.c (statusBlock 6 0 .start 0)
      pure (.ended 6)
    | _ => pure (.ended 6)
  else
    emReach w .read c.a 128
    emReach w .write c.a 128
    match c.op with
    | .wkapp => emNeed (c.b.toNat % 64 == 0) ⟨.align, c.b, 0, none⟩
    | .wkwalk => do
      emNeed (c.b.toNat % 256 == 0) ⟨.align, c.b, 0, none⟩
      out
    | .wkfix _ => pure ()
    pure .lock

/-- Take the lock: true when it was free. A failing compare-and-swap counts as a store for monitors (08 R199). -/
def takeLock (w : Who) (clu : Nat) (c : WkCmd) : EM Bool := do
  let a := atOff c.a 0x58
  let v ← emWord w a
  if v = 0 then do
    emWrite w a (clean (bytesOf 8 (1 + clu)))
    pure true
  else
    fun s => match s.engineTarget w .read a 8 with
      | .ok t => (.ok false, s.hitMonitors t w.hall)
      | .error _ => (.ok false, s)

/-- The work under the lock. -/
def walkerWork (w : Who) (clu : Nat) (c : WkCmd) : EM Nat := do
  let h ← emWords w c.a 16
  let n := (h[0]?).getD 0
  if !headerOk h then
    match c.op with
    | .wkwalk => emWrite w c.c (statusBlock 6 n .start 0)
    | _ => pure ()
    pure 6
  else
    let t := treeOf c.a h
    match c.op with
    | .wkapp => walkerAppend w clu t c.b c.c
    | .wkfix lvl => walkerFix w clu t lvl.toNat c.b
    | .wkwalk => walkerWalk w clu t c

/-- The command ends with a code: WKQ's word, the registers, the interrupt (09 R218, R228, R229) (DEDUCED, log 49). -/
def State.walkerEnd (s : State) (k : Nat) (c : WkCmd) (code : Nat) : State :=
  let s := s.modWalker k fun w =>
    { w with running := none, waiting := false, last := BitVec.ofNat 8 code, done := (w.done + 1) % 2 ^ 64 }
  s.modCtx c.ctx fun x =>
    if x.act == .free then x
    else
      let x := { x with wkEnded := x.wkEnded + 1, wkLast := BitVec.ofNat 8 code }
      if c.uirq then x.pend 17 else x

/-- The command stops on a fault: code 7, the context's later commands are discarded (09 R230). -/
def State.walkerFault (s : State) (k : Nat) (c : WkCmd) (t : Trap) : State :=
  let s := s.walkerEnd k c 7
  let s := s.modWalker k fun w =>
    { w with
      queue := w.queue.filter fun q => q.ctx ≠ c.ctx
      faultIssuer := BitVec.ofNat 8 (issuerBits c.ctx)
      faultCause := BitVec.ofNat 8 t.cause.code
      faultAddr := t.addr }
  s.asyncFault c.ctx t

/-- Release the lock. -/
def State.unlock (s : State) (w : Who) (c : WkCmd) : State := ((emTry w (atOff c.a 0x58) (clean (bytesOf 8 0))).go s).2

/-- The running command of a killed launch stops: no status block, no code, and its lock is discarded with the shadow
(09 R232) (DEDUCED, log 49). -/
def State.walkerDrop (s : State) (k : Nat) : State := s.modWalker k fun x => { x with running := none, waiting := false }

/-- Try the running command: checks, lock, work, release. -/
def State.walkerTry (s : State) (k : Nat) (c : WkCmd) : State :=
  let w := s.engine c.ctx
  match (preCheck w k c).go s with
  | (.error t, s) => s.walkerFault k c t
  | (.ok (.ended code), s) => s.walkerEnd k c code
  | (.ok .lock, s) =>
    match (takeLock w k c).go s with
    | (.error t, s) => s.walkerFault k c t
    | (.ok false, s) => s.modWalker k fun x => { x with waiting := true }
    | (.ok true, s) =>
      if !s.goesOn w.hall then s.walkerDrop k
      else
        match (walkerWork w k c).go s with
        | (.error t, s) => if s.goesOn w.hall then (s.unlock w c).walkerFault k c t else s.walkerDrop k
        | (.ok code, s) => if s.goesOn w.hall then (s.unlock w c).walkerEnd k c code else s.walkerDrop k

/-- Start the head command when it is of the given opcode and what its FENCE names has performed. -/
def State.walkerRun (s : State) (k op : Nat) : State :=
  let x := (s.cluster k).walker
  match x.running, x.queue with
  | none, c :: rest =>
    if c.op.opcode = op ∧ ¬ s.fenced c.ctx c.after then
      (s.modWalker k fun x => { x with running := some c, queue := rest, tree := c.a, pos := 0 }).walkerTry k c
    else s
  | _, _ => s

/-- WKAPP_RUN. -/
def execWkappRun (k : CluNo) (s : State) : Out' := .next (s.walkerRun k.val 4)
/-- WKWALK_RUN. -/
def execWkwalkRun (k : CluNo) (s : State) : Out' := .next (s.walkerRun k.val 5)
/-- WKFIX_RUN. -/
def execWkfixRun (k : CluNo) (s : State) : Out' := .next (s.walkerRun k.val 6)

/-- WALKER_LOCK_RETRY. -/
def execWalkerLockRetry (k : CluNo) (s : State) : Out' :=
  let x := (s.cluster k.val).walker
  .next (match x.running with
    | some c => if x.waiting then (s.modWalker k.val fun x => { x with waiting := false }).walkerTry k.val c else s
    | none => s)

end Sys2Proof.Machine
end

