-- ==== Sys2Proof/Machine/Coord.lean ====
section
/-! DEFINITION. The coordinate unit: weights by portable coordinate (17 R300, R301, 18 R314–R322). -/

namespace Sys2Proof.Machine

open Sys2Proof

/-! ## Tensor map records (17 R300) -/

/-- A record of its eight words. -/
def TMap.ofWords (w : List Nat) : TMap :=
  let g (i : Nat) : Nat := (w[i]?).getD 0
  ⟨bitsAt (g 0) 21 2, bitsAt (g 0) 18 3, bitsAt (g 0) 16 2, bitsAt (g 0) 12 4, bitsAt (g 0) 8 4, bitsAt (g 0) 0 8,
   [bitsAt (g 1) 0 32, bitsAt (g 1) 32 32, bitsAt (g 2) 0 32, bitsAt (g 2) 32 32],
   bitsAt (g 3) 0 32, bitsAt (g 3) 32 32, bitsAt (g 4) 0 32, bitsAt (g 4) 32 32, BitVec.ofNat 64 (g 5),
   bitsAt (g 6) 0 32, bitsAt (g 6) 32 32⟩

/-- Extent of an axis. -/
def TMap.dim (t : TMap) (d : Nat) : Nat := (t.dims[d]?).getD 0

/-- Bytes of an element of the portable type (17 R292). -/
def TMap.elem (t : TMap) : Nat := match t.ptype with | 1 => 1 | 2 => 2 | _ => 4

/-- Format of the portable type. -/
def TMap.fmt (t : TMap) : Fmt := match t.ptype with | 1 => .i8 | 2 => .bf16 | _ => .fp32

/-- Private format of a matrix-form tensor. -/
def TMap.mx (t : TMap) : MxFmt := match t.penc with | 1 => .mxi8 | 2 => .mxi6 | _ => .mxi4

/-- Activation format of the tile layout. -/
def TMap.act (t : TMap) : MxFmt := match t.afmt with | 0 => .mxi8 | 1 => .mxi6 | _ => .mxi4

/-- The axes K and N. -/
def TMap.axes (t : TMap) : Nat × Nat := if t.baxis = 0 then (t.rank - 2, t.rank - 1) else (t.rank - 1, t.rank - 2)

/-- Product of the extents of the first `n` axes. -/
def TMap.prod (t : TMap) (n : Nat) : Nat := (t.dims.take n).foldl (· * ·) 1

/-- a ÷ b rounded up. -/
def ceilDiv (a b : Nat) : Nat := (a + b - 1) / b

/-- Check 3 of 18 R315 on the record's own fields. -/
def TMap.ok (t : TMap) (w : List Nat) : Bool :=
  let g (i : Nat) : Nat := (w[i]?).getD 0
  let ext := (List.range 4).all fun d =>
    if d < t.rank then decide (1 ≤ t.dim d) && decide (t.dim d < 2 ^ 31) else t.dim d == 0
  let common := g 0 / 2 ^ 23 == 0 && g 7 == 0 && decide (1 ≤ t.rank) && decide (t.rank ≤ 4) &&
    decide (1 ≤ t.ptype) && decide (t.ptype ≤ 3) && decide (t.penc ≤ 3) && ext && t.stride % 256 == 0
  if t.penc = 0 then
    common && t.gang == 0 && t.afmt == 0 && t.baxis == 0 && t.kt == 0 && t.tk == 1 && t.tn == 1 && t.slabs == 1 &&
      t.entries == 1 && decide (t.prod t.rank * t.elem ≤ t.stride)
  else
    let k := t.dim t.axes.1
    let n := t.dim t.axes.2
    common && decide (2 ≤ t.rank) && decide (t.baxis ≤ 1) && decide (t.afmt ≤ 2) && gangOf t.act t.mx == t.gang &&
      t.kt == gangK t.gang && t.tk == ceilDiv k t.kt && t.tn == ceilDiv n 128 &&
      t.slabs == t.prod (t.rank - 2) && decide (imageBytes t.act t.mx ≤ t.stride)

/-- Placement entries cover tiles 0 to n − 1 in ascending order, 256-aligned. -/
def placeOk : Nat → List Place → Nat → Bool
  | at_, [], n => at_ == n
  | at_, p :: t, n => p.va % 256 == 0 && p.first == at_ && placeOk (at_ + p.count) t n

/-! ## Finding an element (17 R301) -/

/-- Where an element of a matrix-form tensor lies: its tile's address, block number within the column order, place in the
block, k within the tile. -/
structure Spot where
  tile : Word
  nn : Nat
  kk : Nat
  deriving DecidableEq, Repr

/-- Slab number of the leading indices, row-major. -/
def rowMajor : List Nat → List Nat → Nat → Nat
  | i :: is, d :: ds, acc => rowMajor is ds (acc * d + i)
  | _, _, acc => acc

/-- The place of element `ix` of a matrix-form tensor. -/
def TMap.spot (t : TMap) (pl : List Place) (ix : List Nat) : Spot :=
  let i (d : Nat) : Nat := (ix[d]?).getD 0
  let k := i t.axes.1
  let n := i t.axes.2
  let s := rowMajor (ix.take (t.rank - 2)) t.dims 0
  let tile := (s * t.tn + n / 128) * t.tk + k / t.kt
  let e := (pl.find? fun p => decide (p.first ≤ tile) && decide (tile < p.first + p.count)).getD ⟨0, 0, 0⟩
  ⟨BitVec.ofNat 64 (e.va + (tile - e.first) * t.stride), n % 128, k % t.kt⟩

/-- Address of a block's codes. -/
def TMap.blockAt (t : TMap) (p : Spot) (nn : Nat) : Word :=
  atOff p.tile ((nn * (t.kt / 32) + p.kk / 32) * (4 * t.mx.bits))

/-- Address of a block's scale. -/
def TMap.scaleAt (t : TMap) (p : Spot) : Word :=
  atOff p.tile (codeBytes t.act t.mx + p.nn * (t.kt / 32) + p.kk / 32)

/-- Address of assay(k). -/
def TMap.assayAt (t : TMap) (p : Spot) (kk : Nat) : Word :=
  atOff p.tile (codeBytes t.act t.mx + 128 * (t.kt / 32) + 4 * kk)

/-- Address of element `ix` of a plain tensor. -/
def TMap.plainAt (t : TMap) (pl : List Place) (ix : List Nat) : Word :=
  BitVec.ofNat 64 (((pl.head?.map (·.va)).getD 0) + rowMajor (ix.take t.rank) t.dims 0 * t.elem)

/-! ## Checks (18 R315) -/

/-- Subcode of COORD_RANGE, when the coordinates are out of range (DEDUCED, log 112). -/
def coordBad (t : TMap) (ix : List Nat) (n : Nat) : Option Nat :=
  let i (d : Nat) : Nat := (ix[d]?).getD 0
  match (List.range t.rank).find? fun d => decide (t.dim d ≤ i d) with
  | some d => some d
  | none =>
    if (List.range 4).any fun d => decide (t.rank ≤ d) && i d != 0 then some 5
    else if t.dim (t.rank - 1) < i (t.rank - 1) + n then some 4
    else none

/-- Is the command an export? -/
def CrdOp.exports : CrdOp → Bool
  | .wexp => true
  | _ => false

/-- The checks before anything is written, in their order (DEDUCED, log 103). -/
def crdCheck (w : Who) (c : CrdCmd) : EM CrdJob := do
  emNeed (c.a.toNat % 64 == 0) ⟨.align, c.a, 0, none⟩
  emNeed (c.b.toNat % 16 == 0) ⟨.align, c.b, 0, none⟩
  emNeed (c.op.exports || c.c.toNat % 4 == 0) ⟨.align, c.c, 0, none⟩
  let ws ← emWords w c.a 8
  let cw ← emWords w c.b 2
  let t := TMap.ofWords ws
  let ps ← emWords w t.plist (2 * t.entries)
  emNeed (t.ok ws) ⟨.illegalIndex, c.a, 0, none⟩
  let pl := (List.range t.entries).map fun i =>
    let v := (ps[2 * i + 1]?).getD 0
    (⟨(ps[2 * i]?).getD 0, bitsAt v 0 32, bitsAt v 32 32⟩ : Place)
  emNeed (placeOk 0 pl (t.slabs * t.tn * t.tk)) ⟨.illegalIndex, c.a, 0, none⟩
  let ix := cw.flatMap fun v => [bitsAt v 0 32, bitsAt v 32 32]
  match coordBad t ix c.count with
  | some d => emFail ⟨.coordRange, c.b, BitVec.ofNat 8 d, none⟩
  | none => pure ()
  emNeed (!c.op.exports || c.c.toNat % t.elem == 0) ⟨.align, c.c, 0, none⟩
  pure ⟨t, pl, ix⟩

/-- Index tuple of the command's element `e`. -/
def CrdJob.at_ (j : CrdJob) (e : Nat) : List Nat := j.ix.modify (j.t.rank - 1) (· + e)

/-! ## Reading and exporting (18 R316, R317, R321) -/

/-- The bytes that hold the code at a place of a block: address and count. -/
def codeSpan (b : MxFmt) (at_ : Nat) : Nat × Nat := (b.bits * at_ / 8, (b.bits * at_ % 8 + b.bits + 7) / 8)

/-- An element's code and its block's scale, with the tags of their words. -/
def readCode (w : Who) (j : CrdJob) (p : Spot) : EM ((Int × Option Tag) × El) := do
  let b := j.t.mx
  let sp := codeSpan b (p.kk % 32)
  let d ← emRead w (atOff (j.t.blockAt p p.nn) sp.1) sp.2
  let s ← emRead w (j.t.scaleAt p) 1
  pure ((b.code (bitsAt (valOf d) (b.bits * (p.kk % 32) % 8) b.bits), tagOf d), (valOf s, tagOf s))

/-- An element as WGET reads it: FP32. -/
def getElement (w : Who) (j : CrdJob) (e : Nat) : EM El := do
  let ix := j.at_ e
  if j.t.penc = 0 then
    let d ← emRead w (j.t.plainAt j.pl ix) j.t.elem
    pure (if j.t.ptype = 3 then valOf d else convert j.t.fmt .fp32 .rne false (valOf d), tagOf d)
  else
    let r ← readCode w j (j.t.spot j.pl ix)
    pure (j.t.mx.decodeTo .fp32 r.1.1 r.2.1, tmeet r.1.2 r.2.2)

/-- An element as WEXP writes it (DEDUCED, log 53). -/
def exportElement (w : Who) (j : CrdJob) (e : Nat) : EM El := do
  if j.t.penc = 0 then
    let d ← emRead w (j.t.plainAt j.pl (j.at_ e)) j.t.elem
    pure (valOf d, tagOf d)
  else
    let v ← getElement w j e
    pure (convert .fp32 j.t.fmt .rne (j.t.ptype = 1) v.1, v.2)

/-! ## Writing (18 R318) -/

/-- The poison of a word stops the command; TRAPADDR is the word's address (DEDUCED, log 112). -/
def needClean (va : Word) (t : Option Tag) : EM Unit :=
  match t with
  | some g => emFail ⟨.poisonConsumed, va &&& ~~~7, 0, some (.mem g)⟩
  | none => pure ()

/-- Count a re-encoded block. -/
def noteReencode (c : Nat) : EM Unit := fun s => (.ok (), s.modCtx c fun x => { x with crdRe := x.crdRe + 1 })

/-- A code that fits replaces the old one; the assay sum follows. -/
def putCode (w : Who) (j : CrdJob) (p : Spot) (q old : Int) : EM Unit := do
  let b := j.t.mx
  let sp := codeSpan b (p.kk % 32)
  let a := atOff (j.t.blockAt p p.nn) sp.1
  let d ← emRead w a sp.2
  emWrite w a (clean (bytesOf sp.2 (putBits (valOf d) (b.bits * (p.kk % 32) % 8) b.bits (wrapInt b.bits q))))
  let y ← emVec w (j.t.assayAt p p.kk) 4 1
  let v := ((y.head?.map (·.1)).getD 0)
  emWrite w (j.t.assayAt p p.kk)
    (clean (bytesOf 4 (Fmt.fp32.encode .rne false (FV.add .rne (Fmt.fp32.decode v) (FV.ofInt (q - old))))))

/-- The exact value of a code in a forced re-encode: a NaN block gives 0. -/
def reencodeValue (b : MxFmt) (scale : Nat) (code : Int) : FV :=
  if scale = 255 then .num false 0 0 else b.value code scale

/-- No word of some bytes is poisoned: the first that is stops the command (18 R318) (DEDUCED, log 54). -/
def needBlockClean (va : Word) (d : List PByte) : EM Unit :=
  (d.zipIdx).forM fun e => needClean (atOff va e.2) e.1.2

/-- Forced re-encode of an element's block (18 R318, 01 R18). An assay sum over a poisoned code is poisoned (01 R27)
(DEDUCED, log 54). -/
def reencode (w : Who) (c : Nat) (j : CrdJob) (p : Spot) (scale : Nat) (v : FV) : EM Unit := do
  let b := j.t.mx
  let a := j.t.blockAt p p.nn
  let n := 4 * b.bits
  let d ← emRead w a n
  needBlockClean a d
  let u := (unpack b (valOf d)).map (reencodeValue b scale)
  let r := b.encodeBlock .rne (u.set (p.kk % 32) v)
  emWrite w a (clean (bytesOf n (packCodes b.bits r.2)))
  emWrite w (j.t.scaleAt p) (clean (bytesOf 1 r.1))
  let cols ← (List.range 128).mapM fun nn => do
    let d ← emRead w (j.t.blockAt p nn) n
    pure (unpack b (valOf d), d)
  (List.range 32).forM fun i => do
    let sp := codeSpan b i
    let sum := cols.foldl (fun v e => v + (e.1[i]?).getD 0) (0 : Int)
    let tag := cols.foldl (fun t e => tmeet t (tagOf ((e.2.drop sp.1).take sp.2))) none
    emWrite w (j.t.assayAt p (p.kk / 32 * 32 + i)) (taggedBytes 4 (Fmt.fp32.encode .rne false (FV.ofInt sum)) tag)
  noteReencode c

/-- One element of WPUT (DEDUCED, log 53). -/
def putElement (w : Who) (c : Nat) (cmd : CrdCmd) (j : CrdJob) (e : Nat) : EM Unit := do
  let va := atOff cmd.c (4 * e)
  let d ← emRead w va 4
  needClean va (tagOf d)
  let x := valOf d
  let ix := j.at_ e
  if j.t.penc = 0 then
    emWrite w (j.t.plainAt j.pl ix) (clean (bytesOf j.t.elem (convert .fp32 j.t.fmt .rne (j.t.ptype = 1) x)))
  else
    let p := j.t.spot j.pl ix
    let b := j.t.mx
    let r ← readCode w j p
    let sp := codeSpan b (p.kk % 32)
    let a := atOff (j.t.blockAt p p.nn) sp.1
    let cb ← emRead w a sp.2
    needBlockClean a cb
    needClean (j.t.scaleAt p) r.2.2
    let v := Fmt.fp32.decode x
    let q : Option Int :=
      if r.2.1 = 255 then none
      else
        match v with
        | .num neg m ex =>
          let q := roundToInt .rne neg m (ex + (b.f : Int) - ((r.2.1 : Int) - 127))
          if b.lo ≤ q ∧ q ≤ b.hi then some q else none
        | _ => none
    match q with
    | some q => putCode w j p q r.1.1
    | none => reencode w c j p r.2.1 v

/-- Element `e` of a coordinate command. WGET's unit of poison is its 4-byte word; memory holds that word's poison with that of
the 8-byte word it lies in (01 R26) (DESIGN CHOICE, log 53). -/
def crdElement (w : Who) (c : Nat) (cmd : CrdCmd) (j : CrdJob) (e : Nat) : EM Unit :=
  match cmd.op with
  | .wget => do
    let v ← getElement w j e
    emWrite w (atOff cmd.c (4 * e)) (taggedBytes 4 v.1 v.2)
  | .wexp => do
    let v ← exportElement w j e
    emWrite w (atOff cmd.c (j.t.elem * e)) (taggedBytes j.t.elem v.1 v.2)
  | .wput => putElement w c cmd j e

/-- The next thing a coordinate command does: its checks, then one element at a time, each indivisible (18 R322); what is left
of it afterwards. -/
def crdWork (w : Who) (c : Nat) (cmd : CrdCmd) (run : Option (CrdJob × Nat)) : EM (Option (CrdJob × Nat)) :=
  match run with
  | none => do
    let j ← crdCheck w cmd
    pure (some (j, 0))
  | some (j, e) => do
    crdElement w c cmd j e
    pure (if e + 1 < cmd.count then some (j, e + 1) else none)

/-! ## Commands (18 R319, R320) -/

/-- The command ends. -/
def State.crdEnd (s : State) (c : Nat) (cmd : CrdCmd) (rest : List CrdCmd) : State :=
  s.modCtx c fun x =>
    let x := { x with crd := rest, crdJob := none, crdEnded := x.crdEnded + 1 }
    if cmd.uirq then x.pend 18 else x

/-- Go on with the oldest coordinate command of a context when it is of the given operation and what its FENCE names has
performed. One that a kill or an abort took away stops here (18 R322). -/
def State.crdRun (s : State) (c : Nat) (op : CrdOp) : State :=
  let x := s.ctx c
  match x.crd with
  | [] => s
  | cmd :: rest =>
    if cmd.op ≠ op ∨ s.fenced c cmd.after then s
    else
      match (crdWork (s.engine c) c cmd x.crdJob).go s with
      | (.ok r, s) =>
        if (s.ctx c).crd.isEmpty then s
        else
          match r with
          | some _ => s.modCtx c fun x => { x with crdJob := r }
          | none => s.crdEnd c cmd rest
      | (.error t, s) => if (s.ctx c).crd.isEmpty then s else ((s.crdEnd c cmd []).dropLines c .crd).defer c .crd t

/-- WGET_RUN. -/
def execWgetRun (c : CtxNo) (s : State) : Out' := .next (s.crdRun c.val .wget)
/-- WPUT_RUN. -/
def execWputRun (c : CtxNo) (s : State) : Out' := .next (s.crdRun c.val .wput)
/-- WEXP_RUN. -/
def execWexpRun (c : CtxNo) (s : State) : Out' := .next (s.crdRun c.val .wexp)

end Sys2Proof.Machine
end

