-- ==== Sys2Proof/Machine/Link.lean ====
section
/-! DEFINITION. The link engine and the collective engine: sends and arriving messages, compression, and collectives
(23 R366–R380). -/

namespace Sys2Proof.Machine

open Sys2Proof

/-! ## Running commands -/

/-- The oldest COL command of a context that its engine carries out (receives stay posted beside it), when what its FENCE
names has performed. -/
def State.colHead (s : State) (c : Nat) : Option ColCmd :=
  match (s.ctx c).col.find? fun d => !d.op.posts with
  | some d => if s.fenced c d.after then none else some d
  | none => none

/-- Run a COL command's work: it ends with the status answered, or stops on a fault. -/
def State.colRun (s : State) (c : Nat) (d : ColCmd) (m : EM Nat) : State :=
  match m.go s with
  | (.ok st, s) => s.endCol c d st
  | (.error t, s) => s.colFault c d t

/-! ## LKSEND (23 R368) and messages (23 R367) -/

/-- Send bytes as a message. -/
def State.send (s : State) (c : Nat) (k : RecvKey) (b : List PByte) : State :=
  s.emit (.message k.peer
    ⟨k.net, k.port, Config.pkgId, k.part, k.tag, ((s.ctx c).hall).getD 0, b.map (·.1), msgPoison b,
      ⟨k.die % 4, Nat.mod_lt _ (by decide)⟩, s.fab.epoch, k.addr⟩)

/-- Do it as engine work. -/
def emDo (f : State → State) : EM Unit := fun s => (.ok (), f s)

/-- LKSEND_RUN. -/
def execLksendRun (c : CtxNo) (s : State) : Out' :=
  .next (match s.colHead c.val with
    | none => s
    | some d =>
      match d.op with
      | .lksend port => s.colRun c.val d do
          match d.linkBad with
          | some t => emFail t
          | none =>
            let b ← emRead (s.engine c.val) d.a d.b.toNat
            emDo fun s => s.send c.val (s.routeKey c.val port d.c) b
            pure 1
      | _ => s)

/-- Bytes in a die's holding buffer. -/
def heldBytes (l : List Message) : Nat := (l.map fun m => m.bytes.length).sum

/-- Drop the oldest held messages until the rest fits; each leaves a lost mark (23 R367). -/
def dropHeld : Nat → List Message → List LostMark → List Message × List LostMark
  | 0, l, k => (l, k)
  | n + 1, l, k =>
    match l with
    | [] => ([], k)
    | m :: t => if heldBytes (m :: t) ≤ Config.holdBytes then (m :: t, k) else dropHeld n t (k ++ [⟨m.part, m.peer, m.tag, m.addr⟩])

/-- Hold a message that no receive matches. -/
def State.hold (s : State) (d : Nat) (m : Message) : State :=
  s.modDie d fun x =>
    let r := dropHeld (x.held.length + 1) (x.held ++ [m]) x.lost
    { x with held := r.1, lost := r.2 }

/-- Posted receives of the package that wait for a message of this key: when posted, context and number. -/
def State.waiting (s : State) (k : RecvKey) : List (Nat × Nat × Nat) :=
  s.ctxs.flatMap fun e =>
    (e.2.col.filter fun d => d.want == some k && d.msg.isNone && !d.lost).map fun d => (d.postedAt, e.1, d.id)

/-- The oldest posting, `l` listing when each was posted, its context and its command. -/
def oldest (l : List (Nat × Nat × Nat)) : Option (Nat × Nat) :=
  (l.foldl (fun a e => match a with | some b => if e.1 < b.1 then some e else a | none => some e) (none : Option (Nat × Nat × Nat))).map
    (·.2)

/-- MESSAGE_ARRIVAL: matched to the oldest posted receive, or held in the die's buffer; a message over Ildahar shows its
sender's epoch (DESIGN CHOICE, log 107). -/
def execMessageArrival (d : DieNo) (m : Message) (s : State) : Out' :=
  let s := if m.net then s else s.seeEpoch m.peer m.epoch
  .next (match oldest (s.waiting (msgKey m)) with
    | some (c, id) => (s.modCol c id fun q => { q with msg := some m }).colSettle c
    | none => s.hold d.val m)

/-! ## Codes (23 R372) -/

/-- Length of a byte's code in a table. -/
def codeLen (t : BitVec 1024) (b : Nat) : Nat := bitsAt t.toNat (4 * b) 4

/-- Bytes whose code has length `n`, ascending. -/
def ofLen (t : BitVec 1024) (n : Nat) : List Nat := (List.range 256).filter fun b => codeLen t b == n

/-- Does the table oversubscribe the code space? -/
def oversubscribed (t : BitVec 1024) : Bool :=
  decide (2 ^ 15 < ((List.range 15).map fun i => (ofLen t (i + 1)).length * 2 ^ (15 - (i + 1))).sum)

/-- First code of length `n` (RFC 1951 3.2.2). -/
def firstCode (t : BitVec 1024) : Nat → Nat
  | 0 => 0
  | n + 1 => 2 * (firstCode t n + (if n = 0 then 0 else (ofLen t n).length))

/-- Code of a byte, most significant bit first; none when it has none. -/
def codeBits (t : BitVec 1024) (b : Nat) : Option (List Bool) :=
  let n := codeLen t b
  if n = 0 then none
  else
    let v := firstCode t n + ((ofLen t n).takeWhile (· != b)).length
    some ((List.range n).map fun i => bitAt v (n - 1 - i))

/-- Codes of all bytes. -/
def codeTable (t : BitVec 1024) : List (Option (List Bool)) := (List.range 256).map (codeBits t)

/-- Bits of a payload, or none when a byte has no code. -/
def encodeBits (k : List (Option (List Bool))) : List Byte → Option (List Bool)
  | [] => some []
  | b :: t =>
    match (k[b.toNat]?).getD none, encodeBits k t with
    | some x, some y => some (x ++ y)
    | _, _ => none

/-- Bits as bytes, filled from the least significant bit. -/
def packBits (l : List Bool) : List Byte :=
  (pieces 8 ((l.length + 7) / 8) l).map fun p => BitVec.ofNat 8 (p.foldr (fun b a => b2n b + 2 * a) 0)

/-- Bits of bytes. -/
def bitsOf (l : List Byte) : List Bool := l.flatMap fun b => (List.range 8).map b.getLsbD

/-- One level of decoding: symbols of each length with the first code, from length 1. -/
def levels (t : BitVec 1024) : List (Nat × List Nat) := (List.range 15).map fun i => (firstCode t (i + 1), ofLen t (i + 1))

/-- Outcome of decoding. -/
inductive Decoded where
  | ok (b : List Byte)
  | over_
  | short
  | bad
  deriving DecidableEq, Repr

/-- Decode one symbol: its byte and the bits left, `none` when the bits run out, `some none` when no code matches. -/
def decodeSym : List (Nat × List Nat) → Nat → List Bool → Option (Option (Nat × List Bool))
  | [], _, _ => some none
  | _, _, [] => none
  | (f, l) :: t, v, b :: bs =>
    let v := 2 * v + b2n b
    if f ≤ v ∧ v < f + l.length then some (some ((l[v - f]?).getD 0, bs)) else decodeSym t v bs

/-- Decode `n` bytes. -/
def decodeSyms (k : List (Nat × List Nat)) : Nat → List Bool → List Byte → Decoded
  | 0, bs, acc => if 8 ≤ bs.length then .over_ else .ok acc.reverse
  | n + 1, bs, acc =>
    match decodeSym k 0 bs with
    | none => .short
    | some none => .bad
    | some (some (b, bs)) => decodeSyms k n bs (BitVec.ofNat 8 b :: acc)

/-! ## Blocks (23 R371, R373, R374) -/

/-- A block coded: payload bytes, 0 when it is stored raw, and what is stored. -/
def codeBlock (slot : CxSlot) (u : List PByte) : Nat × List PByte :=
  if !slot.valid || (tagOf u).isSome then (0, u)
  else
    match encodeBits (codeTable slot.table) (u.map (·.1)) with
    | none => (0, u)
    | some b => let p := packBits b; if p.length < 4096 then (p.length, clean p) else (0, u)

/-- Header of a block: its words depend on every byte of it, so poison of any of them poisons both (01 R27). -/
def blockHeader (slot gen clen : Nat) (u : List PByte) : List PByte :=
  taggedBytes 16 (clen + slot * 2 ^ 16 + gen * 2 ^ 24 + u.length * 2 ^ 32 + (crc32c (u.map (·.1))).toNat * 2 ^ 64) (tagOf u)

/-- A header's fields. -/
structure Header_ where
  clen : Nat
  slot : Nat
  gen : Nat
  ulen : Nat
  crc : Nat
  deriving DecidableEq, Repr

/-- A header read, none when it is poisoned or a field is out of its range. -/
def readHeader (b : List PByte) : Option Header_ :=
  let v := valOf b
  if (tagOf b).isSome || bitsAt v 20 4 != 0 || bitsAt v 48 16 != 0 || bitsAt v 96 32 != 0 || bitsAt v 0 16 ≥ 4096
      || bitsAt v 32 16 = 0 || bitsAt v 32 16 > 4096 then none
  else some ⟨bitsAt v 0 16, bitsAt v 16 4, bitsAt v 24 8, bitsAt v 32 16, bitsAt v 64 32⟩

/-- Fate of a block (23 R374): its bytes, or a status under which it is poisoned. -/
inductive Fate where
  | ok (b : List PByte)
  | poison (status : Nat)
  deriving DecidableEq, Repr

/-- Expand a payload by its header; poison in it counts as a wrong crc. -/
def expandBlock (slot : CxSlot) (h : Header_) (p : List PByte) : Fate :=
  let good (b : List Byte) : Fate := if (crc32c b).toNat = h.crc then .ok (clean b) else .poison 9
  if h.clen = 0 then (if (tagOf p).isSome then .poison 9 else good (p.map (·.1)))
  else if !slot.valid || slot.gen.toNat != h.gen then .poison 10
  else if (tagOf p).isSome then .poison 9
  else
    match decodeSyms (levels slot.table) h.ulen (bitsOf (p.map (·.1))) [] with
    | .over_ => .poison 7
    | .short => .poison 8
    | .bad => .poison 9
    | .ok b => good b

/-- A table slot. -/
def State.cxslot (s : State) (n : Nat) : CxSlot := mget .zero s.fab.cxslots n

/-- In-use count of a slot (23 R372): commands run whole but a CLGO, which holds its slot from its first step on. -/
def State.cxInUse (s : State) (n : Nat) : Nat :=
  (s.ctxs.map fun e => (e.2.col.filter fun d => d.slot == some n).length).sum

/-- CXTAB_RUN (DEDUCED, log 62). -/
def execCxtabRun (c : CtxNo) (s : State) : Out' :=
  .next (match s.colHead c.val with
    | none => s
    | some d =>
      match d.op with
      | .cxtab slot gen => s.colRun c.val d do
          emNeed (d.a.toNat % 64 == 0) ⟨.align, d.a, 0, none⟩
          let t := s.cxslot slot.toNat
          if s.cxInUse slot.toNat ≠ 0 then pure 2
          else if t.valid && t.gen == gen then pure 4
          else
            let ws ← emWords (s.engine c.val) d.a 16
            let tab : BitVec 1024 := BitVec.ofNat 1024 (ws.foldr (fun w a => w + 2 ^ 64 * a) 0)
            if oversubscribed tab then pure 3
            else
              emDo fun s => s.modFab fun f =>
                { f with cxslots := mset .zero f.cxslots slot.toNat { t with gen := gen, valid := true, table := tab } }
              pure 1
      | _ => s)

/-- Alignment of the three addresses of CXPK and CXUN. -/
def ColCmd.blockAlign (d : ColCmd) : EM Unit := do
  emNeed (d.a.toNat % 4096 == 0) ⟨.align, d.a, 0, none⟩
  emNeed (d.b.toNat % 4096 == 0) ⟨.align, d.b, 0, none⟩
  emNeed (d.c.toNat % 16 == 0) ⟨.align, d.c, 0, none⟩

/-- CXPK_RUN (DEDUCED, log 62). -/
def execCxpkRun (c : CtxNo) (s : State) : Out' :=
  .next (match s.colHead c.val with
    | none => s
    | some d =>
      match d.op with
      | .cxpk slot count => s.colRun c.val d do
          let w := s.engine c.val
          d.blockAlign
          let t := s.cxslot slot.toNat
          (List.range count).forM fun i => do
            let u ← emRead w (atOff d.a (4096 * i)) 4096
            let r := codeBlock t u
            emWrite w (atOff d.b (4096 * i)) r.2
            emWrite w (atOff d.c (16 * i)) (blockHeader slot.toNat t.gen.toNat r.1 u)
          pure 1
      | _ => s)

/-- The first status that is not DONE (DEDUCED, log 61). -/
def worse (a b : Nat) : Nat := if a = 1 then b else a

/-- Unit number of the collective engine of a core's die (DEDUCED, log 55). -/
def colUnit (core : Nat) : BitVec 7 := dieUnit (dieOf core) 20

/-- Expand one block: its status (DEDUCED, log 61, 62). -/
def unpackBlock (w : Who) (src dst hdr : Word) : EM Nat := do
  let hb ← emRead w hdr 16
  match readHeader hb with
  | none => do
    let t ← emTag (colUnit w.core) dst
    emPoison w dst 4096 t
    pure 9
  | some h =>
    let s ← emGet
    let p ← emRead w src (if h.clen = 0 then h.ulen else h.clen)
    match expandBlock (s.cxslot h.slot) h p with
    | .ok b => do
      emWrite w dst b
      pure 1
    | .poison st => do
      let t ← emTag (colUnit w.core) dst
      emPoison w dst h.ulen t
      pure st

/-- The fault a block's status brings, and with it the end of the command. -/
def statusCause : Nat → Option Cause
  | 7 => some .expandSize
  | 10 => some .staleTable
  | _ => none

/-- Expand `n` blocks from block `i`: the status and the fault that stopped it (DEDUCED, log 61). -/
def unpackBlocks (w : Who) (d : ColCmd) : Nat → Nat → Nat → EM (Nat × Option Trap)
  | 0, _, st => pure (st, none)
  | n + 1, i, st => do
    let src := atOff d.a (4096 * i)
    let r ← unpackBlock w src (atOff d.b (4096 * i)) (atOff d.c (16 * i))
    match statusCause r with
    | some k => pure (r, some ⟨k, src, 0, none⟩)
    | none => unpackBlocks w d n (i + 1) (worse st r)

/-- CXUN_RUN. -/
def execCxunRun (c : CtxNo) (s : State) : Out' :=
  .next (match s.colHead c.val with
    | none => s
    | some d =>
      match d.op with
      | .cxun count =>
        let a := d.a.toNat
        let b := d.b.toNat
        let work : EM (Nat × Option Trap) := do
          d.blockAlign
          emNeed (a == b || !(decide (a < b + 4096 * count) && decide (b < a + 4096 * count))) ⟨.overlap, d.b, 0, none⟩
          unpackBlocks (s.engine c.val) d count 0 1
        match work.go s with
        | (.ok (st, none), s) => s.endCol c.val d st
        | (.ok (_, some t), s) => s.colFault c.val d t
        | (.error t, s) => s.colFault c.val d t
      | _ => s)

/-! ## Collectives (23 R375–R379) -/

/-- Payload formats of a collective. -/
inductive PFmt where
  | lane (f : Fmt)
  | mx (f : MxFmt)
  deriving DecidableEq, Repr

/-- pfmt. -/
def pfmtOf : Nat → Option PFmt
  | 4 => some (.lane .fp32)
  | 5 => some (.lane .bf16)
  | 6 => some (.lane .e4m3)
  | 7 => some (.lane .e5m2)
  | 8 => some (.mx .mxi8)
  | 9 => some (.mx .mxi6)
  | 10 => some (.mx .mxi4)
  | _ => none

/-- A collective's descriptor. -/
structure Desc where
  fmt : PFmt
  comp : Bool
  slot : Nat
  group : BitVec 16
  buffer : Word
  steps : Nat
  sched : Word
  peers : Word
  staging : Word
  deriving DecidableEq, Repr

/-- A descriptor read and checked. -/
def readDesc (w : Who) (a : Word) : EM Desc := do
  emNeed (a.toNat % 64 == 0) ⟨.align, a, 0, none⟩
  let ws ← emWords w a 8
  let g (i : Nat) : Nat := (ws[i]?).getD 0
  let v := g 0
  let bad : Trap := ⟨.illegalIndex, a, 0, none⟩
  emNeed (bitsAt v 0 4 == 1 && bitsAt v 4 4 == 0 && bitsAt v 13 3 == 0 && bitsAt v 20 12 == 0 && bitsAt v 48 16 == 0 &&
    decide (1 ≤ g 2) && decide (g 2 ≤ 4096) && g 6 == 0 && g 7 == 0) bad
  match pfmtOf (bitsAt v 8 4) with
  | none => emFail bad
  | some f =>
    let p (i n : Nat) : EM Unit := emNeed (g i % n == 0) ⟨.align, BitVec.ofNat 64 (g i), 0, none⟩
    p 1 256
    p 3 16
    p 4 16
    p 5 4096
    pure ⟨f, bitAt v 12, bitsAt v 16 4, fld v 32 16, BitVec.ofNat 64 (g 1), g 2, BitVec.ofNat 64 (g 3), BitVec.ofNat 64 (g 4),
      BitVec.ofNat 64 (g 5)⟩

/-- A step. -/
structure CStep where
  action : Nat
  key : RecvKey
  off : Nat
  len : Nat
  deriving DecidableEq, Repr

/-- Step `i` read and checked; a UET step's peer is the address its peer-table entry holds (23 R379). -/
def readStep (w : Who) (part : PartNo) (t : Desc) (i : Nat) : EM CStep := do
  let a := atOff t.sched (16 * i)
  let ws ← emWords w a 2
  let x := (ws[0]?).getD 0
  let y := (ws[1]?).getD 0
  let net := bitAt x 8
  let port := bitsAt x 4 4
  let off := bitsAt y 0 32
  let len := bitsAt y 32 32
  emNeed (decide (1 ≤ bitsAt x 0 4) && decide (bitsAt x 0 4 ≤ 3) && bitsAt x 9 7 == 0 && bitsAt x 44 20 == 0 &&
    off % 128 == 0 && len % 128 == 0 && decide (len ≤ 2 ^ 24) &&
    (!net || (t.peers != 0 && port / 2 == dieOf w.core))) ⟨.illegalIndex, a, 0, none⟩
  let peer ← if net then emWords w (atOff t.peers (16 * bitsAt x 16 16)) 2 else pure []
  let addr := peer.foldr (fun v a => v + 2 ^ 64 * a) 0
  pure ⟨bitsAt x 0 4, ⟨net, fld x 4 4, if net then 0 else fld x 16 16, part, fld x 32 12, BitVec.ofNat 128 addr⟩, off, len⟩

/-- Bytes of a payload of `n` elements. -/
def PFmt.size (f : PFmt) (n : Nat) : Nat :=
  match f with
  | .lane f => n * (f.bits / 8)
  | .mx f => n / 32 * (4 * f.bits + 1)

/-- Quantise a chunk of FP32 elements (01 R24 step 3): each MX block's codes are followed by its scale (DEDUCED, log
63). -/
def PFmt.encode_ (f : PFmt) (l : List El) : List PByte :=
  match f with
  | .lane f => elBytes (f.bits / 8) (elMap (fun x => if f = .fp32 then x else convert .fp32 f .rne true x) l)
  | .mx f => (pieces 32 (l.length / 32) l).flatMap fun b =>
      let r := f.encodeBlock .rne (fvs b)
      taggedBytes (4 * f.bits) (packCodes f.bits r.2) (elTag b) ++ taggedBytes 1 r.1 (elTag b)

/-- Decode a payload exactly to FP32. -/
def PFmt.decode_ (f : PFmt) (n : Nat) (b : List PByte) : List El :=
  match f with
  | .lane f => elMap (fun x => if f = .fp32 then x else convert f .fp32 .rne false x) (elems (f.bits / 8) n b)
  | .mx f => (pieces (4 * f.bits + 1) (n / 32) b).flatMap fun p =>
      let codes := p.take (4 * f.bits)
      let sc := p.drop (4 * f.bits)
      (unpack f (valOf codes)).zipIdx.map fun e =>
        (f.decodeTo .fp32 e.1 (valOf sc),
         tmeet (tagOf ((codes.drop (f.bits * e.2 / 8)).take ((f.bits * e.2 % 8 + f.bits + 7) / 8))) (tagOf sc))

/-- A payload compressed: the headers of its blocks, then what is stored of each (DEDUCED, log 63). -/
def pack (slotNo : Nat) (slot : CxSlot) (b : List PByte) : List PByte :=
  let r := (pieces 4096 ((b.length + 4095) / 4096) b).map fun u => (u, codeBlock slot u)
  (r.flatMap fun e => blockHeader slotNo slot.gen.toNat e.2.1 e.1) ++ r.flatMap fun e => e.2.2

/-- Expand the blocks of a message: `u` bytes are left to produce, `hs` the headers left, `ps` the payloads left. Answers
the bytes, the status of the first block that was not DONE, and the fault that stopped it. A block that is poisoned has
poisoned bytes (DEDUCED, log 63). -/
def unpackMsg (slots : Nat → CxSlot) (tag : Tag) : Nat → Nat → List PByte → List PByte → List PByte × Nat × Option Cause
  | 0, _, _, _ => ([], 1, none)
  | k + 1, u, hs, ps =>
    let n := min u 4096
    let dead := List.replicate n ((0 : Byte), some tag)
    let r : List PByte × Nat × Nat :=
      match readHeader (hs.take 16) with
      | none => (dead, 9, n)
      | some h =>
        let m := if h.clen = 0 then h.ulen else h.clen
        if h.ulen ≠ n then (dead, 9, m)
        else match expandBlock (slots h.slot) h (ps.take m) with | .ok b => (b, 1, m) | .poison st => (dead, st, m)
    match statusCause r.2.1 with
    | some q => (r.1 ++ List.replicate (u - n) ((0 : Byte), some tag), r.2.1, some q)
    | none =>
      let t := unpackMsg slots tag k (u - n) (hs.drop 16) (ps.drop r.2.2)
      (r.1 ++ t.1, worse r.2.1 t.2.1, t.2.2)

/-- Does a compressed message have the length its headers ask for? (DEDUCED, log 63). -/
def packedLen (n : Nat) (m : List PByte) : Bool :=
  let k := (n + 4095) / 4096
  let sizes := (pieces 16 k (m.take (16 * k))).map fun h =>
    match readHeader h with | some h => if h.clen = 0 then h.ulen else h.clen | none => 0
  decide (16 * k ≤ m.length) && (((pieces 16 k (m.take (16 * k))).any fun h => (readHeader h).isNone) || m.length == 16 * k + sizes.sum)

/-- Where a CLGO stands (DEDUCED, log 46). -/
def clgoNow (c : Nat) (d : ColCmd) : EM (Desc × CStep) := do
  let s ← emGet
  let w := s.engine c
  let t ← readDesc w d.a
  emNeed (!t.comp || s.slotOwned c t.slot) ⟨.protect, BitVec.ofNat 64 t.slot, 0, none⟩
  let p ← readStep w (s.partNo c) t d.step
  pure (t, p)

/-- Has an expansion stopped the command? -/
def stepFault (k : Option Cause) (va : Word) : EM Unit :=
  match k with
  | some q => emFail ⟨q, va, 0, none⟩
  | none => pure ()

/-- The data of a receive step, expanded and decoded: `none` after a size mismatch, when no more than a message of the right
length has been staged (23 R368, R377). -/
def stepData (w : Who) (t : Desc) (p : CStep) (m : Message) : EM (Option (List El) × Nat) := do
  let n := p.len / 4
  let u := t.fmt.size n
  let b := msgBytes m
  let room := if t.comp then u + 16 * ((u + 4095) / 4096) else u
  emWrite w t.staging (b.take room)
  if t.comp then
    if !packedLen u b then pure (none, 5)
    else
      let s ← emGet
      let k := (u + 4095) / 4096
      let tag := (s.newPoison (colUnit w.core) t.staging).2
      let r := unpackMsg s.cxslot tag k u (b.take (16 * k)) (b.drop (16 * k))
      if r.2.1 ≠ 1 then emDo fun s => (s.newPoison (colUnit w.core) t.staging).1
      stepFault r.2.2 t.staging
      pure (some (t.fmt.decode_ n r.1), r.2.1)
  else if b.length ≠ u then pure (none, 5)
  else pure (some (t.fmt.decode_ n b), 1)

/-- Carry out a receive step that has its message: its status. -/
def stepRecv (w : Who) (t : Desc) (p : CStep) (m : Message) : EM Nat := do
  let at_ := atOff t.buffer p.off
  let r ← stepData w t p m
  match r.1 with
  | none => do
    let g ← emTag (dieUnit p.key.die 21) at_
    emPoison w t.staging (t.fmt.size (p.len / 4)) g
    emPoison w at_ p.len g
    pure r.2
  | some l =>
    if p.action = 2 then do
      let old ← emVec w at_ 4 (p.len / 4)
      emWrite w at_ (elBytes 4 (elZip (Fmt.fp32.fadd .rne) old l))
    else emWrite w at_ (elBytes 4 l)
    pure r.2

/-- A step is finished with a status: the next, or the end of the command. -/
def State.stepDone (s : State) (c : Nat) (d : ColCmd) (t : Desc) (st : Nat) : State :=
  let bad := if d.bad = 0 ∧ st ≠ 1 then st else d.bad
  if t.steps ≤ d.step + 1 then s.endCol c d (if bad = 0 then 1 else bad)
  else s.modCol c d.id fun q => { q with step := d.step + 1, bad := bad, want := none, msg := none, lost := false }

/-- A SEND step. -/
def State.stepSend (s : State) (c : Nat) (d : ColCmd) (t : Desc) (p : CStep) : State :=
  let w := s.engine c
  let m : EM Unit := do
    let l ← emVec w (atOff t.buffer p.off) 4 (p.len / 4)
    let b := t.fmt.encode_ l
    let s ← emGet
    let b := if t.comp then pack t.slot (s.cxslot t.slot) b else b
    emDo fun s => s.send c p.key b
  match m.go s with
  | (.error f, s) => s.colFault c d f
  | (.ok _, s) => s.stepDone c d t 1

/-- A receive step: post it, then finish it once it has its message. -/
def State.stepGet (s : State) (c : Nat) (d : ColCmd) (t : Desc) (p : CStep) : State :=
  let s := if d.want.isSome then s else s.post_ c d.id p.key
  match (s.ctx c).col.find? fun q => q.id == d.id with
  | none => s
  | some d =>
    if d.lost then s.stepDone c d t 6
    else
      match d.msg with
      | none => s
      | some m =>
        match (stepRecv (s.engine c) t p m).go s with
        | (.error f, s) => s.colFault c d f
        | (.ok st, s) => s.stepDone c d t st

/-- Work on the current step of a CLGO at the head of its context's commands when its action is `action`. Nothing runs in
steps in reduced service (23 R378). -/
def State.clgoStep (s : State) (c action : Nat) : State :=
  match s.colHead c with
  | none => s
  | some d =>
    if d.op ≠ .clgo ∨ s.mgmt.svc = 1 then s
    else
      match (clgoNow c d).go s with
      | (.error f, s') => s'.colFault c d f
      | (.ok (t, p), s') =>
        if p.action ≠ action then s
        else
          let d := { d with slot := if t.comp then some t.slot else none }
          let s' := s'.modCol c d.id fun _ => d
          if action = 1 then s'.stepSend c d t p else s'.stepGet c d t p

/-- CLGO_SEND. -/
def execClgoSend (c : CtxNo) (s : State) : Out' := .next (s.clgoStep c.val 1)
/-- CLGO_RECVADD. -/
def execClgoRecvadd (c : CtxNo) (s : State) : Out' := .next (s.clgoStep c.val 2)
/-- CLGO_RECV. -/
def execClgoRecv (c : CtxNo) (s : State) : Out' := .next (s.clgoStep c.val 3)

/-! ## Reduced service (23 R378) -/

/-- The payload format in reduced service: MX formats are sent as BF16. -/
def PFmt.reduced : PFmt → Fmt
  | .lane f => f
  | .mx _ => .bf16

/-- Insert a member by ascending switch port. -/
def insertMember (m : Member) : List Member → List Member
  | [] => [m]
  | a :: t => if m.port < a.port then m :: a :: t else a :: insertMember m t

/-- A member's contribution decoded exactly to FP32, with its poison. -/
def memberVals (m : Member) : List El :=
  (m.values.zipIdx).map fun e =>
    (if m.fmt = .fp32 then e.1.toNat else convert m.fmt .fp32 .rne false (e.1.toNat % 2 ^ m.fmt.bits),
     (m.poison.find? fun p => p.1 == e.2).map (·.2))

/-- The switch's sum: from the lowest port on, RNE, every member's poison in it (01 R27) (DESIGN CHOICE, log 64). -/
def switchSum : List Member → List El
  | [] => []
  | m :: t => t.foldl (fun a m => elZip (Fmt.fp32.fadd .rne) a (memberVals m)) (memberVals m)

/-- The work of a collective in reduced service. `members` holds every member's contribution; the buffer is as long as
each is. Answers false when no member's contribution is this package's (DESIGN CHOICE, log 64). -/
def reduceWork (c : Nat) (d : ColCmd) (members : List Member) : EM Bool := do
  let s ← emGet
  let w := s.engine c
  let t ← readDesc w d.a
  let f := t.fmt.reduced
  let n := (members.head?.map fun m => m.values.length).getD 0
  let l ← emVec w t.buffer 4 n
  let mine : List W32 := l.map fun e => BitVec.ofNat 32 (if f = .fp32 then e.1 else convert .fp32 f .rne true e.1)
  let bad : SMap Tag := (l.zipIdx).filterMap fun e => e.1.2.map fun t => (e.2, t)
  if (members.any fun m => m.fmt == f && m.values == mine && m.poison == bad) && members.all fun m => m.values.length == n then do
    emDo fun s => s.emit (.reduce t.group f mine bad)
    emWrite w t.buffer (elBytes 4 (switchSum (members.foldr insertMember [])))
    pure true
  else pure false

/-- SWITCH_REDUCTION: the switch returns the sum of the members' contributions to a collective in reduced service
(DESIGN CHOICE, log 64). -/
def execSwitchReduction (c : CtxNo) (members : List Member) (s : State) : Out' :=
  .next (match s.colHead c.val with
    | none => s
    | some d =>
      if d.op ≠ .clgo ∨ s.mgmt.svc ≠ 1 then s
      else
        match (reduceWork c.val d members).go s with
        | (.error f, s) => s.colFault c.val d f
        | (.ok true, s) => s.endCol c.val d 1
        | (.ok false, _) => s)

end Sys2Proof.Machine
end

