-- ==== Sys2Proof/Machine/Scalar.lean ====
section
/-! DEFINITION. The S-slot instructions (04). -/

namespace Sys2Proof.Machine

open Sys2Proof

/-! ## Integer arithmetic (04 R101, R102) -/

/-- ADD. -/
def slotAdd (o : SRArgs) : SlotM := sOp2p 1 o.d o.a o.b (fun a b => a + b) predAdd

/-- ADDI. -/
def slotAddi (o : SIArgs) : SlotM := fun e s =>
  let a := (s.ctx e.c).sreg o.a
  let i : Word := o.imm.signExtend 64
  sPred e 1 o.d (a.v + i) (predAdd a.v i a.r (residue i)) a.p

/-- SUB. -/
def slotSub (o : SRArgs) : SlotM := sOp2p 1 o.d o.a o.b (fun a b => a - b) predSub

/-- Tick a multiply lands after on B1 (25 R389). -/
def mulLat (s : State) (c : Nat) : Nat := if (s.ctx c).mulPrev then 3 else 2

/-- MUL (DEDUCED, log 7). -/
def slotMul (o : SRArgs) : SlotM := fun e s => sOp2p (mulLat s e.c) o.d o.a o.b (fun a b => a * b) predMul e s

/-- MULH. -/
def slotMulh (o : SRArgs) : SlotM := fun e s =>
  sOp2 (mulLat s e.c) o.d o.a o.b (fun a b => BitVec.ofInt 64 (a.toInt * b.toInt / 2 ^ 64)) e s

/-- MULHU. -/
def slotMulhu (o : SRArgs) : SlotM := fun e s =>
  sOp2 (mulLat s e.c) o.d o.a o.b (fun a b => BitVec.ofNat 64 (a.toNat * b.toNat / 2 ^ 64)) e s

/-- Signed quotient and remainder (04 R102). -/
def divSigned (n m : Word) : Word × Word :=
  if m = 0 then (BitVec.allOnes 64, n)
  else (BitVec.ofInt 64 (n.toInt.tdiv m.toInt), BitVec.ofInt 64 (n.toInt.tmod m.toInt))

/-- Unsigned quotient and remainder (04 R102). -/
def divUnsigned (n m : Word) : Word × Word :=
  if m = 0 then (BitVec.allOnes 64, n) else (BitVec.ofNat 64 (n.toNat / m.toNat), BitVec.ofNat 64 (n.toNat % m.toNat))

/-- DIV. -/
def slotDiv (o : SRArgs) : SlotM := sOp2 34 o.d o.a o.b fun a b => (divSigned a b).1
/-- DIVU. -/
def slotDivu (o : SRArgs) : SlotM := sOp2 34 o.d o.a o.b fun a b => (divUnsigned a b).1
/-- REM. -/
def slotRem (o : SRArgs) : SlotM := sOp2 34 o.d o.a o.b fun a b => (divSigned a b).2
/-- REMU. -/
def slotRemu (o : SRArgs) : SlotM := sOp2 34 o.d o.a o.b fun a b => (divUnsigned a b).2

/-- MIN. -/
def slotMin (o : SRArgs) : SlotM := sOp2 1 o.d o.a o.b fun a b => if b.slt a then b else a
/-- MAX. -/
def slotMax (o : SRArgs) : SlotM := sOp2 1 o.d o.a o.b fun a b => if a.slt b then b else a
/-- MINU. -/
def slotMinu (o : SRArgs) : SlotM := sOp2 1 o.d o.a o.b fun a b => if b.ult a then b else a
/-- MAXU. -/
def slotMaxu (o : SRArgs) : SlotM := sOp2 1 o.d o.a o.b fun a b => if a.ult b then b else a
/-- ABS. -/
def slotAbs (o : SUnArgs) : SlotM := sOp1 1 o.d o.a fun a => if a.slt 0 then 0 - a else a

/-! ## Logic and shifts (04 R103): counts are taken modulo 64 -/

/-- The count of a shift by a register. -/
def shiftCount (b : Word) : Nat := b.toNat % 64

/-- AND. -/
def slotAnd (o : SRArgs) : SlotM := sOp2 1 o.d o.a o.b fun a b => a &&& b
/-- ANDI. -/
def slotAndi (o : SIArgs) : SlotM := sOp1 1 o.d o.a fun a => a &&& o.imm.setWidth 64
/-- OR. -/
def slotOr (o : SRArgs) : SlotM := sOp2 1 o.d o.a o.b fun a b => a ||| b
/-- ORI. -/
def slotOri (o : SIArgs) : SlotM := sOp1 1 o.d o.a fun a => a ||| o.imm.setWidth 64
/-- XOR. -/
def slotXor (o : SRArgs) : SlotM := sOp2 1 o.d o.a o.b fun a b => a ^^^ b
/-- XORI. -/
def slotXori (o : SIArgs) : SlotM := sOp1 1 o.d o.a fun a => a ^^^ o.imm.setWidth 64
/-- SHL. -/
def slotShl (o : SRArgs) : SlotM :=
  sOp2p 1 o.d o.a o.b (fun a b => a <<< shiftCount b) fun a b ra _ => predShl a (shiftCount b) ra
/-- SHR. -/
def slotShr (o : SRArgs) : SlotM := sOp2 1 o.d o.a o.b fun a b => a >>> shiftCount b
/-- SAR. -/
def slotSar (o : SRArgs) : SlotM := sOp2 1 o.d o.a o.b fun a b => a.sshiftRight (shiftCount b)
/-- SHLI. -/
def slotShli (o : SShArgs) : SlotM := fun e s =>
  let a := (s.ctx e.c).sreg o.a
  sPred e 1 o.d (a.v <<< o.n.toNat) (predShl a.v o.n.toNat a.r) a.p
/-- SHRI. -/
def slotShri (o : SShArgs) : SlotM := sOp1 1 o.d o.a fun a => a >>> o.n.toNat
/-- SARI. -/
def slotSari (o : SShArgs) : SlotM := sOp1 1 o.d o.a fun a => a.sshiftRight o.n.toNat
/-- ROL. -/
def slotRol (o : SRArgs) : SlotM := sOp2 1 o.d o.a o.b fun a b => a.rotateLeft (shiftCount b)
/-- ROR. -/
def slotRor (o : SRArgs) : SlotM := sOp2 1 o.d o.a o.b fun a b => a.rotateRight (shiftCount b)

/-! ## Extension, counting and fields (04 R104) -/

/-- SEXT. -/
def slotSext (o : ExtArgs) : SlotM := sOp1 1 o.d o.a fun a => BitVec.ofInt 64 (signedOf o.size.bits a.toNat)
/-- ZEXT. -/
def slotZext (o : ExtArgs) : SlotM := sOp1 1 o.d o.a fun a => BitVec.ofNat 64 (bitsAt a.toNat 0 o.size.bits)

/-- Trailing zero bits of a number, at most `n`. -/
def trailing : Nat → Nat → Nat
  | 0, _ => 0
  | n + 1, x => if x % 2 = 1 then 0 else 1 + trailing n (x / 2)

/-- One bits among the low `n` bits. -/
def ones : Nat → Nat → Nat
  | 0, _ => 0
  | n + 1, x => x % 2 + ones n (x / 2)

/-- CLZ. -/
def slotClz (o : SUnArgs) : SlotM := sOp1 1 o.d o.a fun a => BitVec.ofNat 64 (64 - bitLen a.toNat)
/-- CTZ. -/
def slotCtz (o : SUnArgs) : SlotM := sOp1 1 o.d o.a fun a => BitVec.ofNat 64 (trailing 64 a.toNat)
/-- POPC. -/
def slotPopc (o : SUnArgs) : SlotM := sOp1 1 o.d o.a fun a => BitVec.ofNat 64 (ones 64 a.toNat)

/-- BEXT. -/
def slotBext (o : BextArgs) : SlotM := sOp1 1 o.d o.a fun a =>
  let n := o.len1.toNat + 1
  let v := bitsAt a.toNat o.bit.toNat n
  if o.signed then BitVec.ofInt 64 (signedOf n v) else BitVec.ofNat 64 v

/-- BINS: it reads its destination. -/
def slotBins (o : BinsArgs) : SlotM :=
  sOp2 1 o.d o.a o.d fun a d => BitVec.ofNat 64 (putBits d.toNat o.bit.toNat (o.len1.toNat + 1) a.toNat)

/-! ## Moves, selection, address arithmetic (04 R105, R106) -/

/-- MOVI. -/
def slotMovi (o : MovArgs) : SlotM := fun e _ => sRes e 1 o.d (o.imm.setWidth 64 <<< (16 * o.hw.toNat)) none

/-- MOVK: it reads its destination. -/
def slotMovk (o : MovArgs) : SlotM := fun e s =>
  let d := (s.ctx e.c).sreg o.d
  sPred e 1 o.d (BitVec.ofNat 64 (putBits d.v.toNat (16 * o.hw.toNat) 16 o.imm.toNat))
    (predMovk (bitsAt d.v.toNat (16 * o.hw.toNat) 16) o.imm.toNat d.r) d.p

/-- SELP: the register not selected is not consumed; under a poisoned predicate its bit selects (DESIGN CHOICE, log 114). -/
def slotSelp (o : SelpArgs) : SlotM := fun e s =>
  let x := s.ctx e.c
  let n := x.preg o.n
  let r := x.sreg (if n.v then o.a else o.b)
  sRes e 1 o.d r.v (pmeet n.p r.p)

/-- LEA. -/
def slotLea (o : LeaArgs) : SlotM :=
  sOp2p 1 o.d o.a o.b (fun a b => a + b <<< o.sh.toNat) fun a b ra rb => predLea a b o.sh.toNat ra rb

/-- PMOV. -/
def slotPmov (o : PmovArgs) : SlotM := fun e s =>
  let x := s.ctx e.c
  let ps := (List.range 8).map fun i => x.preg (BitVec.ofNat 3 i)
  sRes e 1 o.d (BitVec.ofNat 64 ((ps.zipIdx.map fun r => b2n r.1.v * 2 ^ r.2).sum)) (pmeets (ps.map (·.p)))

/-- PSET. -/
def slotPset (o : PsetArgs) : SlotM := fun e s =>
  let a := (s.ctx e.c).sreg o.a
  pRes e 1 o.pd (a.v.getLsbD o.bit.toNat) a.p

/-! ## Comparisons (04 R107, R109) -/

/-- CMP.cc. -/
def slotCmpCc (o : CmpArgs) : SlotM := fun e s =>
  let a := (s.ctx e.c).sreg o.a
  let b := (s.ctx e.c).sreg o.b
  pRes e 1 o.pd (o.cc.test a.v b.v) (pmeet a.p b.p)

/-- CMPI.cc. -/
def slotCmpiCc (o : CmpiArgs) : SlotM := fun e s =>
  let a := (s.ctx e.c).sreg o.a
  pRes e 1 o.pd (o.cc.test a.v (o.imm.signExtend 64)) a.p

/-- The FP32 operand of a register. -/
def fp32Of (a : Word) : Nat := bitsAt a.toNat 0 32

/-- FCMP.cc. -/
def slotFcmpCc (o : SFcmpArgs) : SlotM := fun e s =>
  let a := (s.ctx e.c).sreg o.a
  let b := (s.ctx e.c).sreg o.b
  pRes e 2 o.pd (o.cc.test (Fmt.fp32.decode (fp32Of a.v)) (Fmt.fp32.decode (fp32Of b.v))) (pmeet a.p b.p)

/-! ## Floating point and conversion (04 R108, R110, R111) -/

/-- FADD.S. -/
def slotFaddS (o : SFpArgs) : SlotM :=
  sOp2 3 o.d o.a o.b fun a b => BitVec.ofNat 64 (Fmt.fp32.fadd o.rnd (fp32Of a) (fp32Of b))
/-- FMUL.S. -/
def slotFmulS (o : SFpArgs) : SlotM :=
  sOp2 3 o.d o.a o.b fun a b => BitVec.ofNat 64 (Fmt.fp32.fmul o.rnd (fp32Of a) (fp32Of b))
/-- FFMA.S: it reads its destination. -/
def slotFfmaS (o : SFpArgs) : SlotM := fun e s =>
  let x := s.ctx e.c
  let a := x.sreg o.a
  let b := x.sreg o.b
  let d := x.sreg o.d
  sRes e 4 o.d (BitVec.ofNat 64 (Fmt.fp32.ffma o.rnd (fp32Of a.v) (fp32Of b.v) (fp32Of d.v))) (pmeets [a.p, b.p, d.p])

/-- A converted value in a scalar register: sign-extended for In, zero-extended for U8 and floating formats. -/
def scalarOf (f : Fmt) (v : Nat) : Word := if f.isSignedInt then BitVec.ofInt 64 (signedOf f.bits v) else BitVec.ofNat 64 v

/-- FCVT. -/
def slotFcvt (o : SFcvtArgs) : SlotM :=
  sOp1 3 o.d o.a fun a => scalarOf o.to_ (convert o.from_ o.to_ o.rnd o.sat (bitsAt a.toNat 0 o.from_.bits))

/-- The key of a weight (04 R111). -/
def packKey (f32 : Bool) (w : Nat) : Nat :=
  if !f32 then w
  else if (Fmt.fp32.decode w).isNan then 0xFFFFFFFF
  else if w / 2 ^ 31 = 0 then w + 2 ^ 31
  else 2 ^ 32 - 1 - w

/-- PACKWE. -/
def slotPackwe (o : PackweArgs) : SlotM :=
  sOp2 1 o.d o.a o.b fun a b => BitVec.ofNat 64 (packKey o.f32 (bitsAt a.toNat 0 32) * 2 ^ 32 + bitsAt b.toNat 0 32)

/-! ## Issued alone: the meaning the opcode table's row has as an instruction of its own -/

/-- add issued alone. -/
def execAdd (o : SRArgs) (s : State) : Out' := execSlot (slotAdd o) o.pos.slot (.add o) s
/-- addi issued alone. -/
def execAddi (o : SIArgs) (s : State) : Out' := execSlot (slotAddi o) o.pos.slot (.addi o) s
/-- sub issued alone. -/
def execSub (o : SRArgs) (s : State) : Out' := execSlot (slotSub o) o.pos.slot (.sub o) s
/-- mul issued alone. -/
def execMul (o : SRArgs) (s : State) : Out' := execSlot (slotMul o) o.pos.slot (.mul o) s
/-- mulh issued alone. -/
def execMulh (o : SRArgs) (s : State) : Out' := execSlot (slotMulh o) o.pos.slot (.mulh o) s
/-- mulhu issued alone. -/
def execMulhu (o : SRArgs) (s : State) : Out' := execSlot (slotMulhu o) o.pos.slot (.mulhu o) s
/-- div issued alone. -/
def execDiv (o : SRArgs) (s : State) : Out' := execSlot (slotDiv o) o.pos.slot (.div o) s
/-- divu issued alone. -/
def execDivu (o : SRArgs) (s : State) : Out' := execSlot (slotDivu o) o.pos.slot (.divu o) s
/-- rem issued alone. -/
def execRem (o : SRArgs) (s : State) : Out' := execSlot (slotRem o) o.pos.slot (.rem o) s
/-- remu issued alone. -/
def execRemu (o : SRArgs) (s : State) : Out' := execSlot (slotRemu o) o.pos.slot (.remu o) s
/-- min issued alone. -/
def execMin (o : SRArgs) (s : State) : Out' := execSlot (slotMin o) o.pos.slot (.min o) s
/-- max issued alone. -/
def execMax (o : SRArgs) (s : State) : Out' := execSlot (slotMax o) o.pos.slot (.max o) s
/-- minu issued alone. -/
def execMinu (o : SRArgs) (s : State) : Out' := execSlot (slotMinu o) o.pos.slot (.minu o) s
/-- maxu issued alone. -/
def execMaxu (o : SRArgs) (s : State) : Out' := execSlot (slotMaxu o) o.pos.slot (.maxu o) s
/-- abs issued alone. -/
def execAbs (o : SUnArgs) (s : State) : Out' := execSlot (slotAbs o) o.pos.slot (.abs o) s
/-- and issued alone. -/
def execAnd (o : SRArgs) (s : State) : Out' := execSlot (slotAnd o) o.pos.slot (.and o) s
/-- andi issued alone. -/
def execAndi (o : SIArgs) (s : State) : Out' := execSlot (slotAndi o) o.pos.slot (.andi o) s
/-- or issued alone. -/
def execOr (o : SRArgs) (s : State) : Out' := execSlot (slotOr o) o.pos.slot (.or o) s
/-- ori issued alone. -/
def execOri (o : SIArgs) (s : State) : Out' := execSlot (slotOri o) o.pos.slot (.ori o) s
/-- xor issued alone. -/
def execXor (o : SRArgs) (s : State) : Out' := execSlot (slotXor o) o.pos.slot (.xor o) s
/-- xori issued alone. -/
def execXori (o : SIArgs) (s : State) : Out' := execSlot (slotXori o) o.pos.slot (.xori o) s
/-- shl issued alone. -/
def execShl (o : SRArgs) (s : State) : Out' := execSlot (slotShl o) o.pos.slot (.shl o) s
/-- shr issued alone. -/
def execShr (o : SRArgs) (s : State) : Out' := execSlot (slotShr o) o.pos.slot (.shr o) s
/-- sar issued alone. -/
def execSar (o : SRArgs) (s : State) : Out' := execSlot (slotSar o) o.pos.slot (.sar o) s
/-- shli issued alone. -/
def execShli (o : SShArgs) (s : State) : Out' := execSlot (slotShli o) o.pos.slot (.shli o) s
/-- shri issued alone. -/
def execShri (o : SShArgs) (s : State) : Out' := execSlot (slotShri o) o.pos.slot (.shri o) s
/-- sari issued alone. -/
def execSari (o : SShArgs) (s : State) : Out' := execSlot (slotSari o) o.pos.slot (.sari o) s
/-- rol issued alone. -/
def execRol (o : SRArgs) (s : State) : Out' := execSlot (slotRol o) o.pos.slot (.rol o) s
/-- ror issued alone. -/
def execRor (o : SRArgs) (s : State) : Out' := execSlot (slotRor o) o.pos.slot (.ror o) s
/-- sext issued alone. -/
def execSext (o : ExtArgs) (s : State) : Out' := execSlot (slotSext o) o.pos.slot (.sext o) s
/-- zext issued alone. -/
def execZext (o : ExtArgs) (s : State) : Out' := execSlot (slotZext o) o.pos.slot (.zext o) s
/-- clz issued alone. -/
def execClz (o : SUnArgs) (s : State) : Out' := execSlot (slotClz o) o.pos.slot (.clz o) s
/-- ctz issued alone. -/
def execCtz (o : SUnArgs) (s : State) : Out' := execSlot (slotCtz o) o.pos.slot (.ctz o) s
/-- popc issued alone. -/
def execPopc (o : SUnArgs) (s : State) : Out' := execSlot (slotPopc o) o.pos.slot (.popc o) s
/-- bext issued alone. -/
def execBext (o : BextArgs) (s : State) : Out' := execSlot (slotBext o) o.pos.slot (.bext o) s
/-- bins issued alone. -/
def execBins (o : BinsArgs) (s : State) : Out' := execSlot (slotBins o) o.pos.slot (.bins o) s
/-- movi issued alone. -/
def execMovi (o : MovArgs) (s : State) : Out' := execSlot (slotMovi o) o.pos.slot (.movi o) s
/-- movk issued alone. -/
def execMovk (o : MovArgs) (s : State) : Out' := execSlot (slotMovk o) o.pos.slot (.movk o) s
/-- selp issued alone. -/
def execSelp (o : SelpArgs) (s : State) : Out' := execSlot (slotSelp o) o.pos.slot (.selp o) s
/-- lea issued alone. -/
def execLea (o : LeaArgs) (s : State) : Out' := execSlot (slotLea o) o.pos.slot (.lea o) s
/-- pmov issued alone. -/
def execPmov (o : PmovArgs) (s : State) : Out' := execSlot (slotPmov o) o.pos.slot (.pmov o) s
/-- pset issued alone. -/
def execPset (o : PsetArgs) (s : State) : Out' := execSlot (slotPset o) o.pos.slot (.pset o) s
/-- cmpCc issued alone. -/
def execCmpCc (o : CmpArgs) (s : State) : Out' := execSlot (slotCmpCc o) o.pos.slot (.cmpCc o) s
/-- cmpiCc issued alone. -/
def execCmpiCc (o : CmpiArgs) (s : State) : Out' := execSlot (slotCmpiCc o) o.pos.slot (.cmpiCc o) s
/-- fcmpCc issued alone. -/
def execFcmpCc (o : SFcmpArgs) (s : State) : Out' := execSlot (slotFcmpCc o) o.pos.slot (.fcmpCc o) s
/-- faddS issued alone. -/
def execFaddS (o : SFpArgs) (s : State) : Out' := execSlot (slotFaddS o) o.pos.slot (.faddS o) s
/-- fmulS issued alone. -/
def execFmulS (o : SFpArgs) (s : State) : Out' := execSlot (slotFmulS o) o.pos.slot (.fmulS o) s
/-- ffmaS issued alone. -/
def execFfmaS (o : SFpArgs) (s : State) : Out' := execSlot (slotFfmaS o) o.pos.slot (.ffmaS o) s
/-- fcvt issued alone. -/
def execFcvt (o : SFcvtArgs) (s : State) : Out' := execSlot (slotFcvt o) o.pos.slot (.fcvt o) s
/-- packwe issued alone. -/
def execPackwe (o : PackweArgs) (s : State) : Out' := execSlot (slotPackwe o) o.pos.slot (.packwe o) s

end Sys2Proof.Machine
end

