-- ==== Sys2Proof/Machine/Vector.lean ====
section
/-! DEFINITION. The V-slot instructions (05 R119–R127). -/

namespace Sys2Proof.Machine

open Sys2Proof

/-! ## Integer elementwise (05 R119): bound 2 -/

/-- An integer operation on lane values, wrapped or clamped. -/
def vInt (o : VIntArgs) (f : Int → Int → Int) : SlotM :=
  vMap2 2 o.vg o.vd o.va o.b o.fmt fun a b => o.fmt.intFit o.sat (f (o.fmt.intOf a) (o.fmt.intOf b))

/-- A bit operation on lanes. -/
def vBits (o : VIntArgs) (f : Nat → Nat → Nat) : SlotM := vMap2 2 o.vg o.vd o.va o.b o.fmt f

/-- VADD. -/
def slotVadd (o : VIntArgs) : SlotM := vInt o fun a b => a + b
/-- VSUB. -/
def slotVsub (o : VIntArgs) : SlotM := vInt o fun a b => a - b
/-- VMUL. -/
def slotVmul (o : VIntArgs) : SlotM := vInt o fun a b => a * b
/-- VMULH: the upper half of the exact product. -/
def slotVmulh (o : VIntArgs) : SlotM :=
  vBits o fun a b => wrapInt o.fmt.bits (o.fmt.intOf a * o.fmt.intOf b / 2 ^ o.fmt.bits)
/-- VMIN. -/
def slotVmin (o : VIntArgs) : SlotM := vInt o fun a b => if b < a then b else a
/-- VMAX. -/
def slotVmax (o : VIntArgs) : SlotM := vInt o fun a b => if a < b then b else a
/-- VABS. -/
def slotVabs (o : VAbsArgs) : SlotM :=
  vMap1 2 o.vg o.vd o.va o.fmt fun a => o.fmt.intFit o.sat (o.fmt.intOf a).natAbs
/-- VAND. -/
def slotVand (o : VIntArgs) : SlotM := vBits o fun a b => a &&& b
/-- VOR. -/
def slotVor (o : VIntArgs) : SlotM := vBits o fun a b => a ||| b
/-- VXOR. -/
def slotVxor (o : VIntArgs) : SlotM := vBits o fun a b => a ^^^ b
/-- VSHL. -/
def slotVshl (o : VIntArgs) : SlotM := vBits o fun a b => a * 2 ^ (b % o.fmt.bits)
/-- VSHR. -/
def slotVshr (o : VIntArgs) : SlotM := vBits o fun a b => a / 2 ^ (b % o.fmt.bits)
/-- VSAR: for U8 logical. -/
def slotVsar (o : VIntArgs) : SlotM :=
  vBits o fun a b => wrapInt o.fmt.bits (o.fmt.intOf a / (2 ^ (b % o.fmt.bits) : Nat))

/-! ## Comparison, selection, constants (05 R120): bound 2 -/

/-- VCMP.cc. -/
def slotVcmpCc (o : VCmpArgs) : SlotM := vTest 2 o.vg o.qd o.va o.b o.fmt fun a b => o.cc.testFmt o.fmt a b

/-- VSEL: every lane written; the source lane not selected is not consumed. -/
def slotVsel (o : VTwoArgs) : SlotM := fun e s =>
  let x := s.ctx e.c
  let w := o.fmt.bytes
  let q := x.qreg o.vg.q
  let la := x.lanesOf o.va w
  let lb := x.lanesOf o.vb w
  .of (e.put 2 (.v o.vd) (vRes w ((List.range o.fmt.lanes).map fun i =>
    let l := if laneOn q.v o.vg.qneg w i then la else lb
    (i, l.val i, pmeet q.p (l.p i)))))

/-- VIOTA. -/
def slotViota (o : VScalArgs) : SlotM :=
  vMap 2 o.vg o.vd o.fmt (fun x i => ((x.sreg o.s).v.toNat + i) % 2 ^ o.fmt.bits) fun x _ => (x.sreg o.s).p

/-- VMOVI. -/
def slotVmovi (o : VMoviArgs) : SlotM :=
  vMap 2 o.vg o.vd o.fmt (fun _ _ => wrapInt o.fmt.bits o.imm.toInt) fun _ _ => none

/-! ## Floating-point elementwise (05 R121): on B1 after 3 ticks, the four functions after 5 (25 R389) -/

/-- A two-operand floating-point result. -/
def vFp2 (o : VFBinArgs) (f : Nat → Nat → Nat) : SlotM := vMap2 3 o.vg o.vd o.va o.b o.fmt f
/-- A one-operand floating-point result. -/
def vFp1 (lat : Nat) (o : VFUnArgs) (f : Nat → Nat) : SlotM := vMap1 lat o.vg o.vd o.va o.fmt f

/-- VFADD. -/
def slotVfadd (o : VFBinArgs) : SlotM := vFp2 o (o.fmt.fadd o.rnd)
/-- VFSUB. -/
def slotVfsub (o : VFBinArgs) : SlotM := vFp2 o (o.fmt.fsub o.rnd)
/-- VFMUL. -/
def slotVfmul (o : VFBinArgs) : SlotM := vFp2 o (o.fmt.fmul o.rnd)
/-- VFMA. -/
def slotVfma (o : VFmaArgs) : SlotM :=
  vMap 3 o.vg o.vd o.fmt
    (fun x i => o.fmt.ffma o.rnd ((x.lanesOf o.va o.fmt.bytes).val i) ((x.lanesB o.b o.fmt.bytes).val i)
      ((x.lanesOf o.vc o.fmt.bytes).val i))
    fun x i => pmeets [(x.lanesOf o.va o.fmt.bytes).p i, (x.lanesB o.b o.fmt.bytes).p i, (x.lanesOf o.vc o.fmt.bytes).p i]
/-- VFMIN. -/
def slotVfmin (o : VFBinArgs) : SlotM := vFp2 o o.fmt.fmin
/-- VFMAX. -/
def slotVfmax (o : VFBinArgs) : SlotM := vFp2 o o.fmt.fmax
/-- VFABS. -/
def slotVfabs (o : VFUnArgs) : SlotM := vFp1 3 o o.fmt.fabs
/-- VFNEG. -/
def slotVfneg (o : VFUnArgs) : SlotM := vFp1 3 o o.fmt.fneg
/-- VFCMP.cc. -/
def slotVfcmpCc (o : VFcmpArgs) : SlotM :=
  vTest 3 o.vg o.qd o.va o.b o.fmt fun a b => o.cc.test (o.fmt.decode a) (o.fmt.decode b)
/-- VFRCP. -/
def slotVfrcp (o : VFUnArgs) : SlotM := vFp1 5 o (o.fmt.frcp o.rnd)
/-- VFRSQ. -/
def slotVfrsq (o : VFUnArgs) : SlotM := vFp1 5 o (o.fmt.frsq o.rnd)
/-- VFEXP2. -/
def slotVfexp2 (o : VFUnArgs) : SlotM := vFp1 5 o (o.fmt.fexp2 o.rnd)
/-- VFLOG2. -/
def slotVflog2 (o : VFUnArgs) : SlotM := vFp1 5 o (o.fmt.flog2 o.rnd)

/-! ## Conversions (05 R122, R123) -/

/-- VFCVT. -/
def slotVfcvt (o : VFcvtArgs) : SlotM := fun e s =>
  let x := s.ctx e.c
  let q := x.qreg o.vg.q
  let ws := o.from_.bytes
  let wd := o.to_.bytes
  let src := x.lanesOf o.va ws
  let cv (a : Nat) : Nat := convert o.from_ o.to_ o.rnd o.sat a
  let k := o.part.toNat
  let pairs : List (Nat × Nat) :=
    if wd < ws then (List.range o.from_.lanes).map fun i => (k * o.from_.lanes + i, i)
    else (List.range o.to_.lanes).map fun i => (i, k * o.to_.lanes + i)
  let l := pairs.filter fun r => laneOn q.v o.vg.qneg wd r.1
  .of (e.put 3 (.v o.vd) (vRes wd (l.map fun r => (r.1, cv (src.val r.2), pmeet q.p (src.p r.2)))))

/-- VQNT: four blocks of 32 BF16 lanes, codes packed, scales in bytes 252–255. -/
def slotVqnt (o : VQntArgs) : SlotM := fun e s =>
  let x := s.ctx e.c
  let la := x.lanesOf o.va 2
  let n := o.fmt.bits
  let blk (b : Nat) : Nat × List Int :=
    o.fmt.encodeBlock o.rnd ((List.range 32).map fun i => Fmt.bf16.decode (la.val (32 * b + i)))
  let pb (b : Nat) : Option Poi := pmeets ((List.range 32).map fun i => la.p (32 * b + i))
  let bits := (List.range 4).foldl (fun a b =>
    let r := blk b
    a + packCodes n r.2 * 2 ^ (32 * n * b) + r.1 * 2 ^ (8 * (252 + b))) 0
  let ps := (List.range 4).foldl (fun m b =>
    joinP ((List.range n).foldl (fun m j => joinP m (n * b + j) (pb b)) m) 63 (pb b)) []
  .of (e.put 3 (.v o.vd) (.v (BitVec.ofNat 2048 bits) (BitVec.allOnes 256) ps))

/-- VDQN: exact but for −2^128. -/
def slotVdqn (o : VDqnArgs) : SlotM := fun e s =>
  let x := s.ctx e.c
  let v := x.vreg o.va
  let n := o.fmt.bits
  let l := (List.range 128).map fun i =>
    let b := i / 32
    let at_ := 32 * n * b + n * (i % 32)
    let code := o.fmt.code (bitsAt v.v.toNat at_ n)
    let scale := bitsAt v.v.toNat (8 * (252 + b)) 8
    (i, o.fmt.decodeTo .bf16 code scale, pmeets [poiAt v.p (at_ / 32), poiAt v.p ((at_ + n - 1) / 32), poiAt v.p 63])
  .of (e.put 3 (.v o.vd) (vRes 2 l))

/-! ## Reductions and permutes (05 R124, 01 R22, R23): bound 3 -/

/-- The three combining operations. -/
inductive RedOp where
  | add | max | min
  deriving DecidableEq, Repr

/-- Combine two elements, rounded or narrowed to the format. -/
def RedOp.combine (op : RedOp) (f : Fmt) (rnd : Rnd) (sat : Bool) (a b : Nat) : Nat :=
  if f.isInt then
    let x := f.intOf a
    let y := f.intOf b
    f.intFit sat (match op with | .add => x + y | .max => if x < y then y else x | .min => if y < x then y else x)
  else match op with | .add => f.fadd rnd a b | .max => f.fmax a b | .min => f.fmin a b

/-- The identity of an inactive lane (01 R22). -/
def RedOp.identity (op : RedOp) (f : Fmt) : Nat :=
  if f.isInt then
    match op with | .add => 0 | .max => wrapInt f.bits f.intMin | .min => wrapInt f.bits f.intMax
  else
    match op with | .add => f.signed true 0 | .max => f.signed true f.infCode | .min => f.infCode

/-- One level of the pairwise tree. -/
def pairUp (g : Nat → Nat → Nat) : List Nat → List Nat
  | a :: b :: t => g a b :: pairUp g t
  | l => l

/-- `n` levels of the tree. -/
def treeReduce (g : Nat → Nat → Nat) : Nat → List Nat → List Nat
  | 0, l => l
  | n + 1, l => treeReduce g n (pairUp g l)

/-- Lanes of a source with inactive lanes replaced. -/
def redLanes (x : Ctx) (vg : VGuard) (va : VReg) (f : Fmt) (idv : Nat) : List Nat :=
  (List.range f.lanes).map fun i =>
    if laneOn (x.qreg vg.q).v vg.qneg f.bytes i then (x.lanesOf va f.bytes).val i else idv

/-- A reduction into lane 0. -/
def vReduce (op : RedOp) (o : VRedArgs) : SlotM := fun e s =>
  let x := s.ctx e.c
  let q := x.qreg o.vg.q
  let w := o.fmt.bytes
  let r := (treeReduce (op.combine o.fmt o.rnd o.sat) 8 (redLanes x o.vg o.va o.fmt (op.identity o.fmt))).headD 0
  let p := pmeets (q.p :: (activeLanes q.v o.vg.qneg w o.fmt.lanes).map (x.lanesOf o.va w).p)
  .of (e.put 3 (.v o.vd) (vRes w [(0, r, p)]))

/-- VRADD. -/
def slotVradd (o : VRedArgs) : SlotM := vReduce .add o
/-- VRMAX. -/
def slotVrmax (o : VRedArgs) : SlotM := vReduce .max o
/-- VRMIN. -/
def slotVrmin (o : VRedArgs) : SlotM := vReduce .min o

/-- Inclusive prefixes, left to right. -/
def prefixes (g : Nat → Nat → Nat) : Nat → List Nat → List Nat
  | _, [] => []
  | a, b :: t => let r := g a b; r :: prefixes g r t

/-- Prefixes of poison. -/
def poiPrefixes : Option Poi → List (Option Poi) → List (Option Poi)
  | _, [] => []
  | a, b :: t => let r := pmeet a b; r :: poiPrefixes r t

/-- The combining operation of a VSCAN. -/
def scanOp : ScanOp → RedOp
  | .add => .add | .max => .max | .min => .min

/-- VSCAN. -/
def slotVscan (o : VScanArgs) : SlotM := fun e s =>
  let x := s.ctx e.c
  let q := x.qreg o.vg.q
  let w := o.fmt.bytes
  let op := scanOp o.op
  let vals := match redLanes x o.vg o.va o.fmt (op.identity o.fmt) with
    | [] => []
    | a :: t => a :: prefixes (op.combine o.fmt o.rnd o.sat) a t
  let ps := poiPrefixes q.p ((List.range o.fmt.lanes).map fun i =>
    if laneOn q.v o.vg.qneg w i then (x.lanesOf o.va w).p i else none)
  .of (e.put 3 (.v o.vd) (vRes w ((List.range o.fmt.lanes).zip (vals.zip ps))))

/-- VPERM. -/
def slotVperm (o : VTwoArgs) : SlotM := fun e s =>
  let x := s.ctx e.c
  let q := x.qreg o.vg.q
  let w := o.fmt.bytes
  let la := x.lanesOf o.va w
  let lb := x.lanesOf o.vb w
  let l := activeLanes q.v o.vg.qneg w o.fmt.lanes
  .of (e.put 3 (.v o.vd) (vRes w (l.map fun i =>
    let j := lb.val i % o.fmt.lanes
    (i, la.val j, pmeets [q.p, lb.p i, la.p j]))))

/-- VBCST. -/
def slotVbcst (o : VScalArgs) : SlotM :=
  vMap 3 o.vg o.vd o.fmt (fun x i => (x.lanesOfS o.s o.fmt.bytes).val i) fun x _ => (x.sreg o.s).p

/-- VEXT. -/
def slotVext (o : VExtArgs) : SlotM := fun e s =>
  let la := (s.ctx e.c).lanesOf o.va o.fmt.bytes
  sRes e 3 o.s (scalarLane o.fmt (la.val o.k.toNat)) (la.p o.k.toNat)
where
  /-- Sign-extended for In, zero-extended otherwise. -/
  scalarLane (f : Fmt) (v : Nat) : Word := if f.isSignedInt then BitVec.ofInt 64 (signedOf f.bits v) else BitVec.ofNat 64 v

/-- VINS. -/
def slotVins (o : VInsArgs) : SlotM := fun e s =>
  let a := (s.ctx e.c).sreg o.s
  .of (e.put 3 (.v o.vd) (vRes o.fmt.bytes [(o.k.toNat, lowBytes o.fmt.bytes a.v.toNat, a.p)]))

/-- VCMPR. -/
def slotVcmpr (o : VUnArgs) : SlotM := fun e s =>
  let x := s.ctx e.c
  let q := x.qreg o.vg.q
  let w := o.fmt.bytes
  let la := x.lanesOf o.va w
  let l := activeLanes q.v o.vg.qneg w o.fmt.lanes
  .of (e.put 3 (.v o.vd) (vRes w ((List.range o.fmt.lanes).map fun i =>
    match l[i]? with
    | some j => (i, la.val j, pmeet q.p (la.p j))
    | none => (i, 0, q.p))))

/-- VEXPD. -/
def slotVexpd (o : VUnArgs) : SlotM := fun e s =>
  let x := s.ctx e.c
  let q := x.qreg o.vg.q
  let w := o.fmt.bytes
  let la := x.lanesOf o.va w
  let l := activeLanes q.v o.vg.qneg w o.fmt.lanes
  .of (e.put 3 (.v o.vd) (vRes w (l.zipIdx.map fun r => (r.1, la.val r.2, pmeet q.p (la.p r.2)))))

/-! ## Accumulator rows (05 R125) -/

/-- The window bytes of accumulator elements from number `i` on. -/
def accTarget (i : Nat) : Target := .win (i / 131072) 1 (4 * (i % 131072))

/-- VACRD and VACWR are accesses of their context to `n` elements from number `i` on (05 R136): they wait for what every access
waits for, own-core order and acquires among it (05 R137, R138, 24 R383). -/
def accWait (e : Env) (s : State) (i n : Nat) (r : SlotRes) : SlotRes :=
  if s.mustWait e.c s.seq (accTarget i) (4 * n) then { r with wait := some .order } else r

/-- Does a line that has not left the context write a byte of a target? -/
def SegLine.hits (t : Target) (n : Nat) : SegLine → Bool
  | .acc a => a.elems.any fun d => d.tgt.overlaps d.size t n
  | .cmd _ => false

/-- An accumulator element as VACRD reads it: under the context's own stores that a segment still holds (05 R137, 07 R177). -/
def State.accSeen (s : State) (c i : Nat) : W32 × Option Poi :=
  if (s.ctx c).heldLines.any fun l => l.hits (accTarget i) 4 then
    let b := s.readCtx c (s.ctx c).hall s.seq (accTarget i) 4
    (BitVec.ofNat 32 (valOf b), (tagOf b).map Poi.mem)
  else s.accRead i

/-- Monitors on the lines of a row's elements are hit: `first` is the number of the row's first element on the core. -/
def State.hitLanes (s : State) (k first : Nat) (l : List Nat) : State :=
  (l.map fun i => (first + i) / 16).eraseDups.foldl (fun s n => s.hitWin k 1 (64 * n) 64) s

/-- VACRD (DEDUCED, log 35). -/
def slotVacrd (o : VAcrdArgs) : SlotM := fun e s =>
  let x := s.ctx e.c
  let q := x.qreg o.vg.q
  let w := o.fmt.bytes
  let a := x.sreg o.s
  let row := a.v.toNat % 128
  let l := activeLanes q.v o.vg.qneg w o.fmt.lanes
  let elem (i : Nat) : Nat × Nat × Option Poi :=
    let col := if o.fmt == .fp32 then 64 * b2n o.half + i else i
    let r := s.accSeen e.c (accIndex e.c o.tile row col)
    (i, if o.fmt == .fp32 then r.1.toNat else convert .fp32 .bf16 o.rnd o.sat r.1.toNat, pmeets [q.p, a.p, r.2])
  let first := accIndex e.c o.tile row (if o.fmt == .fp32 then 64 * b2n o.half else 0)
  accWait e s first (if o.fmt == .fp32 then 64 else 128) (.of (e.put 4 (.v o.vd) (vRes w (l.map elem))))

/-- Poison of an element VACWR writes: its own; under a poisoned guard the lowest tag of all it reads (02 R35). -/
def vacwrPoison (e : Env) (q a : Option Poi) (la : Lanes) (l : List Nat) (i : Nat) : Option Poi :=
  match e.over_ with
  | none => pmeets [q, a, la.p i]
  | some p => pmeets ([some p, q, a] ++ l.map la.p)

/-- VACWR: loads of its bundle have been made before it writes (05 R135), its line's monitors see it (08 R199), and matrix
work sees it from four ticks after issue (25 R389) (DEDUCED, log 35). -/
def slotVacwr (o : VAcwrArgs) : SlotM := fun e s =>
  let x := s.ctx e.c
  let q := x.qreg o.vg.q
  let a := x.sreg o.s
  let row := a.v.toNat % 128
  let la := x.lanesOf o.va 4
  let l := activeLanes q.v o.vg.qneg 4 64
  let first := accIndex e.c o.tile row (64 * b2n o.half)
  accWait e s first 64 (.of fun s =>
    (l.foldl (fun s i => s.accLater e.c (e.tick + 4) (first + i) (BitVec.ofNat 32 (la.val i))
      (vacwrPoison e q.p a.p la l i)) (s.settleCore (coreOf e.c))).hitLanes (coreOf e.c) (first % 131072) l)

/-! ## Lane masks (05 R126): bound 2 -/

/-- A mask of two masks. -/
def qBin (o : QBinArgs) (f : QBits → QBits → QBits) : SlotM := fun e s =>
  let a := (s.ctx e.c).qreg o.qa
  let b := (s.ctx e.c).qreg o.qb
  .of (e.put 2 (.q o.qd) (.q ⟨f a.v b.v, pmeet a.p b.p⟩))

/-- QAND. -/
def slotQand (o : QBinArgs) : SlotM := qBin o fun a b => a &&& b
/-- QOR. -/
def slotQor (o : QBinArgs) : SlotM := qBin o fun a b => a ||| b
/-- QNOT. -/
def slotQnot (o : QNotArgs) : SlotM := fun e s =>
  let a := (s.ctx e.c).qreg o.qa
  .of (e.put 2 (.q o.qd) (.q ⟨~~~a.v, a.p⟩))
/-- QCNT. -/
def slotQcnt (o : QCntArgs) : SlotM := fun e s =>
  let a := (s.ctx e.c).qreg o.qa
  sRes e 2 o.s (BitVec.ofNat 64 (activeLanes a.v false o.fmt.bytes o.fmt.lanes).length) a.p

/-! ## Issued alone: the meaning the opcode table's row has as an instruction of its own -/

/-- vadd issued alone. -/
def execVadd (o : VIntArgs) (s : State) : Out' := execSlot (slotVadd o) .v (.vadd o) s
/-- vsub issued alone. -/
def execVsub (o : VIntArgs) (s : State) : Out' := execSlot (slotVsub o) .v (.vsub o) s
/-- vmul issued alone. -/
def execVmul (o : VIntArgs) (s : State) : Out' := execSlot (slotVmul o) .v (.vmul o) s
/-- vmulh issued alone. -/
def execVmulh (o : VIntArgs) (s : State) : Out' := execSlot (slotVmulh o) .v (.vmulh o) s
/-- vmin issued alone. -/
def execVmin (o : VIntArgs) (s : State) : Out' := execSlot (slotVmin o) .v (.vmin o) s
/-- vmax issued alone. -/
def execVmax (o : VIntArgs) (s : State) : Out' := execSlot (slotVmax o) .v (.vmax o) s
/-- vabs issued alone. -/
def execVabs (o : VAbsArgs) (s : State) : Out' := execSlot (slotVabs o) .v (.vabs o) s
/-- vand issued alone. -/
def execVand (o : VIntArgs) (s : State) : Out' := execSlot (slotVand o) .v (.vand o) s
/-- vor issued alone. -/
def execVor (o : VIntArgs) (s : State) : Out' := execSlot (slotVor o) .v (.vor o) s
/-- vxor issued alone. -/
def execVxor (o : VIntArgs) (s : State) : Out' := execSlot (slotVxor o) .v (.vxor o) s
/-- vshl issued alone. -/
def execVshl (o : VIntArgs) (s : State) : Out' := execSlot (slotVshl o) .v (.vshl o) s
/-- vshr issued alone. -/
def execVshr (o : VIntArgs) (s : State) : Out' := execSlot (slotVshr o) .v (.vshr o) s
/-- vsar issued alone. -/
def execVsar (o : VIntArgs) (s : State) : Out' := execSlot (slotVsar o) .v (.vsar o) s
/-- vcmpCc issued alone. -/
def execVcmpCc (o : VCmpArgs) (s : State) : Out' := execSlot (slotVcmpCc o) .v (.vcmpCc o) s
/-- vsel issued alone. -/
def execVsel (o : VTwoArgs) (s : State) : Out' := execSlot (slotVsel o) .v (.vsel o) s
/-- viota issued alone. -/
def execViota (o : VScalArgs) (s : State) : Out' := execSlot (slotViota o) .v (.viota o) s
/-- vmovi issued alone. -/
def execVmovi (o : VMoviArgs) (s : State) : Out' := execSlot (slotVmovi o) .v (.vmovi o) s
/-- vfadd issued alone. -/
def execVfadd (o : VFBinArgs) (s : State) : Out' := execSlot (slotVfadd o) .v (.vfadd o) s
/-- vfsub issued alone. -/
def execVfsub (o : VFBinArgs) (s : State) : Out' := execSlot (slotVfsub o) .v (.vfsub o) s
/-- vfmul issued alone. -/
def execVfmul (o : VFBinArgs) (s : State) : Out' := execSlot (slotVfmul o) .v (.vfmul o) s
/-- vfma issued alone. -/
def execVfma (o : VFmaArgs) (s : State) : Out' := execSlot (slotVfma o) .v (.vfma o) s
/-- vfmin issued alone. -/
def execVfmin (o : VFBinArgs) (s : State) : Out' := execSlot (slotVfmin o) .v (.vfmin o) s
/-- vfmax issued alone. -/
def execVfmax (o : VFBinArgs) (s : State) : Out' := execSlot (slotVfmax o) .v (.vfmax o) s
/-- vfabs issued alone. -/
def execVfabs (o : VFUnArgs) (s : State) : Out' := execSlot (slotVfabs o) .v (.vfabs o) s
/-- vfneg issued alone. -/
def execVfneg (o : VFUnArgs) (s : State) : Out' := execSlot (slotVfneg o) .v (.vfneg o) s
/-- vfcmpCc issued alone. -/
def execVfcmpCc (o : VFcmpArgs) (s : State) : Out' := execSlot (slotVfcmpCc o) .v (.vfcmpCc o) s
/-- vfrcp issued alone. -/
def execVfrcp (o : VFUnArgs) (s : State) : Out' := execSlot (slotVfrcp o) .v (.vfrcp o) s
/-- vfrsq issued alone. -/
def execVfrsq (o : VFUnArgs) (s : State) : Out' := execSlot (slotVfrsq o) .v (.vfrsq o) s
/-- vfexp2 issued alone. -/
def execVfexp2 (o : VFUnArgs) (s : State) : Out' := execSlot (slotVfexp2 o) .v (.vfexp2 o) s
/-- vflog2 issued alone. -/
def execVflog2 (o : VFUnArgs) (s : State) : Out' := execSlot (slotVflog2 o) .v (.vflog2 o) s
/-- vfcvt issued alone. -/
def execVfcvt (o : VFcvtArgs) (s : State) : Out' := execSlot (slotVfcvt o) .v (.vfcvt o) s
/-- vqnt issued alone. -/
def execVqnt (o : VQntArgs) (s : State) : Out' := execSlot (slotVqnt o) .v (.vqnt o) s
/-- vdqn issued alone. -/
def execVdqn (o : VDqnArgs) (s : State) : Out' := execSlot (slotVdqn o) .v (.vdqn o) s
/-- vradd issued alone. -/
def execVradd (o : VRedArgs) (s : State) : Out' := execSlot (slotVradd o) .v (.vradd o) s
/-- vrmax issued alone. -/
def execVrmax (o : VRedArgs) (s : State) : Out' := execSlot (slotVrmax o) .v (.vrmax o) s
/-- vrmin issued alone. -/
def execVrmin (o : VRedArgs) (s : State) : Out' := execSlot (slotVrmin o) .v (.vrmin o) s
/-- vscan issued alone. -/
def execVscan (o : VScanArgs) (s : State) : Out' := execSlot (slotVscan o) .v (.vscan o) s
/-- vperm issued alone. -/
def execVperm (o : VTwoArgs) (s : State) : Out' := execSlot (slotVperm o) .v (.vperm o) s
/-- vbcst issued alone. -/
def execVbcst (o : VScalArgs) (s : State) : Out' := execSlot (slotVbcst o) .v (.vbcst o) s
/-- vext issued alone. -/
def execVext (o : VExtArgs) (s : State) : Out' := execSlot (slotVext o) .v (.vext o) s
/-- vins issued alone. -/
def execVins (o : VInsArgs) (s : State) : Out' := execSlot (slotVins o) .v (.vins o) s
/-- vcmpr issued alone. -/
def execVcmpr (o : VUnArgs) (s : State) : Out' := execSlot (slotVcmpr o) .v (.vcmpr o) s
/-- vexpd issued alone. -/
def execVexpd (o : VUnArgs) (s : State) : Out' := execSlot (slotVexpd o) .v (.vexpd o) s
/-- vacrd issued alone. -/
def execVacrd (o : VAcrdArgs) (s : State) : Out' := execSlot (slotVacrd o) .v (.vacrd o) s
/-- vacwr issued alone. -/
def execVacwr (o : VAcwrArgs) (s : State) : Out' := execSlot (slotVacwr o) .v (.vacwr o) s
/-- qand issued alone. -/
def execQand (o : QBinArgs) (s : State) : Out' := execSlot (slotQand o) .v (.qand o) s
/-- qor issued alone. -/
def execQor (o : QBinArgs) (s : State) : Out' := execSlot (slotQor o) .v (.qor o) s
/-- qnot issued alone. -/
def execQnot (o : QNotArgs) (s : State) : Out' := execSlot (slotQnot o) .v (.qnot o) s
/-- qcnt issued alone. -/
def execQcnt (o : QCntArgs) (s : State) : Out' := execSlot (slotQcnt o) .v (.qcnt o) s

end Sys2Proof.Machine
end

