-- ==== Sys2Proof/Machine/SlotTable.lean ====
section
/-! DEFINITION. Which meaning an instruction has in a slot of a bundle. -/

namespace Sys2Proof.Machine

open Sys2Proof

/-- The meaning of an instruction in a slot; NOP, and what no slot can hold, does nothing. -/
def slotMeaning : Instr → SlotM
  | .nop o => slotNop o
  | .br o => slotBr o
  | .bri o => slotBri o
  | .call o => slotCall o
  | .callx o => slotCallx o
  | .ret o => slotRet o
  | .loop o => slotLoop o
  | .loopr o => slotLoopr o
  | .lexit o => slotLexit o
  | .yield o => slotYield o
  | .halt o => slotHalt o
  | .trap o => slotTrap o
  | .rti o => slotRti o
  | .marm o => slotMarm o
  | .mwait o => slotMwait o
  | .mdisarm o => slotMdisarm o
  | .bar o => slotBar o
  | .bara o => slotBara o
  | .barw o => slotBarw o
  | .drain o => slotDrain o
  | .fence o => slotFence o
  | .pand o => slotPand o
  | .por o => slotPor o
  | .pxor o => slotPxor o
  | .pnot o => slotPnot o
  | .mfc o => slotMfc o
  | .mtc o => slotMtc o
  | .uien o => slotUien o
  | .uidis o => slotUidis o
  | .lidx o => slotLidx o
  | .add o => slotAdd o
  | .addi o => slotAddi o
  | .sub o => slotSub o
  | .mul o => slotMul o
  | .mulh o => slotMulh o
  | .mulhu o => slotMulhu o
  | .div o => slotDiv o
  | .divu o => slotDivu o
  | .rem o => slotRem o
  | .remu o => slotRemu o
  | .and o => slotAnd o
  | .andi o => slotAndi o
  | .or o => slotOr o
  | .ori o => slotOri o
  | .xor o => slotXor o
  | .xori o => slotXori o
  | .shl o => slotShl o
  | .shr o => slotShr o
  | .sar o => slotSar o
  | .shli o => slotShli o
  | .shri o => slotShri o
  | .sari o => slotSari o
  | .rol o => slotRol o
  | .ror o => slotRor o
  | .min o => slotMin o
  | .max o => slotMax o
  | .minu o => slotMinu o
  | .maxu o => slotMaxu o
  | .abs o => slotAbs o
  | .cmpCc o => slotCmpCc o
  | .cmpiCc o => slotCmpiCc o
  | .movi o => slotMovi o
  | .movk o => slotMovk o
  | .sext o => slotSext o
  | .zext o => slotZext o
  | .clz o => slotClz o
  | .ctz o => slotCtz o
  | .popc o => slotPopc o
  | .bext o => slotBext o
  | .bins o => slotBins o
  | .selp o => slotSelp o
  | .lea o => slotLea o
  | .pmov o => slotPmov o
  | .pset o => slotPset o
  | .faddS o => slotFaddS o
  | .fmulS o => slotFmulS o
  | .ffmaS o => slotFfmaS o
  | .fcmpCc o => slotFcmpCc o
  | .fcvt o => slotFcvt o
  | .packwe o => slotPackwe o
  | .vadd o => slotVadd o
  | .vsub o => slotVsub o
  | .vmul o => slotVmul o
  | .vmulh o => slotVmulh o
  | .vmin o => slotVmin o
  | .vmax o => slotVmax o
  | .vabs o => slotVabs o
  | .vand o => slotVand o
  | .vor o => slotVor o
  | .vxor o => slotVxor o
  | .vshl o => slotVshl o
  | .vshr o => slotVshr o
  | .vsar o => slotVsar o
  | .vcmpCc o => slotVcmpCc o
  | .vsel o => slotVsel o
  | .viota o => slotViota o
  | .vmovi o => slotVmovi o
  | .vfadd o => slotVfadd o
  | .vfsub o => slotVfsub o
  | .vfmul o => slotVfmul o
  | .vfma o => slotVfma o
  | .vfmin o => slotVfmin o
  | .vfmax o => slotVfmax o
  | .vfabs o => slotVfabs o
  | .vfneg o => slotVfneg o
  | .vfcmpCc o => slotVfcmpCc o
  | .vfrcp o => slotVfrcp o
  | .vfrsq o => slotVfrsq o
  | .vfexp2 o => slotVfexp2 o
  | .vflog2 o => slotVflog2 o
  | .vfcvt o => slotVfcvt o
  | .vqnt o => slotVqnt o
  | .vdqn o => slotVdqn o
  | .vradd o => slotVradd o
  | .vrmax o => slotVrmax o
  | .vrmin o => slotVrmin o
  | .vscan o => slotVscan o
  | .vperm o => slotVperm o
  | .vbcst o => slotVbcst o
  | .vext o => slotVext o
  | .vins o => slotVins o
  | .vcmpr o => slotVcmpr o
  | .vexpd o => slotVexpd o
  | .vacrd o => slotVacrd o
  | .vacwr o => slotVacwr o
  | .qand o => slotQand o
  | .qor o => slotQor o
  | .qnot o => slotQnot o
  | .qcnt o => slotQcnt o
  | .ld o => slotLd o
  | .lds o => slotLds o
  | .st o => slotSt o
  | .ldv o => slotLdv o
  | .stv o => slotStv o
  | .ldvs o => slotLdvs o
  | .stvs o => slotStvs o
  | .gth o => slotGth o
  | .sct o => slotSct o
  | .sctaOp o => slotSctaOp o
  | .aadd o => slotAadd o
  | .amin o => slotAmin o
  | .amax o => slotAmax o
  | .aminu o => slotAminu o
  | .amaxu o => slotAmaxu o
  | .aand o => slotAand o
  | .aor o => slotAor o
  | .axor o => slotAxor o
  | .axchg o => slotAxchg o
  | .acas o => slotAcas o
  | .mcall o => slotMcall o
  | .mldw o => slotMldw o
  | .mswp o => slotMswp o
  | .mldix o => slotMldix o
  | .mclr o => slotMclr o
  | .mset o => slotMset o
  | .mupld o => slotMupld o
  | .massay o => slotMassay o
  | .msync o => slotMsync o
  | .xld o => slotXld o
  | .xldb o => slotXldb o
  | .xmov o => slotXmov o
  | .xset o => slotXset o
  | .cpgo o => slotCpgo o
  | .cpq o => slotCpq o
  | .cpstop o => slotCpstop o
  | .wkapp o => slotWkapp o
  | .wkwalk o => slotWkwalk o
  | .wkfix o => slotWkfix o
  | .wkq o => slotWkq o
  | .wget o => slotWget o
  | .wput o => slotWput o
  | .wexp o => slotWexp o
  | .wsync o => slotWsync o
  | .cxtab o => slotCxtab o
  | .cxpk o => slotCxpk o
  | .cxun o => slotCxun o
  | .clgo o => slotClgo o
  | .lksend o => slotLksend o
  | .lkradd o => slotLkradd o
  | .lkrecv o => slotLkrecv o
  | .lkwait o => slotLkwait o
  | .txid o => slotTxid o
  | .txabort o => slotTxabort o
  | .qlaunch o => slotQlaunch o
  | .evpost o => slotEvpost o
  | _ => fun _ _ => {}

end Sys2Proof.Machine
end

