-- ==== Sys2Proof/Machine/Events.lean ====
section
/-! DEFINITION. What the core does besides executing an instruction: issuing bundles, landings, the selector, the ends of
waits, and the control core's part in traps (03 R71, R83–R96, R391, 07 R168–R171, 08 R200–R211). An event that is not due
changes nothing. -/

namespace Sys2Proof.Machine

open Sys2Proof

/-! ## Issue -/

/-- BUNDLE_ISSUE: the bundle that core `k`'s port holder fetches. -/
def execBundleIssue (k : CoreNo) (s : State) : Out' := .next (s.issueOn slotMeaning k.val)

/-- BANK_STALL_END: the clock reaches the cycle from which the port may issue again. -/
def execBankStallEnd (k : CoreNo) (s : State) : Out' := .next (s.portReady k.val)

/-! ## Results and landings (02 R52, R54, 03 R71) -/

/-- Nothing else comes at the boundary before the landings due. -/
def Ctx.atLanding (x : Ctx) : Bool :=
  x.isReady && x.causes.isEmpty && !(x.parkReq && x.boundary) && !x.interruptDue

/-- Would the bundle at the PC wait before it issues? Then what is due at its tick stays unapplied (03 R64, R391). -/
def State.holdsBack (s : State) (c : Nat) : Bool :=
  match ((s.issueFetched (s.settleNow c) slotMeaning c).ctx c).act with
  | .blocked w => w.beforeIssue
  | _ => false

/-- FIXED_RESULT_LANDS: results due at the context's tick reach their registers. -/
def execFixedResultLands (c : CtxNo) (s : State) : Out' :=
  let x := s.ctx c.val
  .next (if x.atLanding && !x.late x.ct && !s.holdsBack c.val then s.settleNow c.val else s)

/-- LANDING: landings due are applied, or the context blocks for data that is late. -/
def execLanding (c : CtxNo) (s : State) : Out' :=
  let x := s.ctx c.val
  .next (if x.atLanding then (if x.late x.ct then s.blockLate c.val else if s.holdsBack c.val then s else s.settleNow c.val)
    else s)

/-- DATA_ARRIVED: the data of an access that has performed reaches its landing. -/
def execDataArrived (c : CtxNo) (seq : Nat) (s : State) : Out' := .next (s.arrive c.val seq)

/-- LATE_DATA_ARRIVAL: the data a context waits for is there; it lands, and the context is ready. -/
def execLateDataArrival (c : CtxNo) (s : State) : Out' :=
  let x := s.ctx c.val
  .next (match x.act with
    | .blocked (.landing _) =>
      if x.late x.ct then s
      else
        let s := (s.lateSample c.val).modCtx c.val fun x => { x.endLate s.cycle with act := .ready }
        if s.holdsBack c.val then s else s.settleNow c.val
    | _ => s)

/-- An access whose every element read poison. -/
def Access.poisoned (t : Tag) (a : Access) : Access :=
  { a with elems := a.elems.map fun e => { e with got := some (0, (List.range ((e.size + 7) / 8)).map fun i => (i, t)) } }

/-- The core-array unit of a context's cluster (21 R329). -/
def arrayUnit (c : Nat) : BitVec 7 := let k := cluOf (coreOf c); dieUnit (k / 8) (k % 8)

/-- Missing data of one landing becomes poison under a tag whose record is of kind 7 and holds the request's address. -/
def State.poisonLanding (s : State) (c : Nat) (l : Land) : State :=
  let u := arrayUnit c
  let t := mkTag u (s.nextRec u)
  (s.openError u 7 l.va 0).modCtx c fun x =>
    let v : Option RVal := match x.acc.find? fun a => a.seq == l.seq with
      | some a => (Access.poisoned t a).value
      | none => some (.s ⟨0, 0, some (.mem t)⟩)
    { x with
      land := x.land.map fun m => if m.seq = l.seq then m.arrive l.seq v else m
      acc := x.acc.filter fun a => a.seq ≠ l.seq }

/-- The trap of a landing that timed out: TRAPCAUSE holds the tag its poison takes in this state (03 R67, R71). -/
def State.landingTrap (s : State) (c : Nat) (l : Land) : Trap :=
  let u := arrayUnit c
  ⟨.landingTimeout, l.va, 0, some (.mem (mkTag u (s.nextRec u)))⟩

/-- LANDING_TIMEOUT: 65,536 cycles after the context first blocked the missing data lands as persistent poison and the
context traps at the boundary. -/
def execLandingTimeout (c : CtxNo) (s : State) : Out' :=
  let x := s.ctx c.val
  .next (match x.act with
    | .blocked (.landing _) =>
      let missing := x.land.filter fun l => decide (l.due ≤ x.ct) && l.res.isNone &&
        decide (l.since.any fun t => t + Config.landTimeout ≤ s.cycle)
      match missing with
      | [] => s
      | l :: _ =>
        if (x.land.any fun m => decide (m.due ≤ x.ct) && m.res.isNone && !missing.contains m) then s
        else
          let trap := s.landingTrap c.val l
          let s := missing.foldl (fun s l => s.poisonLanding c.val l) s
          let s := ((s.lateSample c.val).modCtx c.val fun x => { x.endLate s.cycle with act := .ready }).settleNow c.val
          s.stopAt c.val trap x.pc 0
    | _ => s)

/-! ## Translation (12 R240) -/

/-- PAGE_WALK: the walk a context waits for ends: an entry for its core's TLB, or a fault its bundle raises when it
issues again (DEDUCED, log 19). -/
def execPageWalk (c : CtxNo) (s : State) : Out' :=
  .next (match (s.ctx c.val).act with
    | .blocked (.tlb va) =>
      match walkVA s (s.who c.val) va with
      | .ok e => ({ s with tr := { s.tr with tlb := e :: s.tr.tlb } }).ready c.val
      | .fault t => s.modCtx c.val fun x => { x with walk := x.walk ++ [(va, t)], act := .ready }
    | _ => s)

/-! ## Waits before issue (02 R390, 07 R182, 14 R287) -/

/-- QUEUE_SPACE_FREE: lines of a closed segment go on to their paths, and a bundle that waits for space runs its issue
checks again. -/
def execQueueSpaceFree (c : CtxNo) (s : State) : Out' :=
  let s := s.releaseMore c.val
  .next (match (s.ctx c.val).act with
    | .blocked (.queueSpace q) => if s.queueFull c.val q then s else s.ready c.val
    | _ => s)

/-- QLAUNCH_SLOT_RESERVED: a slot of the queue is free; the bundle issues again and reserves it. -/
def execQlaunchSlotReserved (c : CtxNo) (s : State) : Out' :=
  .next (match (s.ctx c.val).act with
    | .blocked (.qlaunch q) => if (s.queue q).room then s.ready c.val else s
    | _ => s)

/-- RENDEZVOUS_RELEASE. -/
def execRendezvousRelease (c : CtxNo) (s : State) : Out' :=
  .next (match (s.ctx c.val).act with
    | .blocked .rendezvous => if s.teamRewinds c.val then s else s.ready c.val
    | _ => s)

/-! ## The selector (07 R168–R170) -/

/-- Ready to issue: holding a launch and not blocked, parked, trapped or halted. -/
def State.selectable (s : State) (k : Nat) (i : Fin 4) : Bool := (s.ctx (4 * k + i.val)).isReady

/-- STATUS.prio of a context of a core. -/
def State.prioOf (s : State) (k : Nat) (i : Fin 4) : Nat := (s.ctx (4 * k + i.val)).ctl.prio.toNat

/-- The choice among ready contexts: highest prio, first in rotation. -/
def State.pickReady (s : State) (k : Nat) (l : List (Fin 4)) : Option (Fin 4) :=
  match l.find? fun i => s.prioOf k i == 1 with
  | some i => some i
  | none => l.head?

/-- What the selector does at core `k`: none when the running context keeps the port. A running context that has become
unready is a candidate again once it is ready, last in rotation (07 R169) (DEDUCED, log 37). -/
def State.choose (s : State) (k : Nat) : Option (Option (Fin 4)) :=
  let x := s.core k
  match x.running with
  | none => some (s.pickReady k ((rotation x.last).filter (s.selectable k)))
  | some i =>
    if !s.selectable k i then some (s.pickReady k ((rotation i).filter (s.selectable k)))
    else if x.released then some (s.pickReady k ((rotation i).filter (s.selectable k)))
    else if x.yielded then some ((rotation i).find? fun j => s.selectable k j && decide (s.prioOf k i ≤ s.prioOf k j))
    else none

/-- The selector's switch: a different context costs a cycle in which nothing issues, and so does the same one once the port has
idled (07 R169, R170) (DEDUCED, log 37). -/
def State.switch (s : State) (k : Nat) : State :=
  let x := s.core k
  if x.stopped || x.gated then s
  else
    match s.choose k with
    | none => s
    | some none => s.modCore k fun x => { x with running := none, yielded := false, released := false }
    | some (some j) =>
      let same := x.running == some j && (!x.released || decide (s.cycle ≤ x.freeAt))
      let s := if same then s else s.portReady k
      s.modCore k fun y =>
        { y with running := some j, last := j, yielded := false, released := false, freeAt := if same then y.freeAt else s.cycle + 1 }

/-- SELECTOR_SWITCH. -/
def execSelectorSwitch (k : CoreNo) (s : State) : Out' := .next (s.switch k.val)

/-! ## Boundaries (03 R85, R91, R95) -/

/-- CONTEXT_PARKS. -/
def execContextParks (c : CtxNo) (s : State) : Out' :=
  let x := s.ctx c.val
  .next (if x.isReady && x.causes.isEmpty && x.parkReq && x.boundary then s.park c.val else s)

/-- USER_INTERRUPT_TAKEN. -/
def execUserInterruptTaken (c : CtxNo) (s : State) : Out' :=
  let x := s.ctx c.val
  .next (if x.isReady && x.causes.isEmpty && !(x.parkReq && x.boundary) && x.interruptDue then s.takeInterrupt c.val else s)

/-- The meaning of a slot when RTI makes no transfer. -/
def slotButRti (i : Instr) : SlotM :=
  match i with
  | .rti _ => fun _ _ => {}
  | i => slotMeaning i

/-- An RTI leaves its wait for a cause that ends the launch: its bundle has committed but for the transfer (03 R391) (DEDUCED,
log 24). -/
def State.leaveRti (s : State) (c : Nat) : State :=
  let x := s.ctx c
  let waits := match x.act with
    | .blocked (.rtiWait _) => true
    | .blocked _ => x.rtiDone
    | _ => false
  if waits then
    let t := s.issueFetched s slotButRti c
    if (t.ctx c).issues = x.issues + 1 then t
    else s.modCtx c fun y => { y with pc := y.pc + BitVec.ofNat 32 (s.pcLen c) }
  else s

/-- ASYNC_CAUSE_TAKEN. -/
def execAsyncCauseTaken (c : CtxNo) (s : State) : Out' :=
  .next ((if (s.ctx c.val).causes.any (·.ends) then s.leaveRti c.val else s).takeCause c.val)

/-! ## HALT (03 R86, 06 R146) -/

/-- Has the context a copy command that has not ended: a chain at work, or one queued behind another's? -/
def State.ownsChannel (s : State) (c : Nat) : Bool :=
  (s.cluster (cluOf (coreOf c))).chans.any fun e =>
    e.2.state == 1 && e.2.hall == (s.ctx c).hall && (e.2.by_ == c || e.2.heads.any fun h => h.by_ == c)

/-- Has everything a halted context issued ended? -/
def State.drained (s : State) (c : Nat) : Bool :=
  let x := s.ctx c
  x.acc.isEmpty && x.rel.isEmpty && (x.land ++ x.uiLand).all (·.arrived) && x.mtx.queue.isEmpty && x.mtx.run.isNone && x.crd.isEmpty &&
    x.col.isEmpty && decide ((s.cluster (cluOf (coreOf c))).walker.countOf c = 0) && !s.ownsChannel c

/-- HALT_DRAIN_COMPLETE: fixed results have landed; arrived load data is discarded (DEDUCED, log 86). -/
def execHaltDrainComplete (c : CtxNo) (s : State) : Out' :=
  .next (match (s.ctx c.val).act with
    | .halting =>
      if s.drained c.val then (s.landVac c.val).modCtx c.val fun x => { x.drainFixed with act := .halted, land := [], uiLand := [] } else s
    | _ => s)

/-! ## Ends of waits (08 R200–R204, 03 R83, R93) -/

/-- MWAIT_WAKE: a hit, a filter match, or an interrupt that becomes due. -/
def execMwaitWake (c : CtxNo) (s : State) : Out' :=
  let x := s.ctx c.val
  .next (match x.act with
    | .blocked (.mwait d _) =>
      if x.mon.hit then s.endMwait c.val d 1
      else if x.mon.filter then s.endMwait c.val d 2
      else if x.interruptDue then s.endMwait c.val d 4
      else s
    | _ => s)

/-- MWAIT_TIMEOUT. -/
def execMwaitTimeout (c : CtxNo) (s : State) : Out' :=
  let x := s.ctx c.val
  .next (match x.act with
    | .blocked (.mwait d (some t)) => if t ≤ s.cycle ∧ !x.mon.hit then s.endMwait c.val d 3 else s
    | _ => s)

/-- Has a context arrived at the open phase of an id, or left the participants by halting (08 R203)? -/
def Ctx.inPhase (x : Ctx) (id : BitVec 4) : Bool :=
  (match x.act with | .halting | .halted => true | _ => false) || x.arrivals.any fun a => a.id == id && !a.done

/-- Mark the arrivals of a phase done; the end of the wait acquires what the participants issued before they arrived. -/
def State.markPhase (s : State) (id : BitVec 4) (parts : List Nat) : State :=
  let deps := parts.flatMap fun d => match (s.ctx d).arrivals.find? fun a => a.id == id && !a.done with
    | some a => s.unperformed d a.seq
    | none => []
  parts.foldl (fun s d => s.modCtx d fun x =>
    { x with arrivals := x.arrivals.map fun a => if a.id = id ∧ a.done = false then { a with done := true, deps := deps } else a }) s

/-- A context blocked for an id whose phase is complete leaves. -/
def State.wakeBarrier (s : State) (id : BitVec 4) (c : Nat) : State :=
  match (s.ctx c).act with
  | .blocked (.barrier i _) =>
    match (s.ctx c).arrival id with
    | some a => if i = id ∧ a.done then s.leaveBarrier c id a else s
    | none => s
  | _ => s

/-- BARRIER_PHASE_COMPLETE of the phase context `c` has arrived at. -/
def execBarrierPhaseComplete (c : CtxNo) (id : BitVec 4) (s : State) : Out' :=
  .next (match s.launchOf c.val, (s.ctx c.val).arrivals.find? fun a => a.id == id && !a.done with
    | some l, some a =>
      let parts := l.team.filter fun d => sameInst a.scope c.val d
      if parts.all fun d => (s.ctx d).inPhase id then
        parts.foldl (fun s d => s.wakeBarrier id d) (s.markPhase id parts)
      else s
    | _, _ => s)

/-- CALLX_ENTRY_ARRIVES: the link is written and control moves to the entry's link value. -/
def execCallxEntryArrives (c : CtxNo) (s : State) : Out' :=
  .next (match (s.ctx c.val).act with
    | .blocked (.callx d ret link code) =>
      s.modCtx c.val fun x => { ((x.setS d (.of ret none)).go link code) with act := .ready }
    | _ => s)

/-- OBJECT_TABLE_READ_DONE: go() loads the code registers and sets the PC. -/
def execObjectTableReadDone (c : CtxNo) (s : State) : Out' :=
  .next (match (s.ctx c.val).act with
    | .blocked (.object link code) => s.modCtx c.val fun x => { (x.go link code) with act := .ready }
    | _ => s)

/-- Apply the handler's results, and its landings whose data has arrived, in issue order. -/
def Ctx.landHandler (x : Ctx) : Ctx :=
  let done := x.land.filter fun l => l.res.isSome
  ({ x with fixed := [], land := x.land.filter fun l => l.res.isNone }).applyAll
    ((done.filterMap Land.res).foldr insertRes x.fixed)

/-- The RTI at the PC may go on: its wait has ended. -/
def State.rtiReady (s : State) (c : Nat) : State := s.modCtx c fun x => { x with act := .ready, rtiDone := true }

/-- What a handler waits for at RTI: what has arrived lands, and `go` follows when nothing is missing, or 65,536 cycles after
the wait began, when what is missing has landed as poison; LANDING_TIMEOUT is then taken at the boundary after RTI. -/
def State.rtiWait (s : State) (c since : Nat) (go : State → State) : State :=
  let s := (s.landVac c).modCtx c Ctx.landHandler
  match (s.ctx c).land with
  | [] => go s
  | l :: _ =>
    if s.cycle < since + Config.landTimeout then s
    else
      let trap := s.landingTrap c l
      let s := (s.ctx c).land.foldl (fun s l => s.poisonLanding c l) s
      (go (s.modCtx c Ctx.landHandler)).modCtx c fun x => { x with causes := ⟨trap, false⟩ :: x.causes }

/-- RTI_WAIT_DONE: before RTI's bundle commits, of what the handler had in flight; after, of what the bundle itself issued. -/
def execRtiWaitDone (c : CtxNo) (s : State) : Out' :=
  .next (match (s.ctx c.val).act with
    | .blocked (.rtiWait since) => s.rtiWait c.val since fun s => s.rtiReady c.val
    | .blocked (.rti since code _) => s.rtiWait c.val since fun s => s.finishRti c.val code
    | _ => s)

/-! ## The control core's part (08 R208–R211) -/

/-- Contexts of a cluster. -/
def cluCtxs (k : Nat) : List Nat := (List.range 32).map (32 * k + ·)

/-- Does the cluster's queue, or the half of it that serves the core in unprotected mode, hold an entry free?
(DEDUCED, log 56). -/
def State.eventRoom (s : State) (c : Nat) : Bool :=
  let l := (s.cluster (cluOf (coreOf c))).events
  if s.mgmt.unprotected then decide ((l.filter fun e => coreOf e.ctx % 8 / 4 == coreOf c % 8 / 4).length < 32)
  else decide (l.length < 64)

/-- The context whose trap, or late event, reached the queue first: by wall cycle, then by number (DEDUCED, log 56). -/
def State.firstTrap (s : State) (l : List Nat) : Option Nat :=
  l.foldl (fun a c => match a with
    | none => some c
    | some b => if (s.ctx c).trapAt < (s.ctx b).trapAt then some c else some b) none

/-- May control pass for a trapped context (03 R96 step 4): its segment's lines are released (07 R184) and its matrix commands
have run, or stopped at a deferred fault (06 R167)? For one that has halted: is its late event there (06 R146)? -/
def State.passesControl (s : State) (c : Nat) : Bool :=
  let x := s.ctx c
  x.lateEvent.isSome || (x.act == .trapWaiting && x.rel.isEmpty && x.mtx.queue.isEmpty && x.mtx.run.isNone)

/-- TRAP_EVENT_ENQUEUE (DEDUCED, log 56). -/
def execTrapEventEnqueue (k : CluNo) (s : State) : Out' :=
  .next (match s.firstTrap ((cluCtxs k.val).filter fun c => s.passesControl c && s.eventRoom c) with
    | none => s
    | some c =>
      let t := (s.ctx c).ctl
      match (s.ctx c).lateEvent with
      | some e =>
        (s.modCtx c fun x => { x with lateEvent := none }).modCluster k.val fun x => { x with events := x.events ++ [e] }
      | none =>
        (s.modCtx c fun x => { x with act := .trapped }).modCluster k.val fun x =>
          { x with events := x.events ++ [⟨c, t.trapcause, t.trappc, t.trapaddr, t.trapmask, (s.ctx c).hall⟩] })

/-- TRAP_EVENT_DELIVERY: the control core takes the oldest event. -/
def execTrapEventDelivery (k : CluNo) (s : State) : Out' :=
  .next (match (s.cluster k.val).events with
    | [] => s
    | e :: t =>
      if (s.cluster k.val).pairStopped then s
      else s.modCluster k.val fun x => { x with events := t, delivered := x.delivered ++ [e] })

/-- The installed image of a launch. -/
def State.imageOf (s : State) (l : Launch) : Option Image := s.mgmt.images.find? fun i => i.handle == l.image

/-- Resume at TRAPPC plus the TRAP bundle's length. -/
def State.resumePast (s : State) (c : Nat) : State :=
  let n := s.pcLen c
  (s.modCtx c fun x => { x with pc := x.pc + BitVec.ofNat 32 n }).resume c

/-- LOG: a record in the ring, then the count (17 R310). -/
def State.logTrap (s : State) (p : Fin 64) (ring : Word) (e : TrapEvent) (v : Word) : State :=
  let n := (s.hostWord? p ring).getD 0
  let a := atOff ring (0x20 + 32 * (n % 127))
  let s := s.hostPut p a (clean (bytesOf 8 ((e.hall.getD 0).toNat) ++ bytesOf 8 e.pc.toNat ++ bytesOf 8 v.toNat
    ++ bytesOf 8 s.micros))
  s.hostWord p ring (BitVec.ofNat 64 (n + 1))

/-- TRAP_INSTR served by the image's runtime table (17 R310). -/
def State.serveTrap (s : State) (e : TrapEvent) (h : Hall) (l : Launch) : State :=
  let i := (s.imageOf l)
  let a := e.addr.toNat
  let r := bitsAt a 8 6
  let v := ((s.ctx e.ctx).sreg (BitVec.ofNat 6 r)).v
  let rtab : Word := match i with | some i => i.rtab | none => 0
  let s := s.awaitAt l.part (atOff rtab (16 * bitsAt a 0 8)) 16
  let svc := (s.hostWord? l.part (atOff rtab (16 * bitsAt a 0 8))).getD 0
  let ring := (s.hostWord? l.part (atOff rtab (16 * bitsAt a 0 8 + 8))).getD 0
  let report (v : Word) (w : Why) : State := ((s.modLaunch h fun l => { l with report := v }).killBy h w)
  match bitsAt svc 0 8 with
  | 1 => (s.logTrap l.part (BitVec.ofNat 64 ring) e v).resumePast e.ctx
  | 2 => report v (.failReport .trapInstr)
  | 3 => report v (.retryService .trapInstr)
  | 4 => s.resumePast e.ctx
  | _ => report e.addr (.failReport .trapInstr)

/-- The runtime's first-level action on an event (DESIGN CHOICE, log 65). -/
def State.trapAction (s : State) (e : TrapEvent) : State :=
  match e.hall, e.hall.bind s.launch with
  | some h, some l =>
    match Cause.ofCode (e.cause.toNat % 256) with
    | some .trapInstr => s.serveTrap e h l
    | some .heartbeat => (s.killBy h (.outside .heartbeat)).keepSnap (s.snapOf (coreOf e.ctx) Cause.heartbeat.code)
    | some .coolant => (s.killBy h (.outside .coolant)).keepSnap (s.snapOf (coreOf e.ctx) Cause.coolant.code)
    | some q => s.killBy h q.why
    | none => s.killBy h (.outside .txAborted)
  | _, _ => s

/-- RUNTIME_TRAP_ACTION: on the oldest event delivered (DESIGN CHOICE, log 36). -/
def execRuntimeTrapAction (k : CluNo) (s : State) : Out' :=
  .next (match (s.cluster k.val).delivered with
    | [] => s
    | e :: t =>
      if (s.cluster k.val).pairStopped then s
      else
        let s := s.modCluster k.val fun x => { x with delivered := t }
        match (s.ctx e.ctx).act with
        | .trapped | .halting | .halted => s.trapAction e
        | _ => s)

/-- CTXCTL_KILL (DEDUCED, log 21). -/
def execCtxctlKill (c : CtxNo) (s : State) : Out' := .next (s.writeCtxctl c.val 8)
/-- CTXCTL_RELEASE. -/
def execCtxctlRelease (c : CtxNo) (s : State) : Out' := .next (s.writeCtxctl c.val 4)
/-- CTXCTL_PARK. -/
def execCtxctlPark (c : CtxNo) (s : State) : Out' := .next (s.writeCtxctl c.val 2)
/-- CTXCTL_RESUME. -/
def execCtxctlResume (c : CtxNo) (s : State) : Out' := .next (s.writeCtxctl c.val 1)

/-! ## Performing (05 R136, 12 R234) -/

/-- ACCESS_PERFORMS: an element performs at its home, when nothing holds it up (DEDUCED, log 10). -/
def execAccessPerforms (c : CtxNo) (seq elem : Nat) (s : State) : Out' :=
  .next (match (s.ctx c.val).acc.find? fun a => a.seq == seq with
    | none => s
    | some a =>
      match a.elems.find? fun e => e.lane == elem with
      | none => s
      | some e =>
        if s.mayPerform c.val a e then ((s.perform c.val a e).settleCore (coreOf c.val)).colSettle c.val else s)

/-! ## Soft errors (07 R179, 04 R113) -/

/-- A scalar with a bit of its value flipped: its residue no longer fits. -/
def SVal.flip (v : SVal) (b : Nat) : SVal := { v with v := v.v ^^^ (1 <<< b) }

/-- Poison with core origin. -/
def coreErr (t : Tag) : Option Poi := some ⟨t, true⟩

/-- A soft error strikes a context's registers. -/
def Ctx.soft (x : Ctx) : SoftTarget → Ctx
  | .sflip n b => if n = 0 then x else x.setS n ((x.sreg n).flip b.toNat)
  | .sbank n b =>
    let i := 56 + n.toNat
    { x with regs := { x.regs with bank := mset .zero x.regs.bank i ((mget .zero x.regs.bank i).flip b.toNat) } }
  | .sres n b => if n = 0 then x else x.setS n { (x.sreg n) with r := (x.sreg n).r ^^^ (1 <<< b.toNat) }
  | .spoison n t => if n = 0 then x else x.setS n { (x.sreg n) with p := coreErr t }
  | .ppoison n t => if n = 0 then x else x.setP n { (x.preg n) with p := coreErr t }
  | .qpoison n t => if n = 0 then x else x.setQ n { (x.qreg n) with p := coreErr t }
  | .vpoison n g t => x.setV n { (x.vreg n) with p := poiSet (x.vreg n).p g.toNat (coreErr t) }

/-- The tag of the poison a soft error makes. -/
def softTag : SoftTarget → Option Tag
  | .sflip .. | .sbank .. | .sres .. => none
  | .spoison _ t | .ppoison _ t | .qpoison _ t | .vpoison _ _ t => some t

/-- SOFT_ERROR: an upset that shows only at a later use (04 R113), or one the core detects, which takes a record of its
unit; the poison's tag names that record (01 R25, 21 R330). -/
def execSoftError (c : CtxNo) (t : SoftTarget) (s : State) : Out' :=
  .next (match softTag t with
    | none => s.modCtx c.val fun x => x.soft t
    | some g =>
      let u := coreUnit (coreOf c.val)
      if g = mkTag u (s.nextRec u) then
        (s.tick.openErrorAt u 2 0 (BitVec.ofNat 64 (Config.pick s.fresh)) 0).modCtx c.val fun x => x.soft t
      else s)

end Sys2Proof.Machine
end

