-- ==== Sys2Proof/Machine/Launching.lean ====
section
/-! DEFINITION. The scheduler: tails, readiness, the choice of a launch, its dispatch and tentative preloads (14 R272–R282,
R392, 17 R305, R311). -/

namespace Sys2Proof.Machine

open Sys2Proof

/-! ## Privileged writes to a partition's memory -/

/-- Write bytes at an address of a partition's space whatever its page permits: privileged software's own tables. -/
def State.sysPut (s : State) (p : Fin 64) (va : Word) (b : List PByte) : State :=
  (linePieces (pieceCount b.length) va b.length).foldl (fun s e =>
    match s.resolveWalk (hostWho p) e.1 with
    | .ok (.mem pa key) _ => s.writeMem none pa key ((b.drop (e.1 - va).toNat).take e.2)
    | _ => s) s

/-- An address privileged software allocates; the occasion is the counter's (DESIGN CHOICE, log 15, 69). -/
def State.alloc (s : State) (n : Nat) : State × Word := (s.tick, Config.place s.fresh n)

/-- A page-table word. -/
def ptWord (pa flags : Nat) : List PByte := clean (bytesOf 8 (pa / 4096 * 4096 + flags))

/-- The colour that bits [33:22] and [36:34] of an address give, without bits [21:16] (12 R236). -/
def colourAbove (pa : Nat) : Nat := bitsAt pa 22 6 ^^^ bitsAt pa 28 6 ^^^ bitsAt pa 34 3

/-- The colour of an address (12 R236). -/
def colourOf (pa : Nat) : Nat := bitsAt pa 16 6 ^^^ colourAbove pa

/-- The address with a colour that a mask allows; an empty mask allows none, and the address stays (12 R237). -/
def recolour (mask : Word) (pa : Nat) : Nat :=
  let l := (List.range 64).filter mask.getLsbD
  match l[bitsAt pa 16 6 % l.length]? with
  | some c => putBits pa 16 6 (c ^^^ colourAbove pa)
  | none => pa

/-- The colour mask of a partition: the management core obeys it when it allocates pages (21 R331). -/
def State.colourMask (s : State) (p : Fin 64) : Word :=
  match mget none s.mgmt.parts p.val with | some x => x.colours | none => BitVec.allOnes 64

/-- Entries of the page table at `t` that may be valid: those memory lists a byte of. -/
def Mem.tableIdx (m : Mem) (t : Nat) : List Nat :=
  ((mslice m.hbm t 4096).map fun e => e.1 / 8) ++
    (m.shadow.filter fun e => e.line / 64 == t / 4096).flatMap fun e => (List.range 8).map fun i => 8 * (e.line % 64) + i

/-- What the page table at `t`, of level `l + 1`, takes up: itself, its tables and the pages it maps, each with its size. -/
def State.tableFrames (s : State) : Nat → Nat → List (Nat × Nat)
  | l, t =>
    (t, 4096) :: ((s.mem.tableIdx t).foldr (fun i a => if a.contains i then a else i :: a) []).flatMap fun i =>
      let e := valOf (s.readMem none (t + 8 * i) 0 8)
      let pa := bitsAt e 12 36 * 4096
      if bitsAt e 0 1 = 0 then []
      else if bitsAt e 1 1 = 1 then [(pa, if l = 0 ∧ bitAt e 6 then 65536 else 4096 * 512 ^ l)]
      else
        match l with
        | 0 => []
        | k + 1 => s.tableFrames k pa

/-- The frames that page tables take up or map: every partition's, and the supervisor's (12 R239, R244). -/
def State.framesInUse (s : State) : List (Nat × Nat) :=
  (s.tr.trsup.toNat :: s.tr.trroot.map fun e => e.2.toNat).flatMap fun r =>
    if bitsAt r 0 1 = 0 then [] else s.tableFrames 3 (bitsAt r 12 36 * 4096)

/-- The first frame from a chosen one on, of an allowed colour, that nothing takes up and no reserved range holds; where there
is none, the chosen one (12 R237, R244, 21 R331) (DESIGN CHOICE, log 15). -/
def State.pickFrame (s : State) (mask : Word) (frame : Nat → Nat) : Nat → Nat → Nat
  | 0, x => recolour mask (frame x)
  | k + 1, x =>
    let f := recolour mask (frame x) / 4096 * 4096
    if s.tr.reserved f || s.framesInUse.any fun e => decide (f < e.1 + e.2) && decide (e.1 < f + 4096) then
      s.pickFrame mask frame k (x + 4096)
    else f

/-- Frames of the package's HBM. -/
def frameCount : Nat := 2 ^ 27

/-- A frame anywhere in HBM. -/
def anyFrame (x : Nat) : Nat := x % 2 ^ 39

/-- Map a 4 KiB page: levels 4 to 2 get tables where they have none, in frames of the partition's colours; the page's
frame is picked last, from `x` on among those `frame` allows; `flags` are the leaf's low bits. -/
def State.mapFrom (s : State) (mask : Word) (va : Nat) (frame : Nat → Nat) (x flags : Nat) : Nat → Nat → State
  | 0, t => s.writeMem none (t + 8 * bitsAt va 12 9) 0 (ptWord (s.pickFrame mask frame frameCount x) (flags + 3))
  | l + 1, t =>
    let a := t + 8 * bitsAt va (9 * (l + 1) + 12) 9
    let e := valOf (s.readMem none a 0 8)
    if bitsAt e 0 1 = 1 then (if bitsAt e 1 1 = 1 then s else s.mapFrom mask va frame x flags l (bitsAt e 12 36 * 4096))
    else
      let r := s.alloc 4096
      let f := s.pickFrame mask anyFrame frameCount r.2.toNat
      let s := (r.1.writeMem none f 0 (clean (List.replicate 4096 0))).writeMem none a 0 (ptWord f 1)
      s.mapFrom mask va frame x flags l f

/-- Map `n` bytes at a page-aligned address of a partition to frames privileged software chooses, of the partition's
colours; `frame` keeps a choice within the memory that may serve, `flags` gives each page's leaf bits. -/
def State.mapRange (s : State) (p : Fin 64) (va : Word) (n : Nat) (flags : Nat → Nat) (frame : Nat → Nat) : State :=
  let root := (mget 0 s.tr.trroot p.val).toNat
  if bitsAt root 0 1 = 0 then s
  else
    (List.range ((n + 4095) / 4096)).foldl (fun s i =>
      let r := s.alloc 4096
      r.1.mapFrom (s.colourMask p) (va.toNat + 4096 * i) frame r.2.toNat (flags i) 3 (bitsAt root 12 36 * 4096)) s

/-- Leaf bits: r, w, x, u (12 R239). -/
def permR : Nat := 4
/-- w. -/
def permW : Nat := 8
/-- x. -/
def permX : Nat := 16
/-- u. -/
def permU : Nat := 32

/-- Does the table at `t`, of level `l + 1`, map an address? -/
def State.mapsAt (s : State) (va : Nat) : Nat → Nat → Bool
  | l, t =>
    let e := valOf (s.readMem none (t + 8 * bitsAt va (9 * l + 12) 9) 0 8)
    bitAt e 0 && (bitAt e 1 ||
      match l with
      | 0 => true
      | k + 1 => s.mapsAt va k (bitsAt e 12 36 * 4096))

/-- The first page-aligned address from a chosen one on at which `n` pages of a partition are not mapped, below the windows; where
there is none, the chosen one (DESIGN CHOICE, log 15). -/
def State.pickVa (s : State) (p : Fin 64) (n : Nat) : Nat → Nat → Nat
  | 0, x => x % 2 ^ 43 / 4096 * 4096
  | k + 1, x =>
    let va := x % 2 ^ 43 / 4096 * 4096
    let root := (mget 0 s.tr.trroot p.val).toNat
    if bitAt root 0 && (List.range n).any fun i => s.mapsAt (va + 4096 * i) 3 (bitsAt root 12 36 * 4096) then s.pickVa p n k (x + 4096)
    else va

/-- Allocate and map `n` bytes of a partition's address space in frames that `frame` allows (DESIGN CHOICE, log 15). -/
def State.allocIn (s : State) (p : Fin 64) (n : Nat) (flags : Nat → Nat) (frame : Nat → Nat) : State × Word :=
  let r := s.alloc n
  let va : Word := BitVec.ofNat 64 (s.pickVa p ((n + 4095) / 4096) (2 ^ 31) r.2.toNat)
  (r.1.mapRange p va n flags frame, va)

/-- A frame in HBM homed on a die (12 R233). -/
def dieFrame (d x : Nat) : Nat := d % 4 * 2 ^ 37 + x % 2 ^ 37

/-- Allocate and map `n` bytes of a partition's address space. -/
def State.allocMap (s : State) (p : Fin 64) (n flags : Nat) : State × Word := s.allocIn p n (fun _ => flags) anyFrame

/-! ## Node table entries (17 R311) -/

/-- A node's needs. -/
structure NodeNeeds where
  obj : Nat
  entry : Nat
  ld : Nat
  lk : Nat
  cls : Nat
  dict : Nat
  words : Nat
  routines : Nat
  gran : Nat
  chan : Nat
  bars : Nat
  deriving DecidableEq, Repr

/-- A node table entry's fields. -/
def nodeOf (e : Word × Word) : NodeNeeds :=
  let a := e.1.toNat
  let b := e.2.toNat
  ⟨bitsAt a 0 8, bitsAt a 16 16, bitsAt a 32 2, bitsAt a 34 2, bitsAt a 36 4, bitsAt a 48 16, bitsAt b 0 16, bitsAt b 16 16,
   bitsAt b 32 8, bitsAt b 40 8, bitsAt b 48 8⟩

/-! ## Readiness (14 R273, R276, R392) -/

/-- A stamp word's address: VA[47:3], extended. -/
def stampAddr (w : Nat) : Word := (BitVec.ofNat 48 (bitsAt w 3 45 * 8)).signExtend 64

/-- Is a dependence met? -/
def State.depMet (s : State) (p : Fin 64) (d : Nat) : Bool :=
  bitsAt d 3 45 = 0 ||
    match s.hostWord? p (stampAddr d) with
    | some w => decide ((w % 2 ^ 16 + 2 ^ 16 - bitsAt d 48 16) % 2 ^ 16 < 2 ^ 15)
    | none => false

/-- Is a grant token well-formed for a footprint and a node (14 R392)? -/
def tokenOk (n : NodeNeeds) (clusters w : Nat) : Bool :=
  bitsAt w 48 16 == 0 && bitsAt w 21 11 == 0 && bitsAt w 9 7 == 0 && bitsAt w 3 5 == 0 &&
    (if bitAt w 20 then bitsAt w 32 16 == 0 else decide (bitsAt w 32 16 < clusters)) &&
    (!bitAt w 19 || bitsAt w 16 3 == 0) && decide (bitsAt w 0 3 < n.gran)

/-- Does an image run on this part (25 R386)? -/
def Image.runs (i : Image) : Bool :=
  if i.debug then i.level == 0x10 && i.stepping == 0x21
  else i.level.toNat / 16 == 1 && i.level.toNat % 16 == 0 && decide (i.stepping.toNat ≤ 0x21)

/-- Launches that are RUNNING or COMMITTING. -/
def State.live (s : State) : List (Hall × Launch) :=
  s.sched.launches.filter fun e => e.2.state == .running || e.2.state == .committing

/-- Is an image installed? One whose removal was asked for stays until no running launch names it (17 R312). -/
def State.installed (s : State) (i : Image) : Bool := !i.removed || s.live.any fun e => e.2.image == i.handle

/-- The node a record names, when the record is valid (14 R273, 17 R311). -/
def State.validNode (s : State) (p : Fin 64) (r : Record) : Option (Image × NodeNeeds) :=
  match s.mgmt.images.find? fun i => i.handle == r.image && i.part == p && s.installed i && i.runs with
  | none => none
  | some i =>
    match i.nodes[r.node]? with
    | none => none
    | some e =>
      let n := nodeOf e
      if bitsAt r.w0 56 8 = 0 ∧ bitsAt r.w1 7 1 = 0 ∧ r.ld ≤ 2 ∧ r.ld = n.ld ∧ r.lk = n.lk ∧ n.cls ≤ r.cls.toNat ∧
          1 ≤ r.budget ∧ (r.deps.all fun d => bitsAt d 0 3 == 0) ∧ bitsAt r.stamp 0 3 = 0 ∧
          ((r.params.zipIdx).all fun e => !bitAt r.tmask e.2 || tokenOk n (2 ^ (r.ld + r.lk)) e.1) then some (i, n)
      else none

/-- Numbers of the unfinished records in a queue's lookahead window: the first 16. -/
def State.window (s : State) (q : Nat) : List Nat :=
  let d := s.queue q
  (((List.range (min (d.seen - d.head).toNat 65536)).map fun i => (d.head + BitVec.ofNat 32 i).toNat).filter fun n =>
    !finished (s.recOf q n).state).take 16

/-- Is the queue looked at? -/
def Queue.watched (q : Queue) : Bool := q.en || q.tailErr

/-- Look at a queued record of the window: invalid, it fails with cause 0; with every dependence met it is ready. One that was
ready fails likewise once its image is removed (17 R312). -/
def State.look (s : State) (q n : Nat) : State :=
  if (s.recOf q n).state ≠ 1 ∧ (s.recOf q n).state ≠ 2 then s
  else
    let p := (s.queue q).owner
    let s := s.awaitAt p ((s.queue q).recAddr n) 128
    match s.record q n with
    | none => s
    | some r =>
      let s := (r.deps.filter fun d => bitsAt d 3 45 != 0).foldl (fun s d => s.awaitAt p (stampAddr d) 8) s
      match s.validNode p r with
      | none => (s.setRecCause q n 0).finishRec q n 5
      | some _ => if (s.recOf q n).state = 1 ∧ r.deps.all (s.depMet p) then s.setRecState q n 2 else s

/-- Look at every record in a queue's window. -/
def State.refresh (s : State) (q : Nat) : State :=
  if (s.queue q).watched then (s.window q).foldl (fun s n => s.look q n) s else s

/-- Numbers of the queues that are in use. -/
def State.queueNos (s : State) : List Nat := s.sched.queues.map (·.1)

/-- TAIL_OBSERVED (14 R275). -/
def execTailObserved (q : QueueNo) (s : State) : Out' :=
  let d := s.queue q.val
  .next (if !d.en || d.dev then s
    else
      let s := s.awaitAt d.owner (stampAddr d.tail.toNat) 8
      match s.hostWord? d.owner (stampAddr d.tail.toNat) with
      | none => s
      | some w =>
        let t : BitVec 32 := BitVec.ofNat 32 w
        if t = d.seen then s
        else if 2 ^ d.lsize.toNat < (t - d.head).toNat ∨ (t - d.head).toNat < (d.seen - d.head).toNat then
          (s.modQueue q.val fun d => { d with en := false, tailErr := true }).emit (.report 1 (BitVec.ofNat 64 q.val))
        else
          let s := (List.range (t - d.seen).toNat).foldl (fun s i => s.seeRec q.val (d.seen + BitVec.ofNat 32 i).toNat) s
          (s.modQueue q.val fun d => { d with seen := t }).refresh q.val)

/-! ## What fits (14 R278, 22 R350) -/

/-- A cluster zone meets the coolant condition. -/
def Zone.meets (z : Zone) (p : Fin 64) (cls : Nat) : Bool :=
  z.state == .filled && (z.any || (z.ov && z.owner.toNat == p.val)) && decide (cls ≤ z.step.toNat)

/-- Free contexts of a core. -/
def State.freeCtxs (s : State) (k : Nat) : List Nat := ([0, 1, 2, 3].map (4 * k + ·)).filter fun c => (s.ctx c).act == .free

/-- Free granules of a core. -/
def State.freeGrans (s : State) (k : Nat) : List Nat :=
  (List.range 8).filter fun g => !bitAt (s.core k).grants.toNat (8 * g + 7)

/-- Where a range of `n` of `limit` entries may start, free of ranges in use: an empty range takes up no entry. -/
def freeStarts (limit n : Nat) (used : List (Nat × Nat)) : List Nat :=
  (List.range (limit + 1 - n)).filter fun a =>
    used.all fun u => n == 0 || u.2 == 0 || decide (a + n ≤ u.1) || decide (u.1 + u.2 ≤ a)

/-- Grants in force on a core. -/
def State.grantsOn (s : State) (k : Nat) : List Grant :=
  (([0, 1, 2, 3].map (4 * k + ·)).filter fun c => (s.ctx c).hall.isSome).map fun c => (s.ctx c).grant

/-- Where the three ranges of a node may start on a core. -/
def State.starts (s : State) (k : Nat) (n : NodeNeeds) : List Nat × List Nat × List Nat :=
  let g := s.grantsOn k
  (freeStarts 4096 n.dict (g.map fun x => (x.dFirst, x.dCount)),
   freeStarts 1024 n.words (g.map fun x => (x.uwFirst, x.uwCount)),
   freeStarts 256 n.routines (g.map fun x => (x.reFirst, x.reCount)))

/-- Can a core take a node's context? -/
def State.coreFits (s : State) (k : Nat) (n : NodeNeeds) : Bool :=
  let x := s.core k
  let r := s.starts k n
  !x.stopped && !x.gated && !(s.freeCtxs k).isEmpty && decide (n.gran ≤ (s.freeGrans k).length) && !r.1.isEmpty
    && !r.2.1.isEmpty && !r.2.2.isEmpty

/-- Free channels of a cluster. -/
def State.freeChans (s : State) (clu : Nat) : List Nat := (List.range 16).filter fun p => !(s.chan clu p).map.getLsbD 7

/-- Barrier ids granted on a cluster. -/
def State.barsUsed (s : State) (clu : Nat) : Nat :=
  ((s.sched.launches.filter fun e => e.2.clusters.contains clu && !e.2.team.isEmpty).map fun e => e.2.nbars).sum

/-- Can a cluster take a record of a partition? -/
def State.cluFits (s : State) (clu : Nat) (p : Fin 64) (cls : Nat) (n : NodeNeeds) : Bool :=
  !(s.cluster clu).pairStopped && (s.zone clu).meets p cls && decide (n.chan ≤ (s.freeChans clu).length)
    && decide (s.barsUsed clu + n.bars ≤ 16) && (List.range 8).all fun i => s.coreFits (8 * clu + i) n

/-- The footprint: dies ascending, in each the lowest-numbered clusters that qualify (DESIGN CHOICE, log 15). -/
def State.footprint (s : State) (p : Fin 64) (cls : Nat) (n : NodeNeeds) : Option (List Nat) :=
  let per := (List.range 4).filterMap fun d =>
    let l := ((List.range 8).map (8 * d + ·)).filter fun c => s.cluFits c p cls n
    if 2 ^ n.lk ≤ l.length then some (l.take (2 ^ n.lk)) else none
  if 2 ^ n.ld ≤ per.length then some (per.take (2 ^ n.ld)).flatten else none

/-! ## Choosing (14 R277) -/

/-- A ready record with its place and footprint. -/
structure Cand where
  q : Nat
  n : Nat
  part : Fin 64
  prio : Nat
  blocking : Option Nat
  image : Image
  needs : NodeNeeds
  r : Record
  fit : Option (List Nat)
  /-- it may be dispatched: its partition is, and no exclusive run keeps it back -/
  open_ : Bool

/-- Records that an aborted exclusive run waits to run again: nothing else is dispatched (13 R267) (DEDUCED, log 109).
-/
def State.exclWaiting (s : State) : List (Nat × Nat) :=
  s.sched.queues.flatMap fun e =>
    (e.2.recs.filter fun r => r.2.exclHeld && !finished r.2.state && r.2.state != 3).map fun r => (e.1, r.1)

/-- Has a run neither committed with its touch list acknowledged, nor aborted with what follows its abort done: its team is gone
(13 R267)? -/
def Launch.unsettled (l : Launch) : Bool :=
  match l.state with
  | .running | .committing => true
  | .committed | .merged => !(l.touch.all fun t => t.acked || t.given)
  | .aborted => !l.team.isEmpty

/-- May a record be dispatched as far as exclusive runs go (13 R267)? (DEDUCED, log 109). -/
def State.exclOk (s : State) (q n : Nat) : Bool :=
  !(s.sched.launches.any fun e => e.2.excl && e.2.unsettled) && (s.exclWaiting.isEmpty || s.exclWaiting.contains (q, n)) &&
    (!(s.recOf q n).nextExcl || s.live.isEmpty)

/-- Is a partition dispatched at all? -/
def State.partOpen (s : State) (p : Fin 64) : Bool :=
  mget 0 s.sched.pshare p.val ≠ 0 && !s.mgmt.stopped.getLsbD p.val && s.mgmt.waitFrom.isNone

/-- The ready records of a queue's window (DEDUCED, log 111). -/
def State.candsOf (s : State) (q : Nat) : List Cand :=
  let d := s.queue q
  if !d.watched then []
  else
    (s.window q).filterMap fun n =>
      if (s.recOf q n).state ≠ 2 then none
      else
        match s.record q n with
        | none => none
        | some r =>
          (s.validNode d.owner r).map fun v =>
            ⟨q, n, d.owner, r.prio, (s.recOf q n).blocking, v.1, v.2, r,
              s.footprint d.owner r.cls.toNat v.2, s.partOpen d.owner && s.exclOk q n⟩

/-- Does a blocking record hold another back? -/
def Cand.heldBy (r b : Cand) : Bool :=
  match b.blocking with
  | none => false
  | some nb =>
    !(r.q == b.q && r.n == b.n) &&
      match r.blocking with
      | none => decide (r.prio ≤ b.prio)
      | some nr => decide (r.prio < b.prio) || (r.prio == b.prio && decide (nb < nr))

/-- The next of some numbers after `last`, wrapping (DEDUCED, log 68). -/
def nextAfter (last : Nat) (l : List Nat) : Option Nat :=
  match l.find? fun x => decide (last < x) with
  | some x => some x
  | none => l.head?

/-- Rotation of a priority: the partition to serve and its turns with it (DEDUCED, log 68). -/
def State.turn (s : State) (prio : Nat) (parts : List Nat) : Option (Nat × Nat) :=
  let r := mget (63, 255) s.sched.rot prio
  if parts.contains r.1 ∧ r.2 < (mget 0 s.sched.pshare r.1).toNat then some (r.1, r.2 + 1)
  else (nextAfter r.1 parts).map fun p => (p, 1)

/-- Numbers of the partitions, or of the queues, that candidates have, ascending. -/
def numbersOf (f : Cand → Nat) (l : List Cand) (bound : Nat) : List Nat :=
  (List.range bound).filter fun p => l.any fun c => f c == p

/-- The choice, with the rotation after it (DEDUCED, log 68, 111). -/
def State.chooseRec (s : State) (l : List Cand) : Option (Cand × State) :=
  let ok := l.filter fun c => c.fit.isSome && c.open_ && !l.any c.heldBy
  match (List.range 8).reverse.find? fun p => ok.any fun c => c.prio == p with
  | none => none
  | some prio =>
    let ok := ok.filter fun c => c.prio == prio
    match s.turn prio (numbersOf (fun c => c.part.val) ok 64) with
    | none => none
    | some (p, t) =>
      let ok := ok.filter fun c => c.part.val == p
      match nextAfter (mget 1023 s.sched.lastQueue (64 * prio + p)) (numbersOf (·.q) ok 1024) with
      | none => none
      | some q =>
        (ok.find? fun c => c.q == q).map fun c =>
          (c, s.modSched fun x =>
            { x with rot := mset (63, 255) x.rot prio (p, t), lastQueue := mset 1023 x.lastQueue (64 * prio + p) q })

/-- Every other ready record that does not fit is passed over; at the 64th time it becomes blocking (DEDUCED, log
111). -/
def State.passOver (s : State) (l : List Cand) (chosen : Cand) : State :=
  l.foldl (fun s c =>
    if c.fit.isSome || (c.q == chosen.q && c.n == chosen.n) then s
    else
      let s := s.modRec c.q c.n fun r => { r with passes := r.passes + 1 }
      if (s.recOf c.q c.n).passes = 64 ∧ (s.recOf c.q c.n).blocking = none then
        (s.modRec c.q c.n fun r => { r with blocking := some s.sched.blockNext }).modSched fun x =>
          { x with blockNext := x.blockNext + 1 }
      else s) s

/-! ## Dispatch (14 R279) -/

/-- One of some choices, as the implementation makes it. -/
def State.pickOne (s : State) (l : List Nat) : State × Nat := (s.tick, (l[Config.pick s.fresh % l.length]?).getD 0)

/-- `n` of some choices (DESIGN CHOICE, log 15). -/
def State.pickSome (s : State) : Nat → List Nat → State × List Nat
  | 0, _ => (s, [])
  | n + 1, l =>
    let r := s.pickOne l
    let t := r.1.pickSome n (l.filter fun x => x ≠ r.2)
    (t.1, r.2 :: t.2)

/-- The next hallmark: a sequence number under which no version is held (13 R253); `k` bounds the search. -/
def State.newHall (s : State) : Nat → State × Hall
  | 0 => (s, 0)
  | k + 1 =>
    let h : Hall := Config.pkgId ++ s.sched.seqNext
    let t := s.modSched fun x => { x with seqNext := x.seqNext + 1 }
    if (s.launch h).isSome then t.newHall k else (t, h)

/-- GRANTS with granules given to a context. -/
def grantTo (g : Word) (i : Nat) (l : List Nat) : Word :=
  l.foldl (fun g b => BitVec.ofNat 64 (putBits g.toNat (8 * b) 8 (128 + i))) g

/-- The line-valid bits of granted granules and accumulators are cleared (07 R186, 06 R148). -/
def Mem.clearLines (m : Mem) (k i : Nat) (grans : List Nat) : Mem :=
  { m with
    spadValid := grans.foldl (fun v g => mclear v (k * 8192 + g * 1024) 1024) m.spadValid
    accValid := mclear m.accValid (k * 8192 + i * 2048) 2048 }

/-- Load an image's dictionaries on a core, and mark granted routine entries invalid (06 R149). -/
def Mem.loadCore (m : Mem) (k : Nat) (g : Grant) (d : List BundleBits) : Mem :=
  { m with
    dict := msetAll 0 m.dict ((List.range d.length).map fun i => (k * 4096 + g.dFirst + i, (d[i]?).getD 0))
    dictPoison := mclear m.dictPoison (k * 4096 + g.dFirst) d.length
    rtable := (List.range g.reCount).foldl (fun t e =>
      let i := k * 256 + g.reFirst + e
      mset 0 t i ((mget 0 t i) &&& 0x7FFFFFFF)) m.rtable }

/-- Objects an image lists, less those of removed images, with the place of each dictionary in the image's grant. -/
def State.liveObjs (s : State) (i : Image) : List (ImgObj × Nat) :=
  let l := i.objs.filter fun o => s.mgmt.images.any fun j => j.handle == o.owner && s.installed j
  ((l.foldl (fun a o => (a.1 ++ [(o, a.2)], a.2 + o.dict.length)) (([] : List (ImgObj × Nat)), 0))).1

/-- A core's copy of the object table: 256 entries (03 R82). -/
def tableBytes (l : List (ImgObj × Nat)) (base : Nat) : List PByte :=
  (List.range 256).flatMap fun n =>
    match l.find? fun e => e.1.num == n with
    | some e => clean (bytesOf 8 e.1.cbase.toNat ++ bytesOf 8 ((base + e.2) % 4096 + e.1.dict.length % 4096 * 2 ^ 16))
    | none => clean (List.replicate 16 0)

/-- Value of a grant token in a team context (14 R392). -/
def tokenVal (lk : Nat) (grans : Nat → Nat → List Nat) (clu core w : Nat) : Word :=
  let cl := if bitAt w 20 then clu else bitsAt w 32 16
  let co := if bitAt w 19 then core else bitsAt w 16 3
  let g := ((grans cl co)[bitsAt w 0 3]?).getD 0
  if bitAt w 8 then BitVec.ofNat 64 (65536 * g)
  else BitVec.ofNat 64 (2 ^ 44 + cl / 2 ^ lk * 2 ^ 36 + cl % 2 ^ lk * 2 ^ 32 + co * 2 ^ 28 + 65536 * g)

/-- A dispatched context. -/
def newCtx (h : Hall) (g : Grant) (r : Record) (n : NodeNeeds) (o : ImgObj) (off : Nat) (ot : Word) (params : List Word) : Ctx :=
  let x : Ctx := .zero
  { x with
    pc := (o.entries[n.entry]?).getD 0
    act := .ready
    hall := some h
    grant := g
    regs := { x.regs with s := msetAll .zero [] ((params.zipIdx).map fun e => (e.2 + 1, SVal.of e.1 none)) }
    ctl := { x.ctl with
      obj := BitVec.ofNat 8 n.obj
      prio := if 4 ≤ r.prio then 1 else 0
      cbase := o.cbase.setWidth 48
      dbase := BitVec.ofNat 12 (g.dFirst + off)
      dlen := BitVec.ofNat 12 o.dict.length
      otbase := ot.setWidth 48 } }

/-- Grants of a launch on one core: context, granules, ranges. -/
structure CoreGrant where
  ctx : Nat
  grans : List Nat
  g : Grant
  deriving DecidableEq, Repr

/-- Grant a node's resources on a core; granules `pre` that a preload of it has filled are granted as they are (07
R186) (DESIGN CHOICE, log 15). -/
def State.grantCore (s : State) (k : Nat) (n : NodeNeeds) (pre : List Nat) : State × CoreGrant :=
  let st := s.starts k n
  let c := s.pickOne (s.freeCtxs k)
  let free := s.freeGrans k
  let pre := if pre.length = n.gran ∧ pre.all free.contains then pre else []
  let gr := if pre.isEmpty then c.1.pickSome n.gran free else (c.1, pre)
  let d := gr.1.pickOne st.1
  let w := d.1.pickOne st.2.1
  let r := w.1.pickOne st.2.2
  let l := (List.range 8).filter fun g => gr.2.contains g
  let s := (r.1.modCore k fun x => { x with grants := grantTo x.grants (c.2 % 4) l }).modMem fun m =>
    m.clearLines k (c.2 % 4) (l.filter fun g => !pre.contains g)
  (s, ⟨c.2, l, ⟨d.2, n.dict, w.2, n.words, r.2, n.routines⟩⟩)

/-- Grant channels on a cluster: launch-relative number i names the i-th channel granted (DESIGN CHOICE, log 15). -/
def State.grantChans (s : State) (clu n : Nat) (h : Hall) : State :=
  let r := s.pickSome n (s.freeChans clu)
  (r.2.zipIdx).foldl (fun s e => s.modChan clu e.1 fun _ =>
    { Chan.zero with map := BitVec.ofNat 8 (128 + e.2), hall := some h }) r.1

/-- A launch as dispatch makes it. -/
def newLaunch (c : Cand) (cl : List Nat) (team : List Nat) (excl : Bool) (runs : Nat) : Launch :=
  { part := c.part, queue := c.q, recNo := c.n, clusters := cl, lk := c.r.lk, team := team, image := c.r.image, node := c.r.node
    cls := c.r.cls, state := .running, ticket := none, sig := 0, budget := 1024 * c.r.budget, excl := excl, runs := runs
    undo := [], touch := [], why := .none, report := 0, nchan := c.needs.chan, nbars := c.needs.bars, held := []
    stampVa := stampAddr c.r.stamp, stampVal := BitVec.ofNat 64 (bitsAt c.r.stamp 48 16), unconfirmed := false
    committingAt := 0, tables := [] }

/-- Set up one team context: dictionary, object table, registers (DESIGN CHOICE, log 69). -/
def State.setupCtx (s : State) (c : Cand) (h : Hall) (grans : Nat → Nat → List Nat) (fi core : Nat) (g : CoreGrant) : State :=
  let objs := s.liveObjs c.image
  let k := coreOf g.ctx
  let s := s.modMem fun m => m.loadCore k g.g (objs.flatMap fun e => e.1.dict)
  let ot := s.allocMap c.part 4096 (permR + permU)
  let s := ot.1.sysPut c.part ot.2 (tableBytes objs g.g.dFirst)
  let params := (c.r.params.zipIdx).map fun e =>
    if bitAt c.r.tmask e.2 then tokenVal c.r.lk grans fi core e.1 else BitVec.ofNat 64 e.1
  let s := s.modLaunch h fun l => { l with tables := l.tables ++ [ot.2] }
  match objs.find? fun e => e.1.num == c.needs.obj with
  | some (o, off) => s.setCtx g.ctx (newCtx h g.g c.r c.needs o off ot.2 params)
  | none => s.setCtx g.ctx (newCtx h g.g c.r c.needs ⟨0, 0, 0, [], 0, [], []⟩ 0 ot.2 params)

/-- Dispatch a record on a footprint. -/
def State.dispatch (s : State) (c : Cand) (cl : List Nat) : State :=
  let hr := s.newHall 65536
  let h := hr.2
  let s := hr.1
  let cores := cl.flatMap fun q => (List.range 8).map (8 * q + ·)
  let pre := (s.sched.preloads.filter fun p => p.queue == c.q && p.recNo == c.n && p.clusters == cl).flatMap (·.grans)
  let gs := cores.foldl (fun (a : State × List CoreGrant) k =>
    let r := a.1.grantCore k c.needs ((pre.filter fun e => e.1 == k).map (·.2))
    (r.1, a.2 ++ [r.2])) (s, [])
  let s := cl.foldl (fun s q => s.grantChans q c.needs.chan h) gs.1
  let rec_ := s.recOf c.q c.n
  let team := gs.2.map (·.ctx)
  let l := newLaunch c cl team rec_.nextExcl (rec_.aborts + rec_.exclAborts)
  let s := s.modSched fun x => { x with launches := x.launches ++ [(h, l)] }
  let grans (fi core : Nat) : List Nat := ((gs.2[8 * fi + core]?).map (·.grans)).getD []
  let s := (gs.2.zipIdx).foldl (fun s e => s.setupCtx c h grans (e.2 / 8) (e.2 % 8) e.1) s
  let s := cl.foldl (fun s q => s.modZone q fun z => { z with inuse := if z.inuse < c.r.cls then c.r.cls else z.inuse }) s
  let s := s.modSched fun x => { x with preloads := x.preloads.filter fun p =>
    !(p.queue == c.q && p.recNo == c.n) && !p.clusters.any fun k => cl.contains k }
  (s.setRecState c.q c.n 3).modRec c.q c.n fun r => { r with passes := 0, blocking := none, drawn := false }

/-- Ready records in the windows of the queues of a die's slice (21 R339); which slice holds a queue is free. -/
def State.readyOn (s : State) (d : Nat) : Nat :=
  ((s.queueNos.filter fun q => Config.sliceOf q % 4 == d).map fun q =>
    if (s.queue q).watched then ((s.window q).filter fun n => (s.recOf q n).state == 2).length else 0).sum

/-- A dispatch decision is sampled on every die. -/
def State.sampleDepth (s : State) : State :=
  [0, 1, 2, 3].foldl (fun s d => s.sample 4 none (.die d) (s.readyOn d)) s

/-- DISPATCH_DECISION. -/
def execDispatchDecision (s : State) : Out' :=
  let s := (s.queueNos.foldl State.refresh s).sampleDepth
  let l := s.queueNos.flatMap s.candsOf
  .next (match s.chooseRec l with
    | none => s
    | some (c, t) =>
      match c.fit with
      | none => s
      | some cl => (t.passOver l c).dispatch c cl)

/-! ## Tentative preload (14 R281, R282) -/

/-- Copy a global line into a line of a granule, with the signature of what has been read (14 R282). -/
def State.preloadLine (p : Fin 64) (k g : Nat) (a : State × BitVec 4096) (e : Fin 1024 × Word) : State × BitVec 4096 :=
  let va : Word := BitVec.ofNat 64 (e.2.toNat / 64 * 64)
  match a.1.engineTarget (hostWho p) .read va 64 with
  | .ok (.mem pa key) =>
    let b := a.1.readMem none pa key 64
    let s := (List.range 8).foldl (fun (s : State) i =>
      let d := (b.drop (8 * i)).take 8
      s.modMem fun m => m.putSpad k ⟨8192 * g + 8 * e.1.val + i, BitVec.ofNat 64 (valOf d), 255, tagOf d⟩) a.1
    (s, sigAdd a.2 (pa / 64))
  | _ => (a.1, a.2)

/-- Fill granules of a core for an independent preload (DESIGN CHOICE, log 70). -/
def State.preloadCore (p : Fin 64) (n k : Nat) (a : State × BitVec 4096 × List (Nat × Nat)) : State × BitVec 4096 × List (Nat × Nat) :=
  let s := a.1
  let taken := (s.sched.preloads.flatMap (·.grans)).filterMap fun e => if e.1 = k then some e.2 else none
  let free := (s.freeGrans k).filter fun g => !taken.contains g
  if free.length < n then a
  else
    let r := s.pickSome n free
    r.2.foldl (fun a g =>
      let t : State := a.1.modMem fun m => { m with spadValid := mclear m.spadValid (k * 8192 + g * 1024) 1024 }
      let x := (Config.preload t.fresh).foldl (State.preloadLine p k g) (t.tick, a.2.1)
      (x.1, x.2, a.2.2 ++ [(k, g)])) (r.1, a.2.1, a.2.2)

/-- TENTATIVE_PRELOAD: of a record in the window, on the clusters of a running launch. A preload whose record waits for
that launch's stamp is dependent: it loads code only (DEDUCED, log 70). -/
def execTentativePreload (q : QueueNo) (rec : Nat) (s : State) : Out' :=
  let run := s.sched.launches.filter fun e => e.2.state == .running
  let p := (s.queue q.val).owner
  .next (match s.record q.val rec, run[Config.pick s.fresh % run.length]? with
    | some r, some e =>
      if (s.window q.val).contains rec && ((s.recOf q.val rec).state == 1 || (s.recOf q.val rec).state == 2) &&
          !s.sched.preloads.any fun p => p.queue == q.val && p.recNo == rec then
        let dep := e.2.part == p && e.2.stampVa != 0 && r.deps.any fun d => bitsAt d 3 45 != 0 && stampAddr d == e.2.stampVa
        let n := match s.validNode p r with | some v => v.2.gran | none => 0
        let x := if dep ∨ n = 0 then (s.tick, (0 : BitVec 4096), []) else
          (e.2.clusters.flatMap fun k => (List.range 8).map (8 * k + ·)).foldl (fun a k => State.preloadCore p n k a)
            (s.tick, (0 : BitVec 4096), [])
        x.1.modSched fun y =>
          { y with preloads := y.preloads ++ [⟨q.val, rec, e.2.clusters, if dep then some e.1 else none, x.2.1, x.2.2⟩] }
      else s
    | _, _ => s)

end Sys2Proof.Machine
end

