-- ==== Sys2Proof/Machine/Transactions.lean ====
section
/-! DEFINITION. Launches as transactions: commit, abort, the annealer, host accesses, budgets, and the commit messages to
homes of reduction windows (13 R254, R260–R268, 14 R280, R283, R287, 23 R362–R365). -/

namespace Sys2Proof.Machine

open Sys2Proof

/-! ## Committing (13 R254, R260) -/

/-- Has every command of the launch ended? Its contexts have halted; its channels must be idle too. -/
def State.launchDone (s : State) (h : Hall) (l : Launch) : Bool :=
  (l.team.all fun c => (s.ctx c).act == .halted) &&
    l.clusters.all fun k => (s.cluster k).chans.all fun e => !(e.2.hall == some h && e.2.state == 1)

/-- LAUNCH_COMMITTING: a launch whose team has halted and whose commands have ended enters COMMITTING; its ticket is drawn
in turn (DEDUCED, log 67). -/
def execLaunchCommitting (h : Hall) (s : State) : Out' :=
  .next (match s.launch h with
    | none => s
    | some l =>
      (if l.state = .running ∧ s.launchDone h l then
        s.modLaunch h fun l => { l with state := .committing, committingAt := s.cycle } else s).drawDue)

/-- Is a commit complete: every home has acknowledged or been given up? -/
def Launch.complete (l : Launch) : Bool := l.touch.all fun t => t.acked || t.given

/-- Does a launch hold back the flip of ticket `t`? -/
def Launch.holdsFlip (l : Launch) (t : Nat) : Bool :=
  match l.ticket with
  | none => false
  | some u => decide (u < t) &&
      match l.state with
      | .aborted => false
      | .committed | .merged => !l.complete
      | _ => true

/-- Lines a launch has written. -/
def State.writtenLines (s : State) (h : Hall) (l : Launch) : List Nat :=
  (if l.excl then l.undo.map (·.line) else (s.mem.shadow.filter fun e => e.hall = h).map (·.line)).eraseDups

/-- A held QLAUNCH record is queued; dtail and the tail word advance past it (14 R287) (DEDUCED, log 73). -/
def State.commitHeld (s : State) (q n : Nat) : State :=
  let d := s.queue q
  let t : BitVec 32 := BitVec.ofNat 32 n + 1
  let t := if (d.dtail - d.head).toNat < (t - d.head).toNat then t else d.dtail
  ((s.setRecState q n 1).modQueue q fun d => { d with dtail := t }).hostWord d.owner (stampAddr d.tail.toNat) (t.setWidth 64)

/-- The launches whose signature a commit tests (13 R260 step 3). -/
def Launch.testedBy (t : Nat) (l : Launch) : Bool :=
  match l.state with
  | .running => true
  | .committing => match l.ticket with | none => true | some u => decide (t < u)
  | _ => false

/-- A committed line becomes visible: monitors and preload signatures (13 R261, 14 R282). -/
def State.showLine (s : State) (n : Nat) : State :=
  let s := s.hitMonitors (.mem (64 * n) 0) none
  s.modSched fun x => { x with preloads := x.preloads.filter fun p => !sigTest p.sig n }

/-- Enter the ticket in a launch's directory entries. -/
def Shadow.stamp (h : Hall) (t : Nat) (e : Shadow) : Shadow := if e.hall = h then { e with ticket := some t } else e

/-- The flip (13 R260, R261): COMMITTED in every state table, the ticket in every entry, commit messages, then the test of
every line written (DEDUCED, log 66). -/
def State.flip (s : State) (h : Hall) (l : Launch) (t : Nat) : State :=
  let lines := s.writtenLines h l
  let s := s.modMem fun m => { m with shadow := m.shadow.map (Shadow.stamp h t) }
  let s := s.modLaunch h fun l => { l with state := .committed, sig := 0, held := [] }
  let s := s.sampleLaunch 5 l (s.cycle - l.committingAt)
  let s := l.touch.foldl (fun s x => s.emit (.commit h x.home s.fab.epoch)) s
  let s := (lines.foldl State.showLine s).conflictsOf lines (some h) (Launch.testedBy t)
  l.held.foldl (fun s e => s.commitHeld e.1 e.2) s

/-- COMMIT_FLIP. -/
def execCommitFlip (h : Hall) (s : State) : Out' :=
  .next (match s.launch h with
    | none => s
    | some l =>
      match l.ticket with
      | none => s
      | some t =>
        if l.state = .committing ∧ !(s.sched.launches.any fun e => e.2.holdsFlip t) then s.flip h l t else s)

/-! ## Completion (14 R283) -/

/-- Lowest of some package ids given up. -/
def lowestGiven (l : List Touch) : Option (BitVec 16) :=
  (l.filter (·.given)).foldl (fun a t => match a with
    | none => some t.home
    | some b => if t.home < b then some t.home else some b) none

/-- Committed hallmarks with no entry left are MERGED; finished ones are freed (13 R254). -/
def State.sweep (s : State) : State :=
  s.modSched fun x =>
    let held (h : Hall) : Bool := s.mem.shadow.any fun e => e.hall == h
    let l := x.launches.map fun e => if e.2.state = .committed ∧ !held e.1 then (e.1, { e.2 with state := .merged }) else e
    { x with launches := l.filter fun e =>
        !(e.2.team.isEmpty && !held e.1 && (e.2.touch.all (·.acked) || e.2.state == .aborted) &&
          (e.2.state == .merged || e.2.state == .aborted)) }

/-- LAUNCH_COMPLETE: stamp, report, state 4, then the resources. -/
def execLaunchComplete (h : Hall) (s : State) : Out' :=
  .next (match s.launch h with
    | none => s
    | some l =>
      if (l.state = .committed ∨ l.state = .merged) ∧ l.complete ∧ l.team ≠ [] then
        let s := if l.stampVa = 0 then s else s.hostWord l.part l.stampVa l.stampVal
        let s := s.setReport l.queue l.recNo (match lowestGiven l.touch with
          | some p => BitVec.ofNat 64 (2 ^ 63 + p.toNat)
          | none => 0)
        let s := (s.finishRec l.queue l.recNo 4).freeTeam h
        (s.modLaunch h fun l => { l with undo := [] }).sweep
      else s)

/-! ## Aborting (13 R264) -/

/-- LAUNCH_ABORT: a RUNNING launch is aborted from outside (14 R283; a COMMITTING one is not, 13 R254); an aborted one whose team has halted, so
that no trap of it comes, is cleared away (DEDUCED, log 72). -/
def execLaunchAbort (h : Hall) (s : State) : Out' :=
  .next (match s.launch h with
    | none => s
    | some l =>
      match l.state with
      | .running | .committing => s.abortLaunch h (.outside .txAborted)
      | .aborted =>
        if l.team.all fun c => (match (s.ctx c).act with | .halting | .halted => true | _ => false) then s.finishAbort h else s
      | _ => s)

/-- DIRECTORY_ENTRY_RELEASE: the entries of an aborted hallmark; then the hallmark is freed. -/
def execDirectoryEntryRelease (h : Hall) (s : State) : Out' :=
  .next (match s.launch h with
    | some l =>
      if l.state = .aborted then
        (s.modMem fun m => { m with shadow := m.shadow.filter fun e => e.hall ≠ h }).sweep
      else s
    | none => s)

/-- PENDING_LINE_FILTER_CLEAR: a line without an entry. -/
def execPendingLineFilterClear (line : Nat) (s : State) : Out' :=
  .next (if s.mem.shadow.any fun e => e.line == line then s
    else s.modMem fun m => { m with filter := m.filter.filter fun n => n ≠ line })

/-- Lowest ticket of the committed entries of a die. -/
def Mem.oldest (m : Mem) (d : Nat) : Option Nat :=
  m.shadow.foldl (fun a e => if homeDie e.line = d then (match a, e.ticket with
    | some x, some y => some (min x y)
    | none, t => t
    | a, none => a) else a) none

/-- ANNEAL_FOLD: the annealer of a die works in ticket order, so that the line folded is one the oldest committed launch
of the die wrote (13 R268). -/
def execAnnealFold (line : Nat) (s : State) : Out' :=
  .next (match s.mem.oldest (homeDie line) with
    | none => s
    | some t => if s.mem.shadow.any fun e => e.line == line && e.ticket == some t then (s.modMem fun m => m.fold line).sweep else s)

/-- BUDGET_EXHAUSTED (14 R280). -/
def execBudgetExhausted (h : Hall) (s : State) : Out' :=
  .next (match s.launch h with
    | some l => if l.state = .running ∧ l.budget = 0 then s.abortLaunch h .budget else s
    | none => s)

/-! ## The host (13 R262, 21 R332) -/

/-- Does a partition's endpoint accept an RMA: one that comes to it, of a job id of its own (21 R332)? -/
def State.acceptsJob (s : State) (p : HostJob) : Bool :=
  ((s.partition p.part.val).map fun x => x.jobs.contains p.job && x.endpoint == p.endpoint) == some true

/-- Bytes of a command ring: 64 slots of 128 bytes and the tail word. -/
def ringSize : Nat := 0x2008

/-- The place of an access to the operator ring: it comes to the management endpoint and stays within the ring (21 R332). -/
def State.ringAccess (s : State) (p : HostJob) (va : Word) (n : Nat) : Option Nat :=
  if p.endpoint = Config.mgmtEndpoint ∧ va.toNat + n ≤ ringSize then
    match s.privPa (s.mgmt.operatorRing.toNat + va.toNat), s.privPa (s.mgmt.operatorRing.toNat + va.toNat + n) with
    | some pa, some _ => some pa
    | _, _ => none
  else none

/-- HOST_WRITE: through the partition's page table, outside every launch; or in the operator ring, at an offset (DESIGN CHOICE, log
107). -/
def execHostWrite (p : HostJob) (va : Word) (bytes : List Byte) (s : State) : Out' :=
  .next (if !s.acceptsJob p then
      match s.ringAccess p va bytes.length with
      | some pa => (s.writeMem none pa 0 (clean bytes)).emit .hostDone
      | none => s.emit .hostError
    else
      match s.engineWrite (hostWho p.part) va (clean bytes) with
      | .ok s' => s'.emit .hostDone
      | .error _ => s.emit .hostError)

/-- Bytes the host reads at a physical address: committed values; during an exclusive run those the undo log saved. -/
def State.readHost (s : State) (pa : Nat) (key : BitVec 12) (n : Nat) : List PByte :=
  let k := s.tr.material key
  readBytes (fun w => ((s.hostLine (w / 8)).under (w / 8) k).word (w % 8)) pa n

/-- Bytes the host reads: a poisoned byte has no value. -/
def State.hostRead (s : State) (l : List (Target × Nat)) : List (Option Byte) :=
  l.flatMap fun e =>
    let b : List PByte := match e.1 with | .mem pa key => s.readHost pa key e.2 | t => s.readT none t e.2
    b.map fun x => if x.2.isSome then none else some x.1

/-- HOST_READ. -/
def execHostRead (p : HostJob) (va : Word) (size : Nat) (s : State) : Out' :=
  .next (if !s.acceptsJob p then
      match s.ringAccess p va size with
      | some pa => s.emit (.hostData (s.hostRead [(.mem pa 0, size)]))
      | none => s.emit .hostError
    else match s.engineTargets (hostWho p.part) .read va size with
    | .ok l => let s := s.awaitAt p.part va size; s.emit (.hostData (s.hostRead l))
    | .error _ => s.emit .hostError)

/-! ## Commit messages at the issuer (23 R363, R365) -/

/-- Change what the issuer keeps of a home (DEDUCED, log 71). -/
def Launch.modTouch (l : Launch) (home : BitVec 16) (f : Touch → Touch) : Launch :=
  { l with touch := l.touch.map fun t => if t.home = home then f t else t }

/-- COMMIT_ACK: the message leaves the commit log. -/
def execCommitAck (h : Hall) (home : BitVec 16) (s : State) : Out' :=
  .next ((s.modLaunch h fun l =>
    if l.state = .committed ∨ l.state = .merged then l.modTouch home fun t => { t with acked := true } else l).sweep)

/-- A commit message owed to a home (DEDUCED, log 71). -/
def State.owed (s : State) (h : Hall) (home : BitVec 16) : Option Touch :=
  match s.launch h with
  | some l => if l.state = .committed ∨ l.state = .merged then l.touch.find? fun t => t.home == home && !t.acked else none
  | none => none

/-- COMMIT_RESEND. -/
def execCommitResend (h : Hall) (home : BitVec 16) (s : State) : Out' :=
  .next (match s.owed h home with
    | some _ => (s.modLaunch h fun l => l.modTouch home fun t => { t with resends := t.resends + 1 }).emit (.commit h home s.fab.epoch)
    | none => s)

/-- Has every port of the package that leads to a home's switch failed? -/
def State.cutOff (s : State) (home : BitVec 16) : Bool :=
  let sw := (s.port (Config.portOf home).toNat).sw
  (List.range 16).all fun p => (s.port p).sw ≠ sw || (s.port p).state == 3

/-- COMMIT_GIVE_UP: after 64 resends, or at once when no port leads there (DEDUCED, log 71). -/
def execCommitGiveUp (h : Hall) (home : BitVec 16) (s : State) : Out' :=
  .next (match s.owed h home with
    | some t =>
      if !t.given && (decide (Config.resendLimit ≤ t.resends) || s.cutOff home) then
        (s.modLaunch h fun l => l.modTouch home fun t => { t with given := true }).openError
          (dieUnit ((Config.portOf home).toNat / 4) 21) 4 (home.setWidth 64) 0
      else s
    | none => s)

end Sys2Proof.Machine
end

