-- ==== Sys2Proof/Machine/Registers.lean ====
section
/-! DEFINITION. The events that write the registers of management space (12 R243, R246, 21 R324, 22 R348). -/

namespace Sys2Proof.Machine

open Sys2Proof

/-- TRINV_RANGE: TRINV is written with mode 0 and go. -/
def execTrinvRange (value : Word) (s : State) : Out' :=
  .next (if bitsAt value.toNat 2 2 = 0 ∧ value.getLsbD 0 then s.writeTrinv value else s)

/-- TRINV_TABLE: TRINV is written with mode 1 and go. -/
def execTrinvTable (value : Word) (s : State) : Out' :=
  .next (if bitsAt value.toNat 2 2 = 1 ∧ value.getLsbD 0 then s.writeTrinv value else s)

/-- TRINV_ALL: TRINV is written with mode 2 and go. -/
def execTrinvAll (value : Word) (s : State) : Out' :=
  .next (if bitsAt value.toNat 2 2 = 2 ∧ value.getLsbD 0 then s.writeTrinv value else s)

/-- TRINV_DONE (DEDUCED, log 76). -/
def execTrinvDone (s : State) : Out' := .next s.endTrinv

/-- TLB_ENTRY_DROPPED: the n-th entry (DEDUCED, log 19). -/
def execTlbEntryDropped (n : Nat) (s : State) : Out' := .next { s with tr := { s.tr with tlb := s.tr.tlb.eraseIdx n } }

/-- KEY_LOAD. -/
def execKeyLoad (value : Word) (s : State) : Out' := .next (s.keyEvent 1 value)

/-- KEY_CLEAR. -/
def execKeyClear (value : Word) (s : State) : Out' := .next (s.keyEvent 2 value)

/-- KEY_FLUSH. -/
def execKeyFlush (value : Word) (s : State) : Out' := .next (s.keyEvent 3 value)

/-- KEYCMD_REFUSED. -/
def execKeycmdRefused (value : Word) (s : State) : Out' := .next (if s.tr.keyRefuses value then s.writeKeycmd value else s)

/-- KEY_COMMAND_DONE: what waits for it goes on. -/
def execKeyCommandDone (s : State) : Out' := .next s.endKey.wakeOrders

/-- CLALLOC_WRITE. -/
def execClallocWrite (z : ZoneNo) (value : Word) (s : State) : Out' := .next (s.writeAlloc z.val value)

/-- CAPTURE_CLEAR. -/
def execCaptureClear (d : DieNo) (u : BitVec 6) (s : State) : Out' := .next (s.modCapture d.val u.toNat Capture.clear)

/-- REGISTER_WRITE: an aligned 8-byte write by a control core at a window address, or by the management core in management
space (DESIGN CHOICE, log 36). -/
def execRegisterWrite (who : RegWho) (addr : Word) (value : Word) (s : State) : Out' :=
  .next (if addr.toNat % 8 ≠ 0 then s
    else
      match who with
      | .management => if mgmtBase ≤ addr.toNat then s.writeMgmt (addr.toNat - mgmtBase) value else s
      | .supervisor =>
        if !(canonical addr && inWindows addr) then s
        else
          match s.windowOf ⟨true, none, none, 0, false⟩ addr with
          | some t => s.storeT none t 8 value.toNat
          | none => s)

end Sys2Proof.Machine
end

