-- ==== Sys2Proof/Machine/System.lean ====
section
/-! DEFINITION. Heartbeats, control-core pairs, errors of the memory and the die-to-die links, package reset and power
(08 R202, R208, 12 R250, R252, 21 R323–R330, R335, R340). -/

namespace Sys2Proof.Machine

open Sys2Proof

/-! ## Killing for reasons outside the launch (14 R283) -/

/-- Kill every RUNNING launch that satisfies `p` (DEDUCED, log 78). -/
def State.killRunning (s : State) (c : Cause) (p : Hall → Launch → Bool) : State :=
  s.sched.launches.foldl (fun s e =>
    match s.launch e.1 with
    | some l => if l.state = .running ∧ p e.1 l then s.killLaunch e.1 (.outside c) else s
    | none => s) s

/-! ## Control-core pairs (08 R208) -/

/-- CONTROL_PAIR_MISMATCH: the pair stops and reports, with a snapshot of each core of the cluster; every launch with a
context on the cluster is killed; the cluster is withdrawn (DEDUCED, log 78). -/
def execControlPairMismatch (k : CluNo) (s : State) : Out' :=
  let s := (s.openError (dieUnit (k.val / 8) (8 + k.val % 8)) 6 0 0).emit (.report 2 (BitVec.ofNat 64 k.val))
  let x := (List.range 8).map fun i => s.snapOf (8 * k.val + i) (Config.pick s.fresh % 256)
  let s := s.modCluster k.val fun x => { x with pairStopped := true }
  .next (x.foldl State.keepSnap (s.killRunning .txAborted fun _ l => l.onCore fun c => cluOf c == k.val))

/-- CONTROL_PAIR_RESTART: the cluster returns to scheduling (DEDUCED, log 78). -/
def execControlPairRestart (k : CluNo) (s : State) : Out' := .next (s.modCluster k.val fun x => { x with pairStopped := false })

/-! ## Heartbeats (08 R202, 21 R326) -/

/-- Contexts of a core that hold a launch. -/
def State.dispatched (s : State) (k : Nat) : List Nat := ([0, 1, 2, 3].map (4 * k + ·)).filter fun c => (s.ctx c).hall.isSome

/-- Has the context halted? -/
def Ctx.isHalted (x : Ctx) : Bool := match x.act with | .halting | .halted => true | _ => false

/-- Does a context wait: blocked, parked, stopped at a trap or halted? -/
def Ctx.waits (x : Ctx) : Bool := match x.act with | .free | .ready => false | _ => true

/-- CLUSTER_BEAT (DEDUCED, log 77). -/
def execClusterBeat (k : CoreNo) (s : State) : Out' :=
  let l := s.dispatched k.val
  .next (if !l.isEmpty && l.all fun c => (s.ctx c).waits then s.modCore k.val fun x => { x with beaten := true } else s)

/-- Stop a context at its bundle boundary (03 R96 steps 1–3, 07 R184). -/
def State.stopCtx (s : State) (c : Nat) : State := (s.closeSeg c).modCtx c Ctx.drainFixed

/-- Did the context issue bundles in the last two periods? Its core had no beat in them. -/
def Ctx.issuedLate (x : Ctx) : Bool := decide (x.hb2 < x.issues)

/-- A record is marked heartbeat-failed; marked twice, it fails. -/
def State.markRec (s : State) (q n : Nat) : State :=
  let s := s.modRec q n fun r => { r with hbMarks := r.hbMarks + 1 }
  if 2 ≤ (s.recOf q n).hbMarks then s.failRec q n .heartbeat else s

/-- A core that has missed two periods: its contexts stop, a snapshot is written, HEARTBEAT is raised, every RUNNING
launch with a context on it is killed and requeued, and the records of contexts that ran without a beat are marked; the
core returns to scheduling. -/
def State.coreMissed (s : State) (k : Nat) : State :=
  let l := (s.dispatched k).filter fun c => !(s.ctx c).isHalted
  let marks := (l.filter fun c => (s.ctx c).issuedLate).filterMap fun c => s.launchOf c
  let s := l.foldl State.stopCtx s
  let y := s.snapOf k Cause.heartbeat.code
  let s := l.foldl (fun s c => s.modCtx c fun x => x.raiseDue ⟨⟨.heartbeat, 0, 0, none⟩, true⟩) s
  let s := s.killRunning .heartbeat fun _ x => x.onCore fun c => c == k
  let s := marks.foldl (fun s x => if x.state = .running then s.markRec x.queue x.recNo else s) s
  (s.modCore k fun x => { x with misses := 0 }).keepSnap y

/-- The end of a period for a core (DEDUCED, log 77). -/
def State.corePeriod (s : State) (k : Nat) : State :=
  let x := s.core k
  if x.stopped then s
  else if (s.dispatched k).all fun c => (s.ctx c).isHalted then s.modCore k fun x => { x with beaten := false }
  else if x.beaten then s.modCore k fun x => { x with beaten := false, misses := 0 }
  else
    let s := s.modCore k fun x => { x with misses := x.misses + 1 }
    if 2 ≤ (s.core k).misses then s.coreMissed k else s

/-- Note the issue counts at the end of a period. -/
def State.notePeriod (s : State) : State :=
  s.ctxs.foldl (fun s e => s.modCtx e.1 fun x => { x with hb2 := x.hb1, hb1 := x.issues }) s

/-- HEARTBEAT_PERIOD_END (DEDUCED, log 77). -/
def execHeartbeatPeriodEnd (s : State) : Out' := .next ((List.range 256).foldl State.corePeriod s).notePeriod

/-- HEARTBEAT_STOP_TIMEOUT: the count of a core would reach 2 and it does not stop: it stays withdrawn, its HBSTATE bit set,
and the operator hears of it (DEDUCED, log 77). -/
def execHeartbeatStopTimeout (k : CoreNo) (s : State) : Out' :=
  let x := s.core k.val
  .next (if !x.stopped && !x.beaten && decide (1 ≤ x.misses) && (s.dispatched k.val).any fun c => !(s.ctx c).isHalted then
      (s.modCore k.val fun x => { x with stopped := true, misses := 2 }).emit (.report 3 (BitVec.ofNat 64 k.val))
    else s)

/-! ## The management pair (21 R323) -/

/-! ## Error records (21 R330) -/

/-- Mark the first record of a unit that has not been copied. -/
def markCopied (u : BitVec 7) : List ErrRec → List ErrRec
  | [] => []
  | e :: t => if e.unit = u ∧ e.copied = false then { e with copied := true } :: t else e :: markCopied u t

/-- An error record's copy as it stands in memory: its sequence number, its unit and index, and its four words. -/
def ErrRec.bytes (e : ErrRec) (seq : Word) : List PByte :=
  clean (bytesOf 8 seq.toNat ++ bytesOf 8 (e.unit.toNat * 32 + e.index.toNat) ++
    [0, 1, 2, 3].flatMap fun i => bytesOf 8 (e.word i).toNat)

/-- ERROR_RECORD_COPY: the oldest new record of a unit is copied with the next sequence number into management-private memory, at
the place the firmware gives it; the last 65,536 are kept (DESIGN CHOICE, log 115). -/
def execErrorRecordCopy (unit : BitVec 7) (s : State) : Out' :=
  .next (match s.mgmt.errors.find? fun e => e.unit == unit && !e.copied with
    | none => s
    | some e => (s.writePriv (Config.errCopyAt (s.mgmt.errSeq.toNat % 65536)) (e.bytes s.mgmt.errSeq)).modMgmt fun m =>
      let l := m.errCopies ++ [(m.errSeq, { e with copied := true })]
      { m with errors := markCopied unit m.errors, errSeq := m.errSeq + 1, errCopies := l.drop (l.length - 65536) })

/-! ## Memory errors (12 R250) -/

/-- The unit that finds an error in a word: a memory controller, of the stack the implementation's hash names, or the
memory-side cache, which holds the line dirty (12 R250) (DEDUCED, log 79). -/
def State.hbmUnit (s : State) (pa : Nat) : BitVec 7 := dieUnit (homeDie (pa / 64)) (16 + Config.pick s.fresh % 3)

/-- The words of the line that an uncorrectable error at `pa` poisons: the one read, and where the cache holds the line dirty
every word the error covers (12 R250) (DEDUCED, log 79). -/
def State.spoiledWords (s : State) (pa : Nat) : List Nat :=
  let n := Config.pick s.fresh
  (List.range 8).filter fun i => i == pa / 8 % 8 || (n % 3 == 2 && bitAt (n / 3) i)

/-- The stored copy of a line that holds the error: none for its place in memory, else the number of one of its shadow slots,
which lie in HBM too (13 R255) (DEDUCED, log 79). -/
def State.spoiledSlot (s : State) (line : Nat) : Option Nat :=
  let slots := (s.mem.shadow.zipIdx.filter fun e => e.1.line == line).map (·.2)
  slots[Config.pick s.fresh / 768 % (slots.length + 1)]?

/-- Poison some words of line `n` in a stored copy of it. -/
def Mem.spoil (m : Mem) (n : Nat) (slot : Option Nat) (words : List Nat) (t : Tag) : Mem :=
  match slot with
  | some k => { m with shadow := m.shadow.modify k fun e => { e with val := e.val.spoil words t } }
  | none =>
    { m with
      hbm := msetAll hbmDefault m.hbm (words.flatMap fun i => (List.range 8).map fun j => (64 * n + 8 * i + j, 0))
      hbmPoison := msetAll none m.hbmPoison (words.map fun i => (8 * n + i, some t)) }

/-- MEMORY_READ_ERROR: the controller reads a word. -/
def execMemoryReadError (pa : Nat) (syn : Syndrome) (s : State) : Out' :=
  let u := s.hbmUnit pa
  let a : Word := BitVec.ofNat 64 pa
  .next (match syn with
    | .clean => s
    | .poisonMark => s
    | .corrected => s.tick.openError u 1 a 0
    | .uncorrectable =>
      (s.tick.openError u 2 a 0).modMem fun m =>
        m.spoil (pa / 64) (s.spoiledSlot (pa / 64)) (s.spoiledWords pa) (mkTag u (s.nextRec u)))

/-- PATROL_SCRUB: the scrubber reads a line; an error it finds is a MEMORY_READ_ERROR. -/
def execPatrolScrub (_line : Nat) (s : State) : Out' := .next s

/-! ## Die-to-die links (12 R252) -/

/-- Die of a target. -/
def Target.die : Target → Option Nat
  | .mem pa _ => some (homeDie (pa / 64))
  | .win k _ _ => some (dieOf k)
  | _ => none

/-- Has an access something in flight to or from a die: an element that has not performed, or data on its way back? -/
def Access.inFlight (d : Nat) (a : Access) : Bool := a.elems.any fun e => e.tgt.die == some d && (!e.done || a.returns)

/-- Elements in flight to a die are over: what they read is poison, data on its way back too, and what they write is
lost. -/
def Access.cutTo (d : Nat) (t : Tag) (a : Access) : Access :=
  { a with elems := a.elems.map fun e =>
      if e.tgt.die == some d && (!e.done || a.returns) then
        { e with done := true, got := if a.kind = .store then none else some (0, (List.range ((e.size + 7) / 8)).map fun i => (i, t)) }
      else e }

/-- Launches with an access of a context of die `a` in flight to die `b` (12 R252). -/
def State.cutHalls (s : State) (a b : Nat) : List Hall :=
  s.ctxs.filterMap fun e => if dieOf (coreOf e.1) = a ∧ e.2.acc.any (Access.inFlight b) then e.2.hall else none

/-- Accesses of the contexts of die `a` in flight to die `b` are cut (DEDUCED, log 79). -/
def State.cutLink (s : State) (a b : Nat) (t : Tag) : State :=
  s.ctxs.foldl (fun s e =>
    if dieOf (coreOf e.1) = a then
      (s.modCtx e.1 fun x => { x with acc := x.acc.map (Access.cutTo b t) }.cleanAcc).wakeOrders
    else s) s

/-- Does a launch's footprint include a die? -/
def Launch.onDie (l : Launch) (d : Nat) : Bool := l.clusters.any fun k => k / 8 == d

/-- D2D_LINK_FAILURE: the link between two dies fails. -/
def execD2dLinkFailure (a b : DieNo) (s : State) : Out' :=
  .next (if a = b ∨ s.fab.links.contains (a, b) ∨ s.fab.links.contains (b, a) then s
    else
      let ua := dieUnit a.val 23
      let ub := dieUnit b.val 23
      let ta := mkTag ua (s.nextRec ua)
      let tb := mkTag ub (s.nextRec ub)
      let cut := s.cutHalls a.val b.val ++ s.cutHalls b.val a.val
      let s := (s.openError ua 4 0 0).openError ub 4 0 0
      let s := (s.cutLink a.val b.val ta).cutLink b.val a.val tb
      (s.modFab fun f => { f with links := f.links ++ [(a, b)] }).killRunning .txAborted fun h l =>
        (l.onDie a.val && l.onDie b.val) || cut.contains h)

/-! ## Reset and power (21 R335, R340, 23 R364) -/

/-- A stage of firmware passes: its signature by the root key, and its security version. -/
def stageOk (x : List Byte × (BitVec 256 × BitVec 256) × BitVec 32) : Bool :=
  ecdsaVerify Config.rootKey (sha256 x.1) x.2.1.1 x.2.1.2 && decide (Config.minVersion ≤ x.2.2)

/-- The owner records pass: the first signed by a key, every later one by the key it replaces (21 R336). -/
def ownersOk : BitVec 256 × BitVec 256 → List (List Byte × (BitVec 256 × BitVec 256)) → Bool
  | _, [] => true
  | k, r :: l => ecdsaVerify k (sha256 r.1) r.2.1 r.2.2 && ownersOk (Config.ownerKey r.1) l

/-- A public key as an uncompressed SEC1 point. -/
def sec1 (q : BitVec 256 × BitVec 256) : List Byte := 4 :: (beBytes 32 q.1.toNat ++ beBytes 32 q.2.toNat)

/-- Does the boot chain pass at a boot: root key, stages, configuration record, owner records, identity key. -/
def bootPasses (n : Nat) : Bool :=
  (sha256 (sec1 Config.rootKey) == Config.rootDigest) && !(Config.stages n).isEmpty && (Config.stages n).all stageOk &&
    ecdsaVerify Config.rootKey (sha256 Config.cfgRecord.1) Config.cfgRecord.2.1 Config.cfgRecord.2.2 &&
    !(Config.owners n).isEmpty && ownersOk Config.rootKey (Config.owners n) &&
    (ecMul 256 (Config.unwrapped n) (some p256G) == some (Config.identityKey.1.toNat, Config.identityKey.2.toNat))

/-- The boot chain runs: the records it reads are in force; when it fails the package stays in S0, and that is reported
(21 R335) (DEDUCED, log 105). -/
def State.bootChain (s : State) : State :=
  let n := s.fresh
  let s := (s.tick).modMgmt fun m => { m with operatorKey := Config.ownerAt n, boot := n }
  if bootPasses n then s else { s with powered := false }.emit (.report 4 0)

/-- The machine after a package reset: HBM holds what it held (12 R235), the epoch has risen, what had left the package has
left it, and what happens next stays what it was (DEDUCED, log 80). -/
def State.rebooted (s : State) : State :=
  { State.reset with
    agenda := s.agenda
    cur := s.cur
    fresh := s.fresh
    seq := s.seq
    out := s.out
    mem := { Mem.reset with hbm := s.mem.hbm, hbmPoison := s.mem.hbmPoison, lineKey := s.mem.lineKey }
    fab := { Fabric.reset with epoch := s.fab.epoch + 1 } }

/-- PACKAGE_RESET, and power-on (DEDUCED, log 80). -/
def execPackageReset (s : State) : Out' := .next s.rebooted.bootChain

/-- PAIR_MISMATCH: the management pair restarts; RUNNING launches are killed and requeued, committing ones go on; then the
boot chain runs without a reset of the dies (DEDUCED, log 105). -/
def execPairMismatch (s : State) : Out' :=
  .next ((s.openError (dieUnit 0 31) 6 0 0).killRunning .txAborted fun _ _ => true).bootChain

/-- POWER_OFF (DEDUCED, log 80). -/
def execPowerOff (s : State) : Out' := .next { s with powered := false }

end Sys2Proof.Machine
end

