-- ==== Sys2Proof/Machine/Coolant.lean ====
section
/-! DEFINITION. The coolant controller: sensors, sensor traps, withdrawal, evacuation and refill, the pump, and the
service-level change they may bring (21 R340, R341, 22 R346–R357). -/

namespace Sys2Proof.Machine

open Sys2Proof

/-- Have `us` microseconds passed since wall time `t`? (DEDUCED, log 2). -/
def State.passed (s : State) (t us : Nat) : Bool := decide (t + us * 1100 ≤ s.wall)

/-- Is the zone in service: FILLED or WITHDRAWN, where sensor traps are raised? -/
def Zone.inService (z : Zone) : Bool := z.state == .filled || z.state == .withdrawn

/-! ## Sensors (22 R349, R353) -/

/-- FLOW_LOW holds. -/
def Zone.isFlowLow (z : Zone) : Bool := decide (100 ≤ z.lowCount)
/-- DELTA_T holds. -/
def Zone.isDeltaT (z : Zone) : Bool := decide (100 ≤ z.deltaCount) || decide (560 < z.tout.toNat)
/-- DRY holds. -/
def Zone.isDry (z : Zone) : Bool := decide (1000 ≤ z.dryCount) || decide (z.dp.toNat < 5)
/-- LEAK holds. -/
def Zone.isLeak (z : Zone) : Bool := decide (50 < z.cond.toNat)
/-- A condition that throttles holds. -/
def Zone.throttles (z : Zone) : Bool := z.isFlowLow || z.isDeltaT

/-- Two numbers within a distance of each other (DEDUCED, log 2). -/
def within (a b d : Nat) : Bool := decide (a ≤ b + d) && decide (b ≤ a + d)

/-- The condition a zone waits for: in PURGE and BLEED that of the sequence, else that no throttling condition holds. -/
def Zone.awaits (z : Zone) : Bool :=
  match z.state with
  | .purge => decide (z.flow.toNat < 1) && within z.dp.toNat 150 5
  | .bleed => decide (9 ≤ z.flow.toNat) && decide (z.flow.toNat ≤ 11) && decide (z.cond.toNat ≤ 50) && within z.dp.toNat z.dpRef.toNat 2
  | _ => !z.throttles

/-- A sample enters a zone: its sensors, its counts of consecutive samples, and since when what it waits for holds. -/
def Zone.sampled (z : Zone) (x : ZoneSample) (now : Nat) : Zone :=
  let one := decide (1 ≤ z.step.toNat)
  let z := { z with
    dp := x.dp, tout := x.tout, tin := x.tin, flow := x.flow, cond := x.cond
    lowCount := if one && decide (x.flow.toNat < 4 * z.step.toNat) then z.lowCount + 1 else 0
    deltaCount := if x.tin.toNat + 144 < x.tout.toNat then z.deltaCount + 1 else 0
    dryCount := if one && decide (x.flow.toNat < 1) then z.dryCount + 1 else 0 }
  if z.awaits && z.clearSince.isSome then z
  else
    let z := { z with dpRef := x.dp }
    { z with clearSince := if z.awaits then some now else none }

/-- SENSOR_SAMPLE: the samples of zones 0, 1, …; capture probes 7 and 8 see them (DESIGN CHOICE, log 107). -/
def execSensorSample (samples : List ZoneSample) (s : State) : Out' :=
  .next ((samples.take 40).zipIdx.foldl (fun s e =>
    let s := s.modZone e.2 fun z => z.sampled e.1 s.wall
    let o := if (s.zone e.2).ov then some (s.zone e.2).owner.toNat else none
    (s.sample 7 o (.zone e.2) e.1.tout.toNat).sample 8 o (.zone e.2) e.1.flow.toNat) s)

/-! ## Throttling (22 R353) -/

/-- A throttle begins. -/
def State.throttle (s : State) (z : Nat) : State :=
  s.modZone z fun x => if x.throttledAt.isSome then x else { x with throttledAt := some s.wall }

/-- FLOW_LOW. -/
def execFlowLow (z : ZoneNo) (s : State) : Out' :=
  .next (if (s.zone z.val).inService && (s.zone z.val).isFlowLow then s.throttle z.val else s)

/-- DELTA_T. -/
def execDeltaT (z : ZoneNo) (s : State) : Out' :=
  .next (if (s.zone z.val).inService && (s.zone z.val).isDeltaT then s.throttle z.val else s)

/-! ## Killing and gating (22 R354) -/

/-- A launch takes COOLANT in its team contexts, the traps reach the management core, and the launch is killed; the last
16 snapshots are those kept. -/
def State.coolantKill (s : State) (h : Hall) (l : Launch) (zone sub : Nat) : State :=
  let t : Trap := ⟨.coolant, BitVec.ofNat 64 zone, BitVec.ofNat 8 sub, none⟩
  let run := l.team.filter fun c => !(s.ctx c).isHalted
  let s := run.foldl (fun s c => (s.modCtx c fun x => x.raiseDue ⟨t, true⟩).takeCause c) s
  let x := (run.drop (run.length - 16)).map fun c => s.snapOf (coreOf c) Cause.coolant.code
  x.foldl State.keepSnap (s.killLaunch h (.outside .coolant))

/-- Kill every RUNNING launch that satisfies `p` for coolant. -/
def State.coolantKills (s : State) (zone sub : Nat) (p : Launch → Bool) : State :=
  s.sched.launches.foldl (fun s e =>
    match s.launch e.1 with
    | some l => if l.state = .running ∧ p l then s.coolantKill e.1 l zone sub else s
    | none => s) s

/-- A zone enters a state. -/
def State.enterZone (s : State) (z : Nat) (st : ZState) : State :=
  s.modZone z fun x => { x with state := st, enteredAt := s.wall, clearSince := none, dpRef := x.dp, stuck := false }

/-- A zone enters INLET_SHUT; whether its valve reaches the end stop is a free value. -/
def State.shutInlet (s : State) (z : Nat) : State :=
  (s.enterZone z .inletShut |>.modZone z fun x => { x with stuck := Config.valveFails s.fresh }).tick

/-- ZONE_WITHDRAW: a throttling condition of a cluster zone still holds 10 ms after throttling began. -/
def execZoneWithdraw (z : ZoneNo) (s : State) : Out' :=
  let x := s.zone z.val
  .next (match x.throttledAt with
    | some t =>
      if decide (z.val < 32) && x.state == .filled && x.throttles && s.passed t 10000 then
        ((s.enterZone z.val .withdrawn).coolantKills z.val (if x.isFlowLow then 1 else 2) fun l => l.onZone z.val).gateWithdrawn z.val
      else s
    | none => s)

/-- ZONE_THROTTLE_CLEAR: of a zone that is not withdrawn, the condition has cleared; of a withdrawn one, it has been clear
for 100 ms. -/
def execZoneThrottleClear (z : ZoneNo) (s : State) : Out' :=
  let x := s.zone z.val
  .next (if x.throttledAt.isNone || x.held then s
    else if x.state = .withdrawn then
      match x.clearSince with
      | some t =>
        if s.passed t 100000 then ((s.enterZone z.val .filled).modZone z.val fun x => { x with throttledAt := none }).gateZone z.val false
        else s
      | none => s
    else if x.throttles then s
    else s.modZone z.val fun x => { x with throttledAt := none })

/-! ## Evacuation (22 R355) -/

/-- Evacuation of a cluster zone begins: its launches are killed, dispatch to it stops. -/
def State.evacuate (s : State) (z sub : Nat) : State :=
  let s := (s.enterZone z .quiesce).modZone z fun x => { x with throttledAt := none, leaked := sub == 4 }
  s.coolantKills z sub fun l => l.onZone z

/-- DRY on a cluster zone. -/
def execDry (z : ZoneNo) (s : State) : Out' :=
  let x := s.zone z.val
  .next (if decide (z.val < 32) && x.inService && x.isDry then s.evacuate z.val 3 else s)

/-- LEAK on a cluster zone; during REFILL or BLEED evacuation starts again at INLET_SHUT. -/
def execLeak (z : ZoneNo) (s : State) : Out' :=
  let x := s.zone z.val
  .next (if !x.isLeak || decide (32 ≤ z.val) then s
    else if x.inService then s.evacuate z.val 4
    else if x.state = .refill ∨ x.state = .bleed then (s.shutInlet z.val).modZone z.val fun x => { x with leaked := true }
    else s)

/-- Is the zone in a state? -/
def State.zoneIn (s : State) (z : Nat) (st : ZState) : Bool := (s.zone z).state == st

/-- Bound of a state of a sequence, in microseconds. -/
def ZState.bound : ZState → Option Nat
  | .quiesce => some 64
  | .gated => some 20
  | .inletShut => some 50000
  | .purge => some 5000000
  | .outletShut => some 50000
  | .refill => some 50000
  | .bleed => some 30000000
  | _ => none

/-- Has what a zone waits for held for `us` microseconds? -/
def State.heldFor (s : State) (z us : Nat) : Bool :=
  match (s.zone z).clearSince with
  | some t => (s.zone z).awaits && s.passed t us
  | none => false

/-- Has a zone passed the bound of its step? The bound of INLET_SHUT covers only the valve's travel, not a wait for a purge
slot; the steps that wait for a condition end when it has held, and the one after BLEED has 20 µs from then (DEDUCED, log 81). -/
def State.overdue (s : State) (z : Nat) : Bool :=
  let x := s.zone z
  match x.state.bound with
  | none => false
  | some b =>
    let late (t : Nat) : Bool := decide (x.enteredAt + b * 1100 < t)
    match x.state with
    | .inletShut => x.stuck && late s.wall
    | .purge => late (if s.heldFor z 500000 then (x.clearSince.getD 0) + 500000 * 1100 else s.wall)
    | .bleed =>
      if s.heldFor z 2000000 then
        let t := x.clearSince.getD 0 + 2000000 * 1100
        late t || decide (t + 20 * 1100 < s.wall)
      else late s.wall
    | _ => late s.wall

/-- A zone that has passed a bound is in FAULT, its valves shut, gated until package reset, and that is reported. -/
def State.faultZone (s : State) (z : Nat) : State := ((s.enterZone z .fault).gateZone z true).emit (.report 5 (BitVec.ofNat 64 z))

/-- A step of a sequence ends: within its bound what it brings, past it FAULT. -/
def State.zoneStep (s : State) (z : Nat) (a : ZState) (t : State) : State :=
  if s.zoneIn z a then (if s.overdue z then s.faultZone z else t) else s

/-- GATED: no team context remains on the zone. -/
def execGated (z : ZoneNo) (s : State) : Out' :=
  .next (if s.sched.launches.any fun e => e.2.onZone z.val then s
    else s.zoneStep z.val .quiesce ((s.enterZone z.val .gated).gateZone z.val true))

/-- INLET_SHUT (DEDUCED, log 81). -/
def execInletShut (z : ZoneNo) (s : State) : Out' := .next (s.zoneStep z.val .gated (s.shutInlet z.val))

/-- Zones in a state, ascending (DEDUCED, log 81). -/
def State.zonesIn (s : State) (st : ZState) : List Nat := (List.range 40).filter fun z => s.zoneIn z st

/-- Zones in INLET_SHUT whose valve is at its end stop, ascending. -/
def State.zonesShut (s : State) : List Nat := (s.zonesIn .inletShut).filter fun z => !(s.zone z).stuck

/-- PURGE: the inlet valve is at its end stop, a slot of the four is free, and no lower-numbered zone waits. -/
def execPurge (z : ZoneNo) (s : State) : Out' :=
  .next (if decide ((s.zonesIn .purge).length < 4) && s.zonesShut.head? == some z.val then s.enterZone z.val .purge else s)

/-- OUTLET_SHUT: the purge condition has held for 500 ms. -/
def execOutletShut (z : ZoneNo) (s : State) : Out' :=
  .next (if s.heldFor z.val 500000 then s.zoneStep z.val .purge (s.enterZone z.val .outletShut) else s)

/-- EVACUATION_DRY. -/
def execEvacuationDry (z : ZoneNo) (s : State) : Out' :=
  .next (s.zoneStep z.val .outletShut ((s.enterZone z.val .dry).modZone z.val fun x => { x with evac := true }))

/-- COOLANT_FAULT: a step has passed its bound. -/
def execCoolantFault (z : ZoneNo) (s : State) : Out' := .next (if s.overdue z.val then s.faultZone z.val else s)

/-! ## Refill (22 R356) -/

/-- REFILL: after package reset, or 60 s after a DRY evacuation; never after a LEAK, nor on a die held out of service
(DEDUCED, log 81). -/
def execRefill (z : ZoneNo) (s : State) : Out' :=
  let x := s.zone z.val
  .next (if x.state = .dry ∧ !x.leaked ∧ !x.held ∧ (!x.evac ∨ s.passed x.enteredAt 60000000) then s.enterZone z.val .refill else s)

/-- BLEED. -/
def execBleed (z : ZoneNo) (s : State) : Out' := .next (s.zoneStep z.val .refill (s.enterZone z.val .bleed))

/-- An HBM-edge zone is opened to what the controller holds it at, at both service levels (22 R350). -/
def State.holdEdge (s : State) (z : Nat) : State :=
  if z < 32 then s else s.modZone z fun x => { x with step := if x.step < s.leastStep z then s.leastStep z else x.step }

/-- REFILL_DONE: the bleed conditions have held for 2 s. -/
def execRefillDone (z : ZoneNo) (s : State) : Out' :=
  .next (if s.heldFor z.val 2000000 then
      s.zoneStep z.val .bleed
        ((((s.enterZone z.val .filled).modZone z.val fun x =>
          { x with evac := false, lowCount := 0, deltaCount := 0, dryCount := 0 }).holdEdge z.val).gateZone z.val false)
    else s)

/-! ## HBM-edge zones (22 R357) -/

/-- The eight cluster zones of a die are withdrawn until package reset. -/
def State.withdrawDie (s : State) (d : Nat) : State :=
  (List.range 8).foldl (fun s k =>
    let z := 8 * d + k
    ((s.enterZone z .withdrawn).modZone z fun x => { x with held := true }).gateWithdrawn z) s

/-- HBM_EDGE_TRAP: DRY or LEAK on an HBM-edge zone (DEDUCED, log 81). -/
def execHbmEdgeTrap (z : ZoneNo) (s : State) : Out' :=
  let x := s.zone z.val
  let d := zoneDie z.val
  .next (if decide (32 ≤ z.val) && x.inService && !x.held && (x.isDry || x.isLeak) then
      let s := s.coolantKills z.val (if x.isDry then 3 else 4) fun l => l.onDie d
      let s := (s.withdrawDie d).throttle z.val
      (s.modZone z.val fun x => { x with held := true }).emit (.report 6 (BitVec.ofNat 64 z.val))
    else s)

/-! ## The pump and the service level (22 R352, 21 R340, R341) -/

/-- ceil(v ÷ 2). -/
def halfUp (v : BitVec 4) : BitVec 4 := BitVec.ofNat 4 ((v.toNat + 1) / 2)

/-- HBM-edge zones are opened to what they are held at. -/
def State.holdEdges (s : State) : State := (List.range 8).foldl (fun s i => s.holdEdge (32 + i)) s

/-- The clocks change to S1 or S2 when no launch is RUNNING. -/
def State.setService (s : State) (lv : BitVec 2) : State := (s.modMgmt fun m => { m with svc := lv }).holdEdges

/-- From S2 to S1: what cluster zones hold is halved. -/
def State.lowerService (s : State) : State :=
  (List.range 32).foldl (fun s z => s.modZone z fun x => { x with step := halfUp x.step, inuse := halfUp x.inuse }) (s.setService 1)

/-- The package goes from S2 to S1 for want of pump: RUNNING launches are killed. -/
def State.dropToS1 (s : State) : State :=
  if s.mgmt.svc ≠ 2 then s else (s.killRunning .txAborted fun _ _ => true).lowerService

/-- Steps above their zone's inuse, or above what an HBM-edge zone is held at, are lowered, zone by zone, while the sum exceeds
avail (DEDUCED, log 81). -/
def State.lowerSteps (s : State) : State :=
  (List.range 40).reverse.foldl (fun s z =>
    if s.cool.avail.toNat < s.stepSum ∧ (s.leastStep z).toNat < (s.zone z).step.toNat then
      s.modZone z fun x => { x with step := s.leastStep z }
    else s) s

/-- PUMP_AVAIL_LOW: the pump's measurement; below the sum, steps are lowered, then the service level. -/
def execPumpAvailLow (avail : BitVec 9) (s : State) : Out' :=
  let s : State := { s with cool := { s.cool with avail := avail } }
  .next (if avail.toNat < s.stepSum then
      let s := s.lowerSteps
      if avail.toNat < s.stepSum then s.dropToS1 else s
    else s)

end Sys2Proof.Machine
end

