-- ==== Sys2Proof/Machine/Fabric.lean ====
section
/-! DEFINITION. The Ildahar ports, the fabric reduction window at the switch and at its home, and a partition reset across
the fabric (23 R358–R365, R381). -/

namespace Sys2Proof.Machine

open Sys2Proof

/-! ## Ports (23 R358, R359) -/

/-- PORT_TRAIN: en is set, or a failed port is trained again. -/
def execPortTrain (p : PortNo) (s : State) : Out' :=
  .next (s.modPort p.val fun x => if x.state = 3 then { x with en := true, state := 1 } else x.setEn true)

/-- PORT_UP: training ends. -/
def execPortUp (p : PortNo) (sw : BitVec 16) (lanes : BitVec 4) (s : State) : Out' :=
  .next (s.modPort p.val fun x =>
    if x.state = 1 then { x with state := 2, sw := sw, lanes := if 8 < lanes then 8 else lanes } else x)

/-- FLIT_REPLAY (DEDUCED, log 82). -/
def execFlitReplay (p : PortNo) (s : State) : Out' :=
  .next (s.modPort p.val fun x => { x with replays := satAdd 8 x.replays 1 })

/-- Elements in flight over a port are over: fabric reads land poisoned, contributions are lost. -/
def Access.cutPort (p : Nat) (frwin : SMap (Word × Word)) (t : Tag) (a : Access) : Access :=
  { a with elems := a.elems.map fun e =>
      match e.tgt with
      | .fabric i _ =>
        if !e.done && (Config.portOf ((mget (0, 0) frwin i).1.extractLsb' 32 16)).toNat == p then
          { e with done := true, got := if a.kind = .load then some (0, (List.range ((e.size + 7) / 8)).map fun i => (i, t)) else none }
        else e
      | _ => e }

/-- Does a CLGO's schedule name an Ildahar port? A schedule that cannot be read names none. -/
def State.clgoNames (s : State) (c : Nat) (d : ColCmd) (p : Nat) : Bool :=
  let w := s.engine c
  match (readDesc w d.a).go s with
  | (.error _, _) => false
  | (.ok t, _) => (List.range t.steps).any fun i =>
    match (readStep w (s.partNo c) t i).go s with
    | (.ok st, _) => !st.key.net && st.key.port.toNat == p
    | (.error _, _) => false

/-- Does a COL command name an Ildahar port? -/
def State.colNames (s : State) (c p : Nat) (d : ColCmd) : Bool :=
  match d.op with
  | .lksend q => q.toNat == p
  | .lkradd q _ => q.toNat == p
  | .lkrecv q => q.toNat == p
  | .clgo => s.clgoNames c d p
  | _ => false

/-- A receive posted on a port may have been waiting for a message in flight, which is lost: which ones did is free
(DEDUCED, log 82). -/
def State.losePort (s : State) (p : Nat) : State :=
  (s.ctxs.flatMap fun e => (e.2.col.filter fun d =>
      (d.want.map fun k => !k.net && k.port.toNat == p) == some true && d.msg.isNone && !d.lost).map fun d => (e.1, d.id)).foldl
    (fun s e =>
      if Config.pick s.fresh % 2 = 1 then (s.tick.modCol e.1 e.2 fun d => { d with lost := true }).colSettle e.1 else s.tick) s

/-- PORT_FAILURE (DEDUCED, log 82). -/
def execPortFailure (p : PortNo) (s : State) : Out' :=
  let u := dieUnit (p.val / 4) 21
  .next (if (s.port p.val).state ≠ 2 then s
    else
      let t := mkTag u (s.nextRec u)
      let s := (s.openError u 4 (BitVec.ofNat 64 p.val) 0).modPort p.val fun x => { x with state := 3, lanes := 0 }
      let s := s.ctxs.foldl (fun s e =>
        (s.modCtx e.1 fun x => { x with acc := x.acc.map (Access.cutPort p.val s.fab.frwin t) }.cleanAcc).wakeOrders) s
      let named (s : State) (l : Launch) : Bool := l.team.any fun c => (s.ctx c).col.any (s.colNames c p.val)
      let kills := s.sched.launches.filterMap fun e => bif named s e.2 then some e.1 else none
      (s.losePort p.val).killRunning .txAborted fun h _ => kills.contains h)

/-! ## The switch (23 R362) -/

/-- The window word a contribution names. -/
def State.windowWord (s : State) (x : Contribution) : Word := (mget (0, 0) s.fab.frwin x.window.val).1

/-- A partial of a switch joined with a contribution to the same hallmark, home and word. -/
def joinPartial (a : Word) (x : Contribution) (e : Staged) : Staged :=
  if e.isFor x ∧ e.home = x.home then { e with value := joinStaged a e.value x.value } else e

/-- WINDOW_CONTRIBUTION_MERGE: the switch combines a contribution into its partial (DESIGN CHOICE, log 107). -/
def execWindowContributionMerge (x : Contribution) (s : State) : Out' :=
  let a := s.windowWord x
  .next (s.modFab fun f =>
    if f.partials.any fun e => e.isFor x && e.home == x.home then { f with partials := f.partials.map (joinPartial a x) }
    else { f with partials := f.partials ++ [⟨x.hall, x.home, x.window, x.pa, x.value, x.epoch⟩] })

/-! ## The home (23 R362–R364) -/

/-- The partial the switch holds for a contribution's hallmark, home and word; the contribution where it holds none. -/
def State.partialOf (s : State) (x : Contribution) : Contribution :=
  match s.fab.partials.find? fun e => e.isFor x && e.home == x.home with
  | some e => ⟨e.hall, e.home, e.window, e.pa, e.value, e.epoch⟩
  | none => x

/-- A partial reaches this package, its home, and joins the staged entry; without a free slot it is refused, and the issuer's
launch aborts with SHADOW_FULL. -/
def State.takePartial (s : State) (x : Contribution) : State :=
  let r := (s.seeEpoch (issuerOf x.hall) x.epoch).stage x
  if r.2 then r.1
  else if (r.1.launch x.hall).isSome then r.1.abortLaunch x.hall .shadowFull
  else r.1.emit (.report 7 (x.hall.setWidth 64))

/-- A partial goes to another package, its home. Whether a slot is free there is not this package's to know: where the home
refuses it, the launch here that issued it aborts with SHADOW_FULL (DESIGN CHOICE, log 3). -/
def State.sendPartial (s : State) (x : Contribution) : State :=
  if (s.launch x.hall).isSome && Config.pick s.fresh % 2 == 1 then s.tick.abortLaunch x.hall .shadowFull else s.tick

/-- The switch forwards a partial to its home and no longer holds it. -/
def State.forward (s : State) (x : Contribution) : State :=
  let y := s.partialOf x
  let s := s.modFab fun f => { f with partials := f.partials.filter fun e => !(e.isFor x && e.home == x.home) }
  if frHome (s.windowWord x) then s.takePartial y else s.sendPartial y

/-- WINDOW_PARTIAL_STAGE: the merged partial is forwarded. -/
def execWindowPartialStage (x : Contribution) (s : State) : Out' := .next (s.forward x)

/-- A hallmark's partials are forwarded at the latest when its commit or discard message passes (23 R362). -/
def State.forwardAll (s : State) (h : Hall) : State :=
  (s.fab.partials.filter fun e => e.hall == h).foldl (fun s e => s.forward ⟨e.hall, e.home, e.window, e.pa, e.value, e.epoch⟩) s

/-- Combine a staged entry into committed memory, as a host write (DEDUCED, log 84). -/
def State.applyStaged (s : State) (e : Staged) : State :=
  let a := (mget (0, 0) s.fab.frwin e.window.val).1
  let n := e.pa / 64
  let v := s.mem.committed n
  let w := applyElem (.atomic (frOp a)) (v.word (e.pa / 8 % 8)) (e.pa % 8) (2 ^ bitsAt a.toNat 56 2) e.value.toNat 0
  s.writeHost ⟨e.pa / 8, w.1, 255, w.2⟩ v.key

/-- WINDOW_COMMIT_MESSAGE: every staged entry of the hallmark is applied in one step, and acknowledged. -/
def execWindowCommitMessage (h : Hall) (s : State) : Out' :=
  let s := s.forwardAll h
  let l := s.fab.staged.filter fun e => e.hall == h
  .next (((l.foldl State.applyStaged s).dropStaged fun e => e.hall == h).emit (.ack h (issuerOf h)))

/-- WINDOW_DISCARD_MESSAGE: the staged entries of an aborted hallmark are released, and its held messages are poisoned. -/
def execWindowDiscardMessage (h : Hall) (s : State) : Out' :=
  .next (((s.forwardAll h).dropStaged fun e => e.hall == h).poisonHall h)

/-- EPOCH_RELEASE: a newer epoch of an issuer releases its older entries. -/
def execEpochRelease (pkg : BitVec 16) (epoch : BitVec 32) (s : State) : Out' :=
  .next (s.seeEpoch pkg epoch)

/-! ## Partition reset (23 R381) -/

/-- The tag of a partition reset (01 R25, 21 R329) (DEDUCED, log 83). -/
def resetTag : Tag := 0xFE0

/-- Queued commands of a partition's contexts are discarded, posted receives with them (DEDUCED, log 83). -/
def State.dropPart (s : State) (p : Fin 64) : State :=
  let mine (c : Nat) : Bool := (s.partOf c) == some p
  let s := s.ctxs.foldl (fun s e => bif mine e.1 then s.modCtx e.1 Ctx.dropCommands else s) s
  (List.range 32).foldl (fun s k => s.modCluster k fun x =>
    { x with
      walker := x.walker.dropOf mine
      chans := x.chans.map fun e =>
        if ((e.2.hall.bind s.launch).map fun l => l.part) == some p then (e.1, { e.2 with heads := [], state := 0 }) else e }) s

/-- Every hallmark of a partition that has not flipped aborts, and its team goes. -/
def State.abortPart (s : State) (p : Fin 64) : State :=
  s.sched.launches.foldl (fun s e => if e.2.part = p then s.killLaunch e.1 .reset else s) s

/-- Partition reset. Entries staged for a window the partition owns are released at once, so that a commit message finds
none to apply (DEDUCED, log 83). -/
def State.presetPart (s : State) (p : Fin 64) : State :=
  let s := s.queueNos.foldl (fun s q => if (s.queue q).owner = p then s.modQueue q fun d => { d with en := false, tailErr := false } else s) s
  let s := (s.dropPart p).abortPart p
  let s := (s.poisonHeld (fun m => m.part.val == p.val) resetTag).emit (.poisonedPart p)
  let s : State := { s with dies := s.dies.map fun e => (e.1, { e.2 with lost := e.2.lost.filter fun m => m.part.val ≠ p.val }) }
  let own (i : Nat) : Bool := bitsAt (mget (0, 0) s.fab.frwin i).1.toNat 50 6 == p.val
  let s := (s.dropStaged fun e => own e.window.val).modFab fun f =>
    { f with partials := f.partials.filter fun e => !(own e.window.val && frHome (mget (0, 0) f.frwin e.window.val).1) }
  let s := s.modSched fun x => { x with preloads := x.preloads.filter fun e => (s.queue e.queue).owner ≠ p }
  s.queueNos.foldl (fun s q =>
    if (s.queue q).owner = p then s.modQueue q fun d => { d with head := d.seen, recs := [] } else s) s

end Sys2Proof.Machine
end

