-- ==== Sys2Proof/Machine/Container.lean ====
section
/-! DEFINITION. Peraro containers: their sections, P-form kernels, the private forms of tensors
and their tile images (02 R59–R61, 17 R289–R304, R393). -/

namespace Sys2Proof.Machine

open Sys2Proof

/-! ## Results (17 R312) -/

/-- Why an installation fails. -/
inductive InsErr where
  | signature | format | tensor | placement | verify (d : Diag) | link | space
  deriving DecidableEq, Repr

/-- Its code. -/
def InsErr.code : InsErr → Nat
  | .signature => 1 | .format => 2 | .tensor => 3 | .placement => 4 | .verify _ => 5 | .link => 6 | .space => 7

/-- Its diagnostic, where the spec says what that names. -/
def InsErr.diag : InsErr → Option Diag
  | .verify d => some d
  | _ => none

/-- A stage of an installation. -/
abbrev IM (α : Type) := Except InsErr α

/-- Go on, or fail. -/
def need (p : Bool) (e : InsErr) : IM Unit := if p then pure () else throw e

/-! ## Bytes -/

/-- The little-endian number at an offset. -/
def leAt (b : List Byte) (o n : Nat) : Nat := natOf ((b.drop o).take n)

/-- Bytes at an offset. -/
def cut (b : List Byte) (o n : Nat) : List Byte := (b.drop o).take n

/-- `n` pieces of `size` bytes from an offset. -/
def table (b : List Byte) (o size n : Nat) : List (List Byte) := (List.range n).map fun i => cut b (o + size * i) size

/-- A name is padded with zeros. -/
def padded (b : List Byte) : Bool := (b.dropWhile fun x => x != 0).all fun x => x == 0

/-- How many bytes of a UTF-8 character are still to come, and the range of the next one. -/
structure Utf8 where
  left : Nat
  lo : Nat
  hi : Nat
  deriving DecidableEq, Repr

/-- Read a byte of UTF-8; none where it may not stand there. -/
def Utf8.step (u : Utf8) (b : Byte) : Option Utf8 :=
  let n := b.toNat
  if 0 < u.left then if u.lo ≤ n ∧ n ≤ u.hi then some ⟨u.left - 1, 0x80, 0xBF⟩ else none
  else if n < 0x80 then some ⟨0, 0, 0⟩
  else if 0xC2 ≤ n ∧ n ≤ 0xDF then some ⟨1, 0x80, 0xBF⟩
  else if 0xE0 ≤ n ∧ n ≤ 0xEF then some ⟨2, if n = 0xE0 then 0xA0 else 0x80, if n = 0xED then 0x9F else 0xBF⟩
  else if 0xF0 ≤ n ∧ n ≤ 0xF4 then some ⟨3, if n = 0xF0 then 0x90 else 0x80, if n = 0xF4 then 0x8F else 0xBF⟩
  else none

/-- Whole UTF-8 characters. -/
def utf8 (b : List Byte) : Bool := ((b.foldlM Utf8.step ⟨0, 0, 0⟩).map fun u => u.left == 0).getD false

/-- Round up to a multiple. -/
def roundUp (n m : Nat) : Nat := (n + m - 1) / m * m

/-! ## Sections (17 R289) -/

/-- A section table entry. -/
structure Sect where
  typ : Nat
  off : Nat
  len : Nat
  deriving DecidableEq, Repr

/-- The level a container may need: that of the part, or below (DEDUCED, log 90). -/
def levelOk (l : Nat) : Bool := decide (l ≤ 0x10)

/-- The 64-byte header (DEDUCED, log 90). -/
def prcHeaderOk (b : List Byte) : Bool :=
  decide (64 ≤ b.length) && leAt b 0 4 == 0x31435250 && leAt b 4 2 == 0x0100 && decide (2 ≤ leAt b 6 2) &&
    decide (leAt b 6 2 ≤ 262) && leAt b 8 8 == b.length && leAt b 0x10 8 == 64 && levelOk (leAt b 0x18 1) && leAt b 0x19 39 == 0

/-- The section table. -/
def sections (b : List Byte) : List Sect :=
  (table b 64 32 (leAt b 6 2)).map fun e => ⟨leAt e 0 4, leAt e 8 8, leAt e 0x10 8⟩

/-- Reserved fields of the table are zero. -/
def tableClean (b : List Byte) : Bool :=
  (table b 64 32 (leAt b 6 2)).all fun e => e.length == 32 && leAt e 4 4 == 0 && leAt e 0x18 8 == 0

/-- A section lies where it may. -/
def Sect.ok (n total : Nat) (x : Sect) : Bool :=
  decide (1 ≤ x.typ) && decide (x.typ ≤ 7) && x.off % 64 == 0 && decide (64 + 32 * n ≤ x.off) && decide (x.off + x.len ≤ total)

/-- Is a byte of the container inside the header, the table or a section? -/
def inside (n : Nat) (l : List Sect) (i : Nat) : Bool :=
  decide (i < 64 + 32 * n) || l.any fun x => decide (x.off ≤ i) && decide (i < x.off + x.len)

/-- No two sections share a byte. -/
def apart : List Sect → Bool
  | [] => true
  | x :: t => (t.all fun y => decide (x.off + x.len ≤ y.off) || decide (y.off + y.len ≤ x.off)) && apart t

/-- Every type but 5 appears at most once, and the signature, last in the table, ends the container (DEDUCED, log 90).
-/
def sectionsOk (b : List Byte) (l : List Sect) : Bool :=
  let n := leAt b 6 2
  tableClean b && l.all (Sect.ok n b.length) && apart l &&
    ([1, 2, 3, 4, 6, 7].all fun t => decide ((l.filter fun x => x.typ == t).length ≤ 1)) &&
    (match l.getLast? with | some x => x.typ == 7 && x.off + x.len == b.length | none => false) &&
    b.zipIdx.all fun e => e.1 == 0 || inside n l e.2

/-- The bytes of the section of a type, empty when it is absent. -/
def sectOf (b : List Byte) (l : List Sect) (t : Nat) : List Byte :=
  match l.find? fun x => x.typ == t with
  | some x => cut b x.off x.len
  | none => []

/-- The signature passes (17 R290): a trusted signer's key, which the fingerprint names, signed what comes before
(DEDUCED, log 90). -/
def signatureOk (signers : List (BitVec 256)) (b : List Byte) (x : Sect) : Bool :=
  let g := cut b x.off x.len
  let be (o : Nat) : BitVec 256 := BitVec.ofNat 256 (beNat (cut g o 32))
  let key := Config.signerKey (be 8)
  x.len == 104 && leAt g 0 4 == 1 && leAt g 4 4 == 0 && signers.contains (be 8) &&
    sha256 (4 :: (beBytes 32 key.1.toNat ++ beBytes 32 key.2.toNat)) == be 8 &&
    ecdsaVerify key (sha256 (b.take x.off)) (be 0x28) (be 0x48)

/-! ## Tensors (17 R292) -/

/-- A tensor entry. -/
structure Tensor where
  name : List Byte
  ptype : Nat
  rank : Nat
  req : Nat
  fixed : Bool
  dims : List Nat
  doff : Nat
  dlen : Nat
  deriving DecidableEq, Repr

/-- An entry's fields. -/
def Tensor.ofBytes (e : List Byte) : Tensor :=
  let w := leAt e 0x20 8
  ⟨cut e 0 32, bitsAt w 0 4, bitsAt w 4 4, bitsAt w 8 4, bitAt w 12, (List.range 4).map fun i => leAt e (0x28 + 4 * i) 4,
    leAt e 0x38 8, leAt e 0x40 8⟩

/-- Bytes of an element of a portable type. -/
def esize (ptype : Nat) : Nat := match ptype with | 1 => 1 | 2 => 2 | _ => 4

/-- Number of elements. -/
def Tensor.count (t : Tensor) : Nat := (t.dims.take t.rank).foldl (· * ·) 1

/-- The entry's form is that of 17 R292. -/
def Tensor.formOk (dataLen : Nat) (e : List Byte) : Bool :=
  let t := Tensor.ofBytes e
  padded t.name && utf8 t.name && leAt e 0x20 8 / 2 ^ 13 == 0 && leAt e 0x48 24 == 0 && decide (1 ≤ t.ptype) && decide (t.ptype ≤ 3) &&
    decide (1 ≤ t.rank) && decide (t.rank ≤ 4) && decide (t.req ≤ 4) &&
    ((t.dims.take t.rank).all fun d => decide (1 ≤ d) && decide (d < 2 ^ 31)) && ((t.dims.drop t.rank).all fun d => d == 0) &&
    decide (t.doff + t.dlen ≤ dataLen)

/-- Names are unique. -/
def distinct {α : Type} [BEq α] : List α → Bool
  | [] => true
  | x :: t => !t.contains x && distinct t

/-- The tensors section. -/
def parseTensors (b data : List Byte) : IM (List Tensor) := do
  let es := table b 0 96 (b.length / 96)
  need (b.length % 96 == 0 && es.all (Tensor.formOk data.length)) .format
  let ts := es.map Tensor.ofBytes
  need (distinct (ts.map (·.name))) .format
  need (ts.all fun t => t.dlen == t.count * esize t.ptype) .tensor
  pure ts

/-! ## Code streams (02 R29) -/

/-- A bundle of a stream. -/
inductive SBundle where
  | nop
  | idx (n : Nat)
  | lit (b : BundleBits)
  deriving DecidableEq, Repr

/-- Halfwords of a bundle in a stream. -/
def SBundle.len : SBundle → Nat
  | .lit _ => 25
  | _ => 1

/-- The halfwords of a bundle. -/
def SBundle.halves : SBundle → List Nat
  | .nop => [0]
  | .idx n => [n]
  | .lit b => 0xFFFF :: (List.range 24).map fun i => bitsAt b.toNat (16 * i) 16

/-- The bundles of a stream with their PCs; none where a halfword is reserved or a literal is cut short. -/
def bundlesAt : Nat → Nat → List Nat → Option (List (Nat × SBundle))
  | _, _, [] => some []
  | 0, _, _ => none
  | k + 1, pc, h :: t =>
    if h = 0 then (bundlesAt k (pc + 1) t).map fun l => (pc, .nop) :: l
    else if h ≤ 0xFFF then (bundlesAt k (pc + 1) t).map fun l => (pc, .idx h) :: l
    else if h = 0xFFFF ∧ 24 ≤ t.length then
      (bundlesAt k (pc + 25) (t.drop 24)).map fun l =>
        (pc, .lit (BitVec.ofNat 384 ((t.take 24).foldr (fun x a => x + 65536 * a) 0))) :: l
    else none

/-- The PC of the first halfword of a stream that is no bundle's: reserved, or of a literal cut short. -/
def badFrom : Nat → Nat → List Nat → Nat
  | 0, pc, _ => pc
  | _, pc, [] => pc
  | k + 1, pc, h :: t =>
    if h ≤ 0xFFF then badFrom k (pc + 1) t
    else if h = 0xFFFF ∧ 24 ≤ t.length then badFrom k (pc + 25) (t.drop 24)
    else pc

/-- As `badFrom`, of a whole stream. -/
def badHalf (l : List Nat) : Nat := badFrom l.length 0 l

/-- The bundles of a whole stream. -/
def streamBundles (l : List Nat) : Option (List (Nat × SBundle)) := bundlesAt l.length 0 l

/-- Bytes of a stream. -/
def streamBytes (l : List Nat) : List Byte := l.flatMap (bytesOf 2)

/-! ## P-form kernels (17 R294, R302, R393) -/

/-- A fixup. -/
structure Fixup where
  pc : Nat
  slot : Nat
  kind : Nat
  index : Nat
  q : Nat
  deriving DecidableEq, Repr

/-- A fixup of its 16 bytes; none where a reserved field is not zero. -/
def Fixup.ofBytes (e : List Byte) : Option Fixup :=
  if leAt e 6 2 = 0 ∧ leAt e 8 8 / 2 ^ 18 = 0 then
    some ⟨leAt e 0 4, leAt e 4 1, leAt e 5 1, leAt e 8 2, bitsAt (leAt e 8 8) 16 2⟩
  else none

/-- Resource needs of a kernel. -/
structure Needs where
  gran : Nat
  chan : Nat
  bars : Nat
  words : Nat
  routines : Nat
  power : Nat
  deriving DecidableEq, Repr

/-- The needs that apply when none are written. -/
def Needs.default_ : Needs := ⟨1, 1, 1, 64, 8, 0⟩

/-- Needs of a P-form header. -/
def Needs.ofBytes (b : List Byte) : Needs :=
  if bitAt (leAt b 0x3C 4) 0 then ⟨leAt b 0x30 1, leAt b 0x31 1, leAt b 0x32 1, leAt b 0x34 2, leAt b 0x36 2, leAt b 0x38 4⟩
  else .default_

/-- Every value is in its range. -/
def Needs.ok (n : Needs) : Bool :=
  decide (1 ≤ n.gran) && decide (n.gran ≤ 8) && decide (1 ≤ n.chan) && decide (n.chan ≤ 16) && decide (1 ≤ n.bars) &&
    decide (n.bars ≤ 16) && decide (n.words ≤ 1024) && decide (n.routines ≤ 256)

/-- A kernel. -/
structure Kernel where
  name : List Byte
  stream : List (Nat × SBundle)
  dict : List BundleBits
  entries : List (BitVec 32)
  imports : List (List Byte)
  fixups : List Fixup
  exports : List (List Byte × Nat)
  needs : Needs
  deriving DecidableEq, Repr

/-- Tensors a kernel names, which are those a node of it uses (DEDUCED, log 92). -/
def Kernel.tensors (k : Kernel) : List Nat := (k.fixups.filter fun f => f.kind != 5).map (·.index)

/-- The bundle a stream's bundle stands for. -/
def SBundle.bits (dict : List BundleBits) : SBundle → BundleBits
  | .nop => 0
  | .idx n => (dict[n - 1]?).getD 0
  | .lit b => b

/-- Does a fixup name a MOVI or MOVK in a literal, and a tensor or import there is? -/
def Fixup.ok (stream : List (Nat × SBundle)) (tensors imports : Nat) (f : Fixup) : Bool :=
  (match stream.find? fun e => e.1 == f.pc with
    | some (_, .lit b) =>
      let op := bitsAt b.toNat (if f.slot = 1 then 320 else 280) 8
      (f.slot == 1 || f.slot == 2) && (op == 0x20 || op == 0x21)
    | _ => false) &&
  match f.kind with
  | 1 | 2 | 3 | 4 => decide (f.index < tensors)
  | 5 => decide (f.index < imports)
  | _ => false

/-- A kernels section. A stream that cannot be taken apart is the verifier's to reject. -/
def parseKernel (tensors : Nat) (b : List Byte) : IM Kernel := do
  let hs := leAt b 0x20 2
  let ds := leAt b 0x22 2
  let es := leAt b 0x24 2
  let is_ := leAt b 0x26 2
  let fs := leAt b 0x28 2
  let xs := leAt b 0x2A 2
  let oStream := 64 + 48 * ds
  let oEntry := oStream + roundUp (2 * hs) 8
  let oImp := oEntry + 4 * es
  let oFix := oImp + 32 * is_
  let oExp := oFix + 16 * fs
  need (decide (64 ≤ b.length) && b.length == oExp + 32 * xs && padded (cut b 0 32) && leAt b 0x2C 4 == 0 && leAt b 0x33 1 == 0
    && leAt b 0x3C 4 / 2 == 0 && leAt b (oStream + 2 * hs) (oEntry - oStream - 2 * hs) == 0 && decide (ds ≤ 4095)) .format
  let needs := Needs.ofBytes b
  need needs.ok .format
  let dict := (table b 64 48 ds).map fun e => BitVec.ofNat 384 (natOf e)
  match streamBundles ((table b oStream 2 hs).map natOf) with
  | none => throw (.verify ⟨cut b 0 32, none, some (badHalf ((table b oStream 2 hs).map natOf)), none⟩)
  | some stream =>
    let imports := table b oImp 32 is_
    match (table b oFix 16 fs).mapM Fixup.ofBytes with
    | none => throw .format
    | some fixups =>
      let exports := (table b oExp 32 xs).map fun e => (cut e 0 30, leAt e 30 2)
      need (fixups.all (Fixup.ok stream tensors is_)) .format
      need (exports.all fun e => padded e.1 && decide (e.2 < es)) .format
      pure ⟨cut b 0 32, stream, dict, (table b oEntry 4 es).map fun e => BitVec.ofNat 32 (natOf e), imports, fixups, exports, needs⟩

/-! ## The graph and the exports (17 R293, R294) -/

/-- A graph node. -/
structure GNode where
  kobj : Nat
  entry : Nat
  deriving DecidableEq, Repr

/-- The graph section. -/
def parseGraph (ks : List Kernel) (b : List Byte) : IM (List GNode) := do
  let es := table b 0 32 (b.length / 32)
  need (b.length % 32 == 0 && decide (es.length ≤ 65536) && es.all fun e =>
    leAt e 4 4 == 0 && leAt e 0x10 16 == 0 &&
      (match ks[leAt e 0 2]? with | some k => decide (leAt e 2 2 < k.entries.length) | none => false) &&
      (List.range 4).all fun i => leAt e (8 + 2 * i) 2 == 0xFFFF || decide (leAt e (8 + 2 * i) 2 < es.length)) .format
  pure (es.map fun e => ⟨leAt e 0 2, leAt e 2 2⟩)

/-- The exports section: name, object, entry. -/
def parseExports (ks : List Kernel) (b : List Byte) : IM (List (BitVec 256 × Nat × Nat)) := do
  let es := table b 0 36 (b.length / 36)
  need (b.length % 36 == 0 && es.all fun e =>
    padded (cut e 0 32) &&
      (match ks[leAt e 32 2]? with | some k => decide (leAt e 34 2 < k.entries.length) | none => false)) .format
  pure (es.map fun e => (BitVec.ofNat 256 (leAt e 0 32), leAt e 32 2, leAt e 34 2))

/-! ## A container -/

/-- What a container holds; `model` is the manifest's name and version (17 R291). -/
structure Container where
  bytes : List Byte
  model : List Byte
  tensors : List Tensor
  data : List Byte
  nodes : List GNode
  kernels : List Kernel
  exports : List (BitVec 256 × Nat × Nat)
  deriving DecidableEq, Repr

/-- Read a container: its form and its signature, and only then any other section (DEDUCED, log 90). -/
def parseContainer (signers : List (BitVec 256)) (b : List Byte) : IM Container := do
  need (prcHeaderOk b) .format
  let l := sections b
  need (sectionsOk b l) .format
  need (match l.getLast? with | some x => signatureOk signers b x | none => false) .signature
  let man := sectOf b l 1
  need ((l.all fun x => x.typ != 1) || (man.length == 128 && padded (cut man 0 64) && utf8 (cut man 0 64) && leAt man 0x48 56 == 0)) .format
  let data := sectOf b l 3
  let ts ← parseTensors (sectOf b l 2) data
  let ks ← (l.filter fun x => x.typ == 5).mapM fun x => parseKernel ts.length (cut b x.off x.len)
  let ns ← parseGraph ks (sectOf b l 4)
  let xs ← parseExports ks (sectOf b l 6)
  pure ⟨b, man.take 72, ts, data, ns, ks, xs⟩

/-! ## Private forms (17 R298) -/

/-- The private form of a tensor: plain, or a matrix form with its tile layout. -/
inductive PForm where
  | plain
  | matrix (afmt bfmt : MxFmt) (baxis : Bool)
  deriving DecidableEq, Repr

/-- The MLDW uses of a tensor: in the kernels that name it, in order (17 R298) (DEDUCED, log 92). -/
def mldwUses (bytes : List Byte) (ks : List Kernel) (t : Nat) : List (MxFmt × MxFmt) :=
  ks.zipIdx.flatMap fun k =>
    if k.1.tensors.contains t then
      k.1.stream.flatMap fun e =>
        if Config.mldwLoads bytes t k.2 e.1 then
          match decodeBundle (e.2.bits k.1.dict) with
          | .ok b => b.slots.filterMap fun x => match x.2 with | .mldw o => some (o.afmt, o.bfmt) | _ => none
          | .illegal _ => []
        else []
    else []

/-- The private form of a tensor by its MLDW uses, which must agree, and its block axis; or TENSOR. -/
def Tensor.form (t : Tensor) (uses : List (MxFmt × MxFmt)) (baxis : Bool) : IM PForm :=
  match uses with
  | [] => pure .plain
  | u :: l => do
    need (l.all fun v => v == u) .tensor
    need (decide (2 ≤ t.rank)) .tensor
    need (if t.ptype = 1 then u.2 == .mxi8 && (t.req == 0 || t.req == 1) else t.req == 0 || t.req == u.2.num + 1) .tensor
    pure (.matrix u.1 u.2 baxis)

/-- The tiling of a tensor: slabs, K, N, K_t, TK, TN and the stride. -/
structure Tiling where
  form : PForm
  slabs : Nat
  k : Nat
  n : Nat
  kt : Nat
  tk : Nat
  tn : Nat
  stride : Nat
  deriving DecidableEq, Repr

/-- Bytes of a tile image (06 R142). -/
def tileBytes (w : MxFmt) (kt : Nat) : Nat := 128 * (kt / 32) * (4 * w.bits) + 128 * (kt / 32) + 4 * kt

/-- The tiling of a form. -/
def Tensor.tiling (t : Tensor) (f : PForm) : Tiling :=
  match f with
  | .plain => ⟨f, 1, 0, 0, 0, 1, 1, roundUp t.dlen 256⟩
  | .matrix a w x =>
    let hi := (t.dims[t.rank - 2]?).getD 1
    let lo := (t.dims[t.rank - 1]?).getD 1
    let k := if x then lo else hi
    let n := if x then hi else lo
    let kt := gangK (gangOf a w)
    ⟨f, (t.dims.take (t.rank - 2)).foldl (· * ·) 1, k, n, kt, (k + kt - 1) / kt, (n + 127) / 128, roundUp (tileBytes w kt) 256⟩

/-! ## Tile images (17 R299, 06 R142) -/

/-- An element of a tensor's data by its row-major number. -/
def Tensor.elem (t : Tensor) (data : List Byte) (i : Nat) : Nat := leAt data (t.doff + i * esize t.ptype) (esize t.ptype)

/-- Scale and codes of 32 elements, where `none` is padding. -/
def encodeTileBlock (ptype : Nat) (w : MxFmt) (l : List (Option Nat)) : Nat × List Int :=
  if ptype = 1 then (0x85, l.map fun o => match o with | some x => signedOf 8 x | none => 0)
  else if l.all Option.isNone then (0, l.map fun _ => 0)
  else
    w.encodeBlock .rne (l.map fun o =>
      match o with
      | some x => Fmt.bf16.decode (if ptype = 3 then convert .fp32 .bf16 .rne false x else x)
      | none => .num false 0 0)

/-- The image of tile (s, tn, tk), padded to the stride. -/
def tileImage (t : Tensor) (g : Tiling) (data : List Byte) (w : MxFmt) (x : Bool) (s tn tk : Nat) : List Byte :=
  let nb := g.kt / 32
  let cell (k n : Nat) : Option Nat :=
    if k < g.k ∧ n < g.n then some (t.elem data (s * (g.k * g.n) + (if x then n * g.k + k else k * g.n + n))) else none
  let blocks := (List.range 128).map fun n => (List.range nb).map fun j =>
    encodeTileBlock t.ptype w ((List.range 32).map fun i => cell (tk * g.kt + 32 * j + i) (128 * tn + n))
  let codes := blocks.flatMap fun r => r.flatMap fun b => bytesOf (4 * w.bits) (packCodes w.bits b.2)
  let scales := blocks.flatMap fun r => r.map fun b => BitVec.ofNat 8 b.1
  let sums := (List.range g.kt).flatMap fun k =>
    let v : Int := (blocks.map fun r => (((r[k / 32]?).map (·.2)).getD [])[k % 32]?.getD 0).sum
    bytesOf 4 (Fmt.fp32.encode .rne false (.ofInt v))
  codes ++ scales ++ sums ++ List.replicate (g.stride - tileBytes w g.kt) 0

/-! ## Placement (17 R295–R297) -/

/-- Footprints (ld, lk), smallest first, fewer dies first. -/
def footprints : List (Nat × Nat) :=
  [(0, 0), (0, 1), (1, 0), (0, 2), (1, 1), (2, 0), (0, 3), (1, 2), (2, 1), (1, 3), (2, 2), (2, 3)]

/-- Tile columns of a footprint cluster: the first, and the one after the last. -/
def columns (tn clusters f : Nat) : Nat × Nat :=
  let c := (tn + clusters - 1) / clusters
  (min (f * c) tn, min ((f + 1) * c) tn)

/-- Does the largest shard of a tensor fit a granule budget on so many clusters? -/
def Tiling.fits (g : Tiling) (clusters gran : Nat) : Bool :=
  g.form == .plain || decide (g.slabs * ((g.tn + clusters - 1) / clusters) * g.tk * g.stride ≤ 8 * gran * 65536)

/-- Least valve step that removes a power in mW at a 15 K rise (22 R346). -/
def classOf (power : Nat) : Nat := (power + 5199) / 5200

/-- Place in `footprints` of the smallest footprint a node's own needs allow. `dict` gives the dictionary entries of the
image lowered for so many clusters (17 R393). -/
def nodeFootprint (gs : List Tiling) (k : Kernel) (dict : Nat → Nat) : Option Nat :=
  if 15 < classOf k.needs.power then none
  else footprints.findIdx? fun f =>
    decide (dict (2 ^ (f.1 + f.2)) ≤ 4096) && (k.tensors.filterMap fun t => gs[t]?).all fun g => g.fits (2 ^ (f.1 + f.2)) k.needs.gran

/-- One round of sizing every user of a matrix-form tensor to the largest of them. -/
def shareRound (gs : List Tiling) (users : List (List Nat)) (l : List Nat) : List Nat :=
  (List.range gs.length).foldl (fun l t =>
    if ((gs[t]?).map (·.form)) == some .plain then l
    else
      let mine (i : Nat) : Bool := ((users[i]?).getD []).contains t
      let m := (l.zipIdx.filter fun e => mine e.2).foldl (fun a e => max a e.1) 0
      l.zipIdx.map fun e => if mine e.2 then m else e.1) l

/-- The footprint of every node, or PLACEMENT (DEDUCED, log 92). -/
def placeNodes (gs : List Tiling) (c : Container) (dict : Nat → Nat) : IM (List (Nat × Nat)) :=
  let ks := c.nodes.map fun n => (c.kernels[n.kobj]?)
  match (ks.mapM fun k => k.bind fun k => nodeFootprint gs k dict) with
  | none => throw .placement
  | some l =>
    let users := ks.map fun k => (k.map Kernel.tensors).getD []
    pure (((List.range l.length).foldl (fun l _ => shareRound gs users l) l).map fun i => (footprints[i]?).getD (0, 0))

/-- The footprint that cuts a tensor: that of the nodes that use it; (0, 0) where none does. -/
def tensorFootprint (c : Container) (fp : List (Nat × Nat)) (t : Nat) : Nat × Nat :=
  let users := c.nodes.zipIdx.filter fun n => (((c.kernels[n.1.kobj]?).map Kernel.tensors).getD []).contains t
  ((users.head?.bind fun n => fp[n.2]?)).getD (0, 0)

/-! ## Fixups and lowered code (17 R302–R304) -/

/-- Write a value into the immediate of a slot of a bundle. -/
def patchBundle (b : BundleBits) (slot v : Nat) : BundleBits :=
  BitVec.ofNat 384 (putBits b.toNat (if slot = 1 then 288 else 248) 16 v)

/-- Write every fixup; `val` gives its value. -/
def patchStream (val : Fixup → Nat) (fs : List Fixup) (l : List (Nat × SBundle)) : List (Nat × SBundle) :=
  l.map fun e =>
    match e.2 with
    | .lit b => (e.1, .lit ((fs.filter fun f => f.pc == e.1).foldl (fun b f => patchBundle b f.slot (val f)) b))
    | _ => e

/-- Where the C slot of a bundle goes: the PC after it is `npc`. -/
def targetOf (npc : Nat) (i : Instr) : Option Nat :=
  match i with
  | .br o => some (BitVec.ofNat 32 npc + o.off.signExtend 32).toNat
  | .call o => some (BitVec.ofNat 32 npc + o.off.signExtend 32).toNat
  | .loop o => some (npc + o.off.toNat)
  | .loopr o => some (npc + o.off.toNat)
  | _ => none

/-- A lowered kernel: the halfwords of its stream, its dictionary, its entry PCs. -/
structure Lowered where
  stream : List Nat
  dict : List BundleBits
  entries : List (BitVec 32)
  deriving DecidableEq, Repr

/-! ## The resolver (17 R307; 20 lists it) -/

/-- A bundle of some slots. -/
def bun (l : List (Slot × Instr)) : BundleBits := encodeBundle ⟨.plain, l⟩

/-- `LD` of a size at a displacement counted in elements, land 140. -/
def ldAt (t base : SReg) (size : Size) (disp : BitVec 8) : Slot × Instr :=
  (.l, .ld ⟨.always, .relaxed, .ctx, t, base, 0, size, 140, disp⟩)

/-- `LOOP n` of one bundle. -/
def loopOne (n : BitVec 12) : Slot × Instr := (.c, .loop ⟨.always, n, 1⟩)

/-- The twelve bundles of the resolver. -/
def resolverDict : List BundleBits :=
  [bun [(.c, .mfc ⟨.always, 52, 0x02B⟩), ldAt 55 54 .d 1],
   bun [loopOne 138],
   bun [(.s0, .bext ⟨.s0, .always, 55, 55, 0, 7, false⟩)],
   bun [(.s0, .lea ⟨.s0, .always, 52, 52, 55, 4⟩)],
   bun [ldAt 52 52 .d 0],
   bun [ldAt 55 54 .d 1],
   bun [(.s0, .shri ⟨.s0, .always, 55, 55, 14⟩)],
   bun [(.s0, .sub ⟨.s0, .always, 52, 52, 55⟩)],
   bun [ldAt 55 52 .w 0xFF],
   bun [loopOne 139, ldAt 52 54 .d 1],
   bun [(.s0, .bins ⟨.s0, .always, 55, 52, 32, 7⟩)],
   bun [(.c, .ret ⟨.always, 55⟩), (.l, .st ⟨.always, .release, .pkg, 55, 54, 0, .d, 0⟩)]]

/-- The resolver's code. -/
def resolverCode : Lowered :=
  ⟨[0x1, 0x2, 0x0, 0x3, 0x4, 0x5, 0x2, 0x0, 0x6, 0x2, 0x0, 0x7, 0x8, 0x9, 0xA, 0x0, 0xB, 0xC], resolverDict, [0]⟩

end Sys2Proof.Machine
end

