-- ==== Sys2Proof/Machine/Verify.lean ====
section
/-! DEFINITION. The installer's verifier: what each instruction reads and produces as its schedule sees it, the paths of a
kernel, and the checks of 02 R61, 03 R76, R79, R92, 06 R163, R166 and 07 R183. -/

namespace Sys2Proof.Machine

open Sys2Proof

/-! ## Reads and results (02 R52–R55) -/

/-- A result of a slot: its register, the first and last tick after issue at which it may land on any stepping, and the first
and last the stepping publishes (02 R56, 25 R389). -/
structure Arrives where
  dest : Dest
  first : Nat
  last : Nat
  lo : Nat
  hi : Nat
  deriving DecidableEq, Repr

/-- A fixed-latency result with its bound, at which the stepping lands it. -/
def fixedRes (d : Dest) (b : Nat) : List Arrives := [⟨d, 1, b, b, b⟩]

/-- A fixed-latency result with its bound and the ticks at which the stepping lands it. -/
def soonRes (d : Dest) (b lo hi : Nat) : List Arrives := [⟨d, 1, b, lo, hi⟩]

/-- The result of a variable-latency request. -/
def landRes (d : Dest) (n : Nat) : List Arrives := [⟨d, n, n, n, n⟩]

/-- Has the result a window in which it may not be read? -/
def Arrives.fixed (r : Arrives) : Bool := decide (r.first < r.last)

/-- The result of an atomic: none where it fetches nothing. -/
def atomRes (o : LScalarArgs) : List Arrives := if o.t = 0 then [] else landRes (.s o.t) (landL o.land)

end Sys2Proof.Machine

namespace Sys2Proof

open Sys2Proof.Machine

/-- What an instruction produces, and when (02 R52–R54). A blocking instruction's result is readable by the next bundle (02
R53). -/
def Instr.results : Instr → List Arrives
  | .call o => fixedRes (.s o.b) 1
  | .callx o => fixedRes (.s o.b) 1
  | .mwait o => fixedRes (.s o.a) 1
  | .wsync o | .lkwait o => fixedRes (.s o.a) 1
  | .pand o | .por o | .pxor o => fixedRes (.p o.pd) 1
  | .pnot o => fixedRes (.p o.pd) 1
  | .mfc o => fixedRes (.s o.a) 1
  | .lidx o => fixedRes (.s o.a) 1
  | .add o | .sub o | .and o | .or o | .xor o | .shl o | .shr o | .sar o | .rol o | .ror o | .min o | .max o | .minu o
  | .maxu o => fixedRes (.s o.d) 1
  | .mul o | .mulh o | .mulhu o => soonRes (.s o.d) 3 2 3
  | .div o | .divu o | .rem o | .remu o => fixedRes (.s o.d) 34
  | .addi o | .andi o | .ori o | .xori o => fixedRes (.s o.d) 1
  | .shli o | .shri o | .sari o => fixedRes (.s o.d) 1
  | .abs o | .clz o | .ctz o | .popc o => fixedRes (.s o.d) 1
  | .cmpCc o => fixedRes (.p o.pd) 1
  | .cmpiCc o => fixedRes (.p o.pd) 1
  | .movi o | .movk o => fixedRes (.s o.d) 1
  | .sext o | .zext o => fixedRes (.s o.d) 1
  | .bext o => fixedRes (.s o.d) 1
  | .bins o => fixedRes (.s o.d) 1
  | .selp o => fixedRes (.s o.d) 1
  | .lea o => fixedRes (.s o.d) 1
  | .pmov o => fixedRes (.s o.d) 1
  | .pset o => fixedRes (.p o.pd) 1
  | .faddS o | .fmulS o => fixedRes (.s o.d) 3
  | .ffmaS o => fixedRes (.s o.d) 4
  | .fcmpCc o => fixedRes (.p o.pd) 2
  | .fcvt o => fixedRes (.s o.d) 3
  | .packwe o => fixedRes (.s o.d) 1
  | .vadd o | .vsub o | .vmul o | .vmulh o | .vmin o | .vmax o | .vand o | .vor o | .vxor o | .vshl o | .vshr o | .vsar o =>
    fixedRes (.v o.vd) 2
  | .vabs o => fixedRes (.v o.vd) 2
  | .vcmpCc o => fixedRes (.q o.qd) 2
  | .vsel o => fixedRes (.v o.vd) 2
  | .vperm o => fixedRes (.v o.vd) 3
  | .viota o => fixedRes (.v o.vd) 2
  | .vbcst o => fixedRes (.v o.vd) 3
  | .vmovi o => fixedRes (.v o.vd) 2
  | .vfadd o | .vfsub o | .vfmul o | .vfmin o | .vfmax o => soonRes (.v o.vd) 4 3 3
  | .vfma o => soonRes (.v o.vd) 4 3 3
  | .vfabs o | .vfneg o => soonRes (.v o.vd) 4 3 3
  | .vfrcp o | .vfrsq o | .vfexp2 o | .vflog2 o => soonRes (.v o.vd) 6 5 5
  | .vfcmpCc o => soonRes (.q o.qd) 4 3 3
  | .vfcvt o => soonRes (.v o.vd) 4 3 3
  | .vqnt o => soonRes (.v o.vd) 4 3 3
  | .vdqn o => soonRes (.v o.vd) 4 3 3
  | .vradd o | .vrmax o | .vrmin o => fixedRes (.v o.vd) 3
  | .vscan o => fixedRes (.v o.vd) 3
  | .vext o => fixedRes (.s o.s) 3
  | .vins o => fixedRes (.v o.vd) 3
  | .vcmpr o | .vexpd o => fixedRes (.v o.vd) 3
  | .vacrd o => fixedRes (.v o.vd) 4
  | .qand o | .qor o => fixedRes (.q o.qd) 2
  | .qnot o => fixedRes (.q o.qd) 2
  | .qcnt o => fixedRes (.s o.s) 2
  | .ld o | .lds o => landRes (.s o.t) (landL o.land)
  | .ldv o | .ldvs o => landRes (.v o.t) (landL o.land)
  | .gth o => landRes (.v o.t) (landL o.land)
  | .aadd o | .amin o | .amax o | .aminu o | .amaxu o | .aand o | .aor o | .axor o | .axchg o | .acas o => atomRes o
  | .mset o => fixedRes (.m o.m) 1
  | .massay o => fixedRes (.p o.p) 2
  | .xld o | .xldb o => landRes (.x o.x) (landX o.land)
  | .xmov o => fixedRes (.x o.x) 2
  | .xset o => fixedRes (.x o.x) 1
  | .cpq o => landRes (.s o.a) (landL o.land)
  | .wkq o | .txid o => landRes (.s o.a) (landL o.land)
  | _ => []

/-- Is the instruction a variable-latency request (02 R54)? -/
def Instr.requests : Instr → Bool
  | .ld _ | .lds _ | .ldv _ | .ldvs _ | .gth _ | .xld _ | .xldb _ | .cpq _ | .wkq _ | .txid _ => true
  | .aadd o | .amin o | .amax o | .aminu o | .amaxu o | .aand o | .aor o | .axor o | .axchg o | .acas o => o.t != 0
  | _ => false

/-- Operand b of a V instruction. -/
def VSrc.uses : VSrc → List Dest
  | .reg n => [.v n]
  | .scalar n => [.s n]

/-- Operands of an instruction, its predicates apart (04 R101–R111, 05 R119–R132, 06 R143, 08 R198). -/
def Instr.operands : Instr → List Dest
  | .bri o => [.s o.a]
  | .callx o => [.s o.a]
  | .ret o | .marm o => [.s o.a]
  | .loopr o => [.s o.a]
  | .pand o | .por o | .pxor o => [.p o.pa, .p o.pb]
  | .pnot o => [.p o.pa]
  | .mtc o => [.s o.a]
  | .add o | .sub o | .mul o | .mulh o | .mulhu o | .div o | .divu o | .rem o | .remu o | .and o | .or o | .xor o | .shl o
  | .shr o | .sar o | .rol o | .ror o | .min o | .max o | .minu o | .maxu o => [.s o.a, .s o.b]
  | .addi o | .andi o | .ori o | .xori o => [.s o.a]
  | .shli o | .shri o | .sari o => [.s o.a]
  | .abs o | .clz o | .ctz o | .popc o => [.s o.a]
  | .cmpCc o => [.s o.a, .s o.b]
  | .cmpiCc o => [.s o.a]
  | .movk o => [.s o.d]
  | .sext o | .zext o => [.s o.a]
  | .bext o => [.s o.a]
  | .bins o => [.s o.d, .s o.a]
  | .selp o => [.s o.a, .s o.b, .p o.n]
  | .lea o => [.s o.a, .s o.b]
  | .pmov _ => (List.range 8).map fun i => .p (BitVec.ofNat 3 i)
  | .pset o => [.s o.a]
  | .faddS o | .fmulS o => [.s o.a, .s o.b]
  | .ffmaS o => [.s o.a, .s o.b, .s o.d]
  | .fcmpCc o => [.s o.a, .s o.b]
  | .fcvt o => [.s o.a]
  | .packwe o => [.s o.a, .s o.b]
  | .vadd o | .vsub o | .vmul o | .vmulh o | .vmin o | .vmax o | .vand o | .vor o | .vxor o | .vshl o | .vshr o | .vsar o =>
    .q o.vg.q :: .v o.va :: o.b.uses
  | .vabs o => [.q o.vg.q, .v o.va]
  | .vcmpCc o => .q o.vg.q :: .v o.va :: o.b.uses
  | .vsel o | .vperm o => [.q o.vg.q, .v o.va, .v o.vb]
  | .viota o | .vbcst o => [.q o.vg.q, .s o.s]
  | .vmovi o => [.q o.vg.q]
  | .vfadd o | .vfsub o | .vfmul o | .vfmin o | .vfmax o => .q o.vg.q :: .v o.va :: o.b.uses
  | .vfma o => .q o.vg.q :: .v o.va :: .v o.vc :: o.b.uses
  | .vfabs o | .vfneg o | .vfrcp o | .vfrsq o | .vfexp2 o | .vflog2 o => [.q o.vg.q, .v o.va]
  | .vfcmpCc o => .q o.vg.q :: .v o.va :: o.b.uses
  | .vfcvt o => [.q o.vg.q, .v o.va]
  | .vqnt o => [.v o.va]
  | .vdqn o => [.v o.va]
  | .vradd o | .vrmax o | .vrmin o => [.q o.vg.q, .v o.va]
  | .vscan o => [.q o.vg.q, .v o.va]
  | .vext o => [.v o.va]
  | .vins o => [.s o.s]
  | .vcmpr o | .vexpd o => [.q o.vg.q, .v o.va]
  | .vacrd o => [.q o.vg.q, .s o.s]
  | .vacwr o => [.q o.vg.q, .v o.va, .s o.s]
  | .qand o | .qor o => [.q o.qa, .q o.qb]
  | .qnot o => [.q o.qa]
  | .qcnt o => [.q o.qa]
  | .ld o | .lds o => [.s o.base, .s o.index]
  | .st o => [.s o.base, .s o.index, .s o.t]
  | .ldv o | .ldvs o => [.q o.q, .s o.base, .s o.index]
  | .stv o | .stvs o => [.q o.q, .s o.base, .s o.index, .v o.t]
  | .gth o => [.q o.q, .s o.base, .v o.index]
  | .sct o => [.q o.q, .s o.base, .v o.index, .v o.t]
  | .sctaOp o => [.q o.q, .s o.base, .v o.index, .v o.t]
  | .aadd o | .amin o | .amax o | .aminu o | .amaxu o | .aand o | .aor o | .axor o | .axchg o | .acas o =>
    [.s o.base, .s o.index, .s o.t]
  | .mcall _ => ((List.range 8).map fun i => .m (BitVec.ofNat 3 i)) ++ (List.range 16).map fun i => .x (BitVec.ofNat 4 i)
  | .mldw o => [.m o.m]
  | .mldix o => [.v o.v]
  | .mset o => [.s o.s]
  | .mupld o => [.m o.m]
  | .xld o | .xldb o => [.s o.base]
  | .xmov o => [.x o.src]
  | .cpgo o => [.s o.a]
  | .wkapp o | .wkwalk o => [.s o.a, .s o.b, .s o.c]
  | .wkfix o => [.s o.a, .s o.b]
  | .wget o | .wput o | .wexp o | .cxun o => [.s o.a, .s o.b, .s o.c]
  | .cxtab o => [.s o.a]
  | .cxpk o => [.s o.a, .s o.b, .s o.c]
  | .clgo o => [.s o.a]
  | .lksend o | .lkrecv o => [.s o.a, .s o.b, .s o.c]
  | .lkradd o => [.s o.a, .s o.b, .s o.c]
  | .txabort o => [.s o.a]
  | .qlaunch o => [.s o.a, .s o.b]
  | .evpost o => [.s o.a]
  | _ => []

/-- A control transfer (03 R73). -/
def Instr.transfers : Instr → Bool
  | .br _ | .bri _ | .call _ | .callx _ | .ret _ | .rti _ | .halt _ => true
  | _ => false

/-- A multiply, which delays one in the next bundle (25 R389). -/
def Instr.multiplies : Instr → Bool
  | .mul _ | .mulh _ | .mulhu _ => true
  | _ => false

/-- A TRAP (03 R89). -/
def Instr.isTrap : Instr → Bool
  | .trap _ => true
  | _ => false

/-- A call of another kernel (03 R77). -/
def Instr.leaves : Instr → Bool
  | .callx _ => true
  | _ => false

/-- A VACRD or VACWR of a tile (05 R125). -/
def Instr.movesTile (t : Bool) : Instr → Bool
  | .vacrd o => o.tile == t
  | .vacwr o => o.tile == t
  | _ => false

/-- A VACWR of a tile. -/
def Instr.writesTile (t : Bool) : Instr → Bool
  | .vacwr o => o.tile == t
  | _ => false

/-- A matrix command on a tile (06 R155, R156). -/
def Instr.onTile (t : Bool) : Instr → Bool
  | .mcall o => o.acc == t
  | .mclr o => o.acc == t
  | _ => false

/-- An MSYNC. -/
def Instr.isMsync : Instr → Bool
  | .msync _ => true
  | _ => false

/-- A matrix command (06 R143). -/
def Instr.isMtx : Instr → Bool
  | .mcall _ | .mldw _ | .mswp _ | .mldix _ | .mclr _ | .mupld _ => true
  | _ => false

/-- A YIELD with beat = 1. -/
def Instr.beats : Instr → Bool
  | .yield o => o.beat
  | _ => false

/-- May an instruction execute? Only p0 inverted, of the bundle or the slot, rules it out. -/
def Header.mayRun (h : Header) (i : Instr) : Bool :=
  !(h.p == 0 && h.neg) && !(i.guard.pred == 0 && i.guard.pneg)

/-- Does it execute whenever its bundle issues? -/
def Header.mustRun (h : Header) (i : Instr) : Bool := h.p == 0 && !h.neg && i.guard == .always

end Sys2Proof

namespace Sys2Proof.Machine

open Sys2Proof

/-! ## Paths -/

/-- A bundle as the verifier sees it: its PC, the PC after it, its PC in the P-form stream (an inserted one has none), its
bits and those of its slots that may execute (02 R61). -/
structure VBun where
  pc : Nat
  npc : Nat
  orig : Option Nat
  h : Header
  slots : List (Slot × Instr)
  deriving DecidableEq, Repr

/-- Its C-slot instruction. -/
def VBun.ctl (b : VBun) : Option Instr := (b.slots.find? fun e => e.1 == .c).map (·.2)

/-- Is there an instruction of a kind that may, or must, execute? -/
def VBun.may (b : VBun) (f : Instr → Bool) : Bool := b.slots.any fun e => f e.2
/-- As `may`, of one that must. -/
def VBun.must (b : VBun) (f : Instr → Bool) : Bool := b.slots.any fun e => f e.2 && b.h.mustRun e.2

/-- Registers a slot of the bundle reads, its predicates among them. -/
def VBun.uses (b : VBun) (i : Instr) : List Dest := (Dest.p b.h.p :: .p i.guard.pred :: i.operands).filter fun d => !d.discards

/-- Results of a slot that reach a register. -/
def slotArrives (i : Instr) : List Arrives := i.results.filter fun r => !r.dest.discards

/-- An open hardware loop: its start, its end and how many iterations are left, where that is known. -/
structure VLoop where
  start : Nat
  stop : Nat
  left : Option Nat
  deriving DecidableEq, Repr

/-- A point of a path: the bundle that issues next, the open loops, and the calls to return from: the PC and the loop depth
each left. -/
structure VNode where
  pc : Nat
  loops : List VLoop
  calls : List (Nat × Nat)
  deriving DecidableEq, Repr

/-- A kernel to verify: its bundles and the PCs of its entries. -/
structure VCode where
  buns : List VBun
  entries : List Nat
  deriving DecidableEq, Repr

/-- The bundle at a PC. -/
def VCode.at_ (k : VCode) (pc : Nat) : Option VBun := k.buns.find? fun b => b.pc == pc

/-- The loop-end test (03 R73): where the path goes on, from the PC after the bundle. -/
def loopTest (pc : Nat) (calls : List (Nat × Nat)) : List VLoop → List VNode
  | [] => [⟨pc, [], calls⟩]
  | l :: t =>
    if pc ≠ l.stop then [⟨pc, l :: t, calls⟩]
    else
      match l.left with
      | some n => if n ≤ 1 then loopTest pc calls t else [⟨l.start, { l with left := some (n - 1) } :: t, calls⟩]
      | none => loopTest pc calls t ++ [⟨l.start, l :: t, calls⟩]

/-- Targets of a branch within the kernel: of BR, and of every entry of a BRI's group (03 R77, R80). -/
def VCode.branches (k : VCode) (b : VBun) (i : Instr) : List Nat :=
  match i with
  | .br _ => (targetOf b.npc i).toList
  | .bri o => (k.entries.drop o.first.toNat).take o.count.toNat
  | _ => []

/-- Where a path goes from a node when its C-slot instruction executes. `exact` says whether the count a LOOP names is kept;
otherwise only whether it is 1. A call nested in itself is not followed again, and one to another kernel counts as one
bundle here, where no tick is counted (DESIGN CHOICE, log 91). A TRAP goes on where the runtime table the installer writes
resumes: entries 0 and 3 (17 R310). -/
def VCode.taken (k : VCode) (exact : Bool) (n : VNode) (b : VBun) (i : Instr) : List VNode :=
  let fall (l : List VLoop) (pc : Nat) : List VNode := loopTest pc n.calls l
  let open_ (stop : Nat) (left : Option Nat) : List VNode :=
    if 6 ≤ n.loops.length then [] else fall (⟨b.npc, stop, left⟩ :: n.loops) b.npc
  match i with
  | .br _ | .bri _ => (k.branches b i).map fun t => ⟨t, n.loops, n.calls⟩
  | .call _ =>
    if n.calls.any fun c => c.1 == b.npc then []
    else (targetOf b.npc i).toList.map fun t => ⟨t, n.loops, (b.npc, n.loops.length) :: n.calls⟩
  | .callx _ => [⟨b.npc, n.loops, n.calls⟩]
  | .ret _ =>
    match n.calls with
    | c :: t => [⟨c.1, n.loops, t⟩]
    | [] => []
  | .halt _ | .rti _ => []
  | .trap o => if bitsAt o.imm.toNat 0 8 = 0 || bitsAt o.imm.toNat 0 8 = 3 then [⟨b.npc, n.loops, n.calls⟩] else []
  | .loop o =>
    let stop := b.npc + o.off.toNat
    if o.count = 0 then fall n.loops stop
    else open_ stop (if exact || o.count = 1 then some o.count.toNat else none)
  | .loopr o => fall n.loops (b.npc + o.off.toNat) ++ open_ (b.npc + o.off.toNat) none
  | .lexit _ =>
    match n.loops with
    | l :: t => fall ({ l with left := some 1 } :: t) b.npc
    | [] => []
  | _ => fall n.loops b.npc

/-- Where paths go from a node. A slot that may be nullified counts both ways (02 R61). -/
def VCode.next (k : VCode) (exact : Bool) (n : VNode) : List VNode :=
  match k.at_ n.pc with
  | none => []
  | some b =>
    match b.ctl with
    | none => loopTest b.npc n.calls n.loops
    | some i => k.taken exact n b i ++ if b.h.mustRun i then [] else loopTest b.npc n.calls n.loops

/-- Added to a PC: the path is in a kernel called there, and returns to it. -/
def awayAt : Nat := 2 ^ 40

/-- The points that issue in a tick a path reaches with `n`: a TRAP that resumes takes none. `on` says whether what is
followed outlives the trap: a landing does, a fixed-latency result is drained (03 R97). -/
def VCode.pastTrap (k : VCode) (exact on : Bool) : Nat → VNode → List VNode
  | 0, n => [n]
  | f + 1, n =>
    match (k.at_ n.pc).bind fun b => b.ctl.map fun i => (b, i) with
    | some (b, i) =>
      if i.isTrap then
        (if b.h.mustRun i then [] else [n]) ++ if on then (k.taken exact n b i).flatMap (k.pastTrap exact on f) else []
      else [n]
    | none => [n]

/-- Where paths stand one tick later. A called kernel of another object takes any number of ticks from one up (DEDUCED, log
91). -/
def VCode.ticks (k : VCode) (exact on : Bool) (n : VNode) : List VNode :=
  let pass (m : VNode) : List VNode := k.pastTrap exact on (k.buns.length + 1) m
  if awayAt ≤ n.pc then n :: pass { n with pc := n.pc - awayAt }
  else
    match k.at_ n.pc with
    | none => []
    | some b =>
      let fall := (loopTest b.npc n.calls n.loops).flatMap pass
      match b.ctl with
      | none => fall
      | some i =>
        (if i.isTrap then []
          else if i.leaves then [⟨b.npc + awayAt, n.loops, n.calls⟩]
          else (k.taken exact n b i).flatMap pass) ++ if b.h.mustRun i then [] else fall

/-- Each element once. -/
def once {α : Type} [BEq α] (l : List α) : List α := l.foldl (fun a x => if a.contains x then a else a ++ [x]) []

/-- Bundles a search takes at most. -/
def searchFuel : Nat := 2 ^ 32

/-- Everything `f` reaches from a work list. -/
def closure {α : Type} [BEq α] (f : α → List α) : Nat → List α → List α → List α
  | 0, seen, _ => seen
  | _ + 1, seen, [] => seen
  | k + 1, seen, x :: t =>
    let new := (once (f x)).filter fun y => !seen.contains y
    closure f k (seen ++ new) (t ++ new)

/-- Everything `f` reaches from some points, themselves among them. -/
def reach {α : Type} [BEq α] (f : α → List α) (l : List α) : List α := closure f searchFuel (once l) (once l)

/-- Where paths stand after each of `n` bundles, from the first on. -/
def tread {α : Type} [BEq α] (f : α → List α) : Nat → List α → List (List α)
  | 0, _ => []
  | k + 1, l => let m := once (l.flatMap f); m :: tread f k m

/-- The point at which each entry begins. -/
def VCode.roots (k : VCode) : List VNode := k.entries.map fun e => ⟨e, [], []⟩

/-- Every point a path reaches, loop counts left out. -/
def VCode.nodes (k : VCode) : List VNode := reach (k.next false) k.roots

/-- A point without its loop counts. -/
def VNode.plain (n : VNode) : VNode := { n with loops := n.loops.map fun l => { l with left := none } }

/-- What a check finds: a PC, and the slot at fault. -/
abbrev Found := List (Nat × Option Slot)

/-- The nodes with their bundles. -/
def VCode.points (k : VCode) : List (VNode × VBun) := k.nodes.filterMap fun n => (k.at_ n.pc).map fun b => (n, b)

/-- Paths of `d` ticks from a point, past traps where `on`: the points 1, 2, … `d` ticks later, with the distance. -/
def VCode.after (k : VCode) (on : Bool) (n : VNode) (d : Nat) : List (Nat × VNode × VBun) :=
  (tread (k.ticks true on) d [n]).zipIdx.flatMap fun e => e.1.filterMap fun m => (k.at_ m.pc).map fun b => (e.2 + 1, m, b)

/-! ## Windows, collisions, the landing buffer (02 R52, R57, R61) -/

/-- A bundle reads a register in the window of a pending result. -/
def VCode.windows (k : VCode) : Found :=
  k.points.flatMap fun p => p.2.slots.flatMap fun e => (slotArrives e.2).flatMap fun r =>
    if r.fixed then
      (k.after false p.1 (r.last - 1)).flatMap fun m =>
        (m.2.2.slots.filter fun f => (m.2.2.uses f.2).contains r.dest).map fun f => (m.2.2.pc, some f.1)
    else []

/-- The ticks at which a multiply of a point may land on the stepping: one later where the bundle before it held one, which is
not known of a kernel's first bundle, after a call of another kernel or after a TRAP (25 R389). -/
def VCode.mulTicks (k : VCode) (n : VNode) : Nat × Nat :=
  let before := k.points.filter fun p => (k.next false p.1).contains n
  let held (b : VBun) : Bool := b.slots.any fun e => e.2.multiplies
  let dark (b : VBun) : Bool := b.may fun i => i.leaves || i.isTrap
  let open_ := k.roots.contains n || before.any fun p => dark p.2
  (if open_ || before.any (fun p => !held p.2) then 2 else 3, if open_ || before.any (fun p => held p.2) then 3 else 2)

/-- The results of a point: the slot, whether the result is a landing, and where it lands. -/
def VCode.produced (k : VCode) (n : VNode) (b : VBun) : List (Slot × Bool × Arrives) :=
  b.slots.flatMap fun e => (slotArrives e.2).map fun r =>
    (e.1, e.2.requests, if e.2.multiplies then let t := k.mulTicks n; { r with lo := t.1, hi := t.2 } else r)

/-- May two results of one register, the second issued `d` ticks later, land in one tick of the stepping (02 R57, 04 R99)? -/
def Arrives.collides (a b : Arrives) (d : Nat) : Bool := a.dest == b.dest && decide (a.lo ≤ d + b.hi) && decide (d + b.lo ≤ a.hi)

/-- Two results reach one register in one tick. -/
def VCode.collisions (k : VCode) : Found :=
  k.points.flatMap fun p => (k.produced p.1 p.2).flatMap fun e =>
    ((k.produced p.1 p.2).filter fun f => f.1 != e.1 && e.2.2.collides f.2.2 0).map (fun f => (p.2.pc, some f.1)) ++
      (k.after e.2.1 p.1 (e.2.2.last - 1)).flatMap fun m =>
        ((k.produced m.2.1 m.2.2).filter fun f => e.2.2.collides f.2.2 m.1).map fun f => (m.2.2.pc, some f.1)

/-- Landings of a bundle that are outstanding `d` ticks after it. -/
def VBun.landings (b : VBun) (d : Nat) : Nat :=
  (b.slots.filter fun e => e.2.requests && e.2.results.any fun r => decide (d < r.last)).length

/-- The most ticks a landing of a bundle takes. -/
def VBun.farthest (b : VBun) : Nat :=
  (b.slots.filter fun e => e.2.requests).foldl (fun a e => e.2.results.foldl (fun a r => max a r.last) a) 0

/-- Most landings outstanding at the end of some path of `d` bundles and one more from a point that `ok` admits all along:
each node of the last level with the sum on its way. -/
def VCode.most (k : VCode) (ok : VNode → Bool) : Nat → List (VNode × Nat) → Nat
  | 0, l => l.foldl (fun a e => max a (e.2 + ((k.at_ e.1.pc).map fun b => b.landings 0).getD 0)) 0
  | d + 1, l =>
    k.most ok d (once (l.flatMap fun e =>
      let w := ((k.at_ e.1.pc).map fun b => b.landings (d + 1)).getD 0
      ((k.ticks true true e.1).filter ok).map fun m => (m, e.2 + w)))

/-- More than `limit` landings are outstanding at some tick. -/
def VCode.crowded (k : VCode) (ok : VNode → Bool) (limit : Nat) : Found :=
  k.points.flatMap fun p =>
    if ok p.1 && (List.range p.2.farthest).any fun d => decide (limit < k.most ok d [(p.1, 0)]) then [(p.2.pc, some .l)] else []

/-- Points from which one of some kind is reached. -/
def VCode.leadTo (k : VCode) (f : VNode → Bool) : List VNode :=
  k.nodes.filter fun n => (reach (k.next false) [n]).any f

/-- A handler: what leads to an RTI (DEDUCED, log 91). No more than 8 landings are outstanding there, and none at the RTI (03
R92). -/
def VCode.handlers (k : VCode) : Found :=
  let isRti (i : Instr) : Bool := match i with | .rti _ => true | _ => false
  let rti (n : VNode) : Bool := match k.at_ n.pc with | some b => b.may isRti | none => false
  let h := (k.leadTo rti).map VNode.plain
  let inside (n : VNode) : Bool := decide (awayAt ≤ n.pc) || h.contains n.plain
  k.crowded inside 8 ++
    k.points.flatMap fun p =>
      if inside p.1 && p.2.farthest != 0 then
        (if rti p.1 then [(p.2.pc, some .c)] else []) ++
          (k.after true p.1 (p.2.farthest - 1)).flatMap fun m =>
            if rti m.2.1 && p.2.landings m.1 != 0 then [(m.2.2.pc, some .c)] else []
      else []

/-! ## Balance and loops (03 R76, R79) -/

/-- All paths from some points reach one at the same time; a path that ends before need not. -/
def meets {α : Type} [BEq α] (f : α → List α) (at_ : α → Bool) : Nat → List α → Bool
  | 0, _ => false
  | k + 1, l => if l.all at_ then true else if l.any at_ then false else meets f at_ k (once (l.flatMap f))

/-- A conditional BR, or a BRI, whose declared join is missing or not reached in equal ticks. `join` gives the join of a
branch by its PC. -/
def VCode.unbalanced (k : VCode) (join : VBun → Option Nat) : Found :=
  k.points.flatMap fun p =>
    match p.2.ctl with
    | some i =>
      let cond := !p.2.h.mustRun i
      if (match i with | .br _ => cond | .bri _ => true | _ => false) then
        match join p.2 with
        | none => [(p.2.pc, some .c)]
        | some j =>
          if meets (k.next true) (fun n => n.pc == j && n.calls == p.1.calls) searchFuel (once (k.next true p.1)) then []
          else [(p.2.pc, some .c)]
      else []
    | none => []

/-- Loops deeper than six. -/
def VCode.deepLoops (k : VCode) : Found :=
  k.points.flatMap fun p =>
    if decide (6 ≤ p.1.loops.length) && p.2.may fun i => match i with | .loop _ | .loopr _ => true | _ => false then
      [(p.2.pc, some .c)]
    else []

/-- Bodies of the kernel's loops: where each starts and stops. -/
def VCode.bodies (k : VCode) : List (Nat × Nat) :=
  k.buns.filterMap fun b =>
    match b.ctl with
    | some (.loop o) => some (b.npc, b.npc + o.off.toNat)
    | some (.loopr o) => some (b.npc, b.npc + o.off.toNat)
    | _ => none

/-- A transfer that is the last bundle of a body, a branch that leaves or enters one, a RET that finds another loop depth
than its CALL left (03 R76). -/
def VCode.badBodies (k : VCode) : Found :=
  let within (l : Nat × Nat) (pc : Nat) : Bool := decide (l.1 ≤ pc) && decide (pc < l.2)
  (k.buns.flatMap fun b =>
    match b.ctl with
    | none => []
    | some i =>
      if k.bodies.any fun l =>
        (i.transfers && within l b.pc && b.npc == l.2) || (k.branches b i).any fun t => within l b.pc != within l t then
        [(b.pc, some Slot.c)]
      else []) ++
    k.points.flatMap fun p =>
      match p.2.ctl with
      | some (.ret _) => if p.1.loops.length = (p.1.calls.head?.map (·.2)).getD 0 then [] else [(p.2.pc, some .c)]
      | _ => []

/-! ## Heartbeat (21 R327) -/

/-- An iteration of the loop at `h` that can issue more than 4,096 bundles without a YIELD that beats. -/
def VCode.longAt (k : VCode) (h : VNode) : Bool :=
  let back := k.nodes.filter fun n => (reach (k.next false) [n]).contains h
  let home (n : VNode) : Bool := n.plain == h.plain
  let quiet (n : VNode) : Bool := match k.at_ n.pc with | some b => !b.must Instr.beats | none => false
  let go (n : VNode) : List VNode := if quiet n then (k.next true n).filter fun m => back.any fun x => x.plain == m.plain else []
  let on (n : VNode) : List VNode := (go n).filter fun m => !home m
  let far := ((tread on 4096 [h]).getLast?).getD []
  (reach on far).any fun n => (go n).any home

/-- The loops of a kernel whose iterations are too long. -/
def VCode.silent (k : VCode) : Found :=
  (once (k.nodes.flatMap fun n => (k.next false n).filter fun m => decide (m.pc ≤ n.pc) && m.calls == n.calls)).flatMap fun h =>
    if k.longAt h then [(h.pc, none)] else []

/-! ## Segments (02 R61, 07 R183) -/

/-- A segment goes on past a bundle: it must not close there. -/
def VBun.goesOn (b : VBun) : Bool := !b.must Instr.closes

/-- Lines of a segment buffer a bundle may take. -/
def VBun.lines (b : VBun) : Nat := (b.slots.filter fun e => e.2.buffered).length

/-- Follow a segment with what `f` keeps of each bundle, until it closes. -/
def VCode.inSegment {α : Type} (k : VCode) (f : VBun → α → List α) (x : VNode × α) : List (VNode × α) :=
  match k.at_ x.1.pc with
  | some b =>
    if b.goesOn then
      (f b x.2).flatMap fun y => ((k.next true x.1).filter fun m => ((k.at_ m.pc).map fun c => !c.h.seg).getD false).map fun m => (m, y)
    else []
  | none => []

/-- The points that open a segment. -/
def VCode.segments (k : VCode) : List (VNode × VBun) := k.points.filter fun p => p.2.h.seg

/-- A segment can take more lines than the buffer has. -/
def VCode.overfull (k : VCode) : Found :=
  k.segments.flatMap fun p =>
    let l := reach (k.inSegment fun b n => if 64 < n then [] else [n + b.lines]) [(p.1, 0)]
    if l.any fun x => match k.at_ x.1.pc with | some b => b.goesOn && decide (64 < x.2 + b.lines) | none => false then
      [(p.2.pc, none)]
    else []

/-- How long each result of a slot is outstanding: an accumulator element written by VACWR for four ticks (02 R52). -/
def slotSpans (i : Instr) : List Nat :=
  (slotArrives i).map (·.last) ++ match i with | .vacwr _ => [4] | _ => []

/-- A result outstanding across a seg bundle. -/
def VCode.across (k : VCode) : Found :=
  k.points.flatMap fun p => p.2.slots.flatMap fun e => (slotSpans e.2).flatMap fun n =>
    if (k.after e.2.requests p.1 (n - 1)).any fun m => m.2.2.h.seg then [(p.2.pc, some e.1)] else []

/-- Registers a segment's rerun does not restore. -/
def unsaved : List Dest :=
  ((List.range 32).map fun i => .v (BitVec.ofNat 5 i)) ++ ((List.range 8).map fun i => .q (BitVec.ofNat 3 i)) ++
    ((List.range 8).map fun i => .m (BitVec.ofNat 3 i)) ++ (List.range 16).map fun i => .x (BitVec.ofNat 4 i)

/-- What a segment has done to a register: whether it read it before writing it, whether it has written it. -/
def VBun.touch (b : VBun) (d : Dest) (st : Bool × Bool) : List (Bool × Bool) :=
  let reads := b.slots.any fun e => (b.uses e.2).contains d
  let writes (must : Bool) : Bool :=
    b.slots.any fun e => (!must || b.h.mustRun e.2) && (slotArrives e.2).any fun r => r.dest == d
  let st := if reads && !st.2 then (true, st.2) else st
  if writes false then (st.1, true) :: if writes true then [] else [st] else [st]

/-- A segment writes a vector, mask, m or scale register that it reads before writing. -/
def VCode.rewrites (k : VCode) : Found :=
  k.segments.flatMap fun p =>
    if unsaved.any fun d =>
      (reach (k.inSegment fun b st => b.touch d st) [(p.1, (false, false))]).any fun x =>
        match k.at_ x.1.pc with
        | some b => b.goesOn && (b.touch d x.2).any fun y => y.1 && b.slots.any fun e => (slotArrives e.2).any fun r => r.dest == d
        | none => false
    then [(p.2.pc, none)]
    else []

/-- Rendezvous bundles issued on each path of a segment to its close, up to 65 counted. -/
def VCode.rendezvous (k : VCode) (n : VNode) : List Nat :=
  let step (b : VBun) (c : Nat) : List Nat := [min 65 (c + b2n b.h.rdv)]
  let closes (m : VNode) : Bool := ((k.at_ m.pc).map fun b => b.h.seg).getD true
  once ((reach (k.inSegment step) [(n, 0)]).flatMap fun x =>
    match k.at_ x.1.pc with
    | some b => if !b.goesOn || (k.next true x.1).isEmpty || (k.next true x.1).any closes then step b x.2 else []
    | none => [])

/-- An rdv bundle of a segment that another path has no match for (DEDUCED, log 91). -/
def VCode.unmatched (k : VCode) : Found :=
  k.segments.flatMap fun p => if decide (1 < (k.rendezvous p.1).length) then [(p.2.pc, none)] else []

/-! ## Tiles (06 R166) -/

/-- What a path has done to a tile: whether a command on it is outstanding since the last MSYNC, and how many ticks, one to
three, have passed since a VACWR to it; zero for none. -/
abbrev TileSeen := VNode × Bool × Nat

/-- A tile one tick later. -/
def VCode.tileStep (k : VCode) (t : Bool) (x : TileSeen) : List TileSeen :=
  let aged := if x.2.2 = 0 ∨ 3 ≤ x.2.2 then 0 else x.2.2 + 1
  let l : List (Bool × Nat) :=
    match k.at_ x.1.pc with
    | none => [(x.2.1, aged)]
    | some b =>
      let out := (x.2.1 && !b.must Instr.isMsync) || b.may (Instr.onTile t)
      let rest := [(out, if b.must Instr.isMsync then 0 else aged)]
      if b.may (Instr.writesTile t) then (out, 1) :: if b.must (Instr.writesTile t) then [] else rest else rest
  (k.ticks false true x.1).flatMap fun m => l.map fun e => (m, e)

/-- A VACRD or VACWR of a tile with a command on it outstanding, and a command one to three ticks after a VACWR to its tile,
with no MSYNC between. -/
def VCode.tileRaces (k : VCode) : Found :=
  [false, true].flatMap fun t =>
    (reach (k.tileStep t) (k.roots.map fun n => (n, false, 0))).flatMap fun x =>
      match k.at_ x.1.pc with
      | none => []
      | some b =>
        (if x.2.1 && b.may (Instr.movesTile t) then [(b.pc, some Slot.v)] else []) ++
          if x.2.2 != 0 && b.may (Instr.onTile t) then [(b.pc, some Slot.m)] else []

/-! ## MASSAY (06 R163) -/

/-- A MASSAY reached with matrix commands outstanding since the last MSYNC. -/
def VCode.earlyAssay (k : VCode) : Found :=
  let massay (i : Instr) : Bool := match i with | .massay _ => true | _ => false
  let next (x : VNode × Bool) : List (VNode × Bool) :=
    match k.at_ x.1.pc with
    | some b => (k.next false x.1).map fun m => (m, (x.2 && !b.must Instr.isMsync) || b.may Instr.isMtx)
    | none => []
  (reach next (k.roots.map fun n => (n, false))).flatMap fun x =>
    match k.at_ x.1.pc with
    | some b => if x.2 && b.may massay then [(b.pc, some .m)] else []
    | none => []

/-! ## Targets and lands -/

/-- A target that is no bundle's first halfword, or a group of entries the kernel does not declare. -/
def VCode.badTargets (k : VCode) : Found :=
  k.buns.flatMap fun b =>
    match b.ctl with
    | some i =>
      let bad := (match targetOf b.npc i with | some t => (k.at_ t).isNone | none => false) ||
        match i with
        | .bri o => decide (k.entries.length < o.first.toNat + o.count.toNat)
        | _ => false
      if bad then [(b.pc, some .c)] else []
    | none => []

/-- A land below the minimum of a path its request may take (02 R55). `least` gives the largest of those minimums. -/
def VCode.shortLands (k : VCode) (least : VBun → Slot → Nat) : Found :=
  k.buns.flatMap fun b => (b.slots.filter fun e =>
    e.2.landShort || (e.2.requests && e.2.results.any fun r => decide (r.last < least b e.1))).map fun e => (b.pc, some e.1)

/-- Every check of a schedule, in the order of 02 R61. -/
def VCode.check (k : VCode) (least : VBun → Slot → Nat) (join : VBun → Option Nat) : Found :=
  k.badTargets ++ k.shortLands least ++ k.windows ++ k.collisions ++ k.crowded (fun _ => true) 32 ++ k.unbalanced join ++
    k.deepLoops ++ k.silent ++ k.overfull ++ k.badBodies ++ k.across ++ k.rewrites ++ k.unmatched ++ k.handlers ++ k.earlyAssay ++
    k.tileRaces

end Sys2Proof.Machine
end

