-- ==== Sys2Proof/Machine/Lower.lean ====
section
/-! DEFINITION. Lowering a P-form kernel for a placement: raised lands, loop-end NOPs, a new layout and a new dictionary, and
its verification (17 R302–R304, 02 R50, R55, R60, 03 R76). -/

namespace Sys2Proof

/-! ## Instructions changed by lowering -/

/-- The least code whose land is at least `m` (02 R44). -/
def raiseL (m : Nat) (k : BitVec 8) : BitVec 8 :=
  if m ≤ landL k then k else BitVec.ofNat 8 (((List.range 256).find? fun c => decide (m ≤ landL (BitVec.ofNat 8 c))).getD 255)

/-- The least 6-bit code whose land is at least `m`. -/
def raiseX (m : Nat) (k : BitVec 6) : BitVec 6 :=
  if m ≤ landX k then k else BitVec.ofNat 6 (((List.range 64).find? fun c => decide (m ≤ landX (BitVec.ofNat 6 c))).getD 63)

/-- An atomic's land; one that fetches nothing has none. -/
def LScalarArgs.raise (m : Nat) (o : LScalarArgs) : LScalarArgs := if o.t = 0 then o else { o with land := raiseL m o.land }

/-- Raise the land of a request to a minimum, and never lower it (17 R304). -/
def Instr.raise (m : Nat) : Instr → Instr
  | .ld o => .ld { o with land := raiseL m o.land }
  | .lds o => .lds { o with land := raiseL m o.land }
  | .ldv o => .ldv { o with land := raiseL m o.land }
  | .ldvs o => .ldvs { o with land := raiseL m o.land }
  | .gth o => .gth { o with land := raiseL m o.land }
  | .aadd o => .aadd (o.raise m)
  | .amin o => .amin (o.raise m)
  | .amax o => .amax (o.raise m)
  | .aminu o => .aminu (o.raise m)
  | .amaxu o => .amaxu (o.raise m)
  | .aand o => .aand (o.raise m)
  | .aor o => .aor (o.raise m)
  | .axor o => .axor (o.raise m)
  | .axchg o => .axchg (o.raise m)
  | .acas o => .acas (o.raise m)
  | .xld o => .xld { o with land := raiseX m o.land }
  | .xldb o => .xldb { o with land := raiseX m o.land }
  | .cpq o => .cpq { o with land := raiseL m o.land }
  | .wkq o => .wkq { o with land := raiseL m o.land }
  | .txid o => .txid { o with land := raiseL m o.land }
  | i => i

/-- Aim a relative transfer or loop at a PC; `npc` is the PC after its bundle. -/
def Instr.aim (npc target : Nat) : Instr → Instr
  | .br o => .br { o with off := BitVec.ofInt 24 ((target : Int) - npc) }
  | .call o => .call { o with off := BitVec.ofInt 24 ((target : Int) - npc) }
  | .loop o => .loop { o with off := BitVec.ofNat 12 (target - npc) }
  | .loopr o => .loopr { o with off := BitVec.ofNat 12 (target - npc) }
  | i => i

end Sys2Proof

namespace Sys2Proof.Machine

open Sys2Proof

/-- The land minimums of 02 R55, in the order of its table. -/
def pathMinimum (p : Fin 5) : Nat := ([6, 24, 96, 140, 400][p.val]?).getD 400

/-- The largest minimum of the paths a slot's request may take: a load's or an atomic's paths depend on its address. -/
def leastLand (paths : Bool → List (Fin 5)) (i : Instr) (sl : Slot) : Nat :=
  let far (x : Bool) : Nat := (paths x).foldl (fun a p => max a (pathMinimum p)) 6
  match i with
  | .cpq _ | .wkq _ => 24
  | .txid _ => 96
  | _ => far (sl == .x)

/-- A bundle on its way through lowering: its PC in the P-form (an inserted one has none), whether it stands there as a
literal, the P-form PC its C slot aims at, its bits, and whether a land of it was raised. -/
structure LItem where
  orig : Option Nat
  lit : Bool
  goal : Option Nat
  bits : BundleBits
  raised : Bool
  deriving DecidableEq, Repr

/-- The bundle's slots; none where it is not an encoding. -/
def LItem.slots (x : LItem) : List Instr :=
  match decodeBundle x.bits with
  | .ok b => b.slots.map (·.2)
  | .illegal _ => []

/-- Change every slot of a bundle that is an encoding. -/
def mapSlots (f : Slot → Instr → Instr) (b : BundleBits) : BundleBits :=
  match decodeBundle b with
  | .ok d => encodeBundle { d with slots := d.slots.map fun e => (e.1, f e.1 e.2) }
  | .illegal _ => b

/-- A bundle of a stream, its lands raised to `least` of its P-form PC. -/
def LItem.of (dict : List BundleBits) (least : Nat → Instr → Slot → Nat) (e : Nat × SBundle) : LItem :=
  let b := e.2.bits dict
  let r := mapSlots (fun sl i => i.raise (least e.1 i sl)) b
  let x : LItem := ⟨some e.1, match e.2 with | .lit _ => true | _ => false, none, r, r != b⟩
  { x with goal := x.slots.findSome? (targetOf (e.1 + e.2.len)) }

/-- Does a loop's body end in a transfer, now that a land in it was raised (03 R76) (DEDUCED, log 91)? -/
def LItem.wantsNop (l : List LItem) (x : LItem) : Option Nat :=
  if x.slots.any fun i => match i with | .loop _ | .loopr _ => true | _ => false then
    match x.orig, x.goal with
    | some a, some e =>
      let body := l.filter fun y => (y.orig.map fun pc => decide (a < pc) && decide (pc < e)).getD false
      if (body.any fun y => y.raised) && ((body.getLast?).map fun y => y.slots.any Instr.transfers).getD false then some e else none
    | _, _ => none
  else none

/-- The loop-end NOPs (17 R304). -/
def loopEndNops (l : List LItem) : List LItem :=
  let ends := l.filterMap (LItem.wantsNop l)
  l.flatMap fun x => if (x.orig.map fun pc => ends.contains pc).getD false then [⟨none, false, none, 0, false⟩, x] else [x]

/-- PCs of bundles laid out one after another, and the PC after the last; `lits` says which are literals. -/
def layoutFrom : Nat → List Bool → List Nat
  | pc, [] => [pc]
  | pc, b :: t => pc :: layoutFrom (pc + if b then 25 else 1) t

/-- A layout under way: which bundles are literals, their PCs, their bits aimed anew, the dictionary. -/
structure CodeLayout where
  lits : List Bool
  pcs : List Nat
  bits : List BundleBits
  dict : List BundleBits
  deriving DecidableEq, Repr

/-- Where a P-form PC stands in a layout. -/
def placeOf (l : List LItem) (pcs : List Nat) (pc : Nat) : Option Nat :=
  (l.findIdx? fun x => x.orig == some pc).bind fun i => pcs[i]?

/-- Lay bundles out with some of them as literals: targets follow, and the distinct bundles that are no literals get indices
in order of first appearance, at most 4,095 of them (02 R60). -/
def layOut (l : List LItem) (lits : List Bool) : CodeLayout :=
  let pcs := layoutFrom 0 lits
  let bits := l.zipIdx.map fun e =>
    let npc := (pcs[e.2 + 1]?).getD 0
    match e.1.goal.bind (placeOf l pcs) with
    | some t => mapSlots (fun _ i => i.aim npc t) e.1.bits
    | none => e.1.bits
  let own := ((bits.zip l).filter fun e => !e.2.lit && e.1 != 0).map (·.1)
  ⟨lits, pcs, bits, (once own).take 4095⟩

/-- Which bundles stay literals: those the dictionary does not hold. -/
def CodeLayout.literals (y : CodeLayout) : List Bool := y.bits.map fun b => b != 0 && !y.dict.contains b

/-- Lay out until the literals no longer change. Where they go on changing, the P-form PC of the first that did in the last
round (DESIGN CHOICE, log 91). -/
def settleLayout (l : List LItem) : Nat → List Bool → Except Nat CodeLayout
  | 0, lits =>
    let last := (layOut l lits).literals
    .error ((((l.zip (lits.zip last)).find? fun e => e.2.1 != e.2.2).bind fun e => e.1.orig).getD 0)
  | k + 1, lits =>
    let y := layOut l lits
    if y.literals = lits then .ok y else settleLayout l k y.literals

/-- Is the bundle at a place aimed at its target? An offset that no longer fits its field is not. -/
def CodeLayout.aims (y : CodeLayout) (l : List LItem) (e : LItem × Nat) : Bool :=
  match e.1.goal with
  | none => true
  | some g =>
    match placeOf l y.pcs g, y.bits[e.2]? with
    | some t, some b =>
      match decodeBundle b with
      | .ok d => d.slots.all fun x => (targetOf ((y.pcs[e.2 + 1]?).getD 0) x.2).getD t == t
      | .illegal _ => true
    | _, _ => false

/-- The P-form PC of the first bundle that misses its target. -/
def CodeLayout.misaimed (y : CodeLayout) (l : List LItem) : Option Nat :=
  (l.zipIdx.find? fun e => !y.aims l e).map fun e => e.1.orig.getD 0

/-- The halfwords of a layout. -/
def CodeLayout.stream (y : CodeLayout) : List Nat :=
  (y.bits.zip y.lits).flatMap fun e =>
    if e.1 = 0 then [0] else if e.2 then (SBundle.lit e.1).halves else [((y.dict.findIdx? fun b => b == e.1).getD 0) + 1]

/-- The bundles of a layout as the verifier sees them. -/
def CodeLayout.code (y : CodeLayout) (l : List LItem) (entries : List Nat) : VCode :=
  ⟨(l.zip y.bits).zipIdx.filterMap fun e =>
    match decodeBundle e.1.2 with
    | .ok d => some ⟨(y.pcs[e.2]?).getD 0, (y.pcs[e.2 + 1]?).getD 0, e.1.1.orig, d.h, d.slots.filter fun x => d.h.mayRun x.2⟩
    | .illegal _ => none, entries⟩

/-- The slot a bundle that is not an encoding is at fault in; none for its header. -/
def faultySlot (b : BundleBits) : Option (Option Slot) :=
  match decodeBundle b with
  | .ok _ => none
  | .illegal m => some (Slot.all.find? fun sl => m.getLsbD sl.pos)

/-- What is wrong with a P-form kernel's indices, encodings and entries (02 R50, R61). -/
def Kernel.badForm (k : Kernel) : Option Diag :=
  let d (i pc : Option Nat) (sl : Option Slot) : Diag := ⟨k.name, i, pc, sl⟩
  ((k.dict.zipIdx.findSome? fun e => (faultySlot e.1).map fun sl => d (some (e.2 + 1)) none sl)).orElse fun _ =>
    ((k.stream.findSome? fun e =>
      match e.2 with
      | .idx n => if n ≤ k.dict.length then none else some (d none (some e.1) none)
      | .lit b => (faultySlot b).map fun sl => d none (some e.1) sl
      | .nop => none)).orElse fun _ =>
      (k.entries.find? fun e => !k.stream.any fun y => y.1 == e.toNat).map fun e => d none (some e.toNat) none

/-- Lower a kernel that runs on footprints of so many clusters, `val` giving the values of its fixups, and verify it; or the
diagnostic (17 R304). -/
def Kernel.lower (k : Kernel) (bytes : List Byte) (no : Nat) (clusters : List Nat) (val : Fixup → Nat) : Except Diag Lowered :=
  match k.badForm with
  | some d => .error d
  | none =>
    let paths (pc : Nat) (x : Bool) : List (Fin 5) := clusters.flatMap fun n => Config.paths bytes no pc x n
    let least (pc : Nat) (i : Instr) (sl : Slot) : Nat := leastLand (paths pc) i sl
    let l := loopEndNops ((patchStream val k.fixups k.stream).map (LItem.of k.dict least))
    match settleLayout l (l.length + 2) (l.map (·.lit)) with
    | .error pc => .error ⟨k.name, none, some pc, none⟩
    | .ok y =>
      match y.misaimed l with
      | some pc => .error ⟨k.name, none, some pc, some .c⟩
      | none =>
        let place (pc : Nat) : Nat := (placeOf l y.pcs pc).getD 0
        let entries := k.entries.map fun e => place e.toNat
        let code := y.code l entries
        let minimum (b : VBun) (sl : Slot) : Nat :=
          match b.orig, b.slots.find? fun e => e.1 == sl with
          | some pc, some e => least pc e.2 sl
          | _, _ => 0
        let join (b : VBun) : Option Nat := b.orig.bind fun pc => (Config.joinOf bytes no pc).bind (placeOf l y.pcs)
        match code.check minimum join with
        | [] => .ok ⟨y.stream, y.dict, entries.map fun e => BitVec.ofNat 32 e⟩
        | (pc, sl) :: _ => .error ⟨k.name, none, some (((code.at_ pc).bind fun b => b.orig).getD pc), sl⟩

/-- Lower a kernel, or VERIFY. -/
def Kernel.lowerOr (k : Kernel) (bytes : List Byte) (no : Nat) (clusters : List Nat) (val : Fixup → Nat) : IM Lowered :=
  match k.lower bytes no clusters val with
  | .ok c => pure c
  | .error d => throw (.verify d)

/-- Dictionary entries of a kernel lowered for a footprint of so many clusters; those of its P-form where it does not verify
(17 R393). -/
def Kernel.dictCount (k : Kernel) (bytes : List Byte) (no clusters : Nat) : Nat :=
  match k.lower bytes no [clusters] fun _ => 0 with
  | .ok c => c.dict.length
  | .error _ => k.dict.length

end Sys2Proof.Machine
end

