-- ==== Sys2Proof/Machine/Installer.lean ====
section
/-! DEFINITION. The installer and the debug loader: import resolution, placement in memory, tensor map records, linkage slots,
tables and the header of an installed image (17 R295–R312, 21 R334). -/

namespace Sys2Proof.Machine

open Sys2Proof

/-! ## Writing an image -/

/-- Little-endian words one after another. -/
def words8 (l : List Nat) : List Byte := l.flatMap (bytesOf 8)

/-- Put bytes of an image. -/
def State.imgPut (s : State) (p : Fin 64) (va : Word) (b : List Byte) : State := s.sysPut p va (clean b)

/-- Allocate, map and fill an area. -/
def State.area (s : State) (p : Fin 64) (flags : Nat) (b : List Byte) : State × Word :=
  let r := s.allocMap p b.length flags
  (r.1.imgPut p r.2 b, r.2)

/-! ## Imports (17 R306, R307) -/

/-- What an import resolves to: an entry of an own object, or of an object of another image. -/
inductive Bound where
  | own (obj ent : Nat)
  | foreign (o : ImgObj) (ent : Nat)
  deriving DecidableEq, Repr

/-- Does an export's name answer an import's? -/
def nameIs (imp : List Byte) (exp : List Byte) : Bool := imp.take 30 == exp && (imp.drop 30).all fun x => x == 0

/-- The container's own objects, first to last. -/
def ownExport (ks : List Kernel) (imp : List Byte) : Option Bound :=
  ks.zipIdx.findSome? fun k => (k.1.exports.find? fun e => nameIs imp e.1).map fun e => .own k.2 e.2

/-- The exports of images installed in the partition, oldest first; a debug-loaded image lends none (21 R334). -/
def State.foreignExport (s : State) (p : Fin 64) (imp : List Byte) : Option Bound :=
  s.mgmt.images.findSome? fun i =>
    if i.part = p ∧ s.installed i ∧ i.debug = false then
      (i.exports.find? fun e => e.1 == BitVec.ofNat 256 (natOf imp)).bind fun e =>
        (i.objs.find? fun o => o.num == e.2.1).map fun o => .foreign o e.2.2
    else none

/-- Resolve an import. -/
def State.resolveImport (s : State) (p : Fin 64) (ks : List Kernel) (imp : List Byte) : IM Bound :=
  match ownExport ks imp with
  | some b => pure b
  | none =>
    match s.foreignExport p imp with
    | some b => pure b
    | none => throw .link

/-- A linkage slot to fill: its kernel, its import number, whether it is lazy, what it is bound to. -/
structure LinkSlot where
  kernel : Nat
  no : Nat
  isLazy : Bool
  to_ : Bound
  deriving DecidableEq, Repr

/-- Every linkage slot of a container. -/
def State.linkSlots (s : State) (p : Fin 64) (c : Container) : IM (List LinkSlot) :=
  (c.kernels.zipIdx.flatMap fun k => k.1.imports.zipIdx.map fun i => (k.2, i.2, i.1)).mapM fun e =>
    (s.resolveImport p c.kernels e.2.2).map fun b => ⟨e.1, e.2.1, Config.lazyImport c.bytes e.1 e.2.1, b⟩

/-- The same object of the same image? -/
def ImgObj.same (a b : ImgObj) : Bool := a.owner == b.owner && a.home == b.home

/-- The object of an installed image that another's import is bound to. -/
def State.objOf (s : State) (d : BitVec 32 × Nat) : Option ImgObj :=
  (s.mgmt.images.find? fun i => i.handle == d.1 && s.installed i).bind fun i => i.objs.find? fun o => o.owner == d.1 && o.home == d.2

/-- The objects of other images that a container's code can reach, each once: those its imports name, then those that their
imports are bound to, and so on (17 R305) (DEDUCED, log 93). -/
def State.foreignObjs (s : State) (l : List LinkSlot) : List ImgObj :=
  let first := l.filterMap fun x => match x.to_ with | .foreign o _ => some (o.owner, o.home) | .own _ _ => none
  (reach (fun d => ((s.objOf d).map fun o => o.deps).getD []) first).filterMap s.objOf

/-! ## Tensors (17 R296, R299, R300) -/

/-- A tensor in memory: its placement entries (address, first tile, count). -/
structure Placed where
  g : Tiling
  list : List (Word × Nat × Nat)
  deriving DecidableEq, Repr

/-- Tiles of a footprint cluster's shard, slab by slab. -/
def shardBytes (t : Tensor) (g : Tiling) (data : List Byte) (w : MxFmt) (x : Bool) (lo hi : Nat) : List Byte :=
  (List.range g.slabs).flatMap fun sl =>
    (List.range (hi - lo)).flatMap fun i => (List.range g.tk).flatMap fun tk => tileImage t g data w x sl (lo + i) tk

/-- Place a tensor: the shards of a matrix form lie on the dies of its footprint (DEDUCED, log 93). -/
def State.placeTensor (s : State) (p : Fin 64) (data : List Byte) (t : Tensor) (g : Tiling) (fp : Nat × Nat) : State × Placed :=
  let flags := permR + (if t.fixed then 0 else permW) + permU
  match g.form with
  | .plain =>
    let r := s.allocMap p g.stride flags
    (r.1.imgPut p r.2 (cut data t.doff t.dlen), ⟨g, [(r.2, 0, 1)]⟩)
  | .matrix _ w x =>
    let nf := 2 ^ (fp.1 + fp.2)
    let r := (List.range nf).foldl (fun (a : State × List (Word × Nat × Nat)) f =>
      let c := columns g.tn nf f
      let b := shardBytes t g data w x c.1 c.2
      let m := a.1.allocIn p b.length (fun _ => flags) (dieFrame (f / 2 ^ fp.2))
      (m.1.imgPut p m.2 b, a.2 ++ [(m.2, c.1, c.2 - c.1)])) (s, [])
    let list := (List.range g.slabs).flatMap fun sl => r.2.map fun e =>
      (e.1 + BitVec.ofNat 64 (sl * e.2.2 * g.tk * g.stride), (sl * g.tn + e.2.1) * g.tk, e.2.2 * g.tk)
    (r.1, ⟨g, list⟩)

/-- A placement list. -/
def listBytes (l : List (Word × Nat × Nat)) : List Byte := words8 (l.flatMap fun e => [e.1.toNat, e.2.2 * 2 ^ 32 + e.2.1])

/-- A tensor map record. -/
def recordBytes (t : Tensor) (x : Placed) (plist : Word) : List Byte :=
  let g := x.g
  let form := match g.form with
    | .plain => 0
    | .matrix a w ax => gangOf a w * 2 ^ 21 + a.num * 2 ^ 18 + b2n ax * 2 ^ 16 + (w.num + 1) * 2 ^ 12
  let d (i : Nat) : Nat := (t.dims[i]?).getD 0
  words8 [form + t.ptype * 2 ^ 8 + t.rank, d 1 * 2 ^ 32 + d 0, d 3 * 2 ^ 32 + d 2, g.tn * 2 ^ 32 + g.tk, g.kt * 2 ^ 32 + g.stride,
    plist.toNat, g.slabs * 2 ^ 32 + x.list.length, 0]

/-! ## Code objects (17 R294, R305) -/

/-- An object's bytes: its entry table, entry 0 last, padded so that the stream after it starts on 256 bytes. -/
def objectBytes (c : Lowered) : Nat × List Byte :=
  let tab := (c.entries.reverse).flatMap fun e => bytesOf 4 e.toNat
  let base := roundUp tab.length 256
  (base, List.replicate (base - tab.length) 0 ++ tab ++ streamBytes c.stream)

/-- Place an object (DEDUCED, log 93). -/
def State.placeObject (s : State) (p : Fin 64) (owner : BitVec 32) (num : Nat) (deps : List (BitVec 32 × Nat)) (c : Lowered) :
    State × ImgObj :=
  let b := objectBytes c
  let r := s.area p (permR + permX + permU) b.2
  (r.1, ⟨num, owner, num, deps, r.2 + BitVec.ofNat 64 b.1, c.dict, c.entries⟩)

/-- Entry PC of an object. -/
def ImgObj.entryPc (o : ImgObj) (k : Nat) : Option Nat := (o.entries[k]?).map (·.toNat)

/-- Numbers of the objects an import may name: an own one, or a foreign one after the own ones. -/
def Bound.number (own : Nat) (fs : List ImgObj) : Bound → Nat
  | .own n _ => n
  | .foreign o _ => own + ((fs.findIdx? fun y => y.same o).getD 0)

/-- The entry number of an import. -/
def Bound.ent : Bound → Nat
  | .own _ e => e
  | .foreign _ e => e

/-- A linkage slot's 16 bytes, or LINK: a link value and the target's descriptor. -/
def slotBytes (own : Nat) (fs : List ImgObj) (objs : List ImgObj) (x : LinkSlot) : IM (List Byte) :=
  let n := x.to_.number own fs
  let desc := x.to_.ent * 2 ^ 16 + n
  if x.isLazy then pure (words8 [(own + fs.length) * 2 ^ 32, desc])
  else
    match (objs.find? fun o => o.num == n).bind fun o => o.entryPc x.to_.ent with
    | some pc => pure (words8 [n * 2 ^ 32 + pc, desc])
    | none => throw .link

/-! ## The runtime table (17 R310) -/

/-- Entry 0 LOG, 1 FAIL, 2 RETRY, 3 RESUME, the rest empty. -/
def rtabBytes (ring : Word) : List Byte :=
  words8 [1, ring.toNat, 2, 0, 3, 0, 4, 0] ++ List.replicate (252 * 16) 0

/-! ## The node table and the header (17 R309, R311) -/

/-- The two words of a node's entry that are not zero. -/
def nodeWords (k : Kernel) (n : GNode) (fp : Nat × Nat) (dict : Nat) : Nat × Nat :=
  (n.kobj + n.entry * 2 ^ 16 + fp.1 * 2 ^ 32 + fp.2 * 2 ^ 34 + classOf k.needs.power * 2 ^ 36 + dict * 2 ^ 48,
   k.needs.words + k.needs.routines * 2 ^ 16 + k.needs.gran * 2 ^ 32 + k.needs.chan * 2 ^ 40 + k.needs.bars * 2 ^ 48)

/-- The 128-byte header (DEDUCED, log 94). -/
def imageHeader (p : Fin 64) (h : BitVec 32) (otab : Word) (objects : Nat) (ntab : Word) (nodes : Nat) (tmap : Word) (tensors : Nat)
    (link : Word) (imports : Nat) (measure : BitVec 256) (rtab : Word) (debug : Bool) : List Byte :=
  words8 [0x31474D49 + 0x10 * 2 ^ 32 + 0x21 * 2 ^ 40 + p.val * 2 ^ 48, h.toNat, otab.toNat, objects, ntab.toNat, nodes, tmap.toNat,
    tensors, link.toNat, imports] ++ beBytes 32 measure.toNat ++ words8 [rtab.toNat, b2n debug]

/-! ## INSTALL -/

/-- A 16-bit quarter of an address. -/
def quarter (va : Word) (q : Nat) : Nat := bitsAt va.toNat (16 * q) 16

/-- The value of a fixup. -/
def fixValue (gs : List Tiling) (tmap link : Word) (slots : List LinkSlot) (kernel : Nat) (f : Fixup) : Nat :=
  let g := gs[f.index]?
  match f.kind with
  | 1 => quarter (tmap + BitVec.ofNat 64 (64 * f.index)) f.q
  | 2 => (g.map (·.stride)).getD 0
  | 3 => (g.map (·.tk)).getD 0
  | 4 => (g.map (·.tn)).getD 0
  | _ => quarter (link + BitVec.ofNat 64 (16 * ((slots.findIdx? fun x => x.kernel == kernel && x.no == f.index).getD 0))) f.q

/-- Values of kinds 2 to 4 fit their immediates. -/
def fixFits (gs : List Tiling) (f : Fixup) : Bool :=
  f.kind == 1 || f.kind == 5 || decide (fixValue gs 0 0 [] 0 f < 65536)

/-- The own kernels a kernel calls through its linkage slots. -/
def ownCalls (slots : List LinkSlot) (k : Nat) : List Nat :=
  (slots.filter fun x => x.kernel == k).filterMap fun x => match x.to_ with | .own n _ => some n | .foreign _ _ => none

/-- On how many clusters a kernel runs: those of every node whose kernel is it or calls it, over own kernels between; one
where no node does (DEDUCED, log 92). -/
def kernelClusters (c : Container) (slots : List LinkSlot) (fp : List (Nat × Nat)) (k : Nat) : List Nat :=
  let l := once ((c.nodes.zip fp).filterMap fun e =>
    if (reach (ownCalls slots) [e.1.kobj]).contains k then some (2 ^ (e.2.1 + e.2.2)) else none)
  if l.isEmpty then [1] else l

/-- What is known of an installation before anything is written: tilings, slots, footprints. -/
structure InstallPlan where
  c : Container
  gs : List Tiling
  slots : List LinkSlot
  fs : List ImgObj
  fp : List (Nat × Nat)
  deriving DecidableEq, Repr

/-- Every check that needs no address (DEDUCED, log 93). -/
def State.planInstall (s : State) (p : Fin 64) (signers : List (BitVec 256)) (bytes : List Byte) : IM InstallPlan := do
  let c ← parseContainer signers bytes
  let gs ← c.tensors.zipIdx.mapM fun t => do
    let f ← t.1.form (mldwUses bytes c.kernels t.2) (Config.baxis bytes t.2)
    pure (t.1.tiling f)
  need (c.kernels.all fun k => k.fixups.all (fixFits gs)) .tensor
  let slots ← s.linkSlots p c
  let fs := s.foreignObjs slots
  let anyLazy := slots.any fun x => x.isLazy
  let rest := (fs.map fun o => o.dict.length).sum + (if anyLazy then 12 else 0)
  let fp ← placeNodes gs c fun n => (c.kernels.zipIdx.map fun k => k.1.dictCount bytes k.2 n).sum + rest
  let _ ← c.kernels.zipIdx.mapM fun k => k.1.lowerOr bytes k.2 (kernelClusters c slots fp k.2) (fixValue gs 0 0 slots k.2)
  need (decide (c.kernels.length + fs.length + b2n anyLazy ≤ 256) && Config.hasSpace s.fresh) .space
  pure ⟨c, gs, slots, fs, fp⟩

/-- What the imports of a kernel of image `h` are bound to; a lazy one also reaches the resolver. -/
def depsOf (h : BitVec 32) (resolver : Nat) (slots : List LinkSlot) (kernel : Nat) : List (BitVec 32 × Nat) :=
  (slots.filter fun x => x.kernel == kernel).flatMap fun x =>
    (match x.to_ with | .own n _ => (h, n) | .foreign o _ => (o.owner, o.home)) :: if x.isLazy then [(h, resolver)] else []

/-- Write the image of a plan. -/
def State.buildImage (s : State) (p : Fin 64) (x : InstallPlan) : IM (State × Image) := do
  let h := s.mgmt.nextHandle
  let c := x.c
  let t := (c.tensors.zip x.gs).zipIdx.foldl (fun (a : State × List Placed) e =>
    let r := a.1.placeTensor p c.data e.1.1 e.1.2 (tensorFootprint c x.fp e.2)
    (r.1, a.2 ++ [r.2])) (s, [])
  let l := t.2.foldl (fun (a : State × List Word) e =>
    let r := a.1.area p (permR + permU) (listBytes e.list)
    (r.1, a.2 ++ [r.2])) (t.1, [])
  let recs := ((c.tensors.zip t.2).zip l.2).flatMap fun e => recordBytes e.1.1 e.1.2 e.2
  let tmap := l.1.area p (permR + permU) recs
  let link := tmap.1.allocMap p (16 * x.slots.length) (permR + permW + permU)
  let codes ← c.kernels.zipIdx.mapM fun k =>
    k.1.lowerOr c.bytes k.2 (kernelClusters c x.slots x.fp k.2) (fixValue x.gs tmap.2 link.2 x.slots k.2)
  let own := codes.length
  let nf := own + x.fs.length
  let all := codes.zipIdx ++ (if x.slots.any fun e => e.isLazy then [(resolverCode, nf)] else [])
  let o := all.foldl (fun (a : State × List ImgObj) e =>
    let r := a.1.placeObject p h e.2 (depsOf h nf x.slots e.2) e.1
    (r.1, a.2 ++ [r.2])) (link.1, [])
  let objs := (o.2.filter fun y => decide (y.num < own)) ++ (x.fs.zipIdx.map fun e => { e.1 with num := own + e.2 }) ++
    o.2.filter fun y => decide (own ≤ y.num)
  let dict := (objs.map fun y => y.dict.length).sum
  need (decide (dict ≤ 4096)) .placement
  let sb ← x.slots.mapM (slotBytes own x.fs objs)
  let s := o.1.imgPut p link.2 sb.flatten
  let places := (objs.foldl (fun a y => (a.1 ++ [(y, a.2)], a.2 + y.dict.length)) (([] : List (ImgObj × Nat)), 0)).1
  let otabB := (tableBytes places 0).map (·.1)
  let otab := s.area p (permR + permU) otabB
  let nodes := (c.nodes.zip x.fp).map fun e =>
    match c.kernels[e.1.kobj]? with
    | some k => nodeWords k e.1 e.2 dict
    | none => (0, 0)
  let ntabB := nodes.flatMap fun e => words8 [e.1, e.2, 0, 0]
  let ntab := otab.1.area p (permR + permU) ntabB
  let ring := ntab.1.area p (permR + permW + permU) (List.replicate 4096 0)
  let rtabB := rtabBytes ring.2
  let rtab := ring.1.area p (permR + permU) rtabB
  let tiles := (c.tensors.zip x.gs).flatMap fun e =>
    match e.2.form with
    | .plain => cut c.data e.1.doff e.1.dlen
    | .matrix _ w ax => shardBytes e.1 e.2 c.data w ax 0 e.2.tn
  let m := sha256 ((o.2.flatMap fun y => y.entries.flatMap fun e => bytesOf 4 e.toNat) ++
    (all.flatMap fun e => streamBytes e.1.stream ++ e.1.dict.flatMap fun b => bytesOf 48 b.toNat) ++ otabB ++ ntabB ++ recs ++
    (t.2.flatMap fun e => listBytes e.list) ++ sb.flatten ++ rtabB ++ tiles)
  let hd := rtab.1.area p (permR + permU)
    (imageHeader p h otab.2 objs.length ntab.2 nodes.length tmap.2 c.tensors.length link.2 x.slots.length m rtab.2 false)
  pure (hd.1, ⟨h, p, hd.2, 0x10, 0x21, objs, c.exports, nodes.map fun e => (BitVec.ofNat 64 e.1, BitVec.ofNat 64 e.2), rtab.2, m, false, false⟩)

/-- Add an image (DEDUCED, log 93). -/
def State.addImage (s : State) (i : Image) : State :=
  s.modMgmt fun m => { m with images := m.images ++ [i], nextHandle := m.nextHandle + 1 }

/-- The installer's report of a failure: the code and the diagnostic (17 R312). -/
def State.reportFailure (s : State) (e : InsErr) : State := s.emit (.diagnostic e.code e.diag)

/-- Install a container: the state with the image and its handle, or the state as it was and the code; the handle, the whole
measurement and the manifest's name and version, or the diagnostic, are reported (17 R291, R312) (DEDUCED, log 94). -/
def State.install (s : State) (p : Fin 64) (signers : List (BitVec 256)) (bytes : List Byte) : State × Except InsErr (BitVec 32) :=
  match (s.planInstall p signers bytes).bind fun x => (s.buildImage p x).map fun r => (x.c.model, r) with
  | .ok (m, r) => ((r.1.addImage r.2).emit (.installed r.2.handle r.2.measure m), .ok r.2.handle)
  | .error e => (s.tick.reportFailure e, .error e)

/-! ## The debug loader (21 R334) -/

/-- Replace bytes at an offset. -/
def splice (b : List Byte) (o : Nat) (l : List Byte) : List Byte := b.take o ++ l ++ b.drop (o + l.length)

/-- Places of the fields of the header and of the tables that hold offsets. -/
def dbgFields (b : List Byte) : List Nat :=
  let otab := leAt b 0x10 8
  let tmap := leAt b 0x30 8
  let rtab := leAt b 0x70 8
  let objs := (List.range 256).filter fun i => bitsAt (leAt b (otab + 16 * i + 8) 8) 16 12 != 0
  let tens := List.range (leAt b 0x38 4)
  [0x10, 0x20, 0x30, 0x40, 0x70] ++ (objs.map fun i => otab + 16 * i) ++
    (tens.flatMap fun i =>
      let r := tmap + 64 * i
      (r + 0x28) :: (List.range (leAt b (r + 0x30) 4)).map fun j => leAt b (r + 0x28) 8 + 16 * j) ++
    ((List.range 256).filter fun e => leAt b (rtab + 16 * e) 1 == 1).map fun e => rtab + 16 * e + 8

/-- The tables lie inside the string (DEDUCED, log 95). -/
def dbgInside (b : List Byte) : Bool :=
  let n := b.length
  decide (128 ≤ n) && decide (leAt b 0x10 8 + 4096 ≤ n) && decide (leAt b 0x20 8 + 32 * leAt b 0x28 2 ≤ n) &&
    decide (leAt b 0x30 8 + 64 * leAt b 0x38 4 ≤ n) && decide (leAt b 0x40 8 + 16 * leAt b 0x48 2 ≤ n) &&
    decide (leAt b 0x70 8 + 4096 ≤ n) && (dbgFields b).all fun f => decide (f + 8 ≤ n) && decide (leAt b f 8 < n)

/-- The header's magic, partition, level and stepping. -/
def dbgHeaderOk (p : Fin 64) (b : List Byte) : Bool :=
  leAt b 0 4 == 0x31474D49 && bitsAt (leAt b 4 4) 16 6 == p.val && leAt b 4 1 == 0x10 && leAt b 5 1 == 0x21

/-- Node table entries of the string (DEDUCED, log 95). -/
def dbgNodes (b : List Byte) : List (Word × Word) :=
  (table b (leAt b 0x20 8) 32 (leAt b 0x28 2)).map fun e => (BitVec.ofNat 64 (leAt e 0 8), BitVec.ofNat 64 (leAt e 8 8))

/-- Objects of the string: entry tables below each CBASE, dictionaries one after another behind the object table
(DEDUCED, log 95). -/
def dbgObjs (b : List Byte) (h : BitVec 32) (base : Word) : List ImgObj :=
  let otab := leAt b 0x10 8
  let needs := (dbgNodes b).map nodeOf
  ((List.range 256).foldl (fun (a : List ImgObj × Nat) i =>
    let n := bitsAt (leAt b (otab + 16 * i + 8) 8) 16 12
    if n = 0 then a
    else
      let cb := leAt b (otab + 16 * i) 8
      let ents := (needs.filter fun x => x.obj == i).foldl (fun k x => max k (x.entry + 1)) 0
      (a.1 ++ [⟨i, h, i, [], base + BitVec.ofNat 64 cb, (table b a.2 48 n).map fun e => BitVec.ofNat 384 (natOf e),
        (List.range ents).map fun k => BitVec.ofNat 32 (leAt b (cb - 4 * (k + 1)) 4)⟩], a.2 + 48 * n)) ([], otab + 4096)).1

/-- Do bytes `o … o + 4095` of the string hold code: between an object's lowest entry and what follows its stream? Code
pages are mapped without w (02 R29) (DEDUCED, log 95). -/
def dbgCode (b : List Byte) (o : Nat) : Bool :=
  let l := (dbgObjs b 0 0).map fun x => (x.cbase.toNat - 4 * x.entries.length, x.cbase.toNat)
  let marks := b.length :: 128 :: (dbgFields b).map (fun f => leAt b f 8) ++ l.map (·.1)
  l.any fun e =>
    let stop := (marks.filter fun m => decide (e.2 < m)).foldl min b.length
    decide (e.1 < o + 4096) && decide (o < stop)

/-- Load an image as it stands (DEDUCED, log 95). -/
def State.debugLoad (s : State) (p : Fin 64) (b : List Byte) : State × Except InsErr (BitVec 32) :=
  if !(dbgInside b && dbgHeaderOk p b) then (s.reportFailure .format, .error .format)
  else
    let h := s.mgmt.nextHandle
    let m := s.allocIn p b.length (fun i => permR + permU + if dbgCode b (4096 * i) then permX else permW) anyFrame
    let base := m.2
    let at_ (o : Nat) : Word := base + BitVec.ofNat 64 o
    let moved := (dbgFields b).foldl (fun c f => splice c f (bytesOf 8 (at_ (leAt b f 8)).toNat)) b
    let meas := sha256 (moved.drop 128)
    let moved := splice (splice (splice moved 8 (bytesOf 4 h.toNat)) 0x50 (beBytes 32 meas.toNat)) 0x78 (bytesOf 8 1)
    let s := m.1.imgPut p base moved
    ((s.addImage ⟨h, p, base, 0x10, 0x21, dbgObjs b h base, [], dbgNodes b, at_ (leAt b 0x70 8), meas, true, false⟩).emit
      (.installed h meas []), .ok h)

end Sys2Proof.Machine
end

