-- ==== Sys2Proof/Machine/Management.lean ====
section
/-! DEFINITION. Command rings and the management core's commands (14 R284, 17 R312, 21 R331–R345, 23 R381). A command event takes
the command at the head of its ring when it is that command's turn. -/

namespace Sys2Proof.Machine

open Sys2Proof

/-! ## Rings (21 R332) -/

/-- The operator's ring is ring 64. -/
def operatorNo : Nat := 64

/-- Partition of a ring or of a target field. -/
def partFin (n : Nat) : Fin 64 := ⟨n % 64, Nat.mod_lt _ (by decide)⟩

/-- Bytes of a ring. -/
def State.ringBytes (s : State) (r off n : Nat) : Option (List PByte) :=
  if r = operatorNo then
    match s.privPa (s.mgmt.operatorRing.toNat + off), s.privPa (s.mgmt.operatorRing.toNat + off + n) with
    | some pa, some _ => some (s.readMem none pa 0 n)
    | _, _ => none
  else
    match s.partition r with
    | some p => s.hostBytes (partFin r) (p.ring + BitVec.ofNat 64 off) n
    | none => none

/-- Reading a partition ring waits for a command on its key. -/
def State.awaitRing (s : State) (r : Nat) : State :=
  if r = operatorNo then s
  else
    match s.partition r with
    | some p =>
      let slot := p.ring + BitVec.ofNat 64 (128 * ((mget .zero s.mgmt.rings r).taken.toNat % 64))
      (s.awaitAt (partFin r) (p.ring + 0x2000) 8).awaitAt (partFin r) slot 128
    | none => s

/-- A ring's progress. -/
def State.ring (s : State) (r : Nat) : Ring := mget .zero s.mgmt.rings r

/-- Does a ring hold a command that has not been taken? -/
def State.holdsCmd (s : State) (r : Nat) : Bool :=
  match s.ringBytes r 0x2000 8 with
  | some b => (tagOf b).isNone && valOf b != (s.ring r).taken.toNat
  | none => false

/-- A command as it stands in its slot. -/
structure Cmd where
  raw : List Byte
  op : Nat
  target : Nat
  clean : Bool
  seq : Word
  args : List Word
  resp : Word
  deriving DecidableEq, Repr

/-- Argument `i`. -/
def Cmd.a (c : Cmd) (i : Nat) : Word := (c.args[i]?).getD 0

/-- A command of its 128 bytes; on a partition ring the target and the signature are zero (DEDUCED, log 96). -/
def Cmd.ofBytes (operator : Bool) (b : List PByte) : Cmd :=
  let raw := b.map (·.1)
  let w := leAt raw 0 8
  ⟨raw, bitsAt w 0 16, bitsAt w 16 6,
    (tagOf b).isNone && bitsAt w 22 42 == 0 && (operator || (bitsAt w 16 6 == 0 && leAt raw 0x40 64 == 0)), BitVec.ofNat 64 (leAt raw 8 8),
    (List.range 5).map fun i => BitVec.ofNat 64 (leAt raw (0x10 + 8 * i) 8), BitVec.ofNat 64 (leAt raw 0x38 8)⟩

/-- The command at the head of a ring. -/
def State.headCmd (s : State) (r : Nat) : Option Cmd :=
  if s.holdsCmd r then (s.ringBytes r (128 * ((s.ring r).taken.toNat % 64)) 128).map (Cmd.ofBytes (r == operatorNo)) else none

/-- Ops of the partition rings. -/
def partitionOps : List Nat := [0x01, 0x02, 0x03, 0x04, 0x05]
/-- Ops of the operator ring. -/
def operatorOps : List Nat := [0x10, 0x11, 0x12, 0x13, 0x14, 0x15, 0x16, 0x17, 0x18, 0x19, 0x1A, 0x1B, 0x1C, 0x1D]

/-- Is an op listed for a ring? (DEDUCED, log 96). -/
def listed (r op : Nat) : Bool := if r = operatorNo then operatorOps.contains op else partitionOps.contains op

/-- The partition ring whose turn it is, among those that hold a command. -/
def State.nextPartRing (s : State) : Option Nat := nextAfter s.mgmt.lastRing ((List.range 64).filter s.holdsCmd)

/-- Op of the command in progress, while it waits for launches (DEDUCED, log 99). -/
def State.waitingOp (s : State) : Option Nat := if s.mgmt.waitFrom.isSome then (s.headCmd operatorNo).map (·.op) else none

/-- May ring `r`'s head command be taken now? While a SVCSET or CKPT waits only it goes on, but for INSTALL and ATTEST during a
checkpoint (21 R333). -/
def State.turnOf (s : State) (r : Nat) : Bool :=
  match s.waitingOp with
  | some w => r == operatorNo ||
      (w == 0x17 && s.nextPartRing == some r && ((s.headCmd r).map fun c => c.op == 1 || c.op == 4) == some true)
  | none => if s.holdsCmd operatorNo then r == operatorNo else s.nextPartRing == some r

/-! ## Answers -/

/-- What a command answers: the state, the status, two result words; or it waits. -/
inductive Ans where
  | done (s : State) (status : Nat) (r0 r1 : Word)
  | wait (s : State)
  deriving DecidableEq, Repr

/-- OK without results. -/
def Ans.ok (s : State) : Ans := .done s 0 0 0
/-- REFUSED. -/
def Ans.refused (s : State) : Ans := .done s 1 0 0
/-- BADARG. -/
def Ans.badArg (s : State) : Ans := .done s 2 0 0

/-- Write at an address an operator command names: management space, or the target partition's space (DEDUCED, log
97). -/
def State.putAt (s : State) (p : Fin 64) (va : Word) (b : List PByte) : State :=
  if mgmtBase ≤ va.toNat then
    match s.privPa (va.toNat - mgmtBase - 0x10000000) with
    | some pa => if mgmtBase + 0x10000000 ≤ va.toNat then s.writeMem none pa 0 b else s
    | none => s
  else s.hostPut p va b

/-- Read at an address an operator command names (DEDUCED, log 97). -/
def State.readAt (s : State) (p : Fin 64) (va : Word) (n : Nat) : Option (List PByte) :=
  if mgmtBase ≤ va.toNat then
    if mgmtBase + 0x10000000 ≤ va.toNat then (s.privPa (va.toNat - mgmtBase - 0x10000000)).map fun pa => s.readMem none pa 0 n else none
  else s.hostBytes p va n

/-- The response, and the ring moves on: an operator's command that has answered waits no longer, and dispatch may go on (21
R341). -/
def State.respond (s : State) (r : Nat) (c : Cmd) (accepted : Bool) (status : Nat) (r0 r1 : Word) : State :=
  let p := if r = operatorNo then partFin c.target else partFin r
  let s := s.putAt p c.resp (clean (words8 [status, c.seq.toNat, r0.toNat, r1.toNat]))
  let s := s.modMgmt fun m =>
    { m with
      rings := mset .zero m.rings r ⟨(mget .zero m.rings r).taken + 1, if accepted then c.seq else (mget .zero m.rings r).seq⟩
      lastRing := if r = operatorNo then m.lastRing else r
      waitFrom := if r = operatorNo then none else m.waitFrom }
  s.emit (.response r status c.seq r0 r1)

/-- Is the signature over bytes 0 to 0x3F the key's? (DEDUCED, log 89). -/
def Cmd.signed (c : Cmd) (key : BitVec 256 × BitVec 256) : Bool :=
  ecdsaVerify key (sha256 (c.raw.take 64)) (BitVec.ofNat 256 (beNat (cut c.raw 0x40 32)))
    (BitVec.ofNat 256 (beNat (cut c.raw 0x60 32)))

/-- Take the command at the head of a ring: signature, sequence number, reserved fields, then what it does (DEDUCED,
log 96). -/
def State.take (s : State) (r : Nat) (c : Cmd) (run : State → Ans) : State :=
  if r = operatorNo ∧ c.signed s.mgmt.operatorKey = false then s.respond r c false 4 0 0
  else if c.seq ≤ (s.ring r).seq then s.respond r c false 3 0 0
  else if !c.clean then s.respond r c true 2 0 0
  else
    match run s with
    | .done t st r0 r1 => t.respond r c true st r0 r1
    | .wait t => t

/-- A command event: nothing happens unless its op is at the head of the ring and it is the ring's turn. -/
def State.ringCommand (s : State) (r : RingNo) (op : Nat) (run : Cmd → State → Ans) : State :=
  match s.headCmd r.val with
  | some c => if c.op = op ∧ listed r.val op ∧ s.turnOf r.val then (s.awaitRing r.val).take r.val c (run c) else s
  | none => s

/-- A partition ring's command. -/
def State.partCommand (s : State) (r : RingNo) (op : Nat) (run : Fin 64 → Part → Cmd → State → Ans) : State :=
  s.ringCommand r op fun c s =>
    match s.partition r.val with
    | some p => run (partFin r.val) p c s
    | none => .badArg s

/-- An operator command on a partition that exists. -/
def State.targetCommand (s : State) (r : RingNo) (op : Nat) (run : Fin 64 → Part → Cmd → State → Ans) : State :=
  s.ringCommand r op fun c s =>
    match s.partition c.target with
    | some p => run (partFin c.target) p c s
    | none => .badArg s

/-! ## Partition commands -/

/-- The string a command names; poisoned or out of reach it cannot be read (DESIGN CHOICE, log 20; DEDUCED, log 90). -/
def State.stringAt (s : State) (p : Fin 64) (va len : Word) : Option (List Byte) :=
  if 2 ^ 48 ≤ len.toNat then none
  else
    match s.hostBytes p va len.toNat with
    | some b => if (tagOf b).isSome then none else some (b.map (·.1))
    | none => none

/-- Answer of an installation (DEDUCED, log 94). -/
def installAns (r : State × Except InsErr (BitVec 32)) (m : BitVec 256) : Ans :=
  match r.2 with
  | .ok h => .done r.1 0 (h.setWidth 64) (m.setWidth 64)
  | .error e => .done r.1 1 (BitVec.ofNat 64 e.code) 0

/-- Measurement of the newest image (DEDUCED, log 94). -/
def State.lastMeasure (s : State) : BitVec 256 := ((s.mgmt.images.getLast?).map fun i => i.measure).getD 0

/-- INSTALL (17 R312). -/
def execInstall (r : RingNo) (s : State) : Out' :=
  .next (s.partCommand r 0x01 fun p x c s =>
    match s.stringAt p (c.a 0) (c.a 1) with
    | some b => let t := (s.awaitAt p (c.a 0) (c.a 1).toNat).install p x.signers b; installAns t t.1.lastMeasure
    | none => .done (s.reportFailure .format) 1 (BitVec.ofNat 64 InsErr.format.code) 0)

/-- DBGLOAD (21 R334). -/
def execDbgload (r : RingNo) (s : State) : Out' :=
  .next (s.partCommand r 0x05 fun p x c s =>
    if !x.debugOk then .refused s
    else
      match s.stringAt p (c.a 0) (c.a 1) with
      | some b => let t := (s.awaitAt p (c.a 0) (c.a 1).toNat).debugLoad p b; installAns t t.1.lastMeasure
      | none => .done (s.reportFailure .format) 1 (BitVec.ofNat 64 InsErr.format.code) 0)

/-- Ask for the removal of the images that satisfy `f`. -/
def State.removeImages (s : State) (f : Image → Bool) : State :=
  s.modMgmt fun m => { m with images := m.images.map fun i => if f i then { i with removed := true } else i }

/-- The image a handle names. -/
def State.byHandle (s : State) (h : Word) : Option Image := s.mgmt.images.find? fun i => i.handle.setWidth 64 == h && s.installed i

/-- REMOVE. -/
def execRemove (r : RingNo) (s : State) : Out' :=
  .next (s.partCommand r 0x02 fun p _ c s =>
    match s.byHandle (c.a 0) with
    | none => .badArg s
    | some i => if i.part = p then .ok (s.removeImages fun j => j.handle == i.handle) else .refused s)

/-- QSET: a2 base, a3 tail, a4 en and lsize as in QDESC (DEDUCED, log 97). -/
def execQset (r : RingNo) (s : State) : Out' :=
  .next (s.partCommand r 0x03 fun p x c s =>
    let q := (c.a 0).toNat
    let w := (c.a 4).toNat
    if 1024 ≤ q ∨ bitsAt w 5 5 < 2 ∨ 16 < bitsAt w 5 5 then .badArg s
    else if q < x.qFirst ∨ x.qFirst + x.qCount ≤ q ∨ (s.queue q).owner ≠ p then .refused s
    else
      .ok (s.modQueue q fun d =>
        let d := (d.write 0 (c.a 2)).write 1 (c.a 3)
        { d with lsize := fld w 5 5, en := bitAt w 0, dev := (c.a 1).getLsbD 0, tailErr := false }))

/-- Firmware measurement: the digest of every stage, in order, folded into 32 zero bytes (21 R335). -/
def fwMeasure (l : List (List Byte × (BitVec 256 × BitVec 256) × BitVec 32)) : BitVec 256 :=
  l.foldl (fun m x => sha256 (beBytes 32 m.toNat ++ beBytes 32 (sha256 x.1).toNat)) 0

/-- Firmware security version of a boot: that of its last stage (DESIGN CHOICE, log 13). -/
def fwVersion (n : Nat) : BitVec 32 := ((Config.stages n).getLast?.map fun x => x.2.2).getD 0

/-- The owner record in force (21 R336). -/
def ownerRecord (n : Nat) : List Byte := ((Config.owners n).getLast?.map fun x => x.1).getD []

/-- The 200 bytes a report's signature covers (21 R337). -/
def State.report (s : State) (p : Fin 64) (nonce : List Byte) (i : Option Image) : List Byte :=
  let m := (i.map fun x => x.measure.toNat).getD 0
  bytesOf 4 0x31545441 ++ bytesOf 2 0x0100 ++ bytesOf 2 p.val ++ nonce ++
    words8 [Config.pkgId.toNat, Config.serial.toNat] ++ bytesOf 4 (fwVersion s.mgmt.boot).toNat ++ bytesOf 4 Config.recordNo.toNat ++
    beBytes 32 (fwMeasure (Config.stages s.mgmt.boot)).toNat ++ beBytes 32 (sha256 Config.cfgRecord.1).toNat ++
    beBytes 32 (sha256 (ownerRecord s.mgmt.boot)).toNat ++ beBytes 32 m ++
    bytesOf 4 ((i.map fun x => x.handle.toNat).getD 0) ++
    [0x10, 0x21, s.mgmt.svc.setWidth 8, if (i.map fun x => x.debug).getD false then 1 else 0]

/-- A message with the signature behind it of the identity key, as the boot in force unwrapped it (21 R335, R337). -/
def State.signedBytes (s : State) (b : List Byte) : List Byte :=
  let g := ecdsaSign (Config.unwrapped s.mgmt.boot) (Config.nonce s.fresh (sha256 b)) (sha256 b)
  b ++ beBytes 32 g.1.toNat ++ beBytes 32 g.2.toNat

/-- ATTEST. -/
def execAttest (r : RingNo) (s : State) : Out' :=
  .next (s.partCommand r 0x04 fun p _ c s =>
    match s.stringAt p (c.a 0) 32 with
    | none => .badArg s
    | some nonce =>
      let s := s.awaitAt p (c.a 0) 32
      let give (i : Option Image) : Ans := .ok (s.tick.hostPut p (c.a 2) (clean (s.signedBytes (s.report p nonce i))))
      if c.a 1 = 0 then give none
      else
        match s.byHandle (c.a 1) with
        | none => .badArg s
        | some i => if i.part = p then give (some i) else .refused s)

/-! ## Partitions (21 R331, 14 R284, 23 R381) -/

/-- The descriptor of a partition: endpoint, zones, signers, accepted job ids. -/
structure PartDesc where
  endpoint : Word
  zones : Nat
  signers : List (BitVec 256)
  jobs : List Word
  deriving DecidableEq, Repr

/-- Read it: endpoint, zone mask, signer count of at most 16, fingerprints, job count of at most 16, job ids. -/
def State.partDesc (s : State) (p : Fin 64) (va : Word) : Option PartDesc :=
  match s.readAt p va (32 + 40 * 16) with
  | none => none
  | some b =>
    let raw := b.map (·.1)
    if (tagOf b).isSome ∨ 16 < leAt raw 16 8 ∨ 16 < leAt raw 536 8 ∨ 2 ^ 40 ≤ leAt raw 8 8 then none
    else
      some ⟨BitVec.ofNat 64 (leAt raw 0 8), leAt raw 8 8,
        (table raw 24 32 (leAt raw 16 8)).map fun f => BitVec.ofNat 256 (beNat f),
        (table raw 544 8 (leAt raw 536 8)).map fun f => BitVec.ofNat 64 (natOf f)⟩

/-- Do two ranges of queues meet? -/
def Part.overlaps (p : Part) (first count : Nat) : Bool := decide (first < p.qFirst + p.qCount) && decide (p.qFirst < first + count)

/-- Is a zone another partition's, or in use (22 R348)? -/
def State.zoneTaken (s : State) (p z : Nat) : Bool :=
  let x := s.zone z
  (x.ov && x.owner.toNat != p) || x.inuse != 0

/-- PCREATE: a0 TRROOT word; a1 colours; a2 [9:0] first queue, [20:10] number of queues, [28:21] share; a3 ring; a4
descriptor (DEDUCED, log 97). -/
def execPcreate (r : RingNo) (s : State) : Out' :=
  .next (s.ringCommand r 0x10 fun c s =>
    let p := partFin c.target
    let w := (c.a 2).toNat
    let first := bitsAt w 0 10
    let count := bitsAt w 10 11
    match s.partDesc p (c.a 4) with
    | none => .badArg s
    | some d =>
      if 1024 < first + count ∨ bitsAt w 29 35 ≠ 0 then .badArg s
      else if (s.partition p.val).isSome ∨ (s.mgmt.parts.any fun e => (e.2.map fun x => x.overlaps first count) == some true) ∨
          ((List.range 40).any fun z => bitAt d.zones z && s.zoneTaken p.val z) then .refused s
      else
        let s := (s.writeTrans (8 * p.val) (c.a 0)).modSched fun x => { x with pshare := mset 0 x.pshare p.val (BitVec.ofNat 8 (bitsAt w 21 8)) }
        let s := (List.range count).foldl (fun s i => s.modQueue (first + i) fun q => { q with part := BitVec.ofNat 6 p.val, en := false, tailErr := false }) s
        let s := ((List.range 40).filter fun z => bitAt d.zones z).foldl (fun s z => s.modZone z fun x =>
          { x with ov := true, owner := BitVec.ofNat 6 p.val }) s
        .ok (s.modMgmt fun m =>
          { m with
            parts := mset none m.parts p.val (some ⟨c.a 1, d.signers, first, count, c.a 3, d.endpoint, d.jobs, false⟩)
            rings := mset .zero m.rings p.val .zero
            stopped := m.stopped &&& ~~~ (1#64 <<< p.val) }))

/-- PSWAPOUT: dispatch stops; RUNNING launches are killed and requeued, those committing go on (DEDUCED, log 98). -/
def execPswapout (r : RingNo) (s : State) : Out' :=
  .next (s.targetCommand r 0x11 fun p _ _ s =>
    .ok ((s.modMgmt fun m => { m with stopped := m.stopped ||| (1#64 <<< p.val) }).killRunning .txAborted fun _ l => l.part == p))

/-- PSWAPIN. -/
def execPswapin (r : RingNo) (s : State) : Out' :=
  .next (s.targetCommand r 0x12 fun p _ _ s => .ok (s.modMgmt fun m => { m with stopped := m.stopped &&& ~~~ (1#64 <<< p.val) }))

/-- PRESET (DEDUCED, log 83). -/
def execPreset (r : RingNo) (s : State) : Out' := .next (s.targetCommand r 0x13 fun p _ _ s => .ok (s.presetPart p))

/-- Is a key slot another partition's (21 R333)? -/
def State.keyForeign (s : State) (p : Fin 64) (k : Nat) : Bool :=
  let x := mget .zero s.tr.keys k
  x.loaded && x.owner.toNat != p.val

/-- A KEYCMD word carried through to its end. -/
def State.keyCommand (s : State) (v : Word) : State := (s.writeKeycmd v).endKey

/-- Key slots of a partition. -/
def State.keysOf (s : State) (p : Fin 64) : List Nat :=
  (s.tr.keys.filter fun e => e.2.loaded && e.2.owner.toNat == p.val).map (·.1)

/-- A partition's resources are given back (21 R331) (DEDUCED, log 98). -/
def State.dropResources (s : State) (p : Fin 64) : State :=
  let s := (s.keysOf p).foldl (fun s k => s.keyCommand (BitVec.ofNat 64 (2 + 16 * k))) s
  let s := s.writeTrans (8 * p.val) 0
  let s : State := { s with tr := { s.tr with tlb := s.tr.tlb.filter fun e => e.part ≠ some p } }
  let s := s.modSched fun x => { x with pshare := mset 0 x.pshare p.val 0 }
  let s := s.queueNos.foldl (fun s q => if (s.queue q).owner = p then s.modQueue q fun _ => .zero else s) s
  let s := (List.range 40).foldl (fun s z =>
    if (s.zone z).owner.toNat = p.val then s.modZone z fun x => { x with ov := false, owner := 0 } else s) s
  (s.removeImages fun i => i.part == p).modMgmt fun m =>
    { m with parts := mset none m.parts p.val none, rings := mset .zero m.rings p.val .zero }

/-- PDESTROY; it waits while a key command is in progress (DEDUCED, log 98). -/
def execPdestroy (r : RingNo) (s : State) : Out' :=
  .next (s.targetCommand r 0x14 fun p _ _ s =>
    if s.tr.keyPending.isSome then .wait s else .ok ((s.presetPart p).dropResources p))

/-- KEYLOAD: material at a2 becomes KEYSRC; it waits while a key command is in progress (DEDUCED, log 98). -/
def execKeyloadCmd (r : RingNo) (s : State) : Out' :=
  .next (s.targetCommand r 0x15 fun p _ c s =>
    if 4096 ≤ (c.a 0).toNat then .badArg s
    else if s.keyForeign p (c.a 0).toNat then .refused s
    else if s.tr.keyPending.isSome then .wait s
    else
      let w : Word := BitVec.ofNat 64 (1 + 16 * (c.a 0).toNat + 2 ^ 16 * p.val + 2 ^ 22 * b2n ((c.a 1).getLsbD 0))
      let s := s.writeTrans 0x218 (c.a 2)
      if s.tr.keyRefuses w then .refused (s.writeKeycmd w) else .ok (s.keyCommand w))

/-! ## Service level (21 R340, R341) -/

/-- Stop dispatch and have running launches commit or be killed: at once, or after 10 ms. Answers whether none is left
(DEDUCED, log 99). -/
def State.quiesce (s : State) (atOnce : Bool) : State × Bool :=
  let late := match s.mgmt.waitFrom with | some t => s.passed t 10000 | none => false
  let s := if atOnce || late then s.killRunning .txAborted fun _ _ => true else s
  if s.live.isEmpty then (s.modMgmt fun m => { m with waitFrom := none }, true)
  else (s.modMgmt fun m => { m with waitFrom := some (m.waitFrom.getD s.wall) }, false)

/-- Is every zone filled? -/
def State.allFilled (s : State) : Bool := (List.range 40).all fun z => (s.zone z).state == .filled

/-- Change the service level when no launch runs (DEDUCED, log 99). -/
def State.changeService (s : State) (lv : Nat) : State :=
  if lv = 2 then s.setService 2 else if s.mgmt.svc = 2 then s.lowerService else s

/-- SVCSET: a0 0 waits, 1 kills; a1 the level (DEDUCED, log 97). -/
def execSvcset (r : RingNo) (s : State) : Out' :=
  .next (s.ringCommand r 0x16 fun c s =>
    let lv := (c.a 1).toNat
    if (lv ≠ 1 ∧ lv ≠ 2) ∨ 1 < (c.a 0).toNat then .badArg s
    else if s.mgmt.svc.toNat = lv then .ok s
    else if lv = 2 ∧ s.allFilled = false then .refused s
    else
      let q := s.quiesce (c.a 0 == 1)
      if q.2 then .ok (q.1.changeService lv) else .wait q.1)

/-! ## Checkpoints (21 R342–R345) -/

/-- Is a 64 KiB unit of HBM reserved? -/
def Trans.reservedUnit (t : Trans) (u : Nat) : Bool := t.reserved (65536 * u)

/-- Runs of units that are not reserved among `n` units from `u`: first unit and count. -/
def freeRuns (t : Trans) : Nat → Nat → List (Nat × Nat)
  | 0, _ => []
  | n + 1, u =>
    let l := freeRuns t n (u + 1)
    if t.reservedUnit u then l
    else
      match l with
      | (a, k) :: rest => if a = u + 1 then (u, k + 1) :: rest else (u, 1) :: l
      | [] => [(u, 1)]

/-- 1 MiB chunks of the package's HBM. -/
def hbmChunks : Nat := 524288

/-- The runs a checkpoint streams, in ascending order, none across a 1 MiB boundary: address and length (DESIGN
CHOICE, log 100). -/
def ckptRuns (t : Trans) : List (Nat × Nat) :=
  (List.range hbmChunks).flatMap fun c => (freeRuns t 16 (16 * c)).map fun e => (65536 * e.1, 65536 * e.2)

/-- Stored bytes of a run. -/
def Mem.stored (m : Mem) (pa n : Nat) : List Byte := (List.range (n / 64)).flatMap fun i => storedForm (pa / 64 + i) (m.line (pa / 64 + i))

/-- Every committed line is folded. -/
def State.foldAll (s : State) : State := [0, 1, 2, 3].foldl (fun s d => s.folding fun m => m.foldDie d) s

/-- Is the word in a run? -/
def inRuns (l : List (Nat × Nat)) (w : Nat) : Bool := l.any fun e => decide (e.1 ≤ 8 * w) && decide (8 * w < e.1 + e.2)

/-- The manifest of a checkpoint: package id, serial, the runs with their CRCs, the poisoned words, each partition with its key
ids (a layout of the model's own) (DESIGN CHOICE, log 100). -/
def State.manifest (s : State) (runs : List (Nat × Nat)) : List Byte :=
  let poisoned := s.mem.hbmPoison.filter fun e => inRuns runs e.1
  let parts := s.mgmt.parts.map (·.1)
  words8 [Config.pkgId.toNat, Config.serial.toNat, runs.length, poisoned.length, parts.length] ++
    (runs.flatMap fun e => words8 [e.1, e.2 * 2 ^ 32 + (crc32c (s.mem.stored e.1 e.2)).toNat]) ++
    (poisoned.flatMap fun e => words8 [8 * e.1, ((e.2.map fun t => t.toNat).getD 0)]) ++
    parts.flatMap fun p =>
      let k := s.keysOf (partFin p)
      let own := match s.partition p with
        | some x => [x.colours.toNat, x.qFirst, x.qCount, x.ring.toNat, x.endpoint.toNat]
        | none => [0, 0, 0, 0, 0]
      words8 (p :: (mget 0 s.tr.trroot p).toNat :: (mget 0 s.sched.pshare p).toNat :: own ++ k.length :: k)

/-- The stream of a checkpoint leaves the package: a header of endpoint and base, the chunks, the manifest (DESIGN
CHOICE, log 100). -/
def State.sendCkpt (s : State) (endpoint base : Word) : State :=
  let runs := ckptRuns s.tr
  let s := (s.emit (.report 8 endpoint)).emit (.report 9 base)
  let s := runs.foldl (fun s e =>
    let b := s.mem.stored e.1 e.2
    s.emit (.chunk e.1 b (crc32c b))) s
  s.tick.emit (.manifest (s.signedBytes (s.manifest runs)))

/-- CKPT: a0 the endpoint, a1 its base, a2[0] the mode. -/
def execCkpt (r : RingNo) (s : State) : Out' :=
  .next (s.ringCommand r 0x17 fun c s =>
    let q := s.quiesce ((c.a 2).getLsbD 0)
    if q.2 then .ok (q.1.foldAll.sendCkpt (c.a 0) (c.a 1)) else .wait q.1)

/-- Bytes a safe tier gives. -/
def tierBytes (endpoint base : Word) (off n : Nat) : List Byte := (List.range n).map fun i => Config.safeTier endpoint base (off + i)

/-- The chunks of a safe tier's stream: each with its 16-byte header; a length of 0 ends them. Answers them and where the
manifest lies. `k` bounds their number (DESIGN CHOICE, log 100). -/
def tierChunks (endpoint base : Word) : Nat → Nat → List (Nat × Nat × Nat × Nat) × Nat
  | 0, o => ([], o)
  | k + 1, o =>
    let h := tierBytes endpoint base o 16
    let n := leAt h 8 4
    if n = 0 then ([], o + 16)
    else
      let r := tierChunks endpoint base k (o + 16 + n)
      ((leAt h 0 8, n, leAt h 12 4, o + 16) :: r.1, r.2)

/-- The identity key of the package of a serial number: its own, or one of another package. -/
def packageKey (serial : Word) : BitVec 256 × BitVec 256 :=
  if serial = Config.serial then Config.identityKey else Config.peerKey serial

/-- The manifest's own part, and whether its signature is that of the package that took the checkpoint (DESIGN CHOICE,
log 100). -/
def manifestOk (b : List Byte) : Bool :=
  let n := b.length - 64
  decide (40 + 64 ≤ b.length) &&
    ecdsaVerify (packageKey (BitVec.ofNat 64 (leAt b 8 8))) (sha256 (b.take n)) (BitVec.ofNat 256 (beNat (cut b n 32)))
      (BitVec.ofNat 256 (beNat (cut b (n + 32) 32)))

/-- Stored bytes of a line come back: plaintext or ciphertext as they are, without poison. -/
def Mem.restoreLine (m : Mem) (n : Nat) (b : List Byte) : Mem := m.setLine n (.ofBytes b [] none)

/-- A chunk comes back. -/
def Mem.restoreRun (m : Mem) (pa : Nat) (b : List Byte) : Mem :=
  (pieces 64 (b.length / 64) b).zipIdx.foldl (fun m e => m.restoreLine (pa / 64 + e.2) e.1) m

/-- The chunks come back one after another; one whose CRC or place is wrong ends the restore (DESIGN CHOICE, log 100).
-/
def State.restoreChunks (s : State) (endpoint base : Word) (man : List Byte) : List ((Nat × Nat × Nat × Nat) × Nat) → State × Bool
  | [] => (s, true)
  | ((pa, n, crc, o), i) :: t =>
    let b := tierBytes endpoint base o n
    if (crc32c b).toNat = crc ∧ leAt man (40 + 16 * i) 8 = pa ∧ leAt man (48 + 16 * i) 8 = n * 2 ^ 32 + crc ∧ pa % 64 = 0 ∧ n % 64 = 0 ∧
        pa + n ≤ 2 ^ 39 then
      (s.modMem fun m => m.restoreRun pa b).restoreChunks endpoint base man t
    else (s, false)

/-- Poisoned words come back with their tags. -/
def State.restorePoison (s : State) (man : List Byte) : State :=
  let o := 40 + 16 * leAt man 16 8
  (List.range (leAt man 24 8)).foldl (fun s i =>
    let w := leAt man (o + 16 * i) 8 / 8
    let t : Tag := BitVec.ofNat 12 (leAt man (o + 16 * i + 8) 8)
    s.modMem fun m => { m with hbmPoison := mset none m.hbmPoison w (some t) }) s

/-- The images of a checkpoint besides those this package has installed: where firmware keeps its list of them is not the
spec's (DESIGN CHOICE, log 100). -/
opaque restoredImages : Word → Word → List Image

/-- An image with the tags its IMG1 header in memory holds (17 R309); none where its header is not there, or is another image's
(DESIGN CHOICE, log 100). -/
def State.reread (s : State) (i : Image) : Option Image :=
  match s.hostBytes i.part i.header 128 with
  | none => none
  | some b =>
    let h := b.map (·.1)
    if (tagOf b).isNone ∧ leAt h 0 4 = 0x31474D49 ∧ bitsAt (leAt h 4 4) 16 6 = i.part.val ∧ leAt h 8 4 = i.handle.toNat then
      some { i with
        level := byteAt h 4
        stepping := byteAt h 5
        measure := BitVec.ofNat 256 (beNat (cut h 0x50 32))
        rtab := BitVec.ofNat 64 (leAt h 0x70 8)
        debug := byteAt h 0x78 == 1 }
    else none

/-- The images kept by a restore: the installed ones and the checkpoint's, each handle once, whose header in the memory restored
says that they run on the part (21 R344, 25 R386). -/
def State.keptImages (s : State) (l : List Image) : List Image :=
  ((s.mgmt.images ++ l.filter fun i => !s.mgmt.images.any fun j => j.handle == i.handle).filterMap s.reread).filter Image.runs

/-- The list of images becomes those kept; a new handle is none of theirs. -/
def State.restoreImages (s : State) (l : List Image) : State :=
  let k := s.keptImages l
  s.modMgmt fun m =>
    { m with images := k, nextHandle := k.foldl (fun h i => if h ≤ i.handle then i.handle + 1 else h) m.nextHandle }

/-- RESTORE. Whatever comes of it, every partition's dispatch stays stopped (DESIGN CHOICE, log 100). -/
def execRestore (r : RingNo) (s : State) : Out' :=
  .next (s.ringCommand r 0x18 fun c s =>
    if !s.live.isEmpty then .refused s
    else
      let e := c.a 0
      let base := c.a 1
      let s := s.foldAll.modMgmt fun m => { m with stopped := BitVec.allOnes 64 }
      let t := tierChunks e base 8388608 0
      let len := natOf (tierBytes e base t.2 8)
      let man := tierBytes e base (t.2 + 8) len
      if !manifestOk man then .done s 4 0 0
      else if t.1.length ≠ leAt man 16 8 then .badArg s
      else
        let q := s.restoreChunks e base man t.1.zipIdx
        if q.2 then .ok ((q.1.restorePoison man).restoreImages (restoredImages e base)) else .badArg q.1)

/-! ## The rest of the operator's commands -/

/-- CAPSET: a0 [5:0] the unit, [7:6] the die; a1 CAPCTL (DEDUCED, log 97). -/
def execCapset (r : RingNo) (s : State) : Out' :=
  .next (s.ringCommand r 0x19 fun c s =>
    let n := (c.a 0).toNat
    if 256 ≤ n then .badArg s else .ok (s.modCapture (n / 64) (n % 64) fun u => u.write (c.a 1)))

/-- Bytes of management space, or none where a block cannot be read. -/
def State.spaceBytes (s : State) (off n : Nat) : Option (List PByte) :=
  (List.range n).mapM fun i =>
    (s.mgmtWord ((off + i) / 8 * 8)).map fun w => (w.1.extractLsb' (8 * ((off + i) % 8)) 8, w.2)

/-- MREAD. -/
def execMread (r : RingNo) (s : State) : Out' :=
  .next (s.ringCommand r 0x1A fun c s =>
    if (c.a 0).toNat < mgmtBase ∨ 2 ^ 29 < (c.a 1).toNat then .badArg s
    else
      match s.spaceBytes ((c.a 0).toNat - mgmtBase) (c.a 1).toNat with
      | some b => .ok (s.putAt (partFin c.target) (c.a 2) b)
      | none => .badArg s)

/-- HBSET (DEDUCED, log 97). -/
def execHbset (r : RingNo) (s : State) : Out' :=
  .next (s.ringCommand r 0x1B fun c s => if hbPeriodOk (c.a 0).toNat then .ok (s.writeHbctl (c.a 0).toNat) else .badArg s)

/-- UNPROT (DEDUCED, log 97). -/
def execUnprot (r : RingNo) (s : State) : Out' :=
  .next (s.ringCommand r 0x1C fun c s =>
    if 1 < (c.a 0).toNat then .badArg s
    else if !s.live.isEmpty then .refused s
    else .ok (s.modMgmt fun m => { m with unprotected := c.a 0 == 1 }))

/-- DEBUGEN: forbidding removes the partition's debug-loaded images. -/
def execDebugen (r : RingNo) (s : State) : Out' :=
  .next (s.targetCommand r 0x1D fun p x c s =>
    let ok := (c.a 0).getLsbD 0
    let s := s.modMgmt fun m => { m with parts := mset none m.parts p.val (some { x with debugOk := ok }) }
    .ok (if ok then s else s.removeImages fun i => i.part == p && i.debug))

/-- A command whose op is not listed for its ring is answered BADARG (DEDUCED, log 96). -/
def execUnlistedCommandOp (r : RingNo) (s : State) : Out' :=
  .next (match s.headCmd r.val with
    | some c => if !listed r.val c.op && s.turnOf r.val then s.take r.val c .badArg else s
    | none => s)

end Sys2Proof.Machine
end

