-- ==== Sys2Proof/Machine/Dispatch.lean ====
section
/-! DEFINITION. One arm per row of the opcode table: each calls that row's meaning. -/

namespace Sys2Proof.Machine

open Sys2Proof

/-- What an instruction or event does. -/
def exec (i : Instr) (s : State) : Host.Outcome State Fault Refusal :=
  match i with
  | .nop slot => Sys2Proof.Machine.execNop slot s
  | .br o => Sys2Proof.Machine.execBr o s
  | .bri o => Sys2Proof.Machine.execBri o s
  | .call o => Sys2Proof.Machine.execCall o s
  | .callx o => Sys2Proof.Machine.execCallx o s
  | .ret o => Sys2Proof.Machine.execRet o s
  | .loop o => Sys2Proof.Machine.execLoop o s
  | .loopr o => Sys2Proof.Machine.execLoopr o s
  | .lexit g => Sys2Proof.Machine.execLexit g s
  | .yield o => Sys2Proof.Machine.execYield o s
  | .halt g => Sys2Proof.Machine.execHalt g s
  | .trap o => Sys2Proof.Machine.execTrap o s
  | .rti g => Sys2Proof.Machine.execRti g s
  | .marm o => Sys2Proof.Machine.execMarm o s
  | .mwait o => Sys2Proof.Machine.execMwait o s
  | .mdisarm g => Sys2Proof.Machine.execMdisarm g s
  | .bar o => Sys2Proof.Machine.execBar o s
  | .bara o => Sys2Proof.Machine.execBara o s
  | .barw o => Sys2Proof.Machine.execBarw o s
  | .drain o => Sys2Proof.Machine.execDrain o s
  | .fence o => Sys2Proof.Machine.execFence o s
  | .pand o => Sys2Proof.Machine.execPand o s
  | .por o => Sys2Proof.Machine.execPor o s
  | .pxor o => Sys2Proof.Machine.execPxor o s
  | .pnot o => Sys2Proof.Machine.execPnot o s
  | .mfc o => Sys2Proof.Machine.execMfc o s
  | .mtc o => Sys2Proof.Machine.execMtc o s
  | .uien g => Sys2Proof.Machine.execUien g s
  | .uidis g => Sys2Proof.Machine.execUidis g s
  | .lidx o => Sys2Proof.Machine.execLidx o s
  | .add o => Sys2Proof.Machine.execAdd o s
  | .addi o => Sys2Proof.Machine.execAddi o s
  | .sub o => Sys2Proof.Machine.execSub o s
  | .mul o => Sys2Proof.Machine.execMul o s
  | .mulh o => Sys2Proof.Machine.execMulh o s
  | .mulhu o => Sys2Proof.Machine.execMulhu o s
  | .div o => Sys2Proof.Machine.execDiv o s
  | .divu o => Sys2Proof.Machine.execDivu o s
  | .rem o => Sys2Proof.Machine.execRem o s
  | .remu o => Sys2Proof.Machine.execRemu o s
  | .and o => Sys2Proof.Machine.execAnd o s
  | .andi o => Sys2Proof.Machine.execAndi o s
  | .or o => Sys2Proof.Machine.execOr o s
  | .ori o => Sys2Proof.Machine.execOri o s
  | .xor o => Sys2Proof.Machine.execXor o s
  | .xori o => Sys2Proof.Machine.execXori o s
  | .shl o => Sys2Proof.Machine.execShl o s
  | .shr o => Sys2Proof.Machine.execShr o s
  | .sar o => Sys2Proof.Machine.execSar o s
  | .shli o => Sys2Proof.Machine.execShli o s
  | .shri o => Sys2Proof.Machine.execShri o s
  | .sari o => Sys2Proof.Machine.execSari o s
  | .rol o => Sys2Proof.Machine.execRol o s
  | .ror o => Sys2Proof.Machine.execRor o s
  | .min o => Sys2Proof.Machine.execMin o s
  | .max o => Sys2Proof.Machine.execMax o s
  | .minu o => Sys2Proof.Machine.execMinu o s
  | .maxu o => Sys2Proof.Machine.execMaxu o s
  | .abs o => Sys2Proof.Machine.execAbs o s
  | .cmpCc o => Sys2Proof.Machine.execCmpCc o s
  | .cmpiCc o => Sys2Proof.Machine.execCmpiCc o s
  | .movi o => Sys2Proof.Machine.execMovi o s
  | .movk o => Sys2Proof.Machine.execMovk o s
  | .sext o => Sys2Proof.Machine.execSext o s
  | .zext o => Sys2Proof.Machine.execZext o s
  | .clz o => Sys2Proof.Machine.execClz o s
  | .ctz o => Sys2Proof.Machine.execCtz o s
  | .popc o => Sys2Proof.Machine.execPopc o s
  | .bext o => Sys2Proof.Machine.execBext o s
  | .bins o => Sys2Proof.Machine.execBins o s
  | .selp o => Sys2Proof.Machine.execSelp o s
  | .lea o => Sys2Proof.Machine.execLea o s
  | .pmov o => Sys2Proof.Machine.execPmov o s
  | .pset o => Sys2Proof.Machine.execPset o s
  | .faddS o => Sys2Proof.Machine.execFaddS o s
  | .fmulS o => Sys2Proof.Machine.execFmulS o s
  | .ffmaS o => Sys2Proof.Machine.execFfmaS o s
  | .fcmpCc o => Sys2Proof.Machine.execFcmpCc o s
  | .fcvt o => Sys2Proof.Machine.execFcvt o s
  | .packwe o => Sys2Proof.Machine.execPackwe o s
  | .vadd o => Sys2Proof.Machine.execVadd o s
  | .vsub o => Sys2Proof.Machine.execVsub o s
  | .vmul o => Sys2Proof.Machine.execVmul o s
  | .vmulh o => Sys2Proof.Machine.execVmulh o s
  | .vmin o => Sys2Proof.Machine.execVmin o s
  | .vmax o => Sys2Proof.Machine.execVmax o s
  | .vabs o => Sys2Proof.Machine.execVabs o s
  | .vand o => Sys2Proof.Machine.execVand o s
  | .vor o => Sys2Proof.Machine.execVor o s
  | .vxor o => Sys2Proof.Machine.execVxor o s
  | .vshl o => Sys2Proof.Machine.execVshl o s
  | .vshr o => Sys2Proof.Machine.execVshr o s
  | .vsar o => Sys2Proof.Machine.execVsar o s
  | .vcmpCc o => Sys2Proof.Machine.execVcmpCc o s
  | .vsel o => Sys2Proof.Machine.execVsel o s
  | .viota o => Sys2Proof.Machine.execViota o s
  | .vmovi o => Sys2Proof.Machine.execVmovi o s
  | .vfadd o => Sys2Proof.Machine.execVfadd o s
  | .vfsub o => Sys2Proof.Machine.execVfsub o s
  | .vfmul o => Sys2Proof.Machine.execVfmul o s
  | .vfma o => Sys2Proof.Machine.execVfma o s
  | .vfmin o => Sys2Proof.Machine.execVfmin o s
  | .vfmax o => Sys2Proof.Machine.execVfmax o s
  | .vfabs o => Sys2Proof.Machine.execVfabs o s
  | .vfneg o => Sys2Proof.Machine.execVfneg o s
  | .vfcmpCc o => Sys2Proof.Machine.execVfcmpCc o s
  | .vfrcp o => Sys2Proof.Machine.execVfrcp o s
  | .vfrsq o => Sys2Proof.Machine.execVfrsq o s
  | .vfexp2 o => Sys2Proof.Machine.execVfexp2 o s
  | .vflog2 o => Sys2Proof.Machine.execVflog2 o s
  | .vfcvt o => Sys2Proof.Machine.execVfcvt o s
  | .vqnt o => Sys2Proof.Machine.execVqnt o s
  | .vdqn o => Sys2Proof.Machine.execVdqn o s
  | .vradd o => Sys2Proof.Machine.execVradd o s
  | .vrmax o => Sys2Proof.Machine.execVrmax o s
  | .vrmin o => Sys2Proof.Machine.execVrmin o s
  | .vscan o => Sys2Proof.Machine.execVscan o s
  | .vperm o => Sys2Proof.Machine.execVperm o s
  | .vbcst o => Sys2Proof.Machine.execVbcst o s
  | .vext o => Sys2Proof.Machine.execVext o s
  | .vins o => Sys2Proof.Machine.execVins o s
  | .vcmpr o => Sys2Proof.Machine.execVcmpr o s
  | .vexpd o => Sys2Proof.Machine.execVexpd o s
  | .vacrd o => Sys2Proof.Machine.execVacrd o s
  | .vacwr o => Sys2Proof.Machine.execVacwr o s
  | .qand o => Sys2Proof.Machine.execQand o s
  | .qor o => Sys2Proof.Machine.execQor o s
  | .qnot o => Sys2Proof.Machine.execQnot o s
  | .qcnt o => Sys2Proof.Machine.execQcnt o s
  | .ld o => Sys2Proof.Machine.execLd o s
  | .lds o => Sys2Proof.Machine.execLds o s
  | .st o => Sys2Proof.Machine.execSt o s
  | .ldv o => Sys2Proof.Machine.execLdv o s
  | .stv o => Sys2Proof.Machine.execStv o s
  | .ldvs o => Sys2Proof.Machine.execLdvs o s
  | .stvs o => Sys2Proof.Machine.execStvs o s
  | .gth o => Sys2Proof.Machine.execGth o s
  | .sct o => Sys2Proof.Machine.execSct o s
  | .sctaOp o => Sys2Proof.Machine.execSctaOp o s
  | .aadd o => Sys2Proof.Machine.execAadd o s
  | .amin o => Sys2Proof.Machine.execAmin o s
  | .amax o => Sys2Proof.Machine.execAmax o s
  | .aminu o => Sys2Proof.Machine.execAminu o s
  | .amaxu o => Sys2Proof.Machine.execAmaxu o s
  | .aand o => Sys2Proof.Machine.execAand o s
  | .aor o => Sys2Proof.Machine.execAor o s
  | .axor o => Sys2Proof.Machine.execAxor o s
  | .axchg o => Sys2Proof.Machine.execAxchg o s
  | .acas o => Sys2Proof.Machine.execAcas o s
  | .mcall o => Sys2Proof.Machine.execMcall o s
  | .mldw o => Sys2Proof.Machine.execMldw o s
  | .mswp g => Sys2Proof.Machine.execMswp g s
  | .mldix o => Sys2Proof.Machine.execMldix o s
  | .mclr o => Sys2Proof.Machine.execMclr o s
  | .mset o => Sys2Proof.Machine.execMset o s
  | .mupld o => Sys2Proof.Machine.execMupld o s
  | .massay o => Sys2Proof.Machine.execMassay o s
  | .msync g => Sys2Proof.Machine.execMsync g s
  | .step u => Sys2Proof.Machine.execStep u s
  | .seta u => Sys2Proof.Machine.execSeta u s
  | .setacc u => Sys2Proof.Machine.execSetacc u s
  | .scale u => Sys2Proof.Machine.execScale u s
  | .loopu u => Sys2Proof.Machine.execLoopu u s
  | .endu c => Sys2Proof.Machine.execEndu c s
  | .xld o => Sys2Proof.Machine.execXld o s
  | .xldb o => Sys2Proof.Machine.execXldb o s
  | .xmov o => Sys2Proof.Machine.execXmov o s
  | .xset o => Sys2Proof.Machine.execXset o s
  | .cpgo o => Sys2Proof.Machine.execCpgo o s
  | .cpq o => Sys2Proof.Machine.execCpq o s
  | .cpstop o => Sys2Proof.Machine.execCpstop o s
  | .wkapp o => Sys2Proof.Machine.execWkapp o s
  | .wkwalk o => Sys2Proof.Machine.execWkwalk o s
  | .wkfix o => Sys2Proof.Machine.execWkfix o s
  | .wkq o => Sys2Proof.Machine.execWkq o s
  | .wget o => Sys2Proof.Machine.execWget o s
  | .wput o => Sys2Proof.Machine.execWput o s
  | .wexp o => Sys2Proof.Machine.execWexp o s
  | .wsync o => Sys2Proof.Machine.execWsync o s
  | .cxtab o => Sys2Proof.Machine.execCxtab o s
  | .cxpk o => Sys2Proof.Machine.execCxpk o s
  | .cxun o => Sys2Proof.Machine.execCxun o s
  | .clgo o => Sys2Proof.Machine.execClgo o s
  | .lksend o => Sys2Proof.Machine.execLksend o s
  | .lkradd o => Sys2Proof.Machine.execLkradd o s
  | .lkrecv o => Sys2Proof.Machine.execLkrecv o s
  | .lkwait o => Sys2Proof.Machine.execLkwait o s
  | .txid o => Sys2Proof.Machine.execTxid o s
  | .txabort o => Sys2Proof.Machine.execTxabort o s
  | .qlaunch o => Sys2Proof.Machine.execQlaunch o s
  | .evpost o => Sys2Proof.Machine.execEvpost o s
  | .bundleIssue k => Sys2Proof.Machine.execBundleIssue k s
  | .fixedResultLands c => Sys2Proof.Machine.execFixedResultLands c s
  | .landing c => Sys2Proof.Machine.execLanding c s
  | .lateDataArrival c => Sys2Proof.Machine.execLateDataArrival c s
  | .landingTimeout c => Sys2Proof.Machine.execLandingTimeout c s
  | .bankStallEnd k => Sys2Proof.Machine.execBankStallEnd k s
  | .pageWalk c => Sys2Proof.Machine.execPageWalk c s
  | .queueSpaceFree c => Sys2Proof.Machine.execQueueSpaceFree c s
  | .selectorSwitch k => Sys2Proof.Machine.execSelectorSwitch k s
  | .contextParks c => Sys2Proof.Machine.execContextParks c s
  | .userInterruptTaken c => Sys2Proof.Machine.execUserInterruptTaken c s
  | .asyncCauseTaken c => Sys2Proof.Machine.execAsyncCauseTaken c s
  | .haltDrainComplete c => Sys2Proof.Machine.execHaltDrainComplete c s
  | .rendezvousRelease c => Sys2Proof.Machine.execRendezvousRelease c s
  | .mwaitWake c => Sys2Proof.Machine.execMwaitWake c s
  | .mwaitTimeout c => Sys2Proof.Machine.execMwaitTimeout c s
  | .barrierPhaseComplete c id => Sys2Proof.Machine.execBarrierPhaseComplete c id s
  | .msyncDone c => Sys2Proof.Machine.execMsyncDone c s
  | .wsyncDone c => Sys2Proof.Machine.execWsyncDone c s
  | .lkwaitDone c => Sys2Proof.Machine.execLkwaitDone c s
  | .callxEntryArrives c => Sys2Proof.Machine.execCallxEntryArrives c s
  | .objectTableReadDone c => Sys2Proof.Machine.execObjectTableReadDone c s
  | .rtiWaitDone c => Sys2Proof.Machine.execRtiWaitDone c s
  | .trapEventEnqueue k => Sys2Proof.Machine.execTrapEventEnqueue k s
  | .trapEventDelivery k => Sys2Proof.Machine.execTrapEventDelivery k s
  | .runtimeTrapAction k => Sys2Proof.Machine.execRuntimeTrapAction k s
  | .ctxctlKill c => Sys2Proof.Machine.execCtxctlKill c s
  | .ctxctlRelease c => Sys2Proof.Machine.execCtxctlRelease c s
  | .ctxctlPark c => Sys2Proof.Machine.execCtxctlPark c s
  | .ctxctlResume c => Sys2Proof.Machine.execCtxctlResume c s
  | .channelReset k ch => Sys2Proof.Machine.execChannelReset k ch s
  | .registerWrite who addr value => Sys2Proof.Machine.execRegisterWrite who addr value s
  | .controlPairMismatch k => Sys2Proof.Machine.execControlPairMismatch k s
  | .mcallRun c => Sys2Proof.Machine.execMcallRun c s
  | .mldwRun c => Sys2Proof.Machine.execMldwRun c s
  | .mswpRun c => Sys2Proof.Machine.execMswpRun c s
  | .mldixRun c => Sys2Proof.Machine.execMldixRun c s
  | .mclrRun c => Sys2Proof.Machine.execMclrRun c s
  | .mupldRun c => Sys2Proof.Machine.execMupldRun c s
  | .copyRecord k ch => Sys2Proof.Machine.execCopyRecord k ch s
  | .wkappRun k => Sys2Proof.Machine.execWkappRun k s
  | .wkwalkRun k => Sys2Proof.Machine.execWkwalkRun k s
  | .wkfixRun k => Sys2Proof.Machine.execWkfixRun k s
  | .walkerLockRetry k => Sys2Proof.Machine.execWalkerLockRetry k s
  | .wgetRun c => Sys2Proof.Machine.execWgetRun c s
  | .wputRun c => Sys2Proof.Machine.execWputRun c s
  | .wexpRun c => Sys2Proof.Machine.execWexpRun c s
  | .cxtabRun c => Sys2Proof.Machine.execCxtabRun c s
  | .cxpkRun c => Sys2Proof.Machine.execCxpkRun c s
  | .cxunRun c => Sys2Proof.Machine.execCxunRun c s
  | .clgoSend c => Sys2Proof.Machine.execClgoSend c s
  | .clgoRecvadd c => Sys2Proof.Machine.execClgoRecvadd c s
  | .clgoRecv c => Sys2Proof.Machine.execClgoRecv c s
  | .switchReduction c members => Sys2Proof.Machine.execSwitchReduction c members s
  | .lksendRun c => Sys2Proof.Machine.execLksendRun c s
  | .messageArrival d m => Sys2Proof.Machine.execMessageArrival d m s
  | .qlaunchSlotReserved c => Sys2Proof.Machine.execQlaunchSlotReserved c s
  | .launchCommitting h => Sys2Proof.Machine.execLaunchCommitting h s
  | .commitFlip h => Sys2Proof.Machine.execCommitFlip h s
  | .launchComplete h => Sys2Proof.Machine.execLaunchComplete h s
  | .launchAbort h => Sys2Proof.Machine.execLaunchAbort h s
  | .annealFold line => Sys2Proof.Machine.execAnnealFold line s
  | .hostWrite p va bytes => Sys2Proof.Machine.execHostWrite p va bytes s
  | .hostRead p va size => Sys2Proof.Machine.execHostRead p va size s
  | .budgetExhausted h => Sys2Proof.Machine.execBudgetExhausted h s
  | .tailObserved q => Sys2Proof.Machine.execTailObserved q s
  | .dispatchDecision  => Sys2Proof.Machine.execDispatchDecision  s
  | .tentativePreload q rec => Sys2Proof.Machine.execTentativePreload q rec s
  | .trinvRange value => Sys2Proof.Machine.execTrinvRange value s
  | .trinvTable value => Sys2Proof.Machine.execTrinvTable value s
  | .trinvAll value => Sys2Proof.Machine.execTrinvAll value s
  | .trinvDone  => Sys2Proof.Machine.execTrinvDone  s
  | .keyLoad value => Sys2Proof.Machine.execKeyLoad value s
  | .keyClear value => Sys2Proof.Machine.execKeyClear value s
  | .keyFlush value => Sys2Proof.Machine.execKeyFlush value s
  | .keycmdRefused value => Sys2Proof.Machine.execKeycmdRefused value s
  | .keyCommandDone  => Sys2Proof.Machine.execKeyCommandDone  s
  | .memoryReadError pa syn => Sys2Proof.Machine.execMemoryReadError pa syn s
  | .patrolScrub line => Sys2Proof.Machine.execPatrolScrub line s
  | .d2dLinkFailure a b => Sys2Proof.Machine.execD2dLinkFailure a b s
  | .errorRecordCopy unit => Sys2Proof.Machine.execErrorRecordCopy unit s
  | .heartbeatPeriodEnd  => Sys2Proof.Machine.execHeartbeatPeriodEnd  s
  | .heartbeatStopTimeout k => Sys2Proof.Machine.execHeartbeatStopTimeout k s
  | .clusterBeat k => Sys2Proof.Machine.execClusterBeat k s
  | .pairMismatch  => Sys2Proof.Machine.execPairMismatch  s
  | .packageReset  => Sys2Proof.Machine.execPackageReset  s
  | .install r => Sys2Proof.Machine.execInstall r s
  | .remove r => Sys2Proof.Machine.execRemove r s
  | .qset r => Sys2Proof.Machine.execQset r s
  | .attest r => Sys2Proof.Machine.execAttest r s
  | .dbgload r => Sys2Proof.Machine.execDbgload r s
  | .pcreate r => Sys2Proof.Machine.execPcreate r s
  | .pswapout r => Sys2Proof.Machine.execPswapout r s
  | .pswapin r => Sys2Proof.Machine.execPswapin r s
  | .preset r => Sys2Proof.Machine.execPreset r s
  | .pdestroy r => Sys2Proof.Machine.execPdestroy r s
  | .keyloadCmd r => Sys2Proof.Machine.execKeyloadCmd r s
  | .svcset r => Sys2Proof.Machine.execSvcset r s
  | .ckpt r => Sys2Proof.Machine.execCkpt r s
  | .restore r => Sys2Proof.Machine.execRestore r s
  | .capset r => Sys2Proof.Machine.execCapset r s
  | .mread r => Sys2Proof.Machine.execMread r s
  | .hbset r => Sys2Proof.Machine.execHbset r s
  | .unprot r => Sys2Proof.Machine.execUnprot r s
  | .debugen r => Sys2Proof.Machine.execDebugen r s
  | .unlistedCommandOp r => Sys2Proof.Machine.execUnlistedCommandOp r s
  | .captureClear d u => Sys2Proof.Machine.execCaptureClear d u s
  | .sensorSample samples => Sys2Proof.Machine.execSensorSample samples s
  | .clallocWrite z value => Sys2Proof.Machine.execClallocWrite z value s
  | .pumpAvailLow avail => Sys2Proof.Machine.execPumpAvailLow avail s
  | .flowLow z => Sys2Proof.Machine.execFlowLow z s
  | .deltaT z => Sys2Proof.Machine.execDeltaT z s
  | .dry z => Sys2Proof.Machine.execDry z s
  | .leak z => Sys2Proof.Machine.execLeak z s
  | .zoneWithdraw z => Sys2Proof.Machine.execZoneWithdraw z s
  | .zoneThrottleClear z => Sys2Proof.Machine.execZoneThrottleClear z s
  | .gated z => Sys2Proof.Machine.execGated z s
  | .inletShut z => Sys2Proof.Machine.execInletShut z s
  | .purge z => Sys2Proof.Machine.execPurge z s
  | .outletShut z => Sys2Proof.Machine.execOutletShut z s
  | .evacuationDry z => Sys2Proof.Machine.execEvacuationDry z s
  | .coolantFault z => Sys2Proof.Machine.execCoolantFault z s
  | .refill z => Sys2Proof.Machine.execRefill z s
  | .bleed z => Sys2Proof.Machine.execBleed z s
  | .refillDone z => Sys2Proof.Machine.execRefillDone z s
  | .hbmEdgeTrap z => Sys2Proof.Machine.execHbmEdgeTrap z s
  | .portTrain p => Sys2Proof.Machine.execPortTrain p s
  | .portFailure p => Sys2Proof.Machine.execPortFailure p s
  | .windowContributionMerge x => Sys2Proof.Machine.execWindowContributionMerge x s
  | .windowPartialStage x => Sys2Proof.Machine.execWindowPartialStage x s
  | .windowCommitMessage h => Sys2Proof.Machine.execWindowCommitMessage h s
  | .windowDiscardMessage h => Sys2Proof.Machine.execWindowDiscardMessage h s
  | .commitAck h home => Sys2Proof.Machine.execCommitAck h home s
  | .commitResend h home => Sys2Proof.Machine.execCommitResend h home s
  | .commitGiveUp h home => Sys2Proof.Machine.execCommitGiveUp h home s
  | .epochRelease pkg epoch => Sys2Proof.Machine.execEpochRelease pkg epoch s
  | .accessPerforms c seq elem => Sys2Proof.Machine.execAccessPerforms c seq elem s
  | .dataArrived c seq => Sys2Proof.Machine.execDataArrived c seq s
  | .softError c t => Sys2Proof.Machine.execSoftError c t s
  | .tlbEntryDropped n => Sys2Proof.Machine.execTlbEntryDropped n s
  | .directoryEntryRelease h => Sys2Proof.Machine.execDirectoryEntryRelease h s
  | .pendingLineFilterClear line => Sys2Proof.Machine.execPendingLineFilterClear line s
  | .powerOff  => Sys2Proof.Machine.execPowerOff  s
  | .controlPairRestart k => Sys2Proof.Machine.execControlPairRestart k s
  | .portUp p sw lanes => Sys2Proof.Machine.execPortUp p sw lanes s
  | .flitReplay p => Sys2Proof.Machine.execFlitReplay p s

end Sys2Proof.Machine
end

