-- ==== Sys2Proof/Machine/Program.lean ====
section
/-! DEFINITION. How one bundle comes to stand where core 0 fetches (log 5): the load of a program from outside. -/

namespace Sys2Proof.Machine

open Sys2Proof

/-- A bundle that holds one slot word; the other slots hold 0, a nop (DESIGN CHOICE, log 5). -/
def oneSlot (sl : Slot) (w : Nat) : BundleBits := BitVec.ofNat 384 (w % 2 ^ sl.bits * 2 ^ sl.lo)

/-- The bytes of a literal bundle: the escape, then 24 halfwords (02 R29). -/
def literalBytes (b : BundleBits) : List Byte := 0xFF :: 0xFF :: bytesOf 48 b.toNat

/-- Plaintext bytes in line 0 of HBM, without shadow, poison or key. -/
def Mem.place (m : Mem) (b : List Byte) : Mem :=
  { m with
    hbm := msetAll hbmDefault m.hbm (List.zip (List.range b.length) b)
    hbmPoison := mclear m.hbmPoison 0 8
    lineKey := mset none m.lineKey 0 none
    shadow := m.shadow.filter fun e => e.line ≠ 0 }

/-- The translation of address 0 of partition 0 at core 0: the identity, readable and executable (DESIGN CHOICE, log
5). -/
def idTlb : Tlb := ⟨0, some 0, 0, 0x1000, 0, true, false, true, true, 0⟩

/-- Hallmark of the launch the placed bundle runs in. -/
def placedHall : Hall := 0

/-- The launch the placed bundle runs in: partition 0, cluster 0, one context (DESIGN CHOICE, log 5). -/
def placedLaunch : Launch :=
  { part := 0, queue := 0, recNo := 0, clusters := [0], lk := 0, team := [0], image := 0, node := 0, cls := 0, state := .running
    ticket := none, sig := 0, budget := 1024, excl := false, runs := 0, undo := [], touch := [], why := .none, report := 0
    nchan := 0, nbars := 0, held := [], stampVa := 0, stampVal := 0, unconfirmed := false, committingAt := 0, tables := [] }

/-- Context 0 about to issue the bundle at address 0 (DESIGN CHOICE, log 5). -/
def Ctx.placed (x : Ctx) : Ctx :=
  { x with pc := 0, act := .ready, hall := some placedHall, ctl := { x.ctl with cbase := 0, priv := 0 } }

/-- A bundle as a literal where core 0 fetches next (DESIGN CHOICE, log 5). -/
def State.placeBundle (s : State) (b : BundleBits) : State :=
  let s := (s.modMem fun m => m.place (literalBytes b)).modCtx 0 Ctx.placed
  let s := s.modCore 0 fun k => { k with running := some 0, yielded := false, released := false, stopped := false, gated := false }
  { s with
    agenda := [], cur := 0, powered := true
    tr := { s.tr with tlb := idTlb :: s.tr.tlb }
    sched := { s.sched with launches := (placedHall, placedLaunch) :: s.sched.launches } }

end Sys2Proof.Machine
end

