-- ==== Sys2Proof/Machine/Step.lean ====
section
/-! DEFINITION. One step of the package, and where a step fetches (log 1, 5). -/

namespace Sys2Proof.Machine

open Sys2Proof

/-- One step: the next item of the agenda after its delay; with the agenda empty, the port of core `cur`. In S0 nothing
happens but a package reset (21 R340) (DESIGN CHOICE, log 1; DEDUCED, log 80). -/
def step (s : State) : Host.Outcome State Fault Refusal :=
  match s.agenda with
  | (d, i) :: t =>
    let s : State := { s with agenda := t }.advance d
    if s.powered || i.isReset then exec i s else .next s
  | [] => if s.powered then .next ((s.switch s.cur.val).issueOn slotMeaning s.cur.val) else .fault .poweredOff

/-- The state whose next step fetches and issues one word of the opcode table, alone in a bundle (DESIGN CHOICE, log
5). -/
def State.withFetchWord (s : State) (nbits w : Nat) : State := s.placeBundle (oneSlot (slotOfBits nbits) w)

end Sys2Proof.Machine
end

