-- ==== Sys2Proof/Safety.lean ====
section
/-! DEFINITION. The terms claims are stated in: a step that goes on, a core about to execute a bundle, what a bundle that
executes leaves, and a core with nothing in flight. -/

namespace Sys2Proof.Machine

open Sys2Proof

/-- The step goes on. -/
def GoesOn {σ φ ρ : Type} (o : Host.Outcome σ φ ρ) : Prop := ∃ t, o = .next t

/-- Context `c` holds the port of the core that acts, nothing comes before its bundle at the boundary, an open segment has a
line free, no command of a closed segment waits for room, and `b` is the state its slots read: the clock at the port's cycle,
results and landings due applied. -/
structure Turn (s : State) (c : Nat) (b : State) : Prop where
  holder : s.holder s.cur.val = some c
  clear : (s.portReady s.cur.val).boundary c = none
  reads : b = (s.portReady s.cur.val).settleNow c
  lines : ∀ g, (b.ctx c).seg = some g → g.lines.length < 64
  rel : (b.ctx c).rel = []

/-- The slot predicate is not poisoned and true (02 R34). -/
def Ctx.passes (x : Ctx) (g : Guard) : Prop := (x.preg g.pred).p = none ∧ (x.preg g.pred).v ≠ g.pneg

/-- The PC behind the bundle of context `c`. -/
def State.nextPc (b : State) (c : Nat) : BitVec 32 := (b.ctx c).pc + BitVec.ofNat 32 (b.pcLen c)

/-- What a slot knows when it issues alone under a clean guard. -/
def State.envAt (b : State) (c : Nat) (sl : Slot) : Env :=
  ⟨c, sl.pos, b.nextPc c, (b.ctx c).ct, (b.ctx c).issues, none⟩

/-- What a bundle that executes leaves: the port taken, what its slot does (`act`), the PC moved by the flow `fl`, own-core
accesses performed, then what the slot does last (`post`). -/
def State.issued (b : State) (c : Nat) (mul : Bool) (fl : Flow) (act post : State → State) : State :=
  post (((act (b.busy (coreOf c) (bundleCost (b.pcLen c)))).modCtx c fun x => x.moveOn (b.nextPc c) fl mul).settleCore
    (coreOf c))

/-- The same of a slot that only queues one fixed-latency result: `lat` ticks after issue `v` reaches `d`. -/
def State.issuedPut (b : State) (c : Nat) (sl : Slot) (mul : Bool) (lat : Nat) (d : Dest) (v : RVal) : State :=
  b.issued c mul .next ((b.envAt c sl).put lat d v) id

/-- No context of the core of `c` has an access in flight, and `c` has no segment open and no VACWR element on its way to the
matrix unit. -/
structure Quiet (b : State) (c : Nat) : Prop where
  noSeg : (b.ctx c).seg = none
  noVac : (b.ctx c).vac = []
  noAcc : ∀ i < 4, (b.ctx (4 * coreOf c + i)).acc = []

end Sys2Proof.Machine
end

