-- ==== Sys2Proof/Certificates/Slice0/Obligations.lean ====
section
/-! DEFINITION. The obligations: what the spec's numbered rules say of the instructions and of the machine, as propositions
about `exec` and `step`. `Sys2Proof.Claims` holds the words they are written in. -/

namespace Sys2Proof.Claims

open Sys2Proof Sys2Proof.Machine

/-! ## Results of slot instructions -/

/-- The instruction goes on and leaves only a result on its way: `lat` ticks after issue `v` reaches `d`. -/
def Puts (s b : State) (c : Nat) (i : Instr) (sl : Slot) (lat : Nat) (d : Dest) (v : RVal) : Prop :=
  exec i s = .next (b.issuedPut c sl i.isMul lat d v)

/-- A scalar result with value `v` and poison `p`; its residue fits the value whenever `fits` holds. -/
def PutsWord (s b : State) (c : Nat) (i : Instr) (sl : Slot) (lat : Nat) (d : SReg) (v : Word) (p : Option Poi)
    (fits : Prop) : Prop :=
  ∃ r, Puts s b c i sl lat (.s d) (.s ⟨v, r, p⟩) ∧ (fits → r = residue v)

/-- A predicate result. -/
def PutsPred (s b : State) (c : Nat) (i : Instr) (sl : Slot) (lat : Nat) (d : PReg) (v : Bool) (p : Option Poi) : Prop :=
  Puts s b c i sl lat (.p d) (.p ⟨v, p⟩)

/-- A scalar register's residue fits its value (04 R113). -/
def Fits (x : Ctx) (n : SReg) : Prop := (x.sreg n).r = residue (x.sreg n).v

/-- Value of a scalar register of a context. -/
def sv (b : State) (c : Nat) (n : SReg) : Word := ((b.ctx c).sreg n).v
/-- Poison of a scalar register. -/
def sp (b : State) (c : Nat) (n : SReg) : Option Poi := ((b.ctx c).sreg n).p
/-- Value of a predicate. -/
def pv (b : State) (c : Nat) (n : PReg) : Bool := ((b.ctx c).preg n).v
/-- Poison of a predicate. -/
def pp (b : State) (c : Nat) (n : PReg) : Option Poi := ((b.ctx c).preg n).p

/-- An S.R instruction of two operands: `f` of their values, the poison of both. -/
def Bin (s b : State) (c : Nat) (mk : SRArgs → Instr) (lat : Nat) (f : Word → Word → Word) : Prop :=
  ∀ o : SRArgs, (b.ctx c).passes o.g →
    PutsWord s b c (mk o) o.pos.slot lat o.d (f (sv b c o.a) (sv b c o.b)) (pmeet (sp b c o.a) (sp b c o.b))
      (Fits (b.ctx c) o.a ∧ Fits (b.ctx c) o.b)

/-- An S.R instruction of one operand. -/
def Un (s b : State) (c : Nat) (mk : SUnArgs → Instr) (lat : Nat) (f : Word → Word) : Prop :=
  ∀ o : SUnArgs, (b.ctx c).passes o.g →
    PutsWord s b c (mk o) o.pos.slot lat o.d (f (sv b c o.a)) (sp b c o.a) (Fits (b.ctx c) o.a)

/-- An S.I instruction. -/
def Imm (s b : State) (c : Nat) (mk : SIArgs → Instr) (f : Word → BitVec 16 → Word) : Prop :=
  ∀ o : SIArgs, (b.ctx c).passes o.g →
    PutsWord s b c (mk o) o.pos.slot 1 o.d (f (sv b c o.a) o.imm) (sp b c o.a) (Fits (b.ctx c) o.a)

/-- A shift by an immediate. -/
def Shi (s b : State) (c : Nat) (mk : SShArgs → Instr) (f : Word → Nat → Word) : Prop :=
  ∀ o : SShArgs, (b.ctx c).passes o.g →
    PutsWord s b c (mk o) o.pos.slot 1 o.d (f (sv b c o.a) o.n.toNat) (sp b c o.a) (Fits (b.ctx c) o.a)

end Sys2Proof.Claims

section

open Sys2Proof Sys2Proof.Machine Sys2Proof.Claims

end

namespace Sys2Proof.Claims

open Sys2Proof Sys2Proof.Machine

/-! ## Vector results -/

/-- Is lane `k` of `w` bytes active (05 R117)? -/
def act (b : State) (c : Nat) (g : VGuard) (w k : Nat) : Bool := ((b.ctx c).qreg g.q).v.getLsbD (w * k) != g.qneg
/-- Value of a lane of a vector register. -/
def vl (b : State) (c : Nat) (n : VReg) (w k : Nat) : Nat := ((b.ctx c).vreg n).v.toNat / 2 ^ (8 * w * k) % 2 ^ (8 * w)
/-- Poison of the 32-bit group a lane begins in. -/
def vp (b : State) (c : Nat) (n : VReg) (w k : Nat) : Option Poi := poiAt ((b.ctx c).vreg n).p (w * k / 4)
/-- Operand b: a lane, or a scalar's low bytes (05 R118). -/
def bl (b : State) (c : Nat) (o : VSrc) (w k : Nat) : Nat :=
  match o with | .reg n => vl b c n w k | .scalar n => (sv b c n).toNat % 2 ^ (8 * w)
/-- Poison of operand b. -/
def bp (b : State) (c : Nat) (o : VSrc) (w k : Nat) : Option Poi :=
  match o with | .reg n => vp b c n w k | .scalar n => sp b c n
/-- Poison of the lane mask of an operation. -/
def qp (b : State) (c : Nat) (g : VGuard) : Option Poi := ((b.ctx c).qreg g.q).p

/-- A vector result: exactly the bytes of the lanes `on` are written, lane `k` with `val k`; a group written is poisoned when
the lane that begins in it depends on poison, and no group is when none does (05 R127). -/
def PutsLanes (s b : State) (c : Nat) (i : Instr) (lat : Nat) (vd : VReg) (w : Nat) (on : Nat → Bool) (val : Nat → Nat)
    (poi : Nat → Option Poi) : Prop :=
  ∃ (bits : VBits) (mask : QBits) (p : SMap Poi), Puts s b c i .v lat (.v vd) (.v bits mask p) ∧
    (∀ j < 256, mask.getLsbD j = on (j / w)) ∧
    (∀ k < 256 / w, on k = true → bits.toNat / 2 ^ (8 * w * k) % 2 ^ (8 * w) = val k) ∧
    (∀ k < 256 / w, on k = true → poi k ≠ none → poiAt p (w * k / 4) ≠ none) ∧
    ((∀ k < 256 / w, on k = true → poi k = none) → p = [])

/-- A lane mask result of a comparison: all bits of an active lane take the test, every other bit is 0 (05 R117). -/
def PutsMask (s b : State) (c : Nat) (i : Instr) (lat : Nat) (qd : QReg) (w : Nat) (on : Nat → Bool) (t : Nat → Bool) : Prop :=
  ∃ (v : QBits) (p : Option Poi), Puts s b c i .v lat (.q qd) (.q ⟨v, p⟩) ∧
    ∀ j < 256, v.getLsbD j = (on (j / w) && t (j / w))

/-- An elementwise integer instruction of two operands. -/
def VBin (s b : State) (c : Nat) (mk : VIntArgs → Instr) (f : VIntArgs → Nat → Nat → Nat) : Prop :=
  ∀ o : VIntArgs, (mk o).wf = true → (b.ctx c).passes o.vg.g →
    let w := o.fmt.bytes
    PutsLanes s b c (mk o) 2 o.vd w (act b c o.vg w) (fun k => f o (vl b c o.va w k) (bl b c o.b w k))
      (fun k => pmeet (qp b c o.vg) (pmeet (vp b c o.va w k) (bp b c o.b w k)))

/-- Arithmetic on lane values: exact, then wrapped modulo 2^(8w) or clamped to the format (01 R7). -/
def fit (o : VIntArgs) (f : Int → Int → Int) (x y : Nat) : Nat :=
  let v := f (o.fmt.intOf x) (o.fmt.intOf y)
  let n := 8 * o.fmt.bytes
  let r := if o.sat then max o.fmt.intMin (min o.fmt.intMax v) else v
  (r % 2 ^ n).toNat

/-- An elementwise floating-point instruction of two operands (05 R121, 25 R389). -/
def VFBin (s b : State) (c : Nat) (mk : VFBinArgs → Instr) (f : Fmt → Rnd → Nat → Nat → Nat) : Prop :=
  ∀ o : VFBinArgs, (mk o).wf = true → (b.ctx c).passes o.vg.g →
    let w := o.fmt.bytes
    PutsLanes s b c (mk o) 3 o.vd w (act b c o.vg w) (fun k => f o.fmt o.rnd (vl b c o.va w k) (bl b c o.b w k))
      (fun k => pmeet (qp b c o.vg) (pmeet (vp b c o.va w k) (bp b c o.b w k)))

/-- An elementwise floating-point instruction of one operand. -/
def VFUn (s b : State) (c : Nat) (mk : VFUnArgs → Instr) (lat : Nat) (f : Fmt → Rnd → Nat → Nat) : Prop :=
  ∀ o : VFUnArgs, (mk o).wf = true → (b.ctx c).passes o.vg.g →
    let w := o.fmt.bytes
    PutsLanes s b c (mk o) lat o.vd w (act b c o.vg w) (fun k => f o.fmt o.rnd (vl b c o.va w k))
      (fun k => pmeet (qp b c o.vg) (vp b c o.va w k))

/-- Combine two elements of a reduction or scan (01 R22, R23). -/
def combine (op : ScanOp) (f : Fmt) (rnd : Rnd) (sat : Bool) (x y : Nat) : Nat :=
  if f.isInt then
    let a := f.intOf x
    let b := f.intOf y
    f.intFit sat (match op with | .add => a + b | .max => max a b | .min => min a b)
  else match op with | .add => f.fadd rnd x y | .max => f.fmax x y | .min => f.fmin x y

/-- What an inactive lane counts as (01 R22). -/
def identity (op : ScanOp) (f : Fmt) : Nat :=
  if f.isInt then
    match op with | .add => 0 | .max => wrapInt f.bits f.intMin | .min => wrapInt f.bits f.intMax
  else
    match op with | .add => 2 ^ (f.bits - 1) | .max => 2 ^ (f.bits - 1) + f.infCode | .min => f.infCode

/-- The balanced pairwise tree over 2^n lanes from lane `i · 2^n` (01 R22). -/
def tree (g : Nat → Nat → Nat) (lane : Nat → Nat) : Nat → Nat → Nat
  | 0, i => lane i
  | n + 1, i => g (tree g lane n (2 * i)) (tree g lane n (2 * i + 1))

/-- The inclusive prefix of lanes 0 … k, from the left (01 R23). -/
def scan (g : Nat → Nat → Nat) (lane : Nat → Nat) : Nat → Nat
  | 0 => lane 0
  | k + 1 => g (scan g lane k) (lane (k + 1))

/-- Number of active lanes below `k`. -/
def rank (on : Nat → Bool) (k : Nat) : Nat := ((List.range k).filter on).length

end Sys2Proof.Claims

section

open Sys2Proof Sys2Proof.Machine Sys2Proof.Claims

/-! ## Scalar instructions (04) -/

/-- 04 R101, R100, R98, 25 R389: the integer arithmetic instructions. -/
def Sys2Proof.Claims.ScalarArithmetic : Prop :=
  ∀ (s b : State) (c : Nat), Turn s c b →
    Bin s b c Instr.add 1 (fun x y => BitVec.ofNat 64 (x.toNat + y.toNat)) ∧
    Imm s b c Instr.addi (fun x i => BitVec.ofInt 64 (x.toInt + i.toInt)) ∧
    Bin s b c Instr.sub 1 (fun x y => BitVec.ofInt 64 (x.toInt - y.toInt)) ∧
    Bin s b c Instr.mul (if (b.ctx c).mulPrev then 3 else 2) (fun x y => BitVec.ofNat 64 (x.toNat * y.toNat)) ∧
    Bin s b c Instr.mulh (if (b.ctx c).mulPrev then 3 else 2) (fun x y => BitVec.ofInt 64 (x.toInt * y.toInt / 2 ^ 64)) ∧
    Bin s b c Instr.mulhu (if (b.ctx c).mulPrev then 3 else 2) (fun x y => BitVec.ofNat 64 (x.toNat * y.toNat / 2 ^ 64)) ∧
    Bin s b c Instr.min 1 (fun x y => if x.toInt ≤ y.toInt then x else y) ∧
    Bin s b c Instr.max 1 (fun x y => if y.toInt ≤ x.toInt then x else y) ∧
    Bin s b c Instr.minu 1 (fun x y => if x.toNat ≤ y.toNat then x else y) ∧
    Bin s b c Instr.maxu 1 (fun x y => if y.toNat ≤ x.toNat then x else y) ∧
    Un s b c Instr.abs 1 (fun x => BitVec.ofInt 64 x.toInt.natAbs)

/-- 04 R102: DIV, REM, DIVU, REMU with their corners; bound 34. -/
def Sys2Proof.Claims.ScalarDivision : Prop :=
  ∀ (s b : State) (c : Nat), Turn s c b →
    ∃ q r qu ru : Word → Word → Word,
      Bin s b c Instr.div 34 q ∧ Bin s b c Instr.rem 34 r ∧ Bin s b c Instr.divu 34 qu ∧ Bin s b c Instr.remu 34 ru ∧
      (∀ n m : Word,
        (m = 0 → q n m = 0xFFFFFFFFFFFFFFFF ∧ r n m = n ∧ qu n m = 0xFFFFFFFFFFFFFFFF ∧ ru n m = n) ∧
        (n.toInt = -2 ^ 63 → m.toInt = -1 → (q n m).toInt = -2 ^ 63 ∧ r n m = 0) ∧
        (m ≠ 0 → ¬(n.toInt = -2 ^ 63 ∧ m.toInt = -1) →
          n.toInt = (q n m).toInt * m.toInt + (r n m).toInt ∧ (r n m).toInt.natAbs < m.toInt.natAbs ∧
          (0 < (r n m).toInt → 0 < n.toInt) ∧ ((r n m).toInt < 0 → n.toInt < 0)) ∧
        (m ≠ 0 → n.toNat = (qu n m).toNat * m.toNat + (ru n m).toNat ∧ (ru n m).toNat < m.toNat))

/-- 04 R101, R102, R100, R98, 25 R389: the integer arithmetic instructions, and division with its corners. The model's own
choices in it: log 9, 27, 28. -/
def Obligations.ScalarIntegerArithmetic : Prop :=
  Claims.ScalarArithmetic ∧ Claims.ScalarDivision

/-- 04 R103, R100: logic, shifts and rotates; counts are taken modulo 64. -/
def Sys2Proof.Claims.ScalarLogicAndShifts : Prop :=
  ∀ (s b : State) (c : Nat), Turn s c b →
    Bin s b c Instr.and 1 (fun x y => x &&& y) ∧
    Imm s b c Instr.andi (fun x i => x &&& i.setWidth 64) ∧
    Bin s b c Instr.or 1 (fun x y => x ||| y) ∧
    Imm s b c Instr.ori (fun x i => x ||| i.setWidth 64) ∧
    Bin s b c Instr.xor 1 (fun x y => x ^^^ y) ∧
    Imm s b c Instr.xori (fun x i => x ^^^ i.setWidth 64) ∧
    Bin s b c Instr.shl 1 (fun x y => BitVec.ofNat 64 (x.toNat * 2 ^ (y.toNat % 64))) ∧
    Bin s b c Instr.shr 1 (fun x y => BitVec.ofNat 64 (x.toNat / 2 ^ (y.toNat % 64))) ∧
    Bin s b c Instr.sar 1 (fun x y => BitVec.ofInt 64 (x.toInt / 2 ^ (y.toNat % 64))) ∧
    Shi s b c Instr.shli (fun x n => BitVec.ofNat 64 (x.toNat * 2 ^ n)) ∧
    Shi s b c Instr.shri (fun x n => BitVec.ofNat 64 (x.toNat / 2 ^ n)) ∧
    Shi s b c Instr.sari (fun x n => BitVec.ofInt 64 (x.toInt / 2 ^ n)) ∧
    Bin s b c Instr.rol 1 (fun x y => x.rotateLeft (y.toNat % 64)) ∧
    Bin s b c Instr.ror 1 (fun x y => x.rotateRight (y.toNat % 64))

/-- 04 R104: extension, counting and bit fields, bit by bit. -/
def Sys2Proof.Claims.ScalarFields : Prop :=
  ∀ (s b : State) (c : Nat), Turn s c b →
    (∀ o : ExtArgs, (b.ctx c).passes o.g →
      PutsWord s b c (.sext o) o.pos.slot 1 o.d (((sv b c o.a).setWidth o.size.bits).signExtend 64) (sp b c o.a) True ∧
      PutsWord s b c (.zext o) o.pos.slot 1 o.d (((sv b c o.a).setWidth o.size.bits).setWidth 64) (sp b c o.a) True) ∧
    (∃ lz tz pc : Word → Word,
      Un s b c Instr.clz 1 lz ∧ Un s b c Instr.ctz 1 tz ∧ Un s b c Instr.popc 1 pc ∧
      ∀ x : Word,
        ((lz x).toNat ≤ 64 ∧ (∀ i < (lz x).toNat, x.getLsbD (63 - i) = false) ∧
          ((lz x).toNat < 64 → x.getLsbD (63 - (lz x).toNat) = true)) ∧
        ((tz x).toNat ≤ 64 ∧ (∀ i < (tz x).toNat, x.getLsbD i = false) ∧
          ((tz x).toNat < 64 → x.getLsbD (tz x).toNat = true)) ∧
        (pc x).toNat = ((List.range 64).filter fun i => x.getLsbD i).length) ∧
    (∀ o : BextArgs, (Instr.bext o).wf = true → (b.ctx c).passes o.g →
      let f := (sv b c o.a).extractLsb' o.bit.toNat (o.len1.toNat + 1)
      PutsWord s b c (.bext o) o.pos.slot 1 o.d (if o.signed then f.signExtend 64 else f.setWidth 64) (sp b c o.a) True) ∧
    (∀ o : BinsArgs, (Instr.bins o).wf = true → (b.ctx c).passes o.g →
      ∃ v : Word, PutsWord s b c (.bins o) o.pos.slot 1 o.d v (pmeet (sp b c o.a) (sp b c o.d)) True ∧
        ∀ i < 64, v.getLsbD i =
          if o.bit.toNat ≤ i ∧ i ≤ o.bit.toNat + o.len1.toNat then (sv b c o.a).getLsbD (i - o.bit.toNat)
          else (sv b c o.d).getLsbD i)

/-- 04 R103, R104, R100: logic, shifts, extension, counting and bit fields. The model's own choices in it: log 9, 27, 28. -/
def Obligations.ScalarBitOperations : Prop :=
  Claims.ScalarLogicAndShifts ∧ Claims.ScalarFields

/-- 04 R105, R106, R112: moves, selection, address arithmetic, predicates as a word and bits as a predicate. -/
def Sys2Proof.Claims.ScalarMoves : Prop :=
  ∀ (s b : State) (c : Nat), Turn s c b →
    (∀ o : MovArgs, (b.ctx c).passes o.g →
      PutsWord s b c (.movi o) o.pos.slot 1 o.d (BitVec.ofNat 64 (o.imm.toNat * 2 ^ (16 * o.hw.toNat))) none True ∧
      ∃ v : Word, PutsWord s b c (.movk o) o.pos.slot 1 o.d v (sp b c o.d) (Fits (b.ctx c) o.d) ∧
        ∀ i < 64, v.getLsbD i =
          if i / 16 = o.hw.toNat then o.imm.getLsbD (i % 16) else (sv b c o.d).getLsbD i) ∧
    (∀ o : SelpArgs, (b.ctx c).passes o.g →
      let r := if pv b c o.n then o.a else o.b
      PutsWord s b c (.selp o) o.pos.slot 1 o.d (sv b c r) (pmeet (pp b c o.n) (sp b c r)) True) ∧
    (∀ o : LeaArgs, (b.ctx c).passes o.g →
      PutsWord s b c (.lea o) o.pos.slot 1 o.d
        (BitVec.ofNat 64 ((sv b c o.a).toNat + (sv b c o.b).toNat * 2 ^ o.sh.toNat))
        (pmeet (sp b c o.a) (sp b c o.b)) (Fits (b.ctx c) o.a ∧ Fits (b.ctx c) o.b)) ∧
    (∀ o : PmovArgs, (b.ctx c).passes o.g →
      ∃ v p, PutsWord s b c (.pmov o) o.pos.slot 1 o.d v p True ∧ v.getLsbD 0 = true ∧
        (∀ i < 8, v.getLsbD i = pv b c (BitVec.ofNat 3 i)) ∧ (∀ i, 8 ≤ i → v.getLsbD i = false) ∧
        (p = none ↔ ∀ n : PReg, pp b c n = none)) ∧
    (∀ o : PsetArgs, (b.ctx c).passes o.g →
      PutsPred s b c (.pset o) o.pos.slot 1 o.pd ((sv b c o.a).getLsbD o.bit.toNat) (sp b c o.a))

/-- 04 R107, R109: comparisons write a predicate. -/
def Sys2Proof.Claims.ScalarComparisons : Prop :=
  ∀ (s b : State) (c : Nat), Turn s c b →
    (∀ o : CmpArgs, (b.ctx c).passes o.g →
      let x := sv b c o.a
      let y := sv b c o.b
      PutsPred s b c (.cmpCc o) o.pos.slot 1 o.pd
        (match o.cc with
          | .eq => decide (x = y)
          | .ne => decide (x ≠ y)
          | .lt => decide (x.toInt < y.toInt)
          | .le => decide (x.toInt ≤ y.toInt)
          | .ltu => decide (x.toNat < y.toNat)
          | .leu => decide (x.toNat ≤ y.toNat))
        (pmeet (sp b c o.a) (sp b c o.b))) ∧
    (∀ o : CmpiArgs, (b.ctx c).passes o.g →
      let x := sv b c o.a
      let y : Word := BitVec.ofInt 64 o.imm.toInt
      PutsPred s b c (.cmpiCc o) o.pos.slot 1 o.pd
        (match o.cc with
          | .eq => decide (x = y)
          | .ne => decide (x ≠ y)
          | .lt => decide (x.toInt < y.toInt)
          | .le => decide (x.toInt ≤ y.toInt)
          | .gt => decide (y.toInt < x.toInt)
          | .ge => decide (y.toInt ≤ x.toInt)
          | .ltu => decide (x.toNat < y.toNat)
          | .geu => decide (y.toNat ≤ x.toNat))
        (sp b c o.a)) ∧
    (∀ o : SFcmpArgs, (b.ctx c).passes o.g →
      PutsPred s b c (.fcmpCc o) o.pos.slot 2 o.pd
        (o.cc.test (Fmt.fp32.decode ((sv b c o.a).toNat % 2 ^ 32)) (Fmt.fp32.decode ((sv b c o.b).toNat % 2 ^ 32)))
        (pmeet (sp b c o.a) (sp b c o.b)))

/-- 04 R105–R107, R109, R112: moves, selection, addresses, predicates as words, and the comparisons. The model's own choices
in it: log 9, 27, 28, 114. -/
def Obligations.ScalarMovesAndComparisons : Prop :=
  Claims.ScalarMoves ∧ Claims.ScalarComparisons

/-- 04 R108, R110, R111: scalar floating point in bits [31:0], conversion, and PACKWE's keys. The model's own choices in it:
log 9, 27. -/
def Obligations.ScalarFloatingPoint : Prop :=
  ∀ (s b : State) (c : Nat), Turn s c b →
    let f (n : SReg) : FV := Fmt.fp32.decode ((sv b c n).toNat % 2 ^ 32)
    (∀ o : SFpArgs, (b.ctx c).passes o.g →
      PutsWord s b c (.faddS o) o.pos.slot 3 o.d
        (BitVec.ofNat 64 (Fmt.fp32.encode o.rnd false (FV.add o.rnd (f o.a) (f o.b)))) (pmeet (sp b c o.a) (sp b c o.b)) True ∧
      PutsWord s b c (.fmulS o) o.pos.slot 3 o.d
        (BitVec.ofNat 64 (Fmt.fp32.encode o.rnd false (FV.mul (f o.a) (f o.b)))) (pmeet (sp b c o.a) (sp b c o.b)) True ∧
      PutsWord s b c (.ffmaS o) o.pos.slot 4 o.d
        (BitVec.ofNat 64 (Fmt.fp32.encode o.rnd false (FV.add o.rnd (FV.mul (f o.a) (f o.b)) (f o.d))))
        (pmeets [sp b c o.a, sp b c o.b, sp b c o.d]) True) ∧
    (∀ o : SFcvtArgs, (b.ctx c).passes o.g →
      let y := convert o.from_ o.to_ o.rnd o.sat ((sv b c o.a).toNat % 2 ^ o.from_.bits)
      PutsWord s b c (.fcvt o) o.pos.slot 3 o.d
        (if o.to_.isSignedInt then BitVec.ofInt 64 (signedOf o.to_.bits y) else BitVec.ofNat 64 y) (sp b c o.a) True) ∧
    (∀ o : PackweArgs, (b.ctx c).passes o.g →
      let w : W32 := (sv b c o.a).setWidth 32
      let k : W32 :=
        if !o.f32 then w
        else if (Fmt.fp32.decode w.toNat).isNan then 0xFFFFFFFF
        else if w.getLsbD 31 then ~~~w
        else w ^^^ 0x80000000
      PutsWord s b c (.packwe o) o.pos.slot 1 o.d (k ++ ((sv b c o.b).setWidth 32 : W32)) (pmeet (sp b c o.a) (sp b c o.b)) True)

/-! ## Vector instructions (05) -/

/-- 05 R119, R117, R118, R127: integer elementwise arithmetic; bound 2. -/
def Sys2Proof.Claims.VectorIntegerArithmetic : Prop :=
  ∀ (s b : State) (c : Nat), Turn s c b →
    VBin s b c Instr.vadd (fun o => fit o (· + ·)) ∧
    VBin s b c Instr.vsub (fun o => fit o (· - ·)) ∧
    VBin s b c Instr.vmul (fun o => fit o (· * ·)) ∧
    VBin s b c Instr.vmulh (fun o x y => (o.fmt.intOf x * o.fmt.intOf y / 2 ^ (8 * o.fmt.bytes) % 2 ^ (8 * o.fmt.bytes)).toNat) ∧
    VBin s b c Instr.vmin (fun o x y => if o.fmt.intOf x ≤ o.fmt.intOf y then x else y) ∧
    VBin s b c Instr.vmax (fun o x y => if o.fmt.intOf y ≤ o.fmt.intOf x then x else y) ∧
    (∀ o : VAbsArgs, (Instr.vabs o).wf = true → (b.ctx c).passes o.vg.g →
      let w := o.fmt.bytes
      PutsLanes s b c (.vabs o) 2 o.vd w (act b c o.vg w)
        (fun k =>
          let x := vl b c o.va w k
          if x < 2 ^ (8 * w - 1) then x
          else if x = 2 ^ (8 * w - 1) then (if o.sat then 2 ^ (8 * w - 1) - 1 else x)
          else 2 ^ (8 * w) - x)
        (fun k => pmeet (qp b c o.vg) (vp b c o.va w k)))

/-- 05 R119: bit operations and shifts of lanes; counts are taken modulo the lane's width. -/
def Sys2Proof.Claims.VectorLogicAndShifts : Prop :=
  ∀ (s b : State) (c : Nat), Turn s c b →
    VBin s b c Instr.vand (fun _ x y => x &&& y) ∧
    VBin s b c Instr.vor (fun _ x y => x ||| y) ∧
    VBin s b c Instr.vxor (fun _ x y => x ^^^ y) ∧
    VBin s b c Instr.vshl (fun o x y => x * 2 ^ (y % (8 * o.fmt.bytes)) % 2 ^ (8 * o.fmt.bytes)) ∧
    VBin s b c Instr.vshr (fun o x y => x / 2 ^ (y % (8 * o.fmt.bytes))) ∧
    VBin s b c Instr.vsar (fun o x y =>
      (o.fmt.intOf x / ((2 ^ (y % (8 * o.fmt.bytes)) : Nat) : Int) % 2 ^ (8 * o.fmt.bytes)).toNat)

/-- 05 R117–R119, R127: the elementwise integer instructions; bound 2. The model's own choices in it: log 9, 16, 27. -/
def Obligations.VectorIntegerOperations : Prop :=
  Claims.VectorIntegerArithmetic ∧ Claims.VectorLogicAndShifts

/-- 05 R120, R127: VCMP.cc, VSEL, VIOTA, VMOVI; bound 2. -/
def Sys2Proof.Claims.VectorCompareAndSelect : Prop :=
  ∀ (s b : State) (c : Nat), Turn s c b →
    (∀ o : VCmpArgs, (Instr.vcmpCc o).wf = true → (b.ctx c).passes o.vg.g →
      let w := o.fmt.bytes
      PutsMask s b c (.vcmpCc o) 2 o.qd w (act b c o.vg w) fun k =>
        let x := vl b c o.va w k
        let y := bl b c o.b w k
        match o.cc with
          | .eq => decide (x = y)
          | .ne => decide (x ≠ y)
          | .lt => decide (o.fmt.intOf x < o.fmt.intOf y)
          | .le => decide (o.fmt.intOf x ≤ o.fmt.intOf y)
          | .ltu => decide (x < y)
          | .leu => decide (x ≤ y)) ∧
    (∀ o : VTwoArgs, (Instr.vsel o).wf = true → (b.ctx c).passes o.vg.g →
      let w := o.fmt.bytes
      PutsLanes s b c (.vsel o) 2 o.vd w (fun k => decide (k < 256 / w))
        (fun k => if act b c o.vg w k then vl b c o.va w k else vl b c o.vb w k)
        (fun k => pmeet (qp b c o.vg) (if act b c o.vg w k then vp b c o.va w k else vp b c o.vb w k))) ∧
    (∀ o : VScalArgs, (Instr.viota o).wf = true → (b.ctx c).passes o.vg.g →
      let w := o.fmt.bytes
      PutsLanes s b c (.viota o) 2 o.vd w (act b c o.vg w) (fun k => ((sv b c o.s).toNat + k) % 2 ^ (8 * w))
        (fun _ => pmeet (qp b c o.vg) (sp b c o.s))) ∧
    (∀ o : VMoviArgs, (Instr.vmovi o).wf = true → (b.ctx c).passes o.vg.g →
      let w := o.fmt.bytes
      PutsLanes s b c (.vmovi o) 2 o.vd w (act b c o.vg w) (fun _ => (o.imm.toInt % 2 ^ (8 * w)).toNat) (fun _ => qp b c o.vg))

/-- 05 R121, 25 R389: floating-point elementwise instructions; on B1 they land after 3 ticks, the four functions after 5. The
model's own choices in it: log 9, 16, 25, 27. -/
def Obligations.VectorFloatingPoint : Prop :=
  ∀ (s b : State) (c : Nat), Turn s c b →
    VFBin s b c Instr.vfadd (fun f rnd x y => f.encode rnd false (FV.add rnd (f.decode x) (f.decode y))) ∧
    VFBin s b c Instr.vfsub (fun f rnd x y => f.encode rnd false (FV.add rnd (f.decode x) (f.decode y).neg)) ∧
    VFBin s b c Instr.vfmul (fun f rnd x y => f.encode rnd false (FV.mul (f.decode x) (f.decode y))) ∧
    (∀ o : VFmaArgs, (Instr.vfma o).wf = true → (b.ctx c).passes o.vg.g →
      let w := o.fmt.bytes
      PutsLanes s b c (.vfma o) 3 o.vd w (act b c o.vg w)
        (fun k => o.fmt.encode o.rnd false (FV.add o.rnd
          (FV.mul (o.fmt.decode (vl b c o.va w k)) (o.fmt.decode (bl b c o.b w k))) (o.fmt.decode (vl b c o.vc w k))))
        (fun k => pmeet (qp b c o.vg) (pmeets [vp b c o.va w k, bp b c o.b w k, vp b c o.vc w k]))) ∧
    VFBin s b c Instr.vfmin (fun f _ x y => f.fmin x y) ∧
    VFBin s b c Instr.vfmax (fun f _ x y => f.fmax x y) ∧
    VFUn s b c Instr.vfabs 3 (fun f _ x => if (f.decode x).isNan then f.nanCode else x % 2 ^ (f.bits - 1)) ∧
    VFUn s b c Instr.vfneg 3 (fun f _ x => if (f.decode x).isNan then f.nanCode else x ^^^ 2 ^ (f.bits - 1)) ∧
    (∀ o : VFcmpArgs, (Instr.vfcmpCc o).wf = true → (b.ctx c).passes o.vg.g →
      let w := o.fmt.bytes
      PutsMask s b c (.vfcmpCc o) 3 o.qd w (act b c o.vg w) fun k =>
        o.cc.test (o.fmt.decode (vl b c o.va w k)) (o.fmt.decode (bl b c o.b w k))) ∧
    VFUn s b c Instr.vfrcp 5 Fmt.frcp ∧ VFUn s b c Instr.vfrsq 5 Fmt.frsq ∧
    VFUn s b c Instr.vfexp2 5 Fmt.fexp2 ∧ VFUn s b c Instr.vflog2 5 Fmt.flog2

/-- 05 R122, R123: lane conversions and the moves between BF16 lanes and MX blocks. The model's own choices in it: log 9, 16,
27. -/
def Obligations.VectorConversions : Prop :=
  ∀ (s b : State) (c : Nat), Turn s c b →
    (∀ o : VFcvtArgs, (Instr.vfcvt o).wf = true → (b.ctx c).passes o.vg.g →
      let ws := o.from_.bytes
      let wd := o.to_.bytes
      let k := o.part.toNat
      let from_ (i : Nat) : Nat := if wd < ws then i - k * (256 / ws) else k * (256 / wd) + i
      PutsLanes s b c (.vfcvt o) 3 o.vd wd
        (fun i => act b c o.vg wd i && (decide (ws ≤ wd) || decide (k * (256 / ws) ≤ i ∧ i < (k + 1) * (256 / ws))))
        (fun i => convert o.from_ o.to_ o.rnd o.sat (vl b c o.va ws (from_ i)))
        (fun i => pmeet (qp b c o.vg) (vp b c o.va ws (from_ i)))) ∧
    (∀ o : VQntArgs, (b.ctx c).passes o.g →
      ∃ (bits : VBits) (p : SMap Poi), Puts s b c (.vqnt o) .v 3 (.v o.vd) (.v bits (BitVec.allOnes 256) p) ∧
        ∀ i < 4,
          let r := o.fmt.encodeBlock o.rnd ((List.range 32).map fun j => Fmt.bf16.decode (vl b c o.va 2 (32 * i + j)))
          bits.toNat / 2 ^ (8 * (252 + i)) % 256 = r.1 ∧
          ∀ j < 32, bits.toNat / 2 ^ (32 * o.fmt.bits * i + o.fmt.bits * j) % 2 ^ o.fmt.bits =
            wrapInt o.fmt.bits ((r.2[j]?).getD 0)) ∧
    (∀ o : VDqnArgs, (b.ctx c).passes o.g →
      ∃ (bits : VBits) (p : SMap Poi), Puts s b c (.vdqn o) .v 3 (.v o.vd) (.v bits (BitVec.allOnes 256) p) ∧
        ∀ i < 128,
          let v := ((b.ctx c).vreg o.va).v.toNat
          let code := signedOf o.fmt.bits (v / 2 ^ (32 * o.fmt.bits * (i / 32) + o.fmt.bits * (i % 32)))
          bits.toNat / 2 ^ (16 * i) % 2 ^ 16 = o.fmt.decodeTo .bf16 code (v / 2 ^ (8 * (252 + i / 32)) % 256))

/-- 05 R124, 01 R22, R23: reductions add along a balanced tree and write lane 0; VSCAN writes the inclusive prefixes. -/
def Obligations.VectorReductions : Prop :=
  ∀ (s b : State) (c : Nat), Turn s c b →
    let lane (o : VGuard) (va : VReg) (f : Fmt) (op : ScanOp) (k : Nat) : Nat :=
      if act b c o f.bytes k then vl b c va f.bytes k else identity op f
    let poi (g : VGuard) (va : VReg) (w n : Nat) : Option Poi :=
      pmeets (qp b c g :: ((List.range n).filter (act b c g w)).map (vp b c va w))
    let red (mk : VRedArgs → Instr) (op : ScanOp) : Prop :=
      ∀ o : VRedArgs, (mk o).wf = true → (b.ctx c).passes o.vg.g →
        let w := o.fmt.bytes
        PutsLanes s b c (mk o) 3 o.vd w (fun k => decide (k = 0))
          (fun _ => tree (combine op o.fmt o.rnd o.sat) (lane o.vg o.va o.fmt op) (8 - Nat.log2 w) 0)
          (fun _ => poi o.vg o.va w (256 / w))
    red Instr.vradd .add ∧ red Instr.vrmax .max ∧ red Instr.vrmin .min ∧
    (∀ o : VScanArgs, (Instr.vscan o).wf = true → (b.ctx c).passes o.vg.g →
      let w := o.fmt.bytes
      PutsLanes s b c (.vscan o) 3 o.vd w (fun k => decide (k < 256 / w))
        (fun k => scan (combine o.op o.fmt o.rnd o.sat) (lane o.vg o.va o.fmt o.op) k)
        (fun k => poi o.vg o.va w (k + 1)))

/-- 05 R124, R127: permutes, broadcasts, single lanes, compress and expand. -/
def Sys2Proof.Claims.VectorPermutes : Prop :=
  ∀ (s b : State) (c : Nat), Turn s c b →
    (∀ o : VTwoArgs, (Instr.vperm o).wf = true → (b.ctx c).passes o.vg.g →
      let w := o.fmt.bytes
      let j (k : Nat) : Nat := vl b c o.vb w k % (256 / w)
      PutsLanes s b c (.vperm o) 3 o.vd w (act b c o.vg w) (fun k => vl b c o.va w (j k))
        (fun k => pmeets [qp b c o.vg, vp b c o.vb w k, vp b c o.va w (j k)])) ∧
    (∀ o : VScalArgs, (Instr.vbcst o).wf = true → (b.ctx c).passes o.vg.g →
      let w := o.fmt.bytes
      PutsLanes s b c (.vbcst o) 3 o.vd w (act b c o.vg w) (fun _ => (sv b c o.s).toNat % 2 ^ (8 * w))
        (fun _ => pmeet (qp b c o.vg) (sp b c o.s))) ∧
    (∀ o : VExtArgs, (Instr.vext o).wf = true → (b.ctx c).passes o.g →
      let x := vl b c o.va o.fmt.bytes o.k.toNat
      PutsWord s b c (.vext o) .v 3 o.s
        (if o.fmt.isSignedInt then BitVec.ofInt 64 (signedOf o.fmt.bits x) else BitVec.ofNat 64 x)
        (vp b c o.va o.fmt.bytes o.k.toNat) True) ∧
    (∀ o : VInsArgs, (Instr.vins o).wf = true → (b.ctx c).passes o.g →
      let w := o.fmt.bytes
      PutsLanes s b c (.vins o) 3 o.vd w (fun k => decide (k = o.k.toNat)) (fun _ => (sv b c o.s).toNat % 2 ^ (8 * w))
        (fun _ => sp b c o.s)) ∧
    (∀ o : VUnArgs, (Instr.vcmpr o).wf = true → (b.ctx c).passes o.vg.g →
      let w := o.fmt.bytes
      let n := rank (act b c o.vg w) (256 / w)
      ∃ val poi, PutsLanes s b c (.vcmpr o) 3 o.vd w (fun k => decide (k < 256 / w)) val poi ∧
        (∀ k < 256 / w, act b c o.vg w k = true →
          val (rank (act b c o.vg w) k) = vl b c o.va w k ∧
          poi (rank (act b c o.vg w) k) = pmeet (qp b c o.vg) (vp b c o.va w k)) ∧
        (∀ k < 256 / w, n ≤ k → val k = 0 ∧ poi k = qp b c o.vg)) ∧
    (∀ o : VUnArgs, (Instr.vexpd o).wf = true → (b.ctx c).passes o.vg.g →
      let w := o.fmt.bytes
      PutsLanes s b c (.vexpd o) 3 o.vd w (act b c o.vg w)
        (fun k => vl b c o.va w (rank (act b c o.vg w) k))
        (fun k => pmeet (qp b c o.vg) (vp b c o.va w (rank (act b c o.vg w) k))))

/-- 05 R117, R120, R124, R127: comparison, selection and the lane-crossing moves. The model's own choices in it: log 9, 16,
27. -/
def Obligations.VectorSelectionAndPermutes : Prop :=
  Claims.VectorCompareAndSelect ∧ Claims.VectorPermutes

/-- 05 R125, 05 R136: rows move between vector registers and the context's accumulator partition, once the core's own
accesses have performed; the matrix unit sees VACWR's elements later (02 R52; the moment is the model's, log 35). -/
def Sys2Proof.Claims.AccumulatorRows : Prop :=
  ∀ (s b : State) (c : Nat), Turn s c b → b.coreHolds (coreOf c) b.seq = false →
    (∀ o : VAcrdArgs, (Instr.vacrd o).wf = true → (b.ctx c).passes o.vg.g →
      let w := o.fmt.bytes
      let e (k : Nat) := b.accRead
        (accIndex c o.tile ((sv b c o.s).toNat % 128) (if o.fmt == .fp32 then 64 * (if o.half then 1 else 0) + k else k))
      PutsLanes s b c (.vacrd o) 4 o.vd w (act b c o.vg w)
        (fun k => if o.fmt == .fp32 then (e k).1.toNat else convert .fp32 .bf16 o.rnd o.sat (e k).1.toNat)
        (fun k => pmeets [qp b c o.vg, sp b c o.s, (e k).2])) ∧
    (∀ o : VAcwrArgs, (b.ctx c).passes o.vg.g → Quiet b c →
      let at_ (k : Nat) : Nat := accIndex c o.tile ((sv b c o.s).toNat % 128) (64 * (if o.half then 1 else 0) + k)
      ∃ t, exec (.vacwr o) s = .next t ∧
        (∀ k < 64, act b c o.vg 4 k = true → t.accRead (at_ k) =
          (BitVec.ofNat 32 (vl b c o.va 4 k), pmeets [qp b c o.vg, sp b c o.s, vp b c o.va 4 k])) ∧
        (∀ n, (∀ k < 64, act b c o.vg 4 k = true → n ≠ at_ k) → t.accRead n = b.accRead n) ∧
        t.mem = b.mem ∧ (t.ctx c).regs = (b.ctx c).regs)

/-- 05 R126: lane masks; bound 2. -/
def Sys2Proof.Claims.LaneMasks : Prop :=
  ∀ (s b : State) (c : Nat), Turn s c b →
    let q (n : QReg) : QVal := (b.ctx c).qreg n
    (∀ o : QBinArgs, (b.ctx c).passes o.g →
      Puts s b c (.qand o) .v 2 (.q o.qd) (.q ⟨(q o.qa).v &&& (q o.qb).v, pmeet (q o.qa).p (q o.qb).p⟩) ∧
      Puts s b c (.qor o) .v 2 (.q o.qd) (.q ⟨(q o.qa).v ||| (q o.qb).v, pmeet (q o.qa).p (q o.qb).p⟩)) ∧
    (∀ o : QNotArgs, (b.ctx c).passes o.g → Puts s b c (.qnot o) .v 2 (.q o.qd) (.q ⟨~~~(q o.qa).v, (q o.qa).p⟩)) ∧
    (∀ o : QCntArgs, (Instr.qcnt o).wf = true → (b.ctx c).passes o.g →
      PutsWord s b c (.qcnt o) .v 2 o.s
        (BitVec.ofNat 64 ((List.range (256 / o.fmt.bytes)).filter fun k => (q o.qa).v.getLsbD (o.fmt.bytes * k)).length)
        (q o.qa).p True)

/-- 05 R125, R126, R136: lane masks, and rows moved between vector registers and the accumulator. The model's own choices in
it: log 9, 35. -/
def Obligations.LaneMasksAndAccumulatorRows : Prop :=
  Claims.AccumulatorRows ∧ Claims.LaneMasks

/-! ## Control (03) -/

end

namespace Sys2Proof.Claims

open Sys2Proof Sys2Proof.Machine

/-- The instruction goes on, and `P` holds of the state after it and of context `c` in it. -/
def Ends (s : State) (c : Nat) (i : Instr) (P : State → Ctx → Prop) : Prop := ∃ t, exec i s = .next t ∧ P t (t.ctx c)

/-- The context after a bundle that sets the PC: one tick, nothing else. -/
def left (x : Ctx) (pc : BitVec 32) : Ctx :=
  { x with pc := pc, ct := x.ct + 1, issues := x.issues + 1, boundary := false, mulPrev := false, walk := [], rtiDone := false, landed := [] }

/-- The bundle faults at issue: nothing of it commits and the context waits for the control core (03 R95, R96). -/
def Traps (s b : State) (c : Nat) (i : Instr) (cause addr : Word) (mask : BitVec 8) : Prop :=
  Ends s c i fun t y =>
    y.act = .trapWaiting ∧ y.ctl.trapcause = cause ∧ y.ctl.trapaddr = addr ∧ y.ctl.trappc = (b.ctx c).pc ∧
    y.ctl.trapmask = mask ∧ y.pc = (b.ctx c).pc ∧ y.ct = (b.ctx c).ct ∧ t.mem = b.mem

/-- A register passes a checked use: not poisoned, residue right (04 R114, R115). -/
def Clean (b : State) (c : Nat) (n : SReg) : Prop := sp b c n = none ∧ Fits (b.ctx c) n

/-- The top loop entry. -/
def top (x : Ctx) : LoopEntry := mget .zero x.loops (x.ctl.ldepth.toNat - 1)

/-- No loop of the running code ends at `pc` (03 R73). -/
def NoLoopEnd (x : Ctx) (pc : BitVec 32) : Prop :=
  x.ctl.ldepth = 0 ∨ (x.ctl.uiact = true ∧ x.ctl.ldepth.toNat ≤ x.ctl.uidepth.toNat) ∨ (top x).obj ≠ x.ctl.obj ∨ (top x).stop ≠ pc

end Sys2Proof.Claims

section

open Sys2Proof Sys2Proof.Machine Sys2Proof.Claims

/-- 03 R73, R69, R85: the move to the next bundle. One tick; a transfer sets the PC and skips the loop-end test; without a loop
that ends there the PC is next_pc; a loop with iterations left goes back to its start, which is a parking boundary; one on its
last iteration, or told to exit, is popped, and the test goes on with the loop around it. -/
def Obligations.LoopEndTest : Prop :=
  ∀ (x : Ctx) (npc : BitVec 32),
    (∀ pc, x.moveOn npc (.jump pc) false = left x pc) ∧
    (NoLoopEnd x npc → x.moveOn npc .next false = left x npc) ∧
    (¬ NoLoopEnd x npc → (top x).remaining ≠ 1 → (top x).exit = false →
      let y := x.moveOn npc .next false
      y.pc = (top x).start ∧ y.boundary = true ∧ y.ctl = x.ctl ∧ y.ct = x.ct + 1 ∧ y.issues = x.issues + 1 ∧
      top y = { top x with index := (top x).index + 1, remaining := (top x).remaining - 1 }) ∧
    (¬ NoLoopEnd x npc → ((top x).remaining = 1 ∨ (top x).exit = true) → x.ctl.ldepth.toNat ≤ 6 →
      let l := mset .zero x.loops (x.ctl.ldepth.toNat - 1)
        { top x with index := (top x).index + 1, remaining := (top x).remaining - 1 }
      let z : Ctx := { x with loops := l, ctl := { x.ctl with ldepth := x.ctl.ldepth - 1 } }
      (NoLoopEnd z npc → x.moveOn npc .next false = left z npc) ∧
      (¬ NoLoopEnd z npc → (x.moveOn npc .next false).ctl.ldepth.toNat < x.ctl.ldepth.toNat))

/-- 03 R74, R75, R72, R77, R78, R81, R90: NOP, BR, CALL, RET within the object, and the hardware loops. LEXIT sets the exit flag of the
top entry, LIDX reads a level's index; without the entry they name they fault LOOPSTACK; their words have no other field. -/
def Obligations.ControlTransfers : Prop :=
  (∀ (s b : State) (c : Nat), Turn s c b → Quiet b c →
    let x := b.ctx c
    let npc := b.nextPc c
    let link (o : BitVec 6) (y : Ctx) : Ctx :=
      if o = 0 then y else y.pushRes ⟨x.ct + 1, 0, x.issues, .s o, .s (.of (x.ctl.obj.setWidth 64 <<< 32 ||| npc.setWidth 64) none)⟩
    let loop (n : BitVec 32) (off : BitVec 12) (i : Instr) : Prop :=
      let stop := npc + off.setWidth 32
      (n = 0 → Ends s c i fun _ y => y = x.moveOn npc (.skip stop) false) ∧
      (n ≠ 0 → x.ctl.ldepth.toNat < 6 → Ends s c i fun _ y =>
        y.pc = npc ∧ y.ctl = { x.ctl with ldepth := x.ctl.ldepth + 1 } ∧ top y = ⟨npc, stop, n, 0, x.ctl.obj, false⟩ ∧
        y.ct = x.ct + 1 ∧ y.regs = x.regs)
    (∀ sl, Ends s c (.nop sl) fun _ y => y = x.moveOn npc .next false) ∧
    (∀ o : BrArgs, x.passes o.g → Ends s c (.br o) fun _ y => y = left x (npc + BitVec.ofInt 32 o.off.toInt)) ∧
    (∀ o : CallArgs, x.passes o.g → Ends s c (.call o) fun _ y =>
      y = left (link o.b x) (npc + BitVec.ofInt 32 o.off.toInt)) ∧
    (∀ o : CRegArgs, x.passes o.g → Clean b c o.a → (sv b c o.a).extractLsb' 32 8 = x.ctl.obj →
      Ends s c (.ret o) fun _ y => y = left x ((sv b c o.a).setWidth 32)) ∧
    (∀ o : LoopArgs, (Instr.loop o).wf = true → x.passes o.g → loop (o.count.setWidth 32) o.off (.loop o)) ∧
    (∀ o : LooprArgs, (Instr.loopr o).wf = true → x.passes o.g → Clean b c o.a → (sv b c o.a).toNat < 2 ^ 32 →
      loop ((sv b c o.a).setWidth 32) o.off (.loopr o)) ∧
    (∀ g : Guard, x.passes g → x.ctl.ldepth ≠ 0 → ¬ (x.ctl.uiact = true ∧ x.ctl.ldepth = x.ctl.uidepth) →
      Ends s c (.lexit g) fun _ y =>
        y = ({ x with loops := mset .zero x.loops (x.ctl.ldepth.toNat - 1) { top x with exit := true } } : Ctx).moveOn npc .next false) ∧
    (∀ o : LidxArgs, x.passes o.g → o.k.toNat < x.ctl.ldepth.toNat →
      Puts s b c (.lidx o) .c 1 (.s o.a)
        (.s (.of ((mget .zero x.loops (x.ctl.ldepth.toNat - 1 - o.k.toNat)).index.setWidth 64) none))) ∧
    (∀ g : Guard, x.passes g → x.ctl.ldepth = 0 ∨ (x.ctl.uiact = true ∧ x.ctl.ldepth = x.ctl.uidepth) →
      Traps s b c (.lexit g) 0x09 0 0x01) ∧
    (∀ o : LidxArgs, x.passes o.g → x.ctl.ldepth.toNat ≤ o.k.toNat → Traps s b c (.lidx o) 0x09 0 0x01) ∧
    (∀ o : LoopArgs, (Instr.loop o).wf = true → x.passes o.g → o.count ≠ 0 → x.ctl.ldepth = 6 → Traps s b c (.loop o) 0x09 0 0x01) ∧
    (∀ o : LooprArgs, (Instr.loopr o).wf = true → x.passes o.g → Clean b c o.a →
      (2 ^ 32 ≤ (sv b c o.a).toNat → Traps s b c (.loopr o) 0x09 (sv b c o.a) 0x01) ∧
      ((sv b c o.a).toNat < 2 ^ 32 → sv b c o.a ≠ 0 → x.ctl.ldepth = 6 → Traps s b c (.loopr o) 0x09 0 0x01))) ∧
  (∀ w : Nat, w < 2 ^ 48 →
    let g : Guard := ⟨BitVec.ofNat 3 (w / 2 ^ 37), decide (w / 2 ^ 36 % 2 = 1)⟩
    (w / 2 ^ 40 = 0x08 → decodeSlot .c w = if w % 2 ^ 36 = 0 then some (.lexit g) else none) ∧
    (w / 2 ^ 40 = 0x1D → decodeSlot .c w =
      if w / 2 ^ 24 % 2 ^ 6 = 0 ∧ w / 2 ^ 3 % 2 ^ 21 = 0 ∧ w % 2 ^ 3 ≤ 5 then some (.lidx ⟨g, BitVec.ofNat 6 (w / 2 ^ 30), BitVec.ofNat 3 w⟩)
      else none))

/-- 03 R80, R81, R83: BRI, CALLX and a RET to another object commit and block; the transfer is made when the entry has
arrived. CBASE, DBASE, DLEN and the object change with the object alone. The model's own choices in it: log 24. -/
def Obligations.TransfersThroughMemory : Prop :=
  (∀ (s b : State) (c : Nat), Turn s c b → Quiet b c →
    let x := b.ctx c
    let npc := b.nextPc c
    let link (pc : BitVec 32) : Word := BitVec.ofNat 64 (x.ctl.obj.toNat * 2 ^ 32 + pc.toNat)
    (∀ (o : BriArgs) (m : List PByte) (t : Target), x.passes o.g → Clean b c o.a → (sv b c o.a).toNat < o.count.toNat →
      let va : Word := x.ctl.cbase.setWidth 64 - BitVec.ofNat 64 (4 * (o.first.toNat + (sv b c o.a).toNat + 1))
      va.toNat % 4 = 0 → b.readNow c va 4 = .ok m t → tagOf m = none →
      Ends s c (.bri o) fun _ y => y.act = .blocked (.object (link (BitVec.ofNat 32 (valOf m))) none) ∧ y.pc = npc ∧ y.ct = x.ct + 1) ∧
    (∀ (o : CallxArgs) (m : List PByte) (t : Target) (code : Option Code) (note : State → State),
      x.passes o.g → Clean b c o.a → (sv b c o.a).toNat % 8 = 0 → b.readNow c (sv b c o.a) 8 = .ok m t → tagOf m = none →
      b.goRead c (BitVec.ofNat 64 (valOf m)) = .ok code note →
      Ends s c (.callx o) fun _ y =>
        y.pc = npc ∧ y.act = .blocked (.callx o.b (link npc) (BitVec.ofNat 64 (valOf m)) code)) ∧
    (∀ (o : CRegArgs) (k : Code) (note : State → State), x.passes o.g → Clean b c o.a →
      b.goRead c (sv b c o.a) = .ok (some k) note →
      Ends s c (.ret o) fun _ y => y.pc = npc ∧ y.act = .blocked (.object (sv b c o.a) (some k)))) ∧
  (∀ (s : State) (c : CtxNo) (link : Word) (code : Option Code) (d : SReg) (ret : Word),
    let x := s.ctx c.val
    let there (y z : Ctx) : Prop :=
      z.pc = link.setWidth 32 ∧ z.act = .ready ∧ z.regs = y.regs ∧
      (code = none → z.ctl = y.ctl) ∧
      (∀ cb db dl, code = some (cb, db, dl) →
        z.ctl = { y.ctl with cbase := cb, dbase := db, dlen := dl, obj := link.extractLsb' 32 8 })
    (x.act = .blocked (.object link code) → Ends s c.val (.objectTableReadDone c) fun _ z => there x z) ∧
    (x.act = .blocked (.callx d ret link code) → Ends s c.val (.callxEntryArrives c) fun _ z =>
      there (x.setS d ⟨ret, residue ret, none⟩) z))

/-- 03 R87, R88, R94: predicate operations, MFC, MTC, UIEN and UIDIS. MTC takes effect for the next bundle. -/
def Sys2Proof.Claims.PredicatesAndControlRegisters : Prop :=
  ∀ (s b : State) (c : Nat), Turn s c b →
    let x := b.ctx c
    let npc := b.nextPc c
    (∀ o : PBinArgs, x.passes o.g →
      let p := pmeet (pp b c o.pa) (pp b c o.pb)
      PutsPred s b c (.pand o) .c 1 o.pd (pv b c o.pa && pv b c o.pb) p ∧
      PutsPred s b c (.por o) .c 1 o.pd (pv b c o.pa || pv b c o.pb) p ∧
      PutsPred s b c (.pxor o) .c 1 o.pd (pv b c o.pa ^^ pv b c o.pb) p) ∧
    (∀ o : PNotArgs, x.passes o.g → PutsPred s b c (.pnot o) .c 1 o.pd (!pv b c o.pa) (pp b c o.pa)) ∧
    (∀ o : CtlArgs, x.passes o.g → (o.reg = 0x012 → x.evtAcq = []) →
      Puts s b c (.mfc o) .c 1 (.s o.a) (.s (.of (readCtl b c o.reg) none))) ∧
    (∀ o : CtlArgs, x.passes o.g → Quiet b c → ctlWritable x.ctl.priv o.reg = true → sp b c o.a = none →
        (o.reg = 0x000 → (sv b c o.a ^^^ readCtl b c 0x000) &&& 0xFFFF000C00 = 0) →
      Ends s c (.mtc o) fun _ y =>
        let z := x.moveOn npc .next false
        y = { z with ctl := z.ctl.write o.reg (sv b c o.a) }) ∧
    (∀ g : Guard, x.passes g → Quiet b c →
      let z := x.moveOn npc .next false
      (Ends s c (.uien g) fun _ y => y = { z with ctl := { z.ctl with uie := true } }) ∧
      (Ends s c (.uidis g) fun _ y => y = { z with ctl := { z.ctl with uie := false } }))

/-- 03 R65–R68, R88: what a control register reads after MTC has written it: the implemented bits of the value; UIPEND loses the
bits written 1; every other register reads as before. A register marked S is written above user privilege alone, and the fields of
STATUS that are read only are not changed by MTC. -/
def Sys2Proof.Claims.ControlRegisterFile : Prop :=
  (∀ (s : State) (c : Nat) (v : Word),
    let w (n : BitVec 12) : State := s.modCtx c fun x => { x with ctl := x.ctl.write n v }
    (∀ n ∈ ([0x010, 0x011, 0x00A, 0x018, 0x019] : List (BitVec 12)), (s.ctx c).act ≠ .free → readCtl (w n) c n = v) ∧
    ((s.ctx c).act ≠ .free →
      readCtl (w 0x008) c 0x008 = v &&& 0x1FFFFFFF ∧
      readCtl (w 0x009) c 0x009 = v &&& 0xFFFFFFFF ∧
      readCtl (w 0x00B) c 0x00B = v &&& 0xFF ∧
      readCtl (w 0x012) c 0x012 = (readCtl s c 0x012 &&& ~~~v) ∧
      readCtl (w 0x013) c 0x013 = v &&& 0x1FFFFF ∧
      readCtl (w 0x028) c 0x028 = v &&& 0xFFF ∧
      readCtl (w 0x029) c 0x029 = v &&& 0xFFF ∧
      readCtl (w 0x02A) c 0x02A = v &&& 0xFFFFFFFFFFFF ∧
      readCtl (w 0x02B) c 0x02B = v &&& 0xFFFFFFFFFFFF ∧
      readCtl (w 0x038) c 0x038 = v &&& 0xF ∧
      readCtl (w 0x039) c 0x039 = v &&& 0xFFFFFFFF ∧
      readCtl (w 0x03A) c 0x03A = v &&& 0xFFFFFFFF ∧
      readCtl (w 0x03B) c 0x03B = v &&& 0xF ∧
      readCtl (w 0x03C) c 0x03C = v &&& 0xFF003F ∧
      (v.extractLsb' 4 3 ≠ 7 →
        readCtl (w 0x000) c 0x000 &&& 0xFF13FF = v &&& 0xFF13FF ∧
        readCtl (w 0x000) c 0x000 >>> 24 = 0x1021 ∧
        (readCtl (w 0x000) c 0x000).extractLsb' 10 2 = s.mgmt.svc)) ∧
    (∀ m n : BitVec 12, m ≠ n → (s.ctx c).act ≠ .free → readCtl (w n) c m = readCtl s c m)) ∧
  (∀ n : BitVec 12, ctlWritable 0 n = true ↔
    n ∈ ([0x010, 0x011, 0x012, 0x013, 0x018, 0x019, 0x038, 0x039, 0x03A, 0x03B, 0x03C] : List (BitVec 12))) ∧
  (∀ (s b : State) (c : Nat) (o : CtlArgs), Turn s c b → Quiet b c → (b.ctx c).passes o.g →
    (ctlWritable (b.ctx c).ctl.priv o.reg = false ∨
      (o.reg = 0x000 ∧ sp b c o.a = none ∧ (sv b c o.a ^^^ readCtl b c 0x000) &&& 0xFFFF000C00 ≠ 0)) →
    Ends s c (.mtc o) fun _ y => y.act = .trapWaiting ∧ y.ctl.trapcause = 0x03 ∧ y.ctl.trapaddr = o.reg.setWidth 64 ∧
      y.ctl.trappc = (b.ctx c).pc ∧ y.ctl.trapmask = 1 ∧ y.pc = (b.ctx c).pc ∧ y.ct = (b.ctx c).ct)

/-- 03 R65–R68, R87, R88, R94: predicate operations, control-register moves and the control registers themselves. The model's
own choices in it: log 9, 17, 29. -/
def Obligations.PredicatesAndControlRegisters : Prop :=
  Claims.PredicatesAndControlRegisters ∧ Claims.ControlRegisterFile

/-- 03 R89, R95, R96: TRAP raises TRAP_INSTR: TRAPADDR is the immediate, TRAPPC the bundle's PC, TRAPMASK the C slot; earlier
fixed-latency results drain, nothing of the bundle commits, no tick is charged, and the context waits for the control core. -/
def Sys2Proof.Claims.TrapInstructionTraps : Prop :=
  ∀ (s b : State) (c : Nat) (o : TrapArgs), Turn s c b → Quiet b c → (b.ctx c).passes o.g →
    let x := b.ctx c
    Ends s c (.trap o) fun t y =>
      y.act = .trapWaiting ∧ y.ctl.trapcause = 0x12 ∧ y.ctl.trapaddr = o.imm.setWidth 64 ∧ y.ctl.trappc = x.pc ∧
      y.ctl.trapmask = 0x01 ∧ y.pc = x.pc ∧ y.ct = x.ct ∧ y.issues = x.issues ∧ y.fixed = [] ∧ y.land = x.land ∧
      y.regs = (x.drainFixed).regs ∧ y.loops = x.loops ∧ t.mem = b.mem ∧ (∀ d, d ≠ c → t.ctx d = s.ctx d)

/-- 03 R84, R86, 06 R146: YIELD makes a switch point and a parking boundary and beats when asked; HALT stops the context after
its bundle, and it is halted when all it issued has ended, fixed results in their registers, arrived data discarded. -/
def Sys2Proof.Claims.YieldAndHalt : Prop :=
  (∀ (s b : State) (c : Nat), Turn s c b → Quiet b c →
    let x := b.ctx c
    (∀ o : YieldArgs, x.passes o.g → Ends s c (.yield o) fun t y =>
      y = { (x.moveOn (b.nextPc c) .next false) with boundary := true } ∧
      (t.core (coreOf c)).yielded = true ∧ (t.core (coreOf c)).beaten = ((b.core (coreOf c)).beaten || o.beat)) ∧
    (∀ g : Guard, x.passes g → x.dfaults = [] → Ends s c (.halt g) fun _ y =>
      y.act = .halting ∧ y.parkReq = false ∧ y.pc = b.nextPc c ∧ y.ct = x.ct + 1 ∧ y.loops = x.loops ∧ y.regs = x.regs)) ∧
  (∀ (s : State) (c : CtxNo), (s.ctx c.val).act = .halting → s.drained c.val = true →
    Ends s c.val (.haltDrainComplete c) fun _ y =>
      y.act = .halted ∧ y.fixed = [] ∧ y.land = [] ∧ y.uiLand = [] ∧ y.pc = (s.ctx c.val).pc ∧ y.hall = (s.ctx c.val).hall ∧
      ((s.ctx c.val).fixed = [] → y.regs = (s.ctx c.val).regs) ∧
      (∀ (r : Res) (n : SReg) (v : SVal), (s.ctx c.val).fixed = [r] → r.dst = .s n → r.val = .s v → n ≠ 0 → v ≠ .zero →
        y.sreg n = v))

/-- 03 R84, R86, R89, R95, R96, 06 R146: YIELD, HALT and TRAP. The model's own choices in it: log 86. -/
def Obligations.YieldHaltAndTrap : Prop :=
  Claims.YieldAndHalt ∧ Claims.TrapInstructionTraps

/-- 03 R91–R93: a due interrupt is taken at the boundary: fixed results drain, UIRET, uidepth, uiact and uie are written,
s56–s63 are swapped, control goes to UIVEC. RTI waits for the handler's results and goes back to UIRET with the interrupted
code's ticks and landings. The model's own choices in it: log 24, 86. -/
def Obligations.UserInterrupts : Prop :=
  (∀ (s : State) (c : CtxNo) (code : Option Code) (note : State → State),
    let x := s.ctx c.val
    x.act = .ready → x.causes = [] → (x.parkReq = false ∨ x.boundary = false) → x.seg = none → x.rel = [] → x.evtAcq = [] →
    x.ctl.uie = true → x.ctl.uiact = false → x.ctl.uipend &&& x.ctl.uimask ≠ 0 → x.held ≤ 24 →
    s.goRead c.val x.ctl.uivec = .ok code note →
    Ends s c.val (.userInterruptTaken c) fun _ y =>
      y.ctl.uiret = BitVec.ofNat 64 (x.ctl.obj.toNat * 2 ^ 32 + x.pc.toNat) ∧ y.ctl.uidepth = x.ctl.ldepth ∧
      y.ctl.uiact = true ∧ y.ctl.uie = false ∧ y.pc = x.ctl.uivec.setWidth 32 ∧ y.fixed = [] ∧ y.land = [] ∧
      y.uiLand = x.land ∧ y.uiCt = x.ct ∧ y.regs = x.drainFixed.regs.swapBank ∧ y.ctl.uipend = x.ctl.uipend ∧
      y.ctl.ldepth = x.ctl.ldepth) ∧
  (∀ (s b : State) (c : Nat) (g : Guard) (code : Option Code) (note : State → State), Turn s c b → Quiet b c →
    let x := b.ctx c
    x.passes g → x.ctl.uiact = true → x.ctl.ldepth = x.ctl.uidepth →
    (x.inFlight = true → Ends s c (.rti g) fun _ y => y.act = .blocked (.rtiWait b.cycle) ∧ y.pc = x.pc ∧ y.ct = x.ct ∧ y.ctl = x.ctl) ∧
    (x.inFlight = false → b.goRead c x.ctl.uiret = .ok code note →
      Ends s c (.rti g) fun _ y => y.act = .blocked (.rti b.cycle code false) ∧ y.pc = b.nextPc c ∧ y.ctl = x.ctl)) ∧
  (∀ (s : State) (c : CtxNo) (since : Nat) (code : Option Code) (late : Bool),
    let x := s.ctx c.val
    (x.act = .blocked (.rtiWait since) → (x.landHandler).land = [] → Ends s c.val (.rtiWaitDone c) fun _ y =>
      y.act = .ready ∧ y.rtiDone = true ∧ y.regs = x.landHandler.regs ∧ y.fixed = [] ∧ y.land = [] ∧ y.ctl = x.ctl ∧ y.pc = x.pc) ∧
    (x.act = .blocked (.rti since code late) → (x.landHandler).land = [] →
    Ends s c.val (.rtiWaitDone c) fun _ y =>
      y.act = .ready ∧ y.ctl.uiact = false ∧ y.ctl.uie = true ∧ y.pc = x.ctl.uiret.setWidth 32 ∧ y.ct = x.uiCt ∧
      y.land = x.uiLand ∧ y.uiLand = [] ∧ y.regs = x.landHandler.regs.swapBank ∧
      (code = none → y.ctl.obj = x.ctl.obj ∧ y.ctl.cbase = x.ctl.cbase)))

/-- 08 R199–R202: monitors. The model's own choices in it: log 31. -/
def Obligations.Monitors : Prop :=
  (∀ (s b : State) (c : Nat), Turn s c b → Quiet b c →
    let x := b.ctx c
    let z := x.moveOn (b.nextPc c) .next false
    (∀ (o : CRegArgs) (d : Elem) (l : List Elem), x.passes o.g → Clean b c o.a →
      b.check c (b.who c) .read 0 none [⟨0, sv b c o.a &&& ~~~63, 64, 0, 0⟩] = .ok (d :: l) →
      d.tgt.watchable (coreOf c) = true → Ends s c (.marm o) fun _ y => y = { z with mon := ⟨some d.tgt, false, false⟩ }) ∧
    (∀ g : Guard, x.passes g → Ends s c (.mdisarm g) fun _ y => y = { z with mon := ⟨none, false, false⟩ }) ∧
    (∀ o : MwaitArgs, x.passes o.g →
      (x.mon.line = none → Ends s c (.mwait o) fun _ y => y = z.setS o.a (.of 2 none)) ∧
      (x.mon.line ≠ none → (x.mon.hit = true ∨ x.mon.filter = true) → Ends s c (.mwait o) fun _ y =>
        y = { (z.setS o.a (.of (if x.mon.hit then 1 else 2) none)) with act := .ready, mon := ⟨none, false, false⟩ }) ∧
      (x.mon.line ≠ none → x.mon.hit = false → x.mon.filter = false → Ends s c (.mwait o) fun _ y =>
        y = { z with act := .blocked (.mwait o.a
          (if o.timeout = 0 then none else some (b.cycle + 1024 * o.timeout.toNat))) }))) ∧
  (∀ (s : State) (c : CtxNo) (d : SReg) (dl : Option Nat),
    let x := s.ctx c.val
    let ended (n : Word) (y : Ctx) : Prop := y = { (x.setS d (.of n none)) with act := .ready, mon := ⟨none, false, false⟩ }
    x.act = .blocked (.mwait d dl) →
    (x.mon.hit = true → Ends s c.val (.mwaitWake c) fun _ y => ended 1 y) ∧
    (x.mon.hit = false → x.mon.filter = true → Ends s c.val (.mwaitWake c) fun _ y => ended 2 y) ∧
    (∀ t, dl = some t → t ≤ s.cycle → x.mon.hit = false → Ends s c.val (.mwaitTimeout c) fun _ y => ended 3 y))

/-- 08 R203–R207: BAR, BARA, BARW, DRAIN and FENCE complete: `exec` of each answers a next state, with the context it leaves.
BARA arrives, BAR arrives and waits, BARW waits for the phase; DRAIN and FENCE order what comes later. A misuse traps
BARRIER_MISUSE with the barrier's number. The model's own choices in it: log 10, 45. -/
def Obligations.BarriersAndFences : Prop :=
  (∀ (s b : State) (c : Nat), Turn s c b → Quiet b c →
    let x := b.ctx c
    let z := x.moveOn (b.nextPc c) .next false
    (∀ o : BarArgs, x.passes o.g → b.barMisuse c o true = false →
      ∃ t, Sys2Proof.Machine.exec (.bara o) s = .next t ∧ t.ctx c = { z with
        arrivals := z.arrivals ++ [⟨o.num, o.scope, b.seq, false, []⟩], drains := z.drains ++ [⟨o.scope, b.seq⟩] }) ∧
    (∀ o : BarArgs, x.passes o.g → b.barMisuse c o true = false →
      ∃ t, Sys2Proof.Machine.exec (.bar o) s = .next t ∧ t.ctx c = { z with
        arrivals := z.arrivals ++ [⟨o.num, o.scope, b.seq, false, []⟩], drains := z.drains ++ [⟨o.scope, b.seq⟩]
        act := .blocked (.barrier o.num o.scope) }) ∧
    (∀ (o : BarArgs) (a : Arrival), x.passes o.g → b.barMisuse c o false = false → x.arrival o.num = some a →
      (a.done = false → ∃ t, Sys2Proof.Machine.exec (.barw o) s = .next t ∧
        t.ctx c = { z with act := .blocked (.barrier o.num o.scope) }) ∧
      (a.done = true → a.deps = [] → ∃ t, Sys2Proof.Machine.exec (.barw o) s = .next t ∧
        t.ctx c = { z with arrivals := z.arrivals.filter fun e => e.id ≠ o.num, act := .ready })) ∧
    (∀ o : BarArgs, x.passes o.g →
      let misuse (y : Ctx) : Prop :=
        y.act = .trapWaiting ∧ y.ctl.trapcause = 0x16 ∧ y.ctl.trapaddr = o.num.setWidth 64 ∧ y.ctl.trappc = x.pc
      (b.barMisuse c o true = true → (Ends s c (.bar o) fun _ y => misuse y) ∧ Ends s c (.bara o) fun _ y => misuse y) ∧
      (b.barMisuse c o false = true → Ends s c (.barw o) fun _ y => misuse y)) ∧
    (∀ o : DrainArgs, x.passes o.g → ∃ t, Sys2Proof.Machine.exec (.drain o) s = .next t ∧
      t.ctx c = { z with drains := if o.scope = .ctx then z.drains else z.drains ++ [⟨o.scope, b.seq⟩] }) ∧
    (∀ o : FenceArgs, x.passes o.g → (o.a = .ctx → o.b = .hst → x.deps = []) →
      ∃ t, Sys2Proof.Machine.exec (.fence o) s = .next t ∧
        t.ctx c = { z with fences := if o.a = .ctx ∧ o.b ≠ .hst then mset 0 z.fences (fenceCode o.b) b.seq else z.fences }) ∧
    (∀ o : FenceArgs, x.passes o.g → o.a = .ctx → o.b = .hst → b.fenced c b.seq = true →
      Ends s c (.fence o) fun _ y => y = { z with act := .blocked (.fenceHst b.seq) })) ∧
  (∀ (s : State) (c : CtxNo) (id : BitVec 4) (a : Arrival) (l : Launch),
    let x := s.ctx c.val
    s.launchOf c.val = some l → x.arrivals = [a] → a.id = id → a.done = false →
    (l.team.filter fun d => sameInst a.scope c.val d) = [c.val] → x.acc = [] → x.deps = [] →
    Ends s c.val (.barrierPhaseComplete c id) fun _ y =>
      (x.act = .blocked (.barrier id a.scope) → y.act = .ready ∧ y.arrivals = []) ∧
      (x.act = .ready → y.act = .ready ∧ y.arrivals = [{ a with done := true, deps := [] }]))

/-! ## Loads, stores and atomics (05 R128–R138, 06 R164) -/

end

namespace Sys2Proof.Claims

open Sys2Proof Sys2Proof.Machine

/-- The instruction goes on and issues one access; `post` is the bank stall of a vector form. -/
def Issues (s b : State) (c : Nat) (i : Instr) (a : Access) (buffer : Bool) (l : Option Land) (post : State → State) : Prop :=
  exec i s = .next (b.issued c false .next (fun t => t.issueAccess c a buffer l) post)

/-- The access of a load, store or atomic about to issue. -/
def access (b : State) (c : Nat) (k : AccKind) (o : Ord) (sc : Scope) (l : List Elem) (f : LandForm) : Access :=
  ⟨0, k, o, sc, l, f, (b.who c).hall, 0⟩

/-- The landing a request asks for: `n` ticks after issue, from slot position `p`. -/
def landing (b : State) (c : Nat) (p n : Nat) (d : Dest) (va : Word) : Land :=
  ⟨(b.ctx c).ct + n, p, (b.ctx c).issues, 0, d, va, none, false, none⟩

/-- The address of a scalar access: base + index + the signed displacement in units of the size (05 R128). -/
def scalarVa (b : State) (c : Nat) (base index : SReg) (disp : BitVec 8) (n : Nat) : Word :=
  BitVec.ofInt 64 ((sv b c base).toInt + (sv b c index).toInt + disp.toInt * n)

/-- The elements a vector form wants: element `i` of `n` when bit step·i of the mask is 1 (05 R128, R131). -/
def elements (b : State) (c : Nat) (q : QReg) (step n size : Nat) (va : Nat → Word) (data : Nat → Nat) : List Want :=
  ((List.range n).filter fun i => ((b.ctx c).qreg q).v.getLsbD (step * i)).map fun i => ⟨i, va i, size, data i, 0⟩

/-- Clean data of the active elements of a vector store: every 32-bit group they touch. -/
def CleanData (b : State) (c : Nat) (v : VReg) (size : Nat) (l : List Want) : Prop :=
  ∀ e ∈ l, ∀ j < (size + 3) / 4, poiAt ((b.ctx c).vreg v).p (size * e.lane / 4 + j) = none

/-- Clean index lanes of the active elements of an indexed form. -/
def CleanIndex (b : State) (c : Nat) (v : VReg) (l : List Want) : Prop :=
  ∀ e ∈ l, poiAt ((b.ctx c).vreg v).p (4 * e.lane / 4) = none

end Sys2Proof.Claims

section

open Sys2Proof Sys2Proof.Machine Sys2Proof.Claims

/-- 05 R128, R130, R133: a scalar load or store whose operands are clean and whose checks pass issues its access at the
address base + index + disp·b; the load's result is owed to `t` `land` ticks later. The model's own choices in it: log 10, 23.
-/
def Obligations.ScalarLoadsAndStores : Prop :=
  ∀ (s b : State) (c : Nat), Turn s c b →
    let x := b.ctx c
    (∀ (o : LScalarArgs) (l : List Elem), x.passes o.g → Clean b c o.base → Clean b c o.index → 6 ≤ landL o.land →
      x.held < 32 →
      let va := scalarVa b c o.base o.index o.disp o.size.bytes
      b.check c (b.who c) .read o.size.bytes (some (landL o.land)) [⟨0, va, o.size.bytes, 0, 0⟩] = .ok l →
      Issues s b c (.ld o) (access b c .load o.ord o.scope l (.zext o.t)) false (some (landing b c 4 (landL o.land) (.s o.t) va)) id ∧
      Issues s b c (.lds o) (access b c .load o.ord o.scope l (.sext o.t o.size.bytes)) false
        (some (landing b c 4 (landL o.land) (.s o.t) va)) id) ∧
    (∀ (o : LStArgs) (l : List Elem), x.passes o.g → Clean b c o.base → Clean b c o.index → Clean b c o.t →
      let va := scalarVa b c o.base o.index o.disp o.size.bytes
      b.check c (b.who c) .write o.size.bytes none
        [⟨0, va, o.size.bytes, (sv b c o.t).toNat % 2 ^ (8 * o.size.bytes), 0⟩] = .ok l →
      Issues s b c (.st o) (access b c .store o.ord o.scope l .none) true none id)

/-- 05 R128, R131, R133: vector loads and stores, contiguous, strided and indexed. The model's own choices in it: log 10, 12,
23. -/
def Obligations.VectorLoadsAndStores : Prop :=
  ∀ (s b : State) (c : Nat), Turn s c b →
    let x := b.ctx c
    let lane (v : VReg) (w k : Nat) : Nat := vl b c v w k
    let clean (q : QReg) : Prop := (x.qreg q).p = none
    let first (l : List Want) : Word := (l.head?.map (·.va)).getD 0
    let contiguous (base index : SReg) (disp : BitVec 8) (size i : Nat) : Word :=
      BitVec.ofInt 64 ((sv b c base).toInt + (sv b c index).toInt + disp.toInt * 256 + i * size)
    let strided (base index : SReg) (disp : BitVec 8) (i : Nat) : Word :=
      BitVec.ofInt 64 ((sv b c base).toInt + disp.toInt * 256 + (sv b c index).toInt * i)
    let indexed (base : SReg) (index : VReg) (disp : BitVec 8) (i : Nat) : Word :=
      BitVec.ofInt 64 ((sv b c base).toInt + disp.toInt * 256 + lane index 4 i)
    (∀ (o : LVecArgs) (l : List Elem), x.passes o.g → Clean b c o.base → Clean b c o.index → clean o.q →
      6 ≤ landL o.land → x.held < 32 →
      let n := o.size.bytes
      (let w := elements b c o.q n (256 / n) n (contiguous o.base o.index o.disp n) fun _ => 0
       b.check c (b.who c) .read n (some (landL o.land)) w = .ok l →
       Issues s b c (.ldv o) (access b c .load .relaxed .ctx l (.vec o.t n)) false
         (some (landing b c 4 (landL o.land) (.v o.t) (first w))) (bankStall c l)) ∧
      (let w := elements b c o.q n (256 / n) n (strided o.base o.index o.disp) fun _ => 0
       b.check c (b.who c) .read n (some (landL o.land)) w = .ok l →
       Issues s b c (.ldvs o) (access b c .load .relaxed .ctx l (.vec o.t n)) false
         (some (landing b c 4 (landL o.land) (.v o.t) (first w))) (bankStall c l))) ∧
    (∀ (o : LGthArgs) (l : List Elem), x.passes o.g → Clean b c o.base → clean o.q → 6 ≤ landL o.land → x.held < 32 →
      let n := o.size.bytes
      let w := elements b c o.q 4 (min 64 (256 / n)) n (indexed o.base o.index o.disp) fun _ => 0
      CleanIndex b c o.index w → b.check c (b.who c) .read n (some (landL o.land)) w = .ok l →
      Issues s b c (.gth o) (access b c .load .relaxed .ctx l (.vec o.t n)) false
        (some (landing b c 4 (landL o.land) (.v o.t) (first w))) (bankStall c l)) ∧
    (∀ (o : LVecStArgs) (l : List Elem), x.passes o.g → Clean b c o.base → Clean b c o.index → clean o.q →
      let n := o.size.bytes
      (let w := elements b c o.q n (256 / n) n (contiguous o.base o.index o.disp n) (lane o.t n)
       CleanData b c o.t n w → b.check c (b.who c) .write n none w = .ok l →
       Issues s b c (.stv o) (access b c .store .relaxed .ctx l .none) true none (bankStall c l)) ∧
      (let w := elements b c o.q n (256 / n) n (strided o.base o.index o.disp) (lane o.t n)
       CleanData b c o.t n w → b.check c (b.who c) .write n none w = .ok l →
       Issues s b c (.stvs o) (access b c .store .relaxed .ctx l .none) true none (bankStall c l))) ∧
    (∀ (o : LSctArgs) (l : List Elem), x.passes o.g → Clean b c o.base → clean o.q →
      let n := o.size.bytes
      let w := elements b c o.q 4 (min 64 (256 / n)) n (indexed o.base o.index o.disp) (lane o.t n)
      CleanIndex b c o.index w → CleanData b c o.t n w → b.check c (b.who c) .write n none w = .ok l →
      Issues s b c (.sct o) (access b c .store .relaxed .ctx l .none) true none (bankStall c l)) ∧
    (∀ (o : LSctaArgs) (l : List Elem), x.passes o.g → Clean b c o.base → clean o.q →
      let n := o.size.bytes
      let op : AtomicOp := match o.op with | .add => .add | .min => .min | .max => .max | .minu => .minu
      let w := elements b c o.q 4 (min 64 (256 / n)) n (indexed o.base o.index 0) (lane o.t n)
      CleanIndex b c o.index w → CleanData b c o.t n w → b.check c (b.who c) (.atomic op n false) n none w = .ok l →
      Issues s b c (.sctaOp o) (access b c (.atomic op) .relaxed .ctx l .none) true none (bankStall c l))

/-- 05 R132, R133, 06 R164: atomics and the loads of scale registers. An atomic with destination s0 fetches nothing and asks
for no landing; ACAS takes its compare value from the index register. The model's own choices in it: log 10, 23. -/
def Obligations.AtomicsAndScaleLoads : Prop :=
  ∀ (s b : State) (c : Nat), Turn s c b → (b.ctx c).seg = none →
    let x := b.ctx c
    let atomic (mk : LScalarArgs → Instr) (op : AtomicOp) (signed : Bool) : Prop :=
      ∀ (o : LScalarArgs) (l : List Elem), x.passes o.g → Clean b c o.base → Clean b c o.index → Clean b c o.t →
        (o.t ≠ 0 → 6 ≤ landL o.land ∧ x.held < 32) →
        let n := o.size.bytes
        let va := if op = .cas then BitVec.ofInt 64 ((sv b c o.base).toInt + o.disp.toInt * n)
          else scalarVa b c o.base o.index o.disp n
        let cmp := if op = .cas then (sv b c o.index).toNat % 2 ^ (8 * n) else 0
        b.check c (b.who c) (.atomic op n (o.t != 0)) n (if o.t ≠ 0 then some (landL o.land) else none)
          [⟨0, va, n, (sv b c o.t).toNat % 2 ^ (8 * n), cmp⟩] = .ok l →
        Issues s b c (mk o)
          (access b c (.atomic op) o.ord o.scope l (if o.t = 0 then .none else if signed then .sext o.t n else .zext o.t))
          (o.t == 0 && op != .xchg && op != .cas)
          (if o.t = 0 then none else some (landing b c 4 (landL o.land) (.s o.t) va)) id
    atomic Instr.aadd .add false ∧ atomic Instr.amin .min true ∧ atomic Instr.amax .max true ∧
    atomic Instr.aminu .minu false ∧ atomic Instr.amaxu .maxu false ∧ atomic Instr.aand .and false ∧
    atomic Instr.aor .or false ∧ atomic Instr.axor .xor false ∧ atomic Instr.axchg .xchg false ∧
    atomic Instr.acas .cas false ∧
    (∀ (o : XLdArgs) (l : List Elem), x.passes o.g → Clean b c o.base → 6 ≤ landX o.land → x.held < 32 →
      let va : Word := BitVec.ofInt 64 ((sv b c o.base).toInt + o.disp.toInt * 32)
      (b.check c (b.who c) .read 32 (some (landX o.land)) [⟨0, va, 32, 0, 0⟩] = .ok l →
        Issues s b c (.xld o) (access b c .load .relaxed .ctx l (.xld o.x)) false
          (some (landing b c 6 (landX o.land) (.x o.x) va)) id) ∧
      (b.check c (b.who c) .read 0 (some (landX o.land)) [⟨0, va, 1, 0, 0⟩] = .ok l →
        Issues s b c (.xldb o) (access b c .load .relaxed .ctx l (.xldb o.x)) false
          (some (landing b c 6 (landX o.land) (.x o.x) va)) id)) ∧
    (∀ o : XMovArgs, x.passes o.g → Puts s b c (.xmov o) .x 2 (.x o.x) (.x (x.xreg o.src))) ∧
    (∀ o : XSetArgs, x.passes o.g → ∃ v : QBits, Puts s b c (.xset o) .x 1 (.x o.x) (.x ⟨v, []⟩) ∧
      ∀ i < 32, v.extractLsb' (8 * i) 8 = o.imm)

/-- 05 R133, 03 R95, R96: the first failing check of a scalar access traps: a poisoned operand with its tag, then a residue
mismatch, then an address that is not aligned to the size. Nothing of the bundle commits. The model's own choices in it: log
23, 86, 110, 114. -/
def Obligations.ScalarAccessTraps : Prop :=
  ∀ (s b : State) (c : Nat), Turn s c b → Quiet b c → (b.ctx c).held < 32 →
    let x := b.ctx c
    let traps (i : Instr) (cause addr : Word) : Prop := Ends s c i fun t y =>
      y.act = .trapWaiting ∧ y.ctl.trapcause = cause ∧ y.ctl.trapaddr = addr ∧ y.ctl.trappc = x.pc ∧
      y.ctl.trapmask = 0x10 ∧ y.ct = x.ct ∧ y.acc = [] ∧ y.land = x.land ∧ t.mem = b.mem ∧ t.seq = s.seq
    (∀ o : LScalarArgs, x.passes o.g → 6 ≤ landL o.land → ∀ i ∈ [Instr.ld o, Instr.lds o],
      let va := scalarVa b c o.base o.index o.disp o.size.bytes
      (∀ p, pmeet (sp b c o.base) (sp b c o.index) = some p →
        traps i (BitVec.ofNat 64 (0x07 + p.tag.toNat * 2 ^ 16 + 2 ^ 28)) 0) ∧
      (sp b c o.base = none → sp b c o.index = none → (¬ Fits x o.base ∨ ¬ Fits x o.index) → traps i 0x08 0) ∧
      (Clean b c o.base → Clean b c o.index → va.toNat % o.size.bytes ≠ 0 → traps i 0x04 va)) ∧
    (∀ o : LStArgs, x.passes o.g →
      let va := scalarVa b c o.base o.index o.disp o.size.bytes
      (Clean b c o.base → Clean b c o.index → sp b c o.t = none → ¬ Fits x o.t → traps (.st o) 0x08 va) ∧
      (Clean b c o.base → Clean b c o.index → Clean b c o.t → va.toNat % o.size.bytes ≠ 0 → traps (.st o) 0x04 va))

/-- 05 R132, R136: an access handed to its path has issued but not performed: it holds the next sequence number, its landing
waits for it, and memory and registers are as before. -/
def Sys2Proof.Claims.IssuedAccessWaits : Prop :=
  ∀ (s : State) (c : Nat) (a : Access) (buffer : Bool) (l : Option Land), (s.ctx c).act ≠ .free → (s.ctx c).seg = none →
    let t := s.issueAccess c a buffer l
    t.seq = s.seq + 1 ∧ t.mem = s.mem ∧ t.cycle = s.cycle ∧
    (t.ctx c).acc = (s.ctx c).acc ++ [{ a with seq := s.seq, issued := s.cycle }] ∧
    (t.ctx c).land = (s.ctx c).land ++ (match l with | some e => [{ e with seq := s.seq }] | none => []) ∧
    (t.ctx c).regs = (s.ctx c).regs ∧ (∀ d, d ≠ c → t.ctx d = s.ctx d)

/-- 05 R130, R137, 13 R258: a store of a launch that performs on a word its shadow holds changes exactly the bytes stored, in the
launch's view; committed memory is as before. -/
def Sys2Proof.Claims.StorePerforms : Prop :=
  ∀ (s : State) (c : CtxNo) (a : Access) (e : Elem) (pa : Nat) (key : BitVec 12) (h : Hall) (l : Launch) (v : LineVal),
    (s.ctx c.val).acc = [a] → (s.ctx c.val).col = [] → (∀ i < 4, 4 * coreOf c.val + i ≠ c.val → (s.ctx (4 * coreOf c.val + i)).acc = []) →
    a.kind = .store → a.form = .none → a.elems = [e] → a.hall = some h → e.tgt = .mem pa key →
    (e.size = 1 ∨ e.size = 2 ∨ e.size = 4 ∨ e.size = 8) → pa % e.size = 0 →
    s.launch h = some l → l.state = .running → l.excl = false → s.mem.reported (pa / 64) = true →
    (s.mem.entry (pa / 64) h).map (·.val) = some v → v.key = s.tr.material key → (v.word (pa / 8 % 8)).2 = none →
    mwf 0 v.data = true → mwf none v.poison = true → (s.ctx c.val).act ≠ .free → s.mayPerform c.val a e = true →
    ∃ t, exec (.accessPerforms c a.seq e.lane) s = .next t ∧
      t.readMem (some h) pa key e.size = (bytesOf e.size e.data).map (fun b => (b, none)) ∧
      (∀ a', (a' < pa ∨ pa + e.size ≤ a') → t.readMem (some h) a' key 1 = s.readMem (some h) a' key 1) ∧
      t.mem.hbm = s.mem.hbm ∧ (t.ctx c.val).acc = [] ∧ (t.ctx c.val).regs = (s.ctx c.val).regs

/-- The new value an atomic gives a word of `n` bytes: `x` the old value, `y` the operand, `z` ACAS's compare value (05 R132). -/
def Sys2Proof.Claims.atomicNew (op : AtomicOp) (n x y z : Nat) : Nat :=
  let low (v : Int) : Bool := decide (v < 0)
  let sgn (v : Nat) : Int := if 2 * v < 2 ^ (8 * n) then v else (v : Int) - 2 ^ (8 * n)
  match op with
  | .add => (x + y) % 2 ^ (8 * n)
  | .min => if low (sgn y - sgn x) then y else x
  | .max => if low (sgn x - sgn y) then y else x
  | .minu => if y < x then y else x
  | .maxu => if x < y then y else x
  | .and => x &&& y
  | .or => x ||| y
  | .xor => x ^^^ y
  | .xchg => y
  | .cas => if x = z then y else x

/-- 05 R132, R130, R137, 13 R258: an atomic of a launch that performs on a clean word its shadow holds reads the old value and writes
the new one in the launch's view; every other byte and committed memory are as before. A fetching one holds the old value for its
landing, one that fetches nothing is over. -/
def Sys2Proof.Claims.AtomicPerforms : Prop :=
  ∀ (s : State) (c : CtxNo) (a : Access) (e : Elem) (op : AtomicOp) (pa : Nat) (key : BitVec 12) (h : Hall) (l : Launch) (v : LineVal),
    (s.ctx c.val).acc = [a] → (s.ctx c.val).col = [] → (∀ i < 4, 4 * coreOf c.val + i ≠ c.val → (s.ctx (4 * coreOf c.val + i)).acc = []) →
    a.kind = .atomic op → a.elems = [e] → a.hall = some h → e.tgt = .mem pa key → s.windowAt e.tgt = none →
    (e.size = 4 ∨ e.size = 8) → pa % e.size = 0 →
    s.launch h = some l → l.state = .running → l.excl = false → s.mem.reported (pa / 64) = true →
    (s.mem.entry (pa / 64) h).map (·.val) = some v → v.key = s.tr.material key → (v.word (pa / 8 % 8)).2 = none →
    mwf 0 v.data = true → mwf none v.poison = true → (s.ctx c.val).act ≠ .free → s.mayPerform c.val a e = true →
    let w := 2 ^ (8 * e.size)
    let old := valOf (s.readMem (some h) pa key e.size)
    ∃ t, exec (.accessPerforms c a.seq e.lane) s = .next t ∧
      t.readMem (some h) pa key e.size =
        (bytesOf e.size (atomicNew op e.size old (e.data % w) (e.cmp % w))).map (fun b => (b, none)) ∧
      (∀ a', (a' < pa ∨ pa + e.size ≤ a') → t.readMem (some h) a' key 1 = s.readMem (some h) a' key 1) ∧
      t.mem.hbm = s.mem.hbm ∧ (t.ctx c.val).regs = (s.ctx c.val).regs ∧
      (a.form = .none → (t.ctx c.val).acc = []) ∧
      (a.form ≠ .none → (t.ctx c.val).acc = [{ a with elems := [{ e with done := true, got := some (old, []) }] }])

/-- 05 R136, R130, 02 R54: a load that performs takes what memory holds and changes nothing of it; when its data arrives the
landing holds the value, zero-extended by LD. -/
def Sys2Proof.Claims.LoadPerforms : Prop :=
  (∀ (s : State) (c : CtxNo) (a : Access) (e : Elem) (pa : Nat) (key : BitVec 12),
    (s.ctx c.val).acc = [a] → (s.ctx c.val).col = [] → (s.ctx c.val).seg = none → (s.ctx c.val).rel = [] →
    (∀ i < 4, 4 * coreOf c.val + i ≠ c.val → (s.ctx (4 * coreOf c.val + i)).acc = []) →
    a.kind = .load → a.ord = .relaxed → a.elems = [e] → a.form ≠ .none → e.tgt = .mem pa key → s.mayPerform c.val a e = true →
    ∃ t, exec (.accessPerforms c a.seq e.lane) s = .next t ∧ t.mem = s.mem ∧ (t.ctx c.val).regs = (s.ctx c.val).regs ∧
      (t.ctx c.val).acc = [{ a with elems := [{ e with done := true, got := some (gotOf (s.readMem a.hall pa key e.size)) }] }]) ∧
  (∀ (s : State) (c : CtxNo) (a : Access) (e : Elem) (n : Nat) (g : List (Nat × Tag)) (d : SReg) (l : Land),
    (s.ctx c.val).act ≠ .free → (s.ctx c.val).acc = [a] → a.elems = [e] → e.done = true → e.got = some (n, g) →
    a.form = .zext d → (s.ctx c.val).land = [l] → l.seq = a.seq → l.arrived = false →
    ∃ t, exec (.dataArrived c a.seq) s = .next t ∧ (t.ctx c.val).acc = [] ∧ t.mem = s.mem ∧
      (t.ctx c.val).land = [{ l with arrived := true
                                     data := some (.s (.of (BitVec.ofNat 64 n) (g.head?.map fun x => Poi.mem x.2))) }])

/-- 05 R130, R132, R136, R137, 13 R258, 02 R54: an issued access waits; a store performs in its launch's view; an atomic reads
and writes its word at once; a load performs and lands. The model's own choices in it: log 10. -/
def Obligations.AccessesPerform : Prop :=
  Claims.IssuedAccessWaits ∧ Claims.StorePerforms ∧ Claims.AtomicPerforms ∧ Claims.LoadPerforms

/-! ## The matrix unit (06) -/

end

namespace Sys2Proof.Claims

open Sys2Proof Sys2Proof.Machine

/-- The instruction goes on and queues one matrix command (06 R143): with the number its FENCE names, at this tick. -/
def QueuesMtx (s b : State) (c : Nat) (i : Instr) (op : MtxOp) : Prop :=
  exec i s = .next (b.issued c false .next (fun t => t.modCtx c fun x => { x with mtx := { x.mtx with
    queue := x.mtx.queue ++ [⟨op, mget 0 (b.ctx c).fences (fenceCode .mtx), (b.ctx c).ct⟩] } }) id)

/-- The oldest matrix command of a context is `op`, the rest of its queue is `rest`, nothing it waits for is left, and no other
context of the core has matrix work. -/
def MtxNext (s : State) (c : Nat) (op : MtxOp) (rest : List MtxCmd) : Prop :=
  (∃ m : MtxCmd, m.op = op ∧ (s.ctx c).mtx.queue = m :: rest ∧ s.fenced c m.after = false) ∧
    ∀ i < 4, 4 * coreOf c + i ≠ c → (s.ctx (4 * coreOf c + i)).mtx.queue = [] ∧ (s.ctx (4 * coreOf c + i)).mtx.run = none

/-- The context's matrix side after its running command has ended. -/
def mtxOver (x : Ctx) (rest : List MtxCmd) : Ctx := { x with mtx := { x.mtx with queue := rest, run := none } }

/-- A context of which a unit has recorded a deferred fault: the rest of the command is skipped, later ones are gone (06 R145). -/
def mtxFaulted (x : Ctx) (now : Nat) (t : Trap) : Ctx :=
  { x with mtx := { x.mtx with queue := [], run := none }, dfaults := x.dfaults ++ [⟨.mtx, now, t⟩] }

end Sys2Proof.Claims

section

open Sys2Proof Sys2Proof.Machine Sys2Proof.Claims

/-- 06 R143, R154–R161: a matrix command enters its context's queue at issue with the operands it reads then; MCALL takes
copies of the m and x registers. MCALL and MUPLD outside their grant fault at issue, MUPLD also on a poisoned m register. The
model's own choices in it: log 38, 114. -/
def Obligations.MatrixCommandsQueue : Prop :=
  ∀ (s b : State) (c : Nat), Turn s c b →
    let x := b.ctx c
    (x.seg = none → b.accepts c = true → x.mtx.queue.length < 8 →
      (∀ o : McallArgs, x.passes o.g → o.routine.toNat < x.grant.reCount →
        QueuesMtx s b c (.mcall o) (.mcall o.acc o.afmt o.bfmt o.routine x.regs.m x.regs.x)) ∧
      (∀ o : MldwArgs, x.passes o.g → QueuesMtx s b c (.mldw o) (.mldw o.afmt o.bfmt (x.mreg o.m))) ∧
      (∀ o : MldixArgs, x.passes o.g → QueuesMtx s b c (.mldix o) (.mldix (x.vreg o.v))) ∧
      (∀ o : MupldArgs, x.passes o.g → o.at_.toNat < x.grant.uwCount → o.routine.toNat < x.grant.reCount →
        (x.mreg o.m).p = none → QueuesMtx s b c (.mupld o) (.mupld (x.mreg o.m) o.routine o.at_))) ∧
    (Quiet b c → x.mtx.queue.length = 8 → ∀ g : Guard, x.passes g →
      Ends s c (.mswp g) fun _ y => y.act = .blocked (.queueSpace .mtx) ∧ y.pc = x.pc ∧ y.ct = x.ct ∧ y.mtx = x.mtx) ∧
    (Quiet b c →
      (∀ o : McallArgs, x.passes o.g → x.grant.reCount ≤ o.routine.toNat →
        Traps s b c (.mcall o) 0x02 (o.routine.setWidth 64) 0x20) ∧
      (∀ o : MupldArgs, x.passes o.g →
        (x.grant.uwCount ≤ o.at_.toNat → Traps s b c (.mupld o) 0x06 (o.at_.setWidth 64) 0x20) ∧
        (o.at_.toNat < x.grant.uwCount → x.grant.reCount ≤ o.routine.toNat →
          Traps s b c (.mupld o) 0x06 (o.routine.setWidth 64) 0x20) ∧
        (∀ p, o.at_.toNat < x.grant.uwCount → o.routine.toNat < x.grant.reCount → (x.mreg o.m).p = some p →
          Traps s b c (.mupld o) (BitVec.ofNat 64 (0x07 + p.tag.toNat * 2 ^ 16 + 2 ^ 28)) 0 0x20)))

/-- 06 R162, R163, R145: MSYNC waits for the queue to empty; MASSAY gives what the two checks give and clears the assay state;
a recorded deferred fault of the unit is raised instead. The model's own choices in it: log 43. -/
def Obligations.MatrixResultsAndSync : Prop :=
  (∀ (s b : State) (c : Nat), Turn s c b →
    let x := b.ctx c
    (∀ o : MassayArgs, x.passes o.g → (∀ d ∈ x.dfaults, d.unit ≠ .mtx) →
      exec (.massay o) s = .next (b.issued c false .next (fun t => (b.envAt c .m).put 2 (.p o.p)
        (.p ⟨x.mtx.assay.check && (List.range 128).all (fun n => decide (rowSum x.mtx.active x.mtx.assay.a n = mget 0 x.mtx.assay.t n)),
          x.mtx.assay.p⟩)
        (t.modCtx c fun y => { y with mtx := { y.mtx with assay := ⟨true, [], [], none⟩ } })) id)) ∧
    (∀ g : Guard, Quiet b c → x.passes g → (∀ d ∈ x.dfaults, d.unit ≠ .mtx) →
      (x.mtx.queue = [] → Ends s c (.msync g) fun _ y => y = x.moveOn (b.nextPc c) .next false) ∧
      (x.mtx.queue ≠ [] → Ends s c (.msync g) fun _ y =>
        y = { x.moveOn (b.nextPc c) .next false with act := .blocked .msync })) ∧
    (∀ d : DFault, Quiet b c → x.dfaults = [d] → d.unit = .mtx →
      (∀ g : Guard, x.passes g → Traps s b c (.msync g) d.trap.word d.trap.addr 0x20 ∧
        Ends s c (.msync g) fun _ y => y.dfaults = []) ∧
      (∀ o : MassayArgs, x.passes o.g → Traps s b c (.massay o) d.trap.word d.trap.addr 0x20))) ∧
  (∀ (s : State) (c : CtxNo), (s.ctx c.val).act = .blocked .msync → (s.ctx c.val).mtx.queue = [] →
    Ends s c.val (.msyncDone c) fun t y => y = { s.ctx c.val with act := .ready } ∧ t.mem = s.mem)

/-- 06 R160: MSET sets M[m] to S[s] at issue, with bound 1 and with its poison; a residue mismatch faults RESIDUE. -/
def Obligations.MsetMovesAScalar : Prop :=
  ∀ (s b : State) (c : Nat), Turn s c b →
    let x := b.ctx c
    (∀ o : MsetArgs, x.passes o.g → (sp b c o.s ≠ none ∨ Fits x o.s) →
      Puts s b c (.mset o) .m 1 (.m o.m) (.m ⟨sv b c o.s, sp b c o.s⟩)) ∧
    (∀ o : MsetArgs, Quiet b c → x.passes o.g → sp b c o.s = none → ¬ Fits x o.s → Traps s b c (.mset o) 0x08 0 0x20)

/-- 06 R157, R159: MSWP and MCLR enter the queue; once they are its oldest command, and not before, MSWP exchanges
the planes; MCLR sets every element of its tile to +0 without poison and no other element; both clear the context's assay state. -/
def Obligations.SwapAndClear : Prop :=
  (∀ (s b : State) (c : Nat), Turn s c b →
    let x := b.ctx c
    x.seg = none → b.accepts c = true → x.mtx.queue.length < 8 →
      (∀ g : Guard, x.passes g → QueuesMtx s b c (.mswp g) .mswp) ∧
      (∀ o : MclrArgs, x.passes o.g → QueuesMtx s b c (.mclr o) (.mclr o.acc))) ∧
  (∀ (s : State) (c : CtxNo) (rest : List MtxCmd),
    let x := s.ctx c.val
    x.act ≠ .free → x.act ≠ .trapWaiting →
    (∀ m, x.mtx.queue = m :: rest → m.op ≠ .mswp → exec (.mswpRun c) s = .next s) ∧
    (MtxNext s c.val .mswp rest → Ends s c.val (.mswpRun c) fun t y => t.mem = s.mem ∧
      y = mtxOver { x with mtx := { x.mtx with active := x.mtx.standby, standby := x.mtx.active, assay := ⟨true, [], [], none⟩ } } rest) ∧
    (∀ acc, MtxNext s c.val (.mclr acc) rest → Ends s c.val (.mclrRun c) fun t y =>
      { y with mon := x.mon } = mtxOver { x with mtx := { x.mtx with assay := ⟨true, [], [], none⟩ } } rest ∧
      (∀ row < 128, ∀ col < 128, t.mem.accElem (accIndex c.val acc row col) = (0, none)) ∧
      (mwf 0 s.mem.acc = true → mwf none s.mem.accPoison = true → mwf false s.mem.accValid = true → ∀ i,
        (i < accIndex c.val acc 0 0 ∨ accIndex c.val acc 0 0 + 16384 ≤ i) → t.mem.accElem i = s.mem.accElem i) ∧
      t.mem.hbm = s.mem.hbm ∧ t.mem.spad = s.mem.spad))

/-- 06 R141, R142, R156, R158: MLDW loads the standby plane and tags it, MLDIX sets the index vector; each then leaves the queue. -/
def Sys2Proof.Claims.MatrixCommandsRun : Prop :=
  ∀ (s : State) (c : CtxNo) (rest : List MtxCmd),
    let x := s.ctx c.val
    x.act ≠ .free → x.act ≠ .trapWaiting →
    (∀ v, MtxNext s c.val (.mldix v) rest → Ends s c.val (.mldixRun c) fun t y => t.mem = s.mem ∧
      y = mtxOver { x with mtx := { x.mtx with idx := v } } rest) ∧
    (∀ a f m, MtxNext s c.val (.mldw a f m) rest → x.act = .ready → x.dfaults = [] →
      let off := m.v.toNat % 0x80000
      (∀ p, m.p = some p → Ends s c.val (.mldwRun c) fun t y => t.mem = s.mem ∧
        y = mtxFaulted x s.cycle ⟨.poisonConsumed, 0, 0, some (.mem p.tag)⟩) ∧
      (m.p = none → off % 256 ≠ 0 → Ends s c.val (.mldwRun c) fun t y => t.mem = s.mem ∧
        y = mtxFaulted x s.cycle ⟨.align, BitVec.ofNat 64 off, 0, none⟩) ∧
      (∀ d, m.p = none → off % 256 = 0 → s.mtxRead c.val off (imageBytes a f) = .ok d →
        Ends s c.val (.mldwRun c) fun t y => t.mem = s.mem ∧
          y = mtxOver { x with mtx := { x.mtx with standby := ⟨wordsOf d, tagsOf d, a, some (f, gangOf a f)⟩ } } rest))

/-- 06 R161: MUPLD_RUN writes the micro-words of an image whose checks pass from the grant's word offset on and sets the routine
table entry; a count of 0 leaves store and table unchanged and records a deferred ILLEGAL_BUNDLE. -/
def Sys2Proof.Claims.MicroprogramLoads : Prop :=
  ∀ (s : State) (c : CtxNo) (rest : List MtxCmd) (m : MVal) (routine : BitVec 8) (at_ : BitVec 10),
    let x := s.ctx c.val
    let k := coreOf c.val
    let first := (x.grant.uwFirst + at_.toNat) % 1024
    MtxNext s c.val (.mupld m routine at_) rest → x.act = .ready → x.dfaults = [] →
    (∀ ws, s.upldImage c.val m at_.toNat = .ok ws → ws.length ≤ 1024 → mwf 0 s.mem.ucode = true → mwf 0 s.mem.rtable = true →
      Ends s c.val (.mupldRun c) fun t y => y = mtxOver x rest ∧
        (∀ i w, ws[i]? = some w → mget 0 t.mem.ucode (k * 1024 + (first + i) % 1024) = w) ∧
        mget 0 t.mem.rtable (k * 256 + (x.grant.reFirst + routine.toNat) % 256) =
          BitVec.ofNat 32 (first + ws.length * 2 ^ 10 + 2 ^ 31) ∧
        t.mem.hbm = s.mem.hbm ∧ t.mem.spad = s.mem.spad ∧ t.mem.acc = s.mem.acc) ∧
    (∀ h, (m.v.toNat % 0x80000) % 32 = 0 → s.mtxRead c.val (m.v.toNat % 0x80000) 16 = .ok h → tagOf h = none → valOf h = 0 →
      Ends s c.val (.mupldRun c) fun t y => t.mem = s.mem ∧ y = mtxFaulted x s.cycle ⟨.illegalBundle, 0, 0, none⟩)

/-- 06 R141, R142, R156, R158, R161: the matrix commands that load planes and the index vector, and the load of microprograms.
The model's own choices in it: log 39, 41, 44, 114. -/
def Obligations.MatrixCommandsRunAndLoad : Prop :=
  Claims.MatrixCommandsRun ∧ Claims.MicroprogramLoads

/-- 06 R151, R155: MCALL starts where its table entry says, with base M[0], stride M[1], r, c and p 0 and hold 0, whatever its first
word; a plane of another tag is a deferred ILLEGAL_BUNDLE; SETA, SETACC, SCALE, LOOPU and END move the routine's state; an
invalid entry is a deferred ILLEGAL_INDEX. -/
def Sys2Proof.Claims.RoutineControl : Prop :=
  (∀ (s : State) (c : CtxNo) (rest : List MtxCmd) (acc : Bool) (a f : MxFmt) (routine : BitVec 8) (m : SMap MVal) (xs : SMap XVal),
    let x := s.ctx c.val
    let e := (mget 0 s.mem.rtable (coreOf c.val * 256 + (x.grant.reFirst + routine.toNat) % 256)).toNat
    MtxNext s c.val (.mcall acc a f routine m xs) rest → x.act = .ready → x.dfaults = [] → x.mtx.run = none →
    (e < 2 ^ 31 → Ends s c.val (.mcallRun c) fun t y => t.mem = s.mem ∧
      y = mtxFaulted x s.cycle ⟨.illegalIndex, routine.setWidth 64, 0, none⟩) ∧
    (2 ^ 31 ≤ e → x.mtx.active.tag = none → e / 2 ^ 10 % 2 ^ 11 ≠ 0 →
      decodeUop (mget 0 s.mem.ucode (coreOf c.val * 1024 + e % 1024)) = some .end_ →
      Ends s c.val (.mcallRun c) fun t y => t.mem = s.mem ∧ y = mtxOver x rest) ∧
    (∀ g, 2 ^ 31 ≤ e → x.mtx.active.tag = some g → g ≠ (f, gangOf a f) → Ends s c.val (.mcallRun c) fun t y => t.mem = s.mem ∧
      y = mtxFaulted x s.cycle ⟨.illegalBundle, 0, 0, none⟩) ∧
    (2 ^ 31 ≤ e → (∀ g, x.mtx.active.tag = some g → g = (f, gangOf a f)) →
      let start : URun := ⟨acc, a, f, m, xs, mget .zero m 0, mget .zero m 1, 0, 0, 0, false, e % 2 ^ 10, e / 2 ^ 10 % 2 ^ 11, 0, []⟩
      let begun := s.modCtx c.val fun x => { x with mtx := { x.mtx with run := some start } }
      let first (u : Uop) : Prop := s.nextUop c.val start = some u
      exec (.mcallRun c) s = exec (.mcallRun c) begun ∧
      (∀ u : USetaArgs, u.c = c → first (.seta u.base u.stride u.r) → exec (.seta u) s = exec (.seta u) begun) ∧
      (∀ u : USetaccArgs, u.c = c → first (.setacc u.row) → exec (.setacc u) s = exec (.setacc u) begun) ∧
      (∀ u : UScaleArgs, u.c = c → first (.scale u.hold u.x u.byte) → exec (.scale u) s = exec (.scale u) begun) ∧
      (∀ u : ULoopArgs, u.c = c → first (.loopu u.fromM u.m u.len u.count) → exec (.loopu u) s = exec (.loopu u) begun) ∧
      (∀ u : UStepArgs, u.c = c → first (.step u.gathered u.op) → exec (.step u) s = exec (.step u) begun) ∧
      (first .end_ → exec (.endu c) s = exec (.endu c) begun))) ∧
  (∀ (s : State) (c : CtxNo) (r : URun),
    let x := s.ctx c.val
    x.act = .ready → x.dfaults = [] → x.mtx.run = some r → r.loops = [] →
    let goes (i : Instr) (r' : URun) : Prop := Ends s c.val i fun t y => t.mem = s.mem ∧ y = { x with mtx := { x.mtx with run := some r' } }
    (∀ u : USetaArgs, u.c = c → s.nextUop c.val r = some (.seta u.base u.stride u.r) →
      goes (.seta u) { r with b := mget .zero r.m u.base.toNat, t := mget .zero r.m u.stride.toNat, r := u.r.toNat, word := r.word + 1 }) ∧
    (∀ u : USetaccArgs, u.c = c → s.nextUop c.val r = some (.setacc u.row) → goes (.setacc u) { r with c := u.row.toNat, word := r.word + 1 }) ∧
    (∀ u : UScaleArgs, u.c = c → s.nextUop c.val r = some (.scale u.hold u.x u.byte) →
      goes (.scale u) { r with p := 32 * u.x.toNat + u.byte.toNat, hold := u.hold, word := r.word + 1 }) ∧
    (∀ u : ULoopArgs, u.c = c → s.nextUop c.val r = some (.loopu u.fromM u.m u.len u.count) →
      let v := mget MVal.zero r.m u.m.toNat
      let n := if u.fromM then v.v.toNat % 2 ^ 16 else u.count.toNat
      (u.fromM = true → v.p = none) →
      (n = 0 → goes (.loopu u) { r with word := r.word + (1 + u.len.toNat) }) ∧
      (n ≠ 0 → goes (.loopu u) { r with word := r.word + 1, loops := [⟨r.word + 1, u.len.toNat, n⟩] })) ∧
    (s.nextUop c.val r = some .end_ → Ends s c.val (.endu c) fun t y => t.mem = s.mem ∧ y = mtxOver x (x.mtx.queue.drop 1))) ∧
  (∀ (s : State) (c : CtxNo) (r : URun) (l : ULevel) (u : USetaccArgs),
    let x := s.ctx c.val
    x.act = .ready → x.mtx.run = some r → r.loops = [l] → r.word + 1 = l.first + l.len → u.c = c →
    s.nextUop c.val r = some (.setacc u.row) →
    Ends s c.val (.setacc u) fun _ y =>
      (1 < l.left → y.mtx.run = some { r with c := u.row.toNat, word := l.first, loops := [{ l with left := l.left - 1 }] }) ∧
      (l.left ≤ 1 → y.mtx.run = some { r with c := u.row.toNat, word := r.word + 1, loops := [] }))

/-- 06 R151, R152, 01 R21: a linear STEP of MADD whose activation row and weights are clean and whose scales are no NaN adds, to
every element of accumulator row c, for each block the exact sum of products scaled and rounded to FP32; r, c and p advance. -/
def Sys2Proof.Claims.MatrixStep : Prop :=
  ∀ (s : State) (c : CtxNo) (r : URun) (row : List PByte),
    let x := s.ctx c.val
    let nb := gangK (gangOf r.afmt r.bfmt) / 32
    let a := (r.b.v.toNat + r.r * r.t.v.toNat) % 0x80000
    x.act = .ready → x.mtx.run = some r → r.loops = [] → r.c < 128 → r.r < 2 ^ 16 → s.nextUop c.val r = some (.step false .madd) →
    r.b.p = none → r.t.p = none → a % 32 = 0 → s.mtxRead c.val a (nb * (4 * r.afmt.bits)) = .ok row →
    mwf 0 s.mem.acc = true → mwf none s.mem.accPoison = true → mwf false s.mem.accValid = true →
    let A := rowBlocks r row
    let W (n j : Nat) := x.mtx.active.block r.afmt r.bfmt n j
    (∀ b ∈ A, b.tag = none ∧ b.scale ≠ 255) → (∀ n < 128, ∀ j < nb, (W n j).tag = none ∧ (W n j).scale ≠ 255) →
    Ends s c.val (.step ⟨c, false, .madd⟩) fun t y =>
      (∀ n < 128, t.mem.accElem (accIndex c.val r.acc r.c n) =
        ((A.zipIdx).foldl (fun v e =>
          let k : Int := (List.zipWith (· * ·) e.1.codes (W n e.2).codes).foldl (· + ·) 0
          let exp : Int := ((e.1.scale : Int) - 127) + (((W n e.2).scale : Int) - 127) - r.afmt.f - r.bfmt.f
          BitVec.ofNat 32 (Fmt.fp32.fadd .rne v.toNat (Fmt.fp32.encode .rne false (.num (k < 0) k.natAbs exp))))
          (s.mem.accElem (accIndex c.val r.acc r.c n)).1, (s.mem.accElem (accIndex c.val r.acc r.c n)).2)) ∧
      (∀ i, (∀ n < 128, i ≠ accIndex c.val r.acc r.c n) → t.mem.accElem i = s.mem.accElem i) ∧
      t.mem.hbm = s.mem.hbm ∧ t.mem.spad = s.mem.spad ∧
      y.mtx.run = some { r with r := r.r + 1, c := (r.c + 1) % 128, p := if r.hold then r.p else (r.p + nb) % 512, word := r.word + 1 }

/-- 06 R151, R152, R155, 01 R21: what a routine's micro-words do. The model's own choices in it: log 40, 42. -/
def Obligations.RoutinesRun : Prop :=
  Claims.RoutineControl ∧ Claims.MatrixStep

/-! ## The D slot and the engines (08, 09, 13, 14, 18, 23) -/

end

namespace Sys2Proof.Claims

open Sys2Proof Sys2Proof.Machine

/-- The instruction goes on and only does `act` when its bundle commits. -/
def Does (s b : State) (c : Nat) (i : Instr) (act : State → State) : Prop := exec i s = .next (b.issued c false .next act id)

/-- The number the context's FENCE names for an engine class. -/
def fence (b : State) (c : Nat) (q : EngClass) : Nat := mget 0 (b.ctx c).fences (fenceCode q)

/-- The instruction goes on and `v` is on its way to `d` as data that has arrived: it lands `n` ticks after issue. -/
def LandsWord (s b : State) (c : Nat) (i : Instr) (n : Nat) (d : SReg) (v : Word) : Prop :=
  Sys2Proof.Machine.exec i s = .next (b.issued c false .next (fun t => t.modCtx c fun x => { x with
    land := x.land ++ [⟨(b.ctx c).ct + n, 7, (b.ctx c).issues, 0, .s d, 0, some (.s (.of v none)), true, none⟩] }) id)

/-- A walker command of the context, with copies of its WK registers (09 R216). -/
def wkCmd (b : State) (c : Nat) (op : WkOp) (a e f : Word) (uirq : Bool) : WkCmd :=
  let t := (b.ctx c).ctl
  ⟨op, a, e, f, t.wkmode, t.wktheta, t.wktau, t.wkdepth, t.wklistmax, uirq, c, fence b c .wlk, 0⟩

/-- The command joins its cluster's walker queue: commands of one cycle in ascending context number (09 R217). -/
def QueuesWk (s b : State) (c : Nat) (i : Instr) (q : WkCmd) : Prop :=
  Does s b c i fun t => t.modWalker (cluOf (coreOf c)) fun w =>
    { w with queue := WkCmd.into { q with at_ := t.cycle } w.queue }

/-- The command joins the context's coordinate commands. -/
def QueuesCrd (s b : State) (c : Nat) (i : Instr) (q : CrdCmd) : Prop :=
  Does s b c i fun t => t.modCtx c fun x => { x with crd := x.crd ++ [q] }

/-- The command as the context's one COL command, numbered in order of issue. -/
def joinCol (b : State) (c : Nat) (op : ColOp) (a e f : Word) (uirq : Bool) (t : State) : State :=
  t.tick.modCtx c fun x => { x with col := [⟨op, a, e, f, uirq, fence b c .col, t.fresh, none, none, false, 0, 0, none, 0⟩] }

/-- The command is the context's one COL command. -/
def QueuesCol (s b : State) (c : Nat) (i : Instr) (op : ColOp) (a e f : Word) (uirq : Bool) : Prop :=
  Does s b c i (joinCol b c op a e f uirq)

/-- A receive joins, then the context's receives are carried on: at once when no FENCE holds it (23 R368). -/
def QueuesRecv (s b : State) (c : Nat) (i : Instr) (op : ColOp) (a e f : Word) (uirq : Bool) : Prop :=
  (Does s b c i fun t => (joinCol b c op a e f uirq t).colSettle c) ∧
    (b.fenced c (fence b c .col) = true → QueuesCol s b c i op a e f uirq)

end Sys2Proof.Claims

section

open Sys2Proof Sys2Proof.Machine Sys2Proof.Claims

/-- 09 R215, R216, 18 R313, R314, 23 R366, R373: with clean operands, room in the queue and a launch that still runs, a
walker, coordinate, link or collective command enters its queue with the values its operands have at issue; while a deferred
fault of the coordinate unit is recorded, 18 R320 discards the context's later coordinate commands. The model's own choices in
it: log 38, 46. -/
def Obligations.EngineCommandsQueue : Prop :=
  ∀ (s b : State) (c : Nat), Turn s c b → (b.ctx c).seg = none → b.accepts c = true →
    let x := b.ctx c
    (b.walkerFull c = false →
      (∀ o : WkArgs, x.passes o.g → Clean b c o.a → Clean b c o.b → Clean b c o.c →
        QueuesWk s b c (.wkapp o) (wkCmd b c .wkapp (sv b c o.a) (sv b c o.b) (sv b c o.c) o.uirq) ∧
        QueuesWk s b c (.wkwalk o) (wkCmd b c .wkwalk (sv b c o.a) (sv b c o.b) (sv b c o.c) o.uirq)) ∧
      (∀ o : WkfixArgs, x.passes o.g → Clean b c o.a → Clean b c o.b →
        QueuesWk s b c (.wkfix o) (wkCmd b c (.wkfix o.level) (sv b c o.a) (sv b c o.b) 0 o.uirq))) ∧
    (b.crdFull c = false → (∀ d ∈ x.dfaults, d.unit ≠ .crd) → ∀ o : D3Args, x.passes o.g → Clean b c o.a → Clean b c o.b → Clean b c o.c →
      let q (op : CrdOp) : CrdCmd := ⟨op, sv b c o.a, sv b c o.b, sv b c o.c, o.count.toNat, o.uirq, fence b c .crd⟩
      QueuesCrd s b c (.wget o) (q .wget) ∧ QueuesCrd s b c (.wput o) (q .wput) ∧ QueuesCrd s b c (.wexp o) (q .wexp)) ∧
    (b.crdFull c = false → (∃ d ∈ x.dfaults, d.unit = .crd) → ∀ o : D3Args, x.passes o.g → Clean b c o.a → Clean b c o.b →
      Clean b c o.c → ∀ i ∈ [Instr.wget o, Instr.wput o, Instr.wexp o], ∃ t, Sys2Proof.Machine.exec i s = .next t ∧
        (t.ctx c).crd = x.crd ∧ (t.ctx c).pc = b.nextPc c ∧ (t.ctx c).regs = x.regs) ∧
    (b.colFull c = false → x.col = [] → (∀ d ∈ x.dfaults, d.unit ≠ .col) →
      (∀ o : CxtabArgs, x.passes o.g → Clean b c o.a → b.slotOwned c o.slot.toNat = true →
        QueuesCol s b c (.cxtab o) (.cxtab o.slot o.gen) (sv b c o.a) 0 0 o.uirq) ∧
      (∀ o : CxpkArgs, x.passes o.g → Clean b c o.a → Clean b c o.b → Clean b c o.c → b.slotOwned c o.slot.toNat = true →
        QueuesCol s b c (.cxpk o) (.cxpk o.slot o.count.toNat) (sv b c o.a) (sv b c o.b) (sv b c o.c) o.uirq) ∧
      (∀ o : D3Args, x.passes o.g → Clean b c o.a → Clean b c o.b → Clean b c o.c →
        QueuesCol s b c (.cxun o) (.cxun o.count.toNat) (sv b c o.a) (sv b c o.b) (sv b c o.c) o.uirq) ∧
      (∀ o : ClgoArgs, x.passes o.g → Clean b c o.a → (∀ n, b.clgoSlot c (sv b c o.a) = some n → b.slotOwned c n = true) →
        Does s b c (.clgo o) fun t => joinCol b c .clgo (sv b c o.a) 0 0 o.uirq (t.noteClgo c (sv b c o.a))) ∧
      (∀ o : LkArgs, x.passes o.g → Clean b c o.a → Clean b c o.b → Clean b c o.c →
        QueuesCol s b c (.lksend o) (.lksend o.port) (sv b c o.a) (sv b c o.b) (sv b c o.c) o.uirq) ∧
      (∀ o : LkArgs, x.passes o.g → Clean b c o.a → Clean b c o.b → Clean b c o.c →
        QueuesRecv s b c (.lkrecv o) (.lkrecv o.port) (sv b c o.a) (sv b c o.b) (sv b c o.c) o.uirq) ∧
      (∀ o : LkraddArgs, x.passes o.g → Clean b c o.a → Clean b c o.b → Clean b c o.c →
        QueuesRecv s b c (.lkradd o) (.lkradd o.port o.fmt) (sv b c o.a) (sv b c o.b) (sv b c o.c) o.uirq))

/-- 08 R198: CPGO, CPSTOP and CPQ complete: `exec` of each answers a next state. CPGO starts an idle channel at its head, or
queues the head of a running one; CPSTOP drops the queued heads and asks the chain to stop; CPQ gives state, queued heads,
cause and records done; its land is at least 24. A unit the launch was not granted faults PROTECT. The model's own choices in
it: log 24, 33, 34. -/
def Obligations.CopyChannels : Prop :=
  ∀ (s b : State) (c : Nat), Turn s c b →
    let x := b.ctx c
    let k := cluOf (coreOf c)
    (∀ (l : Launch) (u : BitVec 4) (p : Nat), b.launchOf c = some l → l.state = .running → u.toNat < l.nchan →
      b.physChan c u.toNat = some p →
      let ch := b.chan k p
      (∀ o : CpgoArgs, Quiet b c → x.passes o.g → o.unit = u → Clean b c o.a → ch.heads.length < 4 →
        ∃ t, Sys2Proof.Machine.exec (.cpgo o) s = .next t ∧ t.ctx c = x.moveOn (b.nextPc c) .next false ∧
          (t.chan k p).state = 1 ∧ (t.chan k p).done = ch.done ∧
          (ch.state ≠ 1 → (t.chan k p).head = sv b c o.a ∧ (t.chan k p).heads = ch.heads ∧ (t.chan k p).stop = false ∧
            (t.chan k p).by_ = c ∧ (t.chan k p).after = fence b c .cpy) ∧
          (ch.state = 1 → (t.chan k p).head = ch.head ∧
            (t.chan k p).heads = ch.heads ++ [⟨sv b c o.a, c, fence b c .cpy⟩] ∧ (t.chan k p).stop = ch.stop)) ∧
      (∀ o : CpstopArgs, Quiet b c → x.passes o.g → o.unit = u →
        ∃ t, Sys2Proof.Machine.exec (.cpstop o) s = .next t ∧ t.ctx c = x.moveOn (b.nextPc c) .next false ∧
          (ch.state = 1 → t.chan k p = { ch with heads := [], stop := true }) ∧ (ch.state ≠ 1 → t.chan k p = ch)) ∧
      (∀ o : CpqArgs, x.passes o.g → o.unit = u → 24 ≤ landL o.land → x.held < 32 →
        LandsWord s b c (.cpq o) (landL o.land) o.a (BitVec.ofNat 64
          (ch.state.toNat + 4 * ch.heads.length + 2 ^ 8 * ch.cause.toNat + 2 ^ 32 * (ch.done % 2 ^ 32))))) ∧
    (∀ (l : Launch), Quiet b c → b.launchOf c = some l → x.held < 32 →
      (∀ o : CpgoArgs, x.passes o.g → Clean b c o.a → l.nchan ≤ o.unit.toNat → Traps s b c (.cpgo o) 0x06 (o.unit.setWidth 64) 0x80) ∧
      (∀ o : CpstopArgs, x.passes o.g → l.nchan ≤ o.unit.toNat → Traps s b c (.cpstop o) 0x06 (o.unit.setWidth 64) 0x80) ∧
      (∀ o : CpqArgs, x.passes o.g → 24 ≤ landL o.land → l.nchan ≤ o.unit.toNat →
        Traps s b c (.cpq o) 0x06 (o.unit.setWidth 64) 0x80))

/-- 09 R228, 13 R269, R270, 18 R319, 23 R369: WKQ, TXID, WSYNC and LKWAIT complete: `exec` of each answers a next state. WKQ,
with a land of at least 24, and TXID, with one of at least 96, land their words; WSYNC and LKWAIT write the word of the span
since the last one, at once when nothing is outstanding, else when the wait ends. The model's own choices in it: log 24, 60.
-/
def Obligations.EngineStatusWords : Prop :=
  let crdWord (x : Ctx) : Word := BitVec.ofNat 64 (2 ^ 32 * (x.crdEnded % 2 ^ 32) + min x.crdRe 0xFFFF)
  let colWord (x : Ctx) : Word := BitVec.ofNat 64
    (2 ^ 32 * (x.colEnded % 2 ^ 32) + 2 ^ 8 * ((if x.colBad = 0 then 1 else x.colFirstBad) % 256) + min x.colBad 255)
  (∀ (s b : State) (c : Nat), Turn s c b →
    let x := b.ctx c
    let z := x.moveOn (b.nextPc c) .next false
    (∀ o : DLandArgs, x.passes o.g → 24 ≤ landL o.land → x.held < 32 →
      LandsWord s b c (.wkq o) (landL o.land) o.a (BitVec.ofNat 64 (2 ^ 32 * (x.wkEnded % 2 ^ 32) + 2 ^ 8 * x.wkLast.toNat +
        (if (b.cluster (cluOf (coreOf c))).walker.countOf c = 0 then 0 else 1)))) ∧
    (∀ o : DLandArgs, x.passes o.g → 96 ≤ landL o.land → x.held < 32 →
      (∀ (h : Hall) (l : Launch), x.hall = some h → b.launch h = some l → x.ctl.priv = 0 →
        LandsWord s b c (.txid o) (landL o.land) o.a (BitVec.ofNat 64
          ((if l.excl then 2 ^ 52 else 0) + 2 ^ 48 * min l.runs 7 + 2 ^ 32 * popcount 4096 l.sig.toNat +
            min (if l.excl then l.undo.length else (b.mem.shadow.filter fun e => e.hall = h).length) (2 ^ 32 - 1)))) ∧
      (Quiet b c → (b.launchOf c = none ∨ x.ctl.priv ≠ 0) → Traps s b c (.txid o) 0x03 0 0x80)) ∧
    (∀ o : CRegArgs, Quiet b c → x.passes o.g →
      ((∀ d ∈ x.dfaults, d.unit ≠ .crd) →
        (x.crd = [] → ∃ t, Sys2Proof.Machine.exec (.wsync o) s = .next t ∧
          t.ctx c = { z.setS o.a (.of (crdWord x) none) with crdEnded := 0, crdRe := 0 }) ∧
        (x.crd ≠ [] → ∃ t, Sys2Proof.Machine.exec (.wsync o) s = .next t ∧
          t.ctx c = { z with act := .blocked (.wsync o.a) })) ∧
      ((∀ d ∈ x.dfaults, d.unit ≠ .col) →
        (x.col = [] → ∃ t, Sys2Proof.Machine.exec (.lkwait o) s = .next t ∧
          t.ctx c = { z.setS o.a (.of (colWord x) none) with colEnded := 0, colFirstBad := 0, colBad := 0 }) ∧
        (x.col ≠ [] → ∃ t, Sys2Proof.Machine.exec (.lkwait o) s = .next t ∧
          t.ctx c = { z with act := .blocked (.lkwait o.a) })))) ∧
  (∀ (s : State) (c : CtxNo) (d : SReg),
    let x := s.ctx c.val
    (x.act = .blocked (.wsync d) → x.crd = [] → Ends s c.val (.wsyncDone c) fun _ y =>
      y = { x.setS d (.of (crdWord x) none) with crdEnded := 0, crdRe := 0, act := .ready }) ∧
    (x.act = .blocked (.lkwait d) → x.col = [] → Ends s c.val (.lkwaitDone c) fun _ y =>
      y = { x.setS d (.of (colWord x) none) with colEnded := 0, colFirstBad := 0, colBad := 0, act := .ready }))

/-- 13 R271, 14 R286–R288, 07 R177: TXABORT, EVPOST and QLAUNCH complete: `exec` of each answers a next state. TXABORT aborts
its launch with the report and raises TX_ABORTED in the team; EVPOST sets the event bit of the team context it names; QLAUNCH
reserves the next slot of its queue and, in a segment, holds the record in a line; with none open, the record is written. The
model's own choices in it: log 24, 73, 114. -/
def Obligations.TransactionsAndPostings : Prop :=
  ∀ (s b : State) (c : Nat) (h : Hall) (l : Launch), Turn s c b → (∀ i < 4, (b.ctx (4 * coreOf c + i)).acc = []) →
    let x := b.ctx c
    x.hall = some h → b.launch h = some l → l.state = .running → x.ctl.priv = 0 →
    (∀ o : TxabortArgs, x.seg = none → x.passes o.g → Clean b c o.a → c ∈ l.team → x.causes = [] →
      ∃ t, Sys2Proof.Machine.exec (.txabort o) s = .next t ∧
        (∃ m, t.launch h = some m ∧ m.state = .aborted ∧ m.report = sv b c o.a ∧ m.why = .conflict o.retry ∧ m.sig = 0) ∧
        (t.ctx c).causes = [⟨⟨.txAborted, h.setWidth 64, 0, none⟩, true⟩] ∧ (t.ctx c).ct = x.ct + 1 ∧ (t.ctx c).act = .ready) ∧
    (∀ (o : EvpostArgs) (d : Nat), x.seg = none → x.passes o.g → Clean b c o.a → (sv b c o.a).toNat % 2 ^ 16 < l.clusters.length →
      (sv b c o.a).toNat / 2 ^ 19 = 0 → b.postTarget c (sv b c o.a).toNat = some d →
      ((b.ctx d).act = .ready ∨ (b.ctx d).act = .parked) →
      ∃ t, Sys2Proof.Machine.exec (.evpost o) s = .next t ∧
        (t.ctx d).ctl.uipend = (b.ctx d).ctl.uipend ||| 0x10000 ∧ (t.ctx d).regs = (b.ctx d).regs ∧
        (t.ctx c).drains = x.drains ++ [⟨o.scope, b.seq⟩] ∧ (t.ctx c).regs = x.regs ∧ t.mem = b.mem) ∧
    (∀ (o : QlaunchArgs) (r : List PByte) (t0 : Target), x.passes o.g → Clean b c o.a → Clean b c o.b →
      b.qlaunchOk c (sv b c o.b) = true → (sv b c o.a).toNat % 128 = 0 → b.readNow c (sv b c o.a) 128 = .ok r t0 →
      (b.queue (sv b c o.b).toNat).room = true →
      let q := (sv b c o.b).toNat
      let n := (b.queue q).seen
      (∀ g, x.seg = some g → ∃ t, Sys2Proof.Machine.exec (.qlaunch o) s = .next t ∧
        (t.queue q).seen = n + 1 ∧ (t.recOf q n.toNat).state = 7 ∧ (t.queue q).head = (b.queue q).head ∧
        (∃ m, t.launch h = some m ∧ m.held = l.held ++ [(q, n.toNat)]) ∧
        (t.ctx c).seg = some { g with lines := g.lines ++ [.cmd (.qlaunch q n.toNat r)] } ∧ t.mem = b.mem) ∧
      (x.seg = none → Sys2Proof.Machine.exec (.qlaunch o) s = .next (b.issued c false .next
        (fun t => ((t.noteT (t.who c).hall t0 128).reserveSlot c q).putHeld q n.toNat r) id)))

/-- 08 R191, R196, R198: a record that is done counts, and the chain goes on at its next record; one whose own bit is 0 ends the
chain, and a CPSTOP before it ends the chain after the record; a fault stops the channel with its cause, drops its heads and comes due in the owner's context. -/
def Sys2Proof.Claims.RecordChain : Prop :=
  ∀ (s u : State) (k : CluNo) (n : BitVec 4),
    let ch := s.chan k.val n.toNat
    let o := ch.ownerCtx k.val
    ch.state = 1 → ch.head ≠ 0 → s.fenced ch.by_ ch.after = false → s.chanLive ch = true → u.chanLive ch = true →
    u.chan k.val n.toNat = ch →
    (∀ next uirq, (doRecord (s.chanWho k.val ch) ch.head).go s = (.ok (.done next uirq), u) → (u.ctx o).act ≠ .free → ch.stop = false →
      Ends s o (.copyRecord k n) fun t y => t.mem = u.mem ∧ (t.chan k.val n.toNat).done = ch.done + 1 ∧
        (next ≠ 0 → (t.chan k.val n.toNat).head = next ∧ (t.chan k.val n.toNat).state = 1) ∧
        (next = 0 → ch.heads = [] → (t.chan k.val n.toNat).state = 0) ∧
        (∀ h rest, next = 0 → ch.heads = h :: rest → (t.chan k.val n.toNat).head = h.at_ ∧ (t.chan k.val n.toNat).by_ = h.by_ ∧
          (t.chan k.val n.toNat).after = h.after ∧ (t.chan k.val n.toNat).heads = rest ∧ (t.chan k.val n.toNat).state = 1) ∧
        (uirq = true → y.ctl.uipend = (u.ctx o).ctl.uipend ||| BitVec.ofNat 32 (2 ^ (ch.map.toNat % 16))) ∧
        (uirq = false → y = u.ctx o)) ∧
    (∀ next, (doRecord (s.chanWho k.val ch) ch.head).go s = (.ok (.done next false), u) → ch.stop = true → ch.heads = [] →
      Ends s o (.copyRecord k n) fun t y => t.mem = u.mem ∧ y = u.ctx o ∧
        t.chan k.val n.toNat = { ch with done := ch.done + 1, state := 0, stop := false }) ∧
    ((doRecord (s.chanWho k.val ch) ch.head).go s = (.ok .stopped, u) → ch.heads = [] → ch.stop = false →
      Ends s o (.copyRecord k n) fun t y => t.mem = u.mem ∧ t.chan k.val n.toNat = { ch with state := 0 } ∧ y = u.ctx o) ∧
    (∀ (f : Trap) (v : State), (doRecord (s.chanWho k.val ch) ch.head).go s = (.error f, u) →
      (let w := u.engineWrite (u.chanWho k.val ch) (ch.head + 12) (clean (bytesOf 4 (2 + 256 * f.cause.code)))
       w = .ok v ∨ ((∃ e, w = .error e) ∧ v = u)) →
      (v.ctx o).act = .ready → (v.ctx o).causes = [] →
      Ends s o (.copyRecord k n) fun t y => t.mem = v.mem ∧ (t.chan k.val n.toNat).state = 2 ∧ (t.chan k.val n.toNat).heads = [] ∧
        (t.chan k.val n.toNat).cause = BitVec.ofNat 8 f.cause.code ∧ y.causes = [⟨{ f with addr := ch.head }, false⟩])

/-- The chunks of at most 4,096 bytes of a run, in ascending order. -/
def Sys2Proof.Claims.chunks (src dst : Word) (n : Nat) : List (Word × Word × Nat) :=
  (List.range ((n + 4095) / 4096)).map fun j =>
    (src + BitVec.ofNat 64 (4096 * j), dst + BitVec.ofNat 64 (4096 * j), min 4096 (n - 4096 * j))

/-- Runs of bytes are copied one after another, each read before it is written (08 R194). -/
def Sys2Proof.Claims.Copied (w : Who) : List (Word × Word × Nat) → State → State → Prop
  | [], s, t => t = s
  | (src, dst, n) :: l, s, t => ∃ b s1 s2, (emRead w src n).go s = (.ok b, s1) ∧ (emWrite w dst b).go s1 = (.ok (), s2) ∧ Copied w l s2 t

/-- Runs of bytes are written one after another. -/
def Sys2Proof.Claims.Stored (w : Who) : List (Word × List PByte) → State → State → Prop
  | [], s, t => t = s
  | (dst, b) :: l, s, t => ∃ s1, (emWrite w dst b).go s = (.ok (), s1) ∧ Stored w l s1 t

/-- Runs of bytes are read one after another. -/
def Sys2Proof.Claims.Fetched (w : Who) : List (Word × Nat) → State → List (List PByte) → State → Prop
  | [], s, l, t => l = [] ∧ t = s
  | (src, n) :: r, s, l, t => ∃ b m s1, (emRead w src n).go s = (.ok b, s1) ∧ Fetched w r s1 m t ∧ l = b :: m

/-- The address of row `i` of a record's side. -/
def Sys2Proof.Claims.rowAt (a : Word) (stride i : Nat) : Word := a + BitVec.ofNat 64 (i * stride)

/-- What a transform other than the plain copy writes, and where, of the rows it has read (08 R192, R193). -/
def Sys2Proof.Claims.transformed (r : Halyard) (rows : List (List PByte)) : Plan → List (Word × List PByte)
  | .copy => []
  | .convert f t => (rows.zipIdx).map fun e => (Claims.rowAt r.dst r.dstStride e.2,
      elBytes t.bytes ((elems f.bytes (r.rowBytes / f.bytes) e.1).map fun x => (convert f t (rndOf r.rndCode) r.sat x.1, x.2)))
  | .transpose f => (List.range (r.rowBytes / f.bytes)).map fun j => (Claims.rowAt r.dst r.dstStride j,
      rows.flatMap fun b => (b.drop (j * f.bytes)).take f.bytes)
  | .expand => (rows.zipIdx).map fun e => (Claims.rowAt r.dst r.dstStride e.2,
      e.1 ++ List.replicate (r.dstStride - r.rowBytes) (0, none))
  | .assay a b => ((rows.zipIdx).map fun e => (Claims.rowAt r.dst r.dstStride e.2, e.1)) ++
      [(r.dst + BitVec.ofNat 64 (codeBytes a b + 128 * nBlocks a b),
        elBytes 4 ((List.range (gangK (gangOf a b))).map (assayOf a b rows.flatten)))]

/-- 08 R191–R194, R196: a record is stopped at exactly when its own bit is 0. One that passes its checks moves its data: a copy
row by row in chunks, each read before it is written; another transform writes what it makes of the rows. Then the stamp is written
and the status word, with the own bit cleared and status 1, and the chain goes on at `next`. -/
def Sys2Proof.Claims.RecordWorks : Prop :=
  ∀ (w : Who) (at_ : Word) (s : State),
    let flagsOf (b : List PByte) : List PByte := (b.drop 8).take 8
    (∀ u, (doRecord w at_).go s = (.ok .stopped, u) ↔
      ∃ b, (emRead w at_ 64).go s = (.ok b, u) ∧ tagOf (flagsOf b) = none ∧ valOf (flagsOf b) % 2 = 0) ∧
    (∀ (b : List PByte) (p : Plan) (s1 s2 s3 u : State),
      let r := Halyard.ofBytes b
      (emRead w at_ 64).go s = (.ok b, s1) → tagOf b = none → valOf (flagsOf b) % 2 = 1 → tagOf (flagsOf b) = none →
      r.misaligned at_ = false → r.plan = some p → r.overlapBad p = false → r.rows ≠ 0 → r.rowBytes ≠ 0 →
      (∃ l, s1.engineTargets w .read r.src (hullLen r.rows r.srcStride r.rowBytes) = .ok l) →
      (∃ l, s1.engineTargets w .write r.dst (r.dstLen p + p.assayLen) = .ok l) →
      (∃ l, s1.engineTargets w .write r.stampAddr (if r.stamp then 8 else 0) = .ok l) →
      ((p = .copy ∧ Copied w ((List.range r.rows).flatMap fun i =>
          chunks (rowAt r.src r.srcStride i) (rowAt r.dst r.dstStride i) r.rowBytes) s1 s2) ∨
        (p ≠ .copy ∧ ∃ rows v, Fetched w ((List.range r.rows).map fun i => (rowAt r.src r.srcStride i, r.rowBytes)) s1 rows v ∧
          Stored w (transformed r rows p) v s2)) →
      Stored w (if r.stamp then [(r.stampAddr, clean (bytesOf 8 r.stampValue.toNat))] else []) s2 s3 →
      Stored w [(at_ + 8, clean (bytesOf 8 (valOf (flagsOf b) % 2 ^ 32 - 1 + 2 ^ 32)))] s3 u →
      (doRecord w at_).go s = (.ok (.done r.next r.uirq), u))

/-- 08 R191–R194, R196, R198: a record whose own bit is 0 ends the chain; any other that passes its checks moves its data,
writes its stamp and its status word, counts, and the chain goes on; a fault stops the channel. The model's own choices in it:
log 33, 50, 51, 103. -/
def Obligations.CopyRecords : Prop :=
  Claims.RecordChain ∧ Claims.RecordWorks

/-- What a walker command went through up to its end: the checks, the lock taken, its work answering `code`, the launch still
running, the lock released. -/
def Sys2Proof.Claims.WalkerWorks (s : State) (k : Nat) (q : WkCmd) (code : Nat) (u : State) : Prop :=
  ∃ s1 s2 s3, (preCheck (s.engine q.ctx) k q).go s = (.ok .lock, s1) ∧
    (takeLock (s.engine q.ctx) k q).go s1 = (.ok true, s2) ∧ s2.goesOn (s.engine q.ctx).hall = true ∧
    (walkerWork (s.engine q.ctx) k q).go s2 = (.ok code, s3) ∧ s3.goesOn (s.engine q.ctx).hall = true ∧ u = s3.unlock (s.engine q.ctx) q

/-- 09 R217, R218, R228: a walker command that gets its tree's lock does its work, releases the lock and ends with a code, which
the walker and the issuer's WKQ word keep; one that finds the lock taken waits and tries again. -/
def Sys2Proof.Claims.WalkerCommandsRun : Prop :=
  let closes (u t : State) (k : Nat) (q : WkCmd) (code : Nat) : Prop :=
    t.mem = u.mem ∧ (t.cluster k).walker = { (u.cluster k).walker with
        running := none, waiting := false, last := BitVec.ofNat 8 code, done := ((u.cluster k).walker.done + 1) % 2 ^ 64 } ∧
      ((u.ctx q.ctx).act ≠ .free → (t.ctx q.ctx).wkEnded = (u.ctx q.ctx).wkEnded + 1 ∧
        (t.ctx q.ctx).wkLast = BitVec.ofNat 8 code ∧ (t.ctx q.ctx).regs = (u.ctx q.ctx).regs ∧
        (t.ctx q.ctx).ctl.uipend = (if q.uirq then (u.ctx q.ctx).ctl.uipend ||| 0x20000 else (u.ctx q.ctx).ctl.uipend))
  (∀ (s u : State) (k : CluNo) (q : WkCmd) (rest : List WkCmd) (code : Nat) (w : Walker),
    let s0 := s.modWalker k.val fun x => { x with running := some q, queue := rest, tree := q.a, pos := 0 }
    (s.cluster k.val).walker = w → w.running = none → w.queue = q :: rest → s.fenced q.ctx q.after = false →
    0 < code → code < 256 → WalkerWorks s0 k.val q code u →
    (q.op = .wkapp → ∃ t, exec (.wkappRun k) s = .next t ∧ closes u t k.val q code) ∧
    (q.op = .wkwalk → ∃ t, exec (.wkwalkRun k) s = .next t ∧ closes u t k.val q code) ∧
    (∀ lvl, q.op = .wkfix lvl → ∃ t, exec (.wkfixRun k) s = .next t ∧ closes u t k.val q code)) ∧
  (∀ (s u : State) (k : CluNo) (q : WkCmd) (code : Nat),
    (s.cluster k.val).walker.running = some q → (s.cluster k.val).walker.waiting = true → 0 < code → code < 256 →
    WalkerWorks (s.modWalker k.val fun x => { x with waiting := false }) k.val q code u →
    ∃ t, exec (.walkerLockRetry k) s = .next t ∧ closes u t k.val q code) ∧
  (∀ (s s1 s2 : State) (k : CluNo) (q : WkCmd) (rest : List WkCmd),
    let s0 := s.modWalker k.val fun x => { x with running := some q, queue := rest, tree := q.a, pos := 0 }
    let i : Instr := match q.op with | .wkapp => .wkappRun k | .wkwalk => .wkwalkRun k | .wkfix _ => .wkfixRun k
    (s.cluster k.val).walker.running = none → (s.cluster k.val).walker.queue = q :: rest → s.fenced q.ctx q.after = false →
    (preCheck (s0.engine q.ctx) k.val q).go s0 = (.ok .lock, s1) → (takeLock (s0.engine q.ctx) k.val q).go s1 = (.ok false, s2) →
    ∃ t, exec i s = .next t ∧ t.mem = s2.mem ∧ t.ctxs = s2.ctxs ∧
      (t.cluster k.val).walker = { (s2.cluster k.val).walker with waiting := true }) ∧
  (∀ (w : Who) (k : Nat) (q : WkCmd) (s s1 : State) (v : Nat), (emWord w (q.a + 0x58)).go s = (.ok v, s1) →
    (v ≠ 0 → ∃ s2, (takeLock w k q).go s = (.ok false, s2) ∧ s2.mem = s1.mem) ∧
    (v = 0 → ∀ s2, (emWrite w (q.a + 0x58) (clean (bytesOf 8 (1 + k)))).go s1 = (.ok (), s2) →
      (takeLock w k q).go s = (.ok true, s2)))

/-- 09 R218, R219, R225, R227: the work under the lock. A header that fails R212 ends BADTREE; WKAPP of more than 4,096 keys, and WKFIX
of a node that is not there or covers no full leaf, end BADARG and of none DONE, the tree unchanged; WKAPP at capacity ends FULL, and
one key goes to its leaf's next slot, with the leaf's count and the header's keys; a WKWALK with a reserved register value ends BADREG,
and one of a tree of no keys writes an index list of zeros and a status block of DONE; WKFIX of a leaf writes the summary of its rows. -/
def Sys2Proof.Claims.WalkerWork : Prop :=
  ∀ (w : Who) (k : Nat) (q : WkCmd) (h : List Nat) (s s0 : State), (emWords w q.a 16).go s = (.ok h, s0) →
    let word (i : Nat) : Nat := (h[i]?).getD 0
    let n := word 0
    let dk := word 1 % 2 ^ 16
    let dv := word 1 / 2 ^ 16 % 2 ^ 16
    let depth := word 1 / 2 ^ 32 % 2 ^ 4
    let t := treeOf q.a h
    let ends (c : Nat) (u : State) : Prop := (walkerWork w k q).go s = (.ok c, u)
    ((dk % 32 ≠ 0 ∨ dk < 32 ∨ 256 < dk ∨ dv % 32 ≠ 0 ∨ dv < 32 ∨ 256 < dv ∨ depth = 0 ∨ 8 < depth ∨
        32 * 16 ^ depth < n ∨ ∃ i ≤ depth, word (2 + i) % 64 ≠ 0) →
      (q.op ≠ .wkwalk → ends 6 s0) ∧
      (q.op = .wkwalk → ∀ u, Stored w [(q.c, clean (bytesOf 4 6 ++ List.replicate 28 0 ++ bytesOf 8 n ++ List.replicate 24 0))] s0 u →
        ends 6 u)) ∧
    (headerOk h = true → q.op = .wkapp →
      (4096 < q.c.toNat → ends 5 s0) ∧
      (q.c = 0 → ends 1 s0) ∧
      (0 < q.c.toNat → q.c.toNat ≤ 4096 → n = 32 * 16 ^ depth → s0.goesOn w.hall = true →
        ∀ u, Stored w [(q.a, clean (bytesOf 8 n))] s0 u → ends 4 u) ∧
      (q.c = 1 → n < 32 * 16 ^ depth → n % 32 ≠ 31 → s0.goesOn w.hall = true →
        ∀ (u0 u1 u2 u3 u4 : State) (key val : List PByte),
          let leaf : Word := t.node 0 (n / 32)
          (if n % 32 = 0 then u0 = s0 else (emWord w leaf).go s0 = (.ok (n % 32), u0)) →
          (emRead w q.b (2 * dk)).go u0 = (.ok key, u1) →
          Stored w [(t.keyRow (n / 32) (n % 32), key)] u1 u2 →
          (emRead w (q.b + BitVec.ofNat 64 (2 * dk)) (2 * dv)).go u2 = (.ok val, u3) →
          Stored w [(t.valRow (n / 32) (n % 32), val), (leaf, clean (bytesOf 8 (n % 32 + 1)))] u3 u4 →
          ∀ u, Stored w [(q.a, clean (bytesOf 8 (n + 1)))] (u4.modWalker k fun x => { x with pos := 1 }) u → ends 1 u)) ∧
    (headerOk h = true → ∀ lvl, q.op = .wkfix lvl →
      (depth < lvl.toNat ∨ n / 32 ≤ q.b.toNat * 16 ^ lvl.toNat → ends 5 s0) ∧
      (lvl = 0 → q.b.toNat < n / 32 → ∀ (x : Pennant) (keys vals : List (List El)) (u1 u2 u3 u : State),
        (readNode w t 0 q.b.toNat (n / 32)).go s0 = (.ok x, u1) → (readKeys w t q.b.toNat 32).go u1 = (.ok keys, u2) →
        (readVals w t q.b.toNat 32).go u2 = (.ok vals, u3) →
        let y := fixSummary dk dv keys vals
        (writeNode w t 0 q.b.toNat { x with sum := y }).go (u3.modWalker k fun x => { x with pos := 32 }) = (.ok (), u) →
        ends 1 u ∧ y.count = keys.length ∧
          ∀ i < dk, ((y.ks[i]?).map (·.1)) = some (Fmt.fp32.encode .rne false (FV.sum (keys.map fun r => Fmt.fp32.decode ((r[i]?).getD (0, none)).1))))) ∧
    (headerOk h = true → q.op = .wkwalk →
      ((q.mode.toNat / 4 % 4 = 3 ∨ 32 < q.listmax.toNat % 64) →
        ∀ u, Stored w [(q.c, clean (bytesOf 4 3 ++ List.replicate 28 0 ++ bytesOf 8 n ++ List.replicate 24 0))] s0 u → ends 3 u) ∧
      (q.mode.toNat / 4 % 4 ≠ 3 → q.listmax.toNat % 64 ≤ 32 → n = 0 → ∀ (y : List El) (u1 u : State),
        let e := 32 * (if q.listmax.toNat % 64 = 0 then 32 else q.listmax.toNat % 64)
        (readQuery w q.b dk).go s0 = (.ok y, u1) →
        Stored w [(q.c + 0x40, clean (List.replicate (2 * e) 0)),
          (q.c, clean (bytesOf 4 1 ++ List.replicate 28 0 ++ bytesOf 8 0 ++ bytesOf 4 0xFF800000 ++ List.replicate 20 0))] u1 u → ends 1 u))

/-- 09 R221, R222: the opening test of a node. In the mode L2 a node whose nearest key lies at least τ away is pruned; one whose
radius is at most θ times that distance may be summarised at or above the least level. In the mode DOT a node whose upper bound is at
most mrun − τ is pruned; one whose spread is at most θ may be summarised; a node not pruned raises mrun to its lower bound. -/
def Sys2Proof.Claims.OpeningTest : Prop :=
  ∀ (o : Opening) (lvl : Nat) (x : Summary) (mrun : Nat),
    let r := Fmt.fp32.decode x.radius.1
    let dlo := Fmt.fp32.decode (normRound .rdn (List.zipWith FV.sub o.q (fvs x.c)))
    ((elTag x.c).isSome = true → o.test lvl x mrun = (.open_, mrun)) ∧
    ((elTag x.c).isSome = false → o.l2 = true →
      (o.tau.le (FV.sub dlo r) = true → o.test lvl x mrun = (.prune, mrun)) ∧
      (o.tau.le (FV.sub dlo r) = false → r.le (o.theta.mul dlo) = true → 1 ≤ lvl → o.lmin ≤ lvl →
        o.test lvl x mrun = (.summarise, mrun)) ∧
      (o.tau.le (FV.sub dlo r) = false → (r.le (o.theta.mul dlo) = false ∨ lvl = 0 ∨ lvl < o.lmin) →
        o.test lvl x mrun = (.open_, mrun))) ∧
    ((elTag x.c).isSome = false → o.l2 = false →
      let g := FV.sum (List.zipWith FV.mul o.q (fvs x.c))
      let qr := o.qn.mul r
      let u := Fmt.fp32.decode (Fmt.fp32.encode .rup false (FV.add .rne g qr))
      let low := Fmt.fp32.encode .rdn false (FV.add .rdn g qr.neg)
      let spread := Fmt.fp32.decode (Fmt.fp32.encode .rup false qr)
      let far := u.le (FV.sub (Fmt.fp32.decode mrun) o.tau)
      (far = true → o.test lvl x mrun = (.prune, mrun)) ∧
      (far = false → spread.le o.theta = true → 1 ≤ lvl → o.lmin ≤ lvl → o.test lvl x mrun = (.summarise, Fmt.fp32.fmax mrun low)) ∧
      (far = false → (spread.le o.theta = false ∨ lvl = 0 ∨ lvl < o.lmin) →
        o.test lvl x mrun = (.open_, Fmt.fp32.fmax mrun low)))

/-- 18 R315–R320, R322: a coordinate command makes its checks and then goes on by one element at a time; done, it counts as ended
and may interrupt; one that faults is recorded as a deferred fault of its unit and the later commands of the context are
discarded. -/
def Sys2Proof.Claims.CoordinateCommandsRun : Prop :=
  ∀ (s u : State) (c : CtxNo) (q : CrdCmd) (rest : List CrdCmd),
    let x := s.ctx c.val
    let i : Instr := match q.op with | .wget => .wgetRun c | .wput => .wputRun c | .wexp => .wexpRun c
    x.crd = q :: rest → s.fenced c.val q.after = false →
    (∀ r, (crdWork (s.engine c.val) c.val q x.crdJob).go s = (.ok (some r), u) → (u.ctx c.val).crd = q :: rest →
      Ends s c.val i fun t y => t.mem = u.mem ∧ y = { u.ctx c.val with crdJob := some r }) ∧
    ((crdWork (s.engine c.val) c.val q x.crdJob).go s = (.ok none, u) → (u.ctx c.val).crd = q :: rest →
      Ends s c.val i fun t y => t.mem = u.mem ∧ y.crd = rest ∧ y.crdJob = none ∧ y.crdEnded = (u.ctx c.val).crdEnded + 1 ∧ y.regs = (u.ctx c.val).regs ∧
        y.ctl.uipend = (if q.uirq then (u.ctx c.val).ctl.uipend ||| 0x40000 else (u.ctx c.val).ctl.uipend)) ∧
    (∀ (j : CrdJob) (e : Nat) (v : State), x.crdJob = some (j, e) →
      (crdElement (s.engine c.val) c.val q j e).go s = (.ok (), v) →
      (crdWork (s.engine c.val) c.val q x.crdJob).go s = (.ok (if e + 1 < q.count then some (j, e + 1) else none), v)) ∧
    (∀ f, (crdWork (s.engine c.val) c.val q x.crdJob).go s = (.error f, u) → (u.ctx c.val).act = .ready → (u.ctx c.val).dfaults = [] →
      Ends s c.val i fun t y => t.mem = u.mem ∧ y.crd = [] ∧ y.dfaults = [⟨.crd, u.cycle, f⟩]) ∧
    (∀ t ix n, coordBad t ix n = none ↔ (∀ d < t.rank, (ix[d]?).getD 0 < t.dim d) ∧ (∀ d < 4, t.rank ≤ d → (ix[d]?).getD 0 = 0) ∧
      (ix[t.rank - 1]?).getD 0 + n ≤ t.dim (t.rank - 1))

/-- 09 R217–R219, R221, R222, R225, R227, R228, 18 R315–R320: the opening test in both modes, the lock, the walker's commands
and their work, and the coordinate commands. The model's own choices in it: log 47, 48, 49. -/
def Obligations.WalkerAndCoordinateCommands : Prop :=
  Claims.OpeningTest ∧ Claims.WalkerCommandsRun ∧ Claims.WalkerWork ∧ Claims.CoordinateCommandsRun

/-! ## Link and collective engines (23 R366–R379) -/

end

namespace Sys2Proof.Claims

open Sys2Proof Sys2Proof.Machine

/-- COL command `d` of a context has ended with a status: it is gone, it counts, a status other than DONE is noted (23 R369). -/
def ColEnded (x y : Ctx) (d : ColCmd) (status : Nat) : Prop :=
  y.col = x.col.filter (fun e => e.id ≠ d.id) ∧ y.colEnded = x.colEnded + 1 ∧ y.regs = x.regs ∧
  y.colBad = (if status = 1 then x.colBad else x.colBad + 1) ∧
  y.colFirstBad = (if status = 1 ∨ x.colBad ≠ 0 then x.colFirstBad else status) ∧
  y.ctl.uipend = (if d.uirq then x.ctl.uipend ||| BitVec.ofNat 32 (2 ^ d.op.pendBit) else x.ctl.uipend)

/-- The COL command whose turn it is (23 R366). -/
def ColNext (s : State) (c : Nat) (d : ColCmd) : Prop :=
  s.colHead c = some d ∧ d ∈ (s.ctx c).col

/-- Whole bytes `b` written at `va` by an engine, whose launch goes on. -/
def Wrote (s t : State) (w : Who) (va : Word) (b : List PByte) : Prop :=
  s.engineWrite w va b = .ok t ∧ (s.goesOn w.hall = true → t.goesOn w.hall = true)

/-- Blocks `i`, `i + 1`, … of a CXPK: each of 4,096 bytes is coded or stored raw, then its header is written (23 R373). -/
def Packed (w : Who) (d : ColCmd) (no : Nat) (slot : CxSlot) : Nat → Nat → State → State → Prop
  | 0, _, s, t => t = s
  | n + 1, i, s, t => ∃ b u1 u2 u3, s.engineRead w (d.a + BitVec.ofNat 64 (4096 * i)) 4096 = .ok (u1, b) ∧
      Wrote u1 u2 w (d.b + BitVec.ofNat 64 (4096 * i)) (codeBlock slot b).2 ∧
      Wrote u2 u3 w (d.c + BitVec.ofNat 64 (16 * i)) (taggedBytes 16 ((codeBlock slot b).1 + no * 2 ^ 16 + slot.gen.toNat * 2 ^ 24 +
        b.length * 2 ^ 32 + (crc32c (b.map (·.1))).toNat * 2 ^ 64) (tagOf b)) ∧ Packed w d no slot n (i + 1) u3 t

/-- Blocks `i`, `i + 1`, … of a CXUN, none of which is poisoned: each is expanded by its header (23 R374). -/
def Unpacked (w : Who) (d : ColCmd) : Nat → Nat → State → State → Prop
  | 0, _, s, t => t = s
  | n + 1, i, s, t => ∃ hb h p b u1 u2 u3, s.engineRead w (d.c + BitVec.ofNat 64 (16 * i)) 16 = .ok (u1, hb) ∧ readHeader hb = some h ∧
      u1.engineRead w (d.a + BitVec.ofNat 64 (4096 * i)) (if h.clen = 0 then h.ulen else h.clen) = .ok (u2, p) ∧
      expandBlock (u1.cxslot h.slot) h p = .ok b ∧ Wrote u2 u3 w (d.b + BitVec.ofNat 64 (4096 * i)) b ∧ Unpacked w d n (i + 1) u3 t

end Sys2Proof.Claims

section

open Sys2Proof Sys2Proof.Machine Sys2Proof.Claims

/-- 23 R367, R368: LKSEND_RUN sends the bytes at its address as one message to the peer its route names and ends DONE; operands
the engine refuses are a deferred fault and the status FAULT. -/
def Sys2Proof.Claims.LinkSends : Prop :=
  ∀ (s u : State) (c : CtxNo) (d : ColCmd) (port : BitVec 4) (b : List PByte),
    let x := s.ctx c.val
    ColNext s c.val d → d.op = .lksend port →
    (d.linkBad = none → s.engineRead (s.engine c.val) d.a d.b.toNat = .ok (u, b) →
      Ends s c.val (.lksendRun c) fun t y => t.mem = s.mem ∧ ColEnded x y d 1 ∧
        t.out = s.out ++ [.message (d.c.extractLsb' 0 16)
          ⟨false, port, Config.pkgId, s.partNo c.val, d.c.extractLsb' 16 12, x.hall.getD 0, b.map (·.1), msgPoison b,
            ⟨port.toNat / 4 % 4, Nat.mod_lt _ (by decide)⟩, s.fab.epoch, 0⟩]) ∧
    (∀ f, d.linkBad = some f → x.act = .ready → x.dfaults = [] → Ends s c.val (.lksendRun c) fun t y =>
      t.mem = s.mem ∧ t.out = s.out ∧ y.dfaults = [⟨.col, s.cycle, f⟩] ∧ y.colEnded = x.colEnded + 1 ∧
      y.colBad = x.colBad + 1 ∧ (x.colBad = 0 → y.colFirstBad = 11) ∧ y.col = (x.col.filter fun e => e.id < d.id)) ∧
    (d.linkBad = none ↔ d.a.toNat % 64 = 0 ∧ 1 ≤ d.b.toNat ∧ d.b.toNat ≤ 2 ^ 24 ∧ d.c.toNat < 2 ^ 28)

/-- 23 R367, R368: a receive is posted with the key its route names; a held message that matches is given to it, the oldest
first; a message that arrives goes to the oldest posting that matches, else it is held. LKRECV writes the bytes, LKRADD adds. -/
def Sys2Proof.Claims.LinkReceives : Prop :=
  (∀ (s : State) (c : Nat) (d : ColCmd),
    let x := s.ctx c
    let key : RecvKey := ⟨false, d.op.port, d.c.extractLsb' 0 16, s.partNo c, d.c.extractLsb' 16 12, 0⟩
    let box := s.die (d.op.port.toNat / 4)
    x.act ≠ .free → x.col = [d] → d.op.posts = true → d.want = none → d.msg = none → d.lost = false → s.fenced c d.after = false →
    (recvCheck (s.engine c) d).go s = (.ok (), s) → (∀ m ∈ box.lost, LostMark.isFor m key = false) →
    ((∀ m ∈ box.held, msgKey m ≠ key) →
      ((s.colSettle c).ctx c).col = [{ d with want := some key, postedAt := s.fresh }] ∧ (s.colSettle c).mem = s.mem) ∧
    (∀ l m r port u, box.held = l ++ m :: r → (∀ n ∈ l, msgKey n ≠ key) → msgKey m = key → m.bytes.length = d.b.toNat →
      d.op = .lkrecv port →
      let s1 := ((s.tick.modCol c d.id fun q => { q with want := some key, postedAt := s.fresh }).modDie (d.op.port.toNat / 4) fun z =>
        { z with held := l ++ r }).modCol c d.id fun q => { q with msg := some m }
      Wrote s1 u (s.engine c) d.a (msgBytes m) → (u.ctx c).act ≠ .free → (u.ctx c).col = (s1.ctx c).col →
      (s.colSettle c).mem = u.mem ∧ ColEnded (u.ctx c) ((s.colSettle c).ctx c) d 1)) ∧
  (∀ (s u : State) (c : CtxNo) (d : ColCmd) (die : DieNo) (m : Message) (port : BitVec 4),
    let x := s.ctx c.val
    let s1 := (if m.net then s else s.seeEpoch m.peer m.epoch).modCol c.val d.id fun q => { q with msg := some m }
    x.act ≠ .free → x.col = [d] → d.want = some (msgKey m) → d.msg = none → d.lost = false → s.fenced c.val d.after = false →
    oldest (s.waiting (msgKey m)) = some (c.val, d.id) → m.bytes.length = d.b.toNat →
    (u.ctx c.val).act ≠ .free → (u.ctx c.val).col = (s1.ctx c.val).col →
    (d.op = .lkrecv port → Wrote s1 u (s1.engine c.val) d.a (msgBytes m) →
      Ends s c.val (.messageArrival die m) fun t y => t.mem = u.mem ∧ ColEnded (u.ctx c.val) y d 1) ∧
    (∀ f old u1, d.op = .lkradd port f → s1.engineRead (s1.engine c.val) d.a (4 * (d.b.toNat / (f.bits / 8))) = .ok (u1, old) →
      let n := d.b.toNat / (f.bits / 8)
      Wrote u1 u (s1.engine c.val) d.a (elBytes 4 (List.zipWith
        (fun a e => (Fmt.fp32.fadd .rne a.1 (convert f .fp32 .rne false e.1), tmeet a.2 e.2))
        (elems 4 n old) (elems (f.bits / 8) n (msgBytes m)))) →
      Ends s c.val (.messageArrival die m) fun t y => t.mem = u.mem ∧ ColEnded (u.ctx c.val) y d 1)) ∧
  (∀ (s : State) (die : DieNo) (m : Message), s.waiting (msgKey m) = [] →
    heldBytes ((s.die die.val).held ++ [m]) ≤ Config.holdBytes →
    ∃ t, exec (.messageArrival die m) s = .next t ∧ (t.die die.val).held = (s.die die.val).held ++ [m] ∧
      (t.die die.val).lost = (s.die die.val).lost ∧ t.mem = s.mem ∧ t.ctxs = s.ctxs)

/-- 23 R367, R368: what the link commands send and receive. The model's own choices in it: log 55, 57, 58. -/
def Obligations.LinkMessages : Prop :=
  Claims.LinkSends ∧ Claims.LinkReceives

/-- 23 R371–R374: CXTAB loads a table whose codes are not oversubscribed into an idle slot under its generation; CXPK codes each
block of 4,096 bytes or stores it raw and writes its header; CXUN expands each block by its header, and a block whose table is gone
or that is too large stops it: a deferred fault and the status FAULT (23 R369). A slot in use, a table of the same generation and one
that oversubscribes end CXTAB with BUSY, SAME and BADTAB. -/
def Sys2Proof.Claims.CompressionRuns : Prop :=
  ∀ (s : State) (c : CtxNo) (d : ColCmd),
    let x := s.ctx c.val
    let w := s.engine c.val
    ColNext s c.val d → x.act ≠ .free →
    (∀ (slot : BitVec 4) (gen : BitVec 8) (ws : List Nat) (u : State), d.op = .cxtab slot gen → d.a.toNat % 64 = 0 →
      (s.cxInUse slot.toNat ≠ 0 → Ends s c.val (.cxtabRun c) fun t y => t.fab = s.fab ∧ ColEnded x y d 2) ∧
      (s.cxInUse slot.toNat = 0 →
      ((s.cxslot slot.toNat).valid = true → (s.cxslot slot.toNat).gen = gen → Ends s c.val (.cxtabRun c) fun t y =>
        t.fab = s.fab ∧ ColEnded x y d 4) ∧
      (((s.cxslot slot.toNat).valid = true → (s.cxslot slot.toNat).gen ≠ gen) → (emWords w d.a 16).go s = (.ok ws, u) →
        let table : BitVec 1024 := BitVec.ofNat 1024 (ws.foldr (fun v a => v + 2 ^ 64 * a) 0)
        (oversubscribed table = true → Ends s c.val (.cxtabRun c) fun t y => t.fab = s.fab ∧ ColEnded x y d 3) ∧
        (oversubscribed table = false → Ends s c.val (.cxtabRun c) fun t y => ColEnded x y d 1 ∧ t.mem = s.mem ∧
          t.cxslot slot.toNat = { s.cxslot slot.toNat with gen := gen, valid := true, table := table })))) ∧
    (∀ (slot : BitVec 4) (n : Nat) (u : State), d.op = .cxpk slot n → d.a.toNat % 4096 = 0 → d.b.toNat % 4096 = 0 →
      d.c.toNat % 16 = 0 → Packed w d slot.toNat (s.cxslot slot.toNat) n 0 s u →
      (u.ctx c.val).act ≠ .free → (u.ctx c.val).col = x.col → Ends s c.val (.cxpkRun c) fun t y => t.mem = u.mem ∧ ColEnded (u.ctx c.val) y d 1) ∧
    (∀ (n : Nat) (u : State), d.op = .cxun n → d.a.toNat % 4096 = 0 → d.b.toNat % 4096 = 0 → d.c.toNat % 16 = 0 →
      (d.a = d.b ∨ d.a.toNat + 4096 * n ≤ d.b.toNat ∨ d.b.toNat + 4096 * n ≤ d.a.toNat) → Unpacked w d n 0 s u →
      (u.ctx c.val).act ≠ .free → (u.ctx c.val).col = x.col →
      Ends s c.val (.cxunRun c) fun t y => t.mem = u.mem ∧ ColEnded (u.ctx c.val) y d 1) ∧
    (∀ (n st : Nat) (f : Trap) (u : State), d.op = .cxun n → d.a.toNat % 4096 = 0 → d.a = d.b → d.c.toNat % 16 = 0 →
      (unpackBlocks w d n 0 1).go s = (.ok (st, some f), u) → (u.ctx c.val).act = .ready → (u.ctx c.val).dfaults = [] →
      (u.ctx c.val).col = x.col → Ends s c.val (.cxunRun c) fun t y => t.mem = u.mem ∧ y.dfaults = [⟨.col, u.cycle, f⟩] ∧
        (f.cause = .staleTable ∨ f.cause = .expandSize) ∧ y.colEnded = (u.ctx c.val).colEnded + 1 ∧
        ((u.ctx c.val).colBad = 0 → y.colFirstBad = 11))

/-- 23 R371–R374: a block that CXPK codes expands to the bytes it held: what a table of codes packs, the same table unpacks. -/
def Sys2Proof.Claims.BlocksExpandToThemselves : Prop :=
  ∀ (slot : CxSlot) (b : List Byte) (n : Nat), 0 < b.length → b.length ≤ 4096 → oversubscribed slot.table = false →
    let r := codeBlock slot (clean b)
    readHeader (taggedBytes 16 (r.1 + n % 16 * 2 ^ 16 + slot.gen.toNat * 2 ^ 24 + b.length * 2 ^ 32 + (crc32c b).toNat * 2 ^ 64) none) =
      some ⟨r.1, n % 16, slot.gen.toNat, b.length, (crc32c b).toNat⟩ ∧
    expandBlock slot ⟨r.1, n % 16, slot.gen.toNat, b.length, (crc32c b).toNat⟩ r.2 = .ok (clean b)

/-- 23 R371–R374: the compression commands, and that a coded block expands to the bytes it held. The model's own choices in
it: log 60, 61, 62, 63. -/
def Obligations.CompressionRunsAndInverts : Prop :=
  Claims.CompressionRuns ∧ Claims.BlocksExpandToThemselves

/-- 23 R376–R379: a collective carries out its current step: SEND sends the buffer's elements in the payload format, RECV and
RECVADD take their message, and the next step follows or the command ends; in reduced service the switch's sum replaces the
buffer. The model's own choices in it: log 60, 63, 64. -/
def Obligations.CollectivesRun : Prop :=
  (∀ (s s1 : State) (c : CtxNo) (d : ColCmd) (t : Desc) (p : CStep),
    let x := s.ctx c.val
    let w := s.engine c.val
    ColNext s c.val d → d.op = .clgo → s.mgmt.svc ≠ 1 → x.act ≠ .free → x.col = [d] →
    (clgoNow c.val d).go s = (.ok (t, p), s1) → s1.ctx c.val = x → s1.engine c.val = w → t.comp = false → d.slot = none →
    let s2 := s1.modCol c.val d.id fun _ => d
    let next (st : Nat) (v y : Ctx) : Prop :=
      (d.step + 1 < t.steps → y.col = [{ d with step := d.step + 1, bad := (if d.bad = 0 ∧ st ≠ 1 then st else d.bad)
                                                want := none, msg := none, lost := false }]) ∧
      (t.steps ≤ d.step + 1 → d.bad = 0 → ColEnded v y d st)
    (∀ (b : List PByte) (u : State), p.action = 1 → s2.engineRead w (t.buffer + BitVec.ofNat 64 p.off) (4 * (p.len / 4)) = .ok (u, b) →
      u.ctx c.val = x → Ends s c.val (.clgoSend c) fun v y => v.mem = u.mem ∧ next 1 x y ∧
        v.out = u.out ++ [.message p.key.peer ⟨p.key.net, p.key.port, Config.pkgId, p.key.part, p.key.tag, x.hall.getD 0,
          (t.fmt.encode_ (elems 4 (p.len / 4) b)).map (·.1), msgPoison (t.fmt.encode_ (elems 4 (p.len / 4) b)),
          ⟨p.key.die % 4, Nat.mod_lt _ (by decide)⟩, u.fab.epoch, p.key.addr⟩]) ∧
    (∀ (m : Message) (st : Nat) (u : State), d.want = some p.key → d.msg = some m → d.lost = false → st ≠ 0 →
      (stepRecv w t p m).go s2 = (.ok st, u) → u.ctx c.val = x →
      (p.action = 2 → Ends s c.val (.clgoRecvadd c) fun v y => v.mem = u.mem ∧ next st x y) ∧
      (p.action = 3 → Ends s c.val (.clgoRecv c) fun v y => v.mem = u.mem ∧ next st x y))) ∧
  (∀ (s u : State) (c : CtxNo) (d : ColCmd) (members : List Member),
    ColNext s c.val d → d.op = .clgo → s.mgmt.svc = 1 → (reduceWork c.val d members).go s = (.ok true, u) →
    (u.ctx c.val).act ≠ .free → (u.ctx c.val).col = (s.ctx c.val).col →
    Ends s c.val (.switchReduction c members) fun t y => t.mem = u.mem ∧ ColEnded (u.ctx c.val) y d 1)

/-! ## What the core does by itself (02 R52–R57, 03 R71, R95–R97, 07 R168–R184, 08 R208–R211) -/

end

namespace Sys2Proof.Claims

open Sys2Proof Sys2Proof.Machine

/-- A context at a bundle boundary where nothing comes before the landings due. -/
def AtBoundary (x : Ctx) : Prop := x.act = .ready ∧ x.causes = [] ∧ x.parkReq = false ∧ x.interruptDue = false

/-- The context has its late data: it is ready, its wait counted. -/
def woken (s : State) (c : Nat) : State :=
  (s.lateSample c).modCtx c fun x => { x.endLate s.cycle with act := .ready }

/-- The context whose one landing lands: a window write before the next bundle is settled against it (03 R64). -/
def lands (x : Ctx) (l : Land) (v : RVal) : Ctx :=
  { x with land := [], landed := x.landed ++ [⟨l.due, l.pos, l.issue, l.dst, v⟩] }

/-- The event ends in a state with property `P`. -/
def Ev (s : State) (i : Instr) (P : State → Prop) : Prop := ∃ t, exec i s = .next t ∧ P t

/-- Context `c` of the state after the event is `y`; memory is as before. -/
def Leaves (s : State) (c : Nat) (i : Instr) (y : Ctx) : Prop := Ev s i fun t => t.ctx c = y ∧ t.mem = s.mem

end Sys2Proof.Claims

section

open Sys2Proof Sys2Proof.Machine Sys2Proof.Claims

/-- 02 R29, R51, 03 R71: with nothing on the agenda a step issues the bundle the port holder fetches; a bundle that decodes to
one instruction runs exactly that instruction, and a halfword of zero is a bundle of nothing. An agenda item runs after its
delay. The model's own choices in it: log 1. -/
def Obligations.StepRunsDecodedInstruction : Prop :=
  (∀ (s b : State) (c : Nat) (bits : BundleBits) (len : Nat), s.agenda = [] → s.powered = true →
    let u := s.switch s.cur.val
    Turn u c b → b.codeBusy c = false → b.fetch c = .ok bits len →
    (∀ (sl : Slot) (i : Instr), decodeBundle bits = .ok ⟨.plain, [(sl, i)]⟩ → i.isNop = false →
      step s = exec i u ∧ exec (.bundleIssue u.cur) u = exec i u) ∧
    (decodeBundle bits = .ok ⟨.plain, []⟩ → step s = exec (.nop .c) u ∧ exec (.bundleIssue u.cur) u = exec (.nop .c) u) ∧
    (∀ d : Bundle, decodeBundle bits = .ok d → step s = .next (State.issueBundle (u.portReady u.cur.val) b slotMeaning c d len))) ∧
  (∀ (s : State) (d : Nat) (i : Instr) (rest : List (Nat × Instr)), s.agenda = (d, i) :: rest → s.powered = true →
    step s = exec i ({ s with agenda := rest }.advance d))

/-- 02 R52, R51: the slots of a bundle read what stood before it: two results of one bundle are both computed from the registers as
they were, whatever the order of the slots. -/
def Obligations.SlotsReadBeforeTheyWrite : Prop :=
  ∀ (s0 b : State) (c len : Nat) (o1 o2 : SRArgs), o1.pos = .s0 → o2.pos = .s1 → (b.ctx c).act = .ready → Quiet b c →
    (b.ctx c).rel = [] →
    (b.ctx c).passes o1.g → (b.ctx c).passes o2.g → o1.d ≠ 0 → o2.d ≠ 0 →
    let x := b.ctx c
    let t := State.issueBundle s0 b slotMeaning c ⟨.plain, [(.s0, .sub o1), (.s1, .add o2)]⟩ len
    ∃ q1 q2 : BitVec 4,
      let r1 : Res := ⟨x.ct + 1, 1, x.issues, .s o1.d, .s ⟨sv b c o1.a - sv b c o1.b, q1, pmeet (sp b c o1.a) (sp b c o1.b)⟩⟩
      let r2 : Res := ⟨x.ct + 1, 2, x.issues, .s o2.d, .s ⟨sv b c o2.a + sv b c o2.b, q2, pmeet (sp b c o2.a) (sp b c o2.b)⟩⟩
      (t.ctx c).fixed = insertRes r2 (insertRes r1 x.fixed) ∧ (t.ctx c).regs = x.regs ∧ (t.ctx c).ct = x.ct + 1 ∧ t.mem = b.mem

/-- 02 R52, R54, R57, 03 R71: a result reaches its register at its tick and not before; data that is not there at its tick blocks
the context, which goes on when it arrives; LANDLATE counts the wait. While the bundle at the PC would wait before it issues, what is
due at its tick stays unapplied. -/
def Sys2Proof.Claims.ResultsLand : Prop :=
  ∀ (s : State) (c : CtxNo),
    let x := s.ctx c.val
    x.seg = none → x.vac = [] →
    (∀ r : Res, AtBoundary x → s.holdsBack c.val = false → x.fixed = [r] → x.land = [] →
      (r.due ≤ x.ct → Leaves s c.val (.fixedResultLands c) ({ x with fixed := [], landed := x.landed ++ [r] }.deliver r.dst r.val)) ∧
      (x.ct < r.due → Leaves s c.val (.fixedResultLands c) x)) ∧
    (AtBoundary x → x.late x.ct = false → s.holdsBack c.val = true →
      Leaves s c.val (.fixedResultLands c) x ∧ Leaves s c.val (.landing c) x) ∧
    (∀ (l : Land) (v : RVal), AtBoundary x → x.fixed = [] → x.land = [l] →
      (l.due ≤ x.ct → l.arrived = true → l.data = some v → s.holdsBack c.val = false → Leaves s c.val (.landing c) ((lands x l v).deliver l.dst v)) ∧
      (l.due ≤ x.ct → l.arrived = false → Leaves s c.val (.landing c) { x with
        act := .blocked (.landing s.cycle), land := [{ l with since := some (l.since.getD s.cycle) }] }) ∧
      (x.ct < l.due → Leaves s c.val (.landing c) x)) ∧
    (∀ (l : Land) (v : RVal) (since : Nat), x.act = .blocked (.landing since) → x.fixed = [] → x.land = [l] → l.due ≤ x.ct →
      l.arrived = true → l.data = some v →
      let y : Ctx := { x with act := .ready, ctl := { x.ctl with
        landlate := x.ctl.landlate + BitVec.ofNat 64 (s.cycle - since) } }
      ((woken s c.val).holdsBack c.val = false → Leaves s c.val (.lateDataArrival c) ((lands y l v).deliver l.dst v)) ∧
      ((woken s c.val).holdsBack c.val = true → Leaves s c.val (.lateDataArrival c) y)) ∧
    (∀ (r1 r2 : Res) (n : SReg) (v1 v2 : SVal), AtBoundary x → x.fixed = [r1, r2] → x.land = [] → r1.due ≤ x.ct → r2.due ≤ x.ct →
      s.holdsBack c.val = false → n ≠ 0 → r1.dst = .s n → r2.dst = .s n → r1.val = .s v1 → r2.val = .s v2 → mwf .zero x.regs.s = true →
      Ev s (.fixedResultLands c) fun t => (t.ctx c.val).sreg n = v2 ∧ ∀ m, m ≠ n → (t.ctx c.val).sreg m = x.sreg m)

/-- 00 R5, 02 R45, R57: writes of s0, p0 and q0 are discarded and they read 0, true and all ones; a vector result leaves the bytes its
mask does not select; a result changes its own register only. -/
def Sys2Proof.Claims.RegistersDelivered : Prop :=
  ∀ x : Ctx,
    (∀ v : SVal, x.deliver (.s 0) (.s v) = x ∧ x.sreg 0 = ⟨0, 0, none⟩) ∧
    (∀ v : PVal, x.deliver (.p 0) (.p v) = x ∧ x.preg 0 = ⟨true, none⟩) ∧
    (∀ v : QVal, x.deliver (.q 0) (.q v) = x ∧ x.qreg 0 = ⟨BitVec.allOnes 256, none⟩) ∧
    (mwf .zero x.regs.s = true → ∀ n v m, n ≠ 0 → (x.deliver (.s n) (.s v)).sreg m = if m = n then v else x.sreg m) ∧
    (mwf .zero x.regs.p = true → ∀ n v m, n ≠ 0 → (x.deliver (.p n) (.p v)).preg m = if m = n then v else x.preg m) ∧
    (mwf .zero x.regs.v = true → ∀ n bits mask ps m,
      let y := x.deliver (.v n) (.v bits mask ps)
      (m ≠ n → y.vreg m = x.vreg m) ∧
      (∀ i < 256, ((y.vreg n).v).extractLsb' (8 * i) 8 =
        if mask.getLsbD i then bits.extractLsb' (8 * i) 8 else ((x.vreg n).v).extractLsb' (8 * i) 8)) ∧
    (∀ n v, (x.deliver (.s n) (.s v)).regs.p = x.regs.p ∧ (x.deliver (.s n) (.s v)).regs.q = x.regs.q ∧
      (x.deliver (.s n) (.s v)).regs.v = x.regs.v ∧ (x.deliver (.s n) (.s v)).regs.m = x.regs.m ∧
      (x.deliver (.s n) (.s v)).regs.x = x.regs.x ∧ (x.deliver (.s n) (.s v)).regs.bank = x.regs.bank)

/-- 00 R5, 02 R52, R54, R57, 03 R71: when a result reaches its register, and what it changes. The model's own choices in it:
log 9. -/
def Obligations.ResultsLandInRegisters : Prop :=
  Claims.RegistersDelivered ∧ Claims.ResultsLand

/-- 03 R67, R71, R95, 01 R25: 65,536 cycles after the context first blocked for it, data that is missing lands as persistent
poison and the context traps LANDING_TIMEOUT at its next bundle; TRAPADDR is the request's address and TRAPCAUSE names the
poison's tag. The model's own choices in it: log 2, 34. -/
def Obligations.LandingTimesOut : Prop :=
  ∀ (s : State) (c : CtxNo) (l : Land) (since first : Nat) (d : SReg),
    let x := s.ctx c.val
    let u := arrayUnit c.val
    let tag : Tag := mkTag u (s.nextRec u)
    x.act = .blocked (.landing since) → x.fixed = [] → x.land = [l] → l.due ≤ x.ct → l.arrived = false → l.dst = .s d → d ≠ 0 →
    l.since = some first → x.acc = [] → x.vac = [] → x.seg = none → mwf .zero x.regs.s = true →
    (s.cycle < first + 65536 → Leaves s c.val (.landingTimeout c) x) ∧
    (first + 65536 ≤ s.cycle → Ev s (.landingTimeout c) fun t =>
      let y := t.ctx c.val
      y.act = .trapWaiting ∧ y.ctl.trapaddr = l.va ∧ y.ctl.trappc = x.pc ∧ y.ctl.trapmask = 0 ∧
      y.ctl.trapcause = BitVec.ofNat 64 (0x11 + tag.toNat * 2 ^ 16 + 2 ^ 28) ∧
      (y.sreg d).p = some ⟨tag, false⟩ ∧ y.land = [] ∧ y.pc = x.pc ∧
      y.ctl.landlate = x.ctl.landlate + BitVec.ofNat 64 (s.cycle - since) ∧ t.mem = s.mem)

/-- 07 R168–R170, 05 R134: the selector gives an idle port to a ready context, the highest priority first, then the next in
rotation after the last; a running context that became unready meanwhile competes for the port again, and is charged the cycle
when the port has idled since; YIELD gives the port to the next ready context in rotation of at least its priority; a switch
costs a cycle; with no context ready the port idles. A port that is taken is free again at its cycle. The model's own choices
in it: log 37. -/
def Obligations.SelectorSwitches : Prop :=
  ∀ (s : State) (k : CoreNo),
    let x := s.core k.val
    let ready (i : Fin 4) : Prop := (s.ctx (4 * k.val + i.val)).act = .ready
    let prio (i : Fin 4) : Nat := (s.ctx (4 * k.val + i.val)).ctl.prio.toNat
    (x.stopped = false → x.gated = false →
      (x.running = none → ∀ i : Fin 4, ready i → (∀ j, ready j → prio j ≤ prio i) →
        (∀ j, ready j → prio j = prio i → (i - x.last - 1).val ≤ (j - x.last - 1).val) →
        Ev s (.selectorSwitch k) fun t => (t.core k.val).running = some i ∧ (t.core k.val).last = i ∧
          (t.core k.val).freeAt = t.cycle + 1 ∧ t.cycle = max s.cycle x.freeAt ∧ t.ctxs = s.ctxs ∧ t.mem = s.mem) ∧
      (∀ i, x.running = some i → ready i → x.yielded = false → x.released = false → Ev s (.selectorSwitch k) fun t => t = s) ∧
      (∀ i j : Fin 4, x.running = some i → (¬ ready i ∨ x.released = true) → ready j → (∀ m, ready m → prio m ≤ prio j) →
        (∀ m, ready m → prio m = prio j → (j - i - 1).val ≤ (m - i - 1).val) →
        Ev s (.selectorSwitch k) fun t => (t.core k.val).running = some j ∧ (t.core k.val).released = false ∧
          ((j ≠ i ∨ x.freeAt < s.cycle) → (t.core k.val).freeAt = t.cycle + 1 ∧ t.cycle = max s.cycle x.freeAt) ∧
          (j = i → s.cycle ≤ x.freeAt → (t.core k.val).freeAt = x.freeAt ∧ t.cycle = s.cycle) ∧ t.ctxs = s.ctxs ∧ t.mem = s.mem) ∧
      (∀ i j : Fin 4, x.running = some i → ready i → x.released = false → x.yielded = true → ready j → prio i ≤ prio j →
        (∀ m, ready m → prio i ≤ prio m → (j - i - 1).val ≤ (m - i - 1).val) →
        Ev s (.selectorSwitch k) fun t => (t.core k.val).running = some j ∧ (t.core k.val).yielded = false ∧
          (j ≠ i → (t.core k.val).freeAt = t.cycle + 1 ∧ t.cycle = max s.cycle x.freeAt) ∧
          (j = i → (t.core k.val).freeAt = x.freeAt ∧ t.cycle = s.cycle) ∧ t.ctxs = s.ctxs ∧ t.mem = s.mem) ∧
      ((∀ j, ¬ ready j) → Ev s (.selectorSwitch k) fun t => (t.core k.val).running = none ∧ t.ctxs = s.ctxs)) ∧
    Ev s (.bankStallEnd k) fun t => t.cycle = max s.cycle x.freeAt ∧ t.ctxs = s.ctxs ∧ t.cores = s.cores ∧ t.mem = s.mem

/-- 02 R390, 03 R85, R391, 07 R179, R182, 12 R240, 14 R287: the ends of waits that need nothing of the instruction, parking,
and the place an asynchronous cause is taken at; an RTI whose wait has ended completes first. A soft error makes a later check
fail. The model's own choices in it: log 24, 32, 38, 86. -/
def Obligations.WaitsEnd : Prop :=
  ∀ (s : State) (c : CtxNo),
    let x := s.ctx c.val
    (∀ va e, x.act = .blocked (.tlb va) → walkVA s (s.who c.val) va = .ok e → Ev s (.pageWalk c) fun t =>
      t.tr.tlb = e :: s.tr.tlb ∧ t.ctx c.val = { x with act := .ready } ∧ t.mem = s.mem) ∧
    (∀ va f, x.act = .blocked (.tlb va) → walkVA s (s.who c.val) va = .fault f → Ev s (.pageWalk c) fun t =>
      t.tr = s.tr ∧ t.ctx c.val = { x with act := .ready, walk := x.walk ++ [(va, f)] }) ∧
    (x.act = .blocked (.queueSpace .mtx) → x.rel = [] →
      (x.mtx.queue.length < 8 → Leaves s c.val (.queueSpaceFree c) { x with act := .ready }) ∧
      (8 ≤ x.mtx.queue.length → Leaves s c.val (.queueSpaceFree c) x)) ∧
    (∀ q, x.act = .blocked (.qlaunch q) → (s.queue q).room = true → Leaves s c.val (.qlaunchSlotReserved c) { x with act := .ready }) ∧
    (∀ h l, x.act = .blocked .rendezvous → x.hall = some h → s.launch h = some l →
      ((∀ d ∈ l.team, d ≠ c.val → (s.ctx d).rewindFlag = false) → Leaves s c.val (.rendezvousRelease c) { x with act := .ready }) ∧
      (∀ d ∈ l.team, d ≠ c.val → (s.ctx d).rewindFlag = true → Leaves s c.val (.rendezvousRelease c) x)) ∧
    (x.act = .ready → x.causes = [] → x.parkReq = true → x.boundary = true → x.seg = none → Ev s (.contextParks c) fun t =>
      t.ctx c.val = { x.drainFixed with act := .parked, parkReq := false, rtiDone := false, walk := [], landed := [], vac := [] } ∧
      (x.vac = [] → t.mem = s.mem)) ∧
    (∀ d : Due, x.causes = [d] → (x.act = .ready ∨ x.act = .parked) → x.rtiDone = false → x.seg = none → x.fixed = [] → x.vac = [] →
      Leaves s c.val (.asyncCauseTaken c) { x with
        causes := [], act := .trapWaiting, trapAt := s.cycle, rtiDone := false, walk := [], landed := []
        ctl := { x.ctl with trapcause := d.trap.word, trapaddr := d.trap.addr, trappc := x.pc, trapmask := 0 } }) ∧
    (∀ d : Due, x.causes = [d] → x.act = .ready → x.rtiDone = true → Leaves s c.val (.asyncCauseTaken c) x) ∧
    (∀ (d : Due) (r : SReg) (n : Option Nat), x.causes = [d] → d.ends = false → x.act = .blocked (.mwait r n) → x.rtiDone = false →
      Leaves s c.val (.asyncCauseTaken c) { x.setS r (.of 4 none) with act := .ready, mon := ⟨none, false, false⟩ }) ∧
    (∀ (n : SReg) (i : BitVec 6), n ≠ 0 → x.act ≠ .free → mwf .zero x.regs.s = true → Fits x n →
      Ev s (.softError c (.sflip n i)) fun t => ¬ Fits (t.ctx c.val) n ∧ ((t.ctx c.val).sreg n).p = (x.sreg n).p ∧
        (∀ m, m ≠ n → (t.ctx c.val).sreg m = x.sreg m) ∧ t.mem = s.mem)

/-- 07 R176–R181, 04 R113–R115: in an open segment a residue mismatch rewinds: scalars, predicates, loops and the PC are those
of the entry, residues fresh, buffered lines dropped, later landings gone; 8 cycles pass and no tick. The third time it traps.
The model's own choices in it: log 22, 44. -/
def Obligations.SegmentsRewind : Prop :=
  ∀ (s b : State) (c : Nat) (g : Seg) (o : LScalarArgs), Turn s c b → (∀ i < 4, (b.ctx (4 * coreOf c + i)).acc = []) →
    let x := b.ctx c
    x.seg = some g → x.vac = [] → x.passes o.g → 6 ≤ landL o.land → x.held < 32 → o.index = 0 → o.base ≠ 0 → sp b c o.base = none → ¬ Fits x o.base →
    (∀ l ∈ g.lines, match l with | .cmd (.qlaunch _ _ _) => False | _ => True) →
    (g.rewinds < 2 → x.fixed = [] → Ends s c (.ld o) fun t y =>
      y.regs.s = freshResidues g.s ∧ y.regs.p = g.p ∧ y.regs.v = x.regs.v ∧ y.loops = g.loops ∧ y.ctl.ldepth = g.ldepth ∧
      y.pc = g.pc ∧ y.ct = g.ct ∧ y.land = x.land.filter (fun l => l.issue < g.issue) ∧ y.rewindFlag = true ∧ y.act = .ready ∧
      y.seg = some { g with lines := [], rewinds := g.rewinds + 1, rerun := true } ∧
      (t.core (coreOf c)).freeAt = b.cycle + 8 ∧ t.mem = b.mem) ∧
    (2 ≤ g.rewinds → g.rewinds < 256 → g.lines = [] → Ends s c (.ld o) fun _ y =>
      y.act = .trapWaiting ∧ y.ctl.trapcause = BitVec.ofNat 64 (0x08 + 2 ^ 8 * g.rewinds) ∧ y.ctl.trappc = x.pc ∧ y.seg = none)

/-- 08 R208–R211, 13 R264: the oldest trap of a cluster enters the control core's queue and is delivered; CTXCTL releases,
parks and resumes; a kill, and the runtime's action for a fault of the code, abort the launch. The model's own choices in it:
log 21, 36, 56, 65. -/
def Obligations.ControlCoreActs : Prop :=
  (∀ (s : State) (k : CluNo) (c : CtxNo),
    let x := s.ctx c.val
    cluOf (coreOf c.val) = k.val → x.act = .trapWaiting → x.rel = [] → x.mtx.queue = [] → x.mtx.run = none → (s.cluster k.val).events = [] →
    (∀ d : CtxNo, d ≠ c → cluOf (coreOf d.val) = k.val → (s.ctx d.val).act ≠ .trapWaiting) →
    (∀ d : CtxNo, cluOf (coreOf d.val) = k.val → (s.ctx d.val).lateEvent = none) →
    Ev s (.trapEventEnqueue k) fun t => t.ctx c.val = { x with act := .trapped } ∧
      (t.cluster k.val).events = [⟨c.val, x.ctl.trapcause, x.ctl.trappc, x.ctl.trapaddr, x.ctl.trapmask, x.hall⟩]) ∧
  (∀ (s : State) (k : CluNo) (e : TrapEvent) (r : List TrapEvent), (s.cluster k.val).events = e :: r →
    (s.cluster k.val).pairStopped = false → Ev s (.trapEventDelivery k) fun t =>
      (t.cluster k.val).events = r ∧ (t.cluster k.val).delivered = (s.cluster k.val).delivered ++ [e] ∧ t.ctxs = s.ctxs) ∧
  (∀ (s : State) (c : CtxNo),
    let x := s.ctx c.val
    (x.act = .parked → Leaves s c.val (.ctxctlRelease c) { x with act := .ready, boundary := false }) ∧
    (x.act = .trapped → Leaves s c.val (.ctxctlResume c) { x with act := .ready, boundary := false }) ∧
    (x.act = .ready → Leaves s c.val (.ctxctlPark c) { x with parkReq := true }) ∧
    (x.act = .halted → Leaves s c.val (.ctxctlPark c) x) ∧
    (∀ h l, x.hall = some h → s.launch h = some l → l.state = .running → x.act = .ready → l.team = [c.val] →
      l.held = [] → mwf .zero s.ctxs = true → Ev s (.ctxctlKill c) fun t => t.ctx c.val = .zero ∧
        ∀ m, t.launch h = some m → m.state = .aborted ∧ m.team = [] ∧ m.why = .outside .txAborted)) ∧
  (∀ (s : State) (k : CluNo) (e : TrapEvent) (r : List TrapEvent) (h : Hall) (l : Launch),
    (s.cluster k.val).delivered = e :: r → (s.cluster k.val).pairStopped = false → (s.ctx e.ctx).act = .trapped →
    e.hall = some h → s.launch h = some l → l.state = .running → l.team = [e.ctx] → l.held = [] → mwf .zero s.ctxs = true → e.cause.toNat % 256 = 0x08 →
    Ev s (.runtimeTrapAction k) fun t => t.ctx e.ctx = .zero ∧
      ∀ m, t.launch h = some m → m.state = .aborted ∧ m.team = [] ∧ m.why = .rerun .residue)

/-! ## Registers, transactions and the scheduler (08, 12, 13, 14, 21) -/

end

namespace Sys2Proof.Claims

open Sys2Proof Sys2Proof.Machine

/-- A write of the management core at an offset of management space. -/
def MgmtWrite (s : State) (off : Nat) (v : Word) (P : State → Prop) : Prop :=
  Ev s (.registerWrite .management (BitVec.ofNat 64 (mgmtBase + off)) v) P

/-- Address of offset `off` of window `kind` of physical core `k`, as a control core uses it (08 R187, R188). -/
def winVa (k kind off : Nat) : Word :=
  BitVec.ofNat 64 (2 ^ 44 + k / 64 * 2 ^ 36 + k / 8 % 8 * 2 ^ 32 + k % 8 * 2 ^ 28 + kind * 2 ^ 24 + off)

/-- No launch waits to draw its ticket. -/
def NoneWaits (s : State) : Prop := ∀ e ∈ s.sched.launches, e.2.state = .committing → e.2.ticket ≠ none

/-- The launch of `h` has ended as an aborted one whose team is gone, for reason `y`. -/
def Killed (t : State) (h : Hall) (y : Why) : Prop := ∀ m, t.launch h = some m → m.state = .aborted ∧ m.team = [] ∧ m.why = y

end Sys2Proof.Claims

section

open Sys2Proof Sys2Proof.Machine Sys2Proof.Claims

/-- 07 R185, 08 R197, R208, R209, 12 R244, 14 R274, R277, 21 R325, 22 R348: a register keeps the writable fields of what is
written and drops the rest; a control core writes GRANTS and CTXCTL through the window; a channel reset and a control pair
that differs do what their rules say. The model's own choices in it: log 30, 78, 85, 106. -/
def Obligations.RegistersAreWritten : Prop :=
  (∀ (s : State) (v : Word),
    (100 ≤ v.toNat % 2 ^ 32 → v.toNat % 2 ^ 32 ≤ 100000 → MgmtWrite s 0 v fun t => t.mgmt.hbPeriod = v.setWidth 32 ∧
      t.mgmtWord 0 = some (v.setWidth 32 |>.setWidth 64, none)) ∧
    (v.toNat % 2 ^ 32 < 100 ∨ 100000 < v.toNat % 2 ^ 32 → MgmtWrite s 0 v fun t => t = s) ∧
    (∀ p : Fin 64, v.getLsbD 0 = true → MgmtWrite s (0x10000 + 8 * p.val) v fun t =>
      (mget 0 t.tr.trroot p.val).toNat = v.toNat / 2 ^ 12 % 2 ^ 36 * 2 ^ 12 + 1 ∧
      (∀ q, q ≠ p.val → mget 0 t.tr.trroot q = mget 0 s.tr.trroot q) ∧ t.tr.tlb = s.tr.tlb) ∧
    (MgmtWrite s 0x10218 v fun t => t.tr.keysrc.toNat = v.toNat / 2 ^ 6 % 2 ^ 42 * 2 ^ 6) ∧
    (∀ i < 4, v.getLsbD 63 = true → MgmtWrite s (0x10240 + 8 * i) v fun t => (mget 0 t.tr.rsv i).toNat = 2 ^ 63 + v.toNat % 2 ^ 46) ∧
    (∀ p : Fin 64, v.setWidth 8 ≠ 0#8 → MgmtWrite s (0x108000 + 8 * p.val) v fun t => mget 0 t.sched.pshare p.val = v.setWidth 8) ∧
    (∀ q < 1024, v.getLsbD 0 = true → MgmtWrite s (0x100000 + 32 * q + 16) v fun t =>
      t.queue q = { s.queue q with
        part := v.extractLsb' 10 6, lsize := v.extractLsb' 5 5, dev := v.getLsbD 1, en := true, tailErr := false }) ∧
    (∀ q < 1024, (s.queue q).en = true → MgmtWrite s (0x100000 + 32 * q + 24) v fun t => t.queue q = s.queue q) ∧
    (MgmtWrite s 0x300400 v fun t => t.cool.budget.toNat = min (v.toNat % 2 ^ 9) 500 ∧ t.cool.avail = s.cool.avail ∧
      t.cool.zones = s.cool.zones ∧ t.cool.refused = (s.cool.refused && !v.getLsbD 63))) ∧
  (∀ (s : State) (k : CoreNo) (v : Word), v &&& grantsMask ≠ 0 →
    Ev s (.registerWrite .supervisor (winVa k.val 15 0) v) fun t => (t.core k.val).grants = v &&& grantsMask ∧ t.mem = s.mem) ∧
  (∀ (s : State) (c : CtxNo),
    let x := s.ctx c.val
    let i (v : Word) : Instr := .registerWrite .supervisor (winVa (coreOf c.val) 15 (0x40 + 8 * (c.val % 4))) v
    (x.act = .trapped → Leaves s c.val (i 1) { x with act := .ready, boundary := false }) ∧
    (x.act = .ready → Leaves s c.val (i 2) { x with parkReq := true }) ∧
    (x.act = .parked → Leaves s c.val (i 4) { x with act := .ready, boundary := false })) ∧
  (∀ (s : State) (k : CluNo) (ch : BitVec 4), (s.chan k.val ch.toNat).map ≠ 0 → Ev s (.channelReset k ch) fun t =>
    t.chan k.val ch.toNat = { s.chan k.val ch.toNat with state := 0, heads := [], stop := false } ∧ t.ctxs = s.ctxs ∧ t.mem = s.mem) ∧
  (∀ (s : State) (k : CluNo),
    (∀ (h : Hall) (l : Launch) (c : Nat), s.sched.launches = [(h, l)] → l.state = .running → l.team = [c] → l.held = [] →
      cluOf (coreOf c) = k.val → mwf .zero s.ctxs = true →
      Ev s (.controlPairMismatch k) fun t => (t.cluster k.val).pairStopped = true ∧ t.ctx c = .zero ∧ Killed t h (.outside .txAborted)) ∧
    (s.sched.launches = [] → Ev s (.controlPairMismatch k) fun t => (t.cluster k.val).pairStopped = true ∧ t.ctxs = s.ctxs ∧
      t.mgmt.errors.length = s.mgmt.errors.length + 1 ∧ t.out = s.out ++ [.report 2 (BitVec.ofNat 64 k.val)]) ∧
    (mwf .zero s.clusters = true → Ev s (.controlPairRestart k) fun t =>
      (t.cluster k.val) = { s.cluster k.val with pairStopped := false } ∧ t.ctxs = s.ctxs))

/-- 13 R254, R260, R261, R264, R268, 14 R283: a launch enters COMMITTING when its team has halted and its channels are idle,
and draws its ticket in turn, of several the one of the lowest queue first; its commit waits for lower tickets, makes every
line it wrote committed and aborts each RUNNING launch whose signature holds one; completion frees it; an abort tells the
team, and one from outside leaves a COMMITTING launch alone; folding works in ticket order and keeps committed values. The
model's own choices in it: log 66, 67, 72. -/
def Obligations.LaunchesCommitOrAbort : Prop :=
  (∀ (s : State) (h : Hall) (l : Launch), s.launch h = some l →
    (l.state = .running → l.ticket = none → (∀ e ∈ s.sched.launches, e.1 = h → e.2 = l) → NoneWaits s →
      (∀ c ∈ l.team, (s.ctx c).act = .halted) →
      (∀ k ∈ l.clusters, ∀ e ∈ (s.cluster k).chans, e.2.hall = some h → e.2.state ≠ 1) →
      (s.turnToDraw l.queue l.recNo = true → Ev s (.launchCommitting h) fun t =>
        t.launch h = some { l with state := .committing, committingAt := s.cycle, ticket := some s.sched.ticketNext } ∧
        t.sched.ticketNext = s.sched.ticketNext + 1 ∧ (t.recOf l.queue l.recNo).drawn = true ∧ t.mem = s.mem ∧ t.ctxs = s.ctxs) ∧
      (s.turnToDraw l.queue l.recNo = false → Ev s (.launchCommitting h) fun t =>
        t.launch h = some { l with state := .committing, committingAt := s.cycle } ∧ t.sched.ticketNext = s.sched.ticketNext)) ∧
    (∀ c ∈ l.team, l.state = .running → (s.ctx c).act = .ready → NoneWaits s → Ev s (.launchCommitting h) fun t => t = s) ∧
    (∀ n g m a, l.state = .committing → l.ticket = some n → (g, m) ∈ s.sched.launches → m.state = .committing →
      m.ticket = some a → a < n → Ev s (.commitFlip h) fun t => t = s) ∧
    (l.state = .running → (∀ c ∈ l.team, (s.ctx c).act = .ready ∧ (s.ctx c).causes = []) → Ev s (.launchAbort h) fun t =>
      (∃ m, t.launch h = some m ∧ m.state = .aborted ∧ m.sig = 0 ∧ m.why = .outside .txAborted ∧ m.undo = []) ∧
      ∀ c ∈ l.team, (t.ctx c).causes = [⟨⟨.txAborted, h.setWidth 64, 0, none⟩, true⟩] ∧ (t.ctx c).regs = (s.ctx c).regs) ∧
    (l.state = .committing → Ev s (.launchAbort h) fun t => t = s) ∧
    (∀ c, l.state = .aborted → l.team = [c] → (s.ctx c).act = .halted → mwf .zero s.ctxs = true →
      Ev s (.launchAbort h) fun t => t.ctx c = .zero ∧ ∀ m, t.launch h = some m → m.state = .aborted ∧ m.team = []) ∧
    (l.state = .running → l.budget = 0 → (∀ c ∈ l.team, (s.ctx c).act = .ready ∧ (s.ctx c).causes = []) →
      Ev s (.budgetExhausted h) fun t => (∃ m, t.launch h = some m ∧ m.state = .aborted ∧ m.why = .budget) ∧
        ∀ c ∈ l.team, (t.ctx c).causes = [⟨⟨.budget, 0, 0, none⟩, true⟩]) ∧
    (l.budget ≠ 0 → Ev s (.budgetExhausted h) fun t => t = s)) ∧
  (∀ (s : State) (h g : Hall) (l m : Launch), s.sched.launches = [(g, m), (h, l)] → h ≠ g → l.queue < m.queue →
    l.state = .committing → l.ticket = none → s.turnToDraw l.queue l.recNo = true →
    m.state = .committing → m.ticket = none → s.turnToDraw m.queue m.recNo = true →
    Ev s (.launchCommitting g) fun t => t.launch h = some { l with ticket := some s.sched.ticketNext } ∧
      t.launch g = some { m with ticket := some (s.sched.ticketNext + 1) } ∧ t.sched.ticketNext = s.sched.ticketNext + 2) ∧
  (∀ (s : State) (h g : Hall) (l m : Launch) (n : Nat), s.sched.launches = [(h, l), (g, m)] → h ≠ g → l.state = .committing →
    l.ticket = some n → l.excl = false → l.held = [] → l.touch = [] → m.state = .running → m.ticket = none → m.undo = [] →
    ((∃ e ∈ s.mem.shadow, e.hall = h ∧ sigTest m.sig e.line = true) → Ev s (.commitFlip h) fun t =>
      (∃ a, t.launch h = some a ∧ a.state = .committed ∧ a.sig = 0) ∧
      (∃ b, t.launch g = some b ∧ b.state = .aborted ∧ b.why = .conflict true)) ∧
    ((∀ e ∈ s.mem.shadow, e.hall = h → sigTest m.sig e.line = false) → Ev s (.commitFlip h) fun t =>
      t.launch h = some { l with state := .committed, sig := 0 } ∧ t.launch g = some m ∧ t.mem.hbm = s.mem.hbm ∧
      t.mem.shadow = s.mem.shadow.map (fun e => if e.hall = h then { e with ticket := some n } else e))) ∧
  (∀ (s : State) (h : Hall) (l : Launch) (c : Nat), s.launch h = some l → l.state = .committed → l.team = [c] →
    let q := s.queue l.queue
    ((∀ d ∈ l.touch, d.acked = true ∨ d.given = true) → mwf .zero s.ctxs = true →
      q.head.toNat ≠ l.recNo → finished (s.recOf l.queue q.head.toNat).state = false →
      Ev s (.launchComplete h) fun t => t.ctx c = .zero ∧ (t.recOf l.queue l.recNo).state = 4 ∧
        ∀ m, t.launch h = some m → m.team = [] ∧ m.undo = []) ∧
    (∀ d ∈ l.touch, d.acked = false → d.given = false → Ev s (.launchComplete h) fun t => t = s)) ∧
  (∀ (s : State) (n : Nat), Memory.wf s.mem.hbm = true → s.mem.reported n = true → Ev s (.annealFold n) fun t =>
    Memory.wf t.mem.hbm = true ∧ (∀ k, (t.mem.committed k).bytes = (s.mem.committed k).bytes) ∧
    (∀ e ∈ t.mem.shadow, e ∈ s.mem.shadow) ∧
    (∀ i, s.mem.oldest (homeDie n) = some i → (∃ e ∈ s.mem.shadow, e.line = n ∧ e.ticket = some i) →
      ∀ e ∈ t.mem.shadow, e.line = n → e.ticket = none) ∧
    ((s.mem.oldest (homeDie n) = none ∨ ∀ e ∈ s.mem.shadow, e.line = n → e.ticket ≠ s.mem.oldest (homeDie n)) → t = s))

/-- 13 R257, R262, R264, 12 R246, 21 R332, 14 R275, R279, R281: the host's writes and reads, in its partition and in the
operator ring, and a tail word that is read, each after a key command in progress on its key; the dispatch of the record that
is chosen, a preload that writes no granule a launch holds, and the release of entries and filter bits. The model's own
choices in it: log 15, 20, 70. -/
def Obligations.SchedulerActs : Prop :=
  (∀ (s : State) (p : HostJob) (va : Word) (b : List Byte) (n : Nat), s.acceptsJob p = false →
    (s.ringAccess p va b.length = none → Ev s (.hostWrite p va b) fun t => t = s.emit .hostError) ∧
    (s.ringAccess p va n = none → Ev s (.hostRead p va n) fun t => t = s.emit .hostError) ∧
    (∀ pa, s.ringAccess p va b.length = some pa → Ev s (.hostWrite p va b) fun t => t = (s.writeMem none pa 0 (clean b)).emit .hostDone) ∧
    (∀ pa, s.ringAccess p va n = some pa → Ev s (.hostRead p va n) fun t =>
      t.out = s.out ++ [.hostData (s.hostRead [(.mem pa 0, n)])] ∧ t.mem = s.mem ∧ t.sched = s.sched)) ∧
  (∀ (s : State) (p : HostJob) (va : Word) (n : Nat), p.endpoint ≠ Config.mgmtEndpoint ∨ 0x2008 < va.toNat + n →
    s.ringAccess p va n = none) ∧
  (∀ (s : State) (p : HostJob) (va : Word) (b : List Byte) (pa : Nat) (key : BitVec 12) (h : Hall) (l : Launch),
    s.acceptsJob p = true → 0 < b.length → va.toNat % 8 + b.length ≤ 8 → pa % 8 + b.length ≤ 8 →
    s.engineTarget (hostWho p.part) .write va b.length = .ok (.mem pa key) → s.sched.launches = [(h, l)] → l.state = .running →
    (sigTest l.sig (pa / 64) = true → Ev s (.hostWrite p va b) fun t => t.out.getLast? = some .hostDone ∧
      ∃ m, t.launch h = some m ∧ m.state = .aborted ∧ m.why = .conflict true) ∧
    (sigTest l.sig (pa / 64) = false → Ev s (.hostWrite p va b) fun t => t.out = s.out ++ [.hostDone] ∧ t.launch h = some l ∧
      (key = 0 → mget none s.mem.lineKey (pa / 64) = none → (∀ e ∈ s.mem.shadow, e.line ≠ pa / 64) →
        mget none s.mem.hbmPoison (pa / 8) = none → mwf none s.mem.hbmPoison = true → Memory.wf s.mem.hbm = true →
        (∀ i < b.length, mget hbmDefault t.mem.hbm (pa + i) = b.getD i 0) ∧
        (∀ a, a < pa ∨ pa + b.length ≤ a → mget hbmDefault t.mem.hbm a = mget hbmDefault s.mem.hbm a)))) ∧
  (∀ (s : State) (p : HostJob) (va : Word) (n : Nat), s.acceptsJob p = true →
    (∀ l, s.engineTargets (hostWho p.part) .read va n = .ok l → Ev s (.hostRead p va n) fun t =>
      let u := s.awaitAt p.part va n
      t.out = u.out ++ [.hostData (u.hostRead l)] ∧ t.mem = u.mem ∧ t.sched = u.sched ∧ (s.tr.keyPending = none → u = s)) ∧
    (∀ f, s.engineTargets (hostWho p.part) .read va n = .error f → Ev s (.hostRead p va n) fun t => t.out = s.out ++ [.hostError])) ∧
  (∀ (s : State) (q : QueueNo) (w : Nat),
    let d := s.queue q.val
    let n : BitVec 32 := BitVec.ofNat 32 w
    let u := s.awaitAt d.owner (stampAddr d.tail.toNat) 8
    d.en = true → d.dev = false → u.hostWord? d.owner (stampAddr d.tail.toNat) = some w →
    (s.tr.keyPending = none → u = s) ∧
    (n = d.seen → Ev s (.tailObserved q) fun t => t = u) ∧
    (n ≠ d.seen → (2 ^ d.lsize.toNat < (n - d.head).toNat ∨ (n - d.head).toNat < (d.seen - d.head).toNat) →
      Ev s (.tailObserved q) fun t => t.queue q.val = { d with en := false, tailErr := true } ∧
        t.out = u.out ++ [.report 1 (BitVec.ofNat 64 q.val)] ∧ t.mem = u.mem) ∧
    (n ≠ d.seen → (n - d.head).toNat ≤ 2 ^ d.lsize.toNat → (d.seen - d.head).toNat ≤ (n - d.head).toNat →
      Ev s (.tailObserved q) fun t => (t.queue q.val).seen = n ∧ (t.queue q.val).en = true)) ∧
  (∀ (s u : State) (c : Cand) (cl : List Nat),
    let v := (s.queueNos.foldl State.refresh s).sampleDepth
    s.sched.launches = [] → v.chooseRec (v.queueNos.flatMap v.candsOf) = some (c, u) → c.fit = some cl →
    Ev s .dispatchDecision fun t => ∃ l, t.launch (Config.pkgId ++ s.sched.seqNext) = some l ∧ l.state = .running ∧
      l.part = c.part ∧ l.clusters = cl ∧ l.team.length = 8 * cl.length ∧ l.budget = 1024 * c.r.budget ∧ l.sig = 0 ∧
      (t.recOf c.q c.n).state = 3 ∧
      ∀ d ∈ l.team, let y := t.ctx d
        y.act = .ready ∧ y.hall = some (Config.pkgId ++ s.sched.seqNext) ∧ y.ct = 0 ∧ y.issues = 0 ∧ y.ctl.priv = 0 ∧
        y.ctl.uie = false ∧ y.regs.v = [] ∧ y.regs.p = [] ∧ y.acc = [] ∧ y.ctl.prio = (if 4 ≤ c.r.prio then 1 else 0)) ∧
  (∀ (s : State) (q : QueueNo) (n : Nat), mwf 0 s.mem.spad = true → mwf none s.mem.spadPoison = true →
    mwf false s.mem.spadValid = true → Ev s (.tentativePreload q n) fun t => t.ctxs = s.ctxs ∧ t.mem.hbm = s.mem.hbm ∧
    t.mem.shadow = s.mem.shadow ∧ (∀ k g w : Nat, g < 8 → w < 8192 → (s.core k).grants.getLsbD (8 * g + 7) = true →
      t.mem.spadWord k (8192 * g + w) = s.mem.spadWord k (8192 * g + w)) ∧ t.cores = s.cores ∧ t.clusters = s.clusters ∧ t.sched.launches = s.sched.launches ∧ t.sched.queues = s.sched.queues ∧ t.out = s.out) ∧
  (∀ (s : State) (h : Hall) (l : Launch), s.sched.launches = [(h, l)] → l.state = .aborted →
    Ev s (.directoryEntryRelease h) fun t => (∀ e, e ∈ t.mem.shadow ↔ e ∈ s.mem.shadow ∧ e.hall ≠ h) ∧
      (l.team = [] → t.sched.launches = []) ∧ (l.team ≠ [] → t.sched.launches = [(h, l)])) ∧
  (∀ (s : State) (n : Nat),
    ((∀ e ∈ s.mem.shadow, e.line ≠ n) → Ev s (.pendingLineFilterClear n) fun t => t.mem.reported n = false ∧
      ∀ k, k ≠ n → t.mem.reported k = s.mem.reported k) ∧
    (∀ e ∈ s.mem.shadow, e.line = n → Ev s (.pendingLineFilterClear n) fun t => t = s))

/-! ## Translation, keys, errors and resets (12, 21) -/

/-- 12 R243, R246: TRINV with go drops the entries it names and is done when the accesses before it, those a segment holds
included, have performed; a key command changes its slot and drops its entries, FLUSH folds what is committed under the key, a
refused one sets the error bit alone. The model's own choices in it: log 75, 76. -/
def Obligations.TranslationAndKeys : Prop :=
  (∀ (s : State) (v : Word), v.getLsbD 0 = true →
    let go (i : Instr) (gone : Tlb → Prop) : Prop :=
      (s.tr.inv = none → Ev s i fun t => t.tr.inv = some v ∧ t.tr.trinv = v &&& ~~~1 ∧ t.tr.invSeq = s.seq ∧ t.mem = s.mem ∧
        ∀ e, e ∈ t.tr.tlb ↔ e ∈ s.tr.tlb ∧ ¬ gone e) ∧
      (s.tr.inv ≠ none → Ev s i fun t => t.tr.invNext = s.tr.invNext ++ [v] ∧ t.tr.tlb = s.tr.tlb ∧ t.tr.inv = s.tr.inv)
    let table (e : Tlb) : Prop := if v.getLsbD 1 then e.part = none else e.part.map (·.val) = some (v.extractLsb' 6 6).toNat
    let n := match (v.extractLsb' 4 2).toNat with | 0 => 2 ^ 12 | 1 => 2 ^ 16 | 2 => 2 ^ 21 | _ => 2 ^ 30
    let lo := v.toNat / 2 ^ 12 * 2 ^ 12 / n * n
    (v.extractLsb' 2 2 = 0#2 → go (.trinvRange v) fun e => table e ∧ e.base.toNat < lo + n ∧ lo < e.base.toNat + e.size) ∧
    (v.extractLsb' 2 2 = 1#2 → go (.trinvTable v) table) ∧
    (v.extractLsb' 2 2 = 2#2 → go (.trinvAll v) fun _ => True)) ∧
  (∀ (s : State) (v : Word), s.tr.inv = some v →
    ((∀ e ∈ s.ctxs, ∀ a ∈ e.2.acc, a.seq < s.tr.invSeq → ∀ l ∈ a.elems, l.done = true) →
      (∀ e ∈ s.ctxs, ∀ a, .acc a ∈ e.2.heldLines → s.tr.invSeq ≤ a.seq) → s.tr.invNext = [] →
      Ev s .trinvDone fun t => t.tr.inv = none ∧ t.mem = s.mem) ∧
    (∀ e ∈ s.ctxs, ∀ a ∈ e.2.acc, ∀ l ∈ a.elems, a.seq < s.tr.invSeq → l.done = false → Ev s .trinvDone fun t => t = s) ∧
    (∀ e ∈ s.ctxs, ∀ a, .acc a ∈ e.2.heldLines → a.seq < s.tr.invSeq → Ev s .trinvDone fun t => t = s)) ∧
  (∀ (s : State) (n : Nat), Ev s (.tlbEntryDropped n) fun t => t = { s with tr := { s.tr with tlb := s.tr.tlb.eraseIdx n } }) ∧
  (∀ (s : State) (v : Word),
    let k : BitVec 12 := v.extractLsb' 4 12
    let begun (t : State) : Prop := t.tr.keyPending = some v ∧ t.tr.keyst = 1 ∧ t.tr.keycmd = v &&& 0x7FFFF0
    let others (t : State) : Prop := ∀ j, j ≠ k.toNat → mget .zero t.tr.keys j = mget .zero s.tr.keys j
    (s.tr.keyPending = none → k ≠ 0 →
      (v.extractLsb' 0 4 = 1#4 → Ev s (.keyLoad v) fun t => begun t ∧ others t ∧
        (∀ m, s.keyMaterial s.tr.keysrc = m → s.mem.shadow = [] →
          mget .zero t.tr.keys k.toNat = ⟨true, m, v.extractLsb' 16 6, v.getLsbD 22⟩) ∧
        ∀ e, e ∈ t.tr.tlb ↔ e ∈ s.tr.tlb ∧ e.key ≠ k) ∧
      (v.extractLsb' 0 4 = 2#4 → mwf .zero s.tr.keys = true → Ev s (.keyClear v) fun t => begun t ∧ others t ∧
        mget .zero t.tr.keys k.toNat = .zero ∧ ∀ e, e ∈ t.tr.tlb ↔ e ∈ s.tr.tlb ∧ e.key ≠ k) ∧
      (v.extractLsb' 0 4 = 3#4 → Ev s (.keyFlush v) fun t => begun t ∧ t.tr.keys = s.tr.keys ∧ t.tr.tlb = s.tr.tlb ∧
        ∀ e ∈ t.mem.shadow, e ∈ s.mem.shadow ∧ (e.ticket ≠ none → e.val.key ≠ s.tr.material k))) ∧
    ((s.tr.keyPending ≠ none ∨ k = 0 ∨ v.extractLsb' 0 4 = 0#4 ∨ 4 ≤ (v.extractLsb' 0 4).toNat) →
      Ev s (.keycmdRefused v) fun t => t = { s with tr := { s.tr with keyst := s.tr.keyst ||| 2 } })) ∧
  (∀ s : State, Ev s .keyCommandDone fun t => t.tr = { s.tr with keyPending := none, keyst := s.tr.keyst &&& 2 } ∧ t.mem = s.mem ∧
    ∀ c, ((s.ctx c).act = .blocked .order → (t.ctx c).act = .ready) ∧ ((s.ctx c).act = .ready → t.ctx c = s.ctx c))

/-- 08 R202, 12 R250, R252, 21 R323, R326, R330, R335, R338, R340: memory errors, a failed die-to-die link, a heartbeat missed
twice, a mismatch of the management pair, an error record copied into private memory, package reset, which keeps HBM and runs
the boot chain, power off. The model's own choices in it: log 13, 77, 78, 79, 80, 89, 105. -/
def Obligations.ErrorsAndResets : Prop :=
  (∀ (s : State) (pa : Nat),
    (Ev s (.memoryReadError pa .clean) fun t => t = s) ∧ (Ev s (.memoryReadError pa .poisonMark) fun t => t = s) ∧
    (Ev s (.patrolScrub pa) fun t => t = s) ∧
    (Ev s (.memoryReadError pa .corrected) fun t => t.mem = s.mem ∧ ∃ e, t.mgmt.errors = s.mgmt.errors ++ [e] ∧ e.kind = 1 ∧
      e.place = BitVec.ofNat 64 pa ∧ e.unit.toNat / 32 = pa / 2 ^ 37 % 4 ∧ 16 ≤ e.unit.toNat % 32 ∧ e.unit.toNat % 32 ≤ 18) ∧
    (Ev s (.memoryReadError pa .uncorrectable) fun t => ∃ e, t.mgmt.errors = s.mgmt.errors ++ [e] ∧ e.kind = 2 ∧
      e.place = BitVec.ofNat 64 pa ∧ e.unit.toNat / 32 = pa / 2 ^ 37 % 4 ∧
      ((t.mem.shadow = s.mem.shadow ∧ mget none t.mem.hbmPoison (pa / 8) = some (e.unit ++ e.index) ∧
          (∀ i, i / 64 ≠ pa / 64 → mget hbmDefault t.mem.hbm i = mget hbmDefault s.mem.hbm i) ∧
          ∀ w, mget none t.mem.hbmPoison w = mget none s.mem.hbmPoison w ∨
            (w / 8 = pa / 64 ∧ mget none t.mem.hbmPoison w = some (e.unit ++ e.index) ∧ (w ≠ pa / 8 → e.unit.toNat % 32 = 18))) ∨
        (t.mem.hbm = s.mem.hbm ∧ t.mem.hbmPoison = s.mem.hbmPoison ∧ ∃ i x y, s.mem.shadow[i]? = some x ∧ x.line = pa / 64 ∧
          t.mem.shadow = s.mem.shadow.set i y ∧ y.line = x.line ∧ y.hall = x.hall ∧ y.ticket = x.ticket ∧
          mget none y.val.poison (pa / 8 % 8) = some (e.unit ++ e.index))))) ∧
  (∀ (s : State) (e : ErrRec) (r : List ErrRec), s.mgmt.errors = e :: r → e.copied = false → s.mgmt.errCopies.length < 65536 →
    Ev s (.errorRecordCopy e.unit) fun t => t.mgmt.errors = { e with copied := true } :: r ∧ t.mgmt.errSeq = s.mgmt.errSeq + 1 ∧
      t.mgmt.errCopies = s.mgmt.errCopies ++ [(s.mgmt.errSeq, { e with copied := true })] ∧
      let off := Config.errCopyAt (s.mgmt.errSeq.toNat % 65536)
      let image : List Byte := bytesOf 8 s.mgmt.errSeq.toNat ++ bytesOf 8 (e.unit.toNat * 32 + e.index.toNat) ++
        [0, 1, 2, 3].flatMap fun i => bytesOf 8 (e.word i).toNat
      (∀ pa, s.privPa off = some pa → s.privPa (off + 47) ≠ none → t.mem = (s.writeMem none pa 0 (clean image)).mem) ∧
      (s.privPa off = none ∨ s.privPa (off + 47) = none → t.mem = s.mem)) ∧
  (∀ (s : State) (a b : DieNo), a ≠ b → s.fab.links = [] →
    (s.sched.launches = [] → Ev s (.d2dLinkFailure a b) fun t => t.fab.links = [(a, b)] ∧ t.mem = s.mem ∧
      ∃ e f, t.mgmt.errors = s.mgmt.errors ++ [e, f] ∧ e.kind = 4 ∧ f.kind = 4 ∧ e.unit.toNat = 32 * a.val + 23 ∧
        f.unit.toNat = 32 * b.val + 23) ∧
    (∀ (h : Hall) (l : Launch) (c : Nat), s.sched.launches = [(h, l)] → l.state = .running → l.team = [c] → l.held = [] →
      mwf .zero s.ctxs = true →
      ((∃ k ∈ l.clusters, k / 8 = a.val) → (∃ k ∈ l.clusters, k / 8 = b.val) →
        Ev s (.d2dLinkFailure a b) fun t => t.ctx c = .zero ∧ Killed t h (.outside .txAborted)) ∧
      ((s.ctx c).hall = some h → dieOf (coreOf c) = a.val → (s.ctx c).acc.any (Access.inFlight b.val) = true →
        Ev s (.d2dLinkFailure a b) fun t => t.ctx c = .zero ∧ Killed t h (.outside .txAborted)) ∧
      ((∀ k ∈ l.clusters, k / 8 ≠ b.val) → (∀ e ∈ s.ctxs, e.2.acc = []) → Ev s (.d2dLinkFailure a b) fun t => t.launch h = some l))) ∧
  (∀ (s : State) (c : Nat) (x : Ctx), s.ctxs = [(c, x)] → c < 1024 → x.hall ≠ none → x.act = .ready → x.seg = none →
    mwf .zero s.cores = true →
    let k := coreOf c
    let y := s.core k
    y.stopped = false →
    (y.beaten = true → Ev s .heartbeatPeriodEnd fun t => (t.core k).beaten = false ∧ (t.core k).misses = 0 ∧
      t.ctx c = { x with hb2 := x.hb1, hb1 := x.issues }) ∧
    (y.beaten = false → y.misses = 0 → Ev s .heartbeatPeriodEnd fun t => (t.core k).misses = 1 ∧
      t.ctx c = { x with hb2 := x.hb1, hb1 := x.issues }) ∧
    (∀ h l, y.beaten = false → y.misses = 1 → x.hall = some h → s.sched.launches = [(h, l)] → l.state = .running → l.team = [c] →
      l.held = [] → x.causes = [] → s.mgmt.snapshots = [] → Ev s .heartbeatPeriodEnd fun t => t.ctx c = .zero ∧ Killed t h (.outside .heartbeat) ∧
        (t.core k).misses = 0 ∧ t.mgmt.snapshots.length = 1) ∧
    (∀ n : CoreNo, n.val = k → y.beaten = false → 1 ≤ y.misses → Ev s (.heartbeatStopTimeout n) fun t =>
      (t.core k).stopped = true ∧ (t.core k).misses = 2 ∧ t.out = s.out ++ [.report 3 (BitVec.ofNat 64 k)] ∧ t.ctxs = s.ctxs) ∧
    (∀ n : CoreNo, n.val = k → Ev s (.clusterBeat n) fun t => t = s)) ∧
  (∀ (s : State) (k : CoreNo) (i : Fin 4) (w : Wait), s.ctxs = [(4 * k.val + i.val, s.ctx (4 * k.val + i.val))] →
    (s.ctx (4 * k.val + i.val)).hall ≠ none → (s.ctx (4 * k.val + i.val)).act = .blocked w → Ev s (.clusterBeat k) fun t =>
      (t.core k.val).beaten = true ∧ t.ctxs = s.ctxs) ∧
  (∀ (s : State) (h : Hall) (l : Launch) (c : Nat), s.sched.launches = [(h, l)] → l.team = [c] → l.held = [] → mwf .zero s.ctxs = true →
    (l.state = .running → Ev s .pairMismatch fun t => t.ctx c = .zero ∧ Killed t h (.outside .txAborted)) ∧
    (l.state = .committing → Ev s .pairMismatch fun t => t.launch h = some l ∧ t.ctxs = s.ctxs ∧ t.mem = s.mem ∧
      t.mgmt.operatorKey = Config.ownerAt s.fresh ∧ t.powered = (s.powered && bootPasses s.fresh))) ∧
  (∀ (s : State) (d : DieNo) (u : BitVec 6), (s.capture d.val u.toNat).ctl ≠ 0 → Ev s (.captureClear d u) fun t =>
    let y := t.capture d.val u.toNat
    y.ctl = (s.capture d.val u.toNat).ctl ∧ y.min = BitVec.allOnes 64 ∧ y.max = 0 ∧ y.count = 0 ∧ y.sum = 0 ∧ ∀ n, mget 0 y.bins n = 0) ∧
  (∀ s : State, (Ev s .packageReset fun t => t.ctxs = [] ∧ t.sched.launches = [] ∧ t.mem.shadow = [] ∧ t.tr = .reset ∧
      t.mem.hbm = s.mem.hbm ∧ t.mem.hbmPoison = s.mem.hbmPoison ∧ t.mem.lineKey = s.mem.lineKey ∧
      t.fab.epoch = s.fab.epoch + 1 ∧ t.mgmt.hbPeriod = 1000 ∧ t.mgmt.svc = 1 ∧ t.mgmt.operatorKey = Config.ownerAt s.fresh ∧
      t.powered = bootPasses s.fresh ∧ t.out = (if bootPasses s.fresh then s.out else s.out ++ [.report 4 0])) ∧
    (Ev s .powerOff fun t => t = { s with powered := false } ∧ (s.agenda = [] → step t = .fault .poweredOff)))

/-! ## The coolant controller (22) -/

/-- 22 R347–R357, 21 R340: what a sample records, which allocations are accepted, the throttle and its end, withdrawal, each
step of evacuation and refill under its condition, a step that passes its bound, the pump, and the HBM-edge zones. The model's
own choices in it: log 2, 81. -/
def Obligations.CoolantController : Prop :=
  (∀ (s : State) (x : ZoneSample), (s.zone 0).state ≠ .dry → Ev s (.sensorSample [x]) fun t =>
    let z := t.zone 0
    z.dp = x.dp ∧ z.tout = x.tout ∧ z.tin = x.tin ∧ z.flow = x.flow ∧ z.cond = x.cond ∧ z.state = (s.zone 0).state ∧
    (1 ≤ (s.zone 0).step.toNat → x.flow.toNat < 4 * (s.zone 0).step.toNat → z.lowCount = (s.zone 0).lowCount + 1) ∧
    (4 * (s.zone 0).step.toNat ≤ x.flow.toNat → z.lowCount = 0) ∧
    (x.tin.toNat + 144 < x.tout.toNat → z.deltaCount = (s.zone 0).deltaCount + 1) ∧
    (x.tout.toNat ≤ x.tin.toNat + 144 → z.deltaCount = 0) ∧
    (1 ≤ x.flow.toNat → z.dryCount = 0)) ∧
  (∀ (s : State) (z : ZoneNo) (v : Word),
    let x := s.zone z.val
    let step : BitVec 4 := v.extractLsb' 0 4
    let least : BitVec 4 := if z.val < 32 then x.inuse else
      if s.mgmt.svc = 2 ∧ Config.edgeLoad z.val < 9 then 9 else Config.edgeLoad z.val
    (s.stepSum - x.step.toNat + step.toNat ≤ min s.cool.budget.toNat s.cool.avail.toNat → least.toNat ≤ step.toNat → x.inuse = 0 → x.state ≠ .dry →
      Ev s (.clallocWrite z v) fun t => t.zone z.val = { x with
        step := step, owner := v.extractLsb' 16 6, ov := v.getLsbD 22, any := v.getLsbD 23 } ∧ t.cool.refused = s.cool.refused) ∧
    (min s.cool.budget.toNat s.cool.avail.toNat < s.stepSum - x.step.toNat + step.toNat ∨ step.toNat < least.toNat ∨
        (x.inuse ≠ 0 ∧ x.owner ≠ v.extractLsb' 16 6) →
      Ev s (.clallocWrite z v) fun t => t.cool = { s.cool with refused := true } ∧ t.mem = s.mem)) ∧
  (∀ (s : State) (n : BitVec 9),
    (s.stepSum ≤ n.toNat → Ev s (.pumpAvailLow n) fun t => t = { s with cool := { s.cool with avail := n } }) ∧
    (n.toNat < s.stepSum → s.mgmt.svc = 1 → mwf .zero s.cool.zones = true → Ev s (.pumpAvailLow n) fun t => t.cool.avail = n ∧
      ∀ z, (t.zone z).inuse = (s.zone z).inuse ∧ ((t.zone z).step = (s.zone z).step ∨ (t.zone z).step = s.leastStep z))) ∧
  (∀ (s : State) (z : ZoneNo),
    let x := s.zone z.val
    let since (t n : Nat) : Prop := t + n * 1100 ≤ s.wall
    let goes (i : Instr) (st : ZState) : Prop := Ev s i fun t => (t.zone z.val).state = st ∧ (t.zone z.val).enteredAt = s.wall ∧ t.mem = s.mem
    let faults (i : Instr) : Prop := Ev s i fun t => (t.zone z.val).state = .fault ∧ t.out = s.out ++ [.report 5 (BitVec.ofNat 64 z.val)]
    let bounded (n : Nat) (i : Instr) (p : Prop) : Prop :=
      (s.wall ≤ x.enteredAt + n * 1100 → p) ∧ (x.enteredAt + n * 1100 < s.wall → faults i)
    (x.state = .filled → x.throttledAt = none →
      (100 ≤ x.lowCount → Ev s (.flowLow z) fun t => t.zone z.val = { x with throttledAt := some s.wall }) ∧
      (100 ≤ x.deltaCount ∨ 560 < x.tout.toNat → Ev s (.deltaT z) fun t => t.zone z.val = { x with throttledAt := some s.wall })) ∧
    (∀ a, x.state = .filled → x.held = false → x.throttledAt = some a → x.lowCount < 100 → x.deltaCount < 100 → x.tout.toNat ≤ 560 →
      Ev s (.zoneThrottleClear z) fun t => t.zone z.val = { x with throttledAt := none }) ∧
    (∀ a b, x.state = .withdrawn → x.held = false → x.throttledAt = some a → x.clearSince = some b →
      (since b 100000 → Ev s (.zoneThrottleClear z) fun t => (t.zone z.val).state = .filled ∧ (t.zone z.val).throttledAt = none) ∧
      (¬ since b 100000 → Ev s (.zoneThrottleClear z) fun t => t = s)) ∧
    (∀ a, z.val < 32 → x.state = .filled → x.throttledAt = some a → 100 ≤ x.lowCount → since a 10000 →
      (s.sched.launches = [] → Ev s (.zoneWithdraw z) fun t => (t.zone z.val).state = .withdrawn ∧
        ∀ i < 8, (t.core (8 * z.val + i)).gated = true) ∧
      (∀ h l c, s.sched.launches = [(h, l)] → l.state = .running → l.team = [c] → l.held = [] → cluOf (coreOf c) = z.val →
        (s.ctx c).act = .ready → (s.ctx c).seg = none → mwf .zero s.ctxs = true → Ev s (.zoneWithdraw z) fun t =>
          (t.zone z.val).state = .withdrawn ∧ t.ctx c = .zero ∧ Killed t h (.outside .coolant)) ∧
      (∀ h l c, s.sched.launches = [(h, l)] → l.state = .committing → l.team = [c] → cluOf (coreOf c) = z.val →
        Ev s (.zoneWithdraw z) fun t => (t.zone z.val).state = .withdrawn ∧ t.launch h = some l ∧ t.cores = s.cores ∧ t.ctxs = s.ctxs)) ∧
    (z.val < 32 → x.state = .filled → s.sched.launches = [] →
      (x.dp.toNat < 5 → goes (.dry z) .quiesce) ∧ (50 < x.cond.toNat → goes (.leak z) .quiesce) ∧
      (x.cond.toNat ≤ 50 → Ev s (.leak z) fun t => t = s)) ∧
    (z.val < 32 → x.state = .bleed → 50 < x.cond.toNat → Ev s (.leak z) fun t =>
      (t.zone z.val).state = .inletShut ∧ (t.zone z.val).leaked = true) ∧
    (x.state = .quiesce → s.sched.launches = [] → bounded 64 (.gated z) (goes (.gated z) .gated)) ∧
    (x.state = .gated → bounded 20 (.inletShut z) (goes (.inletShut z) .inletShut)) ∧
    (x.state = .inletShut → (x.stuck = false ∨ s.wall ≤ x.enteredAt + 50000 * 1100) → Ev s (.coolantFault z) fun t => t = s) ∧
    (x.state = .inletShut → x.stuck = true → x.enteredAt + 50000 * 1100 < s.wall → faults (.coolantFault z)) ∧
    (x.state = .inletShut → x.stuck = false → (∀ k < z.val, (s.zone k).state ≠ .inletShut) → (∀ k, (s.zone k).state ≠ .purge) → goes (.purge z) .purge) ∧
    (∀ k < z.val, x.state = .inletShut → (s.zone k).state = .inletShut → (s.zone k).stuck = false → Ev s (.purge z) fun t => t = s) ∧
    (∀ a, x.state = .purge → x.clearSince = some a → x.flow = 0 → 145 ≤ x.dp.toNat → x.dp.toNat ≤ 155 →
      (since a 500000 → a + 500000 * 1100 ≤ x.enteredAt + 5000000 * 1100 → goes (.outletShut z) .outletShut) ∧
      (since a 500000 → x.enteredAt + 5000000 * 1100 < a + 500000 * 1100 → faults (.outletShut z)) ∧ (¬ since a 500000 → Ev s (.outletShut z) fun t => t = s)) ∧
    (x.state = .outletShut → bounded 50000 (.evacuationDry z)
      (Ev s (.evacuationDry z) fun t => (t.zone z.val).state = .dry ∧ (t.zone z.val).evac = true)) ∧
    (x.state = .dry → x.leaked = false → x.held = false → x.evac = false → goes (.refill z) .refill) ∧
    (x.state = .dry → (x.leaked = true ∨ x.held = true) → Ev s (.refill z) fun t => t = s) ∧
    (x.state = .dry → x.leaked = false → x.held = false → x.evac = true →
      (since x.enteredAt 60000000 → goes (.refill z) .refill) ∧ (¬ since x.enteredAt 60000000 → Ev s (.refill z) fun t => t = s)) ∧
    (x.state = .refill → bounded 50000 (.bleed z) (goes (.bleed z) .bleed)) ∧
    (∀ a, x.state = .bleed → x.clearSince = some a → 9 ≤ x.flow.toNat → x.flow.toNat ≤ 11 → x.cond.toNat ≤ 50 → x.dp = x.dpRef →
      since a 2000000 →
      let late : Prop := x.enteredAt + 30000000 * 1100 < a + 2000000 * 1100 ∨ a + 2000000 * 1100 + 20 * 1100 < s.wall
      (¬ late → goes (.refillDone z) .filled) ∧ (late → faults (.refillDone z))) ∧
    (x.state = .purge → x.clearSince = none → bounded 5000000 (.coolantFault z) (Ev s (.coolantFault z) fun t => t = s)) ∧
    (32 ≤ z.val → x.state = .filled → x.held = false → x.dp.toNat < 5 → s.sched.launches = [] → Ev s (.hbmEdgeTrap z) fun t =>
      (t.zone z.val).held = true ∧ t.out = s.out ++ [.report 6 (BitVec.ofNat 64 z.val)] ∧
      ∀ k < 8, (t.zone (8 * ((z.val - 32) / 2) + k)).state = .withdrawn ∧ (t.zone (8 * ((z.val - 32) / 2) + k)).held = true ∧
        ∀ i < 8, (t.core (8 * (8 * ((z.val - 32) / 2) + k) + i)).gated = true))

/-! ## The fabric (23) -/

/-- 23 R358–R365, 13 R262: a port trains, comes up, counts replays and fails with the launches that named it; contributions
combine at the switch and are staged at the home with the epoch they were sent in, or go to another package, which may refuse
them; commit and discard messages first forward the hallmark's partials and empty its staged entries; a commit combines each
into committed memory, as a host write, and a discard poisons its messages; an issuer keeps a commit message until it is
acknowledged or given up. The model's own choices in it: log 3, 71, 82, 84, 107. -/
def Obligations.FabricActs : Prop :=
  (∀ (s : State) (p : PortNo),
    let x := s.port p.val
    (x.state = 0 → x.en = false → Ev s (.portTrain p) fun t => t.port p.val = { x with en := true, state := 1 }) ∧
    (x.state = 3 → Ev s (.portTrain p) fun t => t.port p.val = { x with en := true, state := 1 }) ∧
    (∀ sw n, x.state = 1 → Ev s (.portUp p sw n) fun t => t.port p.val = { x with
      state := 2, sw := sw, lanes := if 8 < n.toNat then 8 else n }) ∧
    (∀ sw n, x.state ≠ 1 → x.state ≠ 0 → Ev s (.portUp p sw n) fun t => t.port p.val = x) ∧
    (Ev s (.flitReplay p) fun t => (t.port p.val).replays.toNat = min (x.replays.toNat + 1) 255 ∧ (t.port p.val).state = x.state) ∧
    (x.state ≠ 2 → Ev s (.portFailure p) fun t => t = s) ∧
    (x.state = 2 → s.sched.launches = [] → s.ctxs = [] → Ev s (.portFailure p) fun t => t.port p.val = { x with state := 3, lanes := 0 } ∧
      ∃ e, t.mgmt.errors = s.mgmt.errors ++ [e] ∧ e.kind = 4 ∧ e.unit.toNat = 32 * (p.val / 4) + 21) ∧
    (∀ h l c d q, x.state = 2 → s.sched.launches = [(h, l)] → l.state = .running → l.team = [c] → l.held = [] →
      mwf .zero s.ctxs = true → (∀ e ∈ s.ctxs, e.1 ≠ c → e.2.col = []) → (s.ctx c).acc = [] → (s.ctx c).col = [d] → d.op = .lksend q → d.want = none →
      (q.toNat = p.val → Ev s (.portFailure p) fun t => (t.port p.val).state = 3 ∧ t.ctx c = .zero ∧ Killed t h (.outside .txAborted)) ∧
      (q.toNat ≠ p.val → Ev s (.portFailure p) fun t => (t.port p.val).state = 3 ∧ t.launch h = some l))) ∧
  (∀ (s : State) (x : Contribution) (e : Staged) (l : List Staged),
    (s.fab.partials = [] → Ev s (.windowContributionMerge x) fun t =>
      t.fab.partials = [⟨x.hall, x.home, x.window, x.pa, x.value, x.epoch⟩] ∧ t.mem = s.mem) ∧
    (s.fab.partials = [e] → e.hall = x.hall → e.pa = x.pa → e.home = x.home → Ev s (.windowContributionMerge x) fun t =>
      t.fab.partials = [{ e with value := joinStaged (mget (0, 0) s.fab.frwin x.window.val).1 e.value x.value }]) ∧
    ((mget (0, 0) s.fab.frwin x.window.val).1.getLsbD 62 = true → s.fab.partials = [e] → e.hall = x.hall → e.pa = x.pa →
      e.home = x.home → s.fab.staged = [] → ¬ s.epochOf (issuerOf x.hall) < e.epoch →
      s.slotsUsed (homeDie (e.pa / 64)) < s.mem.slots → Ev s (.windowPartialStage x) fun t => t.fab.staged = [e] ∧ t.fab.partials = []) ∧
    ((mget (0, 0) s.fab.frwin x.window.val).1.getLsbD 62 = true → s.fab.partials = [] → ¬ s.epochOf (issuerOf x.hall) < x.epoch →
      (s.fab.staged = [e] → e.hall = x.hall → e.pa = x.pa → Ev s (.windowPartialStage x) fun t =>
        t.fab.staged = [{ e with value := joinStaged (mget (0, 0) s.fab.frwin x.window.val).1 e.value x.value }]) ∧
      (s.fab.staged = l → (∀ e ∈ l, ¬ (e.hall = x.hall ∧ e.pa = x.pa)) → s.slotsUsed (homeDie (x.pa / 64)) < s.mem.slots →
        Ev s (.windowPartialStage x) fun t =>
          t.fab.staged = l ++ [⟨x.hall, x.home, x.window, x.pa, x.value, x.epoch⟩]) ∧
      (∀ m, s.fab.staged = l → (∀ e ∈ l, ¬ (e.hall = x.hall ∧ e.pa = x.pa)) → s.mem.slots = 0 → s.launch x.hall = some m →
        m.state = .running → Ev s (.windowPartialStage x) fun t => t.fab.staged = l ∧
          ∃ n, t.launch x.hall = some n ∧ n.state = .aborted ∧ n.why = .shadowFull)) ∧
    ((mget (0, 0) s.fab.frwin x.window.val).1.getLsbD 62 = false → s.fab.partials = [e] → e.hall = x.hall → e.pa = x.pa →
      e.home = x.home → Ev s (.windowPartialStage x) fun t => t.fab.partials = [] ∧ t.fab.staged = s.fab.staged ∧
        (∀ m, s.launch x.hall = some m → m.state = .running → t.launch x.hall = some m ∨
          ∃ n, t.launch x.hall = some n ∧ n.state = .aborted ∧ n.why = .shadowFull) ∧
        (s.launch x.hall = none → t.mem = s.mem))) ∧
  (∀ (s : State) (h : Hall),
    let gone (t : State) : Prop := (∀ e ∈ t.fab.staged, e.hall ≠ h) ∧ ∀ e ∈ t.fab.partials, e.hall ≠ h
    (Ev s (.windowCommitMessage h) fun t => gone t ∧ t.out.getLast? = some (.ack h (issuerOf h))) ∧
    (Ev s (.windowDiscardMessage h) fun t => gone t ∧ (∃ r, t.out.getLast? = some (.poisoned h r)) ∧
      ∀ d, ∀ m ∈ (t.die d).held, m.hall = h → ∀ i < (m.bytes.length + 7) / 8, ∃ g, (i, g) ∈ m.poison) ∧
    ((∀ e ∈ s.fab.partials, e.hall ≠ h) →
      (Ev s (.windowCommitMessage h) fun t => (∀ e, e ∈ t.fab.staged ↔ e ∈ s.fab.staged ∧ e.hall ≠ h) ∧
        t.fab.partials = s.fab.partials ∧ ((∀ e ∈ s.fab.staged, e.hall ≠ h) → t.mem = s.mem)) ∧
      (Ev s (.windowDiscardMessage h) fun t => (∀ e, e ∈ t.fab.staged ↔ e ∈ s.fab.staged ∧ e.hall ≠ h) ∧
        t.fab.partials = s.fab.partials ∧ t.mem = s.mem) ∧
      (∀ e g l, s.fab.staged.filter (fun e => decide (e.hall = h)) = [e] → s.sched.launches = [(g, l)] → l.state = .running →
        sigTest l.sig (e.pa / 64) = true → Ev s (.windowCommitMessage h) fun t =>
          ∃ m, t.launch g = some m ∧ m.state = .aborted ∧ m.why = .conflict true))) ∧
  (∀ (s : State) (h : Hall),
    let word (e : Staged) : Word := (mget (0, 0) s.fab.frwin e.window.val).1
    let size (e : Staged) : Nat := 2 ^ ((word e).extractLsb' 56 2).toNat
    let op (e : Staged) : AtomicOp := match ((word e).extractLsb' 58 4).toNat with
      | 0 => .add | 1 => .min | 2 => .max | _ => .minu
    let old (e : Staged) : Nat := natOf ((List.range (size e)).map fun j => mget hbmDefault s.mem.hbm (e.pa + j))
    let mine := s.fab.staged.filter fun e => decide (e.hall = h)
    (∀ e ∈ s.fab.partials, e.hall ≠ h) → s.mem.shadow = [] → mwf hbmDefault s.mem.hbm = true → (mine.map fun e => e.pa / 8).Nodup →
    (∀ e ∈ mine, (size e = 4 ∨ size e = 8) ∧ e.pa % size e = 0 ∧ mget none s.mem.hbmPoison (e.pa / 8) = none ∧
      ((word e).extractLsb' 58 4).toNat < 4 ∧ ∀ x ∈ s.sched.launches, sigTest x.2.sig (e.pa / 64) = false) →
    Ev s (.windowCommitMessage h) fun t => t.sched.launches = s.sched.launches ∧
      (∀ e ∈ mine, ∀ j < size e, mget hbmDefault t.mem.hbm (e.pa + j) =
        (bytesOf (size e) (atomicNew (op e) (size e) (old e) (e.value.toNat % 2 ^ (8 * size e)) 0)).getD j 0) ∧
      ∀ i, (∀ e ∈ mine, i < e.pa ∨ e.pa + size e ≤ i) → mget hbmDefault t.mem.hbm i = mget hbmDefault s.mem.hbm i) ∧
  (∀ (s : State) (p : BitVec 16) (n : BitVec 32), p ≠ Config.pkgId →
    (s.epochOf p < n → Ev s (.epochRelease p n) fun t => t.epochOf p = n ∧ t.mem = s.mem ∧
      ∀ e, e ∈ t.fab.staged ↔ e ∈ s.fab.staged ∧ ¬ (issuerOf e.hall = p ∧ e.epoch < n)) ∧
    (¬ s.epochOf p < n → Ev s (.epochRelease p n) fun t => t = s)) ∧
  (∀ (s : State) (h : Hall) (l : Launch) (c : Nat) (x : Touch), s.launch h = some l → l.state = .committed → l.team = [c] →
    l.touch = [x] →
    (Ev s (.commitAck h x.home) fun t => ∃ m, t.launch h = some m ∧ m.touch = [{ x with acked := true }] ∧ m.team = [c]) ∧
    (x.acked = false → Ev s (.commitResend h x.home) fun t => t.launch h = some { l with touch := [{ x with resends := x.resends + 1 }] } ∧
      t.out = s.out ++ [.commit h x.home s.fab.epoch]) ∧
    (x.acked = true → Ev s (.commitResend h x.home) fun t => t = s) ∧
    (x.acked = false → x.given = false → 64 ≤ x.resends → Ev s (.commitGiveUp h x.home) fun t =>
      t.launch h = some { l with touch := [{ x with given := true }] } ∧
      ∃ e, t.mgmt.errors = s.mgmt.errors ++ [e] ∧ e.kind = 4 ∧ e.place = x.home.setWidth 64) ∧
    (x.acked = false → x.given = false → x.resends < 64 → s.cutOff x.home = false → Ev s (.commitGiveUp h x.home) fun t => t = s))

/-! ## The management core's commands (14, 17, 21) -/

end

namespace Sys2Proof.Claims

open Sys2Proof Sys2Proof.Machine

/-- Command `c` stands at the head of ring `r`, it is the ring's turn, and it passes the checks of 21 R332. -/
structure Heads (s : State) (r : RingNo) (c : Cmd) : Prop where
  head : s.headCmd r.val = some c
  turn : s.turnOf r.val = true
  newer : (s.ring r.val).seq < c.seq
  whole : c.clean = true
  signed : r.val = 64 → c.signed s.mgmt.operatorKey = true

/-- The 200 signed bytes of an attestation report (21 R337): each field at its offset. -/
structure Attests (s : State) (p : Fin 64) (nonce : List Byte) (i : Option Image) (m : List Byte) : Prop where
  size : m.length = 200
  magic : leAt m 0 4 = 0x31545441
  version : leAt m 4 2 = 0x0100
  partition : leAt m 6 2 = p.val
  nonce : cut m 8 32 = nonce
  package : leAt m 0x28 8 = Config.pkgId.toNat
  serial : leAt m 0x30 8 = Config.serial.toNat
  security : leAt m 0x38 4 = (fwVersion s.mgmt.boot).toNat
  configuration : leAt m 0x3C 4 = Config.recordNo.toNat
  firmware : beNat (cut m 0x40 32) = (fwMeasure (Config.stages s.mgmt.boot)).toNat
  configured : beNat (cut m 0x60 32) = (sha256 Config.cfgRecord.1).toNat
  owner : beNat (cut m 0x80 32) = (sha256 (ownerRecord s.mgmt.boot)).toNat
  image : beNat (cut m 0xA0 32) = (i.map fun x => x.measure.toNat).getD 0
  handle : leAt m 0xC0 4 = (i.map fun x => x.handle.toNat).getD 0
  level : leAt m 0xC4 1 = 0x10
  stepping : leAt m 0xC5 1 = 0x21
  service : leAt m 0xC6 1 = s.mgmt.svc.toNat
  debug : leAt m 0xC7 1 = ((i.map fun x => if x.debug then 1 else 0).getD 0)

/-- The command is answered with a status and two words, the ring moves past it, and `P` holds. -/
def Answers (s : State) (i : Instr) (r : RingNo) (c : Cmd) (status : Nat) (r0 r1 : Word) (P : State → Prop) : Prop :=
  Ev s i fun t => t.out.getLast? = some (.response r.val status c.seq r0 r1) ∧
    t.ring r.val = ⟨(s.ring r.val).taken + 1, c.seq⟩ ∧ P t

end Sys2Proof.Claims

section

open Sys2Proof Sys2Proof.Machine Sys2Proof.Claims

/-- 17 R291, R312, 21 R331–R334, R337, 12 R246: a partition ring's commands, each once no key command is awaited: INSTALL and
DBGLOAD answer the handle and measurement or the reason, the installer reporting the whole measurement or the diagnostic,
REMOVE and QSET act on what the partition owns alone, ATTEST writes the signed report of the image it names; an op that is not
listed, a sequence number that does not rise and an operator command that is not signed are answered as such. The model's own
choices in it: log 94, 95, 96, 97. -/
def Obligations.PartitionCommands : Prop :=
  (∀ (s : State) (r : RingNo) (c : Cmd) (x : Part), Heads s r c → r.val < 64 → s.partition r.val = some x →
    let p := partFin r.val
    let own (i : Image) : Bool := i.handle.setWidth 64 == c.a 0 && (!i.removed || s.live.any fun e => e.2.image == i.handle)
    let u := s.awaitRing r.val
    (c.op = 0x01 →
      (u.stringAt p (c.a 0) (c.a 1) = none → Answers s (.install r) r c 1 2 0 fun t => t.mgmt.images = s.mgmt.images) ∧
      (∀ b, u.stringAt p (c.a 0) (c.a 1) = some b →
        let q := (u.awaitAt p (c.a 0) (c.a 1).toNat).install p x.signers b
        Answers s (.install r) r c (match q.2 with | .ok _ => 0 | .error _ => 1)
          (match q.2 with | .ok h => h.setWidth 64 | .error e => BitVec.ofNat 64 e.code)
          (match q.2 with | .ok _ => q.1.lastMeasure.setWidth 64 | .error _ => 0) fun t => t.mgmt.images = q.1.mgmt.images ∧
            match q.2 with
            | .ok h => ∃ m, .installed h q.1.lastMeasure m ∈ t.out
            | .error e => .diagnostic e.code e.diag ∈ t.out)) ∧
    (c.op = 0x05 →
      (x.debugOk = false → Answers s (.dbgload r) r c 1 0 0 fun t => t.mgmt.images = s.mgmt.images) ∧
      (x.debugOk = true → u.stringAt p (c.a 0) (c.a 1) = none → Answers s (.dbgload r) r c 1 2 0 fun t => t.mgmt.images = s.mgmt.images) ∧
      (∀ b, x.debugOk = true → u.stringAt p (c.a 0) (c.a 1) = some b →
        let q := (u.awaitAt p (c.a 0) (c.a 1).toNat).debugLoad p b
        Answers s (.dbgload r) r c (match q.2 with | .ok _ => 0 | .error _ => 1)
          (match q.2 with | .ok h => h.setWidth 64 | .error e => BitVec.ofNat 64 e.code)
          (match q.2 with | .ok _ => q.1.lastMeasure.setWidth 64 | .error _ => 0) fun t => t.mgmt.images = q.1.mgmt.images)) ∧
    (c.op = 0x02 →
      (s.mgmt.images.find? own = none → Answers s (.remove r) r c 2 0 0 fun t => t.mgmt.images = s.mgmt.images) ∧
      (∀ i, s.mgmt.images.find? own = some i →
        (i.part ≠ p → Answers s (.remove r) r c 1 0 0 fun t => t.mgmt.images = s.mgmt.images) ∧
        (i.part = p → Answers s (.remove r) r c 0 0 0 fun t =>
          t.mgmt.images = s.mgmt.images.map fun j => if j.handle = i.handle then { j with removed := true } else j))) ∧
    (c.op = 0x03 →
      let q := (c.a 0).toNat
      let lsize : BitVec 5 := (c.a 4).extractLsb' 5 5
      (1024 ≤ q ∨ lsize.toNat < 2 ∨ 16 < lsize.toNat → Answers s (.qset r) r c 2 0 0 fun t => t.sched.queues = s.sched.queues) ∧
      (q < 1024 → 2 ≤ lsize.toNat → lsize.toNat ≤ 16 →
        (q < x.qFirst ∨ x.qFirst + x.qCount ≤ q → Answers s (.qset r) r c 1 0 0 fun t => t.sched.queues = s.sched.queues) ∧
        (x.qFirst ≤ q → q < x.qFirst + x.qCount → (s.queue q).owner = p → Answers s (.qset r) r c 0 0 0 fun t =>
          (t.queue q).lsize = lsize ∧ (t.queue q).en = (c.a 4).getLsbD 0 ∧ (t.queue q).dev = (c.a 1).getLsbD 0 ∧
          (t.queue q).base.toNat = (c.a 2).toNat / 2 ^ 7 % 2 ^ 41 * 2 ^ 7 ∧ (t.queue q).tail.toNat = (c.a 3).toNat / 2 ^ 3 % 2 ^ 45 * 2 ^ 3 ∧
          (t.queue q).part = (s.queue q).part))) ∧
    (c.op = 0x04 →
      (u.stringAt p (c.a 0) 32 = none → Answers s (.attest r) r c 2 0 0 fun t => t.mem = (u.respond r.val c true 2 0 0).mem) ∧
      (∀ b, u.stringAt p (c.a 0) 32 = some b →
        let w := u.awaitAt p (c.a 0) 32
        let gives (i : Option Image) : Prop := Answers s (.attest r) r c 0 0 0 fun t => t.mgmt.images = s.mgmt.images ∧
          ∃ m, Attests s p b i m ∧ t.mem = ((w.tick.hostPut p (c.a 2) (clean (w.signedBytes m))).respond r.val c true 0 0 0).mem
        (c.a 1 = 0 → gives none) ∧
        (c.a 1 ≠ 0 → s.byHandle (c.a 1) = none → Answers s (.attest r) r c 2 0 0 fun t => t.mem = (w.respond r.val c true 2 0 0).mem) ∧
        (∀ i, c.a 1 ≠ 0 → s.byHandle (c.a 1) = some i → i.part ≠ p → Answers s (.attest r) r c 1 0 0 fun t =>
          t.mem = (w.respond r.val c true 1 0 0).mem) ∧
        (∀ i, c.a 1 ≠ 0 → s.byHandle (c.a 1) = some i → i.part = p → gives (some i))))) ∧
  (∀ (s : State) (r : RingNo) (c : Cmd), Heads s r c → listed r.val c.op = false →
    Answers s (.unlistedCommandOp r) r c 2 0 0 fun t => t.tr.keys = s.tr.keys ∧ t.tr.tlb = s.tr.tlb ∧ t.cool = s.cool) ∧
  (∀ (s : State) (r : RingNo) (c : Cmd), s.headCmd r.val = some c → s.turnOf r.val = true → r.val = 64 → c.op = 0x1B →
    mwf .zero s.mgmt.rings = true →
    let ring : Ring := ⟨(s.ring 64).taken + 1, (s.ring 64).seq⟩
    (c.signed s.mgmt.operatorKey = false → Ev s (.hbset r) fun t => t.out.getLast? = some (.response 64 4 c.seq 0 0) ∧ t.ring 64 = ring ∧
      t.mgmt.hbPeriod = s.mgmt.hbPeriod) ∧
    (c.signed s.mgmt.operatorKey = true → c.seq ≤ (s.ring 64).seq → Ev s (.hbset r) fun t => t.out.getLast? = some (.response 64 3 c.seq 0 0) ∧
      t.ring 64 = ring ∧ t.mgmt.hbPeriod = s.mgmt.hbPeriod))

/-- 14 R284, 21 R325, R331–R345, 23 R381: the operator's commands: partitions are created, swapped, reset and destroyed, keys
loaded, what is another partition's refused, the service level changed when nothing runs, checkpoints streamed (all HBM that
no range of RSV.i reserves, in ascending runs, then the signed manifest) and restored with the images that run on the part,
management space copied out, capture units and the heartbeat set. What images a restored memory holds is the model's choice
(log 100). The model's own choices in it: log 83, 97, 98, 99, 100. -/
def Obligations.OperatorCommands : Prop :=
  ∀ (s : State) (r : RingNo) (c : Cmd), Heads s r c → r.val = 64 →
    let p := partFin c.target
    let a0 := (c.a 0).toNat
    let ones (t : State) : Prop := t.mgmt.stopped = BitVec.allOnes 64
    (c.op = 0x10 →
      let first := (c.a 2).toNat % 2 ^ 10
      let count := (c.a 2).toNat / 2 ^ 10 % 2 ^ 11
      (s.partDesc p (c.a 4) = none → Answers s (.pcreate r) r c 2 0 0 fun t => t.mgmt.parts = s.mgmt.parts) ∧
      (∀ d, s.partDesc p (c.a 4) = some d → first + count ≤ 1024 → (c.a 2).toNat < 2 ^ 29 →
        (∀ y, s.partition p.val = some y → Answers s (.pcreate r) r c 1 0 0 fun t => t.mgmt.parts = s.mgmt.parts) ∧
        ((∃ z < 40, d.zones.testBit z = true ∧ s.zoneTaken p.val z = true) →
          Answers s (.pcreate r) r c 1 0 0 fun t => t.mgmt.parts = s.mgmt.parts ∧ t.cool = s.cool) ∧
        (s.mgmt.parts = [] → (∀ z < 40, d.zones.testBit z = true → s.zoneTaken p.val z = false) → Answers s (.pcreate r) r c 0 0 0 fun t =>
          t.partition p.val = some ⟨c.a 1, d.signers, first, count, c.a 3, d.endpoint, d.jobs, false⟩ ∧
          t.mgmt.stopped.getLsbD p.val = false))) ∧
    (∀ x, s.partition c.target = some x →
      let kills (i : Instr) (op : Nat) (y : Why) : Prop := ∀ (h : Hall) (l : Launch) (d : Nat), c.op = op → s.sched.launches = [(h, l)] →
        l.state = .running → l.part = p → l.team = [d] → l.held = [] → mwf .zero s.ctxs = true →
        Answers s i r c 0 0 0 fun t => t.ctx d = .zero ∧ Killed t h y
      (c.op = 0x11 → Answers s (.pswapout r) r c 0 0 0 fun t => t.mgmt.stopped.getLsbD p.val = true) ∧
      (c.op = 0x12 → Answers s (.pswapin r) r c 0 0 0 fun t => t.mgmt.stopped.getLsbD p.val = false) ∧
      (kills (.pswapout r) 0x11 (.outside .txAborted)) ∧ (kills (.preset r) 0x13 .reset) ∧
      (∀ q d, c.op = 0x13 → s.sched.launches = [] → s.sched.queues = [(q, d)] → d.owner = p → Answers s (.preset r) r c 0 0 0 fun t =>
        (t.queue q).en = false ∧ (t.queue q).head = d.seen) ∧
      (c.op = 0x14 →
        (s.tr.keyPending ≠ none → Ev s (.pdestroy r) fun t => t = s) ∧
        (s.tr.keyPending = none → mwf none s.mgmt.parts = true → Answers s (.pdestroy r) r c 0 0 0 fun t =>
          t.partition p.val = none ∧ (∀ e ∈ t.tr.tlb, e.part ≠ some p) ∧ ∀ i ∈ t.mgmt.images, i.part = p → i.removed = true)) ∧
      (c.op = 0x15 → s.tr.keyPending = none →
        (a0 = 0 → Answers s (.keyloadCmd r) r c 1 0 0 fun t => t.tr.keys = s.tr.keys) ∧
        (4096 ≤ a0 → Answers s (.keyloadCmd r) r c 2 0 0 fun t => t.tr = s.tr) ∧
        (a0 < 4096 → s.keyForeign p a0 = true → Answers s (.keyloadCmd r) r c 1 0 0 fun t => t.tr.keys = s.tr.keys) ∧
        (0 < a0 → a0 < 4096 → s.keyForeign p a0 = false → Answers s (.keyloadCmd r) r c 0 0 0 fun t =>
          let k := mget .zero t.tr.keys a0
          k.loaded = true ∧ k.owner.toNat = p.val ∧ k.shared = (c.a 1).getLsbD 0 ∧ t.tr.keyPending = none ∧ t.tr.keyst = 0)) ∧
      (c.op = 0x1D →
        (c.a 0 = 1 → Answers s (.debugen r) r c 0 0 0 fun t => t.partition p.val = some { x with debugOk := true } ∧
          t.mgmt.images = s.mgmt.images) ∧
        (c.a 0 = 0 → Answers s (.debugen r) r c 0 0 0 fun t => t.partition p.val = some { x with debugOk := false } ∧
          ∀ i ∈ t.mgmt.images, i.part = p → i.debug = true → i.removed = true))) ∧
    (c.op = 0x16 →
      (c.a 1 ≠ 1 → c.a 1 ≠ 2 → Answers s (.svcset r) r c 2 0 0 fun t => t.mgmt.svc = s.mgmt.svc) ∧
      (a0 ≤ 1 → c.a 1 = 2 → s.mgmt.svc ≠ 2 → s.allFilled = false → Answers s (.svcset r) r c 1 0 0 fun t => t.mgmt.svc = s.mgmt.svc) ∧
      (a0 ≤ 1 → c.a 1 = 2 → s.mgmt.svc = 1 → s.allFilled = true → s.live = [] → Answers s (.svcset r) r c 0 0 0 fun t => t.mgmt.svc = 2) ∧
      (a0 ≤ 1 → c.a 1 = 1 → s.mgmt.svc = 2 → s.live = [] → mwf .zero s.cool.zones = true → Answers s (.svcset r) r c 0 0 0 fun t =>
        t.mgmt.svc = 1 ∧ ∀ z < 32, (t.zone z).step.toNat = ((s.zone z).step.toNat + 1) / 2)) ∧
    (c.op = 0x17 →
      (s.live = [] → Answers s (.ckpt r) r c 0 0 0 fun t => t.mgmt.waitFrom = none ∧ (∀ e ∈ t.mem.shadow, e.ticket = none) ∧
        let f := (s.modMgmt fun m => { m with waitFrom := none }).foldAll
        let runs := ckptRuns s.tr
        t.out = s.out ++ [.report 8 (c.a 0), .report 9 (c.a 1)] ++
          (runs.map fun e => .chunk e.1 (f.mem.stored e.1 e.2) (crc32c (f.mem.stored e.1 e.2))) ++
          [.manifest (f.signedBytes (f.manifest runs)), .response 64 0 c.seq 0 0] ∧
        (runs.map (·.1)).Pairwise (· < ·) ∧
        (∀ e ∈ runs, e.1 % 2 ^ 16 = 0 ∧ 0 < e.2 ∧ e.2 % 2 ^ 16 = 0 ∧ e.1 / 2 ^ 20 = (e.1 + e.2 - 1) / 2 ^ 20) ∧
        ∀ u < 2 ^ 23, (∃ e ∈ runs, e.1 ≤ 2 ^ 16 * u ∧ 2 ^ 16 * u < e.1 + e.2) ↔ s.tr.reserved (2 ^ 16 * u) = false) ∧
      (s.live ≠ [] → (c.a 2).getLsbD 0 = false → s.mgmt.waitFrom = none → Ev s (.ckpt r) fun t =>
        t.mgmt.waitFrom = some s.wall ∧ t.out = s.out ∧ t.ring 64 = s.ring 64 ∧ t.mem = s.mem)) ∧
    (c.op = 0x18 →
      let k := tierChunks (c.a 0) (c.a 1) 8388608 0
      let man := tierBytes (c.a 0) (c.a 1) (k.2 + 8) (natOf (tierBytes (c.a 0) (c.a 1) k.2 8))
      let u := s.foldAll.modMgmt fun m => { m with stopped := BitVec.allOnes 64 }
      (s.live ≠ [] → Answers s (.restore r) r c 1 0 0 fun t => t.mgmt.stopped = s.mgmt.stopped) ∧
      (s.live = [] →
        let fits := decide (k.1.length = leAt man 16 8) && (u.restoreChunks (c.a 0) (c.a 1) man k.1.zipIdx).2
        Answers s (.restore r) r c (if manifestOk man then (if fits then 0 else 2) else 4) 0 0 fun t => ones t ∧
          ((manifestOk man && fits) = true →
            let v := (u.restoreChunks (c.a 0) (c.a 1) man k.1.zipIdx).1.restorePoison man
            let l := restoredImages (c.a 0) (c.a 1)
            t.mem = ((v.restoreImages l).respond 64 c true 0 0 0).mem ∧
            (∀ i ∈ t.mgmt.images, i.runs = true ∧ ∃ j, (j ∈ s.mgmt.images ∨ j ∈ l) ∧ v.reread j = some i) ∧
            (∀ j ∈ s.mgmt.images, ∀ i, v.reread j = some i → i.runs = true → i ∈ t.mgmt.images)) ∧
          ((manifestOk man && fits) = false → t.mgmt.images = s.mgmt.images))) ∧
    (c.op = 0x19 →
      (256 ≤ a0 → Answers s (.capset r) r c 2 0 0 fun _ => True) ∧
      (a0 < 256 → c.a 1 &&& 0x80FFFFFFFFFFFFFF ≠ 0 → Answers s (.capset r) r c 0 0 0 fun t =>
        (t.capture (a0 / 64) (a0 % 64)).ctl = c.a 1 &&& 0x80FFFFFFFFFFFFFF)) ∧
    (c.op = 0x1A →
      (a0 < mgmtBase → Answers s (.mread r) r c 2 0 0 fun _ => True) ∧
      (∀ b, mgmtBase ≤ a0 → (c.a 1).toNat ≤ 2 ^ 29 → s.spaceBytes (a0 - mgmtBase) (c.a 1).toNat = some b →
        Answers s (.mread r) r c 0 0 0 fun t => t.mgmt.parts = s.mgmt.parts ∧
          t.mem = ((s.putAt p (c.a 2) b).respond 64 c true 0 0 0).mem) ∧
      (mgmtBase ≤ a0 → s.spaceBytes (a0 - mgmtBase) (c.a 1).toNat = none → Answers s (.mread r) r c 2 0 0 fun _ => True)) ∧
    (c.op = 0x1B →
      (100 ≤ a0 → a0 ≤ 100000 → Answers s (.hbset r) r c 0 0 0 fun t => t.mgmt.hbPeriod.toNat = a0) ∧
      (a0 < 100 ∨ 100000 < a0 → Answers s (.hbset r) r c 2 0 0 fun t => t.mgmt.hbPeriod = s.mgmt.hbPeriod)) ∧
    (c.op = 0x1C →
      (a0 = 1 → s.live = [] → Answers s (.unprot r) r c 0 0 0 fun t => t.mgmt.unprotected = true) ∧
      (a0 ≤ 1 → s.live ≠ [] → Answers s (.unprot r) r c 1 0 0 fun t => t.mgmt.unprotected = s.mgmt.unprotected) ∧
      (1 < a0 → Answers s (.unprot r) r c 2 0 0 fun t => t.mgmt.unprotected = s.mgmt.unprotected))

/-! ## The whole machine -/

end

namespace Sys2Proof.Claims

open Sys2Proof Sys2Proof.Machine

/-- The register an instruction of the S or V slot, or one of the predicate and scale moves, writes. -/
def writes : Instr → Option Dest
  | .add o | .sub o | .mul o | .mulh o | .mulhu o | .div o | .divu o | .rem o | .remu o | .and o | .or o | .xor o | .shl o
  | .shr o | .sar o | .rol o | .ror o | .min o | .max o | .minu o | .maxu o => some (.s o.d)
  | .addi o | .andi o | .ori o | .xori o => some (.s o.d)
  | .shli o | .shri o | .sari o => some (.s o.d)
  | .abs o | .clz o | .ctz o | .popc o => some (.s o.d)
  | .cmpCc o => some (.p o.pd)
  | .cmpiCc o => some (.p o.pd)
  | .movi o | .movk o => some (.s o.d)
  | .sext o | .zext o => some (.s o.d)
  | .bext o => some (.s o.d)
  | .bins o => some (.s o.d)
  | .selp o => some (.s o.d)
  | .lea o => some (.s o.d)
  | .pmov o => some (.s o.d)
  | .pset o => some (.p o.pd)
  | .faddS o | .fmulS o | .ffmaS o => some (.s o.d)
  | .fcmpCc o => some (.p o.pd)
  | .fcvt o => some (.s o.d)
  | .packwe o => some (.s o.d)
  | .vadd o | .vsub o | .vmul o | .vmulh o | .vmin o | .vmax o | .vand o | .vor o | .vxor o | .vshl o | .vshr o | .vsar o =>
    some (.v o.vd)
  | .vabs o => some (.v o.vd)
  | .vcmpCc o => some (.q o.qd)
  | .vsel o | .vperm o => some (.v o.vd)
  | .viota o | .vbcst o => some (.v o.vd)
  | .vmovi o => some (.v o.vd)
  | .vfadd o | .vfsub o | .vfmul o | .vfmin o | .vfmax o => some (.v o.vd)
  | .vfma o => some (.v o.vd)
  | .vfabs o | .vfneg o | .vfrcp o | .vfrsq o | .vfexp2 o | .vflog2 o => some (.v o.vd)
  | .vfcmpCc o => some (.q o.qd)
  | .vfcvt o => some (.v o.vd)
  | .vqnt o => some (.v o.vd)
  | .vdqn o => some (.v o.vd)
  | .vradd o | .vrmax o | .vrmin o => some (.v o.vd)
  | .vscan o => some (.v o.vd)
  | .vext o => some (.s o.s)
  | .vins o => some (.v o.vd)
  | .vcmpr o | .vexpd o => some (.v o.vd)
  | .qand o | .qor o => some (.q o.qd)
  | .qnot o => some (.q o.qd)
  | .qcnt o => some (.s o.s)
  | .pand o | .por o | .pxor o => some (.p o.pd)
  | .pnot o => some (.p o.pd)
  | .xmov o => some (.x o.x)
  | .xset o => some (.x o.x)
  | _ => none

/-- What `step` keeps: HBM in the one canonical form of its list of bytes. -/
def Canonical (s : State) : Prop := Memory.wf s.mem.hbm = true

end Sys2Proof.Claims

section

open Sys2Proof Sys2Proof.Machine Sys2Proof.Claims

/-- 02 R51, R52, 03 R63, R69, R73: the frame of the instructions that only compute. Whatever its guard says, such an
instruction issues; at most one result, for its own destination and due at a later tick, joins those on their way; no
register, landing, accumulator, queue, control register or byte of memory changes, no other context changes, and the PC and
the loop stack alone move on. The model's own choices in it: log 9, 27. -/
def Obligations.RegisterFrame : Prop :=
  ∀ (s b : State) (c : Nat) (i : Instr) (d : Dest), Turn s c b → Quiet b c → writes i = some d →
    ∃ t, exec i s = .next t ∧
      (let x := b.ctx c
       let y := t.ctx c
       (y.fixed = x.fixed ∨ ∃ r : Res, r.dst = d ∧ x.ct < r.due ∧ y.fixed = insertRes r x.fixed) ∧
       y.regs = x.regs ∧ y.land = x.land ∧ y.uiLand = x.uiLand ∧ y.acc = x.acc ∧ y.mtx = x.mtx ∧ y.crd = x.crd ∧ y.col = x.col ∧
       y.vac = [] ∧ y.rel = x.rel ∧ y.causes = x.causes ∧ y.dfaults = x.dfaults ∧ y.mon = x.mon ∧ y.arrivals = x.arrivals ∧ y.fences = x.fences ∧
       y.act = x.act ∧ y.hall = x.hall ∧ y.grant = x.grant ∧
       y.ctl = { x.ctl with ldepth := y.ctl.ldepth } ∧ y.ct = x.ct + 1 ∧ y.issues = x.issues + 1 ∧
       (NoLoopEnd x (b.nextPc c) → y.pc = b.nextPc c ∧ y.loops = x.loops ∧ y.ctl = x.ctl)) ∧
      (∀ e, e ≠ c → t.ctx e = b.ctx e) ∧
      (∀ k, k ≠ coreOf c → t.core k = b.core k) ∧
      (∀ h a key, t.readMem h a key 1 = b.readMem h a key 1) ∧
      t.mem = b.mem ∧ t.tr = b.tr ∧ t.sched = b.sched ∧ t.mgmt = b.mgmt ∧ t.cool = b.cool ∧ t.fab = b.fab ∧ t.dies = b.dies ∧
      t.clusters = b.clusters ∧ t.cycle = b.cycle ∧ t.out = b.out

/-- 02 R36–R44, 06 R150: words of each slot written out from the spec's fields, and the micro-words of its own example (06), decode to
what they stand for; a reserved opcode, a reserved scope, a NOP with a field that is not zero and a uop of 0 are no instructions. -/
def Obligations.WordsDecode : Prop :=
  decodeSlot .c 0x100000000022 = some (.bar ⟨.always, 2, .clu⟩) ∧
  decodeSlot .c 0x130000000002 = some (.drain ⟨.always, .clu⟩) ∧
  decodeSlot .c 0x190C80000021 = some (.mfc ⟨.always, 50, 0x021⟩) ∧
  decodeSlot .c 0x0E3240000040 = some (.mwait ⟨⟨1, true⟩, 9, 64⟩) ∧
  decodeSlot .s0 0x1E00830804 = some (.cmpCc ⟨.s0, .always, .ltu, 2, 3, 2⟩) ∧
  decodeSlot .s1 0x3202841401 = some (.packwe ⟨.s1, .always, 10, 4, 5, true⟩) ∧
  decodeSlot .v 0x290228C002000000 = some (.vcmpr ⟨⟨.always, 1, false⟩, 5, 3, .i32⟩) ∧
  decodeSlot .c 0x130000000006 = none ∧ decodeSlot .c 0x1E0000000000 = none ∧ decodeSlot .l 0x006000000000 = none ∧
  decodeSlot .l 0x03012345020000 = some (.st ⟨.always, .release, .clu, 13, 5, 0, .w, 0⟩) ∧
  decodeSlot .m 0x010848280000 = some (.mcall ⟨.always, true, .mxi8, .mxi4, 5⟩) ∧
  decodeSlot .x 0x10321802 = some (.xld ⟨.always, 3, 8, 24, 2⟩) ∧
  decodeSlot .d 0x10051B700001 = some (.wget ⟨.always, 20, 27, 28, 1, false⟩) ∧
  (∀ sl, decodeSlot sl 0 = some (.nop sl)) ∧
  (∀ c, decodeMicro c 0x20100000000000000000000000000000 = some (.seta ⟨c, 0, 1, 0⟩) ∧
    decodeMicro c 0x30000000000000000000000000000000 = some (.setacc ⟨c, 0⟩) ∧
    decodeMicro c 0x40000000000000000000000000001000 = some (.scale ⟨c, true, 0, 0⟩) ∧
    decodeMicro c 0x50000000000000000000000000010080 = some (.loopu ⟨c, false, 0, 1, 128⟩) ∧
    decodeMicro c 0x10000000000000000000000000000000 = some (.step ⟨c, false, .madd⟩) ∧
    decodeMicro c 0x60000000000000000000000000000000 = some (.endu c) ∧ decodeMicro c 0 = none)

/-- 02 R32–R50, 06 R150: decoding an encoded bundle gives the bundle back, for every header and every well-formed instruction in
its own slot; a slot word decodes to at most the instruction that encodes to it; micro-words likewise. -/
def Obligations.EncodeDecodeAgree : Prop :=
  (∀ (h : Header) (l : List (Slot × Instr)), (l.map (·.1)).Sublist Slot.all →
    (∀ e ∈ l, e.2.slot = some e.1 ∧ e.2.wf = true ∧ e.2.isNop = false) →
    decodeBundle (encodeBundle ⟨h, l⟩) = .ok ⟨h, l⟩) ∧
  (∀ (sl : Slot) (x : Nat) (i : Instr), decodeSlot sl x = some i → encode i = x ∧ i.wf = true ∧ i.slot = some sl) ∧
  (∀ (sl : Slot) (i : Instr), i.slot = some sl → i.wf = true → encode i < 2 ^ sl.bits ∧ decodeSlot sl (encode i) = some i) ∧
  (∀ c : CtxNo,
    (∀ u : UStepArgs, u.c = c → decodeMicro c (BitVec.ofNat 128 (encodeMicro (.step u))) = some (.step u)) ∧
    (∀ u : USetaArgs, u.c = c → decodeMicro c (BitVec.ofNat 128 (encodeMicro (.seta u))) = some (.seta u)) ∧
    (∀ u : USetaccArgs, u.c = c → decodeMicro c (BitVec.ofNat 128 (encodeMicro (.setacc u))) = some (.setacc u)) ∧
    (∀ u : UScaleArgs, u.c = c → decodeMicro c (BitVec.ofNat 128 (encodeMicro (.scale u))) = some (.scale u)) ∧
    (∀ u : ULoopArgs, u.c = c → u.len ≠ 0 → decodeMicro c (BitVec.ofNat 128 (encodeMicro (.loopu u))) = some (.loopu u)) ∧
    decodeMicro c (BitVec.ofNat 128 (encodeMicro (.endu c))) = some (.endu c))

/-- 12 R233, R235, 13 R254, R258, R268, 21 R340, and the model's form of memory (log 4): no step leaves a byte listed out of
place or one that reads as an unlisted byte does; a step of a powered package goes on, and one of a package that is off stops
but for a reset (log 80). -/
def Obligations.MemoryStaysCanonical : Prop :=
  (∀ s t : State, Canonical s → step s = .next t → Canonical t) ∧
  (∀ (i : Instr) (s : State), ∃ t, exec i s = .next t) ∧
  (∀ s : State, s.powered = true → ∃ t, step s = .next t) ∧
  (∀ s : State, s.powered = false → s.agenda = [] → step s = .fault .poweredOff)

/-- What package reset leaves, as the register tables and 03 R62, R66, 07 R186, 12 R244, 13 R255, 14 R274, 21 R325, R338, R340, 22 R348,
R355 give it: contexts free, STATUS with level 0x10, stepping 0x21 and service level S1, no queue enabled, no invalidation in
progress, capture minima all ones, every zone dry. That memory lists nothing, and registers before dispatch read 0, is the model's
choice (log 4, 6). -/
def Obligations.ResetValues : Prop :=
  let s := State.reset
  Canonical s ∧ s.powered = true ∧ s.mem.hbm = [] ∧ s.mem.shadow = [] ∧ 3670016 * 4 ≤ s.mem.slots ∧ s.mem.slots ≤ 3670016 * 128 ∧ s.sched.launches = [] ∧
  (∀ c, (s.ctx c).act = .free ∧ (s.ctx c).hall = none ∧ readCtl s c 0x000 = 0x1021000400 ∧ readCtl s c 0x013 = 0 ∧
    (∀ n, (s.ctx c).sreg n = ⟨0, 0, none⟩) ∧ (∀ n, ((s.ctx c).preg n).v = decide (n = 0)) ∧ (∀ n, (s.ctx c).vreg n = ⟨0, []⟩)) ∧
  (∀ k, (s.core k).running = none ∧ (s.core k).stopped = false ∧ (s.core k).gated = false) ∧
  (∀ q, (s.queue q).en = false ∧ (s.queue q).head = 0) ∧ s.tr.tlb = [] ∧ s.tr.inv = none ∧
  (∀ k u, (s.chan k u).state = 0) ∧ Capture.zero.min = BitVec.allOnes 64 ∧
  s.mgmt.svc = 1 ∧ s.mgmt.hbPeriod = 1000 ∧ (∀ z, (mget Zone.zero s.cool.zones z).state = .dry) ∧ s.cool.budget = 500

end
end

