-- ==== Sys2Proof/Laws/Encoding.lean ====
section
/-! SUPPORT. Fields of encoded slot words: what each field of a word built by an `enc…` reads as. -/

namespace Sys2Proof

/-! ## Fields of packed numbers -/

theorem low_bits (q r lo n k : Nat) (h : lo + n ≤ k) : (q * 2 ^ k + r) / 2 ^ lo % 2 ^ n = r / 2 ^ lo % 2 ^ n := by
  obtain ⟨m, rfl⟩ := Nat.exists_eq_add_of_le h
  rw [show q * 2 ^ (lo + n + m) + r = r + 2 ^ lo * (2 ^ n * (q * 2 ^ m)) by rw [Nat.pow_add, Nat.pow_add]; ring,
    Nat.add_mul_div_left _ _ (by positivity), Nat.add_mul_mod_self_left]

theorem bitsAt_low {q r lo n k : Nat} (h : lo + n ≤ k) : bitsAt (q * 2 ^ k + r) lo n = bitsAt r lo n := low_bits q r lo n k h

theorem fld_low {q r lo n k : Nat} (h : lo + n ≤ k) : fld (q * 2 ^ k + r) lo n = fld r lo n := by
  apply BitVec.eq_of_toNat_eq
  simpa [fld] using low_bits q r lo n k h

theorem bitAt_low {q r i k : Nat} (h : i + 1 ≤ k) : bitAt (q * 2 ^ k + r) i = bitAt r i := by
  have := low_bits q r i 1 k h
  simp only [bitAt]; simp only [pow_one] at this; rw [this]

theorem mid_div {hi v r lo w : Nat} (hr : r < 2 ^ lo) : ((hi * 2 ^ w + v) * 2 ^ lo + r) / 2 ^ lo = hi * 2 ^ w + v := by
  rw [Nat.add_comm, Nat.add_mul_div_right _ _ (by positivity), Nat.div_eq_of_lt hr, Nat.zero_add]

theorem fld_mid {hi v r lo w n : Nat} (hn : n ≤ w) (hr : r < 2 ^ lo) :
    fld ((hi * 2 ^ w + v) * 2 ^ lo + r) lo n = BitVec.ofNat n v := by
  apply BitVec.eq_of_toNat_eq
  simp only [fld, BitVec.toNat_ofNat, mid_div hr]
  simpa using low_bits hi v 0 n w (by omega)

theorem bitsAt_mid {hi v r lo w : Nat} (hr : r < 2 ^ lo) (hv : v < 2 ^ w) : bitsAt ((hi * 2 ^ w + v) * 2 ^ lo + r) lo w = v := by
  simp only [bitsAt, mid_div hr]
  rw [Nat.add_comm, Nat.add_mul_mod_self_right, Nat.mod_eq_of_lt hv]

theorem bitAt_mid {hi r lo : Nat} {v : Bool} (hr : r < 2 ^ lo) : bitAt ((hi * 2 ^ 1 + b2n v) * 2 ^ lo + r) lo = v := by
  simp only [bitAt, mid_div hr]; cases v <;> simp [b2n, Nat.add_mod]

theorem fld_high {v r lo n : Nat} (hr : r < 2 ^ lo) : fld (v * 2 ^ lo + r) lo n = BitVec.ofNat n v := by
  simp only [fld]
  rw [Nat.add_comm, Nat.add_mul_div_right _ _ (by positivity), Nat.div_eq_of_lt hr, Nat.zero_add]

theorem bitsAt_high {v r lo n : Nat} (hr : r < 2 ^ lo) (hv : v < 2 ^ n) : bitsAt (v * 2 ^ lo + r) lo n = v := by
  simp only [bitsAt]
  rw [Nat.add_comm, Nat.add_mul_div_right _ _ (by positivity), Nat.div_eq_of_lt hr, Nat.zero_add, Nat.mod_eq_of_lt hv]

theorem bitAt_high {v : Bool} {r lo : Nat} (hr : r < 2 ^ lo) : bitAt (b2n v * 2 ^ lo + r) lo = v := by
  simp only [bitAt]
  rw [Nat.add_comm, Nat.add_mul_div_right _ _ (by positivity), Nat.div_eq_of_lt hr, Nat.zero_add]
  cases v <;> rfl

theorem fld_toNat {n : Nat} {x : BitVec n} : fld x.toNat 0 n = x := by simp [fld]
theorem bitsAt_zero {r n : Nat} (h : r < 2 ^ n) : bitsAt r 0 n = r := by simp [bitsAt, Nat.mod_eq_of_lt h]
theorem bitAt_b2n {v : Bool} : bitAt (b2n v) 0 = v := by cases v <;> rfl
theorem bitAt_of_zero {i : Nat} : bitAt 0 i = false := by simp [bitAt]

theorem bitAt_one {r lo : Nat} (hr : r < 2 ^ lo) : bitAt (1 * 2 ^ lo + r) lo = true := by
  have := bitAt_high (v := true) hr
  simpa [b2n] using this

theorem bitAt_small {r i : Nat} (h : r < 2 ^ i) : bitAt r i = false := by simp [bitAt, Nat.div_eq_of_lt h]

theorem b2n_lt (v : Bool) : b2n v < 2 := by cases v <;> decide

theorem Guard.bits_lt (g : Guard) : g.bits < 16 := by
  cases g with | mk p n => cases n <;> simp [Guard.bits, b2n] <;> omega

theorem Guard.at_bits {g : Guard} {x lo : Nat} (h : bitsAt x lo 4 = g.bits) : Guard.at x lo = g := by
  have h2 : x / 2 ^ (lo + 1) = x / 2 ^ lo / 2 := by rw [Nat.pow_succ, Nat.div_div_eq_div_mul]
  obtain ⟨p, n⟩ := g
  simp only [Guard.at, Guard.mk.injEq]
  simp only [bitsAt, Guard.bits] at h
  have := p.isLt
  constructor
  · apply BitVec.eq_of_toNat_eq; simp only [fld, BitVec.toNat_ofNat, h2]; cases n <;> simp [b2n] at h <;> omega
  · cases n <;> simp [b2n] at h <;> simp [bitAt] <;> omega

/-! ## Codes -/

@[simp] theorem Fmt.ofCode_code (v : Fmt) : Fmt.ofCode v.code = some v := by cases v <;> rfl
theorem Fmt.code_lt (v : Fmt) : v.code < 16 := by cases v <;> decide
@[simp] theorem MxFmt.ofCode_num (v : MxFmt) : MxFmt.ofCode v.num = some v := by cases v <;> rfl
theorem MxFmt.num_lt (v : MxFmt) : v.num < 8 := by cases v <;> decide
theorem Fmt.mx_fmt (v : MxFmt) : Fmt.mx v.fmt = some v := by cases v <;> rfl
theorem gangOf_lt (a b : MxFmt) : gangOf a b < 4 := by cases a <;> cases b <;> decide
@[simp] theorem Rnd.ofCode_code (v : Rnd) : Rnd.ofCode v.code = some v := by cases v <;> rfl
theorem Rnd.code_lt (v : Rnd) : v.code < 8 := by cases v <;> decide
@[simp] theorem Scope.ofCode_code (v : Scope) : Scope.ofCode v.code = some v := by cases v <;> rfl
theorem Scope.code_lt (v : Scope) : v.code < 8 := by cases v <;> decide
@[simp] theorem Ord.ofCode_code (v : Ord) : Ord.ofCode v.code = some v := by cases v <;> rfl
theorem Ord.code_lt (v : Ord) : v.code < 4 := by cases v <;> decide
@[simp] theorem Size.ofCode_code (v : Size) : Size.ofCode v.code = some v := by cases v <;> rfl
theorem Size.code_lt (v : Size) : v.code < 4 := by cases v <;> decide
@[simp] theorem CmpCc.ofCode_code (v : CmpCc) : CmpCc.ofCode v.code = some v := by cases v <;> rfl
theorem CmpCc.code_lt (v : CmpCc) : v.code < 8 := by cases v <;> decide
@[simp] theorem CmpiCc.ofCode_code (v : CmpiCc) : CmpiCc.ofCode v.code = some v := by cases v <;> rfl
theorem CmpiCc.code_lt (v : CmpiCc) : v.code < 8 := by cases v <;> decide
@[simp] theorem FcmpCc.ofCode_code (v : FcmpCc) : FcmpCc.ofCode v.code = some v := by cases v <;> rfl
theorem FcmpCc.code_lt (v : FcmpCc) : v.code < 4 := by cases v <;> decide
@[simp] theorem ExtSize.ofCode_code (v : ExtSize) : ExtSize.ofCode v.code = some v := by cases v <;> rfl
theorem ExtSize.code_lt (v : ExtSize) : v.code < 4 := by cases v <;> decide
@[simp] theorem EngClass.ofCode_code (v : EngClass) : EngClass.ofCode v.code = some v := by cases v <;> rfl
theorem EngClass.code_lt (v : EngClass) : v.code < 8 := by cases v <;> decide
@[simp] theorem SctaOp.ofCode_code (v : SctaOp) : SctaOp.ofCode v.code = some v := by cases v <;> rfl
theorem SctaOp.code_lt (v : SctaOp) : v.code < 4 := by cases v <;> decide
@[simp] theorem ScanOp.ofCode_code (v : ScanOp) : ScanOp.ofCode v.code = some v := by cases v <;> rfl
theorem ScanOp.code_lt (v : ScanOp) : v.code < 4 := by cases v <;> decide
@[simp] theorem CellOp.ofCode_code (v : CellOp) : CellOp.ofCode v.code = some v := by cases v <;> rfl
theorem CellOp.code_lt (v : CellOp) : v.code < 4 := by cases v <;> decide

/-! ## Format C -/

section C
variable {op a b imm : Nat} {g : Guard}

theorem encC_lt (hop : op < 2 ^ 8) (ha : a < 2 ^ 6) (hb : b < 2 ^ 6) (himm : imm < 2 ^ 24) : encC op g a b imm < 2 ^ 48 := by
  have := g.bits_lt; simp only [encC]; omega
theorem encC_op_bits (hop : op < 2 ^ 8) (ha : a < 2 ^ 6) (hb : b < 2 ^ 6) (himm : imm < 2 ^ 24) : bitsAt (encC op g a b imm) 40 8 = op := by
  have hr : g.bits * 2 ^ 36 + a * 2 ^ 30 + b * 2 ^ 24 + imm < 2 ^ 40 := by have := g.bits_lt; omega
  rw [show encC op g a b imm = ((0) * 2 ^ 8 + op) * 2 ^ 40 + (g.bits * 2 ^ 36 + a * 2 ^ 30 + b * 2 ^ 24 + imm) by simp only [encC]; ring]; exact bitsAt_mid hr hop
theorem encC_op (ha : a < 2 ^ 6) (hb : b < 2 ^ 6) (himm : imm < 2 ^ 24) {n : Nat} (hn : n ≤ 8) : fld (encC op g a b imm) 40 n = BitVec.ofNat n op := by
  have hr : g.bits * 2 ^ 36 + a * 2 ^ 30 + b * 2 ^ 24 + imm < 2 ^ 40 := by have := g.bits_lt; omega
  rw [show encC op g a b imm = ((0) * 2 ^ 8 + op) * 2 ^ 40 + (g.bits * 2 ^ 36 + a * 2 ^ 30 + b * 2 ^ 24 + imm) by simp only [encC]; ring]; exact fld_mid hn hr
theorem encC_g (ha : a < 2 ^ 6) (hb : b < 2 ^ 6) (himm : imm < 2 ^ 24) : Guard.at (encC op g a b imm) 36 = g := by
  have hr : a * 2 ^ 30 + b * 2 ^ 24 + imm < 2 ^ 36 := by omega
  apply Guard.at_bits; rw [show encC op g a b imm = ((op) * 2 ^ 4 + g.bits) * 2 ^ 36 + (a * 2 ^ 30 + b * 2 ^ 24 + imm) by simp only [encC]; ring]; exact bitsAt_mid hr g.bits_lt
theorem encC_a_bits (ha : a < 2 ^ 6) (hb : b < 2 ^ 6) (himm : imm < 2 ^ 24) : bitsAt (encC op g a b imm) 30 6 = a := by
  have hr : b * 2 ^ 24 + imm < 2 ^ 30 := by omega
  rw [show encC op g a b imm = ((op * 2 ^ 4 + g.bits) * 2 ^ 6 + a) * 2 ^ 30 + (b * 2 ^ 24 + imm) by simp only [encC]; ring]; exact bitsAt_mid hr ha
theorem encC_a (hb : b < 2 ^ 6) (himm : imm < 2 ^ 24) {n : Nat} (hn : n ≤ 6) : fld (encC op g a b imm) 30 n = BitVec.ofNat n a := by
  have hr : b * 2 ^ 24 + imm < 2 ^ 30 := by omega
  rw [show encC op g a b imm = ((op * 2 ^ 4 + g.bits) * 2 ^ 6 + a) * 2 ^ 30 + (b * 2 ^ 24 + imm) by simp only [encC]; ring]; exact fld_mid hn hr
theorem encC_b_bits (hb : b < 2 ^ 6) (himm : imm < 2 ^ 24) : bitsAt (encC op g a b imm) 24 6 = b := by
  have hr : imm < 2 ^ 24 := by omega
  rw [show encC op g a b imm = ((op * 2 ^ 10 + g.bits * 2 ^ 6 + a) * 2 ^ 6 + b) * 2 ^ 24 + (imm) by simp only [encC]; ring]; exact bitsAt_mid hr hb
theorem encC_b (himm : imm < 2 ^ 24) {n : Nat} (hn : n ≤ 6) : fld (encC op g a b imm) 24 n = BitVec.ofNat n b := by
  have hr : imm < 2 ^ 24 := by omega
  rw [show encC op g a b imm = ((op * 2 ^ 10 + g.bits * 2 ^ 6 + a) * 2 ^ 6 + b) * 2 ^ 24 + (imm) by simp only [encC]; ring]; exact fld_mid hn hr
theorem encC_imm_bits {i n : Nat} (h : i + n ≤ 24) : bitsAt (encC op g a b imm) i n = bitsAt imm i n := by
  rw [show encC op g a b imm = (op * 2 ^ 16 + g.bits * 2 ^ 12 + a * 2 ^ 6 + b) * 2 ^ 24 + imm by simp only [encC]; ring]; exact bitsAt_low h
theorem encC_imm {i n : Nat} (h : i + n ≤ 24) : fld (encC op g a b imm) i n = fld imm i n := by
  rw [show encC op g a b imm = (op * 2 ^ 16 + g.bits * 2 ^ 12 + a * 2 ^ 6 + b) * 2 ^ 24 + imm by simp only [encC]; ring]; exact fld_low h
theorem encC_imm_bit {i : Nat} (h : i + 1 ≤ 24) : bitAt (encC op g a b imm) i = bitAt imm i := by
  rw [show encC op g a b imm = (op * 2 ^ 16 + g.bits * 2 ^ 12 + a * 2 ^ 6 + b) * 2 ^ 24 + imm by simp only [encC]; ring]; exact bitAt_low h
end C

/-! ## Format S -/

section S
variable {op d a lo : Nat} {g : Guard}

theorem encS_lt (hop : op < 2 ^ 8) (hd : d < 2 ^ 6) (ha : a < 2 ^ 6) (hlo : lo < 2 ^ 16) : encS op g d a lo < 2 ^ 40 := by
  have := g.bits_lt; simp only [encS]; omega
theorem encS_op_bits (hop : op < 2 ^ 8) (hd : d < 2 ^ 6) (ha : a < 2 ^ 6) (hlo : lo < 2 ^ 16) : bitsAt (encS op g d a lo) 32 8 = op := by
  have hr : g.bits * 2 ^ 28 + d * 2 ^ 22 + a * 2 ^ 16 + lo < 2 ^ 32 := by have := g.bits_lt; omega
  rw [show encS op g d a lo = ((0) * 2 ^ 8 + op) * 2 ^ 32 + (g.bits * 2 ^ 28 + d * 2 ^ 22 + a * 2 ^ 16 + lo) by simp only [encS]; ring]; exact bitsAt_mid hr hop
theorem encS_op (hd : d < 2 ^ 6) (ha : a < 2 ^ 6) (hlo : lo < 2 ^ 16) {n : Nat} (hn : n ≤ 8) : fld (encS op g d a lo) 32 n = BitVec.ofNat n op := by
  have hr : g.bits * 2 ^ 28 + d * 2 ^ 22 + a * 2 ^ 16 + lo < 2 ^ 32 := by have := g.bits_lt; omega
  rw [show encS op g d a lo = ((0) * 2 ^ 8 + op) * 2 ^ 32 + (g.bits * 2 ^ 28 + d * 2 ^ 22 + a * 2 ^ 16 + lo) by simp only [encS]; ring]; exact fld_mid hn hr
theorem encS_g (hd : d < 2 ^ 6) (ha : a < 2 ^ 6) (hlo : lo < 2 ^ 16) : Guard.at (encS op g d a lo) 28 = g := by
  have hr : d * 2 ^ 22 + a * 2 ^ 16 + lo < 2 ^ 28 := by omega
  apply Guard.at_bits; rw [show encS op g d a lo = ((op) * 2 ^ 4 + g.bits) * 2 ^ 28 + (d * 2 ^ 22 + a * 2 ^ 16 + lo) by simp only [encS]; ring]; exact bitsAt_mid hr g.bits_lt
theorem encS_d_bits (hd : d < 2 ^ 6) (ha : a < 2 ^ 6) (hlo : lo < 2 ^ 16) : bitsAt (encS op g d a lo) 22 6 = d := by
  have hr : a * 2 ^ 16 + lo < 2 ^ 22 := by omega
  rw [show encS op g d a lo = ((op * 2 ^ 4 + g.bits) * 2 ^ 6 + d) * 2 ^ 22 + (a * 2 ^ 16 + lo) by simp only [encS]; ring]; exact bitsAt_mid hr hd
theorem encS_d (ha : a < 2 ^ 6) (hlo : lo < 2 ^ 16) {n : Nat} (hn : n ≤ 6) : fld (encS op g d a lo) 22 n = BitVec.ofNat n d := by
  have hr : a * 2 ^ 16 + lo < 2 ^ 22 := by omega
  rw [show encS op g d a lo = ((op * 2 ^ 4 + g.bits) * 2 ^ 6 + d) * 2 ^ 22 + (a * 2 ^ 16 + lo) by simp only [encS]; ring]; exact fld_mid hn hr
theorem encS_a_bits (ha : a < 2 ^ 6) (hlo : lo < 2 ^ 16) : bitsAt (encS op g d a lo) 16 6 = a := by
  have hr : lo < 2 ^ 16 := by omega
  rw [show encS op g d a lo = ((op * 2 ^ 10 + g.bits * 2 ^ 6 + d) * 2 ^ 6 + a) * 2 ^ 16 + (lo) by simp only [encS]; ring]; exact bitsAt_mid hr ha
theorem encS_a (hlo : lo < 2 ^ 16) {n : Nat} (hn : n ≤ 6) : fld (encS op g d a lo) 16 n = BitVec.ofNat n a := by
  have hr : lo < 2 ^ 16 := by omega
  rw [show encS op g d a lo = ((op * 2 ^ 10 + g.bits * 2 ^ 6 + d) * 2 ^ 6 + a) * 2 ^ 16 + (lo) by simp only [encS]; ring]; exact fld_mid hn hr
theorem encS_lo_bits {i n : Nat} (h : i + n ≤ 16) : bitsAt (encS op g d a lo) i n = bitsAt lo i n := by
  rw [show encS op g d a lo = (op * 2 ^ 16 + g.bits * 2 ^ 12 + d * 2 ^ 6 + a) * 2 ^ 16 + lo by simp only [encS]; ring]; exact bitsAt_low h
theorem encS_lo {i n : Nat} (h : i + n ≤ 16) : fld (encS op g d a lo) i n = fld lo i n := by
  rw [show encS op g d a lo = (op * 2 ^ 16 + g.bits * 2 ^ 12 + d * 2 ^ 6 + a) * 2 ^ 16 + lo by simp only [encS]; ring]; exact fld_low h
theorem encS_lo_bit {i : Nat} (h : i + 1 ≤ 16) : bitAt (encS op g d a lo) i = bitAt lo i := by
  rw [show encS op g d a lo = (op * 2 ^ 16 + g.bits * 2 ^ 12 + d * 2 ^ 6 + a) * 2 ^ 16 + lo by simp only [encS]; ring]; exact bitAt_low h
end S

/-! ## Format V -/

section V
variable {op q vd va vb vc fmt rnd s imm : Nat} {g : Guard} {qneg sat : Bool}

theorem encV_lt (hop : op < 2 ^ 8) (hq : q < 2 ^ 3) (hvd : vd < 2 ^ 5) (hva : va < 2 ^ 5) (hvb : vb < 2 ^ 5) (hvc : vc < 2 ^ 5) (hfmt : fmt < 2 ^ 4) (hrnd : rnd < 2 ^ 3) (hs : s < 2 ^ 6) (himm : imm < 2 ^ 14) : encV op g q qneg vd va vb vc fmt rnd sat s imm < 2 ^ 64 := by
  have := g.bits_lt; have := b2n_lt qneg; have := b2n_lt sat; simp only [encV]; omega
theorem encV_op_bits (hop : op < 2 ^ 8) (hq : q < 2 ^ 3) (hvd : vd < 2 ^ 5) (hva : va < 2 ^ 5) (hvb : vb < 2 ^ 5) (hvc : vc < 2 ^ 5) (hfmt : fmt < 2 ^ 4) (hrnd : rnd < 2 ^ 3) (hs : s < 2 ^ 6) (himm : imm < 2 ^ 14) : bitsAt (encV op g q qneg vd va vb vc fmt rnd sat s imm) 56 8 = op := by
  have hr : g.bits * 2 ^ 52 + q * 2 ^ 49 + b2n qneg * 2 ^ 48 + vd * 2 ^ 43 + va * 2 ^ 38 + vb * 2 ^ 33 + vc * 2 ^ 28 + fmt * 2 ^ 24 + rnd * 2 ^ 21 + b2n sat * 2 ^ 20 + s * 2 ^ 14 + imm < 2 ^ 56 := by have := g.bits_lt; have := b2n_lt qneg; have := b2n_lt sat; omega
  rw [show encV op g q qneg vd va vb vc fmt rnd sat s imm = ((0) * 2 ^ 8 + op) * 2 ^ 56 + (g.bits * 2 ^ 52 + q * 2 ^ 49 + b2n qneg * 2 ^ 48 + vd * 2 ^ 43 + va * 2 ^ 38 + vb * 2 ^ 33 + vc * 2 ^ 28 + fmt * 2 ^ 24 + rnd * 2 ^ 21 + b2n sat * 2 ^ 20 + s * 2 ^ 14 + imm) by simp only [encV]; ring]; exact bitsAt_mid hr hop
theorem encV_op (hq : q < 2 ^ 3) (hvd : vd < 2 ^ 5) (hva : va < 2 ^ 5) (hvb : vb < 2 ^ 5) (hvc : vc < 2 ^ 5) (hfmt : fmt < 2 ^ 4) (hrnd : rnd < 2 ^ 3) (hs : s < 2 ^ 6) (himm : imm < 2 ^ 14) {n : Nat} (hn : n ≤ 8) : fld (encV op g q qneg vd va vb vc fmt rnd sat s imm) 56 n = BitVec.ofNat n op := by
  have hr : g.bits * 2 ^ 52 + q * 2 ^ 49 + b2n qneg * 2 ^ 48 + vd * 2 ^ 43 + va * 2 ^ 38 + vb * 2 ^ 33 + vc * 2 ^ 28 + fmt * 2 ^ 24 + rnd * 2 ^ 21 + b2n sat * 2 ^ 20 + s * 2 ^ 14 + imm < 2 ^ 56 := by have := g.bits_lt; have := b2n_lt qneg; have := b2n_lt sat; omega
  rw [show encV op g q qneg vd va vb vc fmt rnd sat s imm = ((0) * 2 ^ 8 + op) * 2 ^ 56 + (g.bits * 2 ^ 52 + q * 2 ^ 49 + b2n qneg * 2 ^ 48 + vd * 2 ^ 43 + va * 2 ^ 38 + vb * 2 ^ 33 + vc * 2 ^ 28 + fmt * 2 ^ 24 + rnd * 2 ^ 21 + b2n sat * 2 ^ 20 + s * 2 ^ 14 + imm) by simp only [encV]; ring]; exact fld_mid hn hr
theorem encV_g (hq : q < 2 ^ 3) (hvd : vd < 2 ^ 5) (hva : va < 2 ^ 5) (hvb : vb < 2 ^ 5) (hvc : vc < 2 ^ 5) (hfmt : fmt < 2 ^ 4) (hrnd : rnd < 2 ^ 3) (hs : s < 2 ^ 6) (himm : imm < 2 ^ 14) : Guard.at (encV op g q qneg vd va vb vc fmt rnd sat s imm) 52 = g := by
  have hr : q * 2 ^ 49 + b2n qneg * 2 ^ 48 + vd * 2 ^ 43 + va * 2 ^ 38 + vb * 2 ^ 33 + vc * 2 ^ 28 + fmt * 2 ^ 24 + rnd * 2 ^ 21 + b2n sat * 2 ^ 20 + s * 2 ^ 14 + imm < 2 ^ 52 := by have := b2n_lt qneg; have := b2n_lt sat; omega
  apply Guard.at_bits; rw [show encV op g q qneg vd va vb vc fmt rnd sat s imm = ((op) * 2 ^ 4 + g.bits) * 2 ^ 52 + (q * 2 ^ 49 + b2n qneg * 2 ^ 48 + vd * 2 ^ 43 + va * 2 ^ 38 + vb * 2 ^ 33 + vc * 2 ^ 28 + fmt * 2 ^ 24 + rnd * 2 ^ 21 + b2n sat * 2 ^ 20 + s * 2 ^ 14 + imm) by simp only [encV]; ring]; exact bitsAt_mid hr g.bits_lt
theorem encV_q_bits (hq : q < 2 ^ 3) (hvd : vd < 2 ^ 5) (hva : va < 2 ^ 5) (hvb : vb < 2 ^ 5) (hvc : vc < 2 ^ 5) (hfmt : fmt < 2 ^ 4) (hrnd : rnd < 2 ^ 3) (hs : s < 2 ^ 6) (himm : imm < 2 ^ 14) : bitsAt (encV op g q qneg vd va vb vc fmt rnd sat s imm) 49 3 = q := by
  have hr : b2n qneg * 2 ^ 48 + vd * 2 ^ 43 + va * 2 ^ 38 + vb * 2 ^ 33 + vc * 2 ^ 28 + fmt * 2 ^ 24 + rnd * 2 ^ 21 + b2n sat * 2 ^ 20 + s * 2 ^ 14 + imm < 2 ^ 49 := by have := b2n_lt qneg; have := b2n_lt sat; omega
  rw [show encV op g q qneg vd va vb vc fmt rnd sat s imm = ((op * 2 ^ 4 + g.bits) * 2 ^ 3 + q) * 2 ^ 49 + (b2n qneg * 2 ^ 48 + vd * 2 ^ 43 + va * 2 ^ 38 + vb * 2 ^ 33 + vc * 2 ^ 28 + fmt * 2 ^ 24 + rnd * 2 ^ 21 + b2n sat * 2 ^ 20 + s * 2 ^ 14 + imm) by simp only [encV]; ring]; exact bitsAt_mid hr hq
theorem encV_q (hvd : vd < 2 ^ 5) (hva : va < 2 ^ 5) (hvb : vb < 2 ^ 5) (hvc : vc < 2 ^ 5) (hfmt : fmt < 2 ^ 4) (hrnd : rnd < 2 ^ 3) (hs : s < 2 ^ 6) (himm : imm < 2 ^ 14) {n : Nat} (hn : n ≤ 3) : fld (encV op g q qneg vd va vb vc fmt rnd sat s imm) 49 n = BitVec.ofNat n q := by
  have hr : b2n qneg * 2 ^ 48 + vd * 2 ^ 43 + va * 2 ^ 38 + vb * 2 ^ 33 + vc * 2 ^ 28 + fmt * 2 ^ 24 + rnd * 2 ^ 21 + b2n sat * 2 ^ 20 + s * 2 ^ 14 + imm < 2 ^ 49 := by have := b2n_lt qneg; have := b2n_lt sat; omega
  rw [show encV op g q qneg vd va vb vc fmt rnd sat s imm = ((op * 2 ^ 4 + g.bits) * 2 ^ 3 + q) * 2 ^ 49 + (b2n qneg * 2 ^ 48 + vd * 2 ^ 43 + va * 2 ^ 38 + vb * 2 ^ 33 + vc * 2 ^ 28 + fmt * 2 ^ 24 + rnd * 2 ^ 21 + b2n sat * 2 ^ 20 + s * 2 ^ 14 + imm) by simp only [encV]; ring]; exact fld_mid hn hr
theorem encV_qneg (hvd : vd < 2 ^ 5) (hva : va < 2 ^ 5) (hvb : vb < 2 ^ 5) (hvc : vc < 2 ^ 5) (hfmt : fmt < 2 ^ 4) (hrnd : rnd < 2 ^ 3) (hs : s < 2 ^ 6) (himm : imm < 2 ^ 14) : bitAt (encV op g q qneg vd va vb vc fmt rnd sat s imm) 48 = qneg := by
  have hr : vd * 2 ^ 43 + va * 2 ^ 38 + vb * 2 ^ 33 + vc * 2 ^ 28 + fmt * 2 ^ 24 + rnd * 2 ^ 21 + b2n sat * 2 ^ 20 + s * 2 ^ 14 + imm < 2 ^ 48 := by have := b2n_lt sat; omega
  rw [show encV op g q qneg vd va vb vc fmt rnd sat s imm = ((op * 2 ^ 7 + g.bits * 2 ^ 3 + q) * 2 ^ 1 + b2n qneg) * 2 ^ 48 + (vd * 2 ^ 43 + va * 2 ^ 38 + vb * 2 ^ 33 + vc * 2 ^ 28 + fmt * 2 ^ 24 + rnd * 2 ^ 21 + b2n sat * 2 ^ 20 + s * 2 ^ 14 + imm) by simp only [encV]; ring]; exact bitAt_mid hr
theorem encV_vd_bits (hvd : vd < 2 ^ 5) (hva : va < 2 ^ 5) (hvb : vb < 2 ^ 5) (hvc : vc < 2 ^ 5) (hfmt : fmt < 2 ^ 4) (hrnd : rnd < 2 ^ 3) (hs : s < 2 ^ 6) (himm : imm < 2 ^ 14) : bitsAt (encV op g q qneg vd va vb vc fmt rnd sat s imm) 43 5 = vd := by
  have hr : va * 2 ^ 38 + vb * 2 ^ 33 + vc * 2 ^ 28 + fmt * 2 ^ 24 + rnd * 2 ^ 21 + b2n sat * 2 ^ 20 + s * 2 ^ 14 + imm < 2 ^ 43 := by have := b2n_lt sat; omega
  rw [show encV op g q qneg vd va vb vc fmt rnd sat s imm = ((op * 2 ^ 8 + g.bits * 2 ^ 4 + q * 2 ^ 1 + b2n qneg) * 2 ^ 5 + vd) * 2 ^ 43 + (va * 2 ^ 38 + vb * 2 ^ 33 + vc * 2 ^ 28 + fmt * 2 ^ 24 + rnd * 2 ^ 21 + b2n sat * 2 ^ 20 + s * 2 ^ 14 + imm) by simp only [encV]; ring]; exact bitsAt_mid hr hvd
theorem encV_vd (hva : va < 2 ^ 5) (hvb : vb < 2 ^ 5) (hvc : vc < 2 ^ 5) (hfmt : fmt < 2 ^ 4) (hrnd : rnd < 2 ^ 3) (hs : s < 2 ^ 6) (himm : imm < 2 ^ 14) {n : Nat} (hn : n ≤ 5) : fld (encV op g q qneg vd va vb vc fmt rnd sat s imm) 43 n = BitVec.ofNat n vd := by
  have hr : va * 2 ^ 38 + vb * 2 ^ 33 + vc * 2 ^ 28 + fmt * 2 ^ 24 + rnd * 2 ^ 21 + b2n sat * 2 ^ 20 + s * 2 ^ 14 + imm < 2 ^ 43 := by have := b2n_lt sat; omega
  rw [show encV op g q qneg vd va vb vc fmt rnd sat s imm = ((op * 2 ^ 8 + g.bits * 2 ^ 4 + q * 2 ^ 1 + b2n qneg) * 2 ^ 5 + vd) * 2 ^ 43 + (va * 2 ^ 38 + vb * 2 ^ 33 + vc * 2 ^ 28 + fmt * 2 ^ 24 + rnd * 2 ^ 21 + b2n sat * 2 ^ 20 + s * 2 ^ 14 + imm) by simp only [encV]; ring]; exact fld_mid hn hr
theorem encV_va_bits (hva : va < 2 ^ 5) (hvb : vb < 2 ^ 5) (hvc : vc < 2 ^ 5) (hfmt : fmt < 2 ^ 4) (hrnd : rnd < 2 ^ 3) (hs : s < 2 ^ 6) (himm : imm < 2 ^ 14) : bitsAt (encV op g q qneg vd va vb vc fmt rnd sat s imm) 38 5 = va := by
  have hr : vb * 2 ^ 33 + vc * 2 ^ 28 + fmt * 2 ^ 24 + rnd * 2 ^ 21 + b2n sat * 2 ^ 20 + s * 2 ^ 14 + imm < 2 ^ 38 := by have := b2n_lt sat; omega
  rw [show encV op g q qneg vd va vb vc fmt rnd sat s imm = ((op * 2 ^ 13 + g.bits * 2 ^ 9 + q * 2 ^ 6 + b2n qneg * 2 ^ 5 + vd) * 2 ^ 5 + va) * 2 ^ 38 + (vb * 2 ^ 33 + vc * 2 ^ 28 + fmt * 2 ^ 24 + rnd * 2 ^ 21 + b2n sat * 2 ^ 20 + s * 2 ^ 14 + imm) by simp only [encV]; ring]; exact bitsAt_mid hr hva
theorem encV_va (hvb : vb < 2 ^ 5) (hvc : vc < 2 ^ 5) (hfmt : fmt < 2 ^ 4) (hrnd : rnd < 2 ^ 3) (hs : s < 2 ^ 6) (himm : imm < 2 ^ 14) {n : Nat} (hn : n ≤ 5) : fld (encV op g q qneg vd va vb vc fmt rnd sat s imm) 38 n = BitVec.ofNat n va := by
  have hr : vb * 2 ^ 33 + vc * 2 ^ 28 + fmt * 2 ^ 24 + rnd * 2 ^ 21 + b2n sat * 2 ^ 20 + s * 2 ^ 14 + imm < 2 ^ 38 := by have := b2n_lt sat; omega
  rw [show encV op g q qneg vd va vb vc fmt rnd sat s imm = ((op * 2 ^ 13 + g.bits * 2 ^ 9 + q * 2 ^ 6 + b2n qneg * 2 ^ 5 + vd) * 2 ^ 5 + va) * 2 ^ 38 + (vb * 2 ^ 33 + vc * 2 ^ 28 + fmt * 2 ^ 24 + rnd * 2 ^ 21 + b2n sat * 2 ^ 20 + s * 2 ^ 14 + imm) by simp only [encV]; ring]; exact fld_mid hn hr
theorem encV_vb_bits (hvb : vb < 2 ^ 5) (hvc : vc < 2 ^ 5) (hfmt : fmt < 2 ^ 4) (hrnd : rnd < 2 ^ 3) (hs : s < 2 ^ 6) (himm : imm < 2 ^ 14) : bitsAt (encV op g q qneg vd va vb vc fmt rnd sat s imm) 33 5 = vb := by
  have hr : vc * 2 ^ 28 + fmt * 2 ^ 24 + rnd * 2 ^ 21 + b2n sat * 2 ^ 20 + s * 2 ^ 14 + imm < 2 ^ 33 := by have := b2n_lt sat; omega
  rw [show encV op g q qneg vd va vb vc fmt rnd sat s imm = ((op * 2 ^ 18 + g.bits * 2 ^ 14 + q * 2 ^ 11 + b2n qneg * 2 ^ 10 + vd * 2 ^ 5 + va) * 2 ^ 5 + vb) * 2 ^ 33 + (vc * 2 ^ 28 + fmt * 2 ^ 24 + rnd * 2 ^ 21 + b2n sat * 2 ^ 20 + s * 2 ^ 14 + imm) by simp only [encV]; ring]; exact bitsAt_mid hr hvb
theorem encV_vb (hvc : vc < 2 ^ 5) (hfmt : fmt < 2 ^ 4) (hrnd : rnd < 2 ^ 3) (hs : s < 2 ^ 6) (himm : imm < 2 ^ 14) {n : Nat} (hn : n ≤ 5) : fld (encV op g q qneg vd va vb vc fmt rnd sat s imm) 33 n = BitVec.ofNat n vb := by
  have hr : vc * 2 ^ 28 + fmt * 2 ^ 24 + rnd * 2 ^ 21 + b2n sat * 2 ^ 20 + s * 2 ^ 14 + imm < 2 ^ 33 := by have := b2n_lt sat; omega
  rw [show encV op g q qneg vd va vb vc fmt rnd sat s imm = ((op * 2 ^ 18 + g.bits * 2 ^ 14 + q * 2 ^ 11 + b2n qneg * 2 ^ 10 + vd * 2 ^ 5 + va) * 2 ^ 5 + vb) * 2 ^ 33 + (vc * 2 ^ 28 + fmt * 2 ^ 24 + rnd * 2 ^ 21 + b2n sat * 2 ^ 20 + s * 2 ^ 14 + imm) by simp only [encV]; ring]; exact fld_mid hn hr
theorem encV_vc_bits (hvc : vc < 2 ^ 5) (hfmt : fmt < 2 ^ 4) (hrnd : rnd < 2 ^ 3) (hs : s < 2 ^ 6) (himm : imm < 2 ^ 14) : bitsAt (encV op g q qneg vd va vb vc fmt rnd sat s imm) 28 5 = vc := by
  have hr : fmt * 2 ^ 24 + rnd * 2 ^ 21 + b2n sat * 2 ^ 20 + s * 2 ^ 14 + imm < 2 ^ 28 := by have := b2n_lt sat; omega
  rw [show encV op g q qneg vd va vb vc fmt rnd sat s imm = ((op * 2 ^ 23 + g.bits * 2 ^ 19 + q * 2 ^ 16 + b2n qneg * 2 ^ 15 + vd * 2 ^ 10 + va * 2 ^ 5 + vb) * 2 ^ 5 + vc) * 2 ^ 28 + (fmt * 2 ^ 24 + rnd * 2 ^ 21 + b2n sat * 2 ^ 20 + s * 2 ^ 14 + imm) by simp only [encV]; ring]; exact bitsAt_mid hr hvc
theorem encV_vc (hfmt : fmt < 2 ^ 4) (hrnd : rnd < 2 ^ 3) (hs : s < 2 ^ 6) (himm : imm < 2 ^ 14) {n : Nat} (hn : n ≤ 5) : fld (encV op g q qneg vd va vb vc fmt rnd sat s imm) 28 n = BitVec.ofNat n vc := by
  have hr : fmt * 2 ^ 24 + rnd * 2 ^ 21 + b2n sat * 2 ^ 20 + s * 2 ^ 14 + imm < 2 ^ 28 := by have := b2n_lt sat; omega
  rw [show encV op g q qneg vd va vb vc fmt rnd sat s imm = ((op * 2 ^ 23 + g.bits * 2 ^ 19 + q * 2 ^ 16 + b2n qneg * 2 ^ 15 + vd * 2 ^ 10 + va * 2 ^ 5 + vb) * 2 ^ 5 + vc) * 2 ^ 28 + (fmt * 2 ^ 24 + rnd * 2 ^ 21 + b2n sat * 2 ^ 20 + s * 2 ^ 14 + imm) by simp only [encV]; ring]; exact fld_mid hn hr
theorem encV_fmt_bits (hfmt : fmt < 2 ^ 4) (hrnd : rnd < 2 ^ 3) (hs : s < 2 ^ 6) (himm : imm < 2 ^ 14) : bitsAt (encV op g q qneg vd va vb vc fmt rnd sat s imm) 24 4 = fmt := by
  have hr : rnd * 2 ^ 21 + b2n sat * 2 ^ 20 + s * 2 ^ 14 + imm < 2 ^ 24 := by have := b2n_lt sat; omega
  rw [show encV op g q qneg vd va vb vc fmt rnd sat s imm = ((op * 2 ^ 28 + g.bits * 2 ^ 24 + q * 2 ^ 21 + b2n qneg * 2 ^ 20 + vd * 2 ^ 15 + va * 2 ^ 10 + vb * 2 ^ 5 + vc) * 2 ^ 4 + fmt) * 2 ^ 24 + (rnd * 2 ^ 21 + b2n sat * 2 ^ 20 + s * 2 ^ 14 + imm) by simp only [encV]; ring]; exact bitsAt_mid hr hfmt
theorem encV_fmt (hrnd : rnd < 2 ^ 3) (hs : s < 2 ^ 6) (himm : imm < 2 ^ 14) {n : Nat} (hn : n ≤ 4) : fld (encV op g q qneg vd va vb vc fmt rnd sat s imm) 24 n = BitVec.ofNat n fmt := by
  have hr : rnd * 2 ^ 21 + b2n sat * 2 ^ 20 + s * 2 ^ 14 + imm < 2 ^ 24 := by have := b2n_lt sat; omega
  rw [show encV op g q qneg vd va vb vc fmt rnd sat s imm = ((op * 2 ^ 28 + g.bits * 2 ^ 24 + q * 2 ^ 21 + b2n qneg * 2 ^ 20 + vd * 2 ^ 15 + va * 2 ^ 10 + vb * 2 ^ 5 + vc) * 2 ^ 4 + fmt) * 2 ^ 24 + (rnd * 2 ^ 21 + b2n sat * 2 ^ 20 + s * 2 ^ 14 + imm) by simp only [encV]; ring]; exact fld_mid hn hr
theorem encV_rnd_bits (hrnd : rnd < 2 ^ 3) (hs : s < 2 ^ 6) (himm : imm < 2 ^ 14) : bitsAt (encV op g q qneg vd va vb vc fmt rnd sat s imm) 21 3 = rnd := by
  have hr : b2n sat * 2 ^ 20 + s * 2 ^ 14 + imm < 2 ^ 21 := by have := b2n_lt sat; omega
  rw [show encV op g q qneg vd va vb vc fmt rnd sat s imm = ((op * 2 ^ 32 + g.bits * 2 ^ 28 + q * 2 ^ 25 + b2n qneg * 2 ^ 24 + vd * 2 ^ 19 + va * 2 ^ 14 + vb * 2 ^ 9 + vc * 2 ^ 4 + fmt) * 2 ^ 3 + rnd) * 2 ^ 21 + (b2n sat * 2 ^ 20 + s * 2 ^ 14 + imm) by simp only [encV]; ring]; exact bitsAt_mid hr hrnd
theorem encV_rnd (hs : s < 2 ^ 6) (himm : imm < 2 ^ 14) {n : Nat} (hn : n ≤ 3) : fld (encV op g q qneg vd va vb vc fmt rnd sat s imm) 21 n = BitVec.ofNat n rnd := by
  have hr : b2n sat * 2 ^ 20 + s * 2 ^ 14 + imm < 2 ^ 21 := by have := b2n_lt sat; omega
  rw [show encV op g q qneg vd va vb vc fmt rnd sat s imm = ((op * 2 ^ 32 + g.bits * 2 ^ 28 + q * 2 ^ 25 + b2n qneg * 2 ^ 24 + vd * 2 ^ 19 + va * 2 ^ 14 + vb * 2 ^ 9 + vc * 2 ^ 4 + fmt) * 2 ^ 3 + rnd) * 2 ^ 21 + (b2n sat * 2 ^ 20 + s * 2 ^ 14 + imm) by simp only [encV]; ring]; exact fld_mid hn hr
theorem encV_sat (hs : s < 2 ^ 6) (himm : imm < 2 ^ 14) : bitAt (encV op g q qneg vd va vb vc fmt rnd sat s imm) 20 = sat := by
  have hr : s * 2 ^ 14 + imm < 2 ^ 20 := by omega
  rw [show encV op g q qneg vd va vb vc fmt rnd sat s imm = ((op * 2 ^ 35 + g.bits * 2 ^ 31 + q * 2 ^ 28 + b2n qneg * 2 ^ 27 + vd * 2 ^ 22 + va * 2 ^ 17 + vb * 2 ^ 12 + vc * 2 ^ 7 + fmt * 2 ^ 3 + rnd) * 2 ^ 1 + b2n sat) * 2 ^ 20 + (s * 2 ^ 14 + imm) by simp only [encV]; ring]; exact bitAt_mid hr
theorem encV_s_bits (hs : s < 2 ^ 6) (himm : imm < 2 ^ 14) : bitsAt (encV op g q qneg vd va vb vc fmt rnd sat s imm) 14 6 = s := by
  have hr : imm < 2 ^ 14 := by omega
  rw [show encV op g q qneg vd va vb vc fmt rnd sat s imm = ((op * 2 ^ 36 + g.bits * 2 ^ 32 + q * 2 ^ 29 + b2n qneg * 2 ^ 28 + vd * 2 ^ 23 + va * 2 ^ 18 + vb * 2 ^ 13 + vc * 2 ^ 8 + fmt * 2 ^ 4 + rnd * 2 ^ 1 + b2n sat) * 2 ^ 6 + s) * 2 ^ 14 + (imm) by simp only [encV]; ring]; exact bitsAt_mid hr hs
theorem encV_s (himm : imm < 2 ^ 14) {n : Nat} (hn : n ≤ 6) : fld (encV op g q qneg vd va vb vc fmt rnd sat s imm) 14 n = BitVec.ofNat n s := by
  have hr : imm < 2 ^ 14 := by omega
  rw [show encV op g q qneg vd va vb vc fmt rnd sat s imm = ((op * 2 ^ 36 + g.bits * 2 ^ 32 + q * 2 ^ 29 + b2n qneg * 2 ^ 28 + vd * 2 ^ 23 + va * 2 ^ 18 + vb * 2 ^ 13 + vc * 2 ^ 8 + fmt * 2 ^ 4 + rnd * 2 ^ 1 + b2n sat) * 2 ^ 6 + s) * 2 ^ 14 + (imm) by simp only [encV]; ring]; exact fld_mid hn hr
theorem encV_imm_bits {i n : Nat} (h : i + n ≤ 14) : bitsAt (encV op g q qneg vd va vb vc fmt rnd sat s imm) i n = bitsAt imm i n := by
  rw [show encV op g q qneg vd va vb vc fmt rnd sat s imm = (op * 2 ^ 42 + g.bits * 2 ^ 38 + q * 2 ^ 35 + b2n qneg * 2 ^ 34 + vd * 2 ^ 29 + va * 2 ^ 24 + vb * 2 ^ 19 + vc * 2 ^ 14 + fmt * 2 ^ 10 + rnd * 2 ^ 7 + b2n sat * 2 ^ 6 + s) * 2 ^ 14 + imm by simp only [encV]; ring]; exact bitsAt_low h
theorem encV_imm {i n : Nat} (h : i + n ≤ 14) : fld (encV op g q qneg vd va vb vc fmt rnd sat s imm) i n = fld imm i n := by
  rw [show encV op g q qneg vd va vb vc fmt rnd sat s imm = (op * 2 ^ 42 + g.bits * 2 ^ 38 + q * 2 ^ 35 + b2n qneg * 2 ^ 34 + vd * 2 ^ 29 + va * 2 ^ 24 + vb * 2 ^ 19 + vc * 2 ^ 14 + fmt * 2 ^ 10 + rnd * 2 ^ 7 + b2n sat * 2 ^ 6 + s) * 2 ^ 14 + imm by simp only [encV]; ring]; exact fld_low h
theorem encV_imm_bit {i : Nat} (h : i + 1 ≤ 14) : bitAt (encV op g q qneg vd va vb vc fmt rnd sat s imm) i = bitAt imm i := by
  rw [show encV op g q qneg vd va vb vc fmt rnd sat s imm = (op * 2 ^ 42 + g.bits * 2 ^ 38 + q * 2 ^ 35 + b2n qneg * 2 ^ 34 + vd * 2 ^ 29 + va * 2 ^ 24 + vb * 2 ^ 19 + vc * 2 ^ 14 + fmt * 2 ^ 10 + rnd * 2 ^ 7 + b2n sat * 2 ^ 6 + s) * 2 ^ 14 + imm by simp only [encV]; ring]; exact bitAt_low h
end V

/-! ## Format L -/

section L
variable {op q ord scope t base index size land disp : Nat} {g : Guard}

theorem encL_lt (hop : op < 2 ^ 8) (hq : q < 2 ^ 3) (hord : ord < 2 ^ 2) (hscope : scope < 2 ^ 3) (ht : t < 2 ^ 6) (hbase : base < 2 ^ 6) (hindex : index < 2 ^ 6) (hsize : size < 2 ^ 2) (hland : land < 2 ^ 8) (hdisp : disp < 2 ^ 8) : encL op g q ord scope t base index size land disp < 2 ^ 56 := by
  have := g.bits_lt; simp only [encL]; omega
theorem encL_op_bits (hop : op < 2 ^ 8) (hq : q < 2 ^ 3) (hord : ord < 2 ^ 2) (hscope : scope < 2 ^ 3) (ht : t < 2 ^ 6) (hbase : base < 2 ^ 6) (hindex : index < 2 ^ 6) (hsize : size < 2 ^ 2) (hland : land < 2 ^ 8) (hdisp : disp < 2 ^ 8) : bitsAt (encL op g q ord scope t base index size land disp) 48 8 = op := by
  have hr : g.bits * 2 ^ 44 + q * 2 ^ 41 + ord * 2 ^ 39 + scope * 2 ^ 36 + t * 2 ^ 30 + base * 2 ^ 24 + index * 2 ^ 18 + size * 2 ^ 16 + land * 2 ^ 8 + disp < 2 ^ 48 := by have := g.bits_lt; omega
  rw [show encL op g q ord scope t base index size land disp = ((0) * 2 ^ 8 + op) * 2 ^ 48 + (g.bits * 2 ^ 44 + q * 2 ^ 41 + ord * 2 ^ 39 + scope * 2 ^ 36 + t * 2 ^ 30 + base * 2 ^ 24 + index * 2 ^ 18 + size * 2 ^ 16 + land * 2 ^ 8 + disp) by simp only [encL]; ring]; exact bitsAt_mid hr hop
theorem encL_op (hq : q < 2 ^ 3) (hord : ord < 2 ^ 2) (hscope : scope < 2 ^ 3) (ht : t < 2 ^ 6) (hbase : base < 2 ^ 6) (hindex : index < 2 ^ 6) (hsize : size < 2 ^ 2) (hland : land < 2 ^ 8) (hdisp : disp < 2 ^ 8) {n : Nat} (hn : n ≤ 8) : fld (encL op g q ord scope t base index size land disp) 48 n = BitVec.ofNat n op := by
  have hr : g.bits * 2 ^ 44 + q * 2 ^ 41 + ord * 2 ^ 39 + scope * 2 ^ 36 + t * 2 ^ 30 + base * 2 ^ 24 + index * 2 ^ 18 + size * 2 ^ 16 + land * 2 ^ 8 + disp < 2 ^ 48 := by have := g.bits_lt; omega
  rw [show encL op g q ord scope t base index size land disp = ((0) * 2 ^ 8 + op) * 2 ^ 48 + (g.bits * 2 ^ 44 + q * 2 ^ 41 + ord * 2 ^ 39 + scope * 2 ^ 36 + t * 2 ^ 30 + base * 2 ^ 24 + index * 2 ^ 18 + size * 2 ^ 16 + land * 2 ^ 8 + disp) by simp only [encL]; ring]; exact fld_mid hn hr
theorem encL_g (hq : q < 2 ^ 3) (hord : ord < 2 ^ 2) (hscope : scope < 2 ^ 3) (ht : t < 2 ^ 6) (hbase : base < 2 ^ 6) (hindex : index < 2 ^ 6) (hsize : size < 2 ^ 2) (hland : land < 2 ^ 8) (hdisp : disp < 2 ^ 8) : Guard.at (encL op g q ord scope t base index size land disp) 44 = g := by
  have hr : q * 2 ^ 41 + ord * 2 ^ 39 + scope * 2 ^ 36 + t * 2 ^ 30 + base * 2 ^ 24 + index * 2 ^ 18 + size * 2 ^ 16 + land * 2 ^ 8 + disp < 2 ^ 44 := by omega
  apply Guard.at_bits; rw [show encL op g q ord scope t base index size land disp = ((op) * 2 ^ 4 + g.bits) * 2 ^ 44 + (q * 2 ^ 41 + ord * 2 ^ 39 + scope * 2 ^ 36 + t * 2 ^ 30 + base * 2 ^ 24 + index * 2 ^ 18 + size * 2 ^ 16 + land * 2 ^ 8 + disp) by simp only [encL]; ring]; exact bitsAt_mid hr g.bits_lt
theorem encL_q_bits (hq : q < 2 ^ 3) (hord : ord < 2 ^ 2) (hscope : scope < 2 ^ 3) (ht : t < 2 ^ 6) (hbase : base < 2 ^ 6) (hindex : index < 2 ^ 6) (hsize : size < 2 ^ 2) (hland : land < 2 ^ 8) (hdisp : disp < 2 ^ 8) : bitsAt (encL op g q ord scope t base index size land disp) 41 3 = q := by
  have hr : ord * 2 ^ 39 + scope * 2 ^ 36 + t * 2 ^ 30 + base * 2 ^ 24 + index * 2 ^ 18 + size * 2 ^ 16 + land * 2 ^ 8 + disp < 2 ^ 41 := by omega
  rw [show encL op g q ord scope t base index size land disp = ((op * 2 ^ 4 + g.bits) * 2 ^ 3 + q) * 2 ^ 41 + (ord * 2 ^ 39 + scope * 2 ^ 36 + t * 2 ^ 30 + base * 2 ^ 24 + index * 2 ^ 18 + size * 2 ^ 16 + land * 2 ^ 8 + disp) by simp only [encL]; ring]; exact bitsAt_mid hr hq
theorem encL_q (hord : ord < 2 ^ 2) (hscope : scope < 2 ^ 3) (ht : t < 2 ^ 6) (hbase : base < 2 ^ 6) (hindex : index < 2 ^ 6) (hsize : size < 2 ^ 2) (hland : land < 2 ^ 8) (hdisp : disp < 2 ^ 8) {n : Nat} (hn : n ≤ 3) : fld (encL op g q ord scope t base index size land disp) 41 n = BitVec.ofNat n q := by
  have hr : ord * 2 ^ 39 + scope * 2 ^ 36 + t * 2 ^ 30 + base * 2 ^ 24 + index * 2 ^ 18 + size * 2 ^ 16 + land * 2 ^ 8 + disp < 2 ^ 41 := by omega
  rw [show encL op g q ord scope t base index size land disp = ((op * 2 ^ 4 + g.bits) * 2 ^ 3 + q) * 2 ^ 41 + (ord * 2 ^ 39 + scope * 2 ^ 36 + t * 2 ^ 30 + base * 2 ^ 24 + index * 2 ^ 18 + size * 2 ^ 16 + land * 2 ^ 8 + disp) by simp only [encL]; ring]; exact fld_mid hn hr
theorem encL_ord_bits (hord : ord < 2 ^ 2) (hscope : scope < 2 ^ 3) (ht : t < 2 ^ 6) (hbase : base < 2 ^ 6) (hindex : index < 2 ^ 6) (hsize : size < 2 ^ 2) (hland : land < 2 ^ 8) (hdisp : disp < 2 ^ 8) : bitsAt (encL op g q ord scope t base index size land disp) 39 2 = ord := by
  have hr : scope * 2 ^ 36 + t * 2 ^ 30 + base * 2 ^ 24 + index * 2 ^ 18 + size * 2 ^ 16 + land * 2 ^ 8 + disp < 2 ^ 39 := by omega
  rw [show encL op g q ord scope t base index size land disp = ((op * 2 ^ 7 + g.bits * 2 ^ 3 + q) * 2 ^ 2 + ord) * 2 ^ 39 + (scope * 2 ^ 36 + t * 2 ^ 30 + base * 2 ^ 24 + index * 2 ^ 18 + size * 2 ^ 16 + land * 2 ^ 8 + disp) by simp only [encL]; ring]; exact bitsAt_mid hr hord
theorem encL_ord (hscope : scope < 2 ^ 3) (ht : t < 2 ^ 6) (hbase : base < 2 ^ 6) (hindex : index < 2 ^ 6) (hsize : size < 2 ^ 2) (hland : land < 2 ^ 8) (hdisp : disp < 2 ^ 8) {n : Nat} (hn : n ≤ 2) : fld (encL op g q ord scope t base index size land disp) 39 n = BitVec.ofNat n ord := by
  have hr : scope * 2 ^ 36 + t * 2 ^ 30 + base * 2 ^ 24 + index * 2 ^ 18 + size * 2 ^ 16 + land * 2 ^ 8 + disp < 2 ^ 39 := by omega
  rw [show encL op g q ord scope t base index size land disp = ((op * 2 ^ 7 + g.bits * 2 ^ 3 + q) * 2 ^ 2 + ord) * 2 ^ 39 + (scope * 2 ^ 36 + t * 2 ^ 30 + base * 2 ^ 24 + index * 2 ^ 18 + size * 2 ^ 16 + land * 2 ^ 8 + disp) by simp only [encL]; ring]; exact fld_mid hn hr
theorem encL_scope_bits (hscope : scope < 2 ^ 3) (ht : t < 2 ^ 6) (hbase : base < 2 ^ 6) (hindex : index < 2 ^ 6) (hsize : size < 2 ^ 2) (hland : land < 2 ^ 8) (hdisp : disp < 2 ^ 8) : bitsAt (encL op g q ord scope t base index size land disp) 36 3 = scope := by
  have hr : t * 2 ^ 30 + base * 2 ^ 24 + index * 2 ^ 18 + size * 2 ^ 16 + land * 2 ^ 8 + disp < 2 ^ 36 := by omega
  rw [show encL op g q ord scope t base index size land disp = ((op * 2 ^ 9 + g.bits * 2 ^ 5 + q * 2 ^ 2 + ord) * 2 ^ 3 + scope) * 2 ^ 36 + (t * 2 ^ 30 + base * 2 ^ 24 + index * 2 ^ 18 + size * 2 ^ 16 + land * 2 ^ 8 + disp) by simp only [encL]; ring]; exact bitsAt_mid hr hscope
theorem encL_scope (ht : t < 2 ^ 6) (hbase : base < 2 ^ 6) (hindex : index < 2 ^ 6) (hsize : size < 2 ^ 2) (hland : land < 2 ^ 8) (hdisp : disp < 2 ^ 8) {n : Nat} (hn : n ≤ 3) : fld (encL op g q ord scope t base index size land disp) 36 n = BitVec.ofNat n scope := by
  have hr : t * 2 ^ 30 + base * 2 ^ 24 + index * 2 ^ 18 + size * 2 ^ 16 + land * 2 ^ 8 + disp < 2 ^ 36 := by omega
  rw [show encL op g q ord scope t base index size land disp = ((op * 2 ^ 9 + g.bits * 2 ^ 5 + q * 2 ^ 2 + ord) * 2 ^ 3 + scope) * 2 ^ 36 + (t * 2 ^ 30 + base * 2 ^ 24 + index * 2 ^ 18 + size * 2 ^ 16 + land * 2 ^ 8 + disp) by simp only [encL]; ring]; exact fld_mid hn hr
theorem encL_t_bits (ht : t < 2 ^ 6) (hbase : base < 2 ^ 6) (hindex : index < 2 ^ 6) (hsize : size < 2 ^ 2) (hland : land < 2 ^ 8) (hdisp : disp < 2 ^ 8) : bitsAt (encL op g q ord scope t base index size land disp) 30 6 = t := by
  have hr : base * 2 ^ 24 + index * 2 ^ 18 + size * 2 ^ 16 + land * 2 ^ 8 + disp < 2 ^ 30 := by omega
  rw [show encL op g q ord scope t base index size land disp = ((op * 2 ^ 12 + g.bits * 2 ^ 8 + q * 2 ^ 5 + ord * 2 ^ 3 + scope) * 2 ^ 6 + t) * 2 ^ 30 + (base * 2 ^ 24 + index * 2 ^ 18 + size * 2 ^ 16 + land * 2 ^ 8 + disp) by simp only [encL]; ring]; exact bitsAt_mid hr ht
theorem encL_t (hbase : base < 2 ^ 6) (hindex : index < 2 ^ 6) (hsize : size < 2 ^ 2) (hland : land < 2 ^ 8) (hdisp : disp < 2 ^ 8) {n : Nat} (hn : n ≤ 6) : fld (encL op g q ord scope t base index size land disp) 30 n = BitVec.ofNat n t := by
  have hr : base * 2 ^ 24 + index * 2 ^ 18 + size * 2 ^ 16 + land * 2 ^ 8 + disp < 2 ^ 30 := by omega
  rw [show encL op g q ord scope t base index size land disp = ((op * 2 ^ 12 + g.bits * 2 ^ 8 + q * 2 ^ 5 + ord * 2 ^ 3 + scope) * 2 ^ 6 + t) * 2 ^ 30 + (base * 2 ^ 24 + index * 2 ^ 18 + size * 2 ^ 16 + land * 2 ^ 8 + disp) by simp only [encL]; ring]; exact fld_mid hn hr
theorem encL_base_bits (hbase : base < 2 ^ 6) (hindex : index < 2 ^ 6) (hsize : size < 2 ^ 2) (hland : land < 2 ^ 8) (hdisp : disp < 2 ^ 8) : bitsAt (encL op g q ord scope t base index size land disp) 24 6 = base := by
  have hr : index * 2 ^ 18 + size * 2 ^ 16 + land * 2 ^ 8 + disp < 2 ^ 24 := by omega
  rw [show encL op g q ord scope t base index size land disp = ((op * 2 ^ 18 + g.bits * 2 ^ 14 + q * 2 ^ 11 + ord * 2 ^ 9 + scope * 2 ^ 6 + t) * 2 ^ 6 + base) * 2 ^ 24 + (index * 2 ^ 18 + size * 2 ^ 16 + land * 2 ^ 8 + disp) by simp only [encL]; ring]; exact bitsAt_mid hr hbase
theorem encL_base (hindex : index < 2 ^ 6) (hsize : size < 2 ^ 2) (hland : land < 2 ^ 8) (hdisp : disp < 2 ^ 8) {n : Nat} (hn : n ≤ 6) : fld (encL op g q ord scope t base index size land disp) 24 n = BitVec.ofNat n base := by
  have hr : index * 2 ^ 18 + size * 2 ^ 16 + land * 2 ^ 8 + disp < 2 ^ 24 := by omega
  rw [show encL op g q ord scope t base index size land disp = ((op * 2 ^ 18 + g.bits * 2 ^ 14 + q * 2 ^ 11 + ord * 2 ^ 9 + scope * 2 ^ 6 + t) * 2 ^ 6 + base) * 2 ^ 24 + (index * 2 ^ 18 + size * 2 ^ 16 + land * 2 ^ 8 + disp) by simp only [encL]; ring]; exact fld_mid hn hr
theorem encL_index_bits (hindex : index < 2 ^ 6) (hsize : size < 2 ^ 2) (hland : land < 2 ^ 8) (hdisp : disp < 2 ^ 8) : bitsAt (encL op g q ord scope t base index size land disp) 18 6 = index := by
  have hr : size * 2 ^ 16 + land * 2 ^ 8 + disp < 2 ^ 18 := by omega
  rw [show encL op g q ord scope t base index size land disp = ((op * 2 ^ 24 + g.bits * 2 ^ 20 + q * 2 ^ 17 + ord * 2 ^ 15 + scope * 2 ^ 12 + t * 2 ^ 6 + base) * 2 ^ 6 + index) * 2 ^ 18 + (size * 2 ^ 16 + land * 2 ^ 8 + disp) by simp only [encL]; ring]; exact bitsAt_mid hr hindex
theorem encL_index (hsize : size < 2 ^ 2) (hland : land < 2 ^ 8) (hdisp : disp < 2 ^ 8) {n : Nat} (hn : n ≤ 6) : fld (encL op g q ord scope t base index size land disp) 18 n = BitVec.ofNat n index := by
  have hr : size * 2 ^ 16 + land * 2 ^ 8 + disp < 2 ^ 18 := by omega
  rw [show encL op g q ord scope t base index size land disp = ((op * 2 ^ 24 + g.bits * 2 ^ 20 + q * 2 ^ 17 + ord * 2 ^ 15 + scope * 2 ^ 12 + t * 2 ^ 6 + base) * 2 ^ 6 + index) * 2 ^ 18 + (size * 2 ^ 16 + land * 2 ^ 8 + disp) by simp only [encL]; ring]; exact fld_mid hn hr
theorem encL_size_bits (hsize : size < 2 ^ 2) (hland : land < 2 ^ 8) (hdisp : disp < 2 ^ 8) : bitsAt (encL op g q ord scope t base index size land disp) 16 2 = size := by
  have hr : land * 2 ^ 8 + disp < 2 ^ 16 := by omega
  rw [show encL op g q ord scope t base index size land disp = ((op * 2 ^ 30 + g.bits * 2 ^ 26 + q * 2 ^ 23 + ord * 2 ^ 21 + scope * 2 ^ 18 + t * 2 ^ 12 + base * 2 ^ 6 + index) * 2 ^ 2 + size) * 2 ^ 16 + (land * 2 ^ 8 + disp) by simp only [encL]; ring]; exact bitsAt_mid hr hsize
theorem encL_size (hland : land < 2 ^ 8) (hdisp : disp < 2 ^ 8) {n : Nat} (hn : n ≤ 2) : fld (encL op g q ord scope t base index size land disp) 16 n = BitVec.ofNat n size := by
  have hr : land * 2 ^ 8 + disp < 2 ^ 16 := by omega
  rw [show encL op g q ord scope t base index size land disp = ((op * 2 ^ 30 + g.bits * 2 ^ 26 + q * 2 ^ 23 + ord * 2 ^ 21 + scope * 2 ^ 18 + t * 2 ^ 12 + base * 2 ^ 6 + index) * 2 ^ 2 + size) * 2 ^ 16 + (land * 2 ^ 8 + disp) by simp only [encL]; ring]; exact fld_mid hn hr
theorem encL_land_bits (hland : land < 2 ^ 8) (hdisp : disp < 2 ^ 8) : bitsAt (encL op g q ord scope t base index size land disp) 8 8 = land := by
  have hr : disp < 2 ^ 8 := by omega
  rw [show encL op g q ord scope t base index size land disp = ((op * 2 ^ 32 + g.bits * 2 ^ 28 + q * 2 ^ 25 + ord * 2 ^ 23 + scope * 2 ^ 20 + t * 2 ^ 14 + base * 2 ^ 8 + index * 2 ^ 2 + size) * 2 ^ 8 + land) * 2 ^ 8 + (disp) by simp only [encL]; ring]; exact bitsAt_mid hr hland
theorem encL_land (hdisp : disp < 2 ^ 8) {n : Nat} (hn : n ≤ 8) : fld (encL op g q ord scope t base index size land disp) 8 n = BitVec.ofNat n land := by
  have hr : disp < 2 ^ 8 := by omega
  rw [show encL op g q ord scope t base index size land disp = ((op * 2 ^ 32 + g.bits * 2 ^ 28 + q * 2 ^ 25 + ord * 2 ^ 23 + scope * 2 ^ 20 + t * 2 ^ 14 + base * 2 ^ 8 + index * 2 ^ 2 + size) * 2 ^ 8 + land) * 2 ^ 8 + (disp) by simp only [encL]; ring]; exact fld_mid hn hr
theorem encL_disp_bits {i n : Nat} (h : i + n ≤ 8) : bitsAt (encL op g q ord scope t base index size land disp) i n = bitsAt disp i n := by
  rw [show encL op g q ord scope t base index size land disp = (op * 2 ^ 40 + g.bits * 2 ^ 36 + q * 2 ^ 33 + ord * 2 ^ 31 + scope * 2 ^ 28 + t * 2 ^ 22 + base * 2 ^ 16 + index * 2 ^ 10 + size * 2 ^ 8 + land) * 2 ^ 8 + disp by simp only [encL]; ring]; exact bitsAt_low h
theorem encL_disp {i n : Nat} (h : i + n ≤ 8) : fld (encL op g q ord scope t base index size land disp) i n = fld disp i n := by
  rw [show encL op g q ord scope t base index size land disp = (op * 2 ^ 40 + g.bits * 2 ^ 36 + q * 2 ^ 33 + ord * 2 ^ 31 + scope * 2 ^ 28 + t * 2 ^ 22 + base * 2 ^ 16 + index * 2 ^ 10 + size * 2 ^ 8 + land) * 2 ^ 8 + disp by simp only [encL]; ring]; exact fld_low h
theorem encL_disp_bit {i : Nat} (h : i + 1 ≤ 8) : bitAt (encL op g q ord scope t base index size land disp) i = bitAt disp i := by
  rw [show encL op g q ord scope t base index size land disp = (op * 2 ^ 40 + g.bits * 2 ^ 36 + q * 2 ^ 33 + ord * 2 ^ 31 + scope * 2 ^ 28 + t * 2 ^ 22 + base * 2 ^ 16 + index * 2 ^ 10 + size * 2 ^ 8 + land) * 2 ^ 8 + disp by simp only [encL]; ring]; exact bitAt_low h
end L

/-! ## Format M -/

section M
variable {op afmt bfmt gang routine imm : Nat} {g : Guard} {acc : Bool}

theorem encM_lt (hop : op < 2 ^ 8) (hafmt : afmt < 2 ^ 3) (hbfmt : bfmt < 2 ^ 3) (hgang : gang < 2 ^ 2) (hroutine : routine < 2 ^ 8) (himm : imm < 2 ^ 19) : encM op g acc afmt bfmt gang routine imm < 2 ^ 48 := by
  have := g.bits_lt; have := b2n_lt acc; simp only [encM]; omega
theorem encM_op_bits (hop : op < 2 ^ 8) (hafmt : afmt < 2 ^ 3) (hbfmt : bfmt < 2 ^ 3) (hgang : gang < 2 ^ 2) (hroutine : routine < 2 ^ 8) (himm : imm < 2 ^ 19) : bitsAt (encM op g acc afmt bfmt gang routine imm) 40 8 = op := by
  have hr : g.bits * 2 ^ 36 + b2n acc * 2 ^ 35 + afmt * 2 ^ 32 + bfmt * 2 ^ 29 + gang * 2 ^ 27 + routine * 2 ^ 19 + imm < 2 ^ 40 := by have := g.bits_lt; have := b2n_lt acc; omega
  rw [show encM op g acc afmt bfmt gang routine imm = ((0) * 2 ^ 8 + op) * 2 ^ 40 + (g.bits * 2 ^ 36 + b2n acc * 2 ^ 35 + afmt * 2 ^ 32 + bfmt * 2 ^ 29 + gang * 2 ^ 27 + routine * 2 ^ 19 + imm) by simp only [encM]; ring]; exact bitsAt_mid hr hop
theorem encM_op (hafmt : afmt < 2 ^ 3) (hbfmt : bfmt < 2 ^ 3) (hgang : gang < 2 ^ 2) (hroutine : routine < 2 ^ 8) (himm : imm < 2 ^ 19) {n : Nat} (hn : n ≤ 8) : fld (encM op g acc afmt bfmt gang routine imm) 40 n = BitVec.ofNat n op := by
  have hr : g.bits * 2 ^ 36 + b2n acc * 2 ^ 35 + afmt * 2 ^ 32 + bfmt * 2 ^ 29 + gang * 2 ^ 27 + routine * 2 ^ 19 + imm < 2 ^ 40 := by have := g.bits_lt; have := b2n_lt acc; omega
  rw [show encM op g acc afmt bfmt gang routine imm = ((0) * 2 ^ 8 + op) * 2 ^ 40 + (g.bits * 2 ^ 36 + b2n acc * 2 ^ 35 + afmt * 2 ^ 32 + bfmt * 2 ^ 29 + gang * 2 ^ 27 + routine * 2 ^ 19 + imm) by simp only [encM]; ring]; exact fld_mid hn hr
theorem encM_g (hafmt : afmt < 2 ^ 3) (hbfmt : bfmt < 2 ^ 3) (hgang : gang < 2 ^ 2) (hroutine : routine < 2 ^ 8) (himm : imm < 2 ^ 19) : Guard.at (encM op g acc afmt bfmt gang routine imm) 36 = g := by
  have hr : b2n acc * 2 ^ 35 + afmt * 2 ^ 32 + bfmt * 2 ^ 29 + gang * 2 ^ 27 + routine * 2 ^ 19 + imm < 2 ^ 36 := by have := b2n_lt acc; omega
  apply Guard.at_bits; rw [show encM op g acc afmt bfmt gang routine imm = ((op) * 2 ^ 4 + g.bits) * 2 ^ 36 + (b2n acc * 2 ^ 35 + afmt * 2 ^ 32 + bfmt * 2 ^ 29 + gang * 2 ^ 27 + routine * 2 ^ 19 + imm) by simp only [encM]; ring]; exact bitsAt_mid hr g.bits_lt
theorem encM_acc (hafmt : afmt < 2 ^ 3) (hbfmt : bfmt < 2 ^ 3) (hgang : gang < 2 ^ 2) (hroutine : routine < 2 ^ 8) (himm : imm < 2 ^ 19) : bitAt (encM op g acc afmt bfmt gang routine imm) 35 = acc := by
  have hr : afmt * 2 ^ 32 + bfmt * 2 ^ 29 + gang * 2 ^ 27 + routine * 2 ^ 19 + imm < 2 ^ 35 := by omega
  rw [show encM op g acc afmt bfmt gang routine imm = ((op * 2 ^ 4 + g.bits) * 2 ^ 1 + b2n acc) * 2 ^ 35 + (afmt * 2 ^ 32 + bfmt * 2 ^ 29 + gang * 2 ^ 27 + routine * 2 ^ 19 + imm) by simp only [encM]; ring]; exact bitAt_mid hr
theorem encM_afmt_bits (hafmt : afmt < 2 ^ 3) (hbfmt : bfmt < 2 ^ 3) (hgang : gang < 2 ^ 2) (hroutine : routine < 2 ^ 8) (himm : imm < 2 ^ 19) : bitsAt (encM op g acc afmt bfmt gang routine imm) 32 3 = afmt := by
  have hr : bfmt * 2 ^ 29 + gang * 2 ^ 27 + routine * 2 ^ 19 + imm < 2 ^ 32 := by omega
  rw [show encM op g acc afmt bfmt gang routine imm = ((op * 2 ^ 5 + g.bits * 2 ^ 1 + b2n acc) * 2 ^ 3 + afmt) * 2 ^ 32 + (bfmt * 2 ^ 29 + gang * 2 ^ 27 + routine * 2 ^ 19 + imm) by simp only [encM]; ring]; exact bitsAt_mid hr hafmt
theorem encM_afmt (hbfmt : bfmt < 2 ^ 3) (hgang : gang < 2 ^ 2) (hroutine : routine < 2 ^ 8) (himm : imm < 2 ^ 19) {n : Nat} (hn : n ≤ 3) : fld (encM op g acc afmt bfmt gang routine imm) 32 n = BitVec.ofNat n afmt := by
  have hr : bfmt * 2 ^ 29 + gang * 2 ^ 27 + routine * 2 ^ 19 + imm < 2 ^ 32 := by omega
  rw [show encM op g acc afmt bfmt gang routine imm = ((op * 2 ^ 5 + g.bits * 2 ^ 1 + b2n acc) * 2 ^ 3 + afmt) * 2 ^ 32 + (bfmt * 2 ^ 29 + gang * 2 ^ 27 + routine * 2 ^ 19 + imm) by simp only [encM]; ring]; exact fld_mid hn hr
theorem encM_bfmt_bits (hbfmt : bfmt < 2 ^ 3) (hgang : gang < 2 ^ 2) (hroutine : routine < 2 ^ 8) (himm : imm < 2 ^ 19) : bitsAt (encM op g acc afmt bfmt gang routine imm) 29 3 = bfmt := by
  have hr : gang * 2 ^ 27 + routine * 2 ^ 19 + imm < 2 ^ 29 := by omega
  rw [show encM op g acc afmt bfmt gang routine imm = ((op * 2 ^ 8 + g.bits * 2 ^ 4 + b2n acc * 2 ^ 3 + afmt) * 2 ^ 3 + bfmt) * 2 ^ 29 + (gang * 2 ^ 27 + routine * 2 ^ 19 + imm) by simp only [encM]; ring]; exact bitsAt_mid hr hbfmt
theorem encM_bfmt (hgang : gang < 2 ^ 2) (hroutine : routine < 2 ^ 8) (himm : imm < 2 ^ 19) {n : Nat} (hn : n ≤ 3) : fld (encM op g acc afmt bfmt gang routine imm) 29 n = BitVec.ofNat n bfmt := by
  have hr : gang * 2 ^ 27 + routine * 2 ^ 19 + imm < 2 ^ 29 := by omega
  rw [show encM op g acc afmt bfmt gang routine imm = ((op * 2 ^ 8 + g.bits * 2 ^ 4 + b2n acc * 2 ^ 3 + afmt) * 2 ^ 3 + bfmt) * 2 ^ 29 + (gang * 2 ^ 27 + routine * 2 ^ 19 + imm) by simp only [encM]; ring]; exact fld_mid hn hr
theorem encM_gang_bits (hgang : gang < 2 ^ 2) (hroutine : routine < 2 ^ 8) (himm : imm < 2 ^ 19) : bitsAt (encM op g acc afmt bfmt gang routine imm) 27 2 = gang := by
  have hr : routine * 2 ^ 19 + imm < 2 ^ 27 := by omega
  rw [show encM op g acc afmt bfmt gang routine imm = ((op * 2 ^ 11 + g.bits * 2 ^ 7 + b2n acc * 2 ^ 6 + afmt * 2 ^ 3 + bfmt) * 2 ^ 2 + gang) * 2 ^ 27 + (routine * 2 ^ 19 + imm) by simp only [encM]; ring]; exact bitsAt_mid hr hgang
theorem encM_gang (hroutine : routine < 2 ^ 8) (himm : imm < 2 ^ 19) {n : Nat} (hn : n ≤ 2) : fld (encM op g acc afmt bfmt gang routine imm) 27 n = BitVec.ofNat n gang := by
  have hr : routine * 2 ^ 19 + imm < 2 ^ 27 := by omega
  rw [show encM op g acc afmt bfmt gang routine imm = ((op * 2 ^ 11 + g.bits * 2 ^ 7 + b2n acc * 2 ^ 6 + afmt * 2 ^ 3 + bfmt) * 2 ^ 2 + gang) * 2 ^ 27 + (routine * 2 ^ 19 + imm) by simp only [encM]; ring]; exact fld_mid hn hr
theorem encM_routine_bits (hroutine : routine < 2 ^ 8) (himm : imm < 2 ^ 19) : bitsAt (encM op g acc afmt bfmt gang routine imm) 19 8 = routine := by
  have hr : imm < 2 ^ 19 := by omega
  rw [show encM op g acc afmt bfmt gang routine imm = ((op * 2 ^ 13 + g.bits * 2 ^ 9 + b2n acc * 2 ^ 8 + afmt * 2 ^ 5 + bfmt * 2 ^ 2 + gang) * 2 ^ 8 + routine) * 2 ^ 19 + (imm) by simp only [encM]; ring]; exact bitsAt_mid hr hroutine
theorem encM_routine (himm : imm < 2 ^ 19) {n : Nat} (hn : n ≤ 8) : fld (encM op g acc afmt bfmt gang routine imm) 19 n = BitVec.ofNat n routine := by
  have hr : imm < 2 ^ 19 := by omega
  rw [show encM op g acc afmt bfmt gang routine imm = ((op * 2 ^ 13 + g.bits * 2 ^ 9 + b2n acc * 2 ^ 8 + afmt * 2 ^ 5 + bfmt * 2 ^ 2 + gang) * 2 ^ 8 + routine) * 2 ^ 19 + (imm) by simp only [encM]; ring]; exact fld_mid hn hr
theorem encM_imm_bits {i n : Nat} (h : i + n ≤ 19) : bitsAt (encM op g acc afmt bfmt gang routine imm) i n = bitsAt imm i n := by
  rw [show encM op g acc afmt bfmt gang routine imm = (op * 2 ^ 21 + g.bits * 2 ^ 17 + b2n acc * 2 ^ 16 + afmt * 2 ^ 13 + bfmt * 2 ^ 10 + gang * 2 ^ 8 + routine) * 2 ^ 19 + imm by simp only [encM]; ring]; exact bitsAt_low h
theorem encM_imm {i n : Nat} (h : i + n ≤ 19) : fld (encM op g acc afmt bfmt gang routine imm) i n = fld imm i n := by
  rw [show encM op g acc afmt bfmt gang routine imm = (op * 2 ^ 21 + g.bits * 2 ^ 17 + b2n acc * 2 ^ 16 + afmt * 2 ^ 13 + bfmt * 2 ^ 10 + gang * 2 ^ 8 + routine) * 2 ^ 19 + imm by simp only [encM]; ring]; exact fld_low h
theorem encM_imm_bit {i : Nat} (h : i + 1 ≤ 19) : bitAt (encM op g acc afmt bfmt gang routine imm) i = bitAt imm i := by
  rw [show encM op g acc afmt bfmt gang routine imm = (op * 2 ^ 21 + g.bits * 2 ^ 17 + b2n acc * 2 ^ 16 + afmt * 2 ^ 13 + bfmt * 2 ^ 10 + gang * 2 ^ 8 + routine) * 2 ^ 19 + imm by simp only [encM]; ring]; exact bitAt_low h
end M

/-! ## Format X -/

section X
variable {op x base land disp : Nat} {g : Guard}

theorem encX_lt (hop : op < 2 ^ 4) (hx : x < 2 ^ 4) (hbase : base < 2 ^ 6) (hland : land < 2 ^ 6) (hdisp : disp < 2 ^ 8) : encX op g x base land disp < 2 ^ 32 := by
  have := g.bits_lt; simp only [encX]; omega
theorem encX_op_bits (hop : op < 2 ^ 4) (hx : x < 2 ^ 4) (hbase : base < 2 ^ 6) (hland : land < 2 ^ 6) (hdisp : disp < 2 ^ 8) : bitsAt (encX op g x base land disp) 28 4 = op := by
  have hr : g.bits * 2 ^ 24 + x * 2 ^ 20 + base * 2 ^ 14 + land * 2 ^ 8 + disp < 2 ^ 28 := by have := g.bits_lt; omega
  rw [show encX op g x base land disp = ((0) * 2 ^ 4 + op) * 2 ^ 28 + (g.bits * 2 ^ 24 + x * 2 ^ 20 + base * 2 ^ 14 + land * 2 ^ 8 + disp) by simp only [encX]; ring]; exact bitsAt_mid hr hop
theorem encX_op (hx : x < 2 ^ 4) (hbase : base < 2 ^ 6) (hland : land < 2 ^ 6) (hdisp : disp < 2 ^ 8) {n : Nat} (hn : n ≤ 4) : fld (encX op g x base land disp) 28 n = BitVec.ofNat n op := by
  have hr : g.bits * 2 ^ 24 + x * 2 ^ 20 + base * 2 ^ 14 + land * 2 ^ 8 + disp < 2 ^ 28 := by have := g.bits_lt; omega
  rw [show encX op g x base land disp = ((0) * 2 ^ 4 + op) * 2 ^ 28 + (g.bits * 2 ^ 24 + x * 2 ^ 20 + base * 2 ^ 14 + land * 2 ^ 8 + disp) by simp only [encX]; ring]; exact fld_mid hn hr
theorem encX_g (hx : x < 2 ^ 4) (hbase : base < 2 ^ 6) (hland : land < 2 ^ 6) (hdisp : disp < 2 ^ 8) : Guard.at (encX op g x base land disp) 24 = g := by
  have hr : x * 2 ^ 20 + base * 2 ^ 14 + land * 2 ^ 8 + disp < 2 ^ 24 := by omega
  apply Guard.at_bits; rw [show encX op g x base land disp = ((op) * 2 ^ 4 + g.bits) * 2 ^ 24 + (x * 2 ^ 20 + base * 2 ^ 14 + land * 2 ^ 8 + disp) by simp only [encX]; ring]; exact bitsAt_mid hr g.bits_lt
theorem encX_x_bits (hx : x < 2 ^ 4) (hbase : base < 2 ^ 6) (hland : land < 2 ^ 6) (hdisp : disp < 2 ^ 8) : bitsAt (encX op g x base land disp) 20 4 = x := by
  have hr : base * 2 ^ 14 + land * 2 ^ 8 + disp < 2 ^ 20 := by omega
  rw [show encX op g x base land disp = ((op * 2 ^ 4 + g.bits) * 2 ^ 4 + x) * 2 ^ 20 + (base * 2 ^ 14 + land * 2 ^ 8 + disp) by simp only [encX]; ring]; exact bitsAt_mid hr hx
theorem encX_x (hbase : base < 2 ^ 6) (hland : land < 2 ^ 6) (hdisp : disp < 2 ^ 8) {n : Nat} (hn : n ≤ 4) : fld (encX op g x base land disp) 20 n = BitVec.ofNat n x := by
  have hr : base * 2 ^ 14 + land * 2 ^ 8 + disp < 2 ^ 20 := by omega
  rw [show encX op g x base land disp = ((op * 2 ^ 4 + g.bits) * 2 ^ 4 + x) * 2 ^ 20 + (base * 2 ^ 14 + land * 2 ^ 8 + disp) by simp only [encX]; ring]; exact fld_mid hn hr
theorem encX_base_bits (hbase : base < 2 ^ 6) (hland : land < 2 ^ 6) (hdisp : disp < 2 ^ 8) : bitsAt (encX op g x base land disp) 14 6 = base := by
  have hr : land * 2 ^ 8 + disp < 2 ^ 14 := by omega
  rw [show encX op g x base land disp = ((op * 2 ^ 8 + g.bits * 2 ^ 4 + x) * 2 ^ 6 + base) * 2 ^ 14 + (land * 2 ^ 8 + disp) by simp only [encX]; ring]; exact bitsAt_mid hr hbase
theorem encX_base (hland : land < 2 ^ 6) (hdisp : disp < 2 ^ 8) {n : Nat} (hn : n ≤ 6) : fld (encX op g x base land disp) 14 n = BitVec.ofNat n base := by
  have hr : land * 2 ^ 8 + disp < 2 ^ 14 := by omega
  rw [show encX op g x base land disp = ((op * 2 ^ 8 + g.bits * 2 ^ 4 + x) * 2 ^ 6 + base) * 2 ^ 14 + (land * 2 ^ 8 + disp) by simp only [encX]; ring]; exact fld_mid hn hr
theorem encX_land_bits (hland : land < 2 ^ 6) (hdisp : disp < 2 ^ 8) : bitsAt (encX op g x base land disp) 8 6 = land := by
  have hr : disp < 2 ^ 8 := by omega
  rw [show encX op g x base land disp = ((op * 2 ^ 14 + g.bits * 2 ^ 10 + x * 2 ^ 6 + base) * 2 ^ 6 + land) * 2 ^ 8 + (disp) by simp only [encX]; ring]; exact bitsAt_mid hr hland
theorem encX_land (hdisp : disp < 2 ^ 8) {n : Nat} (hn : n ≤ 6) : fld (encX op g x base land disp) 8 n = BitVec.ofNat n land := by
  have hr : disp < 2 ^ 8 := by omega
  rw [show encX op g x base land disp = ((op * 2 ^ 14 + g.bits * 2 ^ 10 + x * 2 ^ 6 + base) * 2 ^ 6 + land) * 2 ^ 8 + (disp) by simp only [encX]; ring]; exact fld_mid hn hr
theorem encX_disp_bits {i n : Nat} (h : i + n ≤ 8) : bitsAt (encX op g x base land disp) i n = bitsAt disp i n := by
  rw [show encX op g x base land disp = (op * 2 ^ 20 + g.bits * 2 ^ 16 + x * 2 ^ 12 + base * 2 ^ 6 + land) * 2 ^ 8 + disp by simp only [encX]; ring]; exact bitsAt_low h
theorem encX_disp {i n : Nat} (h : i + n ≤ 8) : fld (encX op g x base land disp) i n = fld disp i n := by
  rw [show encX op g x base land disp = (op * 2 ^ 20 + g.bits * 2 ^ 16 + x * 2 ^ 12 + base * 2 ^ 6 + land) * 2 ^ 8 + disp by simp only [encX]; ring]; exact fld_low h
theorem encX_disp_bit {i : Nat} (h : i + 1 ≤ 8) : bitAt (encX op g x base land disp) i = bitAt disp i := by
  rw [show encX op g x base land disp = (op * 2 ^ 20 + g.bits * 2 ^ 16 + x * 2 ^ 12 + base * 2 ^ 6 + land) * 2 ^ 8 + disp by simp only [encX]; ring]; exact bitAt_low h
end X

/-! ## Format D -/

section D
variable {op a b c unit imm : Nat} {g : Guard}

theorem encD_lt (hop : op < 2 ^ 8) (ha : a < 2 ^ 6) (hb : b < 2 ^ 6) (hc : c < 2 ^ 6) (hunit : unit < 2 ^ 4) (himm : imm < 2 ^ 14) : encD op g a b c unit imm < 2 ^ 48 := by
  have := g.bits_lt; simp only [encD]; omega
theorem encD_op_bits (hop : op < 2 ^ 8) (ha : a < 2 ^ 6) (hb : b < 2 ^ 6) (hc : c < 2 ^ 6) (hunit : unit < 2 ^ 4) (himm : imm < 2 ^ 14) : bitsAt (encD op g a b c unit imm) 40 8 = op := by
  have hr : g.bits * 2 ^ 36 + a * 2 ^ 30 + b * 2 ^ 24 + c * 2 ^ 18 + unit * 2 ^ 14 + imm < 2 ^ 40 := by have := g.bits_lt; omega
  rw [show encD op g a b c unit imm = ((0) * 2 ^ 8 + op) * 2 ^ 40 + (g.bits * 2 ^ 36 + a * 2 ^ 30 + b * 2 ^ 24 + c * 2 ^ 18 + unit * 2 ^ 14 + imm) by simp only [encD]; ring]; exact bitsAt_mid hr hop
theorem encD_op (ha : a < 2 ^ 6) (hb : b < 2 ^ 6) (hc : c < 2 ^ 6) (hunit : unit < 2 ^ 4) (himm : imm < 2 ^ 14) {n : Nat} (hn : n ≤ 8) : fld (encD op g a b c unit imm) 40 n = BitVec.ofNat n op := by
  have hr : g.bits * 2 ^ 36 + a * 2 ^ 30 + b * 2 ^ 24 + c * 2 ^ 18 + unit * 2 ^ 14 + imm < 2 ^ 40 := by have := g.bits_lt; omega
  rw [show encD op g a b c unit imm = ((0) * 2 ^ 8 + op) * 2 ^ 40 + (g.bits * 2 ^ 36 + a * 2 ^ 30 + b * 2 ^ 24 + c * 2 ^ 18 + unit * 2 ^ 14 + imm) by simp only [encD]; ring]; exact fld_mid hn hr
theorem encD_g (ha : a < 2 ^ 6) (hb : b < 2 ^ 6) (hc : c < 2 ^ 6) (hunit : unit < 2 ^ 4) (himm : imm < 2 ^ 14) : Guard.at (encD op g a b c unit imm) 36 = g := by
  have hr : a * 2 ^ 30 + b * 2 ^ 24 + c * 2 ^ 18 + unit * 2 ^ 14 + imm < 2 ^ 36 := by omega
  apply Guard.at_bits; rw [show encD op g a b c unit imm = ((op) * 2 ^ 4 + g.bits) * 2 ^ 36 + (a * 2 ^ 30 + b * 2 ^ 24 + c * 2 ^ 18 + unit * 2 ^ 14 + imm) by simp only [encD]; ring]; exact bitsAt_mid hr g.bits_lt
theorem encD_a_bits (ha : a < 2 ^ 6) (hb : b < 2 ^ 6) (hc : c < 2 ^ 6) (hunit : unit < 2 ^ 4) (himm : imm < 2 ^ 14) : bitsAt (encD op g a b c unit imm) 30 6 = a := by
  have hr : b * 2 ^ 24 + c * 2 ^ 18 + unit * 2 ^ 14 + imm < 2 ^ 30 := by omega
  rw [show encD op g a b c unit imm = ((op * 2 ^ 4 + g.bits) * 2 ^ 6 + a) * 2 ^ 30 + (b * 2 ^ 24 + c * 2 ^ 18 + unit * 2 ^ 14 + imm) by simp only [encD]; ring]; exact bitsAt_mid hr ha
theorem encD_a (hb : b < 2 ^ 6) (hc : c < 2 ^ 6) (hunit : unit < 2 ^ 4) (himm : imm < 2 ^ 14) {n : Nat} (hn : n ≤ 6) : fld (encD op g a b c unit imm) 30 n = BitVec.ofNat n a := by
  have hr : b * 2 ^ 24 + c * 2 ^ 18 + unit * 2 ^ 14 + imm < 2 ^ 30 := by omega
  rw [show encD op g a b c unit imm = ((op * 2 ^ 4 + g.bits) * 2 ^ 6 + a) * 2 ^ 30 + (b * 2 ^ 24 + c * 2 ^ 18 + unit * 2 ^ 14 + imm) by simp only [encD]; ring]; exact fld_mid hn hr
theorem encD_b_bits (hb : b < 2 ^ 6) (hc : c < 2 ^ 6) (hunit : unit < 2 ^ 4) (himm : imm < 2 ^ 14) : bitsAt (encD op g a b c unit imm) 24 6 = b := by
  have hr : c * 2 ^ 18 + unit * 2 ^ 14 + imm < 2 ^ 24 := by omega
  rw [show encD op g a b c unit imm = ((op * 2 ^ 10 + g.bits * 2 ^ 6 + a) * 2 ^ 6 + b) * 2 ^ 24 + (c * 2 ^ 18 + unit * 2 ^ 14 + imm) by simp only [encD]; ring]; exact bitsAt_mid hr hb
theorem encD_b (hc : c < 2 ^ 6) (hunit : unit < 2 ^ 4) (himm : imm < 2 ^ 14) {n : Nat} (hn : n ≤ 6) : fld (encD op g a b c unit imm) 24 n = BitVec.ofNat n b := by
  have hr : c * 2 ^ 18 + unit * 2 ^ 14 + imm < 2 ^ 24 := by omega
  rw [show encD op g a b c unit imm = ((op * 2 ^ 10 + g.bits * 2 ^ 6 + a) * 2 ^ 6 + b) * 2 ^ 24 + (c * 2 ^ 18 + unit * 2 ^ 14 + imm) by simp only [encD]; ring]; exact fld_mid hn hr
theorem encD_c_bits (hc : c < 2 ^ 6) (hunit : unit < 2 ^ 4) (himm : imm < 2 ^ 14) : bitsAt (encD op g a b c unit imm) 18 6 = c := by
  have hr : unit * 2 ^ 14 + imm < 2 ^ 18 := by omega
  rw [show encD op g a b c unit imm = ((op * 2 ^ 16 + g.bits * 2 ^ 12 + a * 2 ^ 6 + b) * 2 ^ 6 + c) * 2 ^ 18 + (unit * 2 ^ 14 + imm) by simp only [encD]; ring]; exact bitsAt_mid hr hc
theorem encD_c (hunit : unit < 2 ^ 4) (himm : imm < 2 ^ 14) {n : Nat} (hn : n ≤ 6) : fld (encD op g a b c unit imm) 18 n = BitVec.ofNat n c := by
  have hr : unit * 2 ^ 14 + imm < 2 ^ 18 := by omega
  rw [show encD op g a b c unit imm = ((op * 2 ^ 16 + g.bits * 2 ^ 12 + a * 2 ^ 6 + b) * 2 ^ 6 + c) * 2 ^ 18 + (unit * 2 ^ 14 + imm) by simp only [encD]; ring]; exact fld_mid hn hr
theorem encD_unit_bits (hunit : unit < 2 ^ 4) (himm : imm < 2 ^ 14) : bitsAt (encD op g a b c unit imm) 14 4 = unit := by
  have hr : imm < 2 ^ 14 := by omega
  rw [show encD op g a b c unit imm = ((op * 2 ^ 22 + g.bits * 2 ^ 18 + a * 2 ^ 12 + b * 2 ^ 6 + c) * 2 ^ 4 + unit) * 2 ^ 14 + (imm) by simp only [encD]; ring]; exact bitsAt_mid hr hunit
theorem encD_unit (himm : imm < 2 ^ 14) {n : Nat} (hn : n ≤ 4) : fld (encD op g a b c unit imm) 14 n = BitVec.ofNat n unit := by
  have hr : imm < 2 ^ 14 := by omega
  rw [show encD op g a b c unit imm = ((op * 2 ^ 22 + g.bits * 2 ^ 18 + a * 2 ^ 12 + b * 2 ^ 6 + c) * 2 ^ 4 + unit) * 2 ^ 14 + (imm) by simp only [encD]; ring]; exact fld_mid hn hr
theorem encD_imm_bits {i n : Nat} (h : i + n ≤ 14) : bitsAt (encD op g a b c unit imm) i n = bitsAt imm i n := by
  rw [show encD op g a b c unit imm = (op * 2 ^ 26 + g.bits * 2 ^ 22 + a * 2 ^ 16 + b * 2 ^ 10 + c * 2 ^ 4 + unit) * 2 ^ 14 + imm by simp only [encD]; ring]; exact bitsAt_low h
theorem encD_imm {i n : Nat} (h : i + n ≤ 14) : fld (encD op g a b c unit imm) i n = fld imm i n := by
  rw [show encD op g a b c unit imm = (op * 2 ^ 26 + g.bits * 2 ^ 22 + a * 2 ^ 16 + b * 2 ^ 10 + c * 2 ^ 4 + unit) * 2 ^ 14 + imm by simp only [encD]; ring]; exact fld_low h
theorem encD_imm_bit {i : Nat} (h : i + 1 ≤ 14) : bitAt (encD op g a b c unit imm) i = bitAt imm i := by
  rw [show encD op g a b c unit imm = (op * 2 ^ 26 + g.bits * 2 ^ 22 + a * 2 ^ 16 + b * 2 ^ 10 + c * 2 ^ 4 + unit) * 2 ^ 14 + imm by simp only [encD]; ring]; exact bitAt_low h
end D

/-! ## Reading back -/

/-- An accepted reading of its own word. -/
theorem accept_of {i : Instr} {r : Option Instr} (hw : i.wf = true) (hr : r = some i) : accept (encode i) r = some i := by
  simp [accept, hr, hw]

end Sys2Proof
end

