-- ==== Sys2Proof/Laws/Map.lean ====
section
/-! SUPPORT. The laws of the sparse maps: reading after a write, and the canonical form. -/

namespace Sys2Proof

variable {α : Type} [DecidableEq α]

/-- A map whose keys all lie at or above `lo` reads the default below. -/
theorem mget_below {d : α} {m : SMap α} {lo k : Nat} (h : mwfFrom d lo m = true) (hk : k < lo) : mget d m k = d := by
  cases m with
  | nil => rfl
  | cons e t =>
    obtain ⟨j, v⟩ := e
    simp only [mwfFrom, Bool.and_eq_true, decide_eq_true_eq] at h
    simp only [mget]
    rw [if_neg (by omega), if_pos (by omega)]

/-- The canonical form from a bound holds from any lower one. -/
theorem mwfFrom_mono {d : α} {m : SMap α} {lo hi : Nat} (h : mwfFrom d hi m = true) (hle : lo ≤ hi) : mwfFrom d lo m = true := by
  cases m with
  | nil => rfl
  | cons e t =>
    obtain ⟨j, v⟩ := e
    simp only [mwfFrom, Bool.and_eq_true, decide_eq_true_eq] at h ⊢
    exact ⟨⟨by omega, h.1.2⟩, h.2⟩

/-- A write keeps the canonical form, from the lower of the bound and the key. -/
theorem mwfFrom_mset {d : α} {m : SMap α} {lo k : Nat} {v : α} (h : mwfFrom d lo m = true) :
    mwfFrom d (min lo k) (mset d m k v) = true := by
  induction m generalizing lo with
  | nil =>
    simp only [mset]
    split
    · rfl
    · simp_all [mwfFrom]
  | cons e t ih =>
    obtain ⟨j, w⟩ := e
    simp only [mwfFrom, Bool.and_eq_true, decide_eq_true_eq] at h
    obtain ⟨⟨h1, h2⟩, h3⟩ := h
    simp only [mset]
    split_ifs with a b b c
    · exact mwfFrom_mono h3 (by omega)
    · subst a
      simp only [mwfFrom, Bool.and_eq_true, decide_eq_true_eq]
      exact ⟨⟨by omega, b⟩, h3⟩
    · simp only [mwfFrom, Bool.and_eq_true, decide_eq_true_eq]
      exact ⟨⟨by omega, h2⟩, h3⟩
    · simp only [mwfFrom, Bool.and_eq_true, decide_eq_true_eq]
      exact ⟨⟨by omega, by assumption⟩, ⟨by omega, h2⟩, h3⟩
    · have := ih h3
      simp only [mwfFrom, Bool.and_eq_true, decide_eq_true_eq]
      exact ⟨⟨by omega, h2⟩, mwfFrom_mono this (by omega)⟩

/-- A write keeps the canonical form. -/
theorem mwf_mset {d : α} {m : SMap α} {k : Nat} {v : α} (h : mwf d m = true) : mwf d (mset d m k v) = true :=
  mwfFrom_mono (mwfFrom_mset h) (by omega)

/-- The empty map is canonical. -/
theorem mwf_nil {d : α} : mwf d ([] : SMap α) = true := rfl

/-- Writes one after another keep the canonical form. -/
theorem mwf_msetAll {d : α} {m : SMap α} {l : List (Nat × α)} (h : mwf d m = true) : mwf d (msetAll d m l) = true := by
  induction l generalizing m with
  | nil => exact h
  | cons e t ih => exact ih (mwf_mset h)

/-- Dropping entries keeps the canonical form. -/
theorem mwfFrom_mfilter {d : α} {m : SMap α} {p : Nat → Bool} {lo : Nat} (h : mwfFrom d lo m = true) :
    mwfFrom d lo (mfilter p m) = true := by
  induction m generalizing lo with
  | nil => rfl
  | cons e t ih =>
    obtain ⟨j, w⟩ := e
    simp only [mwfFrom, Bool.and_eq_true, decide_eq_true_eq] at h
    have ht := ih h.2
    by_cases hp : p j = true
    · have : mfilter p ((j, w) :: t) = (j, w) :: mfilter p t := by simp [mfilter, hp]
      rw [this]
      simp only [mwfFrom, Bool.and_eq_true, decide_eq_true_eq]
      exact ⟨h.1, ht⟩
    · have : mfilter p ((j, w) :: t) = mfilter p t := by simp [mfilter, hp]
      rw [this]
      exact mwfFrom_mono ht (by omega)

/-- Dropping entries keeps the canonical form. -/
theorem mwf_mfilter {d : α} {m : SMap α} {p : Nat → Bool} (h : mwf d m = true) : mwf d (mfilter p m) = true := mwfFrom_mfilter h

/-- Clearing a range keeps the canonical form. -/
theorem mwf_mclear {d : α} {m : SMap α} {lo n : Nat} (h : mwf d m = true) : mwf d (mclear m lo n) = true := mwf_mfilter h

/-- A read of the key written gives the value written. -/
theorem mget_mset_from {d : α} {m : SMap α} {lo k : Nat} {v : α} (h : mwfFrom d lo m = true) : mget d (mset d m k v) k = v := by
  induction m generalizing lo with
  | nil =>
    simp only [mset]
    split <;> simp_all [mget]
  | cons e t ih =>
    obtain ⟨j, w⟩ := e
    simp only [mwfFrom, Bool.and_eq_true, decide_eq_true_eq] at h
    simp only [mset]
    split_ifs with a b b c
    · rw [mget_below h.2 (by omega), b]
    · simp [mget]
    · simp only [mget]
      rw [if_neg (by omega), if_pos b, c]
    · simp [mget]
    · simp only [mget]
      rw [if_neg a, if_neg b]
      exact ih h.2

/-- A read of the key written gives the value written. -/
theorem mget_mset {d : α} {m : SMap α} {k : Nat} {v : α} (h : mwf d m = true) : mget d (mset d m k v) k = v := mget_mset_from h

/-- A read of another key gives what it gave. -/
theorem mget_mset_ne_from {d : α} {m : SMap α} {lo k i : Nat} {v : α} (h : mwfFrom d lo m = true) (hi : i ≠ k) :
    mget d (mset d m k v) i = mget d m i := by
  induction m generalizing lo with
  | nil =>
    simp only [mset]
    split
    · rfl
    · simp only [mget]; rw [if_neg hi]; simp
  | cons e t ih =>
    obtain ⟨j, w⟩ := e
    simp only [mwfFrom, Bool.and_eq_true, decide_eq_true_eq] at h
    simp only [mset]
    split_ifs with a b b c
    · subst a
      simp only [mget]
      rw [if_neg hi]
      split_ifs with x
      · exact mget_below h.2 (by omega)
      · rfl
    · subst a
      simp only [mget]
      rw [if_neg hi, if_neg hi]
    · rfl
    · simp only [mget]
      rw [if_neg hi]
      split_ifs with x y y <;> first | rfl | omega
    · simp only [mget]
      split_ifs
      · rfl
      · rfl
      · exact ih h.2

/-- A read of another key gives what it gave. -/
theorem mget_mset_ne {d : α} {m : SMap α} {k i : Nat} {v : α} (h : mwf d m = true) (hi : i ≠ k) :
    mget d (mset d m k v) i = mget d m i := mget_mset_ne_from h hi

/-- Of a value other than the default, a read gives the value written, whatever the map. -/
theorem mget_mset_nd {d : α} {m : SMap α} {k : Nat} {v : α} (hv : v ≠ d) : mget d (mset d m k v) k = v := by
  induction m with
  | nil => simp [mset, hv, mget]
  | cons e t ih =>
    obtain ⟨j, w⟩ := e
    simp only [mset, if_neg hv]
    split_ifs with a b
    · simp [mget]
    · simp [mget]
    · simp only [mget, if_neg a, if_neg b]; exact ih

/-- Where a value other than the default is written, another key reads as it did, whatever the map. -/
theorem mget_mset_ne_nd {d : α} {m : SMap α} {k i : Nat} {v : α} (hv : v ≠ d) (hi : i ≠ k) :
    mget d (mset d m k v) i = mget d m i := by
  induction m with
  | nil =>
    simp only [mset, if_neg hv, mget, if_neg hi]
    simp
  | cons e t ih =>
    obtain ⟨j, w⟩ := e
    simp only [mset, if_neg hv]
    split_ifs with a b
    · subst a
      simp only [mget, if_neg hi]
    · simp only [mget, if_neg hi]
      split_ifs with x y y <;> first | rfl | omega
    · simp only [mget]
      split_ifs
      · rfl
      · rfl
      · exact ih

end Sys2Proof
end

