-- ==== Sys2Proof/Laws/State.lean ====
section
/-! SUPPORT. What each update of the state leaves of each field, and what reading a piece after an update gives. -/

namespace Sys2Proof.Machine

open Sys2Proof

variable (s : State)

/-! ### `setCtx` -/

@[simp] theorem State.setCtx_cycle (c : Nat) (x : Ctx) : (s.setCtx c x).cycle = s.cycle := rfl
@[simp] theorem State.setCtx_wall (c : Nat) (x : Ctx) : (s.setCtx c x).wall = s.wall := rfl
@[simp] theorem State.setCtx_agenda (c : Nat) (x : Ctx) : (s.setCtx c x).agenda = s.agenda := rfl
@[simp] theorem State.setCtx_cur (c : Nat) (x : Ctx) : (s.setCtx c x).cur = s.cur := rfl
@[simp] theorem State.setCtx_fresh (c : Nat) (x : Ctx) : (s.setCtx c x).fresh = s.fresh := rfl
@[simp] theorem State.setCtx_seq (c : Nat) (x : Ctx) : (s.setCtx c x).seq = s.seq := rfl
@[simp] theorem State.setCtx_ctxs (c : Nat) (x : Ctx) : (s.setCtx c x).ctxs = mset .zero s.ctxs c x := rfl
@[simp] theorem State.setCtx_cores (c : Nat) (x : Ctx) : (s.setCtx c x).cores = s.cores := rfl
@[simp] theorem State.setCtx_clusters (c : Nat) (x : Ctx) : (s.setCtx c x).clusters = s.clusters := rfl
@[simp] theorem State.setCtx_dies (c : Nat) (x : Ctx) : (s.setCtx c x).dies = s.dies := rfl
@[simp] theorem State.setCtx_mem (c : Nat) (x : Ctx) : (s.setCtx c x).mem = s.mem := rfl
@[simp] theorem State.setCtx_tr (c : Nat) (x : Ctx) : (s.setCtx c x).tr = s.tr := rfl
@[simp] theorem State.setCtx_sched (c : Nat) (x : Ctx) : (s.setCtx c x).sched = s.sched := rfl
@[simp] theorem State.setCtx_mgmt (c : Nat) (x : Ctx) : (s.setCtx c x).mgmt = s.mgmt := rfl
@[simp] theorem State.setCtx_cool (c : Nat) (x : Ctx) : (s.setCtx c x).cool = s.cool := rfl
@[simp] theorem State.setCtx_fab (c : Nat) (x : Ctx) : (s.setCtx c x).fab = s.fab := rfl
@[simp] theorem State.setCtx_out (c : Nat) (x : Ctx) : (s.setCtx c x).out = s.out := rfl
@[simp] theorem State.setCtx_powered (c : Nat) (x : Ctx) : (s.setCtx c x).powered = s.powered := rfl
@[simp] theorem State.setCtx_core (c : Nat) (x : Ctx) (k' : Nat) : (s.setCtx c x).core k' = s.core k' := rfl
@[simp] theorem State.setCtx_cluster (c : Nat) (x : Ctx) (k' : Nat) : (s.setCtx c x).cluster k' = s.cluster k' := rfl
@[simp] theorem State.setCtx_die (c : Nat) (x : Ctx) (d' : Nat) : (s.setCtx c x).die d' = s.die d' := rfl
@[simp] theorem State.setCtx_launch (c : Nat) (x : Ctx) (h' : Hall) : (s.setCtx c x).launch h' = s.launch h' := rfl
@[simp] theorem State.setCtx_queue (c : Nat) (x : Ctx) (q' : Nat) : (s.setCtx c x).queue q' = s.queue q' := rfl

/-! ### `modCtx` -/

@[simp] theorem State.modCtx_cycle (c : Nat) (f : Ctx → Ctx) : (s.modCtx c f).cycle = s.cycle := rfl
@[simp] theorem State.modCtx_wall (c : Nat) (f : Ctx → Ctx) : (s.modCtx c f).wall = s.wall := rfl
@[simp] theorem State.modCtx_agenda (c : Nat) (f : Ctx → Ctx) : (s.modCtx c f).agenda = s.agenda := rfl
@[simp] theorem State.modCtx_cur (c : Nat) (f : Ctx → Ctx) : (s.modCtx c f).cur = s.cur := rfl
@[simp] theorem State.modCtx_fresh (c : Nat) (f : Ctx → Ctx) : (s.modCtx c f).fresh = s.fresh := rfl
@[simp] theorem State.modCtx_seq (c : Nat) (f : Ctx → Ctx) : (s.modCtx c f).seq = s.seq := rfl
@[simp] theorem State.modCtx_ctxs (c : Nat) (f : Ctx → Ctx) : (s.modCtx c f).ctxs = mset .zero s.ctxs c (f (s.ctx c)) := rfl
@[simp] theorem State.modCtx_cores (c : Nat) (f : Ctx → Ctx) : (s.modCtx c f).cores = s.cores := rfl
@[simp] theorem State.modCtx_clusters (c : Nat) (f : Ctx → Ctx) : (s.modCtx c f).clusters = s.clusters := rfl
@[simp] theorem State.modCtx_dies (c : Nat) (f : Ctx → Ctx) : (s.modCtx c f).dies = s.dies := rfl
@[simp] theorem State.modCtx_mem (c : Nat) (f : Ctx → Ctx) : (s.modCtx c f).mem = s.mem := rfl
@[simp] theorem State.modCtx_tr (c : Nat) (f : Ctx → Ctx) : (s.modCtx c f).tr = s.tr := rfl
@[simp] theorem State.modCtx_sched (c : Nat) (f : Ctx → Ctx) : (s.modCtx c f).sched = s.sched := rfl
@[simp] theorem State.modCtx_mgmt (c : Nat) (f : Ctx → Ctx) : (s.modCtx c f).mgmt = s.mgmt := rfl
@[simp] theorem State.modCtx_cool (c : Nat) (f : Ctx → Ctx) : (s.modCtx c f).cool = s.cool := rfl
@[simp] theorem State.modCtx_fab (c : Nat) (f : Ctx → Ctx) : (s.modCtx c f).fab = s.fab := rfl
@[simp] theorem State.modCtx_out (c : Nat) (f : Ctx → Ctx) : (s.modCtx c f).out = s.out := rfl
@[simp] theorem State.modCtx_powered (c : Nat) (f : Ctx → Ctx) : (s.modCtx c f).powered = s.powered := rfl
@[simp] theorem State.modCtx_core (c : Nat) (f : Ctx → Ctx) (k' : Nat) : (s.modCtx c f).core k' = s.core k' := rfl
@[simp] theorem State.modCtx_cluster (c : Nat) (f : Ctx → Ctx) (k' : Nat) : (s.modCtx c f).cluster k' = s.cluster k' := rfl
@[simp] theorem State.modCtx_die (c : Nat) (f : Ctx → Ctx) (d' : Nat) : (s.modCtx c f).die d' = s.die d' := rfl
@[simp] theorem State.modCtx_launch (c : Nat) (f : Ctx → Ctx) (h' : Hall) : (s.modCtx c f).launch h' = s.launch h' := rfl
@[simp] theorem State.modCtx_queue (c : Nat) (f : Ctx → Ctx) (q' : Nat) : (s.modCtx c f).queue q' = s.queue q' := rfl

/-! ### `modCore` -/

@[simp] theorem State.modCore_cycle (k : Nat) (f : Core → Core) : (s.modCore k f).cycle = s.cycle := rfl
@[simp] theorem State.modCore_wall (k : Nat) (f : Core → Core) : (s.modCore k f).wall = s.wall := rfl
@[simp] theorem State.modCore_agenda (k : Nat) (f : Core → Core) : (s.modCore k f).agenda = s.agenda := rfl
@[simp] theorem State.modCore_cur (k : Nat) (f : Core → Core) : (s.modCore k f).cur = s.cur := rfl
@[simp] theorem State.modCore_fresh (k : Nat) (f : Core → Core) : (s.modCore k f).fresh = s.fresh := rfl
@[simp] theorem State.modCore_seq (k : Nat) (f : Core → Core) : (s.modCore k f).seq = s.seq := rfl
@[simp] theorem State.modCore_ctxs (k : Nat) (f : Core → Core) : (s.modCore k f).ctxs = s.ctxs := rfl
@[simp] theorem State.modCore_cores (k : Nat) (f : Core → Core) : (s.modCore k f).cores = mset .zero s.cores k (f (s.core k)) := rfl
@[simp] theorem State.modCore_clusters (k : Nat) (f : Core → Core) : (s.modCore k f).clusters = s.clusters := rfl
@[simp] theorem State.modCore_dies (k : Nat) (f : Core → Core) : (s.modCore k f).dies = s.dies := rfl
@[simp] theorem State.modCore_mem (k : Nat) (f : Core → Core) : (s.modCore k f).mem = s.mem := rfl
@[simp] theorem State.modCore_tr (k : Nat) (f : Core → Core) : (s.modCore k f).tr = s.tr := rfl
@[simp] theorem State.modCore_sched (k : Nat) (f : Core → Core) : (s.modCore k f).sched = s.sched := rfl
@[simp] theorem State.modCore_mgmt (k : Nat) (f : Core → Core) : (s.modCore k f).mgmt = s.mgmt := rfl
@[simp] theorem State.modCore_cool (k : Nat) (f : Core → Core) : (s.modCore k f).cool = s.cool := rfl
@[simp] theorem State.modCore_fab (k : Nat) (f : Core → Core) : (s.modCore k f).fab = s.fab := rfl
@[simp] theorem State.modCore_out (k : Nat) (f : Core → Core) : (s.modCore k f).out = s.out := rfl
@[simp] theorem State.modCore_powered (k : Nat) (f : Core → Core) : (s.modCore k f).powered = s.powered := rfl
@[simp] theorem State.modCore_ctx (k : Nat) (f : Core → Core) (c' : Nat) : (s.modCore k f).ctx c' = s.ctx c' := rfl
@[simp] theorem State.modCore_cluster (k : Nat) (f : Core → Core) (k' : Nat) : (s.modCore k f).cluster k' = s.cluster k' := rfl
@[simp] theorem State.modCore_die (k : Nat) (f : Core → Core) (d' : Nat) : (s.modCore k f).die d' = s.die d' := rfl
@[simp] theorem State.modCore_launch (k : Nat) (f : Core → Core) (h' : Hall) : (s.modCore k f).launch h' = s.launch h' := rfl
@[simp] theorem State.modCore_queue (k : Nat) (f : Core → Core) (q' : Nat) : (s.modCore k f).queue q' = s.queue q' := rfl

/-! ### `modCluster` -/

@[simp] theorem State.modCluster_cycle (k : Nat) (f : Cluster → Cluster) : (s.modCluster k f).cycle = s.cycle := rfl
@[simp] theorem State.modCluster_wall (k : Nat) (f : Cluster → Cluster) : (s.modCluster k f).wall = s.wall := rfl
@[simp] theorem State.modCluster_agenda (k : Nat) (f : Cluster → Cluster) : (s.modCluster k f).agenda = s.agenda := rfl
@[simp] theorem State.modCluster_cur (k : Nat) (f : Cluster → Cluster) : (s.modCluster k f).cur = s.cur := rfl
@[simp] theorem State.modCluster_fresh (k : Nat) (f : Cluster → Cluster) : (s.modCluster k f).fresh = s.fresh := rfl
@[simp] theorem State.modCluster_seq (k : Nat) (f : Cluster → Cluster) : (s.modCluster k f).seq = s.seq := rfl
@[simp] theorem State.modCluster_ctxs (k : Nat) (f : Cluster → Cluster) : (s.modCluster k f).ctxs = s.ctxs := rfl
@[simp] theorem State.modCluster_cores (k : Nat) (f : Cluster → Cluster) : (s.modCluster k f).cores = s.cores := rfl
@[simp] theorem State.modCluster_clusters (k : Nat) (f : Cluster → Cluster) : (s.modCluster k f).clusters = mset .zero s.clusters k (f (s.cluster k)) := rfl
@[simp] theorem State.modCluster_dies (k : Nat) (f : Cluster → Cluster) : (s.modCluster k f).dies = s.dies := rfl
@[simp] theorem State.modCluster_mem (k : Nat) (f : Cluster → Cluster) : (s.modCluster k f).mem = s.mem := rfl
@[simp] theorem State.modCluster_tr (k : Nat) (f : Cluster → Cluster) : (s.modCluster k f).tr = s.tr := rfl
@[simp] theorem State.modCluster_sched (k : Nat) (f : Cluster → Cluster) : (s.modCluster k f).sched = s.sched := rfl
@[simp] theorem State.modCluster_mgmt (k : Nat) (f : Cluster → Cluster) : (s.modCluster k f).mgmt = s.mgmt := rfl
@[simp] theorem State.modCluster_cool (k : Nat) (f : Cluster → Cluster) : (s.modCluster k f).cool = s.cool := rfl
@[simp] theorem State.modCluster_fab (k : Nat) (f : Cluster → Cluster) : (s.modCluster k f).fab = s.fab := rfl
@[simp] theorem State.modCluster_out (k : Nat) (f : Cluster → Cluster) : (s.modCluster k f).out = s.out := rfl
@[simp] theorem State.modCluster_powered (k : Nat) (f : Cluster → Cluster) : (s.modCluster k f).powered = s.powered := rfl
@[simp] theorem State.modCluster_ctx (k : Nat) (f : Cluster → Cluster) (c' : Nat) : (s.modCluster k f).ctx c' = s.ctx c' := rfl
@[simp] theorem State.modCluster_core (k : Nat) (f : Cluster → Cluster) (k' : Nat) : (s.modCluster k f).core k' = s.core k' := rfl
@[simp] theorem State.modCluster_die (k : Nat) (f : Cluster → Cluster) (d' : Nat) : (s.modCluster k f).die d' = s.die d' := rfl
@[simp] theorem State.modCluster_launch (k : Nat) (f : Cluster → Cluster) (h' : Hall) : (s.modCluster k f).launch h' = s.launch h' := rfl
@[simp] theorem State.modCluster_queue (k : Nat) (f : Cluster → Cluster) (q' : Nat) : (s.modCluster k f).queue q' = s.queue q' := rfl

/-! ### `modDie` -/

@[simp] theorem State.modDie_cycle (d : Nat) (f : Die → Die) : (s.modDie d f).cycle = s.cycle := rfl
@[simp] theorem State.modDie_wall (d : Nat) (f : Die → Die) : (s.modDie d f).wall = s.wall := rfl
@[simp] theorem State.modDie_agenda (d : Nat) (f : Die → Die) : (s.modDie d f).agenda = s.agenda := rfl
@[simp] theorem State.modDie_cur (d : Nat) (f : Die → Die) : (s.modDie d f).cur = s.cur := rfl
@[simp] theorem State.modDie_fresh (d : Nat) (f : Die → Die) : (s.modDie d f).fresh = s.fresh := rfl
@[simp] theorem State.modDie_seq (d : Nat) (f : Die → Die) : (s.modDie d f).seq = s.seq := rfl
@[simp] theorem State.modDie_ctxs (d : Nat) (f : Die → Die) : (s.modDie d f).ctxs = s.ctxs := rfl
@[simp] theorem State.modDie_cores (d : Nat) (f : Die → Die) : (s.modDie d f).cores = s.cores := rfl
@[simp] theorem State.modDie_clusters (d : Nat) (f : Die → Die) : (s.modDie d f).clusters = s.clusters := rfl
@[simp] theorem State.modDie_dies (d : Nat) (f : Die → Die) : (s.modDie d f).dies = mset .zero s.dies d (f (s.die d)) := rfl
@[simp] theorem State.modDie_mem (d : Nat) (f : Die → Die) : (s.modDie d f).mem = s.mem := rfl
@[simp] theorem State.modDie_tr (d : Nat) (f : Die → Die) : (s.modDie d f).tr = s.tr := rfl
@[simp] theorem State.modDie_sched (d : Nat) (f : Die → Die) : (s.modDie d f).sched = s.sched := rfl
@[simp] theorem State.modDie_mgmt (d : Nat) (f : Die → Die) : (s.modDie d f).mgmt = s.mgmt := rfl
@[simp] theorem State.modDie_cool (d : Nat) (f : Die → Die) : (s.modDie d f).cool = s.cool := rfl
@[simp] theorem State.modDie_fab (d : Nat) (f : Die → Die) : (s.modDie d f).fab = s.fab := rfl
@[simp] theorem State.modDie_out (d : Nat) (f : Die → Die) : (s.modDie d f).out = s.out := rfl
@[simp] theorem State.modDie_powered (d : Nat) (f : Die → Die) : (s.modDie d f).powered = s.powered := rfl
@[simp] theorem State.modDie_ctx (d : Nat) (f : Die → Die) (c' : Nat) : (s.modDie d f).ctx c' = s.ctx c' := rfl
@[simp] theorem State.modDie_core (d : Nat) (f : Die → Die) (k' : Nat) : (s.modDie d f).core k' = s.core k' := rfl
@[simp] theorem State.modDie_cluster (d : Nat) (f : Die → Die) (k' : Nat) : (s.modDie d f).cluster k' = s.cluster k' := rfl
@[simp] theorem State.modDie_launch (d : Nat) (f : Die → Die) (h' : Hall) : (s.modDie d f).launch h' = s.launch h' := rfl
@[simp] theorem State.modDie_queue (d : Nat) (f : Die → Die) (q' : Nat) : (s.modDie d f).queue q' = s.queue q' := rfl

/-! ### `modMem` -/

@[simp] theorem State.modMem_cycle (f : Mem → Mem) : (s.modMem f).cycle = s.cycle := rfl
@[simp] theorem State.modMem_wall (f : Mem → Mem) : (s.modMem f).wall = s.wall := rfl
@[simp] theorem State.modMem_agenda (f : Mem → Mem) : (s.modMem f).agenda = s.agenda := rfl
@[simp] theorem State.modMem_cur (f : Mem → Mem) : (s.modMem f).cur = s.cur := rfl
@[simp] theorem State.modMem_fresh (f : Mem → Mem) : (s.modMem f).fresh = s.fresh := rfl
@[simp] theorem State.modMem_seq (f : Mem → Mem) : (s.modMem f).seq = s.seq := rfl
@[simp] theorem State.modMem_ctxs (f : Mem → Mem) : (s.modMem f).ctxs = s.ctxs := rfl
@[simp] theorem State.modMem_cores (f : Mem → Mem) : (s.modMem f).cores = s.cores := rfl
@[simp] theorem State.modMem_clusters (f : Mem → Mem) : (s.modMem f).clusters = s.clusters := rfl
@[simp] theorem State.modMem_dies (f : Mem → Mem) : (s.modMem f).dies = s.dies := rfl
@[simp] theorem State.modMem_mem (f : Mem → Mem) : (s.modMem f).mem = f s.mem := rfl
@[simp] theorem State.modMem_tr (f : Mem → Mem) : (s.modMem f).tr = s.tr := rfl
@[simp] theorem State.modMem_sched (f : Mem → Mem) : (s.modMem f).sched = s.sched := rfl
@[simp] theorem State.modMem_mgmt (f : Mem → Mem) : (s.modMem f).mgmt = s.mgmt := rfl
@[simp] theorem State.modMem_cool (f : Mem → Mem) : (s.modMem f).cool = s.cool := rfl
@[simp] theorem State.modMem_fab (f : Mem → Mem) : (s.modMem f).fab = s.fab := rfl
@[simp] theorem State.modMem_out (f : Mem → Mem) : (s.modMem f).out = s.out := rfl
@[simp] theorem State.modMem_powered (f : Mem → Mem) : (s.modMem f).powered = s.powered := rfl
@[simp] theorem State.modMem_ctx (f : Mem → Mem) (c' : Nat) : (s.modMem f).ctx c' = s.ctx c' := rfl
@[simp] theorem State.modMem_core (f : Mem → Mem) (k' : Nat) : (s.modMem f).core k' = s.core k' := rfl
@[simp] theorem State.modMem_cluster (f : Mem → Mem) (k' : Nat) : (s.modMem f).cluster k' = s.cluster k' := rfl
@[simp] theorem State.modMem_die (f : Mem → Mem) (d' : Nat) : (s.modMem f).die d' = s.die d' := rfl
@[simp] theorem State.modMem_launch (f : Mem → Mem) (h' : Hall) : (s.modMem f).launch h' = s.launch h' := rfl
@[simp] theorem State.modMem_queue (f : Mem → Mem) (q' : Nat) : (s.modMem f).queue q' = s.queue q' := rfl

/-! ### `modSched` -/

@[simp] theorem State.modSched_cycle (f : Sched → Sched) : (s.modSched f).cycle = s.cycle := rfl
@[simp] theorem State.modSched_wall (f : Sched → Sched) : (s.modSched f).wall = s.wall := rfl
@[simp] theorem State.modSched_agenda (f : Sched → Sched) : (s.modSched f).agenda = s.agenda := rfl
@[simp] theorem State.modSched_cur (f : Sched → Sched) : (s.modSched f).cur = s.cur := rfl
@[simp] theorem State.modSched_fresh (f : Sched → Sched) : (s.modSched f).fresh = s.fresh := rfl
@[simp] theorem State.modSched_seq (f : Sched → Sched) : (s.modSched f).seq = s.seq := rfl
@[simp] theorem State.modSched_ctxs (f : Sched → Sched) : (s.modSched f).ctxs = s.ctxs := rfl
@[simp] theorem State.modSched_cores (f : Sched → Sched) : (s.modSched f).cores = s.cores := rfl
@[simp] theorem State.modSched_clusters (f : Sched → Sched) : (s.modSched f).clusters = s.clusters := rfl
@[simp] theorem State.modSched_dies (f : Sched → Sched) : (s.modSched f).dies = s.dies := rfl
@[simp] theorem State.modSched_mem (f : Sched → Sched) : (s.modSched f).mem = s.mem := rfl
@[simp] theorem State.modSched_tr (f : Sched → Sched) : (s.modSched f).tr = s.tr := rfl
@[simp] theorem State.modSched_sched (f : Sched → Sched) : (s.modSched f).sched = f s.sched := rfl
@[simp] theorem State.modSched_mgmt (f : Sched → Sched) : (s.modSched f).mgmt = s.mgmt := rfl
@[simp] theorem State.modSched_cool (f : Sched → Sched) : (s.modSched f).cool = s.cool := rfl
@[simp] theorem State.modSched_fab (f : Sched → Sched) : (s.modSched f).fab = s.fab := rfl
@[simp] theorem State.modSched_out (f : Sched → Sched) : (s.modSched f).out = s.out := rfl
@[simp] theorem State.modSched_powered (f : Sched → Sched) : (s.modSched f).powered = s.powered := rfl
@[simp] theorem State.modSched_ctx (f : Sched → Sched) (c' : Nat) : (s.modSched f).ctx c' = s.ctx c' := rfl
@[simp] theorem State.modSched_core (f : Sched → Sched) (k' : Nat) : (s.modSched f).core k' = s.core k' := rfl
@[simp] theorem State.modSched_cluster (f : Sched → Sched) (k' : Nat) : (s.modSched f).cluster k' = s.cluster k' := rfl
@[simp] theorem State.modSched_die (f : Sched → Sched) (d' : Nat) : (s.modSched f).die d' = s.die d' := rfl

/-! ### `modMgmt` -/

@[simp] theorem State.modMgmt_cycle (f : Mgmt → Mgmt) : (s.modMgmt f).cycle = s.cycle := rfl
@[simp] theorem State.modMgmt_wall (f : Mgmt → Mgmt) : (s.modMgmt f).wall = s.wall := rfl
@[simp] theorem State.modMgmt_agenda (f : Mgmt → Mgmt) : (s.modMgmt f).agenda = s.agenda := rfl
@[simp] theorem State.modMgmt_cur (f : Mgmt → Mgmt) : (s.modMgmt f).cur = s.cur := rfl
@[simp] theorem State.modMgmt_fresh (f : Mgmt → Mgmt) : (s.modMgmt f).fresh = s.fresh := rfl
@[simp] theorem State.modMgmt_seq (f : Mgmt → Mgmt) : (s.modMgmt f).seq = s.seq := rfl
@[simp] theorem State.modMgmt_ctxs (f : Mgmt → Mgmt) : (s.modMgmt f).ctxs = s.ctxs := rfl
@[simp] theorem State.modMgmt_cores (f : Mgmt → Mgmt) : (s.modMgmt f).cores = s.cores := rfl
@[simp] theorem State.modMgmt_clusters (f : Mgmt → Mgmt) : (s.modMgmt f).clusters = s.clusters := rfl
@[simp] theorem State.modMgmt_dies (f : Mgmt → Mgmt) : (s.modMgmt f).dies = s.dies := rfl
@[simp] theorem State.modMgmt_mem (f : Mgmt → Mgmt) : (s.modMgmt f).mem = s.mem := rfl
@[simp] theorem State.modMgmt_tr (f : Mgmt → Mgmt) : (s.modMgmt f).tr = s.tr := rfl
@[simp] theorem State.modMgmt_sched (f : Mgmt → Mgmt) : (s.modMgmt f).sched = s.sched := rfl
@[simp] theorem State.modMgmt_mgmt (f : Mgmt → Mgmt) : (s.modMgmt f).mgmt = f s.mgmt := rfl
@[simp] theorem State.modMgmt_cool (f : Mgmt → Mgmt) : (s.modMgmt f).cool = s.cool := rfl
@[simp] theorem State.modMgmt_fab (f : Mgmt → Mgmt) : (s.modMgmt f).fab = s.fab := rfl
@[simp] theorem State.modMgmt_out (f : Mgmt → Mgmt) : (s.modMgmt f).out = s.out := rfl
@[simp] theorem State.modMgmt_powered (f : Mgmt → Mgmt) : (s.modMgmt f).powered = s.powered := rfl
@[simp] theorem State.modMgmt_ctx (f : Mgmt → Mgmt) (c' : Nat) : (s.modMgmt f).ctx c' = s.ctx c' := rfl
@[simp] theorem State.modMgmt_core (f : Mgmt → Mgmt) (k' : Nat) : (s.modMgmt f).core k' = s.core k' := rfl
@[simp] theorem State.modMgmt_cluster (f : Mgmt → Mgmt) (k' : Nat) : (s.modMgmt f).cluster k' = s.cluster k' := rfl
@[simp] theorem State.modMgmt_die (f : Mgmt → Mgmt) (d' : Nat) : (s.modMgmt f).die d' = s.die d' := rfl
@[simp] theorem State.modMgmt_launch (f : Mgmt → Mgmt) (h' : Hall) : (s.modMgmt f).launch h' = s.launch h' := rfl
@[simp] theorem State.modMgmt_queue (f : Mgmt → Mgmt) (q' : Nat) : (s.modMgmt f).queue q' = s.queue q' := rfl

/-! ### `modFab` -/

@[simp] theorem State.modFab_cycle (f : Fabric → Fabric) : (s.modFab f).cycle = s.cycle := rfl
@[simp] theorem State.modFab_wall (f : Fabric → Fabric) : (s.modFab f).wall = s.wall := rfl
@[simp] theorem State.modFab_agenda (f : Fabric → Fabric) : (s.modFab f).agenda = s.agenda := rfl
@[simp] theorem State.modFab_cur (f : Fabric → Fabric) : (s.modFab f).cur = s.cur := rfl
@[simp] theorem State.modFab_fresh (f : Fabric → Fabric) : (s.modFab f).fresh = s.fresh := rfl
@[simp] theorem State.modFab_seq (f : Fabric → Fabric) : (s.modFab f).seq = s.seq := rfl
@[simp] theorem State.modFab_ctxs (f : Fabric → Fabric) : (s.modFab f).ctxs = s.ctxs := rfl
@[simp] theorem State.modFab_cores (f : Fabric → Fabric) : (s.modFab f).cores = s.cores := rfl
@[simp] theorem State.modFab_clusters (f : Fabric → Fabric) : (s.modFab f).clusters = s.clusters := rfl
@[simp] theorem State.modFab_dies (f : Fabric → Fabric) : (s.modFab f).dies = s.dies := rfl
@[simp] theorem State.modFab_mem (f : Fabric → Fabric) : (s.modFab f).mem = s.mem := rfl
@[simp] theorem State.modFab_tr (f : Fabric → Fabric) : (s.modFab f).tr = s.tr := rfl
@[simp] theorem State.modFab_sched (f : Fabric → Fabric) : (s.modFab f).sched = s.sched := rfl
@[simp] theorem State.modFab_mgmt (f : Fabric → Fabric) : (s.modFab f).mgmt = s.mgmt := rfl
@[simp] theorem State.modFab_cool (f : Fabric → Fabric) : (s.modFab f).cool = s.cool := rfl
@[simp] theorem State.modFab_fab (f : Fabric → Fabric) : (s.modFab f).fab = f s.fab := rfl
@[simp] theorem State.modFab_out (f : Fabric → Fabric) : (s.modFab f).out = s.out := rfl
@[simp] theorem State.modFab_powered (f : Fabric → Fabric) : (s.modFab f).powered = s.powered := rfl
@[simp] theorem State.modFab_ctx (f : Fabric → Fabric) (c' : Nat) : (s.modFab f).ctx c' = s.ctx c' := rfl
@[simp] theorem State.modFab_core (f : Fabric → Fabric) (k' : Nat) : (s.modFab f).core k' = s.core k' := rfl
@[simp] theorem State.modFab_cluster (f : Fabric → Fabric) (k' : Nat) : (s.modFab f).cluster k' = s.cluster k' := rfl
@[simp] theorem State.modFab_die (f : Fabric → Fabric) (d' : Nat) : (s.modFab f).die d' = s.die d' := rfl
@[simp] theorem State.modFab_launch (f : Fabric → Fabric) (h' : Hall) : (s.modFab f).launch h' = s.launch h' := rfl
@[simp] theorem State.modFab_queue (f : Fabric → Fabric) (q' : Nat) : (s.modFab f).queue q' = s.queue q' := rfl

/-! ### `emit` -/

@[simp] theorem State.emit_cycle (o : Out) : (s.emit o).cycle = s.cycle := rfl
@[simp] theorem State.emit_wall (o : Out) : (s.emit o).wall = s.wall := rfl
@[simp] theorem State.emit_agenda (o : Out) : (s.emit o).agenda = s.agenda := rfl
@[simp] theorem State.emit_cur (o : Out) : (s.emit o).cur = s.cur := rfl
@[simp] theorem State.emit_fresh (o : Out) : (s.emit o).fresh = s.fresh := rfl
@[simp] theorem State.emit_seq (o : Out) : (s.emit o).seq = s.seq := rfl
@[simp] theorem State.emit_ctxs (o : Out) : (s.emit o).ctxs = s.ctxs := rfl
@[simp] theorem State.emit_cores (o : Out) : (s.emit o).cores = s.cores := rfl
@[simp] theorem State.emit_clusters (o : Out) : (s.emit o).clusters = s.clusters := rfl
@[simp] theorem State.emit_dies (o : Out) : (s.emit o).dies = s.dies := rfl
@[simp] theorem State.emit_mem (o : Out) : (s.emit o).mem = s.mem := rfl
@[simp] theorem State.emit_tr (o : Out) : (s.emit o).tr = s.tr := rfl
@[simp] theorem State.emit_sched (o : Out) : (s.emit o).sched = s.sched := rfl
@[simp] theorem State.emit_mgmt (o : Out) : (s.emit o).mgmt = s.mgmt := rfl
@[simp] theorem State.emit_cool (o : Out) : (s.emit o).cool = s.cool := rfl
@[simp] theorem State.emit_fab (o : Out) : (s.emit o).fab = s.fab := rfl
@[simp] theorem State.emit_out (o : Out) : (s.emit o).out = s.out ++ [o] := rfl
@[simp] theorem State.emit_powered (o : Out) : (s.emit o).powered = s.powered := rfl
@[simp] theorem State.emit_ctx (o : Out) (c' : Nat) : (s.emit o).ctx c' = s.ctx c' := rfl
@[simp] theorem State.emit_core (o : Out) (k' : Nat) : (s.emit o).core k' = s.core k' := rfl
@[simp] theorem State.emit_cluster (o : Out) (k' : Nat) : (s.emit o).cluster k' = s.cluster k' := rfl
@[simp] theorem State.emit_die (o : Out) (d' : Nat) : (s.emit o).die d' = s.die d' := rfl
@[simp] theorem State.emit_launch (o : Out) (h' : Hall) : (s.emit o).launch h' = s.launch h' := rfl
@[simp] theorem State.emit_queue (o : Out) (q' : Nat) : (s.emit o).queue q' = s.queue q' := rfl

/-! ### `tick` -/

@[simp] theorem State.tick_cycle : (s.tick).cycle = s.cycle := rfl
@[simp] theorem State.tick_wall : (s.tick).wall = s.wall := rfl
@[simp] theorem State.tick_agenda : (s.tick).agenda = s.agenda := rfl
@[simp] theorem State.tick_cur : (s.tick).cur = s.cur := rfl
@[simp] theorem State.tick_fresh : (s.tick).fresh = s.fresh + 1 := rfl
@[simp] theorem State.tick_seq : (s.tick).seq = s.seq := rfl
@[simp] theorem State.tick_ctxs : (s.tick).ctxs = s.ctxs := rfl
@[simp] theorem State.tick_cores : (s.tick).cores = s.cores := rfl
@[simp] theorem State.tick_clusters : (s.tick).clusters = s.clusters := rfl
@[simp] theorem State.tick_dies : (s.tick).dies = s.dies := rfl
@[simp] theorem State.tick_mem : (s.tick).mem = s.mem := rfl
@[simp] theorem State.tick_tr : (s.tick).tr = s.tr := rfl
@[simp] theorem State.tick_sched : (s.tick).sched = s.sched := rfl
@[simp] theorem State.tick_mgmt : (s.tick).mgmt = s.mgmt := rfl
@[simp] theorem State.tick_cool : (s.tick).cool = s.cool := rfl
@[simp] theorem State.tick_fab : (s.tick).fab = s.fab := rfl
@[simp] theorem State.tick_out : (s.tick).out = s.out := rfl
@[simp] theorem State.tick_powered : (s.tick).powered = s.powered := rfl
@[simp] theorem State.tick_ctx (c' : Nat) : (s.tick).ctx c' = s.ctx c' := rfl
@[simp] theorem State.tick_core (k' : Nat) : (s.tick).core k' = s.core k' := rfl
@[simp] theorem State.tick_cluster (k' : Nat) : (s.tick).cluster k' = s.cluster k' := rfl
@[simp] theorem State.tick_die (d' : Nat) : (s.tick).die d' = s.die d' := rfl
@[simp] theorem State.tick_launch (h' : Hall) : (s.tick).launch h' = s.launch h' := rfl
@[simp] theorem State.tick_queue (q' : Nat) : (s.tick).queue q' = s.queue q' := rfl

/-! ### `modChan` -/

@[simp] theorem State.modChan_cycle (k ch : Nat) (f : Chan → Chan) : (s.modChan k ch f).cycle = s.cycle := rfl
@[simp] theorem State.modChan_wall (k ch : Nat) (f : Chan → Chan) : (s.modChan k ch f).wall = s.wall := rfl
@[simp] theorem State.modChan_agenda (k ch : Nat) (f : Chan → Chan) : (s.modChan k ch f).agenda = s.agenda := rfl
@[simp] theorem State.modChan_cur (k ch : Nat) (f : Chan → Chan) : (s.modChan k ch f).cur = s.cur := rfl
@[simp] theorem State.modChan_fresh (k ch : Nat) (f : Chan → Chan) : (s.modChan k ch f).fresh = s.fresh := rfl
@[simp] theorem State.modChan_seq (k ch : Nat) (f : Chan → Chan) : (s.modChan k ch f).seq = s.seq := rfl
@[simp] theorem State.modChan_ctxs (k ch : Nat) (f : Chan → Chan) : (s.modChan k ch f).ctxs = s.ctxs := rfl
@[simp] theorem State.modChan_cores (k ch : Nat) (f : Chan → Chan) : (s.modChan k ch f).cores = s.cores := rfl
@[simp] theorem State.modChan_dies (k ch : Nat) (f : Chan → Chan) : (s.modChan k ch f).dies = s.dies := rfl
@[simp] theorem State.modChan_mem (k ch : Nat) (f : Chan → Chan) : (s.modChan k ch f).mem = s.mem := rfl
@[simp] theorem State.modChan_tr (k ch : Nat) (f : Chan → Chan) : (s.modChan k ch f).tr = s.tr := rfl
@[simp] theorem State.modChan_sched (k ch : Nat) (f : Chan → Chan) : (s.modChan k ch f).sched = s.sched := rfl
@[simp] theorem State.modChan_mgmt (k ch : Nat) (f : Chan → Chan) : (s.modChan k ch f).mgmt = s.mgmt := rfl
@[simp] theorem State.modChan_cool (k ch : Nat) (f : Chan → Chan) : (s.modChan k ch f).cool = s.cool := rfl
@[simp] theorem State.modChan_fab (k ch : Nat) (f : Chan → Chan) : (s.modChan k ch f).fab = s.fab := rfl
@[simp] theorem State.modChan_out (k ch : Nat) (f : Chan → Chan) : (s.modChan k ch f).out = s.out := rfl
@[simp] theorem State.modChan_powered (k ch : Nat) (f : Chan → Chan) : (s.modChan k ch f).powered = s.powered := rfl
@[simp] theorem State.modChan_ctx (k ch : Nat) (f : Chan → Chan) (c' : Nat) : (s.modChan k ch f).ctx c' = s.ctx c' := rfl
@[simp] theorem State.modChan_core (k ch : Nat) (f : Chan → Chan) (k' : Nat) : (s.modChan k ch f).core k' = s.core k' := rfl
@[simp] theorem State.modChan_die (k ch : Nat) (f : Chan → Chan) (d' : Nat) : (s.modChan k ch f).die d' = s.die d' := rfl
@[simp] theorem State.modChan_launch (k ch : Nat) (f : Chan → Chan) (h' : Hall) : (s.modChan k ch f).launch h' = s.launch h' := rfl
@[simp] theorem State.modChan_queue (k ch : Nat) (f : Chan → Chan) (q' : Nat) : (s.modChan k ch f).queue q' = s.queue q' := rfl

/-! ### `modWalker` -/

@[simp] theorem State.modWalker_cycle (k : Nat) (f : Walker → Walker) : (s.modWalker k f).cycle = s.cycle := rfl
@[simp] theorem State.modWalker_wall (k : Nat) (f : Walker → Walker) : (s.modWalker k f).wall = s.wall := rfl
@[simp] theorem State.modWalker_agenda (k : Nat) (f : Walker → Walker) : (s.modWalker k f).agenda = s.agenda := rfl
@[simp] theorem State.modWalker_cur (k : Nat) (f : Walker → Walker) : (s.modWalker k f).cur = s.cur := rfl
@[simp] theorem State.modWalker_fresh (k : Nat) (f : Walker → Walker) : (s.modWalker k f).fresh = s.fresh := rfl
@[simp] theorem State.modWalker_seq (k : Nat) (f : Walker → Walker) : (s.modWalker k f).seq = s.seq := rfl
@[simp] theorem State.modWalker_ctxs (k : Nat) (f : Walker → Walker) : (s.modWalker k f).ctxs = s.ctxs := rfl
@[simp] theorem State.modWalker_cores (k : Nat) (f : Walker → Walker) : (s.modWalker k f).cores = s.cores := rfl
@[simp] theorem State.modWalker_dies (k : Nat) (f : Walker → Walker) : (s.modWalker k f).dies = s.dies := rfl
@[simp] theorem State.modWalker_mem (k : Nat) (f : Walker → Walker) : (s.modWalker k f).mem = s.mem := rfl
@[simp] theorem State.modWalker_tr (k : Nat) (f : Walker → Walker) : (s.modWalker k f).tr = s.tr := rfl
@[simp] theorem State.modWalker_sched (k : Nat) (f : Walker → Walker) : (s.modWalker k f).sched = s.sched := rfl
@[simp] theorem State.modWalker_mgmt (k : Nat) (f : Walker → Walker) : (s.modWalker k f).mgmt = s.mgmt := rfl
@[simp] theorem State.modWalker_cool (k : Nat) (f : Walker → Walker) : (s.modWalker k f).cool = s.cool := rfl
@[simp] theorem State.modWalker_fab (k : Nat) (f : Walker → Walker) : (s.modWalker k f).fab = s.fab := rfl
@[simp] theorem State.modWalker_out (k : Nat) (f : Walker → Walker) : (s.modWalker k f).out = s.out := rfl
@[simp] theorem State.modWalker_powered (k : Nat) (f : Walker → Walker) : (s.modWalker k f).powered = s.powered := rfl
@[simp] theorem State.modWalker_ctx (k : Nat) (f : Walker → Walker) (c' : Nat) : (s.modWalker k f).ctx c' = s.ctx c' := rfl
@[simp] theorem State.modWalker_core (k : Nat) (f : Walker → Walker) (k' : Nat) : (s.modWalker k f).core k' = s.core k' := rfl
@[simp] theorem State.modWalker_die (k : Nat) (f : Walker → Walker) (d' : Nat) : (s.modWalker k f).die d' = s.die d' := rfl
@[simp] theorem State.modWalker_launch (k : Nat) (f : Walker → Walker) (h' : Hall) : (s.modWalker k f).launch h' = s.launch h' := rfl
@[simp] theorem State.modWalker_queue (k : Nat) (f : Walker → Walker) (q' : Nat) : (s.modWalker k f).queue q' = s.queue q' := rfl

/-! ### `modLaunch` -/

@[simp] theorem State.modLaunch_cycle (h : Hall) (f : Launch → Launch) : (s.modLaunch h f).cycle = s.cycle := rfl
@[simp] theorem State.modLaunch_wall (h : Hall) (f : Launch → Launch) : (s.modLaunch h f).wall = s.wall := rfl
@[simp] theorem State.modLaunch_agenda (h : Hall) (f : Launch → Launch) : (s.modLaunch h f).agenda = s.agenda := rfl
@[simp] theorem State.modLaunch_cur (h : Hall) (f : Launch → Launch) : (s.modLaunch h f).cur = s.cur := rfl
@[simp] theorem State.modLaunch_fresh (h : Hall) (f : Launch → Launch) : (s.modLaunch h f).fresh = s.fresh := rfl
@[simp] theorem State.modLaunch_seq (h : Hall) (f : Launch → Launch) : (s.modLaunch h f).seq = s.seq := rfl
@[simp] theorem State.modLaunch_ctxs (h : Hall) (f : Launch → Launch) : (s.modLaunch h f).ctxs = s.ctxs := rfl
@[simp] theorem State.modLaunch_cores (h : Hall) (f : Launch → Launch) : (s.modLaunch h f).cores = s.cores := rfl
@[simp] theorem State.modLaunch_clusters (h : Hall) (f : Launch → Launch) : (s.modLaunch h f).clusters = s.clusters := rfl
@[simp] theorem State.modLaunch_dies (h : Hall) (f : Launch → Launch) : (s.modLaunch h f).dies = s.dies := rfl
@[simp] theorem State.modLaunch_mem (h : Hall) (f : Launch → Launch) : (s.modLaunch h f).mem = s.mem := rfl
@[simp] theorem State.modLaunch_tr (h : Hall) (f : Launch → Launch) : (s.modLaunch h f).tr = s.tr := rfl
@[simp] theorem State.modLaunch_mgmt (h : Hall) (f : Launch → Launch) : (s.modLaunch h f).mgmt = s.mgmt := rfl
@[simp] theorem State.modLaunch_cool (h : Hall) (f : Launch → Launch) : (s.modLaunch h f).cool = s.cool := rfl
@[simp] theorem State.modLaunch_fab (h : Hall) (f : Launch → Launch) : (s.modLaunch h f).fab = s.fab := rfl
@[simp] theorem State.modLaunch_out (h : Hall) (f : Launch → Launch) : (s.modLaunch h f).out = s.out := rfl
@[simp] theorem State.modLaunch_powered (h : Hall) (f : Launch → Launch) : (s.modLaunch h f).powered = s.powered := rfl
@[simp] theorem State.modLaunch_ctx (h : Hall) (f : Launch → Launch) (c' : Nat) : (s.modLaunch h f).ctx c' = s.ctx c' := rfl
@[simp] theorem State.modLaunch_core (h : Hall) (f : Launch → Launch) (k' : Nat) : (s.modLaunch h f).core k' = s.core k' := rfl
@[simp] theorem State.modLaunch_cluster (h : Hall) (f : Launch → Launch) (k' : Nat) : (s.modLaunch h f).cluster k' = s.cluster k' := rfl
@[simp] theorem State.modLaunch_die (h : Hall) (f : Launch → Launch) (d' : Nat) : (s.modLaunch h f).die d' = s.die d' := rfl

/-! ### `modQueue` -/

@[simp] theorem State.modQueue_cycle (q : Nat) (f : Queue → Queue) : (s.modQueue q f).cycle = s.cycle := rfl
@[simp] theorem State.modQueue_wall (q : Nat) (f : Queue → Queue) : (s.modQueue q f).wall = s.wall := rfl
@[simp] theorem State.modQueue_agenda (q : Nat) (f : Queue → Queue) : (s.modQueue q f).agenda = s.agenda := rfl
@[simp] theorem State.modQueue_cur (q : Nat) (f : Queue → Queue) : (s.modQueue q f).cur = s.cur := rfl
@[simp] theorem State.modQueue_fresh (q : Nat) (f : Queue → Queue) : (s.modQueue q f).fresh = s.fresh := rfl
@[simp] theorem State.modQueue_seq (q : Nat) (f : Queue → Queue) : (s.modQueue q f).seq = s.seq := rfl
@[simp] theorem State.modQueue_ctxs (q : Nat) (f : Queue → Queue) : (s.modQueue q f).ctxs = s.ctxs := rfl
@[simp] theorem State.modQueue_cores (q : Nat) (f : Queue → Queue) : (s.modQueue q f).cores = s.cores := rfl
@[simp] theorem State.modQueue_clusters (q : Nat) (f : Queue → Queue) : (s.modQueue q f).clusters = s.clusters := rfl
@[simp] theorem State.modQueue_dies (q : Nat) (f : Queue → Queue) : (s.modQueue q f).dies = s.dies := rfl
@[simp] theorem State.modQueue_mem (q : Nat) (f : Queue → Queue) : (s.modQueue q f).mem = s.mem := rfl
@[simp] theorem State.modQueue_tr (q : Nat) (f : Queue → Queue) : (s.modQueue q f).tr = s.tr := rfl
@[simp] theorem State.modQueue_mgmt (q : Nat) (f : Queue → Queue) : (s.modQueue q f).mgmt = s.mgmt := rfl
@[simp] theorem State.modQueue_cool (q : Nat) (f : Queue → Queue) : (s.modQueue q f).cool = s.cool := rfl
@[simp] theorem State.modQueue_fab (q : Nat) (f : Queue → Queue) : (s.modQueue q f).fab = s.fab := rfl
@[simp] theorem State.modQueue_out (q : Nat) (f : Queue → Queue) : (s.modQueue q f).out = s.out := rfl
@[simp] theorem State.modQueue_powered (q : Nat) (f : Queue → Queue) : (s.modQueue q f).powered = s.powered := rfl
@[simp] theorem State.modQueue_ctx (q : Nat) (f : Queue → Queue) (c' : Nat) : (s.modQueue q f).ctx c' = s.ctx c' := rfl
@[simp] theorem State.modQueue_core (q : Nat) (f : Queue → Queue) (k' : Nat) : (s.modQueue q f).core k' = s.core k' := rfl
@[simp] theorem State.modQueue_cluster (q : Nat) (f : Queue → Queue) (k' : Nat) : (s.modQueue q f).cluster k' = s.cluster k' := rfl
@[simp] theorem State.modQueue_die (q : Nat) (f : Queue → Queue) (d' : Nat) : (s.modQueue q f).die d' = s.die d' := rfl

/-! ### `letGo` and `block` -/

theorem State.letGo_eq (c : Nat) : s.letGo c = { s with cores := (s.letGo c).cores } := by unfold State.letGo; split <;> rfl
theorem State.block_eq (c : Nat) (w : Wait) : s.block c w = { s with cores := (s.letGo c).cores, ctxs := (s.block c w).ctxs } := by
  unfold State.block State.modCtx; rw [State.letGo_eq]; rfl

@[simp] theorem State.letGo_cycle (c : Nat) : (s.letGo c).cycle = s.cycle := (congrArg State.cycle (s.letGo_eq c)).trans rfl
@[simp] theorem State.letGo_wall (c : Nat) : (s.letGo c).wall = s.wall := (congrArg State.wall (s.letGo_eq c)).trans rfl
@[simp] theorem State.letGo_agenda (c : Nat) : (s.letGo c).agenda = s.agenda := (congrArg State.agenda (s.letGo_eq c)).trans rfl
@[simp] theorem State.letGo_cur (c : Nat) : (s.letGo c).cur = s.cur := (congrArg State.cur (s.letGo_eq c)).trans rfl
@[simp] theorem State.letGo_fresh (c : Nat) : (s.letGo c).fresh = s.fresh := (congrArg State.fresh (s.letGo_eq c)).trans rfl
@[simp] theorem State.letGo_seq (c : Nat) : (s.letGo c).seq = s.seq := (congrArg State.seq (s.letGo_eq c)).trans rfl
@[simp] theorem State.letGo_ctxs (c : Nat) : (s.letGo c).ctxs = s.ctxs := (congrArg State.ctxs (s.letGo_eq c)).trans rfl
@[simp] theorem State.letGo_clusters (c : Nat) : (s.letGo c).clusters = s.clusters := (congrArg State.clusters (s.letGo_eq c)).trans rfl
@[simp] theorem State.letGo_dies (c : Nat) : (s.letGo c).dies = s.dies := (congrArg State.dies (s.letGo_eq c)).trans rfl
@[simp] theorem State.letGo_mem (c : Nat) : (s.letGo c).mem = s.mem := (congrArg State.mem (s.letGo_eq c)).trans rfl
@[simp] theorem State.letGo_tr (c : Nat) : (s.letGo c).tr = s.tr := (congrArg State.tr (s.letGo_eq c)).trans rfl
@[simp] theorem State.letGo_sched (c : Nat) : (s.letGo c).sched = s.sched := (congrArg State.sched (s.letGo_eq c)).trans rfl
@[simp] theorem State.letGo_mgmt (c : Nat) : (s.letGo c).mgmt = s.mgmt := (congrArg State.mgmt (s.letGo_eq c)).trans rfl
@[simp] theorem State.letGo_cool (c : Nat) : (s.letGo c).cool = s.cool := (congrArg State.cool (s.letGo_eq c)).trans rfl
@[simp] theorem State.letGo_fab (c : Nat) : (s.letGo c).fab = s.fab := (congrArg State.fab (s.letGo_eq c)).trans rfl
@[simp] theorem State.letGo_out (c : Nat) : (s.letGo c).out = s.out := (congrArg State.out (s.letGo_eq c)).trans rfl
@[simp] theorem State.letGo_powered (c : Nat) : (s.letGo c).powered = s.powered := (congrArg State.powered (s.letGo_eq c)).trans rfl
@[simp] theorem State.letGo_ctx (c : Nat) (c' : Nat) : (s.letGo c).ctx c' = s.ctx c' := by unfold State.ctx; rw [State.letGo_ctxs]
@[simp] theorem State.letGo_cluster (c : Nat) (k' : Nat) : (s.letGo c).cluster k' = s.cluster k' := by unfold State.cluster; rw [State.letGo_clusters]
@[simp] theorem State.letGo_die (c : Nat) (d' : Nat) : (s.letGo c).die d' = s.die d' := by unfold State.die; rw [State.letGo_dies]

@[simp] theorem State.block_cycle (c : Nat) (w : Wait) : (s.block c w).cycle = s.cycle := (congrArg State.cycle (s.block_eq c w)).trans rfl
@[simp] theorem State.block_wall (c : Nat) (w : Wait) : (s.block c w).wall = s.wall := (congrArg State.wall (s.block_eq c w)).trans rfl
@[simp] theorem State.block_agenda (c : Nat) (w : Wait) : (s.block c w).agenda = s.agenda := (congrArg State.agenda (s.block_eq c w)).trans rfl
@[simp] theorem State.block_cur (c : Nat) (w : Wait) : (s.block c w).cur = s.cur := (congrArg State.cur (s.block_eq c w)).trans rfl
@[simp] theorem State.block_fresh (c : Nat) (w : Wait) : (s.block c w).fresh = s.fresh := (congrArg State.fresh (s.block_eq c w)).trans rfl
@[simp] theorem State.block_seq (c : Nat) (w : Wait) : (s.block c w).seq = s.seq := (congrArg State.seq (s.block_eq c w)).trans rfl
@[simp] theorem State.block_clusters (c : Nat) (w : Wait) : (s.block c w).clusters = s.clusters := (congrArg State.clusters (s.block_eq c w)).trans rfl
@[simp] theorem State.block_dies (c : Nat) (w : Wait) : (s.block c w).dies = s.dies := (congrArg State.dies (s.block_eq c w)).trans rfl
@[simp] theorem State.block_mem (c : Nat) (w : Wait) : (s.block c w).mem = s.mem := (congrArg State.mem (s.block_eq c w)).trans rfl
@[simp] theorem State.block_tr (c : Nat) (w : Wait) : (s.block c w).tr = s.tr := (congrArg State.tr (s.block_eq c w)).trans rfl
@[simp] theorem State.block_sched (c : Nat) (w : Wait) : (s.block c w).sched = s.sched := (congrArg State.sched (s.block_eq c w)).trans rfl
@[simp] theorem State.block_mgmt (c : Nat) (w : Wait) : (s.block c w).mgmt = s.mgmt := (congrArg State.mgmt (s.block_eq c w)).trans rfl
@[simp] theorem State.block_cool (c : Nat) (w : Wait) : (s.block c w).cool = s.cool := (congrArg State.cool (s.block_eq c w)).trans rfl
@[simp] theorem State.block_fab (c : Nat) (w : Wait) : (s.block c w).fab = s.fab := (congrArg State.fab (s.block_eq c w)).trans rfl
@[simp] theorem State.block_out (c : Nat) (w : Wait) : (s.block c w).out = s.out := (congrArg State.out (s.block_eq c w)).trans rfl
@[simp] theorem State.block_powered (c : Nat) (w : Wait) : (s.block c w).powered = s.powered := (congrArg State.powered (s.block_eq c w)).trans rfl
@[simp] theorem State.block_cluster (c : Nat) (w : Wait) (k' : Nat) : (s.block c w).cluster k' = s.cluster k' := by unfold State.cluster; rw [State.block_clusters]
@[simp] theorem State.block_die (c : Nat) (w : Wait) (d' : Nat) : (s.block c w).die d' = s.die d' := by unfold State.die; rw [State.block_dies]
@[simp] theorem State.block_launch (c : Nat) (w : Wait) (h' : Hall) : (s.block c w).launch h' = s.launch h' := by unfold State.launch; rw [State.block_sched]
@[simp] theorem State.block_queue (c : Nat) (w : Wait) (q' : Nat) : (s.block c w).queue q' = s.queue q' := by unfold State.queue; rw [State.block_sched]

/-! ### `ready` -/

@[simp] theorem State.ready_cycle (c : Nat) : (s.ready c).cycle = s.cycle := rfl
@[simp] theorem State.ready_wall (c : Nat) : (s.ready c).wall = s.wall := rfl
@[simp] theorem State.ready_agenda (c : Nat) : (s.ready c).agenda = s.agenda := rfl
@[simp] theorem State.ready_cur (c : Nat) : (s.ready c).cur = s.cur := rfl
@[simp] theorem State.ready_fresh (c : Nat) : (s.ready c).fresh = s.fresh := rfl
@[simp] theorem State.ready_seq (c : Nat) : (s.ready c).seq = s.seq := rfl
@[simp] theorem State.ready_cores (c : Nat) : (s.ready c).cores = s.cores := rfl
@[simp] theorem State.ready_clusters (c : Nat) : (s.ready c).clusters = s.clusters := rfl
@[simp] theorem State.ready_dies (c : Nat) : (s.ready c).dies = s.dies := rfl
@[simp] theorem State.ready_mem (c : Nat) : (s.ready c).mem = s.mem := rfl
@[simp] theorem State.ready_tr (c : Nat) : (s.ready c).tr = s.tr := rfl
@[simp] theorem State.ready_sched (c : Nat) : (s.ready c).sched = s.sched := rfl
@[simp] theorem State.ready_mgmt (c : Nat) : (s.ready c).mgmt = s.mgmt := rfl
@[simp] theorem State.ready_cool (c : Nat) : (s.ready c).cool = s.cool := rfl
@[simp] theorem State.ready_fab (c : Nat) : (s.ready c).fab = s.fab := rfl
@[simp] theorem State.ready_out (c : Nat) : (s.ready c).out = s.out := rfl
@[simp] theorem State.ready_powered (c : Nat) : (s.ready c).powered = s.powered := rfl
@[simp] theorem State.ready_core (c : Nat) (k' : Nat) : (s.ready c).core k' = s.core k' := rfl
@[simp] theorem State.ready_cluster (c : Nat) (k' : Nat) : (s.ready c).cluster k' = s.cluster k' := rfl
@[simp] theorem State.ready_die (c : Nat) (d' : Nat) : (s.ready c).die d' = s.die d' := rfl
@[simp] theorem State.ready_launch (c : Nat) (h' : Hall) : (s.ready c).launch h' = s.launch h' := rfl
@[simp] theorem State.ready_queue (c : Nat) (q' : Nat) : (s.ready c).queue q' = s.queue q' := rfl

/-! ### `busy` -/

@[simp] theorem State.busy_cycle (k n : Nat) : (s.busy k n).cycle = s.cycle := rfl
@[simp] theorem State.busy_wall (k n : Nat) : (s.busy k n).wall = s.wall := rfl
@[simp] theorem State.busy_agenda (k n : Nat) : (s.busy k n).agenda = s.agenda := rfl
@[simp] theorem State.busy_cur (k n : Nat) : (s.busy k n).cur = s.cur := rfl
@[simp] theorem State.busy_fresh (k n : Nat) : (s.busy k n).fresh = s.fresh := rfl
@[simp] theorem State.busy_seq (k n : Nat) : (s.busy k n).seq = s.seq := rfl
@[simp] theorem State.busy_ctxs (k n : Nat) : (s.busy k n).ctxs = s.ctxs := rfl
@[simp] theorem State.busy_clusters (k n : Nat) : (s.busy k n).clusters = s.clusters := rfl
@[simp] theorem State.busy_dies (k n : Nat) : (s.busy k n).dies = s.dies := rfl
@[simp] theorem State.busy_mem (k n : Nat) : (s.busy k n).mem = s.mem := rfl
@[simp] theorem State.busy_tr (k n : Nat) : (s.busy k n).tr = s.tr := rfl
@[simp] theorem State.busy_sched (k n : Nat) : (s.busy k n).sched = s.sched := rfl
@[simp] theorem State.busy_mgmt (k n : Nat) : (s.busy k n).mgmt = s.mgmt := rfl
@[simp] theorem State.busy_cool (k n : Nat) : (s.busy k n).cool = s.cool := rfl
@[simp] theorem State.busy_fab (k n : Nat) : (s.busy k n).fab = s.fab := rfl
@[simp] theorem State.busy_out (k n : Nat) : (s.busy k n).out = s.out := rfl
@[simp] theorem State.busy_powered (k n : Nat) : (s.busy k n).powered = s.powered := rfl
@[simp] theorem State.busy_ctx (k n : Nat) (c' : Nat) : (s.busy k n).ctx c' = s.ctx c' := rfl
@[simp] theorem State.busy_cluster (k n : Nat) (k' : Nat) : (s.busy k n).cluster k' = s.cluster k' := rfl
@[simp] theorem State.busy_die (k n : Nat) (d' : Nat) : (s.busy k n).die d' = s.die d' := rfl
@[simp] theorem State.busy_launch (k n : Nat) (h' : Hall) : (s.busy k n).launch h' = s.launch h' := rfl
@[simp] theorem State.busy_queue (k n : Nat) (q' : Nat) : (s.busy k n).queue q' = s.queue q' := rfl

/-! ### A context's registers and results -/

variable (x : Ctx)

theorem Ctx.setS_eq (n : SReg) (v : SVal) : x.setS n v = { x with regs := (x.setS n v).regs } := by unfold Ctx.setS; split <;> rfl
@[simp] theorem Ctx.setS_pc (n : SReg) (v : SVal) : (x.setS n v).pc = x.pc := (congrArg Ctx.pc (x.setS_eq n v)).trans rfl
@[simp] theorem Ctx.setS_loops (n : SReg) (v : SVal) : (x.setS n v).loops = x.loops := (congrArg Ctx.loops (x.setS_eq n v)).trans rfl
@[simp] theorem Ctx.setS_ctl (n : SReg) (v : SVal) : (x.setS n v).ctl = x.ctl := (congrArg Ctx.ctl (x.setS_eq n v)).trans rfl
@[simp] theorem Ctx.setS_ct (n : SReg) (v : SVal) : (x.setS n v).ct = x.ct := (congrArg Ctx.ct (x.setS_eq n v)).trans rfl
@[simp] theorem Ctx.setS_issues (n : SReg) (v : SVal) : (x.setS n v).issues = x.issues := (congrArg Ctx.issues (x.setS_eq n v)).trans rfl
@[simp] theorem Ctx.setS_fixed (n : SReg) (v : SVal) : (x.setS n v).fixed = x.fixed := (congrArg Ctx.fixed (x.setS_eq n v)).trans rfl
@[simp] theorem Ctx.setS_land (n : SReg) (v : SVal) : (x.setS n v).land = x.land := (congrArg Ctx.land (x.setS_eq n v)).trans rfl
@[simp] theorem Ctx.setS_uiCt (n : SReg) (v : SVal) : (x.setS n v).uiCt = x.uiCt := (congrArg Ctx.uiCt (x.setS_eq n v)).trans rfl
@[simp] theorem Ctx.setS_uiLand (n : SReg) (v : SVal) : (x.setS n v).uiLand = x.uiLand := (congrArg Ctx.uiLand (x.setS_eq n v)).trans rfl
@[simp] theorem Ctx.setS_act (n : SReg) (v : SVal) : (x.setS n v).act = x.act := (congrArg Ctx.act (x.setS_eq n v)).trans rfl
@[simp] theorem Ctx.setS_parkReq (n : SReg) (v : SVal) : (x.setS n v).parkReq = x.parkReq := (congrArg Ctx.parkReq (x.setS_eq n v)).trans rfl
@[simp] theorem Ctx.setS_boundary (n : SReg) (v : SVal) : (x.setS n v).boundary = x.boundary := (congrArg Ctx.boundary (x.setS_eq n v)).trans rfl
@[simp] theorem Ctx.setS_causes (n : SReg) (v : SVal) : (x.setS n v).causes = x.causes := (congrArg Ctx.causes (x.setS_eq n v)).trans rfl
@[simp] theorem Ctx.setS_mon (n : SReg) (v : SVal) : (x.setS n v).mon = x.mon := (congrArg Ctx.mon (x.setS_eq n v)).trans rfl
@[simp] theorem Ctx.setS_seg (n : SReg) (v : SVal) : (x.setS n v).seg = x.seg := (congrArg Ctx.seg (x.setS_eq n v)).trans rfl
@[simp] theorem Ctx.setS_rel (n : SReg) (v : SVal) : (x.setS n v).rel = x.rel := (congrArg Ctx.rel (x.setS_eq n v)).trans rfl
@[simp] theorem Ctx.setS_rewindFlag (n : SReg) (v : SVal) : (x.setS n v).rewindFlag = x.rewindFlag := (congrArg Ctx.rewindFlag (x.setS_eq n v)).trans rfl
@[simp] theorem Ctx.setS_arrivals (n : SReg) (v : SVal) : (x.setS n v).arrivals = x.arrivals := (congrArg Ctx.arrivals (x.setS_eq n v)).trans rfl
@[simp] theorem Ctx.setS_acc (n : SReg) (v : SVal) : (x.setS n v).acc = x.acc := (congrArg Ctx.acc (x.setS_eq n v)).trans rfl
@[simp] theorem Ctx.setS_deps (n : SReg) (v : SVal) : (x.setS n v).deps = x.deps := (congrArg Ctx.deps (x.setS_eq n v)).trans rfl
@[simp] theorem Ctx.setS_drains (n : SReg) (v : SVal) : (x.setS n v).drains = x.drains := (congrArg Ctx.drains (x.setS_eq n v)).trans rfl
@[simp] theorem Ctx.setS_fences (n : SReg) (v : SVal) : (x.setS n v).fences = x.fences := (congrArg Ctx.fences (x.setS_eq n v)).trans rfl
@[simp] theorem Ctx.setS_mtx (n : SReg) (v : SVal) : (x.setS n v).mtx = x.mtx := (congrArg Ctx.mtx (x.setS_eq n v)).trans rfl
@[simp] theorem Ctx.setS_dfaults (n : SReg) (v : SVal) : (x.setS n v).dfaults = x.dfaults := (congrArg Ctx.dfaults (x.setS_eq n v)).trans rfl
@[simp] theorem Ctx.setS_mulPrev (n : SReg) (v : SVal) : (x.setS n v).mulPrev = x.mulPrev := (congrArg Ctx.mulPrev (x.setS_eq n v)).trans rfl
@[simp] theorem Ctx.setS_crd (n : SReg) (v : SVal) : (x.setS n v).crd = x.crd := (congrArg Ctx.crd (x.setS_eq n v)).trans rfl
@[simp] theorem Ctx.setS_crdJob (n : SReg) (v : SVal) : (x.setS n v).crdJob = x.crdJob := (congrArg Ctx.crdJob (x.setS_eq n v)).trans rfl
@[simp] theorem Ctx.setS_crdEnded (n : SReg) (v : SVal) : (x.setS n v).crdEnded = x.crdEnded := (congrArg Ctx.crdEnded (x.setS_eq n v)).trans rfl
@[simp] theorem Ctx.setS_crdRe (n : SReg) (v : SVal) : (x.setS n v).crdRe = x.crdRe := (congrArg Ctx.crdRe (x.setS_eq n v)).trans rfl
@[simp] theorem Ctx.setS_col (n : SReg) (v : SVal) : (x.setS n v).col = x.col := (congrArg Ctx.col (x.setS_eq n v)).trans rfl
@[simp] theorem Ctx.setS_colEnded (n : SReg) (v : SVal) : (x.setS n v).colEnded = x.colEnded := (congrArg Ctx.colEnded (x.setS_eq n v)).trans rfl
@[simp] theorem Ctx.setS_colFirstBad (n : SReg) (v : SVal) : (x.setS n v).colFirstBad = x.colFirstBad := (congrArg Ctx.colFirstBad (x.setS_eq n v)).trans rfl
@[simp] theorem Ctx.setS_colBad (n : SReg) (v : SVal) : (x.setS n v).colBad = x.colBad := (congrArg Ctx.colBad (x.setS_eq n v)).trans rfl
@[simp] theorem Ctx.setS_wkEnded (n : SReg) (v : SVal) : (x.setS n v).wkEnded = x.wkEnded := (congrArg Ctx.wkEnded (x.setS_eq n v)).trans rfl
@[simp] theorem Ctx.setS_wkLast (n : SReg) (v : SVal) : (x.setS n v).wkLast = x.wkLast := (congrArg Ctx.wkLast (x.setS_eq n v)).trans rfl
@[simp] theorem Ctx.setS_evtAcq (n : SReg) (v : SVal) : (x.setS n v).evtAcq = x.evtAcq := (congrArg Ctx.evtAcq (x.setS_eq n v)).trans rfl
@[simp] theorem Ctx.setS_hall (n : SReg) (v : SVal) : (x.setS n v).hall = x.hall := (congrArg Ctx.hall (x.setS_eq n v)).trans rfl
@[simp] theorem Ctx.setS_grant (n : SReg) (v : SVal) : (x.setS n v).grant = x.grant := (congrArg Ctx.grant (x.setS_eq n v)).trans rfl
@[simp] theorem Ctx.setS_walk (n : SReg) (v : SVal) : (x.setS n v).walk = x.walk := (congrArg Ctx.walk (x.setS_eq n v)).trans rfl
@[simp] theorem Ctx.setS_trapAt (n : SReg) (v : SVal) : (x.setS n v).trapAt = x.trapAt := (congrArg Ctx.trapAt (x.setS_eq n v)).trans rfl
@[simp] theorem Ctx.setS_hb1 (n : SReg) (v : SVal) : (x.setS n v).hb1 = x.hb1 := (congrArg Ctx.hb1 (x.setS_eq n v)).trans rfl
@[simp] theorem Ctx.setS_hb2 (n : SReg) (v : SVal) : (x.setS n v).hb2 = x.hb2 := (congrArg Ctx.hb2 (x.setS_eq n v)).trans rfl
@[simp] theorem Ctx.setS_vac (n : SReg) (v : SVal) : (x.setS n v).vac = x.vac := (congrArg Ctx.vac (x.setS_eq n v)).trans rfl
@[simp] theorem Ctx.setS_rtiDone (n : SReg) (v : SVal) : (x.setS n v).rtiDone = x.rtiDone := (congrArg Ctx.rtiDone (x.setS_eq n v)).trans rfl

theorem Ctx.setP_eq (n : PReg) (v : PVal) : x.setP n v = { x with regs := (x.setP n v).regs } := by unfold Ctx.setP; split <;> rfl
@[simp] theorem Ctx.setP_pc (n : PReg) (v : PVal) : (x.setP n v).pc = x.pc := (congrArg Ctx.pc (x.setP_eq n v)).trans rfl
@[simp] theorem Ctx.setP_loops (n : PReg) (v : PVal) : (x.setP n v).loops = x.loops := (congrArg Ctx.loops (x.setP_eq n v)).trans rfl
@[simp] theorem Ctx.setP_ctl (n : PReg) (v : PVal) : (x.setP n v).ctl = x.ctl := (congrArg Ctx.ctl (x.setP_eq n v)).trans rfl
@[simp] theorem Ctx.setP_ct (n : PReg) (v : PVal) : (x.setP n v).ct = x.ct := (congrArg Ctx.ct (x.setP_eq n v)).trans rfl
@[simp] theorem Ctx.setP_issues (n : PReg) (v : PVal) : (x.setP n v).issues = x.issues := (congrArg Ctx.issues (x.setP_eq n v)).trans rfl
@[simp] theorem Ctx.setP_fixed (n : PReg) (v : PVal) : (x.setP n v).fixed = x.fixed := (congrArg Ctx.fixed (x.setP_eq n v)).trans rfl
@[simp] theorem Ctx.setP_land (n : PReg) (v : PVal) : (x.setP n v).land = x.land := (congrArg Ctx.land (x.setP_eq n v)).trans rfl
@[simp] theorem Ctx.setP_uiCt (n : PReg) (v : PVal) : (x.setP n v).uiCt = x.uiCt := (congrArg Ctx.uiCt (x.setP_eq n v)).trans rfl
@[simp] theorem Ctx.setP_uiLand (n : PReg) (v : PVal) : (x.setP n v).uiLand = x.uiLand := (congrArg Ctx.uiLand (x.setP_eq n v)).trans rfl
@[simp] theorem Ctx.setP_act (n : PReg) (v : PVal) : (x.setP n v).act = x.act := (congrArg Ctx.act (x.setP_eq n v)).trans rfl
@[simp] theorem Ctx.setP_parkReq (n : PReg) (v : PVal) : (x.setP n v).parkReq = x.parkReq := (congrArg Ctx.parkReq (x.setP_eq n v)).trans rfl
@[simp] theorem Ctx.setP_boundary (n : PReg) (v : PVal) : (x.setP n v).boundary = x.boundary := (congrArg Ctx.boundary (x.setP_eq n v)).trans rfl
@[simp] theorem Ctx.setP_causes (n : PReg) (v : PVal) : (x.setP n v).causes = x.causes := (congrArg Ctx.causes (x.setP_eq n v)).trans rfl
@[simp] theorem Ctx.setP_mon (n : PReg) (v : PVal) : (x.setP n v).mon = x.mon := (congrArg Ctx.mon (x.setP_eq n v)).trans rfl
@[simp] theorem Ctx.setP_seg (n : PReg) (v : PVal) : (x.setP n v).seg = x.seg := (congrArg Ctx.seg (x.setP_eq n v)).trans rfl
@[simp] theorem Ctx.setP_rel (n : PReg) (v : PVal) : (x.setP n v).rel = x.rel := (congrArg Ctx.rel (x.setP_eq n v)).trans rfl
@[simp] theorem Ctx.setP_rewindFlag (n : PReg) (v : PVal) : (x.setP n v).rewindFlag = x.rewindFlag := (congrArg Ctx.rewindFlag (x.setP_eq n v)).trans rfl
@[simp] theorem Ctx.setP_arrivals (n : PReg) (v : PVal) : (x.setP n v).arrivals = x.arrivals := (congrArg Ctx.arrivals (x.setP_eq n v)).trans rfl
@[simp] theorem Ctx.setP_acc (n : PReg) (v : PVal) : (x.setP n v).acc = x.acc := (congrArg Ctx.acc (x.setP_eq n v)).trans rfl
@[simp] theorem Ctx.setP_deps (n : PReg) (v : PVal) : (x.setP n v).deps = x.deps := (congrArg Ctx.deps (x.setP_eq n v)).trans rfl
@[simp] theorem Ctx.setP_drains (n : PReg) (v : PVal) : (x.setP n v).drains = x.drains := (congrArg Ctx.drains (x.setP_eq n v)).trans rfl
@[simp] theorem Ctx.setP_fences (n : PReg) (v : PVal) : (x.setP n v).fences = x.fences := (congrArg Ctx.fences (x.setP_eq n v)).trans rfl
@[simp] theorem Ctx.setP_mtx (n : PReg) (v : PVal) : (x.setP n v).mtx = x.mtx := (congrArg Ctx.mtx (x.setP_eq n v)).trans rfl
@[simp] theorem Ctx.setP_dfaults (n : PReg) (v : PVal) : (x.setP n v).dfaults = x.dfaults := (congrArg Ctx.dfaults (x.setP_eq n v)).trans rfl
@[simp] theorem Ctx.setP_mulPrev (n : PReg) (v : PVal) : (x.setP n v).mulPrev = x.mulPrev := (congrArg Ctx.mulPrev (x.setP_eq n v)).trans rfl
@[simp] theorem Ctx.setP_crd (n : PReg) (v : PVal) : (x.setP n v).crd = x.crd := (congrArg Ctx.crd (x.setP_eq n v)).trans rfl
@[simp] theorem Ctx.setP_crdJob (n : PReg) (v : PVal) : (x.setP n v).crdJob = x.crdJob := (congrArg Ctx.crdJob (x.setP_eq n v)).trans rfl
@[simp] theorem Ctx.setP_crdEnded (n : PReg) (v : PVal) : (x.setP n v).crdEnded = x.crdEnded := (congrArg Ctx.crdEnded (x.setP_eq n v)).trans rfl
@[simp] theorem Ctx.setP_crdRe (n : PReg) (v : PVal) : (x.setP n v).crdRe = x.crdRe := (congrArg Ctx.crdRe (x.setP_eq n v)).trans rfl
@[simp] theorem Ctx.setP_col (n : PReg) (v : PVal) : (x.setP n v).col = x.col := (congrArg Ctx.col (x.setP_eq n v)).trans rfl
@[simp] theorem Ctx.setP_colEnded (n : PReg) (v : PVal) : (x.setP n v).colEnded = x.colEnded := (congrArg Ctx.colEnded (x.setP_eq n v)).trans rfl
@[simp] theorem Ctx.setP_colFirstBad (n : PReg) (v : PVal) : (x.setP n v).colFirstBad = x.colFirstBad := (congrArg Ctx.colFirstBad (x.setP_eq n v)).trans rfl
@[simp] theorem Ctx.setP_colBad (n : PReg) (v : PVal) : (x.setP n v).colBad = x.colBad := (congrArg Ctx.colBad (x.setP_eq n v)).trans rfl
@[simp] theorem Ctx.setP_wkEnded (n : PReg) (v : PVal) : (x.setP n v).wkEnded = x.wkEnded := (congrArg Ctx.wkEnded (x.setP_eq n v)).trans rfl
@[simp] theorem Ctx.setP_wkLast (n : PReg) (v : PVal) : (x.setP n v).wkLast = x.wkLast := (congrArg Ctx.wkLast (x.setP_eq n v)).trans rfl
@[simp] theorem Ctx.setP_evtAcq (n : PReg) (v : PVal) : (x.setP n v).evtAcq = x.evtAcq := (congrArg Ctx.evtAcq (x.setP_eq n v)).trans rfl
@[simp] theorem Ctx.setP_hall (n : PReg) (v : PVal) : (x.setP n v).hall = x.hall := (congrArg Ctx.hall (x.setP_eq n v)).trans rfl
@[simp] theorem Ctx.setP_grant (n : PReg) (v : PVal) : (x.setP n v).grant = x.grant := (congrArg Ctx.grant (x.setP_eq n v)).trans rfl
@[simp] theorem Ctx.setP_walk (n : PReg) (v : PVal) : (x.setP n v).walk = x.walk := (congrArg Ctx.walk (x.setP_eq n v)).trans rfl
@[simp] theorem Ctx.setP_trapAt (n : PReg) (v : PVal) : (x.setP n v).trapAt = x.trapAt := (congrArg Ctx.trapAt (x.setP_eq n v)).trans rfl
@[simp] theorem Ctx.setP_hb1 (n : PReg) (v : PVal) : (x.setP n v).hb1 = x.hb1 := (congrArg Ctx.hb1 (x.setP_eq n v)).trans rfl
@[simp] theorem Ctx.setP_hb2 (n : PReg) (v : PVal) : (x.setP n v).hb2 = x.hb2 := (congrArg Ctx.hb2 (x.setP_eq n v)).trans rfl
@[simp] theorem Ctx.setP_vac (n : PReg) (v : PVal) : (x.setP n v).vac = x.vac := (congrArg Ctx.vac (x.setP_eq n v)).trans rfl
@[simp] theorem Ctx.setP_rtiDone (n : PReg) (v : PVal) : (x.setP n v).rtiDone = x.rtiDone := (congrArg Ctx.rtiDone (x.setP_eq n v)).trans rfl

theorem Ctx.setQ_eq (n : QReg) (v : QVal) : x.setQ n v = { x with regs := (x.setQ n v).regs } := by unfold Ctx.setQ; split <;> rfl
@[simp] theorem Ctx.setQ_pc (n : QReg) (v : QVal) : (x.setQ n v).pc = x.pc := (congrArg Ctx.pc (x.setQ_eq n v)).trans rfl
@[simp] theorem Ctx.setQ_loops (n : QReg) (v : QVal) : (x.setQ n v).loops = x.loops := (congrArg Ctx.loops (x.setQ_eq n v)).trans rfl
@[simp] theorem Ctx.setQ_ctl (n : QReg) (v : QVal) : (x.setQ n v).ctl = x.ctl := (congrArg Ctx.ctl (x.setQ_eq n v)).trans rfl
@[simp] theorem Ctx.setQ_ct (n : QReg) (v : QVal) : (x.setQ n v).ct = x.ct := (congrArg Ctx.ct (x.setQ_eq n v)).trans rfl
@[simp] theorem Ctx.setQ_issues (n : QReg) (v : QVal) : (x.setQ n v).issues = x.issues := (congrArg Ctx.issues (x.setQ_eq n v)).trans rfl
@[simp] theorem Ctx.setQ_fixed (n : QReg) (v : QVal) : (x.setQ n v).fixed = x.fixed := (congrArg Ctx.fixed (x.setQ_eq n v)).trans rfl
@[simp] theorem Ctx.setQ_land (n : QReg) (v : QVal) : (x.setQ n v).land = x.land := (congrArg Ctx.land (x.setQ_eq n v)).trans rfl
@[simp] theorem Ctx.setQ_uiCt (n : QReg) (v : QVal) : (x.setQ n v).uiCt = x.uiCt := (congrArg Ctx.uiCt (x.setQ_eq n v)).trans rfl
@[simp] theorem Ctx.setQ_uiLand (n : QReg) (v : QVal) : (x.setQ n v).uiLand = x.uiLand := (congrArg Ctx.uiLand (x.setQ_eq n v)).trans rfl
@[simp] theorem Ctx.setQ_act (n : QReg) (v : QVal) : (x.setQ n v).act = x.act := (congrArg Ctx.act (x.setQ_eq n v)).trans rfl
@[simp] theorem Ctx.setQ_parkReq (n : QReg) (v : QVal) : (x.setQ n v).parkReq = x.parkReq := (congrArg Ctx.parkReq (x.setQ_eq n v)).trans rfl
@[simp] theorem Ctx.setQ_boundary (n : QReg) (v : QVal) : (x.setQ n v).boundary = x.boundary := (congrArg Ctx.boundary (x.setQ_eq n v)).trans rfl
@[simp] theorem Ctx.setQ_causes (n : QReg) (v : QVal) : (x.setQ n v).causes = x.causes := (congrArg Ctx.causes (x.setQ_eq n v)).trans rfl
@[simp] theorem Ctx.setQ_mon (n : QReg) (v : QVal) : (x.setQ n v).mon = x.mon := (congrArg Ctx.mon (x.setQ_eq n v)).trans rfl
@[simp] theorem Ctx.setQ_seg (n : QReg) (v : QVal) : (x.setQ n v).seg = x.seg := (congrArg Ctx.seg (x.setQ_eq n v)).trans rfl
@[simp] theorem Ctx.setQ_rel (n : QReg) (v : QVal) : (x.setQ n v).rel = x.rel := (congrArg Ctx.rel (x.setQ_eq n v)).trans rfl
@[simp] theorem Ctx.setQ_rewindFlag (n : QReg) (v : QVal) : (x.setQ n v).rewindFlag = x.rewindFlag := (congrArg Ctx.rewindFlag (x.setQ_eq n v)).trans rfl
@[simp] theorem Ctx.setQ_arrivals (n : QReg) (v : QVal) : (x.setQ n v).arrivals = x.arrivals := (congrArg Ctx.arrivals (x.setQ_eq n v)).trans rfl
@[simp] theorem Ctx.setQ_acc (n : QReg) (v : QVal) : (x.setQ n v).acc = x.acc := (congrArg Ctx.acc (x.setQ_eq n v)).trans rfl
@[simp] theorem Ctx.setQ_deps (n : QReg) (v : QVal) : (x.setQ n v).deps = x.deps := (congrArg Ctx.deps (x.setQ_eq n v)).trans rfl
@[simp] theorem Ctx.setQ_drains (n : QReg) (v : QVal) : (x.setQ n v).drains = x.drains := (congrArg Ctx.drains (x.setQ_eq n v)).trans rfl
@[simp] theorem Ctx.setQ_fences (n : QReg) (v : QVal) : (x.setQ n v).fences = x.fences := (congrArg Ctx.fences (x.setQ_eq n v)).trans rfl
@[simp] theorem Ctx.setQ_mtx (n : QReg) (v : QVal) : (x.setQ n v).mtx = x.mtx := (congrArg Ctx.mtx (x.setQ_eq n v)).trans rfl
@[simp] theorem Ctx.setQ_dfaults (n : QReg) (v : QVal) : (x.setQ n v).dfaults = x.dfaults := (congrArg Ctx.dfaults (x.setQ_eq n v)).trans rfl
@[simp] theorem Ctx.setQ_mulPrev (n : QReg) (v : QVal) : (x.setQ n v).mulPrev = x.mulPrev := (congrArg Ctx.mulPrev (x.setQ_eq n v)).trans rfl
@[simp] theorem Ctx.setQ_crd (n : QReg) (v : QVal) : (x.setQ n v).crd = x.crd := (congrArg Ctx.crd (x.setQ_eq n v)).trans rfl
@[simp] theorem Ctx.setQ_crdJob (n : QReg) (v : QVal) : (x.setQ n v).crdJob = x.crdJob := (congrArg Ctx.crdJob (x.setQ_eq n v)).trans rfl
@[simp] theorem Ctx.setQ_crdEnded (n : QReg) (v : QVal) : (x.setQ n v).crdEnded = x.crdEnded := (congrArg Ctx.crdEnded (x.setQ_eq n v)).trans rfl
@[simp] theorem Ctx.setQ_crdRe (n : QReg) (v : QVal) : (x.setQ n v).crdRe = x.crdRe := (congrArg Ctx.crdRe (x.setQ_eq n v)).trans rfl
@[simp] theorem Ctx.setQ_col (n : QReg) (v : QVal) : (x.setQ n v).col = x.col := (congrArg Ctx.col (x.setQ_eq n v)).trans rfl
@[simp] theorem Ctx.setQ_colEnded (n : QReg) (v : QVal) : (x.setQ n v).colEnded = x.colEnded := (congrArg Ctx.colEnded (x.setQ_eq n v)).trans rfl
@[simp] theorem Ctx.setQ_colFirstBad (n : QReg) (v : QVal) : (x.setQ n v).colFirstBad = x.colFirstBad := (congrArg Ctx.colFirstBad (x.setQ_eq n v)).trans rfl
@[simp] theorem Ctx.setQ_colBad (n : QReg) (v : QVal) : (x.setQ n v).colBad = x.colBad := (congrArg Ctx.colBad (x.setQ_eq n v)).trans rfl
@[simp] theorem Ctx.setQ_wkEnded (n : QReg) (v : QVal) : (x.setQ n v).wkEnded = x.wkEnded := (congrArg Ctx.wkEnded (x.setQ_eq n v)).trans rfl
@[simp] theorem Ctx.setQ_wkLast (n : QReg) (v : QVal) : (x.setQ n v).wkLast = x.wkLast := (congrArg Ctx.wkLast (x.setQ_eq n v)).trans rfl
@[simp] theorem Ctx.setQ_evtAcq (n : QReg) (v : QVal) : (x.setQ n v).evtAcq = x.evtAcq := (congrArg Ctx.evtAcq (x.setQ_eq n v)).trans rfl
@[simp] theorem Ctx.setQ_hall (n : QReg) (v : QVal) : (x.setQ n v).hall = x.hall := (congrArg Ctx.hall (x.setQ_eq n v)).trans rfl
@[simp] theorem Ctx.setQ_grant (n : QReg) (v : QVal) : (x.setQ n v).grant = x.grant := (congrArg Ctx.grant (x.setQ_eq n v)).trans rfl
@[simp] theorem Ctx.setQ_walk (n : QReg) (v : QVal) : (x.setQ n v).walk = x.walk := (congrArg Ctx.walk (x.setQ_eq n v)).trans rfl
@[simp] theorem Ctx.setQ_trapAt (n : QReg) (v : QVal) : (x.setQ n v).trapAt = x.trapAt := (congrArg Ctx.trapAt (x.setQ_eq n v)).trans rfl
@[simp] theorem Ctx.setQ_hb1 (n : QReg) (v : QVal) : (x.setQ n v).hb1 = x.hb1 := (congrArg Ctx.hb1 (x.setQ_eq n v)).trans rfl
@[simp] theorem Ctx.setQ_hb2 (n : QReg) (v : QVal) : (x.setQ n v).hb2 = x.hb2 := (congrArg Ctx.hb2 (x.setQ_eq n v)).trans rfl
@[simp] theorem Ctx.setQ_vac (n : QReg) (v : QVal) : (x.setQ n v).vac = x.vac := (congrArg Ctx.vac (x.setQ_eq n v)).trans rfl
@[simp] theorem Ctx.setQ_rtiDone (n : QReg) (v : QVal) : (x.setQ n v).rtiDone = x.rtiDone := (congrArg Ctx.rtiDone (x.setQ_eq n v)).trans rfl

@[simp] theorem Ctx.setV_pc (n : VReg) (v : VVal) : (x.setV n v).pc = x.pc := rfl
@[simp] theorem Ctx.setV_loops (n : VReg) (v : VVal) : (x.setV n v).loops = x.loops := rfl
@[simp] theorem Ctx.setV_ctl (n : VReg) (v : VVal) : (x.setV n v).ctl = x.ctl := rfl
@[simp] theorem Ctx.setV_ct (n : VReg) (v : VVal) : (x.setV n v).ct = x.ct := rfl
@[simp] theorem Ctx.setV_issues (n : VReg) (v : VVal) : (x.setV n v).issues = x.issues := rfl
@[simp] theorem Ctx.setV_fixed (n : VReg) (v : VVal) : (x.setV n v).fixed = x.fixed := rfl
@[simp] theorem Ctx.setV_land (n : VReg) (v : VVal) : (x.setV n v).land = x.land := rfl
@[simp] theorem Ctx.setV_uiCt (n : VReg) (v : VVal) : (x.setV n v).uiCt = x.uiCt := rfl
@[simp] theorem Ctx.setV_uiLand (n : VReg) (v : VVal) : (x.setV n v).uiLand = x.uiLand := rfl
@[simp] theorem Ctx.setV_act (n : VReg) (v : VVal) : (x.setV n v).act = x.act := rfl
@[simp] theorem Ctx.setV_parkReq (n : VReg) (v : VVal) : (x.setV n v).parkReq = x.parkReq := rfl
@[simp] theorem Ctx.setV_boundary (n : VReg) (v : VVal) : (x.setV n v).boundary = x.boundary := rfl
@[simp] theorem Ctx.setV_causes (n : VReg) (v : VVal) : (x.setV n v).causes = x.causes := rfl
@[simp] theorem Ctx.setV_mon (n : VReg) (v : VVal) : (x.setV n v).mon = x.mon := rfl
@[simp] theorem Ctx.setV_seg (n : VReg) (v : VVal) : (x.setV n v).seg = x.seg := rfl
@[simp] theorem Ctx.setV_rel (n : VReg) (v : VVal) : (x.setV n v).rel = x.rel := rfl
@[simp] theorem Ctx.setV_rewindFlag (n : VReg) (v : VVal) : (x.setV n v).rewindFlag = x.rewindFlag := rfl
@[simp] theorem Ctx.setV_arrivals (n : VReg) (v : VVal) : (x.setV n v).arrivals = x.arrivals := rfl
@[simp] theorem Ctx.setV_acc (n : VReg) (v : VVal) : (x.setV n v).acc = x.acc := rfl
@[simp] theorem Ctx.setV_deps (n : VReg) (v : VVal) : (x.setV n v).deps = x.deps := rfl
@[simp] theorem Ctx.setV_drains (n : VReg) (v : VVal) : (x.setV n v).drains = x.drains := rfl
@[simp] theorem Ctx.setV_fences (n : VReg) (v : VVal) : (x.setV n v).fences = x.fences := rfl
@[simp] theorem Ctx.setV_mtx (n : VReg) (v : VVal) : (x.setV n v).mtx = x.mtx := rfl
@[simp] theorem Ctx.setV_dfaults (n : VReg) (v : VVal) : (x.setV n v).dfaults = x.dfaults := rfl
@[simp] theorem Ctx.setV_mulPrev (n : VReg) (v : VVal) : (x.setV n v).mulPrev = x.mulPrev := rfl
@[simp] theorem Ctx.setV_crd (n : VReg) (v : VVal) : (x.setV n v).crd = x.crd := rfl
@[simp] theorem Ctx.setV_crdJob (n : VReg) (v : VVal) : (x.setV n v).crdJob = x.crdJob := rfl
@[simp] theorem Ctx.setV_crdEnded (n : VReg) (v : VVal) : (x.setV n v).crdEnded = x.crdEnded := rfl
@[simp] theorem Ctx.setV_crdRe (n : VReg) (v : VVal) : (x.setV n v).crdRe = x.crdRe := rfl
@[simp] theorem Ctx.setV_col (n : VReg) (v : VVal) : (x.setV n v).col = x.col := rfl
@[simp] theorem Ctx.setV_colEnded (n : VReg) (v : VVal) : (x.setV n v).colEnded = x.colEnded := rfl
@[simp] theorem Ctx.setV_colFirstBad (n : VReg) (v : VVal) : (x.setV n v).colFirstBad = x.colFirstBad := rfl
@[simp] theorem Ctx.setV_colBad (n : VReg) (v : VVal) : (x.setV n v).colBad = x.colBad := rfl
@[simp] theorem Ctx.setV_wkEnded (n : VReg) (v : VVal) : (x.setV n v).wkEnded = x.wkEnded := rfl
@[simp] theorem Ctx.setV_wkLast (n : VReg) (v : VVal) : (x.setV n v).wkLast = x.wkLast := rfl
@[simp] theorem Ctx.setV_evtAcq (n : VReg) (v : VVal) : (x.setV n v).evtAcq = x.evtAcq := rfl
@[simp] theorem Ctx.setV_hall (n : VReg) (v : VVal) : (x.setV n v).hall = x.hall := rfl
@[simp] theorem Ctx.setV_grant (n : VReg) (v : VVal) : (x.setV n v).grant = x.grant := rfl
@[simp] theorem Ctx.setV_walk (n : VReg) (v : VVal) : (x.setV n v).walk = x.walk := rfl
@[simp] theorem Ctx.setV_trapAt (n : VReg) (v : VVal) : (x.setV n v).trapAt = x.trapAt := rfl
@[simp] theorem Ctx.setV_hb1 (n : VReg) (v : VVal) : (x.setV n v).hb1 = x.hb1 := rfl
@[simp] theorem Ctx.setV_hb2 (n : VReg) (v : VVal) : (x.setV n v).hb2 = x.hb2 := rfl
@[simp] theorem Ctx.setV_vac (n : VReg) (v : VVal) : (x.setV n v).vac = x.vac := rfl
@[simp] theorem Ctx.setV_rtiDone (n : VReg) (v : VVal) : (x.setV n v).rtiDone = x.rtiDone := rfl

@[simp] theorem Ctx.setM_pc (n : MReg) (v : MVal) : (x.setM n v).pc = x.pc := rfl
@[simp] theorem Ctx.setM_loops (n : MReg) (v : MVal) : (x.setM n v).loops = x.loops := rfl
@[simp] theorem Ctx.setM_ctl (n : MReg) (v : MVal) : (x.setM n v).ctl = x.ctl := rfl
@[simp] theorem Ctx.setM_ct (n : MReg) (v : MVal) : (x.setM n v).ct = x.ct := rfl
@[simp] theorem Ctx.setM_issues (n : MReg) (v : MVal) : (x.setM n v).issues = x.issues := rfl
@[simp] theorem Ctx.setM_fixed (n : MReg) (v : MVal) : (x.setM n v).fixed = x.fixed := rfl
@[simp] theorem Ctx.setM_land (n : MReg) (v : MVal) : (x.setM n v).land = x.land := rfl
@[simp] theorem Ctx.setM_uiCt (n : MReg) (v : MVal) : (x.setM n v).uiCt = x.uiCt := rfl
@[simp] theorem Ctx.setM_uiLand (n : MReg) (v : MVal) : (x.setM n v).uiLand = x.uiLand := rfl
@[simp] theorem Ctx.setM_act (n : MReg) (v : MVal) : (x.setM n v).act = x.act := rfl
@[simp] theorem Ctx.setM_parkReq (n : MReg) (v : MVal) : (x.setM n v).parkReq = x.parkReq := rfl
@[simp] theorem Ctx.setM_boundary (n : MReg) (v : MVal) : (x.setM n v).boundary = x.boundary := rfl
@[simp] theorem Ctx.setM_causes (n : MReg) (v : MVal) : (x.setM n v).causes = x.causes := rfl
@[simp] theorem Ctx.setM_mon (n : MReg) (v : MVal) : (x.setM n v).mon = x.mon := rfl
@[simp] theorem Ctx.setM_seg (n : MReg) (v : MVal) : (x.setM n v).seg = x.seg := rfl
@[simp] theorem Ctx.setM_rel (n : MReg) (v : MVal) : (x.setM n v).rel = x.rel := rfl
@[simp] theorem Ctx.setM_rewindFlag (n : MReg) (v : MVal) : (x.setM n v).rewindFlag = x.rewindFlag := rfl
@[simp] theorem Ctx.setM_arrivals (n : MReg) (v : MVal) : (x.setM n v).arrivals = x.arrivals := rfl
@[simp] theorem Ctx.setM_acc (n : MReg) (v : MVal) : (x.setM n v).acc = x.acc := rfl
@[simp] theorem Ctx.setM_deps (n : MReg) (v : MVal) : (x.setM n v).deps = x.deps := rfl
@[simp] theorem Ctx.setM_drains (n : MReg) (v : MVal) : (x.setM n v).drains = x.drains := rfl
@[simp] theorem Ctx.setM_fences (n : MReg) (v : MVal) : (x.setM n v).fences = x.fences := rfl
@[simp] theorem Ctx.setM_mtx (n : MReg) (v : MVal) : (x.setM n v).mtx = x.mtx := rfl
@[simp] theorem Ctx.setM_dfaults (n : MReg) (v : MVal) : (x.setM n v).dfaults = x.dfaults := rfl
@[simp] theorem Ctx.setM_mulPrev (n : MReg) (v : MVal) : (x.setM n v).mulPrev = x.mulPrev := rfl
@[simp] theorem Ctx.setM_crd (n : MReg) (v : MVal) : (x.setM n v).crd = x.crd := rfl
@[simp] theorem Ctx.setM_crdJob (n : MReg) (v : MVal) : (x.setM n v).crdJob = x.crdJob := rfl
@[simp] theorem Ctx.setM_crdEnded (n : MReg) (v : MVal) : (x.setM n v).crdEnded = x.crdEnded := rfl
@[simp] theorem Ctx.setM_crdRe (n : MReg) (v : MVal) : (x.setM n v).crdRe = x.crdRe := rfl
@[simp] theorem Ctx.setM_col (n : MReg) (v : MVal) : (x.setM n v).col = x.col := rfl
@[simp] theorem Ctx.setM_colEnded (n : MReg) (v : MVal) : (x.setM n v).colEnded = x.colEnded := rfl
@[simp] theorem Ctx.setM_colFirstBad (n : MReg) (v : MVal) : (x.setM n v).colFirstBad = x.colFirstBad := rfl
@[simp] theorem Ctx.setM_colBad (n : MReg) (v : MVal) : (x.setM n v).colBad = x.colBad := rfl
@[simp] theorem Ctx.setM_wkEnded (n : MReg) (v : MVal) : (x.setM n v).wkEnded = x.wkEnded := rfl
@[simp] theorem Ctx.setM_wkLast (n : MReg) (v : MVal) : (x.setM n v).wkLast = x.wkLast := rfl
@[simp] theorem Ctx.setM_evtAcq (n : MReg) (v : MVal) : (x.setM n v).evtAcq = x.evtAcq := rfl
@[simp] theorem Ctx.setM_hall (n : MReg) (v : MVal) : (x.setM n v).hall = x.hall := rfl
@[simp] theorem Ctx.setM_grant (n : MReg) (v : MVal) : (x.setM n v).grant = x.grant := rfl
@[simp] theorem Ctx.setM_walk (n : MReg) (v : MVal) : (x.setM n v).walk = x.walk := rfl
@[simp] theorem Ctx.setM_trapAt (n : MReg) (v : MVal) : (x.setM n v).trapAt = x.trapAt := rfl
@[simp] theorem Ctx.setM_hb1 (n : MReg) (v : MVal) : (x.setM n v).hb1 = x.hb1 := rfl
@[simp] theorem Ctx.setM_hb2 (n : MReg) (v : MVal) : (x.setM n v).hb2 = x.hb2 := rfl
@[simp] theorem Ctx.setM_vac (n : MReg) (v : MVal) : (x.setM n v).vac = x.vac := rfl
@[simp] theorem Ctx.setM_rtiDone (n : MReg) (v : MVal) : (x.setM n v).rtiDone = x.rtiDone := rfl

@[simp] theorem Ctx.setX_pc (n : XReg) (v : XVal) : (x.setX n v).pc = x.pc := rfl
@[simp] theorem Ctx.setX_loops (n : XReg) (v : XVal) : (x.setX n v).loops = x.loops := rfl
@[simp] theorem Ctx.setX_ctl (n : XReg) (v : XVal) : (x.setX n v).ctl = x.ctl := rfl
@[simp] theorem Ctx.setX_ct (n : XReg) (v : XVal) : (x.setX n v).ct = x.ct := rfl
@[simp] theorem Ctx.setX_issues (n : XReg) (v : XVal) : (x.setX n v).issues = x.issues := rfl
@[simp] theorem Ctx.setX_fixed (n : XReg) (v : XVal) : (x.setX n v).fixed = x.fixed := rfl
@[simp] theorem Ctx.setX_land (n : XReg) (v : XVal) : (x.setX n v).land = x.land := rfl
@[simp] theorem Ctx.setX_uiCt (n : XReg) (v : XVal) : (x.setX n v).uiCt = x.uiCt := rfl
@[simp] theorem Ctx.setX_uiLand (n : XReg) (v : XVal) : (x.setX n v).uiLand = x.uiLand := rfl
@[simp] theorem Ctx.setX_act (n : XReg) (v : XVal) : (x.setX n v).act = x.act := rfl
@[simp] theorem Ctx.setX_parkReq (n : XReg) (v : XVal) : (x.setX n v).parkReq = x.parkReq := rfl
@[simp] theorem Ctx.setX_boundary (n : XReg) (v : XVal) : (x.setX n v).boundary = x.boundary := rfl
@[simp] theorem Ctx.setX_causes (n : XReg) (v : XVal) : (x.setX n v).causes = x.causes := rfl
@[simp] theorem Ctx.setX_mon (n : XReg) (v : XVal) : (x.setX n v).mon = x.mon := rfl
@[simp] theorem Ctx.setX_seg (n : XReg) (v : XVal) : (x.setX n v).seg = x.seg := rfl
@[simp] theorem Ctx.setX_rel (n : XReg) (v : XVal) : (x.setX n v).rel = x.rel := rfl
@[simp] theorem Ctx.setX_rewindFlag (n : XReg) (v : XVal) : (x.setX n v).rewindFlag = x.rewindFlag := rfl
@[simp] theorem Ctx.setX_arrivals (n : XReg) (v : XVal) : (x.setX n v).arrivals = x.arrivals := rfl
@[simp] theorem Ctx.setX_acc (n : XReg) (v : XVal) : (x.setX n v).acc = x.acc := rfl
@[simp] theorem Ctx.setX_deps (n : XReg) (v : XVal) : (x.setX n v).deps = x.deps := rfl
@[simp] theorem Ctx.setX_drains (n : XReg) (v : XVal) : (x.setX n v).drains = x.drains := rfl
@[simp] theorem Ctx.setX_fences (n : XReg) (v : XVal) : (x.setX n v).fences = x.fences := rfl
@[simp] theorem Ctx.setX_mtx (n : XReg) (v : XVal) : (x.setX n v).mtx = x.mtx := rfl
@[simp] theorem Ctx.setX_dfaults (n : XReg) (v : XVal) : (x.setX n v).dfaults = x.dfaults := rfl
@[simp] theorem Ctx.setX_mulPrev (n : XReg) (v : XVal) : (x.setX n v).mulPrev = x.mulPrev := rfl
@[simp] theorem Ctx.setX_crd (n : XReg) (v : XVal) : (x.setX n v).crd = x.crd := rfl
@[simp] theorem Ctx.setX_crdJob (n : XReg) (v : XVal) : (x.setX n v).crdJob = x.crdJob := rfl
@[simp] theorem Ctx.setX_crdEnded (n : XReg) (v : XVal) : (x.setX n v).crdEnded = x.crdEnded := rfl
@[simp] theorem Ctx.setX_crdRe (n : XReg) (v : XVal) : (x.setX n v).crdRe = x.crdRe := rfl
@[simp] theorem Ctx.setX_col (n : XReg) (v : XVal) : (x.setX n v).col = x.col := rfl
@[simp] theorem Ctx.setX_colEnded (n : XReg) (v : XVal) : (x.setX n v).colEnded = x.colEnded := rfl
@[simp] theorem Ctx.setX_colFirstBad (n : XReg) (v : XVal) : (x.setX n v).colFirstBad = x.colFirstBad := rfl
@[simp] theorem Ctx.setX_colBad (n : XReg) (v : XVal) : (x.setX n v).colBad = x.colBad := rfl
@[simp] theorem Ctx.setX_wkEnded (n : XReg) (v : XVal) : (x.setX n v).wkEnded = x.wkEnded := rfl
@[simp] theorem Ctx.setX_wkLast (n : XReg) (v : XVal) : (x.setX n v).wkLast = x.wkLast := rfl
@[simp] theorem Ctx.setX_evtAcq (n : XReg) (v : XVal) : (x.setX n v).evtAcq = x.evtAcq := rfl
@[simp] theorem Ctx.setX_hall (n : XReg) (v : XVal) : (x.setX n v).hall = x.hall := rfl
@[simp] theorem Ctx.setX_grant (n : XReg) (v : XVal) : (x.setX n v).grant = x.grant := rfl
@[simp] theorem Ctx.setX_walk (n : XReg) (v : XVal) : (x.setX n v).walk = x.walk := rfl
@[simp] theorem Ctx.setX_trapAt (n : XReg) (v : XVal) : (x.setX n v).trapAt = x.trapAt := rfl
@[simp] theorem Ctx.setX_hb1 (n : XReg) (v : XVal) : (x.setX n v).hb1 = x.hb1 := rfl
@[simp] theorem Ctx.setX_hb2 (n : XReg) (v : XVal) : (x.setX n v).hb2 = x.hb2 := rfl
@[simp] theorem Ctx.setX_vac (n : XReg) (v : XVal) : (x.setX n v).vac = x.vac := rfl
@[simp] theorem Ctx.setX_rtiDone (n : XReg) (v : XVal) : (x.setX n v).rtiDone = x.rtiDone := rfl

@[simp] theorem Ctx.pushRes_regs (r : Res) : (x.pushRes r).regs = x.regs := rfl
@[simp] theorem Ctx.pushRes_pc (r : Res) : (x.pushRes r).pc = x.pc := rfl
@[simp] theorem Ctx.pushRes_loops (r : Res) : (x.pushRes r).loops = x.loops := rfl
@[simp] theorem Ctx.pushRes_ctl (r : Res) : (x.pushRes r).ctl = x.ctl := rfl
@[simp] theorem Ctx.pushRes_ct (r : Res) : (x.pushRes r).ct = x.ct := rfl
@[simp] theorem Ctx.pushRes_issues (r : Res) : (x.pushRes r).issues = x.issues := rfl
@[simp] theorem Ctx.pushRes_land (r : Res) : (x.pushRes r).land = x.land := rfl
@[simp] theorem Ctx.pushRes_uiCt (r : Res) : (x.pushRes r).uiCt = x.uiCt := rfl
@[simp] theorem Ctx.pushRes_uiLand (r : Res) : (x.pushRes r).uiLand = x.uiLand := rfl
@[simp] theorem Ctx.pushRes_act (r : Res) : (x.pushRes r).act = x.act := rfl
@[simp] theorem Ctx.pushRes_parkReq (r : Res) : (x.pushRes r).parkReq = x.parkReq := rfl
@[simp] theorem Ctx.pushRes_boundary (r : Res) : (x.pushRes r).boundary = x.boundary := rfl
@[simp] theorem Ctx.pushRes_causes (r : Res) : (x.pushRes r).causes = x.causes := rfl
@[simp] theorem Ctx.pushRes_mon (r : Res) : (x.pushRes r).mon = x.mon := rfl
@[simp] theorem Ctx.pushRes_seg (r : Res) : (x.pushRes r).seg = x.seg := rfl
@[simp] theorem Ctx.pushRes_rel (r : Res) : (x.pushRes r).rel = x.rel := rfl
@[simp] theorem Ctx.pushRes_rewindFlag (r : Res) : (x.pushRes r).rewindFlag = x.rewindFlag := rfl
@[simp] theorem Ctx.pushRes_arrivals (r : Res) : (x.pushRes r).arrivals = x.arrivals := rfl
@[simp] theorem Ctx.pushRes_acc (r : Res) : (x.pushRes r).acc = x.acc := rfl
@[simp] theorem Ctx.pushRes_deps (r : Res) : (x.pushRes r).deps = x.deps := rfl
@[simp] theorem Ctx.pushRes_drains (r : Res) : (x.pushRes r).drains = x.drains := rfl
@[simp] theorem Ctx.pushRes_fences (r : Res) : (x.pushRes r).fences = x.fences := rfl
@[simp] theorem Ctx.pushRes_mtx (r : Res) : (x.pushRes r).mtx = x.mtx := rfl
@[simp] theorem Ctx.pushRes_dfaults (r : Res) : (x.pushRes r).dfaults = x.dfaults := rfl
@[simp] theorem Ctx.pushRes_mulPrev (r : Res) : (x.pushRes r).mulPrev = x.mulPrev := rfl
@[simp] theorem Ctx.pushRes_crd (r : Res) : (x.pushRes r).crd = x.crd := rfl
@[simp] theorem Ctx.pushRes_crdJob (r : Res) : (x.pushRes r).crdJob = x.crdJob := rfl
@[simp] theorem Ctx.pushRes_crdEnded (r : Res) : (x.pushRes r).crdEnded = x.crdEnded := rfl
@[simp] theorem Ctx.pushRes_crdRe (r : Res) : (x.pushRes r).crdRe = x.crdRe := rfl
@[simp] theorem Ctx.pushRes_col (r : Res) : (x.pushRes r).col = x.col := rfl
@[simp] theorem Ctx.pushRes_colEnded (r : Res) : (x.pushRes r).colEnded = x.colEnded := rfl
@[simp] theorem Ctx.pushRes_colFirstBad (r : Res) : (x.pushRes r).colFirstBad = x.colFirstBad := rfl
@[simp] theorem Ctx.pushRes_colBad (r : Res) : (x.pushRes r).colBad = x.colBad := rfl
@[simp] theorem Ctx.pushRes_wkEnded (r : Res) : (x.pushRes r).wkEnded = x.wkEnded := rfl
@[simp] theorem Ctx.pushRes_wkLast (r : Res) : (x.pushRes r).wkLast = x.wkLast := rfl
@[simp] theorem Ctx.pushRes_evtAcq (r : Res) : (x.pushRes r).evtAcq = x.evtAcq := rfl
@[simp] theorem Ctx.pushRes_hall (r : Res) : (x.pushRes r).hall = x.hall := rfl
@[simp] theorem Ctx.pushRes_grant (r : Res) : (x.pushRes r).grant = x.grant := rfl
@[simp] theorem Ctx.pushRes_walk (r : Res) : (x.pushRes r).walk = x.walk := rfl
@[simp] theorem Ctx.pushRes_trapAt (r : Res) : (x.pushRes r).trapAt = x.trapAt := rfl
@[simp] theorem Ctx.pushRes_hb1 (r : Res) : (x.pushRes r).hb1 = x.hb1 := rfl
@[simp] theorem Ctx.pushRes_hb2 (r : Res) : (x.pushRes r).hb2 = x.hb2 := rfl
@[simp] theorem Ctx.pushRes_vac (r : Res) : (x.pushRes r).vac = x.vac := rfl
@[simp] theorem Ctx.pushRes_rtiDone (r : Res) : (x.pushRes r).rtiDone = x.rtiDone := rfl
@[simp] theorem Ctx.pushRes_fixed (r : Res) : (x.pushRes r).fixed = insertRes r x.fixed := rfl

/-- A result reaches nothing but the registers. -/
theorem Ctx.deliver_eq (d : Dest) (v : RVal) : x.deliver d v = { x with regs := (x.deliver d v).regs } := by
  unfold Ctx.deliver
  split <;> first | rfl | (unfold Ctx.setS; split <;> rfl) | (unfold Ctx.setP; split <;> rfl) | (unfold Ctx.setQ; split <;> rfl)

@[simp] theorem Ctx.deliver_pc (d : Dest) (v : RVal) : (x.deliver d v).pc = x.pc :=
  (congrArg Ctx.pc (x.deliver_eq d v)).trans rfl
@[simp] theorem Ctx.deliver_loops (d : Dest) (v : RVal) : (x.deliver d v).loops = x.loops :=
  (congrArg Ctx.loops (x.deliver_eq d v)).trans rfl
@[simp] theorem Ctx.deliver_ctl (d : Dest) (v : RVal) : (x.deliver d v).ctl = x.ctl :=
  (congrArg Ctx.ctl (x.deliver_eq d v)).trans rfl
@[simp] theorem Ctx.deliver_ct (d : Dest) (v : RVal) : (x.deliver d v).ct = x.ct :=
  (congrArg Ctx.ct (x.deliver_eq d v)).trans rfl
@[simp] theorem Ctx.deliver_issues (d : Dest) (v : RVal) : (x.deliver d v).issues = x.issues :=
  (congrArg Ctx.issues (x.deliver_eq d v)).trans rfl
@[simp] theorem Ctx.deliver_fixed (d : Dest) (v : RVal) : (x.deliver d v).fixed = x.fixed :=
  (congrArg Ctx.fixed (x.deliver_eq d v)).trans rfl
@[simp] theorem Ctx.deliver_land (d : Dest) (v : RVal) : (x.deliver d v).land = x.land :=
  (congrArg Ctx.land (x.deliver_eq d v)).trans rfl
@[simp] theorem Ctx.deliver_uiCt (d : Dest) (v : RVal) : (x.deliver d v).uiCt = x.uiCt :=
  (congrArg Ctx.uiCt (x.deliver_eq d v)).trans rfl
@[simp] theorem Ctx.deliver_uiLand (d : Dest) (v : RVal) : (x.deliver d v).uiLand = x.uiLand :=
  (congrArg Ctx.uiLand (x.deliver_eq d v)).trans rfl
@[simp] theorem Ctx.deliver_act (d : Dest) (v : RVal) : (x.deliver d v).act = x.act :=
  (congrArg Ctx.act (x.deliver_eq d v)).trans rfl
@[simp] theorem Ctx.deliver_parkReq (d : Dest) (v : RVal) : (x.deliver d v).parkReq = x.parkReq :=
  (congrArg Ctx.parkReq (x.deliver_eq d v)).trans rfl
@[simp] theorem Ctx.deliver_boundary (d : Dest) (v : RVal) : (x.deliver d v).boundary = x.boundary :=
  (congrArg Ctx.boundary (x.deliver_eq d v)).trans rfl
@[simp] theorem Ctx.deliver_causes (d : Dest) (v : RVal) : (x.deliver d v).causes = x.causes :=
  (congrArg Ctx.causes (x.deliver_eq d v)).trans rfl
@[simp] theorem Ctx.deliver_mon (d : Dest) (v : RVal) : (x.deliver d v).mon = x.mon :=
  (congrArg Ctx.mon (x.deliver_eq d v)).trans rfl
@[simp] theorem Ctx.deliver_seg (d : Dest) (v : RVal) : (x.deliver d v).seg = x.seg :=
  (congrArg Ctx.seg (x.deliver_eq d v)).trans rfl
@[simp] theorem Ctx.deliver_rel (d : Dest) (v : RVal) : (x.deliver d v).rel = x.rel :=
  (congrArg Ctx.rel (x.deliver_eq d v)).trans rfl
@[simp] theorem Ctx.deliver_rewindFlag (d : Dest) (v : RVal) : (x.deliver d v).rewindFlag = x.rewindFlag :=
  (congrArg Ctx.rewindFlag (x.deliver_eq d v)).trans rfl
@[simp] theorem Ctx.deliver_arrivals (d : Dest) (v : RVal) : (x.deliver d v).arrivals = x.arrivals :=
  (congrArg Ctx.arrivals (x.deliver_eq d v)).trans rfl
@[simp] theorem Ctx.deliver_acc (d : Dest) (v : RVal) : (x.deliver d v).acc = x.acc :=
  (congrArg Ctx.acc (x.deliver_eq d v)).trans rfl
@[simp] theorem Ctx.deliver_deps (d : Dest) (v : RVal) : (x.deliver d v).deps = x.deps :=
  (congrArg Ctx.deps (x.deliver_eq d v)).trans rfl
@[simp] theorem Ctx.deliver_drains (d : Dest) (v : RVal) : (x.deliver d v).drains = x.drains :=
  (congrArg Ctx.drains (x.deliver_eq d v)).trans rfl
@[simp] theorem Ctx.deliver_fences (d : Dest) (v : RVal) : (x.deliver d v).fences = x.fences :=
  (congrArg Ctx.fences (x.deliver_eq d v)).trans rfl
@[simp] theorem Ctx.deliver_mtx (d : Dest) (v : RVal) : (x.deliver d v).mtx = x.mtx :=
  (congrArg Ctx.mtx (x.deliver_eq d v)).trans rfl
@[simp] theorem Ctx.deliver_dfaults (d : Dest) (v : RVal) : (x.deliver d v).dfaults = x.dfaults :=
  (congrArg Ctx.dfaults (x.deliver_eq d v)).trans rfl
@[simp] theorem Ctx.deliver_mulPrev (d : Dest) (v : RVal) : (x.deliver d v).mulPrev = x.mulPrev :=
  (congrArg Ctx.mulPrev (x.deliver_eq d v)).trans rfl
@[simp] theorem Ctx.deliver_crd (d : Dest) (v : RVal) : (x.deliver d v).crd = x.crd :=
  (congrArg Ctx.crd (x.deliver_eq d v)).trans rfl
@[simp] theorem Ctx.deliver_crdJob (d : Dest) (v : RVal) : (x.deliver d v).crdJob = x.crdJob :=
  (congrArg Ctx.crdJob (x.deliver_eq d v)).trans rfl
@[simp] theorem Ctx.deliver_crdEnded (d : Dest) (v : RVal) : (x.deliver d v).crdEnded = x.crdEnded :=
  (congrArg Ctx.crdEnded (x.deliver_eq d v)).trans rfl
@[simp] theorem Ctx.deliver_crdRe (d : Dest) (v : RVal) : (x.deliver d v).crdRe = x.crdRe :=
  (congrArg Ctx.crdRe (x.deliver_eq d v)).trans rfl
@[simp] theorem Ctx.deliver_col (d : Dest) (v : RVal) : (x.deliver d v).col = x.col :=
  (congrArg Ctx.col (x.deliver_eq d v)).trans rfl
@[simp] theorem Ctx.deliver_colEnded (d : Dest) (v : RVal) : (x.deliver d v).colEnded = x.colEnded :=
  (congrArg Ctx.colEnded (x.deliver_eq d v)).trans rfl
@[simp] theorem Ctx.deliver_colFirstBad (d : Dest) (v : RVal) : (x.deliver d v).colFirstBad = x.colFirstBad :=
  (congrArg Ctx.colFirstBad (x.deliver_eq d v)).trans rfl
@[simp] theorem Ctx.deliver_colBad (d : Dest) (v : RVal) : (x.deliver d v).colBad = x.colBad :=
  (congrArg Ctx.colBad (x.deliver_eq d v)).trans rfl
@[simp] theorem Ctx.deliver_wkEnded (d : Dest) (v : RVal) : (x.deliver d v).wkEnded = x.wkEnded :=
  (congrArg Ctx.wkEnded (x.deliver_eq d v)).trans rfl
@[simp] theorem Ctx.deliver_wkLast (d : Dest) (v : RVal) : (x.deliver d v).wkLast = x.wkLast :=
  (congrArg Ctx.wkLast (x.deliver_eq d v)).trans rfl
@[simp] theorem Ctx.deliver_evtAcq (d : Dest) (v : RVal) : (x.deliver d v).evtAcq = x.evtAcq :=
  (congrArg Ctx.evtAcq (x.deliver_eq d v)).trans rfl
@[simp] theorem Ctx.deliver_hall (d : Dest) (v : RVal) : (x.deliver d v).hall = x.hall :=
  (congrArg Ctx.hall (x.deliver_eq d v)).trans rfl
@[simp] theorem Ctx.deliver_grant (d : Dest) (v : RVal) : (x.deliver d v).grant = x.grant :=
  (congrArg Ctx.grant (x.deliver_eq d v)).trans rfl
@[simp] theorem Ctx.deliver_walk (d : Dest) (v : RVal) : (x.deliver d v).walk = x.walk :=
  (congrArg Ctx.walk (x.deliver_eq d v)).trans rfl
@[simp] theorem Ctx.deliver_trapAt (d : Dest) (v : RVal) : (x.deliver d v).trapAt = x.trapAt :=
  (congrArg Ctx.trapAt (x.deliver_eq d v)).trans rfl
@[simp] theorem Ctx.deliver_hb1 (d : Dest) (v : RVal) : (x.deliver d v).hb1 = x.hb1 :=
  (congrArg Ctx.hb1 (x.deliver_eq d v)).trans rfl
@[simp] theorem Ctx.deliver_hb2 (d : Dest) (v : RVal) : (x.deliver d v).hb2 = x.hb2 :=
  (congrArg Ctx.hb2 (x.deliver_eq d v)).trans rfl
@[simp] theorem Ctx.deliver_vac (d : Dest) (v : RVal) : (x.deliver d v).vac = x.vac :=
  (congrArg Ctx.vac (x.deliver_eq d v)).trans rfl
@[simp] theorem Ctx.deliver_rtiDone (d : Dest) (v : RVal) : (x.deliver d v).rtiDone = x.rtiDone :=
  (congrArg Ctx.rtiDone (x.deliver_eq d v)).trans rfl

/-! ### Reading what was written -/

/-- A context other than the empty one is read back. -/
theorem State.ctx_modCtx_same {s : State} {c : Nat} {f : Ctx → Ctx} (h : f (s.ctx c) ≠ .zero) :
    (s.modCtx c f).ctx c = f (s.ctx c) := mget_mset_nd h

/-- The other contexts are as before. -/
theorem State.ctx_modCtx_ne {s : State} {c d : Nat} {f : Ctx → Ctx} (h : f (s.ctx c) ≠ .zero) (hd : d ≠ c) :
    (s.modCtx c f).ctx d = s.ctx d := mget_mset_ne_nd h hd

/-- With the contexts in canonical form, any context is read back. -/
theorem State.ctx_modCtx_wf {s : State} {c : Nat} {f : Ctx → Ctx} (h : mwf .zero s.ctxs = true) :
    (s.modCtx c f).ctx c = f (s.ctx c) := mget_mset h

/-- With the contexts in canonical form, the other contexts are as before. -/
theorem State.ctx_modCtx_ne_wf {s : State} {c d : Nat} {f : Ctx → Ctx} (h : mwf .zero s.ctxs = true) (hd : d ≠ c) :
    (s.modCtx c f).ctx d = s.ctx d := mget_mset_ne h hd

/-- A context with a ticks count differs from the empty one. -/
theorem Ctx.ne_zero_of_ct {x : Ctx} (h : 0 < x.ct) : x ≠ .zero := by
  intro e; rw [e] at h; exact absurd h (by decide)

/-- A context that is not free differs from the empty one. -/
theorem Ctx.ne_zero_of_act {x : Ctx} (h : x.act ≠ .free) : x ≠ .zero := by
  intro e; rw [e] at h; exact h rfl

end Sys2Proof.Machine
end

