-- ==== Sys2Proof/Laws/Issue.lean ====
section
/-! SUPPORT. What a bundle that holds one instruction does: the one lemma about issuing that the claims about slot
instructions rest on, and what a core with nothing in flight leaves alone. -/

namespace Sys2Proof.Machine

open Sys2Proof

/-! ## Who issues -/

/-- A ready context is one whose activity is ready. -/
theorem Ctx.isReady_act {x : Ctx} (h : x.isReady = true) : x.act = .ready := by
  simpa [Ctx.isReady] using h

/-- The holder of a core's port is one of its four contexts, and ready. -/
theorem State.holder_spec {s : State} {k c : Nat} (h : s.holder k = some c) :
    coreOf c = k ∧ (s.ctx c).act = .ready := by
  revert h
  fun_cases State.holder s k with
  | case3 _ i _ d hn =>
    intro h
    obtain rfl : d = c := by simpa using h
    exact ⟨by unfold coreOf; omega, Ctx.isReady_act (by simp_all)⟩
  | _ => nofun

theorem Turn.core {s b : State} {c : Nat} (h : Turn s c b) : coreOf c = s.cur.val := (State.holder_spec h.holder).1

/-! ## Guards -/

/-- A clean predicate that passes lets the slot run under a header that predicates nothing. -/
theorem Ctx.runs_of_passes {x : Ctx} {g : Guard} (h : x.passes g) : x.runs .plain g = .yes := by
  obtain ⟨h1, h2⟩ := h
  have hb : ((x.preg g.pred).v != g.pneg) = true := by simpa using h2
  simp [Ctx.runs, Ctx.guardVal, Header.plain, Ctx.preg, pmeet] at *
  split at h1 <;> simp_all

/-! ## Issue of one instruction -/

/-- A header that is no seg bundle enters no segment. -/
@[simp] theorem State.segEntry_none (s : State) (c : Nat) (p : BitVec 3) (n r : Bool) : s.segEntry c ⟨p, n, false, r⟩ = s := by
  simp [State.segEntry]

/-- Without a closing slot and with lines to spare a plain header leaves the segment as it is. -/
theorem State.segStep_plain {s : State} {c : Nat} {ran : List Ran}
    (hc : ran.any (fun r => r.instr.closes) = false)
    (hl : ∀ g, (s.ctx c).seg = some g → g.lines.length + (ran.filter fun r => r.instr.buffered).length ≤ 64) :
    s.segStep c .plain ran = s := by
  have he : (s.ctx c).segEnds ran = false := by
    unfold Ctx.segEnds
    cases hs : (s.ctx c).seg with
    | none => simp [hc]
    | some g =>
      have := hl g hs
      simp [hc]
      omega
  unfold State.segStep
  simp [Header.plain, he]

/-- With no segment open, a plain header does nothing to segments. -/
theorem State.segStep_noSeg {s : State} {c : Nat} {ran : List Ran} (h : (s.ctx c).seg = none) :
    s.segStep c .plain ran = s := by
  unfold State.segStep State.closeSeg
  simp [Header.plain, h]

/-- A context with nothing of a closed segment left waits for no room. -/
theorem Ctx.relWait_nil {x : Ctx} (h : x.rel = []) : x.relWait = none := by
  unfold Ctx.relWait
  rw [h]

/-- A slot that issues alone and executes: nothing short, no wait, no fault, room for its landing and its command. -/
theorem exec_alone {s b : State} {c : Nat} {m : SlotM} {sl : Slot} {i : Instr} {r : SlotRes}
    (h : Turn s c b) (hg : (b.ctx c).passes i.guard) (hn : i.isNop = false) (hs : i.landShort = false)
    (hr : m (b.envAt c sl) b = r) (hw : r.wait = none) (hf : r.fault = none) (hq : r.full = none)
    (hl : i.lands = true → (b.ctx c).held < 32) (hc : i.closes = true → (b.ctx c).seg = none) :
    execSlot m sl i s = .next (b.issued c i.isMul r.flow (fun t => r.commit (r.reads t)) r.post) := by
  unfold execSlot State.issueAlone
  rw [h.holder]
  simp only [h.clear, ← h.reads]
  unfold State.issueBundle bundleOnly
  have hrun := Ctx.runs_of_passes hg
  have henv : (⟨c, sl.pos, (b.ctx c).pc + BitVec.ofNat 32 (b.pcLen c), (b.ctx c).ct, (b.ctx c).issues, none⟩ : Env) =
      b.envAt c sl := rfl
  have hseg : b.segStep c .plain [⟨sl, i, r⟩] = b := by
    cases hcl : i.closes with
    | true => exact State.segStep_noSeg (hc hcl)
    | false =>
      apply State.segStep_plain
      · simp [hcl]
      · intro g hg'
        have := h.lines g hg'
        have h2 : (([⟨sl, i, r⟩] : List Ran).filter fun r => r.instr.buffered).length ≤ 1 := List.length_filter_le _ _
        omega
  have hroom : ¬ (32 < (b.ctx c).held + (([⟨sl, i, r⟩] : List Ran).filter fun r => r.instr.lands).length ∧
      (([⟨sl, i, r⟩] : List Ran).filter fun r => r.instr.lands) ≠ []) := by
    cases hla : i.lands with
    | true =>
      have := hl hla
      simp [hla]; omega
    | false => simp [hla]
  simp only [hn, Bool.false_eq_true, if_false, Header.plain, List.filter_cons, List.filter_nil, hs, List.map_nil,
    List.isEmpty_nil, Bool.not_true, Bool.false_and, List.filterMap_cons, List.filterMap_nil, slotAnswer,
    State.segEntry_none]
  have hrun' : (b.ctx c).runs ⟨0, false, false, false⟩ i.guard = .yes := hrun
  simp only [hrun', henv, hr, List.findSome?_cons, List.findSome?_nil, hw, hf, hq, Option.map_none,
    List.any_cons, List.any_nil, Bool.or_false]
  rw [if_neg hroom]
  have hp : (Header.plain) = ⟨0, false, false, false⟩ := rfl
  rw [hp] at hseg
  have hfa : ((b.ctx c).seg.isSome && (b.ctx c).segEnds [⟨sl, i, r⟩]) = false := by
    cases hg' : (b.ctx c).seg with
    | none => rfl
    | some g =>
      have hcl : i.closes = false := by cases hcl : i.closes <;> simp_all
      have := h.lines g hg'
      have h2 : (([⟨sl, i, r⟩] : List Ran).filter fun r => r.instr.buffered).length ≤ 1 := List.length_filter_le _ _
      simp only [Ctx.segEnds, hg', List.any_cons, List.any_nil, hcl]
      simpa using by omega
  simp only [hseg, hfa, Ctx.relWait_nil h.rel]
  unfold State.commit State.issued
  have hfl : flowOf [⟨sl, i, r⟩] = r.flow := by
    unfold flowOf
    simp only [List.foldl_cons, List.foldl_nil]
    cases r.flow <;> rfl
  rw [hfl]
  rfl

/-- A slot that issues alone and only queues one fixed-latency result. -/
theorem exec_put {s b : State} {c : Nat} {m : SlotM} {sl : Slot} {i : Instr} {lat : Nat} {d : Dest} {v : RVal}
    (h : Turn s c b) (hg : (b.ctx c).passes i.guard) (hn : i.isNop = false) (hs : i.landShort = false)
    (hl : i.lands = false) (hc : i.closes = false)
    (hr : m (b.envAt c sl) b = .of ((b.envAt c sl).put lat d v)) :
    execSlot m sl i s = .next (b.issuedPut c sl i.isMul lat d v) := by
  rw [exec_alone h hg hn hs hr rfl rfl rfl (by simp [hl]) (by simp [hc])]
  rfl

/-- A slot that issues alone and faults: the fault is raised with the slot in TRAPMASK. -/
theorem exec_fault {s b : State} {c : Nat} {m : SlotM} {sl : Slot} {i : Instr} {r : SlotRes} {t : Trap}
    (h : Turn s c b) (hg : (b.ctx c).passes i.guard) (hn : i.isNop = false) (hs : i.landShort = false)
    (hr : m (b.envAt c sl) b = r) (hw : r.wait = none) (hf : r.fault = some t)
    (hl : i.lands = true → (b.ctx c).held < 32) :
    execSlot m sl i s = .next ((r.raised b).issueFault c t (maskOf [sl])) := by
  unfold execSlot State.issueAlone
  rw [h.holder]
  simp only [h.clear, ← h.reads]
  unfold State.issueBundle bundleOnly
  have henv : (⟨c, sl.pos, (b.ctx c).pc + BitVec.ofNat 32 (b.pcLen c), (b.ctx c).ct, (b.ctx c).issues, none⟩ : Env) =
      b.envAt c sl := rfl
  have hroom : ¬ (32 < (b.ctx c).held + (([⟨sl, i, r⟩] : List Ran).filter fun r => r.instr.lands).length ∧
      (([⟨sl, i, r⟩] : List Ran).filter fun r => r.instr.lands) ≠ []) := by
    cases hla : i.lands with
    | true =>
      have := hl hla
      simp [hla]; omega
    | false => simp [hla]
  have hrun' : (b.ctx c).runs ⟨0, false, false, false⟩ i.guard = .yes := Ctx.runs_of_passes hg
  simp only [hn, Bool.false_eq_true, if_false, Header.plain, List.filter_cons, List.filter_nil, hs, List.map_nil,
    List.isEmpty_nil, Bool.not_true, Bool.false_and, List.filterMap_cons, List.filterMap_nil, slotAnswer,
    State.segEntry_none]
  simp only [hrun', henv, hr, List.findSome?_cons, List.findSome?_nil, hw, hf, Option.map_some, Option.isSome_some,
    List.filter_cons, List.filter_nil, if_true, List.map_cons, List.map_nil]
  simp only [List.filter_cons, List.filter_nil] at hroom
  rw [if_neg hroom]

/-! ## A core with nothing in flight -/

/-- A context with nothing in flight has nothing to settle. -/
theorem State.settleOwn_nil {s : State} {c : Nat} : s.settleOwn c [] = s := rfl

/-- A core whose contexts have nothing in flight has nothing to settle. -/
theorem State.settleCore_quiet {s : State} {k : Nat} (h : ∀ i < 4, (s.ctx (4 * k + i)).acc = []) : s.settleCore k = s := by
  unfold State.settleCore
  simp only [List.foldl_cons, List.foldl_nil]
  rw [h 0 (by omega), State.settleOwn_nil, h 1 (by omega), State.settleOwn_nil, h 2 (by omega), State.settleOwn_nil,
    h 3 (by omega), State.settleOwn_nil]

end Sys2Proof.Machine
end

