-- ==== Sys2Proof/Laws/Memory.lean ====
section
/-! SUPPORT. The laws of global memory: every memory operation keeps the canonical form, a read after a write gives what
was written, and a write leaves every other place alone. -/

namespace Sys2Proof

variable {α : Type} [DecidableEq α]

/-- A read of a key no write of the list names gives what it gave. -/
theorem mget_msetAll_ne {d : α} {m : SMap α} {l : List (Nat × α)} {k : Nat} (h : mwf d m = true)
    (hk : ∀ e ∈ l, e.1 ≠ k) : mget d (msetAll d m l) k = mget d m k := by
  induction l generalizing m with
  | nil => rfl
  | cons e t ih =>
    show mget d (msetAll d (mset d m e.1 e.2) t) k = _
    rw [ih (mwf_mset h) fun x hx => hk x (List.mem_cons_of_mem _ hx), mget_mset_ne h (hk e (by simp)).symm]

/-- After writes to the keys `a … a + n − 1`, key `a + i` reads as written. -/
theorem mget_msetAll_range {d : α} {m : SMap α} {a n i : Nat} {f : Nat → α} (h : mwf d m = true) (hi : i < n) :
    mget d (msetAll d m ((List.range n).map fun j => (a + j, f j))) (a + i) = f i := by
  induction n with
  | zero => omega
  | succ n ih =>
    rw [List.range_succ, List.map_append, msetAll, List.foldl_append]
    show mget d (mset d (msetAll d m _) (a + n) (f n)) (a + i) = f i
    by_cases e : i = n
    · subst e; exact mget_mset (mwf_msetAll h)
    · rw [mget_mset_ne (mwf_msetAll h) (by omega)]
      exact ih (by omega)

/-- After writes to the keys `a … a + n − 1`, a key outside them reads as it did. -/
theorem mget_msetAll_range_ne {d : α} {m : SMap α} {a n k : Nat} {f : Nat → α} (h : mwf d m = true)
    (hk : k < a ∨ a + n ≤ k) :
    mget d (msetAll d m ((List.range n).map fun j => (a + j, f j))) k = mget d m k := by
  refine mget_msetAll_ne h fun e he => ?_
  obtain ⟨j, hj, rfl⟩ := List.mem_map.1 he
  have := List.mem_range.1 hj
  show a + j ≠ k
  omega

/-- Of a map whose entries are filtered by key, a key kept reads as it did and another reads the default. -/
theorem mget_mfilter_from {d : α} {m : SMap α} {p : Nat → Bool} {lo k : Nat} (h : mwfFrom d lo m = true) :
    mget d (mfilter p m) k = if p k then mget d m k else d := by
  induction m generalizing lo with
  | nil => simp [mfilter, mget]
  | cons e t ih =>
    obtain ⟨j, w⟩ := e
    simp only [mwfFrom, Bool.and_eq_true, decide_eq_true_eq] at h
    by_cases hp : p j = true
    · have e1 : mfilter p ((j, w) :: t) = (j, w) :: mfilter p t := by simp [mfilter, hp]
      rw [e1]
      simp only [mget]
      split_ifs with a b c
      · rfl
      · subst a; contradiction
      · rfl
      · rfl
      · rw [ih h.2, if_pos (by assumption)]
      · rw [ih h.2, if_neg (by assumption)]
    · have e1 : mfilter p ((j, w) :: t) = mfilter p t := by simp [mfilter, hp]
      rw [e1, ih h.2]
      simp only [mget]
      split_ifs with a b c
      · subst b; contradiction
      · exact mget_below h.2 (by omega)
      · rfl
      · rfl

theorem mget_mfilter {d : α} {m : SMap α} {p : Nat → Bool} {k : Nat} (h : mwf d m = true) :
    mget d (mfilter p m) k = if p k then mget d m k else d := mget_mfilter_from h

/-- A map shifted down reads as it did at the shifted keys. -/
theorem mget_shift {d : α} {m : SMap α} {lo k : Nat} (h : ∀ e ∈ m, lo ≤ e.1) :
    mget d (m.map fun e => (e.1 - lo, e.2)) k = mget d m (lo + k) := by
  induction m with
  | nil => rfl
  | cons e t ih =>
    obtain ⟨j, w⟩ := e
    have hj : lo ≤ j := h (j, w) (by simp)
    simp only [List.map_cons, mget]
    rw [ih fun x hx => h x (List.mem_cons_of_mem _ hx)]
    split_ifs <;> first | rfl | omega

/-- A slice reads as the map does inside it. -/
theorem mget_mslice {d : α} {m : SMap α} {lo n k : Nat} (h : mwf d m = true) :
    mget d (mslice m lo n) k = if k < n then mget d m (lo + k) else d := by
  unfold mslice
  rw [mget_shift, mget_mfilter h]
  · by_cases hk : k < n <;> simp [hk]
  · intro e he
    simp only [mfilter, List.mem_filter, Bool.and_eq_true, decide_eq_true_eq] at he
    exact he.2.1

/-- A cleared range reads the default, every other key as before. -/
theorem mget_mclear {d : α} {m : SMap α} {lo n k : Nat} (h : mwf d m = true) :
    mget d (mclear m lo n) k = if lo ≤ k ∧ k < lo + n then d else mget d m k := by
  unfold mclear
  rw [mget_mfilter h]
  by_cases a : lo ≤ k ∧ k < lo + n
  · rw [if_pos a, if_neg]; simp; omega
  · rw [if_neg a, if_pos]; simp; omega

namespace Machine

/-! ## The canonical form, operation by operation -/

/-- Reset memory lists nothing, so it is canonical. -/
theorem reset_canonical : Memory.wf State.reset.mem.hbm = true := rfl

/-- Writes of bytes one after another. -/
theorem wf_msetAll {m : List Host.Cell} {l : List (Nat × Byte)} (h : Memory.wf m = true) :
    Memory.wf (msetAll hbmDefault m l) = true := by
  unfold Memory.wf at h ⊢
  exact mwf_msetAll h

theorem Mem.setLine_hbm (m : Mem) (n : Nat) (v : LineVal) : (m.setLine n v).hbm =
    msetAll hbmDefault m.hbm ((List.range 64).map fun i => (64 * n + i, mget 0 v.data i)) := by
  unfold Mem.setLine; with_reducible rfl

theorem Mem.putHbm_wf {m : Mem} {w : WordWrite} {j : Option (BitVec 512)} (h : Memory.wf m.hbm = true) :
    Memory.wf (m.putHbm w j).hbm = true := by
  unfold Mem.putHbm
  dsimp only
  apply wf_msetAll
  split
  · exact h
  · dsimp only; exact wf_msetAll h

theorem Mem.setLine_wf {m : Mem} {n : Nat} {v : LineVal} (h : Memory.wf m.hbm = true) :
    Memory.wf (m.setLine n v).hbm = true := by
  rw [Mem.setLine_hbm]; exact wf_msetAll h

theorem Mem.fold_wf {m : Mem} {n : Nat} (h : Memory.wf m.hbm = true) : Memory.wf (m.fold n).hbm = true := by
  unfold Mem.fold
  split
  · dsimp only; exact Mem.setLine_wf h
  · exact h

/-- A list of operations that each keep the canonical form keeps it. -/
theorem Mem.foldl_wf {β : Type} {f : Mem → β → Mem} (hf : ∀ m b, Memory.wf m.hbm = true → Memory.wf (f m b).hbm = true)
    (l : List β) {m : Mem} (h : Memory.wf m.hbm = true) : Memory.wf (l.foldl f m).hbm = true := by
  induction l generalizing m with
  | nil => exact h
  | cons b t ih => exact ih (hf m b h)

theorem Mem.foldDie_wf {m : Mem} {d : Nat} (h : Memory.wf m.hbm = true) : Memory.wf (m.foldDie d).hbm = true :=
  Mem.foldl_wf (fun _ _ => Mem.fold_wf) _ h

theorem Mem.foldKey_wf {m : Mem} {k : Option (BitVec 512)} (h : Memory.wf m.hbm = true) :
    Memory.wf (m.foldKey k).hbm = true := Mem.foldl_wf (fun _ _ => Mem.fold_wf) _ h

theorem Mem.restoreLine_wf {m : Mem} {n : Nat} {b : List Byte} (h : Memory.wf m.hbm = true) :
    Memory.wf (m.restoreLine n b).hbm = true := Mem.setLine_wf h

theorem Mem.restoreRun_wf {m : Mem} {pa : Nat} {b : List Byte} (h : Memory.wf m.hbm = true) :
    Memory.wf (m.restoreRun pa b).hbm = true := Mem.foldl_wf (fun _ _ => Mem.restoreLine_wf) _ h

theorem Mem.place_wf {m : Mem} {b : List Byte} (h : Memory.wf m.hbm = true) : Memory.wf (m.place b).hbm = true := by
  unfold Mem.place; exact wf_msetAll h

/-- Operations on shadows, windows and filters leave HBM itself alone. -/
theorem Mem.setEntry_hbm (m : Mem) (n : Nat) (h : Hall) (v : LineVal) : (m.setEntry n h v).hbm = m.hbm := rfl
theorem Mem.addEntry_hbm (m : Mem) (n : Nat) (h : Hall) (v : LineVal) : (m.addEntry n h v).hbm = m.hbm := rfl
theorem Mem.putSpad_hbm (m : Mem) (k : Nat) (w : WordWrite) : (m.putSpad k w).hbm = m.hbm := by
  unfold Mem.putSpad; dsimp only; split <;> rfl
theorem Mem.putAcc_hbm (m : Mem) (i : Nat) (v : W32) (p : Option Poi) : (m.putAcc i v p).hbm = m.hbm := by
  unfold Mem.putAcc; dsimp only; split <;> rfl

/-! ## Writes of the whole machine -/

theorem State.addSig_mem (s : State) (h : Option Hall) (n : Nat) : (s.addSig h n).mem = s.mem := by
  cases h <;> rfl

/-- A change that enters lines into a signature leaves every context and the clock alone. -/
theorem State.noteRead_frame (s : State) (h : Option Hall) (pa n : Nat) :
    (s.noteRead h pa n).ctxs = s.ctxs ∧ (s.noteRead h pa n).cycle = s.cycle := by
  unfold State.noteRead
  refine List.foldlRecOn (motive := fun u : State => u.ctxs = s.ctxs ∧ u.cycle = s.cycle) _ _ ⟨rfl, rfl⟩ ?_
  intro u hu _ _
  cases h <;> exact hu

theorem State.noteT_frame (s : State) (h : Option Hall) (t : Target) (n : Nat) :
    (s.noteT h t n).ctxs = s.ctxs ∧ (s.noteT h t n).cycle = s.cycle := by
  cases t with
  | mem pa k => exact s.noteRead_frame h pa n
  | _ => exact ⟨rfl, rfl⟩

/-- A transfer that may be made reads nothing, or records that it read one entry of the object table. -/
theorem State.goRead_note {s : State} {c : Nat} {v : Word} {code : Option Code} {note : State → State}
    (h : s.goRead c v = .ok code note) : note = id ∨ ∃ t, note = fun u => u.noteT (u.who c).hall t 16 := by
  revert h
  fun_cases State.goRead s c v <;> rintro ⟨⟩
  exacts [.inl rfl, .inr ⟨_, rfl⟩]

/-- What a read of the object table leaves behind. -/
theorem State.goRead_frame {s : State} {c : Nat} {v : Word} {code : Option Code} {note : State → State}
    (h : s.goRead c v = .ok code note) (u : State) : (note u).ctxs = u.ctxs ∧ (note u).cycle = u.cycle := by
  obtain rfl | ⟨t, rfl⟩ := State.goRead_note h
  · exact ⟨rfl, rfl⟩
  · exact u.noteT_frame _ t 16

/-- Control to an address of the running object needs no read. -/
theorem State.goRead_same {s : State} {c : Nat} {v : Word} (h : v.extractLsb' 32 8 = (s.ctx c).ctl.obj) :
    s.goRead c v = .ok none id := by
  simp [State.goRead, h]

theorem State.foldl_mem {β : Type} {f : State → β → State} (hf : ∀ s b, (f s b).mem = s.mem) (l : List β) (s : State) :
    (l.foldl f s).mem = s.mem := by
  induction l generalizing s with
  | nil => rfl
  | cons b t ih => rw [List.foldl_cons, ih, hf]

/-- A list of operations that each keep memory canonical keeps it. -/
theorem State.foldl_wf {β : Type} {f : State → β → State}
    (hf : ∀ s b, Memory.wf s.mem.hbm = true → Memory.wf (f s b).mem.hbm = true)
    (l : List β) {s : State} (h : Memory.wf s.mem.hbm = true) : Memory.wf (l.foldl f s).mem.hbm = true := by
  induction l generalizing s with
  | nil => exact h
  | cons b t ih => exact ih (hf s b h)

/-- Marking what is merged changes no memory. -/
@[simp] theorem State.markMerged_mem (s : State) : s.markMerged.mem = s.mem := rfl

/-- Folding changes memory as its fold says, and nothing else of memory. -/
@[simp] theorem State.folding_mem (s : State) (f : Mem → Mem) : (s.folding f).mem = f s.mem := by
  unfold State.folding
  dsimp only
  split <;> rfl

theorem State.makeRoom_wf {s : State} {d : Nat} (h : Memory.wf s.mem.hbm = true) :
    Memory.wf (s.makeRoom d).1.mem.hbm = true := by
  unfold State.makeRoom
  split
  · exact h
  · simpa using Mem.foldDie_wf h

/-- An abort writes HBM by its undo log alone, and keeps it canonical. -/
theorem State.abortLaunch_wf {s : State} {h : Hall} {why : Why} (hm : Memory.wf s.mem.hbm = true) :
    Memory.wf (s.abortLaunch h why).mem.hbm = true := by
  unfold State.abortLaunch
  split
  · exact hm
  · rename_i l _
    split
    · have e : ∀ (m : Mem), Memory.wf m.hbm = true → Memory.wf (l.undo.foldl (fun m u => m.setLine u.line u.val) m).hbm = true :=
        fun m => Mem.foldl_wf (fun _ _ => Mem.setLine_wf) _
      have := e s.mem hm
      show Memory.wf (State.mem (List.foldl _ (List.foldl _ (List.foldl _ _ l.team) l.clusters) l.touch)).hbm = true
      rw [State.foldl_mem, State.foldl_mem, State.foldl_mem]
      · exact this
      all_goals intros; rfl
    · exact hm

/-- Aborts by conflict keep HBM canonical. -/
theorem State.conflictsOf_wf {s : State} {ns : List Nat} {but : Option Hall} {p : Launch → Bool} (hm : Memory.wf s.mem.hbm = true) :
    Memory.wf (s.conflictsOf ns but p).mem.hbm = true := by
  unfold State.conflictsOf
  refine State.foldl_wf (fun t e ht => ?_) _ hm
  dsimp only
  split
  · exact State.abortLaunch_wf ht
  · exact ht

theorem State.hitMonitors_mem (s : State) (t : Target) (only : Option Hall) : (s.hitMonitors t only).mem = s.mem := rfl

/-- A write to a launch's shadow keeps HBM canonical. -/
theorem State.writeShadow_wf {s : State} {h : Hall} {w : WordWrite} {k : Option (BitVec 512)}
    (hm : Memory.wf s.mem.hbm = true) : Memory.wf (s.writeShadow h w k).mem.hbm = true := by
  have hr := State.makeRoom_wf (d := homeDie (w.word / 8)) hm
  unfold State.writeShadow
  dsimp only
  split
  · exact hm
  · split
    · split
      · split
        · exact Mem.putHbm_wf hm
        · split
          · rename_i t he
            rw [he] at hr
            simp only [State.modMem, State.modLaunch, State.addSig]
            refine Mem.putHbm_wf ?_
            show Memory.wf (t.folding fun m => m.fold (w.word / 8)).mem.hbm = true
            rw [State.folding_mem]
            exact Mem.fold_wf hr
          · rename_i t he
            rw [he] at hr
            exact State.abortLaunch_wf hr
      · split
        · exact hm
        · split
          · rename_i t he
            rw [he] at hr
            exact hr
          · rename_i t he
            rw [he] at hr
            exact State.abortLaunch_wf hr
    · exact hm

/-- A write outside every launch keeps HBM canonical. -/
theorem State.writeHost_wf {s : State} {w : WordWrite} {k : Option (BitVec 512)}
    (hm : Memory.wf s.mem.hbm = true) : Memory.wf (s.writeHost w k).mem.hbm = true := by
  unfold State.writeHost
  dsimp only
  rw [State.hitMonitors_mem]
  refine Mem.putHbm_wf (State.conflictsOf_wf ?_)
  rw [State.folding_mem]
  exact Mem.fold_wf hm

/-- A write of global memory keeps HBM canonical. -/
theorem State.writeMem_wf {s : State} {h : Option Hall} {pa : Nat} {key : BitVec 12} {b : List PByte}
    (hm : Memory.wf s.mem.hbm = true) : Memory.wf (s.writeMem h pa key b).mem.hbm = true := by
  unfold State.writeMem
  dsimp only
  split
  · rw [State.hitMonitors_mem]
    exact State.foldl_wf (fun _ _ => State.writeShadow_wf) _ hm
  · exact State.foldl_wf (fun _ _ => State.writeHost_wf) _ hm

/-- A write of a window word leaves HBM alone. -/
theorem State.putWin_hbm (s : State) (k kind : Nat) (w : WordWrite) : (s.putWin k kind w).mem.hbm = s.mem.hbm := by
  unfold State.putWin
  dsimp only
  split
  · exact Mem.putSpad_hbm _ _ _
  · have half : ∀ (t : State) (i : Nat) (v : W32) (p : Option Poi), (t.accNow i v p).mem.hbm = t.mem.hbm :=
      fun t i v p => Mem.putAcc_hbm _ _ _ _
    split_ifs <;> simp only [half]
  · rfl
  · rfl
  · split <;> rfl
  · rfl
  · split_ifs <;> rfl
  · split <;> rfl
  · rfl

/-- A write of window bytes leaves HBM alone. -/
theorem State.writeWin_hbm (s : State) (k kind off : Nat) (b : List PByte) : (s.writeWin k kind off b).mem.hbm = s.mem.hbm := by
  unfold State.writeWin
  rw [State.hitMonitors_mem]
  generalize (splitWords [] off b).reverse = l
  induction l generalizing s with
  | nil => rfl
  | cons w t ih => rw [List.foldl_cons, ih, State.putWin_hbm]

/-- A write at any target keeps HBM canonical. -/
theorem State.writeT_wf {s : State} {h : Option Hall} {t : Target} {b : List PByte}
    (hm : Memory.wf s.mem.hbm = true) : Memory.wf (s.writeT h t b).mem.hbm = true := by
  unfold State.writeT
  split
  · exact State.writeMem_wf hm
  · rw [State.writeWin_hbm]; exact hm
  · exact hm

/-! ## Reading after a write -/

/-- A line of memory reads its bytes from HBM. -/
theorem Mem.line_byte {m : Mem} {n i : Nat} (h : Memory.wf m.hbm = true) (hi : i < 64) :
    mget 0 (m.line n).data i = mget hbmDefault m.hbm (64 * n + i) := by
  unfold Memory.wf at h
  unfold Mem.line
  exact (mget_mslice h).trans (if_pos hi)

/-- After a line is replaced it reads as its new value. -/
theorem Mem.setLine_byte {m : Mem} {n i : Nat} {v : LineVal} (h : Memory.wf m.hbm = true) (hi : i < 64) :
    mget 0 ((m.setLine n v).line n).data i = mget 0 v.data i := by
  rw [Mem.line_byte (Mem.setLine_wf h) hi, Mem.setLine_hbm]
  unfold Memory.wf at h
  exact mget_msetAll_range h hi

/-- Every byte outside the line replaced reads as it did. -/
theorem Mem.setLine_other {m : Mem} {n k : Nat} {v : LineVal} (h : Memory.wf m.hbm = true) (hk : k / 64 ≠ n) :
    mget hbmDefault (m.setLine n v).hbm k = mget hbmDefault m.hbm k := by
  rw [Mem.setLine_hbm]
  unfold Memory.wf at h
  exact mget_msetAll_range_ne h (by omega)

/-- A word written under the key its line is stored under leaves every other byte of HBM alone. -/
theorem Mem.putHbm_other {m : Mem} {w : WordWrite} {k : Nat} (h : Memory.wf m.hbm = true) (hk : k / 8 ≠ w.word) :
    mget hbmDefault (m.putHbm w (mget none m.lineKey (w.word / 8))).hbm k = mget hbmDefault m.hbm k := by
  unfold Mem.putHbm
  simp only [if_true]
  unfold Memory.wf at h
  exact mget_msetAll_range_ne h (by omega)

end Machine
end Sys2Proof
end

