-- ==== Sys2Proof/Laws/PerInstr.lean ====
section
/-! SUPPORT. Encoding and decoding agree, instruction by instruction: the slot word of a well-formed instruction fits its slot and
decodes to the instruction. -/

set_option linter.unusedSimpArgs false

namespace Sys2Proof

/-- The slot word fits the slot and decodes to the instruction. -/
def Laws.RoundTrip.Statement (i : Instr) : Prop :=
  i.wf = true → ∀ sl, i.slot = some sl → encode i < 2 ^ sl.bits ∧ decodeSlot sl (encode i) = some i

theorem Laws.RoundTrip.nop (slot : Slot) : Statement (.nop slot) := by
  intro hwf s hs; cases hs; cases slot <;> decide

theorem Laws.RoundTrip.br (o : BrArgs) : Statement (.br o) := by
  obtain ⟨g, off⟩ := o
  intro hwf sl hs; cases hs
  have he : encode (.br ⟨g, off⟩) = encC 0x01 g 0 0 off.toNat := rfl
  refine ⟨he ▸ encC_lt (by omega) (by omega) (by omega) (by omega), accept_of hwf ?_⟩
  rw [he]; unfold rawC
  rw [encC_op_bits] <;> try omega
  simp (disch := omega) only [encC_g, encC_a, encC_b, encC_imm, encC_a_bits, encC_b_bits, encC_imm_bits, encC_imm_bit, fld_high, fld_low, fld_toNat, bitsAt_high, bitsAt_low, bitsAt_zero, bitAt_high, bitAt_low, bitAt_one, Nat.zero_add, Nat.zero_mul, bitAt_b2n, bitAt_of_zero, bitAt_small, BitVec.ofNat_toNat, BitVec.setWidth_eq, Option.map_some, Option.bind_some, if_true, if_false, Bool.false_eq_true]

theorem Laws.RoundTrip.bri (o : BriArgs) : Statement (.bri o) := by
  obtain ⟨g, a, count, first⟩ := o
  intro hwf sl hs; cases hs
  have he : encode (.bri ⟨g, a, count, first⟩) = encC 0x02 g a.toNat 0 (count.toNat * 2 ^ 12 + first.toNat) := rfl
  refine ⟨he ▸ encC_lt (by omega) (by omega) (by omega) (by omega), accept_of hwf ?_⟩
  rw [he]; unfold rawC
  rw [encC_op_bits] <;> try omega
  simp (disch := omega) only [encC_g, encC_a, encC_b, encC_imm, encC_a_bits, encC_b_bits, encC_imm_bits, encC_imm_bit, fld_high, fld_low, fld_toNat, bitsAt_high, bitsAt_low, bitsAt_zero, bitAt_high, bitAt_low, bitAt_one, Nat.zero_add, Nat.zero_mul, bitAt_b2n, bitAt_of_zero, bitAt_small, BitVec.ofNat_toNat, BitVec.setWidth_eq, Option.map_some, Option.bind_some, if_true, if_false, Bool.false_eq_true]

theorem Laws.RoundTrip.call (o : CallArgs) : Statement (.call o) := by
  obtain ⟨g, b, off⟩ := o
  intro hwf sl hs; cases hs
  have he : encode (.call ⟨g, b, off⟩) = encC 0x03 g 0 b.toNat off.toNat := rfl
  refine ⟨he ▸ encC_lt (by omega) (by omega) (by omega) (by omega), accept_of hwf ?_⟩
  rw [he]; unfold rawC
  rw [encC_op_bits] <;> try omega
  simp (disch := omega) only [encC_g, encC_a, encC_b, encC_imm, encC_a_bits, encC_b_bits, encC_imm_bits, encC_imm_bit, fld_high, fld_low, fld_toNat, bitsAt_high, bitsAt_low, bitsAt_zero, bitAt_high, bitAt_low, bitAt_one, Nat.zero_add, Nat.zero_mul, bitAt_b2n, bitAt_of_zero, bitAt_small, BitVec.ofNat_toNat, BitVec.setWidth_eq, Option.map_some, Option.bind_some, if_true, if_false, Bool.false_eq_true]

theorem Laws.RoundTrip.callx (o : CallxArgs) : Statement (.callx o) := by
  obtain ⟨g, a, b, scope⟩ := o
  have := scope.code_lt
  intro hwf sl hs; cases hs
  have he : encode (.callx ⟨g, a, b, scope⟩) = encC 0x04 g a.toNat b.toNat scope.code := rfl
  refine ⟨he ▸ encC_lt (by omega) (by omega) (by omega) (by omega), accept_of hwf ?_⟩
  rw [he]; unfold rawC
  rw [encC_op_bits] <;> try omega
  simp (disch := omega) only [encC_g, encC_a, encC_b, encC_imm, encC_a_bits, encC_b_bits, encC_imm_bits, encC_imm_bit, Scope.ofCode_code, fld_high, fld_low, fld_toNat, bitsAt_high, bitsAt_low, bitsAt_zero, bitAt_high, bitAt_low, bitAt_one, Nat.zero_add, Nat.zero_mul, bitAt_b2n, bitAt_of_zero, bitAt_small, BitVec.ofNat_toNat, BitVec.setWidth_eq, Option.map_some, Option.bind_some, if_true, if_false, Bool.false_eq_true]

theorem Laws.RoundTrip.ret (o : CRegArgs) : Statement (.ret o) := by
  obtain ⟨g, a⟩ := o
  intro hwf sl hs; cases hs
  have he : encode (.ret ⟨g, a⟩) = encC 0x05 g a.toNat 0 0 := rfl
  refine ⟨he ▸ encC_lt (by omega) (by omega) (by omega) (by omega), accept_of hwf ?_⟩
  rw [he]; unfold rawC
  rw [encC_op_bits] <;> try omega
  simp (disch := omega) only [encC_g, encC_a, encC_b, encC_imm, encC_a_bits, encC_b_bits, encC_imm_bits, encC_imm_bit, fld_high, fld_low, fld_toNat, bitsAt_high, bitsAt_low, bitsAt_zero, bitAt_high, bitAt_low, bitAt_one, Nat.zero_add, Nat.zero_mul, bitAt_b2n, bitAt_of_zero, bitAt_small, BitVec.ofNat_toNat, BitVec.setWidth_eq, Option.map_some, Option.bind_some, if_true, if_false, Bool.false_eq_true]

theorem Laws.RoundTrip.loop (o : LoopArgs) : Statement (.loop o) := by
  obtain ⟨g, count, off⟩ := o
  intro hwf sl hs; cases hs
  have he : encode (.loop ⟨g, count, off⟩) = encC 0x06 g 0 0 (count.toNat * 2 ^ 12 + off.toNat) := rfl
  refine ⟨he ▸ encC_lt (by omega) (by omega) (by omega) (by omega), accept_of hwf ?_⟩
  rw [he]; unfold rawC
  rw [encC_op_bits] <;> try omega
  simp (disch := omega) only [encC_g, encC_a, encC_b, encC_imm, encC_a_bits, encC_b_bits, encC_imm_bits, encC_imm_bit, fld_high, fld_low, fld_toNat, bitsAt_high, bitsAt_low, bitsAt_zero, bitAt_high, bitAt_low, bitAt_one, Nat.zero_add, Nat.zero_mul, bitAt_b2n, bitAt_of_zero, bitAt_small, BitVec.ofNat_toNat, BitVec.setWidth_eq, Option.map_some, Option.bind_some, if_true, if_false, Bool.false_eq_true]

theorem Laws.RoundTrip.loopr (o : LooprArgs) : Statement (.loopr o) := by
  obtain ⟨g, a, off⟩ := o
  intro hwf sl hs; cases hs
  have he : encode (.loopr ⟨g, a, off⟩) = encC 0x07 g a.toNat 0 off.toNat := rfl
  refine ⟨he ▸ encC_lt (by omega) (by omega) (by omega) (by omega), accept_of hwf ?_⟩
  rw [he]; unfold rawC
  rw [encC_op_bits] <;> try omega
  simp (disch := omega) only [encC_g, encC_a, encC_b, encC_imm, encC_a_bits, encC_b_bits, encC_imm_bits, encC_imm_bit, fld_high, fld_low, fld_toNat, bitsAt_high, bitsAt_low, bitsAt_zero, bitAt_high, bitAt_low, bitAt_one, Nat.zero_add, Nat.zero_mul, bitAt_b2n, bitAt_of_zero, bitAt_small, BitVec.ofNat_toNat, BitVec.setWidth_eq, Option.map_some, Option.bind_some, if_true, if_false, Bool.false_eq_true]

theorem Laws.RoundTrip.lexit (g : Guard) : Statement (.lexit g) := by
  intro hwf sl hs; cases hs
  have he : encode (.lexit g) = encC 0x08 g 0 0 0 := rfl
  refine ⟨he ▸ encC_lt (by omega) (by omega) (by omega) (by omega), accept_of hwf ?_⟩
  rw [he]; unfold rawC
  rw [encC_op_bits] <;> try omega
  simp (disch := omega) only [encC_g, encC_a, encC_b, encC_imm, encC_a_bits, encC_b_bits, encC_imm_bits, encC_imm_bit, fld_high, fld_low, fld_toNat, bitsAt_high, bitsAt_low, bitsAt_zero, bitAt_high, bitAt_low, bitAt_one, Nat.zero_add, Nat.zero_mul, bitAt_b2n, bitAt_of_zero, bitAt_small, BitVec.ofNat_toNat, BitVec.setWidth_eq, Option.map_some, Option.bind_some, if_true, if_false, Bool.false_eq_true]

theorem Laws.RoundTrip.yield (o : YieldArgs) : Statement (.yield o) := by
  obtain ⟨g, beat⟩ := o
  have := b2n_lt beat
  intro hwf sl hs; cases hs
  have he : encode (.yield ⟨g, beat⟩) = encC 0x09 g 0 0 (b2n beat) := rfl
  refine ⟨he ▸ encC_lt (by omega) (by omega) (by omega) (by omega), accept_of hwf ?_⟩
  rw [he]; unfold rawC
  rw [encC_op_bits] <;> try omega
  simp (disch := omega) only [encC_g, encC_a, encC_b, encC_imm, encC_a_bits, encC_b_bits, encC_imm_bits, encC_imm_bit, fld_high, fld_low, fld_toNat, bitsAt_high, bitsAt_low, bitsAt_zero, bitAt_high, bitAt_low, bitAt_one, Nat.zero_add, Nat.zero_mul, bitAt_b2n, bitAt_of_zero, bitAt_small, BitVec.ofNat_toNat, BitVec.setWidth_eq, Option.map_some, Option.bind_some, if_true, if_false, Bool.false_eq_true]

theorem Laws.RoundTrip.halt (g : Guard) : Statement (.halt g) := by
  intro hwf sl hs; cases hs
  have he : encode (.halt g) = encC 0x0A g 0 0 0 := rfl
  refine ⟨he ▸ encC_lt (by omega) (by omega) (by omega) (by omega), accept_of hwf ?_⟩
  rw [he]; unfold rawC
  rw [encC_op_bits] <;> try omega
  simp (disch := omega) only [encC_g, encC_a, encC_b, encC_imm, encC_a_bits, encC_b_bits, encC_imm_bits, encC_imm_bit, fld_high, fld_low, fld_toNat, bitsAt_high, bitsAt_low, bitsAt_zero, bitAt_high, bitAt_low, bitAt_one, Nat.zero_add, Nat.zero_mul, bitAt_b2n, bitAt_of_zero, bitAt_small, BitVec.ofNat_toNat, BitVec.setWidth_eq, Option.map_some, Option.bind_some, if_true, if_false, Bool.false_eq_true]

theorem Laws.RoundTrip.trap (o : TrapArgs) : Statement (.trap o) := by
  obtain ⟨g, imm⟩ := o
  intro hwf sl hs; cases hs
  have he : encode (.trap ⟨g, imm⟩) = encC 0x0B g 0 0 imm.toNat := rfl
  refine ⟨he ▸ encC_lt (by omega) (by omega) (by omega) (by omega), accept_of hwf ?_⟩
  rw [he]; unfold rawC
  rw [encC_op_bits] <;> try omega
  simp (disch := omega) only [encC_g, encC_a, encC_b, encC_imm, encC_a_bits, encC_b_bits, encC_imm_bits, encC_imm_bit, fld_high, fld_low, fld_toNat, bitsAt_high, bitsAt_low, bitsAt_zero, bitAt_high, bitAt_low, bitAt_one, Nat.zero_add, Nat.zero_mul, bitAt_b2n, bitAt_of_zero, bitAt_small, BitVec.ofNat_toNat, BitVec.setWidth_eq, Option.map_some, Option.bind_some, if_true, if_false, Bool.false_eq_true]

theorem Laws.RoundTrip.rti (g : Guard) : Statement (.rti g) := by
  intro hwf sl hs; cases hs
  have he : encode (.rti g) = encC 0x0C g 0 0 0 := rfl
  refine ⟨he ▸ encC_lt (by omega) (by omega) (by omega) (by omega), accept_of hwf ?_⟩
  rw [he]; unfold rawC
  rw [encC_op_bits] <;> try omega
  simp (disch := omega) only [encC_g, encC_a, encC_b, encC_imm, encC_a_bits, encC_b_bits, encC_imm_bits, encC_imm_bit, fld_high, fld_low, fld_toNat, bitsAt_high, bitsAt_low, bitsAt_zero, bitAt_high, bitAt_low, bitAt_one, Nat.zero_add, Nat.zero_mul, bitAt_b2n, bitAt_of_zero, bitAt_small, BitVec.ofNat_toNat, BitVec.setWidth_eq, Option.map_some, Option.bind_some, if_true, if_false, Bool.false_eq_true]

theorem Laws.RoundTrip.marm (o : CRegArgs) : Statement (.marm o) := by
  obtain ⟨g, a⟩ := o
  intro hwf sl hs; cases hs
  have he : encode (.marm ⟨g, a⟩) = encC 0x0D g a.toNat 0 0 := rfl
  refine ⟨he ▸ encC_lt (by omega) (by omega) (by omega) (by omega), accept_of hwf ?_⟩
  rw [he]; unfold rawC
  rw [encC_op_bits] <;> try omega
  simp (disch := omega) only [encC_g, encC_a, encC_b, encC_imm, encC_a_bits, encC_b_bits, encC_imm_bits, encC_imm_bit, fld_high, fld_low, fld_toNat, bitsAt_high, bitsAt_low, bitsAt_zero, bitAt_high, bitAt_low, bitAt_one, Nat.zero_add, Nat.zero_mul, bitAt_b2n, bitAt_of_zero, bitAt_small, BitVec.ofNat_toNat, BitVec.setWidth_eq, Option.map_some, Option.bind_some, if_true, if_false, Bool.false_eq_true]

theorem Laws.RoundTrip.mwait (o : MwaitArgs) : Statement (.mwait o) := by
  obtain ⟨g, a, timeout⟩ := o
  intro hwf sl hs; cases hs
  have he : encode (.mwait ⟨g, a, timeout⟩) = encC 0x0E g a.toNat 0 timeout.toNat := rfl
  refine ⟨he ▸ encC_lt (by omega) (by omega) (by omega) (by omega), accept_of hwf ?_⟩
  rw [he]; unfold rawC
  rw [encC_op_bits] <;> try omega
  simp (disch := omega) only [encC_g, encC_a, encC_b, encC_imm, encC_a_bits, encC_b_bits, encC_imm_bits, encC_imm_bit, fld_high, fld_low, fld_toNat, bitsAt_high, bitsAt_low, bitsAt_zero, bitAt_high, bitAt_low, bitAt_one, Nat.zero_add, Nat.zero_mul, bitAt_b2n, bitAt_of_zero, bitAt_small, BitVec.ofNat_toNat, BitVec.setWidth_eq, Option.map_some, Option.bind_some, if_true, if_false, Bool.false_eq_true]

theorem Laws.RoundTrip.mdisarm (g : Guard) : Statement (.mdisarm g) := by
  intro hwf sl hs; cases hs
  have he : encode (.mdisarm g) = encC 0x0F g 0 0 0 := rfl
  refine ⟨he ▸ encC_lt (by omega) (by omega) (by omega) (by omega), accept_of hwf ?_⟩
  rw [he]; unfold rawC
  rw [encC_op_bits] <;> try omega
  simp (disch := omega) only [encC_g, encC_a, encC_b, encC_imm, encC_a_bits, encC_b_bits, encC_imm_bits, encC_imm_bit, fld_high, fld_low, fld_toNat, bitsAt_high, bitsAt_low, bitsAt_zero, bitAt_high, bitAt_low, bitAt_one, Nat.zero_add, Nat.zero_mul, bitAt_b2n, bitAt_of_zero, bitAt_small, BitVec.ofNat_toNat, BitVec.setWidth_eq, Option.map_some, Option.bind_some, if_true, if_false, Bool.false_eq_true]

theorem Laws.RoundTrip.bar (o : BarArgs) : Statement (.bar o) := by
  obtain ⟨g, num, scope⟩ := o
  have := scope.code_lt
  intro hwf sl hs; cases hs
  have he : encode (.bar ⟨g, num, scope⟩) = encC 0x10 g 0 0 (scope.code * 2 ^ 4 + num.toNat) := rfl
  refine ⟨he ▸ encC_lt (by omega) (by omega) (by omega) (by omega), accept_of hwf ?_⟩
  rw [he]; unfold rawC
  rw [encC_op_bits] <;> try omega
  simp (disch := omega) only [encC_g, encC_a, encC_b, encC_imm, encC_a_bits, encC_b_bits, encC_imm_bits, encC_imm_bit, Scope.ofCode_code, fld_high, fld_low, fld_toNat, bitsAt_high, bitsAt_low, bitsAt_zero, bitAt_high, bitAt_low, bitAt_one, Nat.zero_add, Nat.zero_mul, bitAt_b2n, bitAt_of_zero, bitAt_small, BitVec.ofNat_toNat, BitVec.setWidth_eq, Option.map_some, Option.bind_some, if_true, if_false, Bool.false_eq_true]

theorem Laws.RoundTrip.bara (o : BarArgs) : Statement (.bara o) := by
  obtain ⟨g, num, scope⟩ := o
  have := scope.code_lt
  intro hwf sl hs; cases hs
  have he : encode (.bara ⟨g, num, scope⟩) = encC 0x11 g 0 0 (scope.code * 2 ^ 4 + num.toNat) := rfl
  refine ⟨he ▸ encC_lt (by omega) (by omega) (by omega) (by omega), accept_of hwf ?_⟩
  rw [he]; unfold rawC
  rw [encC_op_bits] <;> try omega
  simp (disch := omega) only [encC_g, encC_a, encC_b, encC_imm, encC_a_bits, encC_b_bits, encC_imm_bits, encC_imm_bit, Scope.ofCode_code, fld_high, fld_low, fld_toNat, bitsAt_high, bitsAt_low, bitsAt_zero, bitAt_high, bitAt_low, bitAt_one, Nat.zero_add, Nat.zero_mul, bitAt_b2n, bitAt_of_zero, bitAt_small, BitVec.ofNat_toNat, BitVec.setWidth_eq, Option.map_some, Option.bind_some, if_true, if_false, Bool.false_eq_true]

theorem Laws.RoundTrip.barw (o : BarArgs) : Statement (.barw o) := by
  obtain ⟨g, num, scope⟩ := o
  have := scope.code_lt
  intro hwf sl hs; cases hs
  have he : encode (.barw ⟨g, num, scope⟩) = encC 0x12 g 0 0 (scope.code * 2 ^ 4 + num.toNat) := rfl
  refine ⟨he ▸ encC_lt (by omega) (by omega) (by omega) (by omega), accept_of hwf ?_⟩
  rw [he]; unfold rawC
  rw [encC_op_bits] <;> try omega
  simp (disch := omega) only [encC_g, encC_a, encC_b, encC_imm, encC_a_bits, encC_b_bits, encC_imm_bits, encC_imm_bit, Scope.ofCode_code, fld_high, fld_low, fld_toNat, bitsAt_high, bitsAt_low, bitsAt_zero, bitAt_high, bitAt_low, bitAt_one, Nat.zero_add, Nat.zero_mul, bitAt_b2n, bitAt_of_zero, bitAt_small, BitVec.ofNat_toNat, BitVec.setWidth_eq, Option.map_some, Option.bind_some, if_true, if_false, Bool.false_eq_true]

theorem Laws.RoundTrip.drain (o : DrainArgs) : Statement (.drain o) := by
  obtain ⟨g, scope⟩ := o
  have := scope.code_lt
  intro hwf sl hs; cases hs
  have he : encode (.drain ⟨g, scope⟩) = encC 0x13 g 0 0 scope.code := rfl
  refine ⟨he ▸ encC_lt (by omega) (by omega) (by omega) (by omega), accept_of hwf ?_⟩
  rw [he]; unfold rawC
  rw [encC_op_bits] <;> try omega
  simp (disch := omega) only [encC_g, encC_a, encC_b, encC_imm, encC_a_bits, encC_b_bits, encC_imm_bits, encC_imm_bit, Scope.ofCode_code, fld_high, fld_low, fld_toNat, bitsAt_high, bitsAt_low, bitsAt_zero, bitAt_high, bitAt_low, bitAt_one, Nat.zero_add, Nat.zero_mul, bitAt_b2n, bitAt_of_zero, bitAt_small, BitVec.ofNat_toNat, BitVec.setWidth_eq, Option.map_some, Option.bind_some, if_true, if_false, Bool.false_eq_true]

theorem Laws.RoundTrip.fence (o : FenceArgs) : Statement (.fence o) := by
  obtain ⟨g, a, b⟩ := o
  have := a.code_lt
  have := b.code_lt
  intro hwf sl hs; cases hs
  have he : encode (.fence ⟨g, a, b⟩) = encC 0x14 g 0 0 (b.code * 2 ^ 3 + a.code) := rfl
  refine ⟨he ▸ encC_lt (by omega) (by omega) (by omega) (by omega), accept_of hwf ?_⟩
  rw [he]; unfold rawC
  rw [encC_op_bits] <;> try omega
  simp (disch := omega) only [encC_g, encC_a, encC_b, encC_imm, encC_a_bits, encC_b_bits, encC_imm_bits, encC_imm_bit, EngClass.ofCode_code, fld_high, fld_low, fld_toNat, bitsAt_high, bitsAt_low, bitsAt_zero, bitAt_high, bitAt_low, bitAt_one, Nat.zero_add, Nat.zero_mul, bitAt_b2n, bitAt_of_zero, bitAt_small, BitVec.ofNat_toNat, BitVec.setWidth_eq, Option.map_some, Option.bind_some, if_true, if_false, Bool.false_eq_true]

theorem Laws.RoundTrip.pand (o : PBinArgs) : Statement (.pand o) := by
  obtain ⟨g, pd, pa, pb⟩ := o
  intro hwf sl hs; cases hs
  have he : encode (.pand ⟨g, pd, pa, pb⟩) = encC 0x15 g pd.toNat pa.toNat pb.toNat := rfl
  refine ⟨he ▸ encC_lt (by omega) (by omega) (by omega) (by omega), accept_of hwf ?_⟩
  rw [he]; unfold rawC
  rw [encC_op_bits] <;> try omega
  simp (disch := omega) only [encC_g, encC_a, encC_b, encC_imm, encC_a_bits, encC_b_bits, encC_imm_bits, encC_imm_bit, fld_high, fld_low, fld_toNat, bitsAt_high, bitsAt_low, bitsAt_zero, bitAt_high, bitAt_low, bitAt_one, Nat.zero_add, Nat.zero_mul, bitAt_b2n, bitAt_of_zero, bitAt_small, BitVec.ofNat_toNat, BitVec.setWidth_eq, Option.map_some, Option.bind_some, if_true, if_false, Bool.false_eq_true]

theorem Laws.RoundTrip.por (o : PBinArgs) : Statement (.por o) := by
  obtain ⟨g, pd, pa, pb⟩ := o
  intro hwf sl hs; cases hs
  have he : encode (.por ⟨g, pd, pa, pb⟩) = encC 0x16 g pd.toNat pa.toNat pb.toNat := rfl
  refine ⟨he ▸ encC_lt (by omega) (by omega) (by omega) (by omega), accept_of hwf ?_⟩
  rw [he]; unfold rawC
  rw [encC_op_bits] <;> try omega
  simp (disch := omega) only [encC_g, encC_a, encC_b, encC_imm, encC_a_bits, encC_b_bits, encC_imm_bits, encC_imm_bit, fld_high, fld_low, fld_toNat, bitsAt_high, bitsAt_low, bitsAt_zero, bitAt_high, bitAt_low, bitAt_one, Nat.zero_add, Nat.zero_mul, bitAt_b2n, bitAt_of_zero, bitAt_small, BitVec.ofNat_toNat, BitVec.setWidth_eq, Option.map_some, Option.bind_some, if_true, if_false, Bool.false_eq_true]

theorem Laws.RoundTrip.pxor (o : PBinArgs) : Statement (.pxor o) := by
  obtain ⟨g, pd, pa, pb⟩ := o
  intro hwf sl hs; cases hs
  have he : encode (.pxor ⟨g, pd, pa, pb⟩) = encC 0x17 g pd.toNat pa.toNat pb.toNat := rfl
  refine ⟨he ▸ encC_lt (by omega) (by omega) (by omega) (by omega), accept_of hwf ?_⟩
  rw [he]; unfold rawC
  rw [encC_op_bits] <;> try omega
  simp (disch := omega) only [encC_g, encC_a, encC_b, encC_imm, encC_a_bits, encC_b_bits, encC_imm_bits, encC_imm_bit, fld_high, fld_low, fld_toNat, bitsAt_high, bitsAt_low, bitsAt_zero, bitAt_high, bitAt_low, bitAt_one, Nat.zero_add, Nat.zero_mul, bitAt_b2n, bitAt_of_zero, bitAt_small, BitVec.ofNat_toNat, BitVec.setWidth_eq, Option.map_some, Option.bind_some, if_true, if_false, Bool.false_eq_true]

theorem Laws.RoundTrip.pnot (o : PNotArgs) : Statement (.pnot o) := by
  obtain ⟨g, pd, pa⟩ := o
  intro hwf sl hs; cases hs
  have he : encode (.pnot ⟨g, pd, pa⟩) = encC 0x18 g pd.toNat pa.toNat 0 := rfl
  refine ⟨he ▸ encC_lt (by omega) (by omega) (by omega) (by omega), accept_of hwf ?_⟩
  rw [he]; unfold rawC
  rw [encC_op_bits] <;> try omega
  simp (disch := omega) only [encC_g, encC_a, encC_b, encC_imm, encC_a_bits, encC_b_bits, encC_imm_bits, encC_imm_bit, fld_high, fld_low, fld_toNat, bitsAt_high, bitsAt_low, bitsAt_zero, bitAt_high, bitAt_low, bitAt_one, Nat.zero_add, Nat.zero_mul, bitAt_b2n, bitAt_of_zero, bitAt_small, BitVec.ofNat_toNat, BitVec.setWidth_eq, Option.map_some, Option.bind_some, if_true, if_false, Bool.false_eq_true]

theorem Laws.RoundTrip.mfc (o : CtlArgs) : Statement (.mfc o) := by
  obtain ⟨g, a, reg⟩ := o
  intro hwf sl hs; cases hs
  have he : encode (.mfc ⟨g, a, reg⟩) = encC 0x19 g a.toNat 0 reg.toNat := rfl
  refine ⟨he ▸ encC_lt (by omega) (by omega) (by omega) (by omega), accept_of hwf ?_⟩
  rw [he]; unfold rawC
  rw [encC_op_bits] <;> try omega
  simp (disch := omega) only [encC_g, encC_a, encC_b, encC_imm, encC_a_bits, encC_b_bits, encC_imm_bits, encC_imm_bit, fld_high, fld_low, fld_toNat, bitsAt_high, bitsAt_low, bitsAt_zero, bitAt_high, bitAt_low, bitAt_one, Nat.zero_add, Nat.zero_mul, bitAt_b2n, bitAt_of_zero, bitAt_small, BitVec.ofNat_toNat, BitVec.setWidth_eq, Option.map_some, Option.bind_some, if_true, if_false, Bool.false_eq_true]

theorem Laws.RoundTrip.mtc (o : CtlArgs) : Statement (.mtc o) := by
  obtain ⟨g, a, reg⟩ := o
  intro hwf sl hs; cases hs
  have he : encode (.mtc ⟨g, a, reg⟩) = encC 0x1A g a.toNat 0 reg.toNat := rfl
  refine ⟨he ▸ encC_lt (by omega) (by omega) (by omega) (by omega), accept_of hwf ?_⟩
  rw [he]; unfold rawC
  rw [encC_op_bits] <;> try omega
  simp (disch := omega) only [encC_g, encC_a, encC_b, encC_imm, encC_a_bits, encC_b_bits, encC_imm_bits, encC_imm_bit, fld_high, fld_low, fld_toNat, bitsAt_high, bitsAt_low, bitsAt_zero, bitAt_high, bitAt_low, bitAt_one, Nat.zero_add, Nat.zero_mul, bitAt_b2n, bitAt_of_zero, bitAt_small, BitVec.ofNat_toNat, BitVec.setWidth_eq, Option.map_some, Option.bind_some, if_true, if_false, Bool.false_eq_true]

theorem Laws.RoundTrip.uien (g : Guard) : Statement (.uien g) := by
  intro hwf sl hs; cases hs
  have he : encode (.uien g) = encC 0x1B g 0 0 0 := rfl
  refine ⟨he ▸ encC_lt (by omega) (by omega) (by omega) (by omega), accept_of hwf ?_⟩
  rw [he]; unfold rawC
  rw [encC_op_bits] <;> try omega
  simp (disch := omega) only [encC_g, encC_a, encC_b, encC_imm, encC_a_bits, encC_b_bits, encC_imm_bits, encC_imm_bit, fld_high, fld_low, fld_toNat, bitsAt_high, bitsAt_low, bitsAt_zero, bitAt_high, bitAt_low, bitAt_one, Nat.zero_add, Nat.zero_mul, bitAt_b2n, bitAt_of_zero, bitAt_small, BitVec.ofNat_toNat, BitVec.setWidth_eq, Option.map_some, Option.bind_some, if_true, if_false, Bool.false_eq_true]

theorem Laws.RoundTrip.uidis (g : Guard) : Statement (.uidis g) := by
  intro hwf sl hs; cases hs
  have he : encode (.uidis g) = encC 0x1C g 0 0 0 := rfl
  refine ⟨he ▸ encC_lt (by omega) (by omega) (by omega) (by omega), accept_of hwf ?_⟩
  rw [he]; unfold rawC
  rw [encC_op_bits] <;> try omega
  simp (disch := omega) only [encC_g, encC_a, encC_b, encC_imm, encC_a_bits, encC_b_bits, encC_imm_bits, encC_imm_bit, fld_high, fld_low, fld_toNat, bitsAt_high, bitsAt_low, bitsAt_zero, bitAt_high, bitAt_low, bitAt_one, Nat.zero_add, Nat.zero_mul, bitAt_b2n, bitAt_of_zero, bitAt_small, BitVec.ofNat_toNat, BitVec.setWidth_eq, Option.map_some, Option.bind_some, if_true, if_false, Bool.false_eq_true]

theorem Laws.RoundTrip.lidx (o : LidxArgs) : Statement (.lidx o) := by
  obtain ⟨g, a, k⟩ := o
  intro hwf sl hs; cases hs
  have he : encode (.lidx ⟨g, a, k⟩) = encC 0x1D g a.toNat 0 k.toNat := rfl
  refine ⟨he ▸ encC_lt (by omega) (by omega) (by omega) (by omega), accept_of hwf ?_⟩
  rw [he]; unfold rawC
  rw [encC_op_bits] <;> try omega
  simp (disch := omega) only [encC_g, encC_a, encC_b, encC_imm, encC_a_bits, encC_b_bits, encC_imm_bits, encC_imm_bit, fld_high, fld_low, fld_toNat, bitsAt_high, bitsAt_low, bitsAt_zero, bitAt_high, bitAt_low, bitAt_one, Nat.zero_add, Nat.zero_mul, bitAt_b2n, bitAt_of_zero, bitAt_small, BitVec.ofNat_toNat, BitVec.setWidth_eq, Option.map_some, Option.bind_some, if_true, if_false, Bool.false_eq_true]

theorem Laws.RoundTrip.add (o : SRArgs) : Statement (.add o) := by
  obtain ⟨pos, g, d, a, b⟩ := o
  cases pos
  · intro hwf sl hs; cases hs
    have he : encode (.add ⟨.s0, g, d, a, b⟩) = encS 0x01 g d.toNat a.toNat (b.toNat * 2 ^ 10 + 0) := rfl
    refine ⟨he ▸ encS_lt (by omega) (by omega) (by omega) (by omega), accept_of hwf ?_⟩
    rw [he]; unfold rawS
    rw [encS_op_bits] <;> try omega
    simp (disch := omega) only [encS_g, encS_d, encS_a, encS_lo, encS_d_bits, encS_a_bits, encS_lo_bits, encS_lo_bit, fld_high, fld_low, fld_toNat, bitsAt_high, bitsAt_low, bitsAt_zero, bitAt_high, bitAt_low, bitAt_one, Nat.zero_add, Nat.zero_mul, bitAt_b2n, bitAt_of_zero, bitAt_small, BitVec.ofNat_toNat, BitVec.setWidth_eq, Option.map_some, Option.bind_some, if_true, if_false, Bool.false_eq_true]
  · intro hwf sl hs; cases hs
    have he : encode (.add ⟨.s1, g, d, a, b⟩) = encS 0x01 g d.toNat a.toNat (b.toNat * 2 ^ 10 + 0) := rfl
    refine ⟨he ▸ encS_lt (by omega) (by omega) (by omega) (by omega), accept_of hwf ?_⟩
    rw [he]; unfold rawS
    rw [encS_op_bits] <;> try omega
    simp (disch := omega) only [encS_g, encS_d, encS_a, encS_lo, encS_d_bits, encS_a_bits, encS_lo_bits, encS_lo_bit, fld_high, fld_low, fld_toNat, bitsAt_high, bitsAt_low, bitsAt_zero, bitAt_high, bitAt_low, bitAt_one, Nat.zero_add, Nat.zero_mul, bitAt_b2n, bitAt_of_zero, bitAt_small, BitVec.ofNat_toNat, BitVec.setWidth_eq, Option.map_some, Option.bind_some, if_true, if_false, Bool.false_eq_true]

theorem Laws.RoundTrip.addi (o : SIArgs) : Statement (.addi o) := by
  obtain ⟨pos, g, d, a, imm⟩ := o
  cases pos
  · intro hwf sl hs; cases hs
    have he : encode (.addi ⟨.s0, g, d, a, imm⟩) = encS 0x02 g d.toNat a.toNat imm.toNat := rfl
    refine ⟨he ▸ encS_lt (by omega) (by omega) (by omega) (by omega), accept_of hwf ?_⟩
    rw [he]; unfold rawS
    rw [encS_op_bits] <;> try omega
    simp (disch := omega) only [encS_g, encS_d, encS_a, encS_lo, encS_d_bits, encS_a_bits, encS_lo_bits, encS_lo_bit, fld_high, fld_low, fld_toNat, bitsAt_high, bitsAt_low, bitsAt_zero, bitAt_high, bitAt_low, bitAt_one, Nat.zero_add, Nat.zero_mul, bitAt_b2n, bitAt_of_zero, bitAt_small, BitVec.ofNat_toNat, BitVec.setWidth_eq, Option.map_some, Option.bind_some, if_true, if_false, Bool.false_eq_true]
  · intro hwf sl hs; cases hs
    have he : encode (.addi ⟨.s1, g, d, a, imm⟩) = encS 0x02 g d.toNat a.toNat imm.toNat := rfl
    refine ⟨he ▸ encS_lt (by omega) (by omega) (by omega) (by omega), accept_of hwf ?_⟩
    rw [he]; unfold rawS
    rw [encS_op_bits] <;> try omega
    simp (disch := omega) only [encS_g, encS_d, encS_a, encS_lo, encS_d_bits, encS_a_bits, encS_lo_bits, encS_lo_bit, fld_high, fld_low, fld_toNat, bitsAt_high, bitsAt_low, bitsAt_zero, bitAt_high, bitAt_low, bitAt_one, Nat.zero_add, Nat.zero_mul, bitAt_b2n, bitAt_of_zero, bitAt_small, BitVec.ofNat_toNat, BitVec.setWidth_eq, Option.map_some, Option.bind_some, if_true, if_false, Bool.false_eq_true]

theorem Laws.RoundTrip.sub (o : SRArgs) : Statement (.sub o) := by
  obtain ⟨pos, g, d, a, b⟩ := o
  cases pos
  · intro hwf sl hs; cases hs
    have he : encode (.sub ⟨.s0, g, d, a, b⟩) = encS 0x03 g d.toNat a.toNat (b.toNat * 2 ^ 10 + 0) := rfl
    refine ⟨he ▸ encS_lt (by omega) (by omega) (by omega) (by omega), accept_of hwf ?_⟩
    rw [he]; unfold rawS
    rw [encS_op_bits] <;> try omega
    simp (disch := omega) only [encS_g, encS_d, encS_a, encS_lo, encS_d_bits, encS_a_bits, encS_lo_bits, encS_lo_bit, fld_high, fld_low, fld_toNat, bitsAt_high, bitsAt_low, bitsAt_zero, bitAt_high, bitAt_low, bitAt_one, Nat.zero_add, Nat.zero_mul, bitAt_b2n, bitAt_of_zero, bitAt_small, BitVec.ofNat_toNat, BitVec.setWidth_eq, Option.map_some, Option.bind_some, if_true, if_false, Bool.false_eq_true]
  · intro hwf sl hs; cases hs
    have he : encode (.sub ⟨.s1, g, d, a, b⟩) = encS 0x03 g d.toNat a.toNat (b.toNat * 2 ^ 10 + 0) := rfl
    refine ⟨he ▸ encS_lt (by omega) (by omega) (by omega) (by omega), accept_of hwf ?_⟩
    rw [he]; unfold rawS
    rw [encS_op_bits] <;> try omega
    simp (disch := omega) only [encS_g, encS_d, encS_a, encS_lo, encS_d_bits, encS_a_bits, encS_lo_bits, encS_lo_bit, fld_high, fld_low, fld_toNat, bitsAt_high, bitsAt_low, bitsAt_zero, bitAt_high, bitAt_low, bitAt_one, Nat.zero_add, Nat.zero_mul, bitAt_b2n, bitAt_of_zero, bitAt_small, BitVec.ofNat_toNat, BitVec.setWidth_eq, Option.map_some, Option.bind_some, if_true, if_false, Bool.false_eq_true]

theorem Laws.RoundTrip.mul (o : SRArgs) : Statement (.mul o) := by
  obtain ⟨pos, g, d, a, b⟩ := o
  cases pos
  · intro hwf sl hs; cases hs
    have he : encode (.mul ⟨.s0, g, d, a, b⟩) = encS 0x04 g d.toNat a.toNat (b.toNat * 2 ^ 10 + 0) := rfl
    refine ⟨he ▸ encS_lt (by omega) (by omega) (by omega) (by omega), accept_of hwf ?_⟩
    rw [he]; unfold rawS
    rw [encS_op_bits] <;> try omega
    simp (disch := omega) only [encS_g, encS_d, encS_a, encS_lo, encS_d_bits, encS_a_bits, encS_lo_bits, encS_lo_bit, fld_high, fld_low, fld_toNat, bitsAt_high, bitsAt_low, bitsAt_zero, bitAt_high, bitAt_low, bitAt_one, Nat.zero_add, Nat.zero_mul, bitAt_b2n, bitAt_of_zero, bitAt_small, BitVec.ofNat_toNat, BitVec.setWidth_eq, Option.map_some, Option.bind_some, if_true, if_false, Bool.false_eq_true]
  · intro hwf sl hs; cases hs
    have he : encode (.mul ⟨.s1, g, d, a, b⟩) = encS 0x04 g d.toNat a.toNat (b.toNat * 2 ^ 10 + 0) := rfl
    refine ⟨he ▸ encS_lt (by omega) (by omega) (by omega) (by omega), accept_of hwf ?_⟩
    rw [he]; unfold rawS
    rw [encS_op_bits] <;> try omega
    simp (disch := omega) only [encS_g, encS_d, encS_a, encS_lo, encS_d_bits, encS_a_bits, encS_lo_bits, encS_lo_bit, fld_high, fld_low, fld_toNat, bitsAt_high, bitsAt_low, bitsAt_zero, bitAt_high, bitAt_low, bitAt_one, Nat.zero_add, Nat.zero_mul, bitAt_b2n, bitAt_of_zero, bitAt_small, BitVec.ofNat_toNat, BitVec.setWidth_eq, Option.map_some, Option.bind_some, if_true, if_false, Bool.false_eq_true]

theorem Laws.RoundTrip.mulh (o : SRArgs) : Statement (.mulh o) := by
  obtain ⟨pos, g, d, a, b⟩ := o
  cases pos
  · intro hwf sl hs; cases hs
    have he : encode (.mulh ⟨.s0, g, d, a, b⟩) = encS 0x05 g d.toNat a.toNat (b.toNat * 2 ^ 10 + 0) := rfl
    refine ⟨he ▸ encS_lt (by omega) (by omega) (by omega) (by omega), accept_of hwf ?_⟩
    rw [he]; unfold rawS
    rw [encS_op_bits] <;> try omega
    simp (disch := omega) only [encS_g, encS_d, encS_a, encS_lo, encS_d_bits, encS_a_bits, encS_lo_bits, encS_lo_bit, fld_high, fld_low, fld_toNat, bitsAt_high, bitsAt_low, bitsAt_zero, bitAt_high, bitAt_low, bitAt_one, Nat.zero_add, Nat.zero_mul, bitAt_b2n, bitAt_of_zero, bitAt_small, BitVec.ofNat_toNat, BitVec.setWidth_eq, Option.map_some, Option.bind_some, if_true, if_false, Bool.false_eq_true]
  · intro hwf sl hs; cases hs
    have he : encode (.mulh ⟨.s1, g, d, a, b⟩) = encS 0x05 g d.toNat a.toNat (b.toNat * 2 ^ 10 + 0) := rfl
    refine ⟨he ▸ encS_lt (by omega) (by omega) (by omega) (by omega), accept_of hwf ?_⟩
    rw [he]; unfold rawS
    rw [encS_op_bits] <;> try omega
    simp (disch := omega) only [encS_g, encS_d, encS_a, encS_lo, encS_d_bits, encS_a_bits, encS_lo_bits, encS_lo_bit, fld_high, fld_low, fld_toNat, bitsAt_high, bitsAt_low, bitsAt_zero, bitAt_high, bitAt_low, bitAt_one, Nat.zero_add, Nat.zero_mul, bitAt_b2n, bitAt_of_zero, bitAt_small, BitVec.ofNat_toNat, BitVec.setWidth_eq, Option.map_some, Option.bind_some, if_true, if_false, Bool.false_eq_true]

theorem Laws.RoundTrip.mulhu (o : SRArgs) : Statement (.mulhu o) := by
  obtain ⟨pos, g, d, a, b⟩ := o
  cases pos
  · intro hwf sl hs; cases hs
    have he : encode (.mulhu ⟨.s0, g, d, a, b⟩) = encS 0x06 g d.toNat a.toNat (b.toNat * 2 ^ 10 + 0) := rfl
    refine ⟨he ▸ encS_lt (by omega) (by omega) (by omega) (by omega), accept_of hwf ?_⟩
    rw [he]; unfold rawS
    rw [encS_op_bits] <;> try omega
    simp (disch := omega) only [encS_g, encS_d, encS_a, encS_lo, encS_d_bits, encS_a_bits, encS_lo_bits, encS_lo_bit, fld_high, fld_low, fld_toNat, bitsAt_high, bitsAt_low, bitsAt_zero, bitAt_high, bitAt_low, bitAt_one, Nat.zero_add, Nat.zero_mul, bitAt_b2n, bitAt_of_zero, bitAt_small, BitVec.ofNat_toNat, BitVec.setWidth_eq, Option.map_some, Option.bind_some, if_true, if_false, Bool.false_eq_true]
  · intro hwf sl hs; cases hs
    have he : encode (.mulhu ⟨.s1, g, d, a, b⟩) = encS 0x06 g d.toNat a.toNat (b.toNat * 2 ^ 10 + 0) := rfl
    refine ⟨he ▸ encS_lt (by omega) (by omega) (by omega) (by omega), accept_of hwf ?_⟩
    rw [he]; unfold rawS
    rw [encS_op_bits] <;> try omega
    simp (disch := omega) only [encS_g, encS_d, encS_a, encS_lo, encS_d_bits, encS_a_bits, encS_lo_bits, encS_lo_bit, fld_high, fld_low, fld_toNat, bitsAt_high, bitsAt_low, bitsAt_zero, bitAt_high, bitAt_low, bitAt_one, Nat.zero_add, Nat.zero_mul, bitAt_b2n, bitAt_of_zero, bitAt_small, BitVec.ofNat_toNat, BitVec.setWidth_eq, Option.map_some, Option.bind_some, if_true, if_false, Bool.false_eq_true]

theorem Laws.RoundTrip.div (o : SRArgs) : Statement (.div o) := by
  obtain ⟨pos, g, d, a, b⟩ := o
  cases pos
  · intro hwf sl hs; cases hs
    have he : encode (.div ⟨.s0, g, d, a, b⟩) = encS 0x07 g d.toNat a.toNat (b.toNat * 2 ^ 10 + 0) := rfl
    refine ⟨he ▸ encS_lt (by omega) (by omega) (by omega) (by omega), accept_of hwf ?_⟩
    rw [he]; unfold rawS
    rw [encS_op_bits] <;> try omega
    simp (disch := omega) only [encS_g, encS_d, encS_a, encS_lo, encS_d_bits, encS_a_bits, encS_lo_bits, encS_lo_bit, fld_high, fld_low, fld_toNat, bitsAt_high, bitsAt_low, bitsAt_zero, bitAt_high, bitAt_low, bitAt_one, Nat.zero_add, Nat.zero_mul, bitAt_b2n, bitAt_of_zero, bitAt_small, BitVec.ofNat_toNat, BitVec.setWidth_eq, Option.map_some, Option.bind_some, if_true, if_false, Bool.false_eq_true]
  · intro hwf sl hs; cases hs
    have he : encode (.div ⟨.s1, g, d, a, b⟩) = encS 0x07 g d.toNat a.toNat (b.toNat * 2 ^ 10 + 0) := rfl
    refine ⟨he ▸ encS_lt (by omega) (by omega) (by omega) (by omega), accept_of hwf ?_⟩
    rw [he]; unfold rawS
    rw [encS_op_bits] <;> try omega
    simp (disch := omega) only [encS_g, encS_d, encS_a, encS_lo, encS_d_bits, encS_a_bits, encS_lo_bits, encS_lo_bit, fld_high, fld_low, fld_toNat, bitsAt_high, bitsAt_low, bitsAt_zero, bitAt_high, bitAt_low, bitAt_one, Nat.zero_add, Nat.zero_mul, bitAt_b2n, bitAt_of_zero, bitAt_small, BitVec.ofNat_toNat, BitVec.setWidth_eq, Option.map_some, Option.bind_some, if_true, if_false, Bool.false_eq_true]

theorem Laws.RoundTrip.divu (o : SRArgs) : Statement (.divu o) := by
  obtain ⟨pos, g, d, a, b⟩ := o
  cases pos
  · intro hwf sl hs; cases hs
    have he : encode (.divu ⟨.s0, g, d, a, b⟩) = encS 0x08 g d.toNat a.toNat (b.toNat * 2 ^ 10 + 0) := rfl
    refine ⟨he ▸ encS_lt (by omega) (by omega) (by omega) (by omega), accept_of hwf ?_⟩
    rw [he]; unfold rawS
    rw [encS_op_bits] <;> try omega
    simp (disch := omega) only [encS_g, encS_d, encS_a, encS_lo, encS_d_bits, encS_a_bits, encS_lo_bits, encS_lo_bit, fld_high, fld_low, fld_toNat, bitsAt_high, bitsAt_low, bitsAt_zero, bitAt_high, bitAt_low, bitAt_one, Nat.zero_add, Nat.zero_mul, bitAt_b2n, bitAt_of_zero, bitAt_small, BitVec.ofNat_toNat, BitVec.setWidth_eq, Option.map_some, Option.bind_some, if_true, if_false, Bool.false_eq_true]
  · intro hwf sl hs; cases hs
    have he : encode (.divu ⟨.s1, g, d, a, b⟩) = encS 0x08 g d.toNat a.toNat (b.toNat * 2 ^ 10 + 0) := rfl
    refine ⟨he ▸ encS_lt (by omega) (by omega) (by omega) (by omega), accept_of hwf ?_⟩
    rw [he]; unfold rawS
    rw [encS_op_bits] <;> try omega
    simp (disch := omega) only [encS_g, encS_d, encS_a, encS_lo, encS_d_bits, encS_a_bits, encS_lo_bits, encS_lo_bit, fld_high, fld_low, fld_toNat, bitsAt_high, bitsAt_low, bitsAt_zero, bitAt_high, bitAt_low, bitAt_one, Nat.zero_add, Nat.zero_mul, bitAt_b2n, bitAt_of_zero, bitAt_small, BitVec.ofNat_toNat, BitVec.setWidth_eq, Option.map_some, Option.bind_some, if_true, if_false, Bool.false_eq_true]

theorem Laws.RoundTrip.rem (o : SRArgs) : Statement (.rem o) := by
  obtain ⟨pos, g, d, a, b⟩ := o
  cases pos
  · intro hwf sl hs; cases hs
    have he : encode (.rem ⟨.s0, g, d, a, b⟩) = encS 0x09 g d.toNat a.toNat (b.toNat * 2 ^ 10 + 0) := rfl
    refine ⟨he ▸ encS_lt (by omega) (by omega) (by omega) (by omega), accept_of hwf ?_⟩
    rw [he]; unfold rawS
    rw [encS_op_bits] <;> try omega
    simp (disch := omega) only [encS_g, encS_d, encS_a, encS_lo, encS_d_bits, encS_a_bits, encS_lo_bits, encS_lo_bit, fld_high, fld_low, fld_toNat, bitsAt_high, bitsAt_low, bitsAt_zero, bitAt_high, bitAt_low, bitAt_one, Nat.zero_add, Nat.zero_mul, bitAt_b2n, bitAt_of_zero, bitAt_small, BitVec.ofNat_toNat, BitVec.setWidth_eq, Option.map_some, Option.bind_some, if_true, if_false, Bool.false_eq_true]
  · intro hwf sl hs; cases hs
    have he : encode (.rem ⟨.s1, g, d, a, b⟩) = encS 0x09 g d.toNat a.toNat (b.toNat * 2 ^ 10 + 0) := rfl
    refine ⟨he ▸ encS_lt (by omega) (by omega) (by omega) (by omega), accept_of hwf ?_⟩
    rw [he]; unfold rawS
    rw [encS_op_bits] <;> try omega
    simp (disch := omega) only [encS_g, encS_d, encS_a, encS_lo, encS_d_bits, encS_a_bits, encS_lo_bits, encS_lo_bit, fld_high, fld_low, fld_toNat, bitsAt_high, bitsAt_low, bitsAt_zero, bitAt_high, bitAt_low, bitAt_one, Nat.zero_add, Nat.zero_mul, bitAt_b2n, bitAt_of_zero, bitAt_small, BitVec.ofNat_toNat, BitVec.setWidth_eq, Option.map_some, Option.bind_some, if_true, if_false, Bool.false_eq_true]

theorem Laws.RoundTrip.remu (o : SRArgs) : Statement (.remu o) := by
  obtain ⟨pos, g, d, a, b⟩ := o
  cases pos
  · intro hwf sl hs; cases hs
    have he : encode (.remu ⟨.s0, g, d, a, b⟩) = encS 0x0A g d.toNat a.toNat (b.toNat * 2 ^ 10 + 0) := rfl
    refine ⟨he ▸ encS_lt (by omega) (by omega) (by omega) (by omega), accept_of hwf ?_⟩
    rw [he]; unfold rawS
    rw [encS_op_bits] <;> try omega
    simp (disch := omega) only [encS_g, encS_d, encS_a, encS_lo, encS_d_bits, encS_a_bits, encS_lo_bits, encS_lo_bit, fld_high, fld_low, fld_toNat, bitsAt_high, bitsAt_low, bitsAt_zero, bitAt_high, bitAt_low, bitAt_one, Nat.zero_add, Nat.zero_mul, bitAt_b2n, bitAt_of_zero, bitAt_small, BitVec.ofNat_toNat, BitVec.setWidth_eq, Option.map_some, Option.bind_some, if_true, if_false, Bool.false_eq_true]
  · intro hwf sl hs; cases hs
    have he : encode (.remu ⟨.s1, g, d, a, b⟩) = encS 0x0A g d.toNat a.toNat (b.toNat * 2 ^ 10 + 0) := rfl
    refine ⟨he ▸ encS_lt (by omega) (by omega) (by omega) (by omega), accept_of hwf ?_⟩
    rw [he]; unfold rawS
    rw [encS_op_bits] <;> try omega
    simp (disch := omega) only [encS_g, encS_d, encS_a, encS_lo, encS_d_bits, encS_a_bits, encS_lo_bits, encS_lo_bit, fld_high, fld_low, fld_toNat, bitsAt_high, bitsAt_low, bitsAt_zero, bitAt_high, bitAt_low, bitAt_one, Nat.zero_add, Nat.zero_mul, bitAt_b2n, bitAt_of_zero, bitAt_small, BitVec.ofNat_toNat, BitVec.setWidth_eq, Option.map_some, Option.bind_some, if_true, if_false, Bool.false_eq_true]

theorem Laws.RoundTrip.and (o : SRArgs) : Statement (.and o) := by
  obtain ⟨pos, g, d, a, b⟩ := o
  cases pos
  · intro hwf sl hs; cases hs
    have he : encode (.and ⟨.s0, g, d, a, b⟩) = encS 0x0B g d.toNat a.toNat (b.toNat * 2 ^ 10 + 0) := rfl
    refine ⟨he ▸ encS_lt (by omega) (by omega) (by omega) (by omega), accept_of hwf ?_⟩
    rw [he]; unfold rawS
    rw [encS_op_bits] <;> try omega
    simp (disch := omega) only [encS_g, encS_d, encS_a, encS_lo, encS_d_bits, encS_a_bits, encS_lo_bits, encS_lo_bit, fld_high, fld_low, fld_toNat, bitsAt_high, bitsAt_low, bitsAt_zero, bitAt_high, bitAt_low, bitAt_one, Nat.zero_add, Nat.zero_mul, bitAt_b2n, bitAt_of_zero, bitAt_small, BitVec.ofNat_toNat, BitVec.setWidth_eq, Option.map_some, Option.bind_some, if_true, if_false, Bool.false_eq_true]
  · intro hwf sl hs; cases hs
    have he : encode (.and ⟨.s1, g, d, a, b⟩) = encS 0x0B g d.toNat a.toNat (b.toNat * 2 ^ 10 + 0) := rfl
    refine ⟨he ▸ encS_lt (by omega) (by omega) (by omega) (by omega), accept_of hwf ?_⟩
    rw [he]; unfold rawS
    rw [encS_op_bits] <;> try omega
    simp (disch := omega) only [encS_g, encS_d, encS_a, encS_lo, encS_d_bits, encS_a_bits, encS_lo_bits, encS_lo_bit, fld_high, fld_low, fld_toNat, bitsAt_high, bitsAt_low, bitsAt_zero, bitAt_high, bitAt_low, bitAt_one, Nat.zero_add, Nat.zero_mul, bitAt_b2n, bitAt_of_zero, bitAt_small, BitVec.ofNat_toNat, BitVec.setWidth_eq, Option.map_some, Option.bind_some, if_true, if_false, Bool.false_eq_true]

theorem Laws.RoundTrip.andi (o : SIArgs) : Statement (.andi o) := by
  obtain ⟨pos, g, d, a, imm⟩ := o
  cases pos
  · intro hwf sl hs; cases hs
    have he : encode (.andi ⟨.s0, g, d, a, imm⟩) = encS 0x0C g d.toNat a.toNat imm.toNat := rfl
    refine ⟨he ▸ encS_lt (by omega) (by omega) (by omega) (by omega), accept_of hwf ?_⟩
    rw [he]; unfold rawS
    rw [encS_op_bits] <;> try omega
    simp (disch := omega) only [encS_g, encS_d, encS_a, encS_lo, encS_d_bits, encS_a_bits, encS_lo_bits, encS_lo_bit, fld_high, fld_low, fld_toNat, bitsAt_high, bitsAt_low, bitsAt_zero, bitAt_high, bitAt_low, bitAt_one, Nat.zero_add, Nat.zero_mul, bitAt_b2n, bitAt_of_zero, bitAt_small, BitVec.ofNat_toNat, BitVec.setWidth_eq, Option.map_some, Option.bind_some, if_true, if_false, Bool.false_eq_true]
  · intro hwf sl hs; cases hs
    have he : encode (.andi ⟨.s1, g, d, a, imm⟩) = encS 0x0C g d.toNat a.toNat imm.toNat := rfl
    refine ⟨he ▸ encS_lt (by omega) (by omega) (by omega) (by omega), accept_of hwf ?_⟩
    rw [he]; unfold rawS
    rw [encS_op_bits] <;> try omega
    simp (disch := omega) only [encS_g, encS_d, encS_a, encS_lo, encS_d_bits, encS_a_bits, encS_lo_bits, encS_lo_bit, fld_high, fld_low, fld_toNat, bitsAt_high, bitsAt_low, bitsAt_zero, bitAt_high, bitAt_low, bitAt_one, Nat.zero_add, Nat.zero_mul, bitAt_b2n, bitAt_of_zero, bitAt_small, BitVec.ofNat_toNat, BitVec.setWidth_eq, Option.map_some, Option.bind_some, if_true, if_false, Bool.false_eq_true]

theorem Laws.RoundTrip.or (o : SRArgs) : Statement (.or o) := by
  obtain ⟨pos, g, d, a, b⟩ := o
  cases pos
  · intro hwf sl hs; cases hs
    have he : encode (.or ⟨.s0, g, d, a, b⟩) = encS 0x0D g d.toNat a.toNat (b.toNat * 2 ^ 10 + 0) := rfl
    refine ⟨he ▸ encS_lt (by omega) (by omega) (by omega) (by omega), accept_of hwf ?_⟩
    rw [he]; unfold rawS
    rw [encS_op_bits] <;> try omega
    simp (disch := omega) only [encS_g, encS_d, encS_a, encS_lo, encS_d_bits, encS_a_bits, encS_lo_bits, encS_lo_bit, fld_high, fld_low, fld_toNat, bitsAt_high, bitsAt_low, bitsAt_zero, bitAt_high, bitAt_low, bitAt_one, Nat.zero_add, Nat.zero_mul, bitAt_b2n, bitAt_of_zero, bitAt_small, BitVec.ofNat_toNat, BitVec.setWidth_eq, Option.map_some, Option.bind_some, if_true, if_false, Bool.false_eq_true]
  · intro hwf sl hs; cases hs
    have he : encode (.or ⟨.s1, g, d, a, b⟩) = encS 0x0D g d.toNat a.toNat (b.toNat * 2 ^ 10 + 0) := rfl
    refine ⟨he ▸ encS_lt (by omega) (by omega) (by omega) (by omega), accept_of hwf ?_⟩
    rw [he]; unfold rawS
    rw [encS_op_bits] <;> try omega
    simp (disch := omega) only [encS_g, encS_d, encS_a, encS_lo, encS_d_bits, encS_a_bits, encS_lo_bits, encS_lo_bit, fld_high, fld_low, fld_toNat, bitsAt_high, bitsAt_low, bitsAt_zero, bitAt_high, bitAt_low, bitAt_one, Nat.zero_add, Nat.zero_mul, bitAt_b2n, bitAt_of_zero, bitAt_small, BitVec.ofNat_toNat, BitVec.setWidth_eq, Option.map_some, Option.bind_some, if_true, if_false, Bool.false_eq_true]

theorem Laws.RoundTrip.ori (o : SIArgs) : Statement (.ori o) := by
  obtain ⟨pos, g, d, a, imm⟩ := o
  cases pos
  · intro hwf sl hs; cases hs
    have he : encode (.ori ⟨.s0, g, d, a, imm⟩) = encS 0x0E g d.toNat a.toNat imm.toNat := rfl
    refine ⟨he ▸ encS_lt (by omega) (by omega) (by omega) (by omega), accept_of hwf ?_⟩
    rw [he]; unfold rawS
    rw [encS_op_bits] <;> try omega
    simp (disch := omega) only [encS_g, encS_d, encS_a, encS_lo, encS_d_bits, encS_a_bits, encS_lo_bits, encS_lo_bit, fld_high, fld_low, fld_toNat, bitsAt_high, bitsAt_low, bitsAt_zero, bitAt_high, bitAt_low, bitAt_one, Nat.zero_add, Nat.zero_mul, bitAt_b2n, bitAt_of_zero, bitAt_small, BitVec.ofNat_toNat, BitVec.setWidth_eq, Option.map_some, Option.bind_some, if_true, if_false, Bool.false_eq_true]
  · intro hwf sl hs; cases hs
    have he : encode (.ori ⟨.s1, g, d, a, imm⟩) = encS 0x0E g d.toNat a.toNat imm.toNat := rfl
    refine ⟨he ▸ encS_lt (by omega) (by omega) (by omega) (by omega), accept_of hwf ?_⟩
    rw [he]; unfold rawS
    rw [encS_op_bits] <;> try omega
    simp (disch := omega) only [encS_g, encS_d, encS_a, encS_lo, encS_d_bits, encS_a_bits, encS_lo_bits, encS_lo_bit, fld_high, fld_low, fld_toNat, bitsAt_high, bitsAt_low, bitsAt_zero, bitAt_high, bitAt_low, bitAt_one, Nat.zero_add, Nat.zero_mul, bitAt_b2n, bitAt_of_zero, bitAt_small, BitVec.ofNat_toNat, BitVec.setWidth_eq, Option.map_some, Option.bind_some, if_true, if_false, Bool.false_eq_true]

theorem Laws.RoundTrip.xor (o : SRArgs) : Statement (.xor o) := by
  obtain ⟨pos, g, d, a, b⟩ := o
  cases pos
  · intro hwf sl hs; cases hs
    have he : encode (.xor ⟨.s0, g, d, a, b⟩) = encS 0x0F g d.toNat a.toNat (b.toNat * 2 ^ 10 + 0) := rfl
    refine ⟨he ▸ encS_lt (by omega) (by omega) (by omega) (by omega), accept_of hwf ?_⟩
    rw [he]; unfold rawS
    rw [encS_op_bits] <;> try omega
    simp (disch := omega) only [encS_g, encS_d, encS_a, encS_lo, encS_d_bits, encS_a_bits, encS_lo_bits, encS_lo_bit, fld_high, fld_low, fld_toNat, bitsAt_high, bitsAt_low, bitsAt_zero, bitAt_high, bitAt_low, bitAt_one, Nat.zero_add, Nat.zero_mul, bitAt_b2n, bitAt_of_zero, bitAt_small, BitVec.ofNat_toNat, BitVec.setWidth_eq, Option.map_some, Option.bind_some, if_true, if_false, Bool.false_eq_true]
  · intro hwf sl hs; cases hs
    have he : encode (.xor ⟨.s1, g, d, a, b⟩) = encS 0x0F g d.toNat a.toNat (b.toNat * 2 ^ 10 + 0) := rfl
    refine ⟨he ▸ encS_lt (by omega) (by omega) (by omega) (by omega), accept_of hwf ?_⟩
    rw [he]; unfold rawS
    rw [encS_op_bits] <;> try omega
    simp (disch := omega) only [encS_g, encS_d, encS_a, encS_lo, encS_d_bits, encS_a_bits, encS_lo_bits, encS_lo_bit, fld_high, fld_low, fld_toNat, bitsAt_high, bitsAt_low, bitsAt_zero, bitAt_high, bitAt_low, bitAt_one, Nat.zero_add, Nat.zero_mul, bitAt_b2n, bitAt_of_zero, bitAt_small, BitVec.ofNat_toNat, BitVec.setWidth_eq, Option.map_some, Option.bind_some, if_true, if_false, Bool.false_eq_true]

theorem Laws.RoundTrip.xori (o : SIArgs) : Statement (.xori o) := by
  obtain ⟨pos, g, d, a, imm⟩ := o
  cases pos
  · intro hwf sl hs; cases hs
    have he : encode (.xori ⟨.s0, g, d, a, imm⟩) = encS 0x10 g d.toNat a.toNat imm.toNat := rfl
    refine ⟨he ▸ encS_lt (by omega) (by omega) (by omega) (by omega), accept_of hwf ?_⟩
    rw [he]; unfold rawS
    rw [encS_op_bits] <;> try omega
    simp (disch := omega) only [encS_g, encS_d, encS_a, encS_lo, encS_d_bits, encS_a_bits, encS_lo_bits, encS_lo_bit, fld_high, fld_low, fld_toNat, bitsAt_high, bitsAt_low, bitsAt_zero, bitAt_high, bitAt_low, bitAt_one, Nat.zero_add, Nat.zero_mul, bitAt_b2n, bitAt_of_zero, bitAt_small, BitVec.ofNat_toNat, BitVec.setWidth_eq, Option.map_some, Option.bind_some, if_true, if_false, Bool.false_eq_true]
  · intro hwf sl hs; cases hs
    have he : encode (.xori ⟨.s1, g, d, a, imm⟩) = encS 0x10 g d.toNat a.toNat imm.toNat := rfl
    refine ⟨he ▸ encS_lt (by omega) (by omega) (by omega) (by omega), accept_of hwf ?_⟩
    rw [he]; unfold rawS
    rw [encS_op_bits] <;> try omega
    simp (disch := omega) only [encS_g, encS_d, encS_a, encS_lo, encS_d_bits, encS_a_bits, encS_lo_bits, encS_lo_bit, fld_high, fld_low, fld_toNat, bitsAt_high, bitsAt_low, bitsAt_zero, bitAt_high, bitAt_low, bitAt_one, Nat.zero_add, Nat.zero_mul, bitAt_b2n, bitAt_of_zero, bitAt_small, BitVec.ofNat_toNat, BitVec.setWidth_eq, Option.map_some, Option.bind_some, if_true, if_false, Bool.false_eq_true]

theorem Laws.RoundTrip.shl (o : SRArgs) : Statement (.shl o) := by
  obtain ⟨pos, g, d, a, b⟩ := o
  cases pos
  · intro hwf sl hs; cases hs
    have he : encode (.shl ⟨.s0, g, d, a, b⟩) = encS 0x11 g d.toNat a.toNat (b.toNat * 2 ^ 10 + 0) := rfl
    refine ⟨he ▸ encS_lt (by omega) (by omega) (by omega) (by omega), accept_of hwf ?_⟩
    rw [he]; unfold rawS
    rw [encS_op_bits] <;> try omega
    simp (disch := omega) only [encS_g, encS_d, encS_a, encS_lo, encS_d_bits, encS_a_bits, encS_lo_bits, encS_lo_bit, fld_high, fld_low, fld_toNat, bitsAt_high, bitsAt_low, bitsAt_zero, bitAt_high, bitAt_low, bitAt_one, Nat.zero_add, Nat.zero_mul, bitAt_b2n, bitAt_of_zero, bitAt_small, BitVec.ofNat_toNat, BitVec.setWidth_eq, Option.map_some, Option.bind_some, if_true, if_false, Bool.false_eq_true]
  · intro hwf sl hs; cases hs
    have he : encode (.shl ⟨.s1, g, d, a, b⟩) = encS 0x11 g d.toNat a.toNat (b.toNat * 2 ^ 10 + 0) := rfl
    refine ⟨he ▸ encS_lt (by omega) (by omega) (by omega) (by omega), accept_of hwf ?_⟩
    rw [he]; unfold rawS
    rw [encS_op_bits] <;> try omega
    simp (disch := omega) only [encS_g, encS_d, encS_a, encS_lo, encS_d_bits, encS_a_bits, encS_lo_bits, encS_lo_bit, fld_high, fld_low, fld_toNat, bitsAt_high, bitsAt_low, bitsAt_zero, bitAt_high, bitAt_low, bitAt_one, Nat.zero_add, Nat.zero_mul, bitAt_b2n, bitAt_of_zero, bitAt_small, BitVec.ofNat_toNat, BitVec.setWidth_eq, Option.map_some, Option.bind_some, if_true, if_false, Bool.false_eq_true]

theorem Laws.RoundTrip.shr (o : SRArgs) : Statement (.shr o) := by
  obtain ⟨pos, g, d, a, b⟩ := o
  cases pos
  · intro hwf sl hs; cases hs
    have he : encode (.shr ⟨.s0, g, d, a, b⟩) = encS 0x12 g d.toNat a.toNat (b.toNat * 2 ^ 10 + 0) := rfl
    refine ⟨he ▸ encS_lt (by omega) (by omega) (by omega) (by omega), accept_of hwf ?_⟩
    rw [he]; unfold rawS
    rw [encS_op_bits] <;> try omega
    simp (disch := omega) only [encS_g, encS_d, encS_a, encS_lo, encS_d_bits, encS_a_bits, encS_lo_bits, encS_lo_bit, fld_high, fld_low, fld_toNat, bitsAt_high, bitsAt_low, bitsAt_zero, bitAt_high, bitAt_low, bitAt_one, Nat.zero_add, Nat.zero_mul, bitAt_b2n, bitAt_of_zero, bitAt_small, BitVec.ofNat_toNat, BitVec.setWidth_eq, Option.map_some, Option.bind_some, if_true, if_false, Bool.false_eq_true]
  · intro hwf sl hs; cases hs
    have he : encode (.shr ⟨.s1, g, d, a, b⟩) = encS 0x12 g d.toNat a.toNat (b.toNat * 2 ^ 10 + 0) := rfl
    refine ⟨he ▸ encS_lt (by omega) (by omega) (by omega) (by omega), accept_of hwf ?_⟩
    rw [he]; unfold rawS
    rw [encS_op_bits] <;> try omega
    simp (disch := omega) only [encS_g, encS_d, encS_a, encS_lo, encS_d_bits, encS_a_bits, encS_lo_bits, encS_lo_bit, fld_high, fld_low, fld_toNat, bitsAt_high, bitsAt_low, bitsAt_zero, bitAt_high, bitAt_low, bitAt_one, Nat.zero_add, Nat.zero_mul, bitAt_b2n, bitAt_of_zero, bitAt_small, BitVec.ofNat_toNat, BitVec.setWidth_eq, Option.map_some, Option.bind_some, if_true, if_false, Bool.false_eq_true]

theorem Laws.RoundTrip.sar (o : SRArgs) : Statement (.sar o) := by
  obtain ⟨pos, g, d, a, b⟩ := o
  cases pos
  · intro hwf sl hs; cases hs
    have he : encode (.sar ⟨.s0, g, d, a, b⟩) = encS 0x13 g d.toNat a.toNat (b.toNat * 2 ^ 10 + 0) := rfl
    refine ⟨he ▸ encS_lt (by omega) (by omega) (by omega) (by omega), accept_of hwf ?_⟩
    rw [he]; unfold rawS
    rw [encS_op_bits] <;> try omega
    simp (disch := omega) only [encS_g, encS_d, encS_a, encS_lo, encS_d_bits, encS_a_bits, encS_lo_bits, encS_lo_bit, fld_high, fld_low, fld_toNat, bitsAt_high, bitsAt_low, bitsAt_zero, bitAt_high, bitAt_low, bitAt_one, Nat.zero_add, Nat.zero_mul, bitAt_b2n, bitAt_of_zero, bitAt_small, BitVec.ofNat_toNat, BitVec.setWidth_eq, Option.map_some, Option.bind_some, if_true, if_false, Bool.false_eq_true]
  · intro hwf sl hs; cases hs
    have he : encode (.sar ⟨.s1, g, d, a, b⟩) = encS 0x13 g d.toNat a.toNat (b.toNat * 2 ^ 10 + 0) := rfl
    refine ⟨he ▸ encS_lt (by omega) (by omega) (by omega) (by omega), accept_of hwf ?_⟩
    rw [he]; unfold rawS
    rw [encS_op_bits] <;> try omega
    simp (disch := omega) only [encS_g, encS_d, encS_a, encS_lo, encS_d_bits, encS_a_bits, encS_lo_bits, encS_lo_bit, fld_high, fld_low, fld_toNat, bitsAt_high, bitsAt_low, bitsAt_zero, bitAt_high, bitAt_low, bitAt_one, Nat.zero_add, Nat.zero_mul, bitAt_b2n, bitAt_of_zero, bitAt_small, BitVec.ofNat_toNat, BitVec.setWidth_eq, Option.map_some, Option.bind_some, if_true, if_false, Bool.false_eq_true]

theorem Laws.RoundTrip.shli (o : SShArgs) : Statement (.shli o) := by
  obtain ⟨pos, g, d, a, n⟩ := o
  cases pos
  · intro hwf sl hs; cases hs
    have he : encode (.shli ⟨.s0, g, d, a, n⟩) = encS 0x14 g d.toNat a.toNat n.toNat := rfl
    refine ⟨he ▸ encS_lt (by omega) (by omega) (by omega) (by omega), accept_of hwf ?_⟩
    rw [he]; unfold rawS
    rw [encS_op_bits] <;> try omega
    simp (disch := omega) only [encS_g, encS_d, encS_a, encS_lo, encS_d_bits, encS_a_bits, encS_lo_bits, encS_lo_bit, fld_high, fld_low, fld_toNat, bitsAt_high, bitsAt_low, bitsAt_zero, bitAt_high, bitAt_low, bitAt_one, Nat.zero_add, Nat.zero_mul, bitAt_b2n, bitAt_of_zero, bitAt_small, BitVec.ofNat_toNat, BitVec.setWidth_eq, Option.map_some, Option.bind_some, if_true, if_false, Bool.false_eq_true]
  · intro hwf sl hs; cases hs
    have he : encode (.shli ⟨.s1, g, d, a, n⟩) = encS 0x14 g d.toNat a.toNat n.toNat := rfl
    refine ⟨he ▸ encS_lt (by omega) (by omega) (by omega) (by omega), accept_of hwf ?_⟩
    rw [he]; unfold rawS
    rw [encS_op_bits] <;> try omega
    simp (disch := omega) only [encS_g, encS_d, encS_a, encS_lo, encS_d_bits, encS_a_bits, encS_lo_bits, encS_lo_bit, fld_high, fld_low, fld_toNat, bitsAt_high, bitsAt_low, bitsAt_zero, bitAt_high, bitAt_low, bitAt_one, Nat.zero_add, Nat.zero_mul, bitAt_b2n, bitAt_of_zero, bitAt_small, BitVec.ofNat_toNat, BitVec.setWidth_eq, Option.map_some, Option.bind_some, if_true, if_false, Bool.false_eq_true]

theorem Laws.RoundTrip.shri (o : SShArgs) : Statement (.shri o) := by
  obtain ⟨pos, g, d, a, n⟩ := o
  cases pos
  · intro hwf sl hs; cases hs
    have he : encode (.shri ⟨.s0, g, d, a, n⟩) = encS 0x15 g d.toNat a.toNat n.toNat := rfl
    refine ⟨he ▸ encS_lt (by omega) (by omega) (by omega) (by omega), accept_of hwf ?_⟩
    rw [he]; unfold rawS
    rw [encS_op_bits] <;> try omega
    simp (disch := omega) only [encS_g, encS_d, encS_a, encS_lo, encS_d_bits, encS_a_bits, encS_lo_bits, encS_lo_bit, fld_high, fld_low, fld_toNat, bitsAt_high, bitsAt_low, bitsAt_zero, bitAt_high, bitAt_low, bitAt_one, Nat.zero_add, Nat.zero_mul, bitAt_b2n, bitAt_of_zero, bitAt_small, BitVec.ofNat_toNat, BitVec.setWidth_eq, Option.map_some, Option.bind_some, if_true, if_false, Bool.false_eq_true]
  · intro hwf sl hs; cases hs
    have he : encode (.shri ⟨.s1, g, d, a, n⟩) = encS 0x15 g d.toNat a.toNat n.toNat := rfl
    refine ⟨he ▸ encS_lt (by omega) (by omega) (by omega) (by omega), accept_of hwf ?_⟩
    rw [he]; unfold rawS
    rw [encS_op_bits] <;> try omega
    simp (disch := omega) only [encS_g, encS_d, encS_a, encS_lo, encS_d_bits, encS_a_bits, encS_lo_bits, encS_lo_bit, fld_high, fld_low, fld_toNat, bitsAt_high, bitsAt_low, bitsAt_zero, bitAt_high, bitAt_low, bitAt_one, Nat.zero_add, Nat.zero_mul, bitAt_b2n, bitAt_of_zero, bitAt_small, BitVec.ofNat_toNat, BitVec.setWidth_eq, Option.map_some, Option.bind_some, if_true, if_false, Bool.false_eq_true]

theorem Laws.RoundTrip.sari (o : SShArgs) : Statement (.sari o) := by
  obtain ⟨pos, g, d, a, n⟩ := o
  cases pos
  · intro hwf sl hs; cases hs
    have he : encode (.sari ⟨.s0, g, d, a, n⟩) = encS 0x16 g d.toNat a.toNat n.toNat := rfl
    refine ⟨he ▸ encS_lt (by omega) (by omega) (by omega) (by omega), accept_of hwf ?_⟩
    rw [he]; unfold rawS
    rw [encS_op_bits] <;> try omega
    simp (disch := omega) only [encS_g, encS_d, encS_a, encS_lo, encS_d_bits, encS_a_bits, encS_lo_bits, encS_lo_bit, fld_high, fld_low, fld_toNat, bitsAt_high, bitsAt_low, bitsAt_zero, bitAt_high, bitAt_low, bitAt_one, Nat.zero_add, Nat.zero_mul, bitAt_b2n, bitAt_of_zero, bitAt_small, BitVec.ofNat_toNat, BitVec.setWidth_eq, Option.map_some, Option.bind_some, if_true, if_false, Bool.false_eq_true]
  · intro hwf sl hs; cases hs
    have he : encode (.sari ⟨.s1, g, d, a, n⟩) = encS 0x16 g d.toNat a.toNat n.toNat := rfl
    refine ⟨he ▸ encS_lt (by omega) (by omega) (by omega) (by omega), accept_of hwf ?_⟩
    rw [he]; unfold rawS
    rw [encS_op_bits] <;> try omega
    simp (disch := omega) only [encS_g, encS_d, encS_a, encS_lo, encS_d_bits, encS_a_bits, encS_lo_bits, encS_lo_bit, fld_high, fld_low, fld_toNat, bitsAt_high, bitsAt_low, bitsAt_zero, bitAt_high, bitAt_low, bitAt_one, Nat.zero_add, Nat.zero_mul, bitAt_b2n, bitAt_of_zero, bitAt_small, BitVec.ofNat_toNat, BitVec.setWidth_eq, Option.map_some, Option.bind_some, if_true, if_false, Bool.false_eq_true]

theorem Laws.RoundTrip.rol (o : SRArgs) : Statement (.rol o) := by
  obtain ⟨pos, g, d, a, b⟩ := o
  cases pos
  · intro hwf sl hs; cases hs
    have he : encode (.rol ⟨.s0, g, d, a, b⟩) = encS 0x17 g d.toNat a.toNat (b.toNat * 2 ^ 10 + 0) := rfl
    refine ⟨he ▸ encS_lt (by omega) (by omega) (by omega) (by omega), accept_of hwf ?_⟩
    rw [he]; unfold rawS
    rw [encS_op_bits] <;> try omega
    simp (disch := omega) only [encS_g, encS_d, encS_a, encS_lo, encS_d_bits, encS_a_bits, encS_lo_bits, encS_lo_bit, fld_high, fld_low, fld_toNat, bitsAt_high, bitsAt_low, bitsAt_zero, bitAt_high, bitAt_low, bitAt_one, Nat.zero_add, Nat.zero_mul, bitAt_b2n, bitAt_of_zero, bitAt_small, BitVec.ofNat_toNat, BitVec.setWidth_eq, Option.map_some, Option.bind_some, if_true, if_false, Bool.false_eq_true]
  · intro hwf sl hs; cases hs
    have he : encode (.rol ⟨.s1, g, d, a, b⟩) = encS 0x17 g d.toNat a.toNat (b.toNat * 2 ^ 10 + 0) := rfl
    refine ⟨he ▸ encS_lt (by omega) (by omega) (by omega) (by omega), accept_of hwf ?_⟩
    rw [he]; unfold rawS
    rw [encS_op_bits] <;> try omega
    simp (disch := omega) only [encS_g, encS_d, encS_a, encS_lo, encS_d_bits, encS_a_bits, encS_lo_bits, encS_lo_bit, fld_high, fld_low, fld_toNat, bitsAt_high, bitsAt_low, bitsAt_zero, bitAt_high, bitAt_low, bitAt_one, Nat.zero_add, Nat.zero_mul, bitAt_b2n, bitAt_of_zero, bitAt_small, BitVec.ofNat_toNat, BitVec.setWidth_eq, Option.map_some, Option.bind_some, if_true, if_false, Bool.false_eq_true]

theorem Laws.RoundTrip.ror (o : SRArgs) : Statement (.ror o) := by
  obtain ⟨pos, g, d, a, b⟩ := o
  cases pos
  · intro hwf sl hs; cases hs
    have he : encode (.ror ⟨.s0, g, d, a, b⟩) = encS 0x18 g d.toNat a.toNat (b.toNat * 2 ^ 10 + 0) := rfl
    refine ⟨he ▸ encS_lt (by omega) (by omega) (by omega) (by omega), accept_of hwf ?_⟩
    rw [he]; unfold rawS
    rw [encS_op_bits] <;> try omega
    simp (disch := omega) only [encS_g, encS_d, encS_a, encS_lo, encS_d_bits, encS_a_bits, encS_lo_bits, encS_lo_bit, fld_high, fld_low, fld_toNat, bitsAt_high, bitsAt_low, bitsAt_zero, bitAt_high, bitAt_low, bitAt_one, Nat.zero_add, Nat.zero_mul, bitAt_b2n, bitAt_of_zero, bitAt_small, BitVec.ofNat_toNat, BitVec.setWidth_eq, Option.map_some, Option.bind_some, if_true, if_false, Bool.false_eq_true]
  · intro hwf sl hs; cases hs
    have he : encode (.ror ⟨.s1, g, d, a, b⟩) = encS 0x18 g d.toNat a.toNat (b.toNat * 2 ^ 10 + 0) := rfl
    refine ⟨he ▸ encS_lt (by omega) (by omega) (by omega) (by omega), accept_of hwf ?_⟩
    rw [he]; unfold rawS
    rw [encS_op_bits] <;> try omega
    simp (disch := omega) only [encS_g, encS_d, encS_a, encS_lo, encS_d_bits, encS_a_bits, encS_lo_bits, encS_lo_bit, fld_high, fld_low, fld_toNat, bitsAt_high, bitsAt_low, bitsAt_zero, bitAt_high, bitAt_low, bitAt_one, Nat.zero_add, Nat.zero_mul, bitAt_b2n, bitAt_of_zero, bitAt_small, BitVec.ofNat_toNat, BitVec.setWidth_eq, Option.map_some, Option.bind_some, if_true, if_false, Bool.false_eq_true]

theorem Laws.RoundTrip.min (o : SRArgs) : Statement (.min o) := by
  obtain ⟨pos, g, d, a, b⟩ := o
  cases pos
  · intro hwf sl hs; cases hs
    have he : encode (.min ⟨.s0, g, d, a, b⟩) = encS 0x19 g d.toNat a.toNat (b.toNat * 2 ^ 10 + 0) := rfl
    refine ⟨he ▸ encS_lt (by omega) (by omega) (by omega) (by omega), accept_of hwf ?_⟩
    rw [he]; unfold rawS
    rw [encS_op_bits] <;> try omega
    simp (disch := omega) only [encS_g, encS_d, encS_a, encS_lo, encS_d_bits, encS_a_bits, encS_lo_bits, encS_lo_bit, fld_high, fld_low, fld_toNat, bitsAt_high, bitsAt_low, bitsAt_zero, bitAt_high, bitAt_low, bitAt_one, Nat.zero_add, Nat.zero_mul, bitAt_b2n, bitAt_of_zero, bitAt_small, BitVec.ofNat_toNat, BitVec.setWidth_eq, Option.map_some, Option.bind_some, if_true, if_false, Bool.false_eq_true]
  · intro hwf sl hs; cases hs
    have he : encode (.min ⟨.s1, g, d, a, b⟩) = encS 0x19 g d.toNat a.toNat (b.toNat * 2 ^ 10 + 0) := rfl
    refine ⟨he ▸ encS_lt (by omega) (by omega) (by omega) (by omega), accept_of hwf ?_⟩
    rw [he]; unfold rawS
    rw [encS_op_bits] <;> try omega
    simp (disch := omega) only [encS_g, encS_d, encS_a, encS_lo, encS_d_bits, encS_a_bits, encS_lo_bits, encS_lo_bit, fld_high, fld_low, fld_toNat, bitsAt_high, bitsAt_low, bitsAt_zero, bitAt_high, bitAt_low, bitAt_one, Nat.zero_add, Nat.zero_mul, bitAt_b2n, bitAt_of_zero, bitAt_small, BitVec.ofNat_toNat, BitVec.setWidth_eq, Option.map_some, Option.bind_some, if_true, if_false, Bool.false_eq_true]

theorem Laws.RoundTrip.max (o : SRArgs) : Statement (.max o) := by
  obtain ⟨pos, g, d, a, b⟩ := o
  cases pos
  · intro hwf sl hs; cases hs
    have he : encode (.max ⟨.s0, g, d, a, b⟩) = encS 0x1A g d.toNat a.toNat (b.toNat * 2 ^ 10 + 0) := rfl
    refine ⟨he ▸ encS_lt (by omega) (by omega) (by omega) (by omega), accept_of hwf ?_⟩
    rw [he]; unfold rawS
    rw [encS_op_bits] <;> try omega
    simp (disch := omega) only [encS_g, encS_d, encS_a, encS_lo, encS_d_bits, encS_a_bits, encS_lo_bits, encS_lo_bit, fld_high, fld_low, fld_toNat, bitsAt_high, bitsAt_low, bitsAt_zero, bitAt_high, bitAt_low, bitAt_one, Nat.zero_add, Nat.zero_mul, bitAt_b2n, bitAt_of_zero, bitAt_small, BitVec.ofNat_toNat, BitVec.setWidth_eq, Option.map_some, Option.bind_some, if_true, if_false, Bool.false_eq_true]
  · intro hwf sl hs; cases hs
    have he : encode (.max ⟨.s1, g, d, a, b⟩) = encS 0x1A g d.toNat a.toNat (b.toNat * 2 ^ 10 + 0) := rfl
    refine ⟨he ▸ encS_lt (by omega) (by omega) (by omega) (by omega), accept_of hwf ?_⟩
    rw [he]; unfold rawS
    rw [encS_op_bits] <;> try omega
    simp (disch := omega) only [encS_g, encS_d, encS_a, encS_lo, encS_d_bits, encS_a_bits, encS_lo_bits, encS_lo_bit, fld_high, fld_low, fld_toNat, bitsAt_high, bitsAt_low, bitsAt_zero, bitAt_high, bitAt_low, bitAt_one, Nat.zero_add, Nat.zero_mul, bitAt_b2n, bitAt_of_zero, bitAt_small, BitVec.ofNat_toNat, BitVec.setWidth_eq, Option.map_some, Option.bind_some, if_true, if_false, Bool.false_eq_true]

theorem Laws.RoundTrip.minu (o : SRArgs) : Statement (.minu o) := by
  obtain ⟨pos, g, d, a, b⟩ := o
  cases pos
  · intro hwf sl hs; cases hs
    have he : encode (.minu ⟨.s0, g, d, a, b⟩) = encS 0x1B g d.toNat a.toNat (b.toNat * 2 ^ 10 + 0) := rfl
    refine ⟨he ▸ encS_lt (by omega) (by omega) (by omega) (by omega), accept_of hwf ?_⟩
    rw [he]; unfold rawS
    rw [encS_op_bits] <;> try omega
    simp (disch := omega) only [encS_g, encS_d, encS_a, encS_lo, encS_d_bits, encS_a_bits, encS_lo_bits, encS_lo_bit, fld_high, fld_low, fld_toNat, bitsAt_high, bitsAt_low, bitsAt_zero, bitAt_high, bitAt_low, bitAt_one, Nat.zero_add, Nat.zero_mul, bitAt_b2n, bitAt_of_zero, bitAt_small, BitVec.ofNat_toNat, BitVec.setWidth_eq, Option.map_some, Option.bind_some, if_true, if_false, Bool.false_eq_true]
  · intro hwf sl hs; cases hs
    have he : encode (.minu ⟨.s1, g, d, a, b⟩) = encS 0x1B g d.toNat a.toNat (b.toNat * 2 ^ 10 + 0) := rfl
    refine ⟨he ▸ encS_lt (by omega) (by omega) (by omega) (by omega), accept_of hwf ?_⟩
    rw [he]; unfold rawS
    rw [encS_op_bits] <;> try omega
    simp (disch := omega) only [encS_g, encS_d, encS_a, encS_lo, encS_d_bits, encS_a_bits, encS_lo_bits, encS_lo_bit, fld_high, fld_low, fld_toNat, bitsAt_high, bitsAt_low, bitsAt_zero, bitAt_high, bitAt_low, bitAt_one, Nat.zero_add, Nat.zero_mul, bitAt_b2n, bitAt_of_zero, bitAt_small, BitVec.ofNat_toNat, BitVec.setWidth_eq, Option.map_some, Option.bind_some, if_true, if_false, Bool.false_eq_true]

theorem Laws.RoundTrip.maxu (o : SRArgs) : Statement (.maxu o) := by
  obtain ⟨pos, g, d, a, b⟩ := o
  cases pos
  · intro hwf sl hs; cases hs
    have he : encode (.maxu ⟨.s0, g, d, a, b⟩) = encS 0x1C g d.toNat a.toNat (b.toNat * 2 ^ 10 + 0) := rfl
    refine ⟨he ▸ encS_lt (by omega) (by omega) (by omega) (by omega), accept_of hwf ?_⟩
    rw [he]; unfold rawS
    rw [encS_op_bits] <;> try omega
    simp (disch := omega) only [encS_g, encS_d, encS_a, encS_lo, encS_d_bits, encS_a_bits, encS_lo_bits, encS_lo_bit, fld_high, fld_low, fld_toNat, bitsAt_high, bitsAt_low, bitsAt_zero, bitAt_high, bitAt_low, bitAt_one, Nat.zero_add, Nat.zero_mul, bitAt_b2n, bitAt_of_zero, bitAt_small, BitVec.ofNat_toNat, BitVec.setWidth_eq, Option.map_some, Option.bind_some, if_true, if_false, Bool.false_eq_true]
  · intro hwf sl hs; cases hs
    have he : encode (.maxu ⟨.s1, g, d, a, b⟩) = encS 0x1C g d.toNat a.toNat (b.toNat * 2 ^ 10 + 0) := rfl
    refine ⟨he ▸ encS_lt (by omega) (by omega) (by omega) (by omega), accept_of hwf ?_⟩
    rw [he]; unfold rawS
    rw [encS_op_bits] <;> try omega
    simp (disch := omega) only [encS_g, encS_d, encS_a, encS_lo, encS_d_bits, encS_a_bits, encS_lo_bits, encS_lo_bit, fld_high, fld_low, fld_toNat, bitsAt_high, bitsAt_low, bitsAt_zero, bitAt_high, bitAt_low, bitAt_one, Nat.zero_add, Nat.zero_mul, bitAt_b2n, bitAt_of_zero, bitAt_small, BitVec.ofNat_toNat, BitVec.setWidth_eq, Option.map_some, Option.bind_some, if_true, if_false, Bool.false_eq_true]

theorem Laws.RoundTrip.abs (o : SUnArgs) : Statement (.abs o) := by
  obtain ⟨pos, g, d, a⟩ := o
  cases pos
  · intro hwf sl hs; cases hs
    have he : encode (.abs ⟨.s0, g, d, a⟩) = encS 0x1D g d.toNat a.toNat (0 * 2 ^ 10 + 0) := rfl
    refine ⟨he ▸ encS_lt (by omega) (by omega) (by omega) (by omega), accept_of hwf ?_⟩
    rw [he]; unfold rawS
    rw [encS_op_bits] <;> try omega
    simp (disch := omega) only [encS_g, encS_d, encS_a, encS_lo, encS_d_bits, encS_a_bits, encS_lo_bits, encS_lo_bit, fld_high, fld_low, fld_toNat, bitsAt_high, bitsAt_low, bitsAt_zero, bitAt_high, bitAt_low, bitAt_one, Nat.zero_add, Nat.zero_mul, bitAt_b2n, bitAt_of_zero, bitAt_small, BitVec.ofNat_toNat, BitVec.setWidth_eq, Option.map_some, Option.bind_some, if_true, if_false, Bool.false_eq_true]
  · intro hwf sl hs; cases hs
    have he : encode (.abs ⟨.s1, g, d, a⟩) = encS 0x1D g d.toNat a.toNat (0 * 2 ^ 10 + 0) := rfl
    refine ⟨he ▸ encS_lt (by omega) (by omega) (by omega) (by omega), accept_of hwf ?_⟩
    rw [he]; unfold rawS
    rw [encS_op_bits] <;> try omega
    simp (disch := omega) only [encS_g, encS_d, encS_a, encS_lo, encS_d_bits, encS_a_bits, encS_lo_bits, encS_lo_bit, fld_high, fld_low, fld_toNat, bitsAt_high, bitsAt_low, bitsAt_zero, bitAt_high, bitAt_low, bitAt_one, Nat.zero_add, Nat.zero_mul, bitAt_b2n, bitAt_of_zero, bitAt_small, BitVec.ofNat_toNat, BitVec.setWidth_eq, Option.map_some, Option.bind_some, if_true, if_false, Bool.false_eq_true]

theorem Laws.RoundTrip.cmpCc (o : CmpArgs) : Statement (.cmpCc o) := by
  obtain ⟨pos, g, cc, pd, a, b⟩ := o
  have := cc.code_lt
  cases pos
  · intro hwf sl hs; cases hs
    have he : encode (.cmpCc ⟨.s0, g, cc, pd, a, b⟩) = encS 0x1E g pd.toNat a.toNat (b.toNat * 2 ^ 10 + cc.code) := rfl
    refine ⟨he ▸ encS_lt (by omega) (by omega) (by omega) (by omega), accept_of hwf ?_⟩
    rw [he]; unfold rawS
    rw [encS_op_bits] <;> try omega
    simp (disch := omega) only [encS_g, encS_d, encS_a, encS_lo, encS_d_bits, encS_a_bits, encS_lo_bits, encS_lo_bit, CmpCc.ofCode_code, fld_high, fld_low, fld_toNat, bitsAt_high, bitsAt_low, bitsAt_zero, bitAt_high, bitAt_low, bitAt_one, Nat.zero_add, Nat.zero_mul, bitAt_b2n, bitAt_of_zero, bitAt_small, BitVec.ofNat_toNat, BitVec.setWidth_eq, Option.map_some, Option.bind_some, if_true, if_false, Bool.false_eq_true]
  · intro hwf sl hs; cases hs
    have he : encode (.cmpCc ⟨.s1, g, cc, pd, a, b⟩) = encS 0x1E g pd.toNat a.toNat (b.toNat * 2 ^ 10 + cc.code) := rfl
    refine ⟨he ▸ encS_lt (by omega) (by omega) (by omega) (by omega), accept_of hwf ?_⟩
    rw [he]; unfold rawS
    rw [encS_op_bits] <;> try omega
    simp (disch := omega) only [encS_g, encS_d, encS_a, encS_lo, encS_d_bits, encS_a_bits, encS_lo_bits, encS_lo_bit, CmpCc.ofCode_code, fld_high, fld_low, fld_toNat, bitsAt_high, bitsAt_low, bitsAt_zero, bitAt_high, bitAt_low, bitAt_one, Nat.zero_add, Nat.zero_mul, bitAt_b2n, bitAt_of_zero, bitAt_small, BitVec.ofNat_toNat, BitVec.setWidth_eq, Option.map_some, Option.bind_some, if_true, if_false, Bool.false_eq_true]

theorem Laws.RoundTrip.cmpiCc (o : CmpiArgs) : Statement (.cmpiCc o) := by
  obtain ⟨pos, g, cc, pd, a, imm⟩ := o
  have := cc.code_lt
  cases pos
  · intro hwf sl hs; cases hs
    have h1 : bitsAt (encS 0x1F g (cc.code * 2 ^ 3 + pd.toNat) a.toNat imm.toNat) 25 3 = cc.code := by have := g.bits_lt; simp only [encS, bitsAt]; omega
    have h2 : BitVec.ofNat 3 (cc.code * 2 ^ 3 + pd.toNat) = pd := by
      apply BitVec.eq_of_toNat_eq; rw [BitVec.toNat_ofNat]; omega
    have he : encode (.cmpiCc ⟨.s0, g, cc, pd, a, imm⟩) = encS 0x1F g (cc.code * 2 ^ 3 + pd.toNat) a.toNat imm.toNat := rfl
    refine ⟨he ▸ encS_lt (by omega) (by omega) (by omega) (by omega), accept_of hwf ?_⟩
    rw [he]; unfold rawS
    rw [encS_op_bits] <;> try omega
    simp (disch := omega) only [h1, h2, encS_g, encS_d, encS_a, encS_lo, encS_d_bits, encS_a_bits, encS_lo_bits, encS_lo_bit, CmpiCc.ofCode_code, fld_high, fld_low, fld_toNat, bitsAt_high, bitsAt_low, bitsAt_zero, bitAt_high, bitAt_low, bitAt_one, Nat.zero_add, Nat.zero_mul, bitAt_b2n, bitAt_of_zero, bitAt_small, BitVec.ofNat_toNat, BitVec.setWidth_eq, Option.map_some, Option.bind_some, if_true, if_false, Bool.false_eq_true]
  · intro hwf sl hs; cases hs
    have h1 : bitsAt (encS 0x1F g (cc.code * 2 ^ 3 + pd.toNat) a.toNat imm.toNat) 25 3 = cc.code := by have := g.bits_lt; simp only [encS, bitsAt]; omega
    have h2 : BitVec.ofNat 3 (cc.code * 2 ^ 3 + pd.toNat) = pd := by
      apply BitVec.eq_of_toNat_eq; rw [BitVec.toNat_ofNat]; omega
    have he : encode (.cmpiCc ⟨.s1, g, cc, pd, a, imm⟩) = encS 0x1F g (cc.code * 2 ^ 3 + pd.toNat) a.toNat imm.toNat := rfl
    refine ⟨he ▸ encS_lt (by omega) (by omega) (by omega) (by omega), accept_of hwf ?_⟩
    rw [he]; unfold rawS
    rw [encS_op_bits] <;> try omega
    simp (disch := omega) only [h1, h2, encS_g, encS_d, encS_a, encS_lo, encS_d_bits, encS_a_bits, encS_lo_bits, encS_lo_bit, CmpiCc.ofCode_code, fld_high, fld_low, fld_toNat, bitsAt_high, bitsAt_low, bitsAt_zero, bitAt_high, bitAt_low, bitAt_one, Nat.zero_add, Nat.zero_mul, bitAt_b2n, bitAt_of_zero, bitAt_small, BitVec.ofNat_toNat, BitVec.setWidth_eq, Option.map_some, Option.bind_some, if_true, if_false, Bool.false_eq_true]

theorem Laws.RoundTrip.movi (o : MovArgs) : Statement (.movi o) := by
  obtain ⟨pos, g, d, hw, imm⟩ := o
  cases pos
  · intro hwf sl hs; cases hs
    have he : encode (.movi ⟨.s0, g, d, hw, imm⟩) = encS 0x20 g d.toNat hw.toNat imm.toNat := rfl
    refine ⟨he ▸ encS_lt (by omega) (by omega) (by omega) (by omega), accept_of hwf ?_⟩
    rw [he]; unfold rawS
    rw [encS_op_bits] <;> try omega
    simp (disch := omega) only [encS_g, encS_d, encS_a, encS_lo, encS_d_bits, encS_a_bits, encS_lo_bits, encS_lo_bit, fld_high, fld_low, fld_toNat, bitsAt_high, bitsAt_low, bitsAt_zero, bitAt_high, bitAt_low, bitAt_one, Nat.zero_add, Nat.zero_mul, bitAt_b2n, bitAt_of_zero, bitAt_small, BitVec.ofNat_toNat, BitVec.setWidth_eq, Option.map_some, Option.bind_some, if_true, if_false, Bool.false_eq_true]
  · intro hwf sl hs; cases hs
    have he : encode (.movi ⟨.s1, g, d, hw, imm⟩) = encS 0x20 g d.toNat hw.toNat imm.toNat := rfl
    refine ⟨he ▸ encS_lt (by omega) (by omega) (by omega) (by omega), accept_of hwf ?_⟩
    rw [he]; unfold rawS
    rw [encS_op_bits] <;> try omega
    simp (disch := omega) only [encS_g, encS_d, encS_a, encS_lo, encS_d_bits, encS_a_bits, encS_lo_bits, encS_lo_bit, fld_high, fld_low, fld_toNat, bitsAt_high, bitsAt_low, bitsAt_zero, bitAt_high, bitAt_low, bitAt_one, Nat.zero_add, Nat.zero_mul, bitAt_b2n, bitAt_of_zero, bitAt_small, BitVec.ofNat_toNat, BitVec.setWidth_eq, Option.map_some, Option.bind_some, if_true, if_false, Bool.false_eq_true]

theorem Laws.RoundTrip.movk (o : MovArgs) : Statement (.movk o) := by
  obtain ⟨pos, g, d, hw, imm⟩ := o
  cases pos
  · intro hwf sl hs; cases hs
    have he : encode (.movk ⟨.s0, g, d, hw, imm⟩) = encS 0x21 g d.toNat hw.toNat imm.toNat := rfl
    refine ⟨he ▸ encS_lt (by omega) (by omega) (by omega) (by omega), accept_of hwf ?_⟩
    rw [he]; unfold rawS
    rw [encS_op_bits] <;> try omega
    simp (disch := omega) only [encS_g, encS_d, encS_a, encS_lo, encS_d_bits, encS_a_bits, encS_lo_bits, encS_lo_bit, fld_high, fld_low, fld_toNat, bitsAt_high, bitsAt_low, bitsAt_zero, bitAt_high, bitAt_low, bitAt_one, Nat.zero_add, Nat.zero_mul, bitAt_b2n, bitAt_of_zero, bitAt_small, BitVec.ofNat_toNat, BitVec.setWidth_eq, Option.map_some, Option.bind_some, if_true, if_false, Bool.false_eq_true]
  · intro hwf sl hs; cases hs
    have he : encode (.movk ⟨.s1, g, d, hw, imm⟩) = encS 0x21 g d.toNat hw.toNat imm.toNat := rfl
    refine ⟨he ▸ encS_lt (by omega) (by omega) (by omega) (by omega), accept_of hwf ?_⟩
    rw [he]; unfold rawS
    rw [encS_op_bits] <;> try omega
    simp (disch := omega) only [encS_g, encS_d, encS_a, encS_lo, encS_d_bits, encS_a_bits, encS_lo_bits, encS_lo_bit, fld_high, fld_low, fld_toNat, bitsAt_high, bitsAt_low, bitsAt_zero, bitAt_high, bitAt_low, bitAt_one, Nat.zero_add, Nat.zero_mul, bitAt_b2n, bitAt_of_zero, bitAt_small, BitVec.ofNat_toNat, BitVec.setWidth_eq, Option.map_some, Option.bind_some, if_true, if_false, Bool.false_eq_true]

theorem Laws.RoundTrip.sext (o : ExtArgs) : Statement (.sext o) := by
  obtain ⟨pos, g, d, a, size⟩ := o
  have := size.code_lt
  cases pos
  · intro hwf sl hs; cases hs
    have he : encode (.sext ⟨.s0, g, d, a, size⟩) = encS 0x22 g d.toNat a.toNat (0 * 2 ^ 10 + size.code) := rfl
    refine ⟨he ▸ encS_lt (by omega) (by omega) (by omega) (by omega), accept_of hwf ?_⟩
    rw [he]; unfold rawS
    rw [encS_op_bits] <;> try omega
    simp (disch := omega) only [encS_g, encS_d, encS_a, encS_lo, encS_d_bits, encS_a_bits, encS_lo_bits, encS_lo_bit, ExtSize.ofCode_code, fld_high, fld_low, fld_toNat, bitsAt_high, bitsAt_low, bitsAt_zero, bitAt_high, bitAt_low, bitAt_one, Nat.zero_add, Nat.zero_mul, bitAt_b2n, bitAt_of_zero, bitAt_small, BitVec.ofNat_toNat, BitVec.setWidth_eq, Option.map_some, Option.bind_some, if_true, if_false, Bool.false_eq_true]
  · intro hwf sl hs; cases hs
    have he : encode (.sext ⟨.s1, g, d, a, size⟩) = encS 0x22 g d.toNat a.toNat (0 * 2 ^ 10 + size.code) := rfl
    refine ⟨he ▸ encS_lt (by omega) (by omega) (by omega) (by omega), accept_of hwf ?_⟩
    rw [he]; unfold rawS
    rw [encS_op_bits] <;> try omega
    simp (disch := omega) only [encS_g, encS_d, encS_a, encS_lo, encS_d_bits, encS_a_bits, encS_lo_bits, encS_lo_bit, ExtSize.ofCode_code, fld_high, fld_low, fld_toNat, bitsAt_high, bitsAt_low, bitsAt_zero, bitAt_high, bitAt_low, bitAt_one, Nat.zero_add, Nat.zero_mul, bitAt_b2n, bitAt_of_zero, bitAt_small, BitVec.ofNat_toNat, BitVec.setWidth_eq, Option.map_some, Option.bind_some, if_true, if_false, Bool.false_eq_true]

theorem Laws.RoundTrip.zext (o : ExtArgs) : Statement (.zext o) := by
  obtain ⟨pos, g, d, a, size⟩ := o
  have := size.code_lt
  cases pos
  · intro hwf sl hs; cases hs
    have he : encode (.zext ⟨.s0, g, d, a, size⟩) = encS 0x23 g d.toNat a.toNat (0 * 2 ^ 10 + size.code) := rfl
    refine ⟨he ▸ encS_lt (by omega) (by omega) (by omega) (by omega), accept_of hwf ?_⟩
    rw [he]; unfold rawS
    rw [encS_op_bits] <;> try omega
    simp (disch := omega) only [encS_g, encS_d, encS_a, encS_lo, encS_d_bits, encS_a_bits, encS_lo_bits, encS_lo_bit, ExtSize.ofCode_code, fld_high, fld_low, fld_toNat, bitsAt_high, bitsAt_low, bitsAt_zero, bitAt_high, bitAt_low, bitAt_one, Nat.zero_add, Nat.zero_mul, bitAt_b2n, bitAt_of_zero, bitAt_small, BitVec.ofNat_toNat, BitVec.setWidth_eq, Option.map_some, Option.bind_some, if_true, if_false, Bool.false_eq_true]
  · intro hwf sl hs; cases hs
    have he : encode (.zext ⟨.s1, g, d, a, size⟩) = encS 0x23 g d.toNat a.toNat (0 * 2 ^ 10 + size.code) := rfl
    refine ⟨he ▸ encS_lt (by omega) (by omega) (by omega) (by omega), accept_of hwf ?_⟩
    rw [he]; unfold rawS
    rw [encS_op_bits] <;> try omega
    simp (disch := omega) only [encS_g, encS_d, encS_a, encS_lo, encS_d_bits, encS_a_bits, encS_lo_bits, encS_lo_bit, ExtSize.ofCode_code, fld_high, fld_low, fld_toNat, bitsAt_high, bitsAt_low, bitsAt_zero, bitAt_high, bitAt_low, bitAt_one, Nat.zero_add, Nat.zero_mul, bitAt_b2n, bitAt_of_zero, bitAt_small, BitVec.ofNat_toNat, BitVec.setWidth_eq, Option.map_some, Option.bind_some, if_true, if_false, Bool.false_eq_true]

theorem Laws.RoundTrip.clz (o : SUnArgs) : Statement (.clz o) := by
  obtain ⟨pos, g, d, a⟩ := o
  cases pos
  · intro hwf sl hs; cases hs
    have he : encode (.clz ⟨.s0, g, d, a⟩) = encS 0x24 g d.toNat a.toNat (0 * 2 ^ 10 + 0) := rfl
    refine ⟨he ▸ encS_lt (by omega) (by omega) (by omega) (by omega), accept_of hwf ?_⟩
    rw [he]; unfold rawS
    rw [encS_op_bits] <;> try omega
    simp (disch := omega) only [encS_g, encS_d, encS_a, encS_lo, encS_d_bits, encS_a_bits, encS_lo_bits, encS_lo_bit, fld_high, fld_low, fld_toNat, bitsAt_high, bitsAt_low, bitsAt_zero, bitAt_high, bitAt_low, bitAt_one, Nat.zero_add, Nat.zero_mul, bitAt_b2n, bitAt_of_zero, bitAt_small, BitVec.ofNat_toNat, BitVec.setWidth_eq, Option.map_some, Option.bind_some, if_true, if_false, Bool.false_eq_true]
  · intro hwf sl hs; cases hs
    have he : encode (.clz ⟨.s1, g, d, a⟩) = encS 0x24 g d.toNat a.toNat (0 * 2 ^ 10 + 0) := rfl
    refine ⟨he ▸ encS_lt (by omega) (by omega) (by omega) (by omega), accept_of hwf ?_⟩
    rw [he]; unfold rawS
    rw [encS_op_bits] <;> try omega
    simp (disch := omega) only [encS_g, encS_d, encS_a, encS_lo, encS_d_bits, encS_a_bits, encS_lo_bits, encS_lo_bit, fld_high, fld_low, fld_toNat, bitsAt_high, bitsAt_low, bitsAt_zero, bitAt_high, bitAt_low, bitAt_one, Nat.zero_add, Nat.zero_mul, bitAt_b2n, bitAt_of_zero, bitAt_small, BitVec.ofNat_toNat, BitVec.setWidth_eq, Option.map_some, Option.bind_some, if_true, if_false, Bool.false_eq_true]

theorem Laws.RoundTrip.ctz (o : SUnArgs) : Statement (.ctz o) := by
  obtain ⟨pos, g, d, a⟩ := o
  cases pos
  · intro hwf sl hs; cases hs
    have he : encode (.ctz ⟨.s0, g, d, a⟩) = encS 0x25 g d.toNat a.toNat (0 * 2 ^ 10 + 0) := rfl
    refine ⟨he ▸ encS_lt (by omega) (by omega) (by omega) (by omega), accept_of hwf ?_⟩
    rw [he]; unfold rawS
    rw [encS_op_bits] <;> try omega
    simp (disch := omega) only [encS_g, encS_d, encS_a, encS_lo, encS_d_bits, encS_a_bits, encS_lo_bits, encS_lo_bit, fld_high, fld_low, fld_toNat, bitsAt_high, bitsAt_low, bitsAt_zero, bitAt_high, bitAt_low, bitAt_one, Nat.zero_add, Nat.zero_mul, bitAt_b2n, bitAt_of_zero, bitAt_small, BitVec.ofNat_toNat, BitVec.setWidth_eq, Option.map_some, Option.bind_some, if_true, if_false, Bool.false_eq_true]
  · intro hwf sl hs; cases hs
    have he : encode (.ctz ⟨.s1, g, d, a⟩) = encS 0x25 g d.toNat a.toNat (0 * 2 ^ 10 + 0) := rfl
    refine ⟨he ▸ encS_lt (by omega) (by omega) (by omega) (by omega), accept_of hwf ?_⟩
    rw [he]; unfold rawS
    rw [encS_op_bits] <;> try omega
    simp (disch := omega) only [encS_g, encS_d, encS_a, encS_lo, encS_d_bits, encS_a_bits, encS_lo_bits, encS_lo_bit, fld_high, fld_low, fld_toNat, bitsAt_high, bitsAt_low, bitsAt_zero, bitAt_high, bitAt_low, bitAt_one, Nat.zero_add, Nat.zero_mul, bitAt_b2n, bitAt_of_zero, bitAt_small, BitVec.ofNat_toNat, BitVec.setWidth_eq, Option.map_some, Option.bind_some, if_true, if_false, Bool.false_eq_true]

theorem Laws.RoundTrip.popc (o : SUnArgs) : Statement (.popc o) := by
  obtain ⟨pos, g, d, a⟩ := o
  cases pos
  · intro hwf sl hs; cases hs
    have he : encode (.popc ⟨.s0, g, d, a⟩) = encS 0x26 g d.toNat a.toNat (0 * 2 ^ 10 + 0) := rfl
    refine ⟨he ▸ encS_lt (by omega) (by omega) (by omega) (by omega), accept_of hwf ?_⟩
    rw [he]; unfold rawS
    rw [encS_op_bits] <;> try omega
    simp (disch := omega) only [encS_g, encS_d, encS_a, encS_lo, encS_d_bits, encS_a_bits, encS_lo_bits, encS_lo_bit, fld_high, fld_low, fld_toNat, bitsAt_high, bitsAt_low, bitsAt_zero, bitAt_high, bitAt_low, bitAt_one, Nat.zero_add, Nat.zero_mul, bitAt_b2n, bitAt_of_zero, bitAt_small, BitVec.ofNat_toNat, BitVec.setWidth_eq, Option.map_some, Option.bind_some, if_true, if_false, Bool.false_eq_true]
  · intro hwf sl hs; cases hs
    have he : encode (.popc ⟨.s1, g, d, a⟩) = encS 0x26 g d.toNat a.toNat (0 * 2 ^ 10 + 0) := rfl
    refine ⟨he ▸ encS_lt (by omega) (by omega) (by omega) (by omega), accept_of hwf ?_⟩
    rw [he]; unfold rawS
    rw [encS_op_bits] <;> try omega
    simp (disch := omega) only [encS_g, encS_d, encS_a, encS_lo, encS_d_bits, encS_a_bits, encS_lo_bits, encS_lo_bit, fld_high, fld_low, fld_toNat, bitsAt_high, bitsAt_low, bitsAt_zero, bitAt_high, bitAt_low, bitAt_one, Nat.zero_add, Nat.zero_mul, bitAt_b2n, bitAt_of_zero, bitAt_small, BitVec.ofNat_toNat, BitVec.setWidth_eq, Option.map_some, Option.bind_some, if_true, if_false, Bool.false_eq_true]

theorem Laws.RoundTrip.bext (o : BextArgs) : Statement (.bext o) := by
  obtain ⟨pos, g, d, a, bit, len1, signed⟩ := o
  have := b2n_lt signed
  cases pos
  · intro hwf sl hs; cases hs
    have he : encode (.bext ⟨.s0, g, d, a, bit, len1, signed⟩) = encS 0x27 g d.toNat a.toNat (bit.toNat * 2 ^ 10 + (b2n signed * 2 ^ 6 + len1.toNat)) := rfl
    refine ⟨he ▸ encS_lt (by omega) (by omega) (by omega) (by omega), accept_of hwf ?_⟩
    rw [he]; unfold rawS
    rw [encS_op_bits] <;> try omega
    simp (disch := omega) only [encS_g, encS_d, encS_a, encS_lo, encS_d_bits, encS_a_bits, encS_lo_bits, encS_lo_bit, fld_high, fld_low, fld_toNat, bitsAt_high, bitsAt_low, bitsAt_zero, bitAt_high, bitAt_low, bitAt_one, Nat.zero_add, Nat.zero_mul, bitAt_b2n, bitAt_of_zero, bitAt_small, BitVec.ofNat_toNat, BitVec.setWidth_eq, Option.map_some, Option.bind_some, if_true, if_false, Bool.false_eq_true]
  · intro hwf sl hs; cases hs
    have he : encode (.bext ⟨.s1, g, d, a, bit, len1, signed⟩) = encS 0x27 g d.toNat a.toNat (bit.toNat * 2 ^ 10 + (b2n signed * 2 ^ 6 + len1.toNat)) := rfl
    refine ⟨he ▸ encS_lt (by omega) (by omega) (by omega) (by omega), accept_of hwf ?_⟩
    rw [he]; unfold rawS
    rw [encS_op_bits] <;> try omega
    simp (disch := omega) only [encS_g, encS_d, encS_a, encS_lo, encS_d_bits, encS_a_bits, encS_lo_bits, encS_lo_bit, fld_high, fld_low, fld_toNat, bitsAt_high, bitsAt_low, bitsAt_zero, bitAt_high, bitAt_low, bitAt_one, Nat.zero_add, Nat.zero_mul, bitAt_b2n, bitAt_of_zero, bitAt_small, BitVec.ofNat_toNat, BitVec.setWidth_eq, Option.map_some, Option.bind_some, if_true, if_false, Bool.false_eq_true]

theorem Laws.RoundTrip.bins (o : BinsArgs) : Statement (.bins o) := by
  obtain ⟨pos, g, d, a, bit, len1⟩ := o
  cases pos
  · intro hwf sl hs; cases hs
    have he : encode (.bins ⟨.s0, g, d, a, bit, len1⟩) = encS 0x28 g d.toNat a.toNat (bit.toNat * 2 ^ 10 + len1.toNat) := rfl
    refine ⟨he ▸ encS_lt (by omega) (by omega) (by omega) (by omega), accept_of hwf ?_⟩
    rw [he]; unfold rawS
    rw [encS_op_bits] <;> try omega
    simp (disch := omega) only [encS_g, encS_d, encS_a, encS_lo, encS_d_bits, encS_a_bits, encS_lo_bits, encS_lo_bit, fld_high, fld_low, fld_toNat, bitsAt_high, bitsAt_low, bitsAt_zero, bitAt_high, bitAt_low, bitAt_one, Nat.zero_add, Nat.zero_mul, bitAt_b2n, bitAt_of_zero, bitAt_small, BitVec.ofNat_toNat, BitVec.setWidth_eq, Option.map_some, Option.bind_some, if_true, if_false, Bool.false_eq_true]
  · intro hwf sl hs; cases hs
    have he : encode (.bins ⟨.s1, g, d, a, bit, len1⟩) = encS 0x28 g d.toNat a.toNat (bit.toNat * 2 ^ 10 + len1.toNat) := rfl
    refine ⟨he ▸ encS_lt (by omega) (by omega) (by omega) (by omega), accept_of hwf ?_⟩
    rw [he]; unfold rawS
    rw [encS_op_bits] <;> try omega
    simp (disch := omega) only [encS_g, encS_d, encS_a, encS_lo, encS_d_bits, encS_a_bits, encS_lo_bits, encS_lo_bit, fld_high, fld_low, fld_toNat, bitsAt_high, bitsAt_low, bitsAt_zero, bitAt_high, bitAt_low, bitAt_one, Nat.zero_add, Nat.zero_mul, bitAt_b2n, bitAt_of_zero, bitAt_small, BitVec.ofNat_toNat, BitVec.setWidth_eq, Option.map_some, Option.bind_some, if_true, if_false, Bool.false_eq_true]

theorem Laws.RoundTrip.selp (o : SelpArgs) : Statement (.selp o) := by
  obtain ⟨pos, g, d, a, b, n⟩ := o
  cases pos
  · intro hwf sl hs; cases hs
    have he : encode (.selp ⟨.s0, g, d, a, b, n⟩) = encS 0x29 g d.toNat a.toNat (b.toNat * 2 ^ 10 + n.toNat) := rfl
    refine ⟨he ▸ encS_lt (by omega) (by omega) (by omega) (by omega), accept_of hwf ?_⟩
    rw [he]; unfold rawS
    rw [encS_op_bits] <;> try omega
    simp (disch := omega) only [encS_g, encS_d, encS_a, encS_lo, encS_d_bits, encS_a_bits, encS_lo_bits, encS_lo_bit, fld_high, fld_low, fld_toNat, bitsAt_high, bitsAt_low, bitsAt_zero, bitAt_high, bitAt_low, bitAt_one, Nat.zero_add, Nat.zero_mul, bitAt_b2n, bitAt_of_zero, bitAt_small, BitVec.ofNat_toNat, BitVec.setWidth_eq, Option.map_some, Option.bind_some, if_true, if_false, Bool.false_eq_true]
  · intro hwf sl hs; cases hs
    have he : encode (.selp ⟨.s1, g, d, a, b, n⟩) = encS 0x29 g d.toNat a.toNat (b.toNat * 2 ^ 10 + n.toNat) := rfl
    refine ⟨he ▸ encS_lt (by omega) (by omega) (by omega) (by omega), accept_of hwf ?_⟩
    rw [he]; unfold rawS
    rw [encS_op_bits] <;> try omega
    simp (disch := omega) only [encS_g, encS_d, encS_a, encS_lo, encS_d_bits, encS_a_bits, encS_lo_bits, encS_lo_bit, fld_high, fld_low, fld_toNat, bitsAt_high, bitsAt_low, bitsAt_zero, bitAt_high, bitAt_low, bitAt_one, Nat.zero_add, Nat.zero_mul, bitAt_b2n, bitAt_of_zero, bitAt_small, BitVec.ofNat_toNat, BitVec.setWidth_eq, Option.map_some, Option.bind_some, if_true, if_false, Bool.false_eq_true]

theorem Laws.RoundTrip.lea (o : LeaArgs) : Statement (.lea o) := by
  obtain ⟨pos, g, d, a, b, sh⟩ := o
  cases pos
  · intro hwf sl hs; cases hs
    have he : encode (.lea ⟨.s0, g, d, a, b, sh⟩) = encS 0x2A g d.toNat a.toNat (b.toNat * 2 ^ 10 + sh.toNat) := rfl
    refine ⟨he ▸ encS_lt (by omega) (by omega) (by omega) (by omega), accept_of hwf ?_⟩
    rw [he]; unfold rawS
    rw [encS_op_bits] <;> try omega
    simp (disch := omega) only [encS_g, encS_d, encS_a, encS_lo, encS_d_bits, encS_a_bits, encS_lo_bits, encS_lo_bit, fld_high, fld_low, fld_toNat, bitsAt_high, bitsAt_low, bitsAt_zero, bitAt_high, bitAt_low, bitAt_one, Nat.zero_add, Nat.zero_mul, bitAt_b2n, bitAt_of_zero, bitAt_small, BitVec.ofNat_toNat, BitVec.setWidth_eq, Option.map_some, Option.bind_some, if_true, if_false, Bool.false_eq_true]
  · intro hwf sl hs; cases hs
    have he : encode (.lea ⟨.s1, g, d, a, b, sh⟩) = encS 0x2A g d.toNat a.toNat (b.toNat * 2 ^ 10 + sh.toNat) := rfl
    refine ⟨he ▸ encS_lt (by omega) (by omega) (by omega) (by omega), accept_of hwf ?_⟩
    rw [he]; unfold rawS
    rw [encS_op_bits] <;> try omega
    simp (disch := omega) only [encS_g, encS_d, encS_a, encS_lo, encS_d_bits, encS_a_bits, encS_lo_bits, encS_lo_bit, fld_high, fld_low, fld_toNat, bitsAt_high, bitsAt_low, bitsAt_zero, bitAt_high, bitAt_low, bitAt_one, Nat.zero_add, Nat.zero_mul, bitAt_b2n, bitAt_of_zero, bitAt_small, BitVec.ofNat_toNat, BitVec.setWidth_eq, Option.map_some, Option.bind_some, if_true, if_false, Bool.false_eq_true]

theorem Laws.RoundTrip.pmov (o : PmovArgs) : Statement (.pmov o) := by
  obtain ⟨pos, g, d⟩ := o
  cases pos
  · intro hwf sl hs; cases hs
    have he : encode (.pmov ⟨.s0, g, d⟩) = encS 0x2B g d.toNat 0 (0 * 2 ^ 10 + 0) := rfl
    refine ⟨he ▸ encS_lt (by omega) (by omega) (by omega) (by omega), accept_of hwf ?_⟩
    rw [he]; unfold rawS
    rw [encS_op_bits] <;> try omega
    simp (disch := omega) only [encS_g, encS_d, encS_a, encS_lo, encS_d_bits, encS_a_bits, encS_lo_bits, encS_lo_bit, fld_high, fld_low, fld_toNat, bitsAt_high, bitsAt_low, bitsAt_zero, bitAt_high, bitAt_low, bitAt_one, Nat.zero_add, Nat.zero_mul, bitAt_b2n, bitAt_of_zero, bitAt_small, BitVec.ofNat_toNat, BitVec.setWidth_eq, Option.map_some, Option.bind_some, if_true, if_false, Bool.false_eq_true]
  · intro hwf sl hs; cases hs
    have he : encode (.pmov ⟨.s1, g, d⟩) = encS 0x2B g d.toNat 0 (0 * 2 ^ 10 + 0) := rfl
    refine ⟨he ▸ encS_lt (by omega) (by omega) (by omega) (by omega), accept_of hwf ?_⟩
    rw [he]; unfold rawS
    rw [encS_op_bits] <;> try omega
    simp (disch := omega) only [encS_g, encS_d, encS_a, encS_lo, encS_d_bits, encS_a_bits, encS_lo_bits, encS_lo_bit, fld_high, fld_low, fld_toNat, bitsAt_high, bitsAt_low, bitsAt_zero, bitAt_high, bitAt_low, bitAt_one, Nat.zero_add, Nat.zero_mul, bitAt_b2n, bitAt_of_zero, bitAt_small, BitVec.ofNat_toNat, BitVec.setWidth_eq, Option.map_some, Option.bind_some, if_true, if_false, Bool.false_eq_true]

theorem Laws.RoundTrip.pset (o : PsetArgs) : Statement (.pset o) := by
  obtain ⟨pos, g, pd, a, bit⟩ := o
  cases pos
  · intro hwf sl hs; cases hs
    have he : encode (.pset ⟨.s0, g, pd, a, bit⟩) = encS 0x2C g pd.toNat a.toNat (0 * 2 ^ 10 + bit.toNat) := rfl
    refine ⟨he ▸ encS_lt (by omega) (by omega) (by omega) (by omega), accept_of hwf ?_⟩
    rw [he]; unfold rawS
    rw [encS_op_bits] <;> try omega
    simp (disch := omega) only [encS_g, encS_d, encS_a, encS_lo, encS_d_bits, encS_a_bits, encS_lo_bits, encS_lo_bit, fld_high, fld_low, fld_toNat, bitsAt_high, bitsAt_low, bitsAt_zero, bitAt_high, bitAt_low, bitAt_one, Nat.zero_add, Nat.zero_mul, bitAt_b2n, bitAt_of_zero, bitAt_small, BitVec.ofNat_toNat, BitVec.setWidth_eq, Option.map_some, Option.bind_some, if_true, if_false, Bool.false_eq_true]
  · intro hwf sl hs; cases hs
    have he : encode (.pset ⟨.s1, g, pd, a, bit⟩) = encS 0x2C g pd.toNat a.toNat (0 * 2 ^ 10 + bit.toNat) := rfl
    refine ⟨he ▸ encS_lt (by omega) (by omega) (by omega) (by omega), accept_of hwf ?_⟩
    rw [he]; unfold rawS
    rw [encS_op_bits] <;> try omega
    simp (disch := omega) only [encS_g, encS_d, encS_a, encS_lo, encS_d_bits, encS_a_bits, encS_lo_bits, encS_lo_bit, fld_high, fld_low, fld_toNat, bitsAt_high, bitsAt_low, bitsAt_zero, bitAt_high, bitAt_low, bitAt_one, Nat.zero_add, Nat.zero_mul, bitAt_b2n, bitAt_of_zero, bitAt_small, BitVec.ofNat_toNat, BitVec.setWidth_eq, Option.map_some, Option.bind_some, if_true, if_false, Bool.false_eq_true]

theorem Laws.RoundTrip.faddS (o : SFpArgs) : Statement (.faddS o) := by
  obtain ⟨pos, g, d, a, b, rnd⟩ := o
  have := rnd.code_lt
  cases pos
  · intro hwf sl hs; cases hs
    have he : encode (.faddS ⟨.s0, g, d, a, b, rnd⟩) = encS 0x2D g d.toNat a.toNat (b.toNat * 2 ^ 10 + rnd.code) := rfl
    refine ⟨he ▸ encS_lt (by omega) (by omega) (by omega) (by omega), accept_of hwf ?_⟩
    rw [he]; unfold rawS
    rw [encS_op_bits] <;> try omega
    simp (disch := omega) only [encS_g, encS_d, encS_a, encS_lo, encS_d_bits, encS_a_bits, encS_lo_bits, encS_lo_bit, Rnd.ofCode_code, fld_high, fld_low, fld_toNat, bitsAt_high, bitsAt_low, bitsAt_zero, bitAt_high, bitAt_low, bitAt_one, Nat.zero_add, Nat.zero_mul, bitAt_b2n, bitAt_of_zero, bitAt_small, BitVec.ofNat_toNat, BitVec.setWidth_eq, Option.map_some, Option.bind_some, if_true, if_false, Bool.false_eq_true]
  · intro hwf sl hs; cases hs
    have he : encode (.faddS ⟨.s1, g, d, a, b, rnd⟩) = encS 0x2D g d.toNat a.toNat (b.toNat * 2 ^ 10 + rnd.code) := rfl
    refine ⟨he ▸ encS_lt (by omega) (by omega) (by omega) (by omega), accept_of hwf ?_⟩
    rw [he]; unfold rawS
    rw [encS_op_bits] <;> try omega
    simp (disch := omega) only [encS_g, encS_d, encS_a, encS_lo, encS_d_bits, encS_a_bits, encS_lo_bits, encS_lo_bit, Rnd.ofCode_code, fld_high, fld_low, fld_toNat, bitsAt_high, bitsAt_low, bitsAt_zero, bitAt_high, bitAt_low, bitAt_one, Nat.zero_add, Nat.zero_mul, bitAt_b2n, bitAt_of_zero, bitAt_small, BitVec.ofNat_toNat, BitVec.setWidth_eq, Option.map_some, Option.bind_some, if_true, if_false, Bool.false_eq_true]

theorem Laws.RoundTrip.fmulS (o : SFpArgs) : Statement (.fmulS o) := by
  obtain ⟨pos, g, d, a, b, rnd⟩ := o
  have := rnd.code_lt
  cases pos
  · intro hwf sl hs; cases hs
    have he : encode (.fmulS ⟨.s0, g, d, a, b, rnd⟩) = encS 0x2E g d.toNat a.toNat (b.toNat * 2 ^ 10 + rnd.code) := rfl
    refine ⟨he ▸ encS_lt (by omega) (by omega) (by omega) (by omega), accept_of hwf ?_⟩
    rw [he]; unfold rawS
    rw [encS_op_bits] <;> try omega
    simp (disch := omega) only [encS_g, encS_d, encS_a, encS_lo, encS_d_bits, encS_a_bits, encS_lo_bits, encS_lo_bit, Rnd.ofCode_code, fld_high, fld_low, fld_toNat, bitsAt_high, bitsAt_low, bitsAt_zero, bitAt_high, bitAt_low, bitAt_one, Nat.zero_add, Nat.zero_mul, bitAt_b2n, bitAt_of_zero, bitAt_small, BitVec.ofNat_toNat, BitVec.setWidth_eq, Option.map_some, Option.bind_some, if_true, if_false, Bool.false_eq_true]
  · intro hwf sl hs; cases hs
    have he : encode (.fmulS ⟨.s1, g, d, a, b, rnd⟩) = encS 0x2E g d.toNat a.toNat (b.toNat * 2 ^ 10 + rnd.code) := rfl
    refine ⟨he ▸ encS_lt (by omega) (by omega) (by omega) (by omega), accept_of hwf ?_⟩
    rw [he]; unfold rawS
    rw [encS_op_bits] <;> try omega
    simp (disch := omega) only [encS_g, encS_d, encS_a, encS_lo, encS_d_bits, encS_a_bits, encS_lo_bits, encS_lo_bit, Rnd.ofCode_code, fld_high, fld_low, fld_toNat, bitsAt_high, bitsAt_low, bitsAt_zero, bitAt_high, bitAt_low, bitAt_one, Nat.zero_add, Nat.zero_mul, bitAt_b2n, bitAt_of_zero, bitAt_small, BitVec.ofNat_toNat, BitVec.setWidth_eq, Option.map_some, Option.bind_some, if_true, if_false, Bool.false_eq_true]

theorem Laws.RoundTrip.ffmaS (o : SFpArgs) : Statement (.ffmaS o) := by
  obtain ⟨pos, g, d, a, b, rnd⟩ := o
  have := rnd.code_lt
  cases pos
  · intro hwf sl hs; cases hs
    have he : encode (.ffmaS ⟨.s0, g, d, a, b, rnd⟩) = encS 0x2F g d.toNat a.toNat (b.toNat * 2 ^ 10 + rnd.code) := rfl
    refine ⟨he ▸ encS_lt (by omega) (by omega) (by omega) (by omega), accept_of hwf ?_⟩
    rw [he]; unfold rawS
    rw [encS_op_bits] <;> try omega
    simp (disch := omega) only [encS_g, encS_d, encS_a, encS_lo, encS_d_bits, encS_a_bits, encS_lo_bits, encS_lo_bit, Rnd.ofCode_code, fld_high, fld_low, fld_toNat, bitsAt_high, bitsAt_low, bitsAt_zero, bitAt_high, bitAt_low, bitAt_one, Nat.zero_add, Nat.zero_mul, bitAt_b2n, bitAt_of_zero, bitAt_small, BitVec.ofNat_toNat, BitVec.setWidth_eq, Option.map_some, Option.bind_some, if_true, if_false, Bool.false_eq_true]
  · intro hwf sl hs; cases hs
    have he : encode (.ffmaS ⟨.s1, g, d, a, b, rnd⟩) = encS 0x2F g d.toNat a.toNat (b.toNat * 2 ^ 10 + rnd.code) := rfl
    refine ⟨he ▸ encS_lt (by omega) (by omega) (by omega) (by omega), accept_of hwf ?_⟩
    rw [he]; unfold rawS
    rw [encS_op_bits] <;> try omega
    simp (disch := omega) only [encS_g, encS_d, encS_a, encS_lo, encS_d_bits, encS_a_bits, encS_lo_bits, encS_lo_bit, Rnd.ofCode_code, fld_high, fld_low, fld_toNat, bitsAt_high, bitsAt_low, bitsAt_zero, bitAt_high, bitAt_low, bitAt_one, Nat.zero_add, Nat.zero_mul, bitAt_b2n, bitAt_of_zero, bitAt_small, BitVec.ofNat_toNat, BitVec.setWidth_eq, Option.map_some, Option.bind_some, if_true, if_false, Bool.false_eq_true]

theorem Laws.RoundTrip.fcmpCc (o : SFcmpArgs) : Statement (.fcmpCc o) := by
  obtain ⟨pos, g, cc, pd, a, b⟩ := o
  have := cc.code_lt
  cases pos
  · intro hwf sl hs; cases hs
    have he : encode (.fcmpCc ⟨.s0, g, cc, pd, a, b⟩) = encS 0x30 g pd.toNat a.toNat (b.toNat * 2 ^ 10 + cc.code) := rfl
    refine ⟨he ▸ encS_lt (by omega) (by omega) (by omega) (by omega), accept_of hwf ?_⟩
    rw [he]; unfold rawS
    rw [encS_op_bits] <;> try omega
    simp (disch := omega) only [encS_g, encS_d, encS_a, encS_lo, encS_d_bits, encS_a_bits, encS_lo_bits, encS_lo_bit, FcmpCc.ofCode_code, fld_high, fld_low, fld_toNat, bitsAt_high, bitsAt_low, bitsAt_zero, bitAt_high, bitAt_low, bitAt_one, Nat.zero_add, Nat.zero_mul, bitAt_b2n, bitAt_of_zero, bitAt_small, BitVec.ofNat_toNat, BitVec.setWidth_eq, Option.map_some, Option.bind_some, if_true, if_false, Bool.false_eq_true]
  · intro hwf sl hs; cases hs
    have he : encode (.fcmpCc ⟨.s1, g, cc, pd, a, b⟩) = encS 0x30 g pd.toNat a.toNat (b.toNat * 2 ^ 10 + cc.code) := rfl
    refine ⟨he ▸ encS_lt (by omega) (by omega) (by omega) (by omega), accept_of hwf ?_⟩
    rw [he]; unfold rawS
    rw [encS_op_bits] <;> try omega
    simp (disch := omega) only [encS_g, encS_d, encS_a, encS_lo, encS_d_bits, encS_a_bits, encS_lo_bits, encS_lo_bit, FcmpCc.ofCode_code, fld_high, fld_low, fld_toNat, bitsAt_high, bitsAt_low, bitsAt_zero, bitAt_high, bitAt_low, bitAt_one, Nat.zero_add, Nat.zero_mul, bitAt_b2n, bitAt_of_zero, bitAt_small, BitVec.ofNat_toNat, BitVec.setWidth_eq, Option.map_some, Option.bind_some, if_true, if_false, Bool.false_eq_true]

theorem Laws.RoundTrip.fcvt (o : SFcvtArgs) : Statement (.fcvt o) := by
  obtain ⟨pos, g, d, a, to_, from_, rnd, sat⟩ := o
  have := to_.code_lt
  have := from_.code_lt
  have := rnd.code_lt
  have := b2n_lt sat
  cases pos
  · intro hwf sl hs; cases hs
    have h1 : bitsAt (b2n sat * 2 ^ 7 + rnd.code * 2 ^ 4 + from_.code) 0 4 = from_.code := by simp only [bitsAt]; omega
    have h2 : bitsAt (b2n sat * 2 ^ 7 + rnd.code * 2 ^ 4 + from_.code) 4 3 = rnd.code := by simp only [bitsAt]; omega
    have h3 : bitAt (b2n sat * 2 ^ 7 + rnd.code * 2 ^ 4 + from_.code) 7 = sat := by cases sat <;> simp [bitAt, b2n] <;> omega
    have he : encode (.fcvt ⟨.s0, g, d, a, to_, from_, rnd, sat⟩) = encS 0x31 g d.toNat a.toNat (to_.code * 2 ^ 10 + (b2n sat * 2 ^ 7 + rnd.code * 2 ^ 4 + from_.code)) := rfl
    refine ⟨he ▸ encS_lt (by omega) (by omega) (by omega) (by omega), accept_of hwf ?_⟩
    rw [he]; unfold rawS
    rw [encS_op_bits] <;> try omega
    simp (disch := omega) only [h1, h2, h3, encS_g, encS_d, encS_a, encS_lo, encS_d_bits, encS_a_bits, encS_lo_bits, encS_lo_bit, Fmt.ofCode_code, Rnd.ofCode_code, fld_high, fld_low, fld_toNat, bitsAt_high, bitsAt_low, bitsAt_zero, bitAt_high, bitAt_low, bitAt_one, Nat.zero_add, Nat.zero_mul, bitAt_b2n, bitAt_of_zero, bitAt_small, BitVec.ofNat_toNat, BitVec.setWidth_eq, Option.map_some, Option.bind_some, if_true, if_false, Bool.false_eq_true]
  · intro hwf sl hs; cases hs
    have h1 : bitsAt (b2n sat * 2 ^ 7 + rnd.code * 2 ^ 4 + from_.code) 0 4 = from_.code := by simp only [bitsAt]; omega
    have h2 : bitsAt (b2n sat * 2 ^ 7 + rnd.code * 2 ^ 4 + from_.code) 4 3 = rnd.code := by simp only [bitsAt]; omega
    have h3 : bitAt (b2n sat * 2 ^ 7 + rnd.code * 2 ^ 4 + from_.code) 7 = sat := by cases sat <;> simp [bitAt, b2n] <;> omega
    have he : encode (.fcvt ⟨.s1, g, d, a, to_, from_, rnd, sat⟩) = encS 0x31 g d.toNat a.toNat (to_.code * 2 ^ 10 + (b2n sat * 2 ^ 7 + rnd.code * 2 ^ 4 + from_.code)) := rfl
    refine ⟨he ▸ encS_lt (by omega) (by omega) (by omega) (by omega), accept_of hwf ?_⟩
    rw [he]; unfold rawS
    rw [encS_op_bits] <;> try omega
    simp (disch := omega) only [h1, h2, h3, encS_g, encS_d, encS_a, encS_lo, encS_d_bits, encS_a_bits, encS_lo_bits, encS_lo_bit, Fmt.ofCode_code, Rnd.ofCode_code, fld_high, fld_low, fld_toNat, bitsAt_high, bitsAt_low, bitsAt_zero, bitAt_high, bitAt_low, bitAt_one, Nat.zero_add, Nat.zero_mul, bitAt_b2n, bitAt_of_zero, bitAt_small, BitVec.ofNat_toNat, BitVec.setWidth_eq, Option.map_some, Option.bind_some, if_true, if_false, Bool.false_eq_true]

theorem Laws.RoundTrip.packwe (o : PackweArgs) : Statement (.packwe o) := by
  obtain ⟨pos, g, d, a, b, f32⟩ := o
  have := b2n_lt f32
  cases pos
  · intro hwf sl hs; cases hs
    have he : encode (.packwe ⟨.s0, g, d, a, b, f32⟩) = encS 0x32 g d.toNat a.toNat (b.toNat * 2 ^ 10 + (b2n f32)) := rfl
    refine ⟨he ▸ encS_lt (by omega) (by omega) (by omega) (by omega), accept_of hwf ?_⟩
    rw [he]; unfold rawS
    rw [encS_op_bits] <;> try omega
    simp (disch := omega) only [encS_g, encS_d, encS_a, encS_lo, encS_d_bits, encS_a_bits, encS_lo_bits, encS_lo_bit, fld_high, fld_low, fld_toNat, bitsAt_high, bitsAt_low, bitsAt_zero, bitAt_high, bitAt_low, bitAt_one, Nat.zero_add, Nat.zero_mul, bitAt_b2n, bitAt_of_zero, bitAt_small, BitVec.ofNat_toNat, BitVec.setWidth_eq, Option.map_some, Option.bind_some, if_true, if_false, Bool.false_eq_true]
  · intro hwf sl hs; cases hs
    have he : encode (.packwe ⟨.s1, g, d, a, b, f32⟩) = encS 0x32 g d.toNat a.toNat (b.toNat * 2 ^ 10 + (b2n f32)) := rfl
    refine ⟨he ▸ encS_lt (by omega) (by omega) (by omega) (by omega), accept_of hwf ?_⟩
    rw [he]; unfold rawS
    rw [encS_op_bits] <;> try omega
    simp (disch := omega) only [encS_g, encS_d, encS_a, encS_lo, encS_d_bits, encS_a_bits, encS_lo_bits, encS_lo_bit, fld_high, fld_low, fld_toNat, bitsAt_high, bitsAt_low, bitsAt_zero, bitAt_high, bitAt_low, bitAt_one, Nat.zero_add, Nat.zero_mul, bitAt_b2n, bitAt_of_zero, bitAt_small, BitVec.ofNat_toNat, BitVec.setWidth_eq, Option.map_some, Option.bind_some, if_true, if_false, Bool.false_eq_true]

theorem Laws.RoundTrip.vadd (o : VIntArgs) : Statement (.vadd o) := by
  obtain ⟨vg, vd, va, b, fmt, sat⟩ := o
  have := fmt.code_lt
  have := b2n_lt sat
  cases b with
  | reg b =>
    intro hwf sl hs; cases hs
    have he : encode (.vadd ⟨vg, vd, va, (.reg b), fmt, sat⟩) = encV 0x01 vg.g vg.q.toNat vg.qneg vd.toNat va.toNat b.toNat 0 fmt.code 0 sat 0 0 := rfl
    refine ⟨he ▸ encV_lt (by omega) (by omega) (by omega) (by omega) (by omega) (by omega) (by omega) (by omega) (by omega) (by omega), accept_of hwf ?_⟩
    rw [he]; unfold rawV
    rw [encV_op_bits] <;> try omega
    simp (disch := omega) only [encV_g, encV_q, encV_qneg, encV_vd, encV_va, encV_vb, encV_vc, encV_fmt, encV_rnd, encV_sat, encV_s, encV_imm, encV_q_bits, encV_vd_bits, encV_va_bits, encV_vb_bits, encV_vc_bits, encV_fmt_bits, encV_rnd_bits, encV_s_bits, encV_imm_bits, encV_imm_bit, VGuard.at, VSrc.at, Fmt.ofCode_code, fld_high, fld_low, fld_toNat, bitsAt_high, bitsAt_low, bitsAt_zero, bitAt_high, bitAt_low, bitAt_one, Nat.zero_add, Nat.zero_mul, bitAt_b2n, bitAt_of_zero, bitAt_small, BitVec.ofNat_toNat, BitVec.setWidth_eq, Option.map_some, Option.bind_some, if_true, if_false, Bool.false_eq_true]
  | scalar b =>
    intro hwf sl hs; cases hs
    have he : encode (.vadd ⟨vg, vd, va, (.scalar b), fmt, sat⟩) = encV 0x01 vg.g vg.q.toNat vg.qneg vd.toNat va.toNat 0 0 fmt.code 0 sat b.toNat (1 * 2 ^ 13 + 0) := rfl
    refine ⟨he ▸ encV_lt (by omega) (by omega) (by omega) (by omega) (by omega) (by omega) (by omega) (by omega) (by omega) (by omega), accept_of hwf ?_⟩
    rw [he]; unfold rawV
    rw [encV_op_bits] <;> try omega
    simp (disch := omega) only [encV_g, encV_q, encV_qneg, encV_vd, encV_va, encV_vb, encV_vc, encV_fmt, encV_rnd, encV_sat, encV_s, encV_imm, encV_q_bits, encV_vd_bits, encV_va_bits, encV_vb_bits, encV_vc_bits, encV_fmt_bits, encV_rnd_bits, encV_s_bits, encV_imm_bits, encV_imm_bit, VGuard.at, VSrc.at, Fmt.ofCode_code, fld_high, fld_low, fld_toNat, bitsAt_high, bitsAt_low, bitsAt_zero, bitAt_high, bitAt_low, bitAt_one, Nat.zero_add, Nat.zero_mul, bitAt_b2n, bitAt_of_zero, bitAt_small, BitVec.ofNat_toNat, BitVec.setWidth_eq, Option.map_some, Option.bind_some, if_true, if_false, Bool.false_eq_true]

theorem Laws.RoundTrip.vsub (o : VIntArgs) : Statement (.vsub o) := by
  obtain ⟨vg, vd, va, b, fmt, sat⟩ := o
  have := fmt.code_lt
  have := b2n_lt sat
  cases b with
  | reg b =>
    intro hwf sl hs; cases hs
    have he : encode (.vsub ⟨vg, vd, va, (.reg b), fmt, sat⟩) = encV 0x02 vg.g vg.q.toNat vg.qneg vd.toNat va.toNat b.toNat 0 fmt.code 0 sat 0 0 := rfl
    refine ⟨he ▸ encV_lt (by omega) (by omega) (by omega) (by omega) (by omega) (by omega) (by omega) (by omega) (by omega) (by omega), accept_of hwf ?_⟩
    rw [he]; unfold rawV
    rw [encV_op_bits] <;> try omega
    simp (disch := omega) only [encV_g, encV_q, encV_qneg, encV_vd, encV_va, encV_vb, encV_vc, encV_fmt, encV_rnd, encV_sat, encV_s, encV_imm, encV_q_bits, encV_vd_bits, encV_va_bits, encV_vb_bits, encV_vc_bits, encV_fmt_bits, encV_rnd_bits, encV_s_bits, encV_imm_bits, encV_imm_bit, VGuard.at, VSrc.at, Fmt.ofCode_code, fld_high, fld_low, fld_toNat, bitsAt_high, bitsAt_low, bitsAt_zero, bitAt_high, bitAt_low, bitAt_one, Nat.zero_add, Nat.zero_mul, bitAt_b2n, bitAt_of_zero, bitAt_small, BitVec.ofNat_toNat, BitVec.setWidth_eq, Option.map_some, Option.bind_some, if_true, if_false, Bool.false_eq_true]
  | scalar b =>
    intro hwf sl hs; cases hs
    have he : encode (.vsub ⟨vg, vd, va, (.scalar b), fmt, sat⟩) = encV 0x02 vg.g vg.q.toNat vg.qneg vd.toNat va.toNat 0 0 fmt.code 0 sat b.toNat (1 * 2 ^ 13 + 0) := rfl
    refine ⟨he ▸ encV_lt (by omega) (by omega) (by omega) (by omega) (by omega) (by omega) (by omega) (by omega) (by omega) (by omega), accept_of hwf ?_⟩
    rw [he]; unfold rawV
    rw [encV_op_bits] <;> try omega
    simp (disch := omega) only [encV_g, encV_q, encV_qneg, encV_vd, encV_va, encV_vb, encV_vc, encV_fmt, encV_rnd, encV_sat, encV_s, encV_imm, encV_q_bits, encV_vd_bits, encV_va_bits, encV_vb_bits, encV_vc_bits, encV_fmt_bits, encV_rnd_bits, encV_s_bits, encV_imm_bits, encV_imm_bit, VGuard.at, VSrc.at, Fmt.ofCode_code, fld_high, fld_low, fld_toNat, bitsAt_high, bitsAt_low, bitsAt_zero, bitAt_high, bitAt_low, bitAt_one, Nat.zero_add, Nat.zero_mul, bitAt_b2n, bitAt_of_zero, bitAt_small, BitVec.ofNat_toNat, BitVec.setWidth_eq, Option.map_some, Option.bind_some, if_true, if_false, Bool.false_eq_true]

theorem Laws.RoundTrip.vmul (o : VIntArgs) : Statement (.vmul o) := by
  obtain ⟨vg, vd, va, b, fmt, sat⟩ := o
  have := fmt.code_lt
  have := b2n_lt sat
  cases b with
  | reg b =>
    intro hwf sl hs; cases hs
    have he : encode (.vmul ⟨vg, vd, va, (.reg b), fmt, sat⟩) = encV 0x03 vg.g vg.q.toNat vg.qneg vd.toNat va.toNat b.toNat 0 fmt.code 0 sat 0 0 := rfl
    refine ⟨he ▸ encV_lt (by omega) (by omega) (by omega) (by omega) (by omega) (by omega) (by omega) (by omega) (by omega) (by omega), accept_of hwf ?_⟩
    rw [he]; unfold rawV
    rw [encV_op_bits] <;> try omega
    simp (disch := omega) only [encV_g, encV_q, encV_qneg, encV_vd, encV_va, encV_vb, encV_vc, encV_fmt, encV_rnd, encV_sat, encV_s, encV_imm, encV_q_bits, encV_vd_bits, encV_va_bits, encV_vb_bits, encV_vc_bits, encV_fmt_bits, encV_rnd_bits, encV_s_bits, encV_imm_bits, encV_imm_bit, VGuard.at, VSrc.at, Fmt.ofCode_code, fld_high, fld_low, fld_toNat, bitsAt_high, bitsAt_low, bitsAt_zero, bitAt_high, bitAt_low, bitAt_one, Nat.zero_add, Nat.zero_mul, bitAt_b2n, bitAt_of_zero, bitAt_small, BitVec.ofNat_toNat, BitVec.setWidth_eq, Option.map_some, Option.bind_some, if_true, if_false, Bool.false_eq_true]
  | scalar b =>
    intro hwf sl hs; cases hs
    have he : encode (.vmul ⟨vg, vd, va, (.scalar b), fmt, sat⟩) = encV 0x03 vg.g vg.q.toNat vg.qneg vd.toNat va.toNat 0 0 fmt.code 0 sat b.toNat (1 * 2 ^ 13 + 0) := rfl
    refine ⟨he ▸ encV_lt (by omega) (by omega) (by omega) (by omega) (by omega) (by omega) (by omega) (by omega) (by omega) (by omega), accept_of hwf ?_⟩
    rw [he]; unfold rawV
    rw [encV_op_bits] <;> try omega
    simp (disch := omega) only [encV_g, encV_q, encV_qneg, encV_vd, encV_va, encV_vb, encV_vc, encV_fmt, encV_rnd, encV_sat, encV_s, encV_imm, encV_q_bits, encV_vd_bits, encV_va_bits, encV_vb_bits, encV_vc_bits, encV_fmt_bits, encV_rnd_bits, encV_s_bits, encV_imm_bits, encV_imm_bit, VGuard.at, VSrc.at, Fmt.ofCode_code, fld_high, fld_low, fld_toNat, bitsAt_high, bitsAt_low, bitsAt_zero, bitAt_high, bitAt_low, bitAt_one, Nat.zero_add, Nat.zero_mul, bitAt_b2n, bitAt_of_zero, bitAt_small, BitVec.ofNat_toNat, BitVec.setWidth_eq, Option.map_some, Option.bind_some, if_true, if_false, Bool.false_eq_true]

theorem Laws.RoundTrip.vmulh (o : VIntArgs) : Statement (.vmulh o) := by
  obtain ⟨vg, vd, va, b, fmt, sat⟩ := o
  have := fmt.code_lt
  have := b2n_lt sat
  cases b with
  | reg b =>
    intro hwf sl hs; cases hs
    have he : encode (.vmulh ⟨vg, vd, va, (.reg b), fmt, sat⟩) = encV 0x04 vg.g vg.q.toNat vg.qneg vd.toNat va.toNat b.toNat 0 fmt.code 0 sat 0 0 := rfl
    refine ⟨he ▸ encV_lt (by omega) (by omega) (by omega) (by omega) (by omega) (by omega) (by omega) (by omega) (by omega) (by omega), accept_of hwf ?_⟩
    rw [he]; unfold rawV
    rw [encV_op_bits] <;> try omega
    simp (disch := omega) only [encV_g, encV_q, encV_qneg, encV_vd, encV_va, encV_vb, encV_vc, encV_fmt, encV_rnd, encV_sat, encV_s, encV_imm, encV_q_bits, encV_vd_bits, encV_va_bits, encV_vb_bits, encV_vc_bits, encV_fmt_bits, encV_rnd_bits, encV_s_bits, encV_imm_bits, encV_imm_bit, VGuard.at, VSrc.at, Fmt.ofCode_code, fld_high, fld_low, fld_toNat, bitsAt_high, bitsAt_low, bitsAt_zero, bitAt_high, bitAt_low, bitAt_one, Nat.zero_add, Nat.zero_mul, bitAt_b2n, bitAt_of_zero, bitAt_small, BitVec.ofNat_toNat, BitVec.setWidth_eq, Option.map_some, Option.bind_some, if_true, if_false, Bool.false_eq_true]
  | scalar b =>
    intro hwf sl hs; cases hs
    have he : encode (.vmulh ⟨vg, vd, va, (.scalar b), fmt, sat⟩) = encV 0x04 vg.g vg.q.toNat vg.qneg vd.toNat va.toNat 0 0 fmt.code 0 sat b.toNat (1 * 2 ^ 13 + 0) := rfl
    refine ⟨he ▸ encV_lt (by omega) (by omega) (by omega) (by omega) (by omega) (by omega) (by omega) (by omega) (by omega) (by omega), accept_of hwf ?_⟩
    rw [he]; unfold rawV
    rw [encV_op_bits] <;> try omega
    simp (disch := omega) only [encV_g, encV_q, encV_qneg, encV_vd, encV_va, encV_vb, encV_vc, encV_fmt, encV_rnd, encV_sat, encV_s, encV_imm, encV_q_bits, encV_vd_bits, encV_va_bits, encV_vb_bits, encV_vc_bits, encV_fmt_bits, encV_rnd_bits, encV_s_bits, encV_imm_bits, encV_imm_bit, VGuard.at, VSrc.at, Fmt.ofCode_code, fld_high, fld_low, fld_toNat, bitsAt_high, bitsAt_low, bitsAt_zero, bitAt_high, bitAt_low, bitAt_one, Nat.zero_add, Nat.zero_mul, bitAt_b2n, bitAt_of_zero, bitAt_small, BitVec.ofNat_toNat, BitVec.setWidth_eq, Option.map_some, Option.bind_some, if_true, if_false, Bool.false_eq_true]

theorem Laws.RoundTrip.vmin (o : VIntArgs) : Statement (.vmin o) := by
  obtain ⟨vg, vd, va, b, fmt, sat⟩ := o
  have := fmt.code_lt
  have := b2n_lt sat
  cases b with
  | reg b =>
    intro hwf sl hs; cases hs
    have he : encode (.vmin ⟨vg, vd, va, (.reg b), fmt, sat⟩) = encV 0x05 vg.g vg.q.toNat vg.qneg vd.toNat va.toNat b.toNat 0 fmt.code 0 sat 0 0 := rfl
    refine ⟨he ▸ encV_lt (by omega) (by omega) (by omega) (by omega) (by omega) (by omega) (by omega) (by omega) (by omega) (by omega), accept_of hwf ?_⟩
    rw [he]; unfold rawV
    rw [encV_op_bits] <;> try omega
    simp (disch := omega) only [encV_g, encV_q, encV_qneg, encV_vd, encV_va, encV_vb, encV_vc, encV_fmt, encV_rnd, encV_sat, encV_s, encV_imm, encV_q_bits, encV_vd_bits, encV_va_bits, encV_vb_bits, encV_vc_bits, encV_fmt_bits, encV_rnd_bits, encV_s_bits, encV_imm_bits, encV_imm_bit, VGuard.at, VSrc.at, Fmt.ofCode_code, fld_high, fld_low, fld_toNat, bitsAt_high, bitsAt_low, bitsAt_zero, bitAt_high, bitAt_low, bitAt_one, Nat.zero_add, Nat.zero_mul, bitAt_b2n, bitAt_of_zero, bitAt_small, BitVec.ofNat_toNat, BitVec.setWidth_eq, Option.map_some, Option.bind_some, if_true, if_false, Bool.false_eq_true]
  | scalar b =>
    intro hwf sl hs; cases hs
    have he : encode (.vmin ⟨vg, vd, va, (.scalar b), fmt, sat⟩) = encV 0x05 vg.g vg.q.toNat vg.qneg vd.toNat va.toNat 0 0 fmt.code 0 sat b.toNat (1 * 2 ^ 13 + 0) := rfl
    refine ⟨he ▸ encV_lt (by omega) (by omega) (by omega) (by omega) (by omega) (by omega) (by omega) (by omega) (by omega) (by omega), accept_of hwf ?_⟩
    rw [he]; unfold rawV
    rw [encV_op_bits] <;> try omega
    simp (disch := omega) only [encV_g, encV_q, encV_qneg, encV_vd, encV_va, encV_vb, encV_vc, encV_fmt, encV_rnd, encV_sat, encV_s, encV_imm, encV_q_bits, encV_vd_bits, encV_va_bits, encV_vb_bits, encV_vc_bits, encV_fmt_bits, encV_rnd_bits, encV_s_bits, encV_imm_bits, encV_imm_bit, VGuard.at, VSrc.at, Fmt.ofCode_code, fld_high, fld_low, fld_toNat, bitsAt_high, bitsAt_low, bitsAt_zero, bitAt_high, bitAt_low, bitAt_one, Nat.zero_add, Nat.zero_mul, bitAt_b2n, bitAt_of_zero, bitAt_small, BitVec.ofNat_toNat, BitVec.setWidth_eq, Option.map_some, Option.bind_some, if_true, if_false, Bool.false_eq_true]

theorem Laws.RoundTrip.vmax (o : VIntArgs) : Statement (.vmax o) := by
  obtain ⟨vg, vd, va, b, fmt, sat⟩ := o
  have := fmt.code_lt
  have := b2n_lt sat
  cases b with
  | reg b =>
    intro hwf sl hs; cases hs
    have he : encode (.vmax ⟨vg, vd, va, (.reg b), fmt, sat⟩) = encV 0x06 vg.g vg.q.toNat vg.qneg vd.toNat va.toNat b.toNat 0 fmt.code 0 sat 0 0 := rfl
    refine ⟨he ▸ encV_lt (by omega) (by omega) (by omega) (by omega) (by omega) (by omega) (by omega) (by omega) (by omega) (by omega), accept_of hwf ?_⟩
    rw [he]; unfold rawV
    rw [encV_op_bits] <;> try omega
    simp (disch := omega) only [encV_g, encV_q, encV_qneg, encV_vd, encV_va, encV_vb, encV_vc, encV_fmt, encV_rnd, encV_sat, encV_s, encV_imm, encV_q_bits, encV_vd_bits, encV_va_bits, encV_vb_bits, encV_vc_bits, encV_fmt_bits, encV_rnd_bits, encV_s_bits, encV_imm_bits, encV_imm_bit, VGuard.at, VSrc.at, Fmt.ofCode_code, fld_high, fld_low, fld_toNat, bitsAt_high, bitsAt_low, bitsAt_zero, bitAt_high, bitAt_low, bitAt_one, Nat.zero_add, Nat.zero_mul, bitAt_b2n, bitAt_of_zero, bitAt_small, BitVec.ofNat_toNat, BitVec.setWidth_eq, Option.map_some, Option.bind_some, if_true, if_false, Bool.false_eq_true]
  | scalar b =>
    intro hwf sl hs; cases hs
    have he : encode (.vmax ⟨vg, vd, va, (.scalar b), fmt, sat⟩) = encV 0x06 vg.g vg.q.toNat vg.qneg vd.toNat va.toNat 0 0 fmt.code 0 sat b.toNat (1 * 2 ^ 13 + 0) := rfl
    refine ⟨he ▸ encV_lt (by omega) (by omega) (by omega) (by omega) (by omega) (by omega) (by omega) (by omega) (by omega) (by omega), accept_of hwf ?_⟩
    rw [he]; unfold rawV
    rw [encV_op_bits] <;> try omega
    simp (disch := omega) only [encV_g, encV_q, encV_qneg, encV_vd, encV_va, encV_vb, encV_vc, encV_fmt, encV_rnd, encV_sat, encV_s, encV_imm, encV_q_bits, encV_vd_bits, encV_va_bits, encV_vb_bits, encV_vc_bits, encV_fmt_bits, encV_rnd_bits, encV_s_bits, encV_imm_bits, encV_imm_bit, VGuard.at, VSrc.at, Fmt.ofCode_code, fld_high, fld_low, fld_toNat, bitsAt_high, bitsAt_low, bitsAt_zero, bitAt_high, bitAt_low, bitAt_one, Nat.zero_add, Nat.zero_mul, bitAt_b2n, bitAt_of_zero, bitAt_small, BitVec.ofNat_toNat, BitVec.setWidth_eq, Option.map_some, Option.bind_some, if_true, if_false, Bool.false_eq_true]

theorem Laws.RoundTrip.vabs (o : VAbsArgs) : Statement (.vabs o) := by
  obtain ⟨vg, vd, va, fmt, sat⟩ := o
  have := fmt.code_lt
  have := b2n_lt sat
  intro hwf sl hs; cases hs
  have he : encode (.vabs ⟨vg, vd, va, fmt, sat⟩) = encV 0x07 vg.g vg.q.toNat vg.qneg vd.toNat va.toNat 0 0 fmt.code 0 sat 0 0 := rfl
  refine ⟨he ▸ encV_lt (by omega) (by omega) (by omega) (by omega) (by omega) (by omega) (by omega) (by omega) (by omega) (by omega), accept_of hwf ?_⟩
  rw [he]; unfold rawV
  rw [encV_op_bits] <;> try omega
  simp (disch := omega) only [encV_g, encV_q, encV_qneg, encV_vd, encV_va, encV_vb, encV_vc, encV_fmt, encV_rnd, encV_sat, encV_s, encV_imm, encV_q_bits, encV_vd_bits, encV_va_bits, encV_vb_bits, encV_vc_bits, encV_fmt_bits, encV_rnd_bits, encV_s_bits, encV_imm_bits, encV_imm_bit, VGuard.at, VSrc.at, Fmt.ofCode_code, fld_high, fld_low, fld_toNat, bitsAt_high, bitsAt_low, bitsAt_zero, bitAt_high, bitAt_low, bitAt_one, Nat.zero_add, Nat.zero_mul, bitAt_b2n, bitAt_of_zero, bitAt_small, BitVec.ofNat_toNat, BitVec.setWidth_eq, Option.map_some, Option.bind_some, if_true, if_false, Bool.false_eq_true]

theorem Laws.RoundTrip.vand (o : VIntArgs) : Statement (.vand o) := by
  obtain ⟨vg, vd, va, b, fmt, sat⟩ := o
  have := fmt.code_lt
  have := b2n_lt sat
  cases b with
  | reg b =>
    intro hwf sl hs; cases hs
    have he : encode (.vand ⟨vg, vd, va, (.reg b), fmt, sat⟩) = encV 0x08 vg.g vg.q.toNat vg.qneg vd.toNat va.toNat b.toNat 0 fmt.code 0 sat 0 0 := rfl
    refine ⟨he ▸ encV_lt (by omega) (by omega) (by omega) (by omega) (by omega) (by omega) (by omega) (by omega) (by omega) (by omega), accept_of hwf ?_⟩
    rw [he]; unfold rawV
    rw [encV_op_bits] <;> try omega
    simp (disch := omega) only [encV_g, encV_q, encV_qneg, encV_vd, encV_va, encV_vb, encV_vc, encV_fmt, encV_rnd, encV_sat, encV_s, encV_imm, encV_q_bits, encV_vd_bits, encV_va_bits, encV_vb_bits, encV_vc_bits, encV_fmt_bits, encV_rnd_bits, encV_s_bits, encV_imm_bits, encV_imm_bit, VGuard.at, VSrc.at, Fmt.ofCode_code, fld_high, fld_low, fld_toNat, bitsAt_high, bitsAt_low, bitsAt_zero, bitAt_high, bitAt_low, bitAt_one, Nat.zero_add, Nat.zero_mul, bitAt_b2n, bitAt_of_zero, bitAt_small, BitVec.ofNat_toNat, BitVec.setWidth_eq, Option.map_some, Option.bind_some, if_true, if_false, Bool.false_eq_true]
  | scalar b =>
    intro hwf sl hs; cases hs
    have he : encode (.vand ⟨vg, vd, va, (.scalar b), fmt, sat⟩) = encV 0x08 vg.g vg.q.toNat vg.qneg vd.toNat va.toNat 0 0 fmt.code 0 sat b.toNat (1 * 2 ^ 13 + 0) := rfl
    refine ⟨he ▸ encV_lt (by omega) (by omega) (by omega) (by omega) (by omega) (by omega) (by omega) (by omega) (by omega) (by omega), accept_of hwf ?_⟩
    rw [he]; unfold rawV
    rw [encV_op_bits] <;> try omega
    simp (disch := omega) only [encV_g, encV_q, encV_qneg, encV_vd, encV_va, encV_vb, encV_vc, encV_fmt, encV_rnd, encV_sat, encV_s, encV_imm, encV_q_bits, encV_vd_bits, encV_va_bits, encV_vb_bits, encV_vc_bits, encV_fmt_bits, encV_rnd_bits, encV_s_bits, encV_imm_bits, encV_imm_bit, VGuard.at, VSrc.at, Fmt.ofCode_code, fld_high, fld_low, fld_toNat, bitsAt_high, bitsAt_low, bitsAt_zero, bitAt_high, bitAt_low, bitAt_one, Nat.zero_add, Nat.zero_mul, bitAt_b2n, bitAt_of_zero, bitAt_small, BitVec.ofNat_toNat, BitVec.setWidth_eq, Option.map_some, Option.bind_some, if_true, if_false, Bool.false_eq_true]

theorem Laws.RoundTrip.vor (o : VIntArgs) : Statement (.vor o) := by
  obtain ⟨vg, vd, va, b, fmt, sat⟩ := o
  have := fmt.code_lt
  have := b2n_lt sat
  cases b with
  | reg b =>
    intro hwf sl hs; cases hs
    have he : encode (.vor ⟨vg, vd, va, (.reg b), fmt, sat⟩) = encV 0x09 vg.g vg.q.toNat vg.qneg vd.toNat va.toNat b.toNat 0 fmt.code 0 sat 0 0 := rfl
    refine ⟨he ▸ encV_lt (by omega) (by omega) (by omega) (by omega) (by omega) (by omega) (by omega) (by omega) (by omega) (by omega), accept_of hwf ?_⟩
    rw [he]; unfold rawV
    rw [encV_op_bits] <;> try omega
    simp (disch := omega) only [encV_g, encV_q, encV_qneg, encV_vd, encV_va, encV_vb, encV_vc, encV_fmt, encV_rnd, encV_sat, encV_s, encV_imm, encV_q_bits, encV_vd_bits, encV_va_bits, encV_vb_bits, encV_vc_bits, encV_fmt_bits, encV_rnd_bits, encV_s_bits, encV_imm_bits, encV_imm_bit, VGuard.at, VSrc.at, Fmt.ofCode_code, fld_high, fld_low, fld_toNat, bitsAt_high, bitsAt_low, bitsAt_zero, bitAt_high, bitAt_low, bitAt_one, Nat.zero_add, Nat.zero_mul, bitAt_b2n, bitAt_of_zero, bitAt_small, BitVec.ofNat_toNat, BitVec.setWidth_eq, Option.map_some, Option.bind_some, if_true, if_false, Bool.false_eq_true]
  | scalar b =>
    intro hwf sl hs; cases hs
    have he : encode (.vor ⟨vg, vd, va, (.scalar b), fmt, sat⟩) = encV 0x09 vg.g vg.q.toNat vg.qneg vd.toNat va.toNat 0 0 fmt.code 0 sat b.toNat (1 * 2 ^ 13 + 0) := rfl
    refine ⟨he ▸ encV_lt (by omega) (by omega) (by omega) (by omega) (by omega) (by omega) (by omega) (by omega) (by omega) (by omega), accept_of hwf ?_⟩
    rw [he]; unfold rawV
    rw [encV_op_bits] <;> try omega
    simp (disch := omega) only [encV_g, encV_q, encV_qneg, encV_vd, encV_va, encV_vb, encV_vc, encV_fmt, encV_rnd, encV_sat, encV_s, encV_imm, encV_q_bits, encV_vd_bits, encV_va_bits, encV_vb_bits, encV_vc_bits, encV_fmt_bits, encV_rnd_bits, encV_s_bits, encV_imm_bits, encV_imm_bit, VGuard.at, VSrc.at, Fmt.ofCode_code, fld_high, fld_low, fld_toNat, bitsAt_high, bitsAt_low, bitsAt_zero, bitAt_high, bitAt_low, bitAt_one, Nat.zero_add, Nat.zero_mul, bitAt_b2n, bitAt_of_zero, bitAt_small, BitVec.ofNat_toNat, BitVec.setWidth_eq, Option.map_some, Option.bind_some, if_true, if_false, Bool.false_eq_true]

theorem Laws.RoundTrip.vxor (o : VIntArgs) : Statement (.vxor o) := by
  obtain ⟨vg, vd, va, b, fmt, sat⟩ := o
  have := fmt.code_lt
  have := b2n_lt sat
  cases b with
  | reg b =>
    intro hwf sl hs; cases hs
    have he : encode (.vxor ⟨vg, vd, va, (.reg b), fmt, sat⟩) = encV 0x0A vg.g vg.q.toNat vg.qneg vd.toNat va.toNat b.toNat 0 fmt.code 0 sat 0 0 := rfl
    refine ⟨he ▸ encV_lt (by omega) (by omega) (by omega) (by omega) (by omega) (by omega) (by omega) (by omega) (by omega) (by omega), accept_of hwf ?_⟩
    rw [he]; unfold rawV
    rw [encV_op_bits] <;> try omega
    simp (disch := omega) only [encV_g, encV_q, encV_qneg, encV_vd, encV_va, encV_vb, encV_vc, encV_fmt, encV_rnd, encV_sat, encV_s, encV_imm, encV_q_bits, encV_vd_bits, encV_va_bits, encV_vb_bits, encV_vc_bits, encV_fmt_bits, encV_rnd_bits, encV_s_bits, encV_imm_bits, encV_imm_bit, VGuard.at, VSrc.at, Fmt.ofCode_code, fld_high, fld_low, fld_toNat, bitsAt_high, bitsAt_low, bitsAt_zero, bitAt_high, bitAt_low, bitAt_one, Nat.zero_add, Nat.zero_mul, bitAt_b2n, bitAt_of_zero, bitAt_small, BitVec.ofNat_toNat, BitVec.setWidth_eq, Option.map_some, Option.bind_some, if_true, if_false, Bool.false_eq_true]
  | scalar b =>
    intro hwf sl hs; cases hs
    have he : encode (.vxor ⟨vg, vd, va, (.scalar b), fmt, sat⟩) = encV 0x0A vg.g vg.q.toNat vg.qneg vd.toNat va.toNat 0 0 fmt.code 0 sat b.toNat (1 * 2 ^ 13 + 0) := rfl
    refine ⟨he ▸ encV_lt (by omega) (by omega) (by omega) (by omega) (by omega) (by omega) (by omega) (by omega) (by omega) (by omega), accept_of hwf ?_⟩
    rw [he]; unfold rawV
    rw [encV_op_bits] <;> try omega
    simp (disch := omega) only [encV_g, encV_q, encV_qneg, encV_vd, encV_va, encV_vb, encV_vc, encV_fmt, encV_rnd, encV_sat, encV_s, encV_imm, encV_q_bits, encV_vd_bits, encV_va_bits, encV_vb_bits, encV_vc_bits, encV_fmt_bits, encV_rnd_bits, encV_s_bits, encV_imm_bits, encV_imm_bit, VGuard.at, VSrc.at, Fmt.ofCode_code, fld_high, fld_low, fld_toNat, bitsAt_high, bitsAt_low, bitsAt_zero, bitAt_high, bitAt_low, bitAt_one, Nat.zero_add, Nat.zero_mul, bitAt_b2n, bitAt_of_zero, bitAt_small, BitVec.ofNat_toNat, BitVec.setWidth_eq, Option.map_some, Option.bind_some, if_true, if_false, Bool.false_eq_true]

theorem Laws.RoundTrip.vshl (o : VIntArgs) : Statement (.vshl o) := by
  obtain ⟨vg, vd, va, b, fmt, sat⟩ := o
  have := fmt.code_lt
  have := b2n_lt sat
  cases b with
  | reg b =>
    intro hwf sl hs; cases hs
    have he : encode (.vshl ⟨vg, vd, va, (.reg b), fmt, sat⟩) = encV 0x0B vg.g vg.q.toNat vg.qneg vd.toNat va.toNat b.toNat 0 fmt.code 0 sat 0 0 := rfl
    refine ⟨he ▸ encV_lt (by omega) (by omega) (by omega) (by omega) (by omega) (by omega) (by omega) (by omega) (by omega) (by omega), accept_of hwf ?_⟩
    rw [he]; unfold rawV
    rw [encV_op_bits] <;> try omega
    simp (disch := omega) only [encV_g, encV_q, encV_qneg, encV_vd, encV_va, encV_vb, encV_vc, encV_fmt, encV_rnd, encV_sat, encV_s, encV_imm, encV_q_bits, encV_vd_bits, encV_va_bits, encV_vb_bits, encV_vc_bits, encV_fmt_bits, encV_rnd_bits, encV_s_bits, encV_imm_bits, encV_imm_bit, VGuard.at, VSrc.at, Fmt.ofCode_code, fld_high, fld_low, fld_toNat, bitsAt_high, bitsAt_low, bitsAt_zero, bitAt_high, bitAt_low, bitAt_one, Nat.zero_add, Nat.zero_mul, bitAt_b2n, bitAt_of_zero, bitAt_small, BitVec.ofNat_toNat, BitVec.setWidth_eq, Option.map_some, Option.bind_some, if_true, if_false, Bool.false_eq_true]
  | scalar b =>
    intro hwf sl hs; cases hs
    have he : encode (.vshl ⟨vg, vd, va, (.scalar b), fmt, sat⟩) = encV 0x0B vg.g vg.q.toNat vg.qneg vd.toNat va.toNat 0 0 fmt.code 0 sat b.toNat (1 * 2 ^ 13 + 0) := rfl
    refine ⟨he ▸ encV_lt (by omega) (by omega) (by omega) (by omega) (by omega) (by omega) (by omega) (by omega) (by omega) (by omega), accept_of hwf ?_⟩
    rw [he]; unfold rawV
    rw [encV_op_bits] <;> try omega
    simp (disch := omega) only [encV_g, encV_q, encV_qneg, encV_vd, encV_va, encV_vb, encV_vc, encV_fmt, encV_rnd, encV_sat, encV_s, encV_imm, encV_q_bits, encV_vd_bits, encV_va_bits, encV_vb_bits, encV_vc_bits, encV_fmt_bits, encV_rnd_bits, encV_s_bits, encV_imm_bits, encV_imm_bit, VGuard.at, VSrc.at, Fmt.ofCode_code, fld_high, fld_low, fld_toNat, bitsAt_high, bitsAt_low, bitsAt_zero, bitAt_high, bitAt_low, bitAt_one, Nat.zero_add, Nat.zero_mul, bitAt_b2n, bitAt_of_zero, bitAt_small, BitVec.ofNat_toNat, BitVec.setWidth_eq, Option.map_some, Option.bind_some, if_true, if_false, Bool.false_eq_true]

theorem Laws.RoundTrip.vshr (o : VIntArgs) : Statement (.vshr o) := by
  obtain ⟨vg, vd, va, b, fmt, sat⟩ := o
  have := fmt.code_lt
  have := b2n_lt sat
  cases b with
  | reg b =>
    intro hwf sl hs; cases hs
    have he : encode (.vshr ⟨vg, vd, va, (.reg b), fmt, sat⟩) = encV 0x0C vg.g vg.q.toNat vg.qneg vd.toNat va.toNat b.toNat 0 fmt.code 0 sat 0 0 := rfl
    refine ⟨he ▸ encV_lt (by omega) (by omega) (by omega) (by omega) (by omega) (by omega) (by omega) (by omega) (by omega) (by omega), accept_of hwf ?_⟩
    rw [he]; unfold rawV
    rw [encV_op_bits] <;> try omega
    simp (disch := omega) only [encV_g, encV_q, encV_qneg, encV_vd, encV_va, encV_vb, encV_vc, encV_fmt, encV_rnd, encV_sat, encV_s, encV_imm, encV_q_bits, encV_vd_bits, encV_va_bits, encV_vb_bits, encV_vc_bits, encV_fmt_bits, encV_rnd_bits, encV_s_bits, encV_imm_bits, encV_imm_bit, VGuard.at, VSrc.at, Fmt.ofCode_code, fld_high, fld_low, fld_toNat, bitsAt_high, bitsAt_low, bitsAt_zero, bitAt_high, bitAt_low, bitAt_one, Nat.zero_add, Nat.zero_mul, bitAt_b2n, bitAt_of_zero, bitAt_small, BitVec.ofNat_toNat, BitVec.setWidth_eq, Option.map_some, Option.bind_some, if_true, if_false, Bool.false_eq_true]
  | scalar b =>
    intro hwf sl hs; cases hs
    have he : encode (.vshr ⟨vg, vd, va, (.scalar b), fmt, sat⟩) = encV 0x0C vg.g vg.q.toNat vg.qneg vd.toNat va.toNat 0 0 fmt.code 0 sat b.toNat (1 * 2 ^ 13 + 0) := rfl
    refine ⟨he ▸ encV_lt (by omega) (by omega) (by omega) (by omega) (by omega) (by omega) (by omega) (by omega) (by omega) (by omega), accept_of hwf ?_⟩
    rw [he]; unfold rawV
    rw [encV_op_bits] <;> try omega
    simp (disch := omega) only [encV_g, encV_q, encV_qneg, encV_vd, encV_va, encV_vb, encV_vc, encV_fmt, encV_rnd, encV_sat, encV_s, encV_imm, encV_q_bits, encV_vd_bits, encV_va_bits, encV_vb_bits, encV_vc_bits, encV_fmt_bits, encV_rnd_bits, encV_s_bits, encV_imm_bits, encV_imm_bit, VGuard.at, VSrc.at, Fmt.ofCode_code, fld_high, fld_low, fld_toNat, bitsAt_high, bitsAt_low, bitsAt_zero, bitAt_high, bitAt_low, bitAt_one, Nat.zero_add, Nat.zero_mul, bitAt_b2n, bitAt_of_zero, bitAt_small, BitVec.ofNat_toNat, BitVec.setWidth_eq, Option.map_some, Option.bind_some, if_true, if_false, Bool.false_eq_true]

theorem Laws.RoundTrip.vsar (o : VIntArgs) : Statement (.vsar o) := by
  obtain ⟨vg, vd, va, b, fmt, sat⟩ := o
  have := fmt.code_lt
  have := b2n_lt sat
  cases b with
  | reg b =>
    intro hwf sl hs; cases hs
    have he : encode (.vsar ⟨vg, vd, va, (.reg b), fmt, sat⟩) = encV 0x0D vg.g vg.q.toNat vg.qneg vd.toNat va.toNat b.toNat 0 fmt.code 0 sat 0 0 := rfl
    refine ⟨he ▸ encV_lt (by omega) (by omega) (by omega) (by omega) (by omega) (by omega) (by omega) (by omega) (by omega) (by omega), accept_of hwf ?_⟩
    rw [he]; unfold rawV
    rw [encV_op_bits] <;> try omega
    simp (disch := omega) only [encV_g, encV_q, encV_qneg, encV_vd, encV_va, encV_vb, encV_vc, encV_fmt, encV_rnd, encV_sat, encV_s, encV_imm, encV_q_bits, encV_vd_bits, encV_va_bits, encV_vb_bits, encV_vc_bits, encV_fmt_bits, encV_rnd_bits, encV_s_bits, encV_imm_bits, encV_imm_bit, VGuard.at, VSrc.at, Fmt.ofCode_code, fld_high, fld_low, fld_toNat, bitsAt_high, bitsAt_low, bitsAt_zero, bitAt_high, bitAt_low, bitAt_one, Nat.zero_add, Nat.zero_mul, bitAt_b2n, bitAt_of_zero, bitAt_small, BitVec.ofNat_toNat, BitVec.setWidth_eq, Option.map_some, Option.bind_some, if_true, if_false, Bool.false_eq_true]
  | scalar b =>
    intro hwf sl hs; cases hs
    have he : encode (.vsar ⟨vg, vd, va, (.scalar b), fmt, sat⟩) = encV 0x0D vg.g vg.q.toNat vg.qneg vd.toNat va.toNat 0 0 fmt.code 0 sat b.toNat (1 * 2 ^ 13 + 0) := rfl
    refine ⟨he ▸ encV_lt (by omega) (by omega) (by omega) (by omega) (by omega) (by omega) (by omega) (by omega) (by omega) (by omega), accept_of hwf ?_⟩
    rw [he]; unfold rawV
    rw [encV_op_bits] <;> try omega
    simp (disch := omega) only [encV_g, encV_q, encV_qneg, encV_vd, encV_va, encV_vb, encV_vc, encV_fmt, encV_rnd, encV_sat, encV_s, encV_imm, encV_q_bits, encV_vd_bits, encV_va_bits, encV_vb_bits, encV_vc_bits, encV_fmt_bits, encV_rnd_bits, encV_s_bits, encV_imm_bits, encV_imm_bit, VGuard.at, VSrc.at, Fmt.ofCode_code, fld_high, fld_low, fld_toNat, bitsAt_high, bitsAt_low, bitsAt_zero, bitAt_high, bitAt_low, bitAt_one, Nat.zero_add, Nat.zero_mul, bitAt_b2n, bitAt_of_zero, bitAt_small, BitVec.ofNat_toNat, BitVec.setWidth_eq, Option.map_some, Option.bind_some, if_true, if_false, Bool.false_eq_true]

theorem Laws.RoundTrip.vcmpCc (o : VCmpArgs) : Statement (.vcmpCc o) := by
  obtain ⟨vg, qd, va, b, fmt, cc⟩ := o
  have := fmt.code_lt
  have := cc.code_lt
  cases b with
  | reg b =>
    intro hwf sl hs; cases hs
    have he : encode (.vcmpCc ⟨vg, qd, va, (.reg b), fmt, cc⟩) = encV 0x0E vg.g vg.q.toNat vg.qneg qd.toNat va.toNat b.toNat 0 fmt.code 0 false 0 (0 + cc.code) := rfl
    refine ⟨he ▸ encV_lt (by omega) (by omega) (by omega) (by omega) (by omega) (by omega) (by omega) (by omega) (by omega) (by omega), accept_of hwf ?_⟩
    rw [he]; unfold rawV
    rw [encV_op_bits] <;> try omega
    simp (disch := omega) only [encV_g, encV_q, encV_qneg, encV_vd, encV_va, encV_vb, encV_vc, encV_fmt, encV_rnd, encV_sat, encV_s, encV_imm, encV_q_bits, encV_vd_bits, encV_va_bits, encV_vb_bits, encV_vc_bits, encV_fmt_bits, encV_rnd_bits, encV_s_bits, encV_imm_bits, encV_imm_bit, VGuard.at, VSrc.at, CmpCc.ofCode_code, Fmt.ofCode_code, fld_high, fld_low, fld_toNat, bitsAt_high, bitsAt_low, bitsAt_zero, bitAt_high, bitAt_low, bitAt_one, Nat.zero_add, Nat.zero_mul, bitAt_b2n, bitAt_of_zero, bitAt_small, BitVec.ofNat_toNat, BitVec.setWidth_eq, Option.map_some, Option.bind_some, if_true, if_false, Bool.false_eq_true]
  | scalar b =>
    intro hwf sl hs; cases hs
    have he : encode (.vcmpCc ⟨vg, qd, va, (.scalar b), fmt, cc⟩) = encV 0x0E vg.g vg.q.toNat vg.qneg qd.toNat va.toNat 0 0 fmt.code 0 false b.toNat (1 * 2 ^ 13 + cc.code) := rfl
    refine ⟨he ▸ encV_lt (by omega) (by omega) (by omega) (by omega) (by omega) (by omega) (by omega) (by omega) (by omega) (by omega), accept_of hwf ?_⟩
    rw [he]; unfold rawV
    rw [encV_op_bits] <;> try omega
    simp (disch := omega) only [encV_g, encV_q, encV_qneg, encV_vd, encV_va, encV_vb, encV_vc, encV_fmt, encV_rnd, encV_sat, encV_s, encV_imm, encV_q_bits, encV_vd_bits, encV_va_bits, encV_vb_bits, encV_vc_bits, encV_fmt_bits, encV_rnd_bits, encV_s_bits, encV_imm_bits, encV_imm_bit, VGuard.at, VSrc.at, CmpCc.ofCode_code, Fmt.ofCode_code, fld_high, fld_low, fld_toNat, bitsAt_high, bitsAt_low, bitsAt_zero, bitAt_high, bitAt_low, bitAt_one, Nat.zero_add, Nat.zero_mul, bitAt_b2n, bitAt_of_zero, bitAt_small, BitVec.ofNat_toNat, BitVec.setWidth_eq, Option.map_some, Option.bind_some, if_true, if_false, Bool.false_eq_true]

theorem Laws.RoundTrip.vsel (o : VTwoArgs) : Statement (.vsel o) := by
  obtain ⟨vg, vd, va, vb, fmt⟩ := o
  have := fmt.code_lt
  intro hwf sl hs; cases hs
  have he : encode (.vsel ⟨vg, vd, va, vb, fmt⟩) = encV 0x0F vg.g vg.q.toNat vg.qneg vd.toNat va.toNat vb.toNat 0 fmt.code 0 false 0 0 := rfl
  refine ⟨he ▸ encV_lt (by omega) (by omega) (by omega) (by omega) (by omega) (by omega) (by omega) (by omega) (by omega) (by omega), accept_of hwf ?_⟩
  rw [he]; unfold rawV
  rw [encV_op_bits] <;> try omega
  simp (disch := omega) only [encV_g, encV_q, encV_qneg, encV_vd, encV_va, encV_vb, encV_vc, encV_fmt, encV_rnd, encV_sat, encV_s, encV_imm, encV_q_bits, encV_vd_bits, encV_va_bits, encV_vb_bits, encV_vc_bits, encV_fmt_bits, encV_rnd_bits, encV_s_bits, encV_imm_bits, encV_imm_bit, VGuard.at, VSrc.at, Fmt.ofCode_code, fld_high, fld_low, fld_toNat, bitsAt_high, bitsAt_low, bitsAt_zero, bitAt_high, bitAt_low, bitAt_one, Nat.zero_add, Nat.zero_mul, bitAt_b2n, bitAt_of_zero, bitAt_small, BitVec.ofNat_toNat, BitVec.setWidth_eq, Option.map_some, Option.bind_some, if_true, if_false, Bool.false_eq_true]

theorem Laws.RoundTrip.viota (o : VScalArgs) : Statement (.viota o) := by
  obtain ⟨vg, vd, s, fmt⟩ := o
  have := fmt.code_lt
  intro hwf sl hs; cases hs
  have he : encode (.viota ⟨vg, vd, s, fmt⟩) = encV 0x28 vg.g vg.q.toNat vg.qneg vd.toNat 0 0 0 fmt.code 0 false s.toNat 0 := rfl
  refine ⟨he ▸ encV_lt (by omega) (by omega) (by omega) (by omega) (by omega) (by omega) (by omega) (by omega) (by omega) (by omega), accept_of hwf ?_⟩
  rw [he]; unfold rawV
  rw [encV_op_bits] <;> try omega
  simp (disch := omega) only [encV_g, encV_q, encV_qneg, encV_vd, encV_va, encV_vb, encV_vc, encV_fmt, encV_rnd, encV_sat, encV_s, encV_imm, encV_q_bits, encV_vd_bits, encV_va_bits, encV_vb_bits, encV_vc_bits, encV_fmt_bits, encV_rnd_bits, encV_s_bits, encV_imm_bits, encV_imm_bit, VGuard.at, VSrc.at, Fmt.ofCode_code, fld_high, fld_low, fld_toNat, bitsAt_high, bitsAt_low, bitsAt_zero, bitAt_high, bitAt_low, bitAt_one, Nat.zero_add, Nat.zero_mul, bitAt_b2n, bitAt_of_zero, bitAt_small, BitVec.ofNat_toNat, BitVec.setWidth_eq, Option.map_some, Option.bind_some, if_true, if_false, Bool.false_eq_true]

theorem Laws.RoundTrip.vmovi (o : VMoviArgs) : Statement (.vmovi o) := by
  obtain ⟨vg, vd, fmt, imm⟩ := o
  have := fmt.code_lt
  intro hwf sl hs; cases hs
  have he : encode (.vmovi ⟨vg, vd, fmt, imm⟩) = encV 0x31 vg.g vg.q.toNat vg.qneg vd.toNat 0 0 0 fmt.code 0 false 0 imm.toNat := rfl
  refine ⟨he ▸ encV_lt (by omega) (by omega) (by omega) (by omega) (by omega) (by omega) (by omega) (by omega) (by omega) (by omega), accept_of hwf ?_⟩
  rw [he]; unfold rawV
  rw [encV_op_bits] <;> try omega
  simp (disch := omega) only [encV_g, encV_q, encV_qneg, encV_vd, encV_va, encV_vb, encV_vc, encV_fmt, encV_rnd, encV_sat, encV_s, encV_imm, encV_q_bits, encV_vd_bits, encV_va_bits, encV_vb_bits, encV_vc_bits, encV_fmt_bits, encV_rnd_bits, encV_s_bits, encV_imm_bits, encV_imm_bit, VGuard.at, VSrc.at, Fmt.ofCode_code, fld_high, fld_low, fld_toNat, bitsAt_high, bitsAt_low, bitsAt_zero, bitAt_high, bitAt_low, bitAt_one, Nat.zero_add, Nat.zero_mul, bitAt_b2n, bitAt_of_zero, bitAt_small, BitVec.ofNat_toNat, BitVec.setWidth_eq, Option.map_some, Option.bind_some, if_true, if_false, Bool.false_eq_true]

theorem Laws.RoundTrip.vfadd (o : VFBinArgs) : Statement (.vfadd o) := by
  obtain ⟨vg, vd, va, b, fmt, rnd⟩ := o
  have := fmt.code_lt
  have := rnd.code_lt
  cases b with
  | reg b =>
    intro hwf sl hs; cases hs
    have he : encode (.vfadd ⟨vg, vd, va, (.reg b), fmt, rnd⟩) = encV 0x10 vg.g vg.q.toNat vg.qneg vd.toNat va.toNat b.toNat 0 fmt.code rnd.code false 0 0 := rfl
    refine ⟨he ▸ encV_lt (by omega) (by omega) (by omega) (by omega) (by omega) (by omega) (by omega) (by omega) (by omega) (by omega), accept_of hwf ?_⟩
    rw [he]; unfold rawV
    rw [encV_op_bits] <;> try omega
    simp (disch := omega) only [encV_g, encV_q, encV_qneg, encV_vd, encV_va, encV_vb, encV_vc, encV_fmt, encV_rnd, encV_sat, encV_s, encV_imm, encV_q_bits, encV_vd_bits, encV_va_bits, encV_vb_bits, encV_vc_bits, encV_fmt_bits, encV_rnd_bits, encV_s_bits, encV_imm_bits, encV_imm_bit, VGuard.at, VSrc.at, Fmt.ofCode_code, Rnd.ofCode_code, fld_high, fld_low, fld_toNat, bitsAt_high, bitsAt_low, bitsAt_zero, bitAt_high, bitAt_low, bitAt_one, Nat.zero_add, Nat.zero_mul, bitAt_b2n, bitAt_of_zero, bitAt_small, BitVec.ofNat_toNat, BitVec.setWidth_eq, Option.map_some, Option.bind_some, if_true, if_false, Bool.false_eq_true]
  | scalar b =>
    intro hwf sl hs; cases hs
    have he : encode (.vfadd ⟨vg, vd, va, (.scalar b), fmt, rnd⟩) = encV 0x10 vg.g vg.q.toNat vg.qneg vd.toNat va.toNat 0 0 fmt.code rnd.code false b.toNat (1 * 2 ^ 13 + 0) := rfl
    refine ⟨he ▸ encV_lt (by omega) (by omega) (by omega) (by omega) (by omega) (by omega) (by omega) (by omega) (by omega) (by omega), accept_of hwf ?_⟩
    rw [he]; unfold rawV
    rw [encV_op_bits] <;> try omega
    simp (disch := omega) only [encV_g, encV_q, encV_qneg, encV_vd, encV_va, encV_vb, encV_vc, encV_fmt, encV_rnd, encV_sat, encV_s, encV_imm, encV_q_bits, encV_vd_bits, encV_va_bits, encV_vb_bits, encV_vc_bits, encV_fmt_bits, encV_rnd_bits, encV_s_bits, encV_imm_bits, encV_imm_bit, VGuard.at, VSrc.at, Fmt.ofCode_code, Rnd.ofCode_code, fld_high, fld_low, fld_toNat, bitsAt_high, bitsAt_low, bitsAt_zero, bitAt_high, bitAt_low, bitAt_one, Nat.zero_add, Nat.zero_mul, bitAt_b2n, bitAt_of_zero, bitAt_small, BitVec.ofNat_toNat, BitVec.setWidth_eq, Option.map_some, Option.bind_some, if_true, if_false, Bool.false_eq_true]

theorem Laws.RoundTrip.vfsub (o : VFBinArgs) : Statement (.vfsub o) := by
  obtain ⟨vg, vd, va, b, fmt, rnd⟩ := o
  have := fmt.code_lt
  have := rnd.code_lt
  cases b with
  | reg b =>
    intro hwf sl hs; cases hs
    have he : encode (.vfsub ⟨vg, vd, va, (.reg b), fmt, rnd⟩) = encV 0x11 vg.g vg.q.toNat vg.qneg vd.toNat va.toNat b.toNat 0 fmt.code rnd.code false 0 0 := rfl
    refine ⟨he ▸ encV_lt (by omega) (by omega) (by omega) (by omega) (by omega) (by omega) (by omega) (by omega) (by omega) (by omega), accept_of hwf ?_⟩
    rw [he]; unfold rawV
    rw [encV_op_bits] <;> try omega
    simp (disch := omega) only [encV_g, encV_q, encV_qneg, encV_vd, encV_va, encV_vb, encV_vc, encV_fmt, encV_rnd, encV_sat, encV_s, encV_imm, encV_q_bits, encV_vd_bits, encV_va_bits, encV_vb_bits, encV_vc_bits, encV_fmt_bits, encV_rnd_bits, encV_s_bits, encV_imm_bits, encV_imm_bit, VGuard.at, VSrc.at, Fmt.ofCode_code, Rnd.ofCode_code, fld_high, fld_low, fld_toNat, bitsAt_high, bitsAt_low, bitsAt_zero, bitAt_high, bitAt_low, bitAt_one, Nat.zero_add, Nat.zero_mul, bitAt_b2n, bitAt_of_zero, bitAt_small, BitVec.ofNat_toNat, BitVec.setWidth_eq, Option.map_some, Option.bind_some, if_true, if_false, Bool.false_eq_true]
  | scalar b =>
    intro hwf sl hs; cases hs
    have he : encode (.vfsub ⟨vg, vd, va, (.scalar b), fmt, rnd⟩) = encV 0x11 vg.g vg.q.toNat vg.qneg vd.toNat va.toNat 0 0 fmt.code rnd.code false b.toNat (1 * 2 ^ 13 + 0) := rfl
    refine ⟨he ▸ encV_lt (by omega) (by omega) (by omega) (by omega) (by omega) (by omega) (by omega) (by omega) (by omega) (by omega), accept_of hwf ?_⟩
    rw [he]; unfold rawV
    rw [encV_op_bits] <;> try omega
    simp (disch := omega) only [encV_g, encV_q, encV_qneg, encV_vd, encV_va, encV_vb, encV_vc, encV_fmt, encV_rnd, encV_sat, encV_s, encV_imm, encV_q_bits, encV_vd_bits, encV_va_bits, encV_vb_bits, encV_vc_bits, encV_fmt_bits, encV_rnd_bits, encV_s_bits, encV_imm_bits, encV_imm_bit, VGuard.at, VSrc.at, Fmt.ofCode_code, Rnd.ofCode_code, fld_high, fld_low, fld_toNat, bitsAt_high, bitsAt_low, bitsAt_zero, bitAt_high, bitAt_low, bitAt_one, Nat.zero_add, Nat.zero_mul, bitAt_b2n, bitAt_of_zero, bitAt_small, BitVec.ofNat_toNat, BitVec.setWidth_eq, Option.map_some, Option.bind_some, if_true, if_false, Bool.false_eq_true]

theorem Laws.RoundTrip.vfmul (o : VFBinArgs) : Statement (.vfmul o) := by
  obtain ⟨vg, vd, va, b, fmt, rnd⟩ := o
  have := fmt.code_lt
  have := rnd.code_lt
  cases b with
  | reg b =>
    intro hwf sl hs; cases hs
    have he : encode (.vfmul ⟨vg, vd, va, (.reg b), fmt, rnd⟩) = encV 0x12 vg.g vg.q.toNat vg.qneg vd.toNat va.toNat b.toNat 0 fmt.code rnd.code false 0 0 := rfl
    refine ⟨he ▸ encV_lt (by omega) (by omega) (by omega) (by omega) (by omega) (by omega) (by omega) (by omega) (by omega) (by omega), accept_of hwf ?_⟩
    rw [he]; unfold rawV
    rw [encV_op_bits] <;> try omega
    simp (disch := omega) only [encV_g, encV_q, encV_qneg, encV_vd, encV_va, encV_vb, encV_vc, encV_fmt, encV_rnd, encV_sat, encV_s, encV_imm, encV_q_bits, encV_vd_bits, encV_va_bits, encV_vb_bits, encV_vc_bits, encV_fmt_bits, encV_rnd_bits, encV_s_bits, encV_imm_bits, encV_imm_bit, VGuard.at, VSrc.at, Fmt.ofCode_code, Rnd.ofCode_code, fld_high, fld_low, fld_toNat, bitsAt_high, bitsAt_low, bitsAt_zero, bitAt_high, bitAt_low, bitAt_one, Nat.zero_add, Nat.zero_mul, bitAt_b2n, bitAt_of_zero, bitAt_small, BitVec.ofNat_toNat, BitVec.setWidth_eq, Option.map_some, Option.bind_some, if_true, if_false, Bool.false_eq_true]
  | scalar b =>
    intro hwf sl hs; cases hs
    have he : encode (.vfmul ⟨vg, vd, va, (.scalar b), fmt, rnd⟩) = encV 0x12 vg.g vg.q.toNat vg.qneg vd.toNat va.toNat 0 0 fmt.code rnd.code false b.toNat (1 * 2 ^ 13 + 0) := rfl
    refine ⟨he ▸ encV_lt (by omega) (by omega) (by omega) (by omega) (by omega) (by omega) (by omega) (by omega) (by omega) (by omega), accept_of hwf ?_⟩
    rw [he]; unfold rawV
    rw [encV_op_bits] <;> try omega
    simp (disch := omega) only [encV_g, encV_q, encV_qneg, encV_vd, encV_va, encV_vb, encV_vc, encV_fmt, encV_rnd, encV_sat, encV_s, encV_imm, encV_q_bits, encV_vd_bits, encV_va_bits, encV_vb_bits, encV_vc_bits, encV_fmt_bits, encV_rnd_bits, encV_s_bits, encV_imm_bits, encV_imm_bit, VGuard.at, VSrc.at, Fmt.ofCode_code, Rnd.ofCode_code, fld_high, fld_low, fld_toNat, bitsAt_high, bitsAt_low, bitsAt_zero, bitAt_high, bitAt_low, bitAt_one, Nat.zero_add, Nat.zero_mul, bitAt_b2n, bitAt_of_zero, bitAt_small, BitVec.ofNat_toNat, BitVec.setWidth_eq, Option.map_some, Option.bind_some, if_true, if_false, Bool.false_eq_true]

theorem Laws.RoundTrip.vfma (o : VFmaArgs) : Statement (.vfma o) := by
  obtain ⟨vg, vd, va, b, vc, fmt, rnd⟩ := o
  have := fmt.code_lt
  have := rnd.code_lt
  cases b with
  | reg b =>
    intro hwf sl hs; cases hs
    have he : encode (.vfma ⟨vg, vd, va, (.reg b), vc, fmt, rnd⟩) = encV 0x13 vg.g vg.q.toNat vg.qneg vd.toNat va.toNat b.toNat vc.toNat fmt.code rnd.code false 0 0 := rfl
    refine ⟨he ▸ encV_lt (by omega) (by omega) (by omega) (by omega) (by omega) (by omega) (by omega) (by omega) (by omega) (by omega), accept_of hwf ?_⟩
    rw [he]; unfold rawV
    rw [encV_op_bits] <;> try omega
    simp (disch := omega) only [encV_g, encV_q, encV_qneg, encV_vd, encV_va, encV_vb, encV_vc, encV_fmt, encV_rnd, encV_sat, encV_s, encV_imm, encV_q_bits, encV_vd_bits, encV_va_bits, encV_vb_bits, encV_vc_bits, encV_fmt_bits, encV_rnd_bits, encV_s_bits, encV_imm_bits, encV_imm_bit, VGuard.at, VSrc.at, Fmt.ofCode_code, Rnd.ofCode_code, fld_high, fld_low, fld_toNat, bitsAt_high, bitsAt_low, bitsAt_zero, bitAt_high, bitAt_low, bitAt_one, Nat.zero_add, Nat.zero_mul, bitAt_b2n, bitAt_of_zero, bitAt_small, BitVec.ofNat_toNat, BitVec.setWidth_eq, Option.map_some, Option.bind_some, if_true, if_false, Bool.false_eq_true]
  | scalar b =>
    intro hwf sl hs; cases hs
    have he : encode (.vfma ⟨vg, vd, va, (.scalar b), vc, fmt, rnd⟩) = encV 0x13 vg.g vg.q.toNat vg.qneg vd.toNat va.toNat 0 vc.toNat fmt.code rnd.code false b.toNat (1 * 2 ^ 13 + 0) := rfl
    refine ⟨he ▸ encV_lt (by omega) (by omega) (by omega) (by omega) (by omega) (by omega) (by omega) (by omega) (by omega) (by omega), accept_of hwf ?_⟩
    rw [he]; unfold rawV
    rw [encV_op_bits] <;> try omega
    simp (disch := omega) only [encV_g, encV_q, encV_qneg, encV_vd, encV_va, encV_vb, encV_vc, encV_fmt, encV_rnd, encV_sat, encV_s, encV_imm, encV_q_bits, encV_vd_bits, encV_va_bits, encV_vb_bits, encV_vc_bits, encV_fmt_bits, encV_rnd_bits, encV_s_bits, encV_imm_bits, encV_imm_bit, VGuard.at, VSrc.at, Fmt.ofCode_code, Rnd.ofCode_code, fld_high, fld_low, fld_toNat, bitsAt_high, bitsAt_low, bitsAt_zero, bitAt_high, bitAt_low, bitAt_one, Nat.zero_add, Nat.zero_mul, bitAt_b2n, bitAt_of_zero, bitAt_small, BitVec.ofNat_toNat, BitVec.setWidth_eq, Option.map_some, Option.bind_some, if_true, if_false, Bool.false_eq_true]

theorem Laws.RoundTrip.vfmin (o : VFBinArgs) : Statement (.vfmin o) := by
  obtain ⟨vg, vd, va, b, fmt, rnd⟩ := o
  have := fmt.code_lt
  have := rnd.code_lt
  cases b with
  | reg b =>
    intro hwf sl hs; cases hs
    have he : encode (.vfmin ⟨vg, vd, va, (.reg b), fmt, rnd⟩) = encV 0x14 vg.g vg.q.toNat vg.qneg vd.toNat va.toNat b.toNat 0 fmt.code rnd.code false 0 0 := rfl
    refine ⟨he ▸ encV_lt (by omega) (by omega) (by omega) (by omega) (by omega) (by omega) (by omega) (by omega) (by omega) (by omega), accept_of hwf ?_⟩
    rw [he]; unfold rawV
    rw [encV_op_bits] <;> try omega
    simp (disch := omega) only [encV_g, encV_q, encV_qneg, encV_vd, encV_va, encV_vb, encV_vc, encV_fmt, encV_rnd, encV_sat, encV_s, encV_imm, encV_q_bits, encV_vd_bits, encV_va_bits, encV_vb_bits, encV_vc_bits, encV_fmt_bits, encV_rnd_bits, encV_s_bits, encV_imm_bits, encV_imm_bit, VGuard.at, VSrc.at, Fmt.ofCode_code, Rnd.ofCode_code, fld_high, fld_low, fld_toNat, bitsAt_high, bitsAt_low, bitsAt_zero, bitAt_high, bitAt_low, bitAt_one, Nat.zero_add, Nat.zero_mul, bitAt_b2n, bitAt_of_zero, bitAt_small, BitVec.ofNat_toNat, BitVec.setWidth_eq, Option.map_some, Option.bind_some, if_true, if_false, Bool.false_eq_true]
  | scalar b =>
    intro hwf sl hs; cases hs
    have he : encode (.vfmin ⟨vg, vd, va, (.scalar b), fmt, rnd⟩) = encV 0x14 vg.g vg.q.toNat vg.qneg vd.toNat va.toNat 0 0 fmt.code rnd.code false b.toNat (1 * 2 ^ 13 + 0) := rfl
    refine ⟨he ▸ encV_lt (by omega) (by omega) (by omega) (by omega) (by omega) (by omega) (by omega) (by omega) (by omega) (by omega), accept_of hwf ?_⟩
    rw [he]; unfold rawV
    rw [encV_op_bits] <;> try omega
    simp (disch := omega) only [encV_g, encV_q, encV_qneg, encV_vd, encV_va, encV_vb, encV_vc, encV_fmt, encV_rnd, encV_sat, encV_s, encV_imm, encV_q_bits, encV_vd_bits, encV_va_bits, encV_vb_bits, encV_vc_bits, encV_fmt_bits, encV_rnd_bits, encV_s_bits, encV_imm_bits, encV_imm_bit, VGuard.at, VSrc.at, Fmt.ofCode_code, Rnd.ofCode_code, fld_high, fld_low, fld_toNat, bitsAt_high, bitsAt_low, bitsAt_zero, bitAt_high, bitAt_low, bitAt_one, Nat.zero_add, Nat.zero_mul, bitAt_b2n, bitAt_of_zero, bitAt_small, BitVec.ofNat_toNat, BitVec.setWidth_eq, Option.map_some, Option.bind_some, if_true, if_false, Bool.false_eq_true]

theorem Laws.RoundTrip.vfmax (o : VFBinArgs) : Statement (.vfmax o) := by
  obtain ⟨vg, vd, va, b, fmt, rnd⟩ := o
  have := fmt.code_lt
  have := rnd.code_lt
  cases b with
  | reg b =>
    intro hwf sl hs; cases hs
    have he : encode (.vfmax ⟨vg, vd, va, (.reg b), fmt, rnd⟩) = encV 0x15 vg.g vg.q.toNat vg.qneg vd.toNat va.toNat b.toNat 0 fmt.code rnd.code false 0 0 := rfl
    refine ⟨he ▸ encV_lt (by omega) (by omega) (by omega) (by omega) (by omega) (by omega) (by omega) (by omega) (by omega) (by omega), accept_of hwf ?_⟩
    rw [he]; unfold rawV
    rw [encV_op_bits] <;> try omega
    simp (disch := omega) only [encV_g, encV_q, encV_qneg, encV_vd, encV_va, encV_vb, encV_vc, encV_fmt, encV_rnd, encV_sat, encV_s, encV_imm, encV_q_bits, encV_vd_bits, encV_va_bits, encV_vb_bits, encV_vc_bits, encV_fmt_bits, encV_rnd_bits, encV_s_bits, encV_imm_bits, encV_imm_bit, VGuard.at, VSrc.at, Fmt.ofCode_code, Rnd.ofCode_code, fld_high, fld_low, fld_toNat, bitsAt_high, bitsAt_low, bitsAt_zero, bitAt_high, bitAt_low, bitAt_one, Nat.zero_add, Nat.zero_mul, bitAt_b2n, bitAt_of_zero, bitAt_small, BitVec.ofNat_toNat, BitVec.setWidth_eq, Option.map_some, Option.bind_some, if_true, if_false, Bool.false_eq_true]
  | scalar b =>
    intro hwf sl hs; cases hs
    have he : encode (.vfmax ⟨vg, vd, va, (.scalar b), fmt, rnd⟩) = encV 0x15 vg.g vg.q.toNat vg.qneg vd.toNat va.toNat 0 0 fmt.code rnd.code false b.toNat (1 * 2 ^ 13 + 0) := rfl
    refine ⟨he ▸ encV_lt (by omega) (by omega) (by omega) (by omega) (by omega) (by omega) (by omega) (by omega) (by omega) (by omega), accept_of hwf ?_⟩
    rw [he]; unfold rawV
    rw [encV_op_bits] <;> try omega
    simp (disch := omega) only [encV_g, encV_q, encV_qneg, encV_vd, encV_va, encV_vb, encV_vc, encV_fmt, encV_rnd, encV_sat, encV_s, encV_imm, encV_q_bits, encV_vd_bits, encV_va_bits, encV_vb_bits, encV_vc_bits, encV_fmt_bits, encV_rnd_bits, encV_s_bits, encV_imm_bits, encV_imm_bit, VGuard.at, VSrc.at, Fmt.ofCode_code, Rnd.ofCode_code, fld_high, fld_low, fld_toNat, bitsAt_high, bitsAt_low, bitsAt_zero, bitAt_high, bitAt_low, bitAt_one, Nat.zero_add, Nat.zero_mul, bitAt_b2n, bitAt_of_zero, bitAt_small, BitVec.ofNat_toNat, BitVec.setWidth_eq, Option.map_some, Option.bind_some, if_true, if_false, Bool.false_eq_true]

theorem Laws.RoundTrip.vfabs (o : VFUnArgs) : Statement (.vfabs o) := by
  obtain ⟨vg, vd, va, fmt, rnd⟩ := o
  have := fmt.code_lt
  have := rnd.code_lt
  intro hwf sl hs; cases hs
  have he : encode (.vfabs ⟨vg, vd, va, fmt, rnd⟩) = encV 0x16 vg.g vg.q.toNat vg.qneg vd.toNat va.toNat 0 0 fmt.code rnd.code false 0 0 := rfl
  refine ⟨he ▸ encV_lt (by omega) (by omega) (by omega) (by omega) (by omega) (by omega) (by omega) (by omega) (by omega) (by omega), accept_of hwf ?_⟩
  rw [he]; unfold rawV
  rw [encV_op_bits] <;> try omega
  simp (disch := omega) only [encV_g, encV_q, encV_qneg, encV_vd, encV_va, encV_vb, encV_vc, encV_fmt, encV_rnd, encV_sat, encV_s, encV_imm, encV_q_bits, encV_vd_bits, encV_va_bits, encV_vb_bits, encV_vc_bits, encV_fmt_bits, encV_rnd_bits, encV_s_bits, encV_imm_bits, encV_imm_bit, VGuard.at, VSrc.at, Fmt.ofCode_code, Rnd.ofCode_code, fld_high, fld_low, fld_toNat, bitsAt_high, bitsAt_low, bitsAt_zero, bitAt_high, bitAt_low, bitAt_one, Nat.zero_add, Nat.zero_mul, bitAt_b2n, bitAt_of_zero, bitAt_small, BitVec.ofNat_toNat, BitVec.setWidth_eq, Option.map_some, Option.bind_some, if_true, if_false, Bool.false_eq_true]

theorem Laws.RoundTrip.vfneg (o : VFUnArgs) : Statement (.vfneg o) := by
  obtain ⟨vg, vd, va, fmt, rnd⟩ := o
  have := fmt.code_lt
  have := rnd.code_lt
  intro hwf sl hs; cases hs
  have he : encode (.vfneg ⟨vg, vd, va, fmt, rnd⟩) = encV 0x17 vg.g vg.q.toNat vg.qneg vd.toNat va.toNat 0 0 fmt.code rnd.code false 0 0 := rfl
  refine ⟨he ▸ encV_lt (by omega) (by omega) (by omega) (by omega) (by omega) (by omega) (by omega) (by omega) (by omega) (by omega), accept_of hwf ?_⟩
  rw [he]; unfold rawV
  rw [encV_op_bits] <;> try omega
  simp (disch := omega) only [encV_g, encV_q, encV_qneg, encV_vd, encV_va, encV_vb, encV_vc, encV_fmt, encV_rnd, encV_sat, encV_s, encV_imm, encV_q_bits, encV_vd_bits, encV_va_bits, encV_vb_bits, encV_vc_bits, encV_fmt_bits, encV_rnd_bits, encV_s_bits, encV_imm_bits, encV_imm_bit, VGuard.at, VSrc.at, Fmt.ofCode_code, Rnd.ofCode_code, fld_high, fld_low, fld_toNat, bitsAt_high, bitsAt_low, bitsAt_zero, bitAt_high, bitAt_low, bitAt_one, Nat.zero_add, Nat.zero_mul, bitAt_b2n, bitAt_of_zero, bitAt_small, BitVec.ofNat_toNat, BitVec.setWidth_eq, Option.map_some, Option.bind_some, if_true, if_false, Bool.false_eq_true]

theorem Laws.RoundTrip.vfcmpCc (o : VFcmpArgs) : Statement (.vfcmpCc o) := by
  obtain ⟨vg, qd, va, b, fmt, cc⟩ := o
  have := fmt.code_lt
  have := cc.code_lt
  cases b with
  | reg b =>
    intro hwf sl hs; cases hs
    have he : encode (.vfcmpCc ⟨vg, qd, va, (.reg b), fmt, cc⟩) = encV 0x18 vg.g vg.q.toNat vg.qneg qd.toNat va.toNat b.toNat 0 fmt.code 0 false 0 (0 + cc.code) := rfl
    refine ⟨he ▸ encV_lt (by omega) (by omega) (by omega) (by omega) (by omega) (by omega) (by omega) (by omega) (by omega) (by omega), accept_of hwf ?_⟩
    rw [he]; unfold rawV
    rw [encV_op_bits] <;> try omega
    simp (disch := omega) only [encV_g, encV_q, encV_qneg, encV_vd, encV_va, encV_vb, encV_vc, encV_fmt, encV_rnd, encV_sat, encV_s, encV_imm, encV_q_bits, encV_vd_bits, encV_va_bits, encV_vb_bits, encV_vc_bits, encV_fmt_bits, encV_rnd_bits, encV_s_bits, encV_imm_bits, encV_imm_bit, VGuard.at, VSrc.at, FcmpCc.ofCode_code, Fmt.ofCode_code, fld_high, fld_low, fld_toNat, bitsAt_high, bitsAt_low, bitsAt_zero, bitAt_high, bitAt_low, bitAt_one, Nat.zero_add, Nat.zero_mul, bitAt_b2n, bitAt_of_zero, bitAt_small, BitVec.ofNat_toNat, BitVec.setWidth_eq, Option.map_some, Option.bind_some, if_true, if_false, Bool.false_eq_true]
  | scalar b =>
    intro hwf sl hs; cases hs
    have he : encode (.vfcmpCc ⟨vg, qd, va, (.scalar b), fmt, cc⟩) = encV 0x18 vg.g vg.q.toNat vg.qneg qd.toNat va.toNat 0 0 fmt.code 0 false b.toNat (1 * 2 ^ 13 + cc.code) := rfl
    refine ⟨he ▸ encV_lt (by omega) (by omega) (by omega) (by omega) (by omega) (by omega) (by omega) (by omega) (by omega) (by omega), accept_of hwf ?_⟩
    rw [he]; unfold rawV
    rw [encV_op_bits] <;> try omega
    simp (disch := omega) only [encV_g, encV_q, encV_qneg, encV_vd, encV_va, encV_vb, encV_vc, encV_fmt, encV_rnd, encV_sat, encV_s, encV_imm, encV_q_bits, encV_vd_bits, encV_va_bits, encV_vb_bits, encV_vc_bits, encV_fmt_bits, encV_rnd_bits, encV_s_bits, encV_imm_bits, encV_imm_bit, VGuard.at, VSrc.at, FcmpCc.ofCode_code, Fmt.ofCode_code, fld_high, fld_low, fld_toNat, bitsAt_high, bitsAt_low, bitsAt_zero, bitAt_high, bitAt_low, bitAt_one, Nat.zero_add, Nat.zero_mul, bitAt_b2n, bitAt_of_zero, bitAt_small, BitVec.ofNat_toNat, BitVec.setWidth_eq, Option.map_some, Option.bind_some, if_true, if_false, Bool.false_eq_true]

theorem Laws.RoundTrip.vfrcp (o : VFUnArgs) : Statement (.vfrcp o) := by
  obtain ⟨vg, vd, va, fmt, rnd⟩ := o
  have := fmt.code_lt
  have := rnd.code_lt
  intro hwf sl hs; cases hs
  have he : encode (.vfrcp ⟨vg, vd, va, fmt, rnd⟩) = encV 0x19 vg.g vg.q.toNat vg.qneg vd.toNat va.toNat 0 0 fmt.code rnd.code false 0 0 := rfl
  refine ⟨he ▸ encV_lt (by omega) (by omega) (by omega) (by omega) (by omega) (by omega) (by omega) (by omega) (by omega) (by omega), accept_of hwf ?_⟩
  rw [he]; unfold rawV
  rw [encV_op_bits] <;> try omega
  simp (disch := omega) only [encV_g, encV_q, encV_qneg, encV_vd, encV_va, encV_vb, encV_vc, encV_fmt, encV_rnd, encV_sat, encV_s, encV_imm, encV_q_bits, encV_vd_bits, encV_va_bits, encV_vb_bits, encV_vc_bits, encV_fmt_bits, encV_rnd_bits, encV_s_bits, encV_imm_bits, encV_imm_bit, VGuard.at, VSrc.at, Fmt.ofCode_code, Rnd.ofCode_code, fld_high, fld_low, fld_toNat, bitsAt_high, bitsAt_low, bitsAt_zero, bitAt_high, bitAt_low, bitAt_one, Nat.zero_add, Nat.zero_mul, bitAt_b2n, bitAt_of_zero, bitAt_small, BitVec.ofNat_toNat, BitVec.setWidth_eq, Option.map_some, Option.bind_some, if_true, if_false, Bool.false_eq_true]

theorem Laws.RoundTrip.vfrsq (o : VFUnArgs) : Statement (.vfrsq o) := by
  obtain ⟨vg, vd, va, fmt, rnd⟩ := o
  have := fmt.code_lt
  have := rnd.code_lt
  intro hwf sl hs; cases hs
  have he : encode (.vfrsq ⟨vg, vd, va, fmt, rnd⟩) = encV 0x1A vg.g vg.q.toNat vg.qneg vd.toNat va.toNat 0 0 fmt.code rnd.code false 0 0 := rfl
  refine ⟨he ▸ encV_lt (by omega) (by omega) (by omega) (by omega) (by omega) (by omega) (by omega) (by omega) (by omega) (by omega), accept_of hwf ?_⟩
  rw [he]; unfold rawV
  rw [encV_op_bits] <;> try omega
  simp (disch := omega) only [encV_g, encV_q, encV_qneg, encV_vd, encV_va, encV_vb, encV_vc, encV_fmt, encV_rnd, encV_sat, encV_s, encV_imm, encV_q_bits, encV_vd_bits, encV_va_bits, encV_vb_bits, encV_vc_bits, encV_fmt_bits, encV_rnd_bits, encV_s_bits, encV_imm_bits, encV_imm_bit, VGuard.at, VSrc.at, Fmt.ofCode_code, Rnd.ofCode_code, fld_high, fld_low, fld_toNat, bitsAt_high, bitsAt_low, bitsAt_zero, bitAt_high, bitAt_low, bitAt_one, Nat.zero_add, Nat.zero_mul, bitAt_b2n, bitAt_of_zero, bitAt_small, BitVec.ofNat_toNat, BitVec.setWidth_eq, Option.map_some, Option.bind_some, if_true, if_false, Bool.false_eq_true]

theorem Laws.RoundTrip.vfexp2 (o : VFUnArgs) : Statement (.vfexp2 o) := by
  obtain ⟨vg, vd, va, fmt, rnd⟩ := o
  have := fmt.code_lt
  have := rnd.code_lt
  intro hwf sl hs; cases hs
  have he : encode (.vfexp2 ⟨vg, vd, va, fmt, rnd⟩) = encV 0x1B vg.g vg.q.toNat vg.qneg vd.toNat va.toNat 0 0 fmt.code rnd.code false 0 0 := rfl
  refine ⟨he ▸ encV_lt (by omega) (by omega) (by omega) (by omega) (by omega) (by omega) (by omega) (by omega) (by omega) (by omega), accept_of hwf ?_⟩
  rw [he]; unfold rawV
  rw [encV_op_bits] <;> try omega
  simp (disch := omega) only [encV_g, encV_q, encV_qneg, encV_vd, encV_va, encV_vb, encV_vc, encV_fmt, encV_rnd, encV_sat, encV_s, encV_imm, encV_q_bits, encV_vd_bits, encV_va_bits, encV_vb_bits, encV_vc_bits, encV_fmt_bits, encV_rnd_bits, encV_s_bits, encV_imm_bits, encV_imm_bit, VGuard.at, VSrc.at, Fmt.ofCode_code, Rnd.ofCode_code, fld_high, fld_low, fld_toNat, bitsAt_high, bitsAt_low, bitsAt_zero, bitAt_high, bitAt_low, bitAt_one, Nat.zero_add, Nat.zero_mul, bitAt_b2n, bitAt_of_zero, bitAt_small, BitVec.ofNat_toNat, BitVec.setWidth_eq, Option.map_some, Option.bind_some, if_true, if_false, Bool.false_eq_true]

theorem Laws.RoundTrip.vflog2 (o : VFUnArgs) : Statement (.vflog2 o) := by
  obtain ⟨vg, vd, va, fmt, rnd⟩ := o
  have := fmt.code_lt
  have := rnd.code_lt
  intro hwf sl hs; cases hs
  have he : encode (.vflog2 ⟨vg, vd, va, fmt, rnd⟩) = encV 0x1C vg.g vg.q.toNat vg.qneg vd.toNat va.toNat 0 0 fmt.code rnd.code false 0 0 := rfl
  refine ⟨he ▸ encV_lt (by omega) (by omega) (by omega) (by omega) (by omega) (by omega) (by omega) (by omega) (by omega) (by omega), accept_of hwf ?_⟩
  rw [he]; unfold rawV
  rw [encV_op_bits] <;> try omega
  simp (disch := omega) only [encV_g, encV_q, encV_qneg, encV_vd, encV_va, encV_vb, encV_vc, encV_fmt, encV_rnd, encV_sat, encV_s, encV_imm, encV_q_bits, encV_vd_bits, encV_va_bits, encV_vb_bits, encV_vc_bits, encV_fmt_bits, encV_rnd_bits, encV_s_bits, encV_imm_bits, encV_imm_bit, VGuard.at, VSrc.at, Fmt.ofCode_code, Rnd.ofCode_code, fld_high, fld_low, fld_toNat, bitsAt_high, bitsAt_low, bitsAt_zero, bitAt_high, bitAt_low, bitAt_one, Nat.zero_add, Nat.zero_mul, bitAt_b2n, bitAt_of_zero, bitAt_small, BitVec.ofNat_toNat, BitVec.setWidth_eq, Option.map_some, Option.bind_some, if_true, if_false, Bool.false_eq_true]

theorem Laws.RoundTrip.vfcvt (o : VFcvtArgs) : Statement (.vfcvt o) := by
  obtain ⟨vg, vd, va, to_, from_, part, rnd, sat⟩ := o
  have := to_.code_lt
  have := from_.code_lt
  have := rnd.code_lt
  have := b2n_lt sat
  intro hwf sl hs; cases hs
  have he : encode (.vfcvt ⟨vg, vd, va, to_, from_, part, rnd, sat⟩) = encV 0x1D vg.g vg.q.toNat vg.qneg vd.toNat va.toNat 0 0 to_.code rnd.code sat 0 (0 + (part.toNat * 2 ^ 4 + from_.code)) := rfl
  refine ⟨he ▸ encV_lt (by omega) (by omega) (by omega) (by omega) (by omega) (by omega) (by omega) (by omega) (by omega) (by omega), accept_of hwf ?_⟩
  rw [he]; unfold rawV
  rw [encV_op_bits] <;> try omega
  simp (disch := omega) only [encV_g, encV_q, encV_qneg, encV_vd, encV_va, encV_vb, encV_vc, encV_fmt, encV_rnd, encV_sat, encV_s, encV_imm, encV_q_bits, encV_vd_bits, encV_va_bits, encV_vb_bits, encV_vc_bits, encV_fmt_bits, encV_rnd_bits, encV_s_bits, encV_imm_bits, encV_imm_bit, VGuard.at, VSrc.at, Fmt.ofCode_code, Rnd.ofCode_code, fld_high, fld_low, fld_toNat, bitsAt_high, bitsAt_low, bitsAt_zero, bitAt_high, bitAt_low, bitAt_one, Nat.zero_add, Nat.zero_mul, bitAt_b2n, bitAt_of_zero, bitAt_small, BitVec.ofNat_toNat, BitVec.setWidth_eq, Option.map_some, Option.bind_some, if_true, if_false, Bool.false_eq_true]

theorem Laws.RoundTrip.vqnt (o : VQntArgs) : Statement (.vqnt o) := by
  obtain ⟨g, vd, va, fmt, rnd⟩ := o
  have := fmt.num_lt
  have := rnd.code_lt
  have := Fmt.code_lt fmt.fmt
  intro hwf sl hs; cases hs
  have he : encode (.vqnt ⟨g, vd, va, fmt, rnd⟩) = encV 0x1E g 0 false vd.toNat va.toNat 0 0 fmt.fmt.code rnd.code false 0 0 := rfl
  refine ⟨he ▸ encV_lt (by omega) (by omega) (by omega) (by omega) (by omega) (by omega) (by omega) (by omega) (by omega) (by omega), accept_of hwf ?_⟩
  rw [he]; unfold rawV
  rw [encV_op_bits] <;> try omega
  simp (disch := omega) only [encV_g, encV_q, encV_qneg, encV_vd, encV_va, encV_vb, encV_vc, encV_fmt, encV_rnd, encV_sat, encV_s, encV_imm, encV_q_bits, encV_vd_bits, encV_va_bits, encV_vb_bits, encV_vc_bits, encV_fmt_bits, encV_rnd_bits, encV_s_bits, encV_imm_bits, encV_imm_bit, VGuard.at, VSrc.at, Rnd.ofCode_code, MxFmt.ofCode_num, Fmt.mx_fmt, Fmt.ofCode_code, fld_high, fld_low, fld_toNat, bitsAt_high, bitsAt_low, bitsAt_zero, bitAt_high, bitAt_low, bitAt_one, Nat.zero_add, Nat.zero_mul, bitAt_b2n, bitAt_of_zero, bitAt_small, BitVec.ofNat_toNat, BitVec.setWidth_eq, Option.map_some, Option.bind_some, if_true, if_false, Bool.false_eq_true]

theorem Laws.RoundTrip.vdqn (o : VDqnArgs) : Statement (.vdqn o) := by
  obtain ⟨g, vd, va, fmt⟩ := o
  have := fmt.num_lt
  have := Fmt.code_lt fmt.fmt
  intro hwf sl hs; cases hs
  have he : encode (.vdqn ⟨g, vd, va, fmt⟩) = encV 0x1F g 0 false vd.toNat va.toNat 0 0 fmt.fmt.code 0 false 0 0 := rfl
  refine ⟨he ▸ encV_lt (by omega) (by omega) (by omega) (by omega) (by omega) (by omega) (by omega) (by omega) (by omega) (by omega), accept_of hwf ?_⟩
  rw [he]; unfold rawV
  rw [encV_op_bits] <;> try omega
  simp (disch := omega) only [encV_g, encV_q, encV_qneg, encV_vd, encV_va, encV_vb, encV_vc, encV_fmt, encV_rnd, encV_sat, encV_s, encV_imm, encV_q_bits, encV_vd_bits, encV_va_bits, encV_vb_bits, encV_vc_bits, encV_fmt_bits, encV_rnd_bits, encV_s_bits, encV_imm_bits, encV_imm_bit, VGuard.at, VSrc.at, MxFmt.ofCode_num, Fmt.mx_fmt, Fmt.ofCode_code, fld_high, fld_low, fld_toNat, bitsAt_high, bitsAt_low, bitsAt_zero, bitAt_high, bitAt_low, bitAt_one, Nat.zero_add, Nat.zero_mul, bitAt_b2n, bitAt_of_zero, bitAt_small, BitVec.ofNat_toNat, BitVec.setWidth_eq, Option.map_some, Option.bind_some, if_true, if_false, Bool.false_eq_true]

theorem Laws.RoundTrip.vradd (o : VRedArgs) : Statement (.vradd o) := by
  obtain ⟨vg, vd, va, fmt, rnd, sat⟩ := o
  have := fmt.code_lt
  have := rnd.code_lt
  have := b2n_lt sat
  intro hwf sl hs; cases hs
  have he : encode (.vradd ⟨vg, vd, va, fmt, rnd, sat⟩) = encV 0x20 vg.g vg.q.toNat vg.qneg vd.toNat va.toNat 0 0 fmt.code rnd.code sat 0 0 := rfl
  refine ⟨he ▸ encV_lt (by omega) (by omega) (by omega) (by omega) (by omega) (by omega) (by omega) (by omega) (by omega) (by omega), accept_of hwf ?_⟩
  rw [he]; unfold rawV
  rw [encV_op_bits] <;> try omega
  simp (disch := omega) only [encV_g, encV_q, encV_qneg, encV_vd, encV_va, encV_vb, encV_vc, encV_fmt, encV_rnd, encV_sat, encV_s, encV_imm, encV_q_bits, encV_vd_bits, encV_va_bits, encV_vb_bits, encV_vc_bits, encV_fmt_bits, encV_rnd_bits, encV_s_bits, encV_imm_bits, encV_imm_bit, VGuard.at, VSrc.at, Fmt.ofCode_code, Rnd.ofCode_code, fld_high, fld_low, fld_toNat, bitsAt_high, bitsAt_low, bitsAt_zero, bitAt_high, bitAt_low, bitAt_one, Nat.zero_add, Nat.zero_mul, bitAt_b2n, bitAt_of_zero, bitAt_small, BitVec.ofNat_toNat, BitVec.setWidth_eq, Option.map_some, Option.bind_some, if_true, if_false, Bool.false_eq_true]

theorem Laws.RoundTrip.vrmax (o : VRedArgs) : Statement (.vrmax o) := by
  obtain ⟨vg, vd, va, fmt, rnd, sat⟩ := o
  have := fmt.code_lt
  have := rnd.code_lt
  have := b2n_lt sat
  intro hwf sl hs; cases hs
  have he : encode (.vrmax ⟨vg, vd, va, fmt, rnd, sat⟩) = encV 0x21 vg.g vg.q.toNat vg.qneg vd.toNat va.toNat 0 0 fmt.code rnd.code sat 0 0 := rfl
  refine ⟨he ▸ encV_lt (by omega) (by omega) (by omega) (by omega) (by omega) (by omega) (by omega) (by omega) (by omega) (by omega), accept_of hwf ?_⟩
  rw [he]; unfold rawV
  rw [encV_op_bits] <;> try omega
  simp (disch := omega) only [encV_g, encV_q, encV_qneg, encV_vd, encV_va, encV_vb, encV_vc, encV_fmt, encV_rnd, encV_sat, encV_s, encV_imm, encV_q_bits, encV_vd_bits, encV_va_bits, encV_vb_bits, encV_vc_bits, encV_fmt_bits, encV_rnd_bits, encV_s_bits, encV_imm_bits, encV_imm_bit, VGuard.at, VSrc.at, Fmt.ofCode_code, Rnd.ofCode_code, fld_high, fld_low, fld_toNat, bitsAt_high, bitsAt_low, bitsAt_zero, bitAt_high, bitAt_low, bitAt_one, Nat.zero_add, Nat.zero_mul, bitAt_b2n, bitAt_of_zero, bitAt_small, BitVec.ofNat_toNat, BitVec.setWidth_eq, Option.map_some, Option.bind_some, if_true, if_false, Bool.false_eq_true]

theorem Laws.RoundTrip.vrmin (o : VRedArgs) : Statement (.vrmin o) := by
  obtain ⟨vg, vd, va, fmt, rnd, sat⟩ := o
  have := fmt.code_lt
  have := rnd.code_lt
  have := b2n_lt sat
  intro hwf sl hs; cases hs
  have he : encode (.vrmin ⟨vg, vd, va, fmt, rnd, sat⟩) = encV 0x22 vg.g vg.q.toNat vg.qneg vd.toNat va.toNat 0 0 fmt.code rnd.code sat 0 0 := rfl
  refine ⟨he ▸ encV_lt (by omega) (by omega) (by omega) (by omega) (by omega) (by omega) (by omega) (by omega) (by omega) (by omega), accept_of hwf ?_⟩
  rw [he]; unfold rawV
  rw [encV_op_bits] <;> try omega
  simp (disch := omega) only [encV_g, encV_q, encV_qneg, encV_vd, encV_va, encV_vb, encV_vc, encV_fmt, encV_rnd, encV_sat, encV_s, encV_imm, encV_q_bits, encV_vd_bits, encV_va_bits, encV_vb_bits, encV_vc_bits, encV_fmt_bits, encV_rnd_bits, encV_s_bits, encV_imm_bits, encV_imm_bit, VGuard.at, VSrc.at, Fmt.ofCode_code, Rnd.ofCode_code, fld_high, fld_low, fld_toNat, bitsAt_high, bitsAt_low, bitsAt_zero, bitAt_high, bitAt_low, bitAt_one, Nat.zero_add, Nat.zero_mul, bitAt_b2n, bitAt_of_zero, bitAt_small, BitVec.ofNat_toNat, BitVec.setWidth_eq, Option.map_some, Option.bind_some, if_true, if_false, Bool.false_eq_true]

theorem Laws.RoundTrip.vscan (o : VScanArgs) : Statement (.vscan o) := by
  obtain ⟨vg, vd, va, op, fmt, rnd, sat⟩ := o
  have := op.code_lt
  have := fmt.code_lt
  have := rnd.code_lt
  have := b2n_lt sat
  intro hwf sl hs; cases hs
  have he : encode (.vscan ⟨vg, vd, va, op, fmt, rnd, sat⟩) = encV 0x23 vg.g vg.q.toNat vg.qneg vd.toNat va.toNat 0 0 fmt.code rnd.code sat 0 (0 + op.code) := rfl
  refine ⟨he ▸ encV_lt (by omega) (by omega) (by omega) (by omega) (by omega) (by omega) (by omega) (by omega) (by omega) (by omega), accept_of hwf ?_⟩
  rw [he]; unfold rawV
  rw [encV_op_bits] <;> try omega
  simp (disch := omega) only [encV_g, encV_q, encV_qneg, encV_vd, encV_va, encV_vb, encV_vc, encV_fmt, encV_rnd, encV_sat, encV_s, encV_imm, encV_q_bits, encV_vd_bits, encV_va_bits, encV_vb_bits, encV_vc_bits, encV_fmt_bits, encV_rnd_bits, encV_s_bits, encV_imm_bits, encV_imm_bit, VGuard.at, VSrc.at, Fmt.ofCode_code, Rnd.ofCode_code, ScanOp.ofCode_code, fld_high, fld_low, fld_toNat, bitsAt_high, bitsAt_low, bitsAt_zero, bitAt_high, bitAt_low, bitAt_one, Nat.zero_add, Nat.zero_mul, bitAt_b2n, bitAt_of_zero, bitAt_small, BitVec.ofNat_toNat, BitVec.setWidth_eq, Option.map_some, Option.bind_some, if_true, if_false, Bool.false_eq_true]

theorem Laws.RoundTrip.vperm (o : VTwoArgs) : Statement (.vperm o) := by
  obtain ⟨vg, vd, va, vb, fmt⟩ := o
  have := fmt.code_lt
  intro hwf sl hs; cases hs
  have he : encode (.vperm ⟨vg, vd, va, vb, fmt⟩) = encV 0x24 vg.g vg.q.toNat vg.qneg vd.toNat va.toNat vb.toNat 0 fmt.code 0 false 0 0 := rfl
  refine ⟨he ▸ encV_lt (by omega) (by omega) (by omega) (by omega) (by omega) (by omega) (by omega) (by omega) (by omega) (by omega), accept_of hwf ?_⟩
  rw [he]; unfold rawV
  rw [encV_op_bits] <;> try omega
  simp (disch := omega) only [encV_g, encV_q, encV_qneg, encV_vd, encV_va, encV_vb, encV_vc, encV_fmt, encV_rnd, encV_sat, encV_s, encV_imm, encV_q_bits, encV_vd_bits, encV_va_bits, encV_vb_bits, encV_vc_bits, encV_fmt_bits, encV_rnd_bits, encV_s_bits, encV_imm_bits, encV_imm_bit, VGuard.at, VSrc.at, Fmt.ofCode_code, fld_high, fld_low, fld_toNat, bitsAt_high, bitsAt_low, bitsAt_zero, bitAt_high, bitAt_low, bitAt_one, Nat.zero_add, Nat.zero_mul, bitAt_b2n, bitAt_of_zero, bitAt_small, BitVec.ofNat_toNat, BitVec.setWidth_eq, Option.map_some, Option.bind_some, if_true, if_false, Bool.false_eq_true]

theorem Laws.RoundTrip.vbcst (o : VScalArgs) : Statement (.vbcst o) := by
  obtain ⟨vg, vd, s, fmt⟩ := o
  have := fmt.code_lt
  intro hwf sl hs; cases hs
  have he : encode (.vbcst ⟨vg, vd, s, fmt⟩) = encV 0x25 vg.g vg.q.toNat vg.qneg vd.toNat 0 0 0 fmt.code 0 false s.toNat 0 := rfl
  refine ⟨he ▸ encV_lt (by omega) (by omega) (by omega) (by omega) (by omega) (by omega) (by omega) (by omega) (by omega) (by omega), accept_of hwf ?_⟩
  rw [he]; unfold rawV
  rw [encV_op_bits] <;> try omega
  simp (disch := omega) only [encV_g, encV_q, encV_qneg, encV_vd, encV_va, encV_vb, encV_vc, encV_fmt, encV_rnd, encV_sat, encV_s, encV_imm, encV_q_bits, encV_vd_bits, encV_va_bits, encV_vb_bits, encV_vc_bits, encV_fmt_bits, encV_rnd_bits, encV_s_bits, encV_imm_bits, encV_imm_bit, VGuard.at, VSrc.at, Fmt.ofCode_code, fld_high, fld_low, fld_toNat, bitsAt_high, bitsAt_low, bitsAt_zero, bitAt_high, bitAt_low, bitAt_one, Nat.zero_add, Nat.zero_mul, bitAt_b2n, bitAt_of_zero, bitAt_small, BitVec.ofNat_toNat, BitVec.setWidth_eq, Option.map_some, Option.bind_some, if_true, if_false, Bool.false_eq_true]

theorem Laws.RoundTrip.vext (o : VExtArgs) : Statement (.vext o) := by
  obtain ⟨g, s, va, k, fmt⟩ := o
  have := fmt.code_lt
  intro hwf sl hs; cases hs
  have he : encode (.vext ⟨g, s, va, k, fmt⟩) = encV 0x26 g 0 false 0 va.toNat 0 0 fmt.code 0 false s.toNat k.toNat := rfl
  refine ⟨he ▸ encV_lt (by omega) (by omega) (by omega) (by omega) (by omega) (by omega) (by omega) (by omega) (by omega) (by omega), accept_of hwf ?_⟩
  rw [he]; unfold rawV
  rw [encV_op_bits] <;> try omega
  simp (disch := omega) only [encV_g, encV_q, encV_qneg, encV_vd, encV_va, encV_vb, encV_vc, encV_fmt, encV_rnd, encV_sat, encV_s, encV_imm, encV_q_bits, encV_vd_bits, encV_va_bits, encV_vb_bits, encV_vc_bits, encV_fmt_bits, encV_rnd_bits, encV_s_bits, encV_imm_bits, encV_imm_bit, VGuard.at, VSrc.at, Fmt.ofCode_code, fld_high, fld_low, fld_toNat, bitsAt_high, bitsAt_low, bitsAt_zero, bitAt_high, bitAt_low, bitAt_one, Nat.zero_add, Nat.zero_mul, bitAt_b2n, bitAt_of_zero, bitAt_small, BitVec.ofNat_toNat, BitVec.setWidth_eq, Option.map_some, Option.bind_some, if_true, if_false, Bool.false_eq_true]

theorem Laws.RoundTrip.vins (o : VInsArgs) : Statement (.vins o) := by
  obtain ⟨g, vd, s, k, fmt⟩ := o
  have := fmt.code_lt
  intro hwf sl hs; cases hs
  have he : encode (.vins ⟨g, vd, s, k, fmt⟩) = encV 0x27 g 0 false vd.toNat 0 0 0 fmt.code 0 false s.toNat k.toNat := rfl
  refine ⟨he ▸ encV_lt (by omega) (by omega) (by omega) (by omega) (by omega) (by omega) (by omega) (by omega) (by omega) (by omega), accept_of hwf ?_⟩
  rw [he]; unfold rawV
  rw [encV_op_bits] <;> try omega
  simp (disch := omega) only [encV_g, encV_q, encV_qneg, encV_vd, encV_va, encV_vb, encV_vc, encV_fmt, encV_rnd, encV_sat, encV_s, encV_imm, encV_q_bits, encV_vd_bits, encV_va_bits, encV_vb_bits, encV_vc_bits, encV_fmt_bits, encV_rnd_bits, encV_s_bits, encV_imm_bits, encV_imm_bit, VGuard.at, VSrc.at, Fmt.ofCode_code, fld_high, fld_low, fld_toNat, bitsAt_high, bitsAt_low, bitsAt_zero, bitAt_high, bitAt_low, bitAt_one, Nat.zero_add, Nat.zero_mul, bitAt_b2n, bitAt_of_zero, bitAt_small, BitVec.ofNat_toNat, BitVec.setWidth_eq, Option.map_some, Option.bind_some, if_true, if_false, Bool.false_eq_true]

theorem Laws.RoundTrip.vcmpr (o : VUnArgs) : Statement (.vcmpr o) := by
  obtain ⟨vg, vd, va, fmt⟩ := o
  have := fmt.code_lt
  intro hwf sl hs; cases hs
  have he : encode (.vcmpr ⟨vg, vd, va, fmt⟩) = encV 0x29 vg.g vg.q.toNat vg.qneg vd.toNat va.toNat 0 0 fmt.code 0 false 0 0 := rfl
  refine ⟨he ▸ encV_lt (by omega) (by omega) (by omega) (by omega) (by omega) (by omega) (by omega) (by omega) (by omega) (by omega), accept_of hwf ?_⟩
  rw [he]; unfold rawV
  rw [encV_op_bits] <;> try omega
  simp (disch := omega) only [encV_g, encV_q, encV_qneg, encV_vd, encV_va, encV_vb, encV_vc, encV_fmt, encV_rnd, encV_sat, encV_s, encV_imm, encV_q_bits, encV_vd_bits, encV_va_bits, encV_vb_bits, encV_vc_bits, encV_fmt_bits, encV_rnd_bits, encV_s_bits, encV_imm_bits, encV_imm_bit, VGuard.at, VSrc.at, Fmt.ofCode_code, fld_high, fld_low, fld_toNat, bitsAt_high, bitsAt_low, bitsAt_zero, bitAt_high, bitAt_low, bitAt_one, Nat.zero_add, Nat.zero_mul, bitAt_b2n, bitAt_of_zero, bitAt_small, BitVec.ofNat_toNat, BitVec.setWidth_eq, Option.map_some, Option.bind_some, if_true, if_false, Bool.false_eq_true]

theorem Laws.RoundTrip.vexpd (o : VUnArgs) : Statement (.vexpd o) := by
  obtain ⟨vg, vd, va, fmt⟩ := o
  have := fmt.code_lt
  intro hwf sl hs; cases hs
  have he : encode (.vexpd ⟨vg, vd, va, fmt⟩) = encV 0x2A vg.g vg.q.toNat vg.qneg vd.toNat va.toNat 0 0 fmt.code 0 false 0 0 := rfl
  refine ⟨he ▸ encV_lt (by omega) (by omega) (by omega) (by omega) (by omega) (by omega) (by omega) (by omega) (by omega) (by omega), accept_of hwf ?_⟩
  rw [he]; unfold rawV
  rw [encV_op_bits] <;> try omega
  simp (disch := omega) only [encV_g, encV_q, encV_qneg, encV_vd, encV_va, encV_vb, encV_vc, encV_fmt, encV_rnd, encV_sat, encV_s, encV_imm, encV_q_bits, encV_vd_bits, encV_va_bits, encV_vb_bits, encV_vc_bits, encV_fmt_bits, encV_rnd_bits, encV_s_bits, encV_imm_bits, encV_imm_bit, VGuard.at, VSrc.at, Fmt.ofCode_code, fld_high, fld_low, fld_toNat, bitsAt_high, bitsAt_low, bitsAt_zero, bitAt_high, bitAt_low, bitAt_one, Nat.zero_add, Nat.zero_mul, bitAt_b2n, bitAt_of_zero, bitAt_small, BitVec.ofNat_toNat, BitVec.setWidth_eq, Option.map_some, Option.bind_some, if_true, if_false, Bool.false_eq_true]

theorem Laws.RoundTrip.vacrd (o : VAcrdArgs) : Statement (.vacrd o) := by
  obtain ⟨vg, vd, s, fmt, tile, half, rnd, sat⟩ := o
  have := fmt.code_lt
  have := b2n_lt tile
  have := b2n_lt half
  have := rnd.code_lt
  have := b2n_lt sat
  intro hwf sl hs; cases hs
  have he : encode (.vacrd ⟨vg, vd, s, fmt, tile, half, rnd, sat⟩) = encV 0x2B vg.g vg.q.toNat vg.qneg vd.toNat 0 0 0 fmt.code rnd.code sat s.toNat (b2n half * 2 ^ 1 + b2n tile) := rfl
  refine ⟨he ▸ encV_lt (by omega) (by omega) (by omega) (by omega) (by omega) (by omega) (by omega) (by omega) (by omega) (by omega), accept_of hwf ?_⟩
  rw [he]; unfold rawV
  rw [encV_op_bits] <;> try omega
  simp (disch := omega) only [encV_g, encV_q, encV_qneg, encV_vd, encV_va, encV_vb, encV_vc, encV_fmt, encV_rnd, encV_sat, encV_s, encV_imm, encV_q_bits, encV_vd_bits, encV_va_bits, encV_vb_bits, encV_vc_bits, encV_fmt_bits, encV_rnd_bits, encV_s_bits, encV_imm_bits, encV_imm_bit, VGuard.at, VSrc.at, Fmt.ofCode_code, Rnd.ofCode_code, fld_high, fld_low, fld_toNat, bitsAt_high, bitsAt_low, bitsAt_zero, bitAt_high, bitAt_low, bitAt_one, Nat.zero_add, Nat.zero_mul, bitAt_b2n, bitAt_of_zero, bitAt_small, BitVec.ofNat_toNat, BitVec.setWidth_eq, Option.map_some, Option.bind_some, if_true, if_false, Bool.false_eq_true]

theorem Laws.RoundTrip.vacwr (o : VAcwrArgs) : Statement (.vacwr o) := by
  obtain ⟨vg, va, s, tile, half⟩ := o
  have := b2n_lt tile
  have := b2n_lt half
  have : Fmt.fp32.code < 16 := by decide
  intro hwf sl hs; cases hs
  have he : encode (.vacwr ⟨vg, va, s, tile, half⟩) = encV 0x2C vg.g vg.q.toNat vg.qneg 0 va.toNat 0 0 Fmt.fp32.code 0 false s.toNat (b2n half * 2 ^ 1 + b2n tile) := rfl
  refine ⟨he ▸ encV_lt (by omega) (by omega) (by omega) (by omega) (by omega) (by omega) (by omega) (by omega) (by omega) (by omega), accept_of hwf ?_⟩
  rw [he]; unfold rawV
  rw [encV_op_bits] <;> try omega
  simp (disch := omega) only [encV_g, encV_q, encV_qneg, encV_vd, encV_va, encV_vb, encV_vc, encV_fmt, encV_rnd, encV_sat, encV_s, encV_imm, encV_q_bits, encV_vd_bits, encV_va_bits, encV_vb_bits, encV_vc_bits, encV_fmt_bits, encV_rnd_bits, encV_s_bits, encV_imm_bits, encV_imm_bit, VGuard.at, VSrc.at, fld_high, fld_low, fld_toNat, bitsAt_high, bitsAt_low, bitsAt_zero, bitAt_high, bitAt_low, bitAt_one, Nat.zero_add, Nat.zero_mul, bitAt_b2n, bitAt_of_zero, bitAt_small, BitVec.ofNat_toNat, BitVec.setWidth_eq, Option.map_some, Option.bind_some, if_true, if_false, Bool.false_eq_true]

theorem Laws.RoundTrip.qand (o : QBinArgs) : Statement (.qand o) := by
  obtain ⟨g, qd, qa, qb⟩ := o
  intro hwf sl hs; cases hs
  have he : encode (.qand ⟨g, qd, qa, qb⟩) = encV 0x2D g 0 false qd.toNat qa.toNat qb.toNat 0 0 0 false 0 0 := rfl
  refine ⟨he ▸ encV_lt (by omega) (by omega) (by omega) (by omega) (by omega) (by omega) (by omega) (by omega) (by omega) (by omega), accept_of hwf ?_⟩
  rw [he]; unfold rawV
  rw [encV_op_bits] <;> try omega
  simp (disch := omega) only [encV_g, encV_q, encV_qneg, encV_vd, encV_va, encV_vb, encV_vc, encV_fmt, encV_rnd, encV_sat, encV_s, encV_imm, encV_q_bits, encV_vd_bits, encV_va_bits, encV_vb_bits, encV_vc_bits, encV_fmt_bits, encV_rnd_bits, encV_s_bits, encV_imm_bits, encV_imm_bit, VGuard.at, VSrc.at, fld_high, fld_low, fld_toNat, bitsAt_high, bitsAt_low, bitsAt_zero, bitAt_high, bitAt_low, bitAt_one, Nat.zero_add, Nat.zero_mul, bitAt_b2n, bitAt_of_zero, bitAt_small, BitVec.ofNat_toNat, BitVec.setWidth_eq, Option.map_some, Option.bind_some, if_true, if_false, Bool.false_eq_true]

theorem Laws.RoundTrip.qor (o : QBinArgs) : Statement (.qor o) := by
  obtain ⟨g, qd, qa, qb⟩ := o
  intro hwf sl hs; cases hs
  have he : encode (.qor ⟨g, qd, qa, qb⟩) = encV 0x2E g 0 false qd.toNat qa.toNat qb.toNat 0 0 0 false 0 0 := rfl
  refine ⟨he ▸ encV_lt (by omega) (by omega) (by omega) (by omega) (by omega) (by omega) (by omega) (by omega) (by omega) (by omega), accept_of hwf ?_⟩
  rw [he]; unfold rawV
  rw [encV_op_bits] <;> try omega
  simp (disch := omega) only [encV_g, encV_q, encV_qneg, encV_vd, encV_va, encV_vb, encV_vc, encV_fmt, encV_rnd, encV_sat, encV_s, encV_imm, encV_q_bits, encV_vd_bits, encV_va_bits, encV_vb_bits, encV_vc_bits, encV_fmt_bits, encV_rnd_bits, encV_s_bits, encV_imm_bits, encV_imm_bit, VGuard.at, VSrc.at, fld_high, fld_low, fld_toNat, bitsAt_high, bitsAt_low, bitsAt_zero, bitAt_high, bitAt_low, bitAt_one, Nat.zero_add, Nat.zero_mul, bitAt_b2n, bitAt_of_zero, bitAt_small, BitVec.ofNat_toNat, BitVec.setWidth_eq, Option.map_some, Option.bind_some, if_true, if_false, Bool.false_eq_true]

theorem Laws.RoundTrip.qnot (o : QNotArgs) : Statement (.qnot o) := by
  obtain ⟨g, qd, qa⟩ := o
  intro hwf sl hs; cases hs
  have he : encode (.qnot ⟨g, qd, qa⟩) = encV 0x2F g 0 false qd.toNat qa.toNat 0 0 0 0 false 0 0 := rfl
  refine ⟨he ▸ encV_lt (by omega) (by omega) (by omega) (by omega) (by omega) (by omega) (by omega) (by omega) (by omega) (by omega), accept_of hwf ?_⟩
  rw [he]; unfold rawV
  rw [encV_op_bits] <;> try omega
  simp (disch := omega) only [encV_g, encV_q, encV_qneg, encV_vd, encV_va, encV_vb, encV_vc, encV_fmt, encV_rnd, encV_sat, encV_s, encV_imm, encV_q_bits, encV_vd_bits, encV_va_bits, encV_vb_bits, encV_vc_bits, encV_fmt_bits, encV_rnd_bits, encV_s_bits, encV_imm_bits, encV_imm_bit, VGuard.at, VSrc.at, fld_high, fld_low, fld_toNat, bitsAt_high, bitsAt_low, bitsAt_zero, bitAt_high, bitAt_low, bitAt_one, Nat.zero_add, Nat.zero_mul, bitAt_b2n, bitAt_of_zero, bitAt_small, BitVec.ofNat_toNat, BitVec.setWidth_eq, Option.map_some, Option.bind_some, if_true, if_false, Bool.false_eq_true]

theorem Laws.RoundTrip.qcnt (o : QCntArgs) : Statement (.qcnt o) := by
  obtain ⟨g, s, qa, fmt⟩ := o
  have := fmt.code_lt
  intro hwf sl hs; cases hs
  have he : encode (.qcnt ⟨g, s, qa, fmt⟩) = encV 0x30 g 0 false 0 qa.toNat 0 0 fmt.code 0 false s.toNat 0 := rfl
  refine ⟨he ▸ encV_lt (by omega) (by omega) (by omega) (by omega) (by omega) (by omega) (by omega) (by omega) (by omega) (by omega), accept_of hwf ?_⟩
  rw [he]; unfold rawV
  rw [encV_op_bits] <;> try omega
  simp (disch := omega) only [encV_g, encV_q, encV_qneg, encV_vd, encV_va, encV_vb, encV_vc, encV_fmt, encV_rnd, encV_sat, encV_s, encV_imm, encV_q_bits, encV_vd_bits, encV_va_bits, encV_vb_bits, encV_vc_bits, encV_fmt_bits, encV_rnd_bits, encV_s_bits, encV_imm_bits, encV_imm_bit, VGuard.at, VSrc.at, Fmt.ofCode_code, fld_high, fld_low, fld_toNat, bitsAt_high, bitsAt_low, bitsAt_zero, bitAt_high, bitAt_low, bitAt_one, Nat.zero_add, Nat.zero_mul, bitAt_b2n, bitAt_of_zero, bitAt_small, BitVec.ofNat_toNat, BitVec.setWidth_eq, Option.map_some, Option.bind_some, if_true, if_false, Bool.false_eq_true]

theorem Laws.RoundTrip.ld (o : LScalarArgs) : Statement (.ld o) := by
  obtain ⟨g, ord, scope, t, base, index, size, land, disp⟩ := o
  have := ord.code_lt
  have := scope.code_lt
  have := size.code_lt
  intro hwf sl hs; cases hs
  have he : encode (.ld ⟨g, ord, scope, t, base, index, size, land, disp⟩) = encL 0x01 g 0 ord.code scope.code t.toNat base.toNat index.toNat size.code land.toNat disp.toNat := rfl
  refine ⟨he ▸ encL_lt (by omega) (by omega) (by omega) (by omega) (by omega) (by omega) (by omega) (by omega) (by omega) (by omega), accept_of hwf ?_⟩
  rw [he]; unfold rawL
  rw [encL_op_bits] <;> try omega
  simp (disch := omega) only [encL_g, encL_q, encL_ord, encL_scope, encL_t, encL_base, encL_index, encL_size, encL_land, encL_disp, encL_q_bits, encL_ord_bits, encL_scope_bits, encL_t_bits, encL_base_bits, encL_index_bits, encL_size_bits, encL_land_bits, encL_disp_bits, encL_disp_bit, Ord.ofCode_code, Scope.ofCode_code, Size.ofCode_code, fld_high, fld_low, fld_toNat, bitsAt_high, bitsAt_low, bitsAt_zero, bitAt_high, bitAt_low, bitAt_one, Nat.zero_add, Nat.zero_mul, bitAt_b2n, bitAt_of_zero, bitAt_small, BitVec.ofNat_toNat, BitVec.setWidth_eq, Option.map_some, Option.bind_some, if_true, if_false, Bool.false_eq_true]

theorem Laws.RoundTrip.lds (o : LScalarArgs) : Statement (.lds o) := by
  obtain ⟨g, ord, scope, t, base, index, size, land, disp⟩ := o
  have := ord.code_lt
  have := scope.code_lt
  have := size.code_lt
  intro hwf sl hs; cases hs
  have he : encode (.lds ⟨g, ord, scope, t, base, index, size, land, disp⟩) = encL 0x02 g 0 ord.code scope.code t.toNat base.toNat index.toNat size.code land.toNat disp.toNat := rfl
  refine ⟨he ▸ encL_lt (by omega) (by omega) (by omega) (by omega) (by omega) (by omega) (by omega) (by omega) (by omega) (by omega), accept_of hwf ?_⟩
  rw [he]; unfold rawL
  rw [encL_op_bits] <;> try omega
  simp (disch := omega) only [encL_g, encL_q, encL_ord, encL_scope, encL_t, encL_base, encL_index, encL_size, encL_land, encL_disp, encL_q_bits, encL_ord_bits, encL_scope_bits, encL_t_bits, encL_base_bits, encL_index_bits, encL_size_bits, encL_land_bits, encL_disp_bits, encL_disp_bit, Ord.ofCode_code, Scope.ofCode_code, Size.ofCode_code, fld_high, fld_low, fld_toNat, bitsAt_high, bitsAt_low, bitsAt_zero, bitAt_high, bitAt_low, bitAt_one, Nat.zero_add, Nat.zero_mul, bitAt_b2n, bitAt_of_zero, bitAt_small, BitVec.ofNat_toNat, BitVec.setWidth_eq, Option.map_some, Option.bind_some, if_true, if_false, Bool.false_eq_true]

theorem Laws.RoundTrip.st (o : LStArgs) : Statement (.st o) := by
  obtain ⟨g, ord, scope, t, base, index, size, disp⟩ := o
  have := ord.code_lt
  have := scope.code_lt
  have := size.code_lt
  intro hwf sl hs; cases hs
  have he : encode (.st ⟨g, ord, scope, t, base, index, size, disp⟩) = encL 0x03 g 0 ord.code scope.code t.toNat base.toNat index.toNat size.code 0 disp.toNat := rfl
  refine ⟨he ▸ encL_lt (by omega) (by omega) (by omega) (by omega) (by omega) (by omega) (by omega) (by omega) (by omega) (by omega), accept_of hwf ?_⟩
  rw [he]; unfold rawL
  rw [encL_op_bits] <;> try omega
  simp (disch := omega) only [encL_g, encL_q, encL_ord, encL_scope, encL_t, encL_base, encL_index, encL_size, encL_land, encL_disp, encL_q_bits, encL_ord_bits, encL_scope_bits, encL_t_bits, encL_base_bits, encL_index_bits, encL_size_bits, encL_land_bits, encL_disp_bits, encL_disp_bit, Ord.ofCode_code, Scope.ofCode_code, Size.ofCode_code, fld_high, fld_low, fld_toNat, bitsAt_high, bitsAt_low, bitsAt_zero, bitAt_high, bitAt_low, bitAt_one, Nat.zero_add, Nat.zero_mul, bitAt_b2n, bitAt_of_zero, bitAt_small, BitVec.ofNat_toNat, BitVec.setWidth_eq, Option.map_some, Option.bind_some, if_true, if_false, Bool.false_eq_true]

theorem Laws.RoundTrip.ldv (o : LVecArgs) : Statement (.ldv o) := by
  obtain ⟨g, q, t, base, index, size, land, disp⟩ := o
  have := size.code_lt
  intro hwf sl hs; cases hs
  have he : encode (.ldv ⟨g, q, t, base, index, size, land, disp⟩) = encL 0x04 g q.toNat 0 0 t.toNat base.toNat index.toNat size.code land.toNat disp.toNat := rfl
  refine ⟨he ▸ encL_lt (by omega) (by omega) (by omega) (by omega) (by omega) (by omega) (by omega) (by omega) (by omega) (by omega), accept_of hwf ?_⟩
  rw [he]; unfold rawL
  rw [encL_op_bits] <;> try omega
  simp (disch := omega) only [encL_g, encL_q, encL_ord, encL_scope, encL_t, encL_base, encL_index, encL_size, encL_land, encL_disp, encL_q_bits, encL_ord_bits, encL_scope_bits, encL_t_bits, encL_base_bits, encL_index_bits, encL_size_bits, encL_land_bits, encL_disp_bits, encL_disp_bit, Size.ofCode_code, fld_high, fld_low, fld_toNat, bitsAt_high, bitsAt_low, bitsAt_zero, bitAt_high, bitAt_low, bitAt_one, Nat.zero_add, Nat.zero_mul, bitAt_b2n, bitAt_of_zero, bitAt_small, BitVec.ofNat_toNat, BitVec.setWidth_eq, Option.map_some, Option.bind_some, if_true, if_false, Bool.false_eq_true]

theorem Laws.RoundTrip.stv (o : LVecStArgs) : Statement (.stv o) := by
  obtain ⟨g, q, t, base, index, size, disp⟩ := o
  have := size.code_lt
  intro hwf sl hs; cases hs
  have he : encode (.stv ⟨g, q, t, base, index, size, disp⟩) = encL 0x05 g q.toNat 0 0 t.toNat base.toNat index.toNat size.code 0 disp.toNat := rfl
  refine ⟨he ▸ encL_lt (by omega) (by omega) (by omega) (by omega) (by omega) (by omega) (by omega) (by omega) (by omega) (by omega), accept_of hwf ?_⟩
  rw [he]; unfold rawL
  rw [encL_op_bits] <;> try omega
  simp (disch := omega) only [encL_g, encL_q, encL_ord, encL_scope, encL_t, encL_base, encL_index, encL_size, encL_land, encL_disp, encL_q_bits, encL_ord_bits, encL_scope_bits, encL_t_bits, encL_base_bits, encL_index_bits, encL_size_bits, encL_land_bits, encL_disp_bits, encL_disp_bit, Size.ofCode_code, fld_high, fld_low, fld_toNat, bitsAt_high, bitsAt_low, bitsAt_zero, bitAt_high, bitAt_low, bitAt_one, Nat.zero_add, Nat.zero_mul, bitAt_b2n, bitAt_of_zero, bitAt_small, BitVec.ofNat_toNat, BitVec.setWidth_eq, Option.map_some, Option.bind_some, if_true, if_false, Bool.false_eq_true]

theorem Laws.RoundTrip.ldvs (o : LVecArgs) : Statement (.ldvs o) := by
  obtain ⟨g, q, t, base, index, size, land, disp⟩ := o
  have := size.code_lt
  intro hwf sl hs; cases hs
  have he : encode (.ldvs ⟨g, q, t, base, index, size, land, disp⟩) = encL 0x06 g q.toNat 0 0 t.toNat base.toNat index.toNat size.code land.toNat disp.toNat := rfl
  refine ⟨he ▸ encL_lt (by omega) (by omega) (by omega) (by omega) (by omega) (by omega) (by omega) (by omega) (by omega) (by omega), accept_of hwf ?_⟩
  rw [he]; unfold rawL
  rw [encL_op_bits] <;> try omega
  simp (disch := omega) only [encL_g, encL_q, encL_ord, encL_scope, encL_t, encL_base, encL_index, encL_size, encL_land, encL_disp, encL_q_bits, encL_ord_bits, encL_scope_bits, encL_t_bits, encL_base_bits, encL_index_bits, encL_size_bits, encL_land_bits, encL_disp_bits, encL_disp_bit, Size.ofCode_code, fld_high, fld_low, fld_toNat, bitsAt_high, bitsAt_low, bitsAt_zero, bitAt_high, bitAt_low, bitAt_one, Nat.zero_add, Nat.zero_mul, bitAt_b2n, bitAt_of_zero, bitAt_small, BitVec.ofNat_toNat, BitVec.setWidth_eq, Option.map_some, Option.bind_some, if_true, if_false, Bool.false_eq_true]

theorem Laws.RoundTrip.stvs (o : LVecStArgs) : Statement (.stvs o) := by
  obtain ⟨g, q, t, base, index, size, disp⟩ := o
  have := size.code_lt
  intro hwf sl hs; cases hs
  have he : encode (.stvs ⟨g, q, t, base, index, size, disp⟩) = encL 0x07 g q.toNat 0 0 t.toNat base.toNat index.toNat size.code 0 disp.toNat := rfl
  refine ⟨he ▸ encL_lt (by omega) (by omega) (by omega) (by omega) (by omega) (by omega) (by omega) (by omega) (by omega) (by omega), accept_of hwf ?_⟩
  rw [he]; unfold rawL
  rw [encL_op_bits] <;> try omega
  simp (disch := omega) only [encL_g, encL_q, encL_ord, encL_scope, encL_t, encL_base, encL_index, encL_size, encL_land, encL_disp, encL_q_bits, encL_ord_bits, encL_scope_bits, encL_t_bits, encL_base_bits, encL_index_bits, encL_size_bits, encL_land_bits, encL_disp_bits, encL_disp_bit, Size.ofCode_code, fld_high, fld_low, fld_toNat, bitsAt_high, bitsAt_low, bitsAt_zero, bitAt_high, bitAt_low, bitAt_one, Nat.zero_add, Nat.zero_mul, bitAt_b2n, bitAt_of_zero, bitAt_small, BitVec.ofNat_toNat, BitVec.setWidth_eq, Option.map_some, Option.bind_some, if_true, if_false, Bool.false_eq_true]

theorem Laws.RoundTrip.gth (o : LGthArgs) : Statement (.gth o) := by
  obtain ⟨g, q, t, base, index, size, land, disp⟩ := o
  have := size.code_lt
  intro hwf sl hs; cases hs
  have he : encode (.gth ⟨g, q, t, base, index, size, land, disp⟩) = encL 0x08 g q.toNat 0 0 t.toNat base.toNat index.toNat size.code land.toNat disp.toNat := rfl
  refine ⟨he ▸ encL_lt (by omega) (by omega) (by omega) (by omega) (by omega) (by omega) (by omega) (by omega) (by omega) (by omega), accept_of hwf ?_⟩
  rw [he]; unfold rawL
  rw [encL_op_bits] <;> try omega
  simp (disch := omega) only [encL_g, encL_q, encL_ord, encL_scope, encL_t, encL_base, encL_index, encL_size, encL_land, encL_disp, encL_q_bits, encL_ord_bits, encL_scope_bits, encL_t_bits, encL_base_bits, encL_index_bits, encL_size_bits, encL_land_bits, encL_disp_bits, encL_disp_bit, Size.ofCode_code, fld_high, fld_low, fld_toNat, bitsAt_high, bitsAt_low, bitsAt_zero, bitAt_high, bitAt_low, bitAt_one, Nat.zero_add, Nat.zero_mul, bitAt_b2n, bitAt_of_zero, bitAt_small, BitVec.ofNat_toNat, BitVec.setWidth_eq, Option.map_some, Option.bind_some, if_true, if_false, Bool.false_eq_true]

theorem Laws.RoundTrip.sct (o : LSctArgs) : Statement (.sct o) := by
  obtain ⟨g, q, t, base, index, size, disp⟩ := o
  have := size.code_lt
  intro hwf sl hs; cases hs
  have he : encode (.sct ⟨g, q, t, base, index, size, disp⟩) = encL 0x09 g q.toNat 0 0 t.toNat base.toNat index.toNat size.code 0 disp.toNat := rfl
  refine ⟨he ▸ encL_lt (by omega) (by omega) (by omega) (by omega) (by omega) (by omega) (by omega) (by omega) (by omega) (by omega), accept_of hwf ?_⟩
  rw [he]; unfold rawL
  rw [encL_op_bits] <;> try omega
  simp (disch := omega) only [encL_g, encL_q, encL_ord, encL_scope, encL_t, encL_base, encL_index, encL_size, encL_land, encL_disp, encL_q_bits, encL_ord_bits, encL_scope_bits, encL_t_bits, encL_base_bits, encL_index_bits, encL_size_bits, encL_land_bits, encL_disp_bits, encL_disp_bit, Size.ofCode_code, fld_high, fld_low, fld_toNat, bitsAt_high, bitsAt_low, bitsAt_zero, bitAt_high, bitAt_low, bitAt_one, Nat.zero_add, Nat.zero_mul, bitAt_b2n, bitAt_of_zero, bitAt_small, BitVec.ofNat_toNat, BitVec.setWidth_eq, Option.map_some, Option.bind_some, if_true, if_false, Bool.false_eq_true]

theorem Laws.RoundTrip.sctaOp (o : LSctaArgs) : Statement (.sctaOp o) := by
  obtain ⟨g, q, t, base, index, size, op⟩ := o
  have := size.code_lt
  have := op.code_lt
  intro hwf sl hs; cases hs
  have he : encode (.sctaOp ⟨g, q, t, base, index, size, op⟩) = encL 0x0A g q.toNat 0 0 t.toNat base.toNat index.toNat size.code 0 op.code := rfl
  refine ⟨he ▸ encL_lt (by omega) (by omega) (by omega) (by omega) (by omega) (by omega) (by omega) (by omega) (by omega) (by omega), accept_of hwf ?_⟩
  rw [he]; unfold rawL
  rw [encL_op_bits] <;> try omega
  simp (disch := omega) only [encL_g, encL_q, encL_ord, encL_scope, encL_t, encL_base, encL_index, encL_size, encL_land, encL_disp, encL_q_bits, encL_ord_bits, encL_scope_bits, encL_t_bits, encL_base_bits, encL_index_bits, encL_size_bits, encL_land_bits, encL_disp_bits, encL_disp_bit, SctaOp.ofCode_code, Size.ofCode_code, fld_high, fld_low, fld_toNat, bitsAt_high, bitsAt_low, bitsAt_zero, bitAt_high, bitAt_low, bitAt_one, Nat.zero_add, Nat.zero_mul, bitAt_b2n, bitAt_of_zero, bitAt_small, BitVec.ofNat_toNat, BitVec.setWidth_eq, Option.map_some, Option.bind_some, if_true, if_false, Bool.false_eq_true]

theorem Laws.RoundTrip.aadd (o : LScalarArgs) : Statement (.aadd o) := by
  obtain ⟨g, ord, scope, t, base, index, size, land, disp⟩ := o
  have := ord.code_lt
  have := scope.code_lt
  have := size.code_lt
  intro hwf sl hs; cases hs
  have he : encode (.aadd ⟨g, ord, scope, t, base, index, size, land, disp⟩) = encL 0x0B g 0 ord.code scope.code t.toNat base.toNat index.toNat size.code land.toNat disp.toNat := rfl
  refine ⟨he ▸ encL_lt (by omega) (by omega) (by omega) (by omega) (by omega) (by omega) (by omega) (by omega) (by omega) (by omega), accept_of hwf ?_⟩
  rw [he]; unfold rawL
  rw [encL_op_bits] <;> try omega
  simp (disch := omega) only [encL_g, encL_q, encL_ord, encL_scope, encL_t, encL_base, encL_index, encL_size, encL_land, encL_disp, encL_q_bits, encL_ord_bits, encL_scope_bits, encL_t_bits, encL_base_bits, encL_index_bits, encL_size_bits, encL_land_bits, encL_disp_bits, encL_disp_bit, Ord.ofCode_code, Scope.ofCode_code, Size.ofCode_code, fld_high, fld_low, fld_toNat, bitsAt_high, bitsAt_low, bitsAt_zero, bitAt_high, bitAt_low, bitAt_one, Nat.zero_add, Nat.zero_mul, bitAt_b2n, bitAt_of_zero, bitAt_small, BitVec.ofNat_toNat, BitVec.setWidth_eq, Option.map_some, Option.bind_some, if_true, if_false, Bool.false_eq_true]

theorem Laws.RoundTrip.amin (o : LScalarArgs) : Statement (.amin o) := by
  obtain ⟨g, ord, scope, t, base, index, size, land, disp⟩ := o
  have := ord.code_lt
  have := scope.code_lt
  have := size.code_lt
  intro hwf sl hs; cases hs
  have he : encode (.amin ⟨g, ord, scope, t, base, index, size, land, disp⟩) = encL 0x0C g 0 ord.code scope.code t.toNat base.toNat index.toNat size.code land.toNat disp.toNat := rfl
  refine ⟨he ▸ encL_lt (by omega) (by omega) (by omega) (by omega) (by omega) (by omega) (by omega) (by omega) (by omega) (by omega), accept_of hwf ?_⟩
  rw [he]; unfold rawL
  rw [encL_op_bits] <;> try omega
  simp (disch := omega) only [encL_g, encL_q, encL_ord, encL_scope, encL_t, encL_base, encL_index, encL_size, encL_land, encL_disp, encL_q_bits, encL_ord_bits, encL_scope_bits, encL_t_bits, encL_base_bits, encL_index_bits, encL_size_bits, encL_land_bits, encL_disp_bits, encL_disp_bit, Ord.ofCode_code, Scope.ofCode_code, Size.ofCode_code, fld_high, fld_low, fld_toNat, bitsAt_high, bitsAt_low, bitsAt_zero, bitAt_high, bitAt_low, bitAt_one, Nat.zero_add, Nat.zero_mul, bitAt_b2n, bitAt_of_zero, bitAt_small, BitVec.ofNat_toNat, BitVec.setWidth_eq, Option.map_some, Option.bind_some, if_true, if_false, Bool.false_eq_true]

theorem Laws.RoundTrip.amax (o : LScalarArgs) : Statement (.amax o) := by
  obtain ⟨g, ord, scope, t, base, index, size, land, disp⟩ := o
  have := ord.code_lt
  have := scope.code_lt
  have := size.code_lt
  intro hwf sl hs; cases hs
  have he : encode (.amax ⟨g, ord, scope, t, base, index, size, land, disp⟩) = encL 0x0D g 0 ord.code scope.code t.toNat base.toNat index.toNat size.code land.toNat disp.toNat := rfl
  refine ⟨he ▸ encL_lt (by omega) (by omega) (by omega) (by omega) (by omega) (by omega) (by omega) (by omega) (by omega) (by omega), accept_of hwf ?_⟩
  rw [he]; unfold rawL
  rw [encL_op_bits] <;> try omega
  simp (disch := omega) only [encL_g, encL_q, encL_ord, encL_scope, encL_t, encL_base, encL_index, encL_size, encL_land, encL_disp, encL_q_bits, encL_ord_bits, encL_scope_bits, encL_t_bits, encL_base_bits, encL_index_bits, encL_size_bits, encL_land_bits, encL_disp_bits, encL_disp_bit, Ord.ofCode_code, Scope.ofCode_code, Size.ofCode_code, fld_high, fld_low, fld_toNat, bitsAt_high, bitsAt_low, bitsAt_zero, bitAt_high, bitAt_low, bitAt_one, Nat.zero_add, Nat.zero_mul, bitAt_b2n, bitAt_of_zero, bitAt_small, BitVec.ofNat_toNat, BitVec.setWidth_eq, Option.map_some, Option.bind_some, if_true, if_false, Bool.false_eq_true]

theorem Laws.RoundTrip.aminu (o : LScalarArgs) : Statement (.aminu o) := by
  obtain ⟨g, ord, scope, t, base, index, size, land, disp⟩ := o
  have := ord.code_lt
  have := scope.code_lt
  have := size.code_lt
  intro hwf sl hs; cases hs
  have he : encode (.aminu ⟨g, ord, scope, t, base, index, size, land, disp⟩) = encL 0x0E g 0 ord.code scope.code t.toNat base.toNat index.toNat size.code land.toNat disp.toNat := rfl
  refine ⟨he ▸ encL_lt (by omega) (by omega) (by omega) (by omega) (by omega) (by omega) (by omega) (by omega) (by omega) (by omega), accept_of hwf ?_⟩
  rw [he]; unfold rawL
  rw [encL_op_bits] <;> try omega
  simp (disch := omega) only [encL_g, encL_q, encL_ord, encL_scope, encL_t, encL_base, encL_index, encL_size, encL_land, encL_disp, encL_q_bits, encL_ord_bits, encL_scope_bits, encL_t_bits, encL_base_bits, encL_index_bits, encL_size_bits, encL_land_bits, encL_disp_bits, encL_disp_bit, Ord.ofCode_code, Scope.ofCode_code, Size.ofCode_code, fld_high, fld_low, fld_toNat, bitsAt_high, bitsAt_low, bitsAt_zero, bitAt_high, bitAt_low, bitAt_one, Nat.zero_add, Nat.zero_mul, bitAt_b2n, bitAt_of_zero, bitAt_small, BitVec.ofNat_toNat, BitVec.setWidth_eq, Option.map_some, Option.bind_some, if_true, if_false, Bool.false_eq_true]

theorem Laws.RoundTrip.amaxu (o : LScalarArgs) : Statement (.amaxu o) := by
  obtain ⟨g, ord, scope, t, base, index, size, land, disp⟩ := o
  have := ord.code_lt
  have := scope.code_lt
  have := size.code_lt
  intro hwf sl hs; cases hs
  have he : encode (.amaxu ⟨g, ord, scope, t, base, index, size, land, disp⟩) = encL 0x0F g 0 ord.code scope.code t.toNat base.toNat index.toNat size.code land.toNat disp.toNat := rfl
  refine ⟨he ▸ encL_lt (by omega) (by omega) (by omega) (by omega) (by omega) (by omega) (by omega) (by omega) (by omega) (by omega), accept_of hwf ?_⟩
  rw [he]; unfold rawL
  rw [encL_op_bits] <;> try omega
  simp (disch := omega) only [encL_g, encL_q, encL_ord, encL_scope, encL_t, encL_base, encL_index, encL_size, encL_land, encL_disp, encL_q_bits, encL_ord_bits, encL_scope_bits, encL_t_bits, encL_base_bits, encL_index_bits, encL_size_bits, encL_land_bits, encL_disp_bits, encL_disp_bit, Ord.ofCode_code, Scope.ofCode_code, Size.ofCode_code, fld_high, fld_low, fld_toNat, bitsAt_high, bitsAt_low, bitsAt_zero, bitAt_high, bitAt_low, bitAt_one, Nat.zero_add, Nat.zero_mul, bitAt_b2n, bitAt_of_zero, bitAt_small, BitVec.ofNat_toNat, BitVec.setWidth_eq, Option.map_some, Option.bind_some, if_true, if_false, Bool.false_eq_true]

theorem Laws.RoundTrip.aand (o : LScalarArgs) : Statement (.aand o) := by
  obtain ⟨g, ord, scope, t, base, index, size, land, disp⟩ := o
  have := ord.code_lt
  have := scope.code_lt
  have := size.code_lt
  intro hwf sl hs; cases hs
  have he : encode (.aand ⟨g, ord, scope, t, base, index, size, land, disp⟩) = encL 0x10 g 0 ord.code scope.code t.toNat base.toNat index.toNat size.code land.toNat disp.toNat := rfl
  refine ⟨he ▸ encL_lt (by omega) (by omega) (by omega) (by omega) (by omega) (by omega) (by omega) (by omega) (by omega) (by omega), accept_of hwf ?_⟩
  rw [he]; unfold rawL
  rw [encL_op_bits] <;> try omega
  simp (disch := omega) only [encL_g, encL_q, encL_ord, encL_scope, encL_t, encL_base, encL_index, encL_size, encL_land, encL_disp, encL_q_bits, encL_ord_bits, encL_scope_bits, encL_t_bits, encL_base_bits, encL_index_bits, encL_size_bits, encL_land_bits, encL_disp_bits, encL_disp_bit, Ord.ofCode_code, Scope.ofCode_code, Size.ofCode_code, fld_high, fld_low, fld_toNat, bitsAt_high, bitsAt_low, bitsAt_zero, bitAt_high, bitAt_low, bitAt_one, Nat.zero_add, Nat.zero_mul, bitAt_b2n, bitAt_of_zero, bitAt_small, BitVec.ofNat_toNat, BitVec.setWidth_eq, Option.map_some, Option.bind_some, if_true, if_false, Bool.false_eq_true]

theorem Laws.RoundTrip.aor (o : LScalarArgs) : Statement (.aor o) := by
  obtain ⟨g, ord, scope, t, base, index, size, land, disp⟩ := o
  have := ord.code_lt
  have := scope.code_lt
  have := size.code_lt
  intro hwf sl hs; cases hs
  have he : encode (.aor ⟨g, ord, scope, t, base, index, size, land, disp⟩) = encL 0x11 g 0 ord.code scope.code t.toNat base.toNat index.toNat size.code land.toNat disp.toNat := rfl
  refine ⟨he ▸ encL_lt (by omega) (by omega) (by omega) (by omega) (by omega) (by omega) (by omega) (by omega) (by omega) (by omega), accept_of hwf ?_⟩
  rw [he]; unfold rawL
  rw [encL_op_bits] <;> try omega
  simp (disch := omega) only [encL_g, encL_q, encL_ord, encL_scope, encL_t, encL_base, encL_index, encL_size, encL_land, encL_disp, encL_q_bits, encL_ord_bits, encL_scope_bits, encL_t_bits, encL_base_bits, encL_index_bits, encL_size_bits, encL_land_bits, encL_disp_bits, encL_disp_bit, Ord.ofCode_code, Scope.ofCode_code, Size.ofCode_code, fld_high, fld_low, fld_toNat, bitsAt_high, bitsAt_low, bitsAt_zero, bitAt_high, bitAt_low, bitAt_one, Nat.zero_add, Nat.zero_mul, bitAt_b2n, bitAt_of_zero, bitAt_small, BitVec.ofNat_toNat, BitVec.setWidth_eq, Option.map_some, Option.bind_some, if_true, if_false, Bool.false_eq_true]

theorem Laws.RoundTrip.axor (o : LScalarArgs) : Statement (.axor o) := by
  obtain ⟨g, ord, scope, t, base, index, size, land, disp⟩ := o
  have := ord.code_lt
  have := scope.code_lt
  have := size.code_lt
  intro hwf sl hs; cases hs
  have he : encode (.axor ⟨g, ord, scope, t, base, index, size, land, disp⟩) = encL 0x12 g 0 ord.code scope.code t.toNat base.toNat index.toNat size.code land.toNat disp.toNat := rfl
  refine ⟨he ▸ encL_lt (by omega) (by omega) (by omega) (by omega) (by omega) (by omega) (by omega) (by omega) (by omega) (by omega), accept_of hwf ?_⟩
  rw [he]; unfold rawL
  rw [encL_op_bits] <;> try omega
  simp (disch := omega) only [encL_g, encL_q, encL_ord, encL_scope, encL_t, encL_base, encL_index, encL_size, encL_land, encL_disp, encL_q_bits, encL_ord_bits, encL_scope_bits, encL_t_bits, encL_base_bits, encL_index_bits, encL_size_bits, encL_land_bits, encL_disp_bits, encL_disp_bit, Ord.ofCode_code, Scope.ofCode_code, Size.ofCode_code, fld_high, fld_low, fld_toNat, bitsAt_high, bitsAt_low, bitsAt_zero, bitAt_high, bitAt_low, bitAt_one, Nat.zero_add, Nat.zero_mul, bitAt_b2n, bitAt_of_zero, bitAt_small, BitVec.ofNat_toNat, BitVec.setWidth_eq, Option.map_some, Option.bind_some, if_true, if_false, Bool.false_eq_true]

theorem Laws.RoundTrip.axchg (o : LScalarArgs) : Statement (.axchg o) := by
  obtain ⟨g, ord, scope, t, base, index, size, land, disp⟩ := o
  have := ord.code_lt
  have := scope.code_lt
  have := size.code_lt
  intro hwf sl hs; cases hs
  have he : encode (.axchg ⟨g, ord, scope, t, base, index, size, land, disp⟩) = encL 0x13 g 0 ord.code scope.code t.toNat base.toNat index.toNat size.code land.toNat disp.toNat := rfl
  refine ⟨he ▸ encL_lt (by omega) (by omega) (by omega) (by omega) (by omega) (by omega) (by omega) (by omega) (by omega) (by omega), accept_of hwf ?_⟩
  rw [he]; unfold rawL
  rw [encL_op_bits] <;> try omega
  simp (disch := omega) only [encL_g, encL_q, encL_ord, encL_scope, encL_t, encL_base, encL_index, encL_size, encL_land, encL_disp, encL_q_bits, encL_ord_bits, encL_scope_bits, encL_t_bits, encL_base_bits, encL_index_bits, encL_size_bits, encL_land_bits, encL_disp_bits, encL_disp_bit, Ord.ofCode_code, Scope.ofCode_code, Size.ofCode_code, fld_high, fld_low, fld_toNat, bitsAt_high, bitsAt_low, bitsAt_zero, bitAt_high, bitAt_low, bitAt_one, Nat.zero_add, Nat.zero_mul, bitAt_b2n, bitAt_of_zero, bitAt_small, BitVec.ofNat_toNat, BitVec.setWidth_eq, Option.map_some, Option.bind_some, if_true, if_false, Bool.false_eq_true]

theorem Laws.RoundTrip.acas (o : LScalarArgs) : Statement (.acas o) := by
  obtain ⟨g, ord, scope, t, base, index, size, land, disp⟩ := o
  have := ord.code_lt
  have := scope.code_lt
  have := size.code_lt
  intro hwf sl hs; cases hs
  have he : encode (.acas ⟨g, ord, scope, t, base, index, size, land, disp⟩) = encL 0x14 g 0 ord.code scope.code t.toNat base.toNat index.toNat size.code land.toNat disp.toNat := rfl
  refine ⟨he ▸ encL_lt (by omega) (by omega) (by omega) (by omega) (by omega) (by omega) (by omega) (by omega) (by omega) (by omega), accept_of hwf ?_⟩
  rw [he]; unfold rawL
  rw [encL_op_bits] <;> try omega
  simp (disch := omega) only [encL_g, encL_q, encL_ord, encL_scope, encL_t, encL_base, encL_index, encL_size, encL_land, encL_disp, encL_q_bits, encL_ord_bits, encL_scope_bits, encL_t_bits, encL_base_bits, encL_index_bits, encL_size_bits, encL_land_bits, encL_disp_bits, encL_disp_bit, Ord.ofCode_code, Scope.ofCode_code, Size.ofCode_code, fld_high, fld_low, fld_toNat, bitsAt_high, bitsAt_low, bitsAt_zero, bitAt_high, bitAt_low, bitAt_one, Nat.zero_add, Nat.zero_mul, bitAt_b2n, bitAt_of_zero, bitAt_small, BitVec.ofNat_toNat, BitVec.setWidth_eq, Option.map_some, Option.bind_some, if_true, if_false, Bool.false_eq_true]

theorem Laws.RoundTrip.mcall (o : McallArgs) : Statement (.mcall o) := by
  obtain ⟨g, acc, afmt, bfmt, routine⟩ := o
  have := b2n_lt acc
  have := afmt.num_lt
  have := bfmt.num_lt
  have := gangOf_lt afmt bfmt
  intro hwf sl hs; cases hs
  have he : encode (.mcall ⟨g, acc, afmt, bfmt, routine⟩) = encM 0x01 g acc afmt.num bfmt.num (gangOf afmt bfmt) routine.toNat 0 := rfl
  refine ⟨he ▸ encM_lt (by omega) (by omega) (by omega) (by omega) (by omega) (by omega), accept_of hwf ?_⟩
  rw [he]; unfold rawM
  rw [encM_op_bits] <;> try omega
  simp (disch := omega) only [encM_g, encM_acc, encM_afmt, encM_bfmt, encM_gang, encM_routine, encM_imm, encM_afmt_bits, encM_bfmt_bits, encM_gang_bits, encM_routine_bits, encM_imm_bits, encM_imm_bit, MxFmt.ofCode_num, Fmt.mx_fmt, Fmt.ofCode_code, fld_high, fld_low, fld_toNat, bitsAt_high, bitsAt_low, bitsAt_zero, bitAt_high, bitAt_low, bitAt_one, Nat.zero_add, Nat.zero_mul, bitAt_b2n, bitAt_of_zero, bitAt_small, BitVec.ofNat_toNat, BitVec.setWidth_eq, Option.map_some, Option.bind_some, if_true, if_false, Bool.false_eq_true]

theorem Laws.RoundTrip.mldw (o : MldwArgs) : Statement (.mldw o) := by
  obtain ⟨g, afmt, bfmt, m⟩ := o
  have := afmt.num_lt
  have := bfmt.num_lt
  have := gangOf_lt afmt bfmt
  intro hwf sl hs; cases hs
  have he : encode (.mldw ⟨g, afmt, bfmt, m⟩) = encM 0x02 g false afmt.num bfmt.num (gangOf afmt bfmt) 0 m.toNat := rfl
  refine ⟨he ▸ encM_lt (by omega) (by omega) (by omega) (by omega) (by omega) (by omega), accept_of hwf ?_⟩
  rw [he]; unfold rawM
  rw [encM_op_bits] <;> try omega
  simp (disch := omega) only [encM_g, encM_acc, encM_afmt, encM_bfmt, encM_gang, encM_routine, encM_imm, encM_afmt_bits, encM_bfmt_bits, encM_gang_bits, encM_routine_bits, encM_imm_bits, encM_imm_bit, MxFmt.ofCode_num, Fmt.mx_fmt, Fmt.ofCode_code, fld_high, fld_low, fld_toNat, bitsAt_high, bitsAt_low, bitsAt_zero, bitAt_high, bitAt_low, bitAt_one, Nat.zero_add, Nat.zero_mul, bitAt_b2n, bitAt_of_zero, bitAt_small, BitVec.ofNat_toNat, BitVec.setWidth_eq, Option.map_some, Option.bind_some, if_true, if_false, Bool.false_eq_true]

theorem Laws.RoundTrip.mswp (g : Guard) : Statement (.mswp g) := by
  intro hwf sl hs; cases hs
  have he : encode (.mswp g) = encM 0x03 g false 0 0 0 0 0 := rfl
  refine ⟨he ▸ encM_lt (by omega) (by omega) (by omega) (by omega) (by omega) (by omega), accept_of hwf ?_⟩
  rw [he]; unfold rawM
  rw [encM_op_bits] <;> try omega
  simp (disch := omega) only [encM_g, encM_acc, encM_afmt, encM_bfmt, encM_gang, encM_routine, encM_imm, encM_afmt_bits, encM_bfmt_bits, encM_gang_bits, encM_routine_bits, encM_imm_bits, encM_imm_bit, fld_high, fld_low, fld_toNat, bitsAt_high, bitsAt_low, bitsAt_zero, bitAt_high, bitAt_low, bitAt_one, Nat.zero_add, Nat.zero_mul, bitAt_b2n, bitAt_of_zero, bitAt_small, BitVec.ofNat_toNat, BitVec.setWidth_eq, Option.map_some, Option.bind_some, if_true, if_false, Bool.false_eq_true]

theorem Laws.RoundTrip.mldix (o : MldixArgs) : Statement (.mldix o) := by
  obtain ⟨g, v⟩ := o
  intro hwf sl hs; cases hs
  have he : encode (.mldix ⟨g, v⟩) = encM 0x04 g false 0 0 0 0 v.toNat := rfl
  refine ⟨he ▸ encM_lt (by omega) (by omega) (by omega) (by omega) (by omega) (by omega), accept_of hwf ?_⟩
  rw [he]; unfold rawM
  rw [encM_op_bits] <;> try omega
  simp (disch := omega) only [encM_g, encM_acc, encM_afmt, encM_bfmt, encM_gang, encM_routine, encM_imm, encM_afmt_bits, encM_bfmt_bits, encM_gang_bits, encM_routine_bits, encM_imm_bits, encM_imm_bit, fld_high, fld_low, fld_toNat, bitsAt_high, bitsAt_low, bitsAt_zero, bitAt_high, bitAt_low, bitAt_one, Nat.zero_add, Nat.zero_mul, bitAt_b2n, bitAt_of_zero, bitAt_small, BitVec.ofNat_toNat, BitVec.setWidth_eq, Option.map_some, Option.bind_some, if_true, if_false, Bool.false_eq_true]

theorem Laws.RoundTrip.mclr (o : MclrArgs) : Statement (.mclr o) := by
  obtain ⟨g, acc⟩ := o
  have := b2n_lt acc
  intro hwf sl hs; cases hs
  have he : encode (.mclr ⟨g, acc⟩) = encM 0x05 g acc 0 0 0 0 0 := rfl
  refine ⟨he ▸ encM_lt (by omega) (by omega) (by omega) (by omega) (by omega) (by omega), accept_of hwf ?_⟩
  rw [he]; unfold rawM
  rw [encM_op_bits] <;> try omega
  simp (disch := omega) only [encM_g, encM_acc, encM_afmt, encM_bfmt, encM_gang, encM_routine, encM_imm, encM_afmt_bits, encM_bfmt_bits, encM_gang_bits, encM_routine_bits, encM_imm_bits, encM_imm_bit, fld_high, fld_low, fld_toNat, bitsAt_high, bitsAt_low, bitsAt_zero, bitAt_high, bitAt_low, bitAt_one, Nat.zero_add, Nat.zero_mul, bitAt_b2n, bitAt_of_zero, bitAt_small, BitVec.ofNat_toNat, BitVec.setWidth_eq, Option.map_some, Option.bind_some, if_true, if_false, Bool.false_eq_true]

theorem Laws.RoundTrip.mset (o : MsetArgs) : Statement (.mset o) := by
  obtain ⟨g, m, s⟩ := o
  intro hwf sl hs; cases hs
  have he : encode (.mset ⟨g, m, s⟩) = encM 0x06 g false 0 0 0 0 (s.toNat * 2 ^ 3 + m.toNat) := rfl
  refine ⟨he ▸ encM_lt (by omega) (by omega) (by omega) (by omega) (by omega) (by omega), accept_of hwf ?_⟩
  rw [he]; unfold rawM
  rw [encM_op_bits] <;> try omega
  simp (disch := omega) only [encM_g, encM_acc, encM_afmt, encM_bfmt, encM_gang, encM_routine, encM_imm, encM_afmt_bits, encM_bfmt_bits, encM_gang_bits, encM_routine_bits, encM_imm_bits, encM_imm_bit, fld_high, fld_low, fld_toNat, bitsAt_high, bitsAt_low, bitsAt_zero, bitAt_high, bitAt_low, bitAt_one, Nat.zero_add, Nat.zero_mul, bitAt_b2n, bitAt_of_zero, bitAt_small, BitVec.ofNat_toNat, BitVec.setWidth_eq, Option.map_some, Option.bind_some, if_true, if_false, Bool.false_eq_true]

theorem Laws.RoundTrip.mupld (o : MupldArgs) : Statement (.mupld o) := by
  obtain ⟨g, m, routine, at_⟩ := o
  intro hwf sl hs; cases hs
  have he : encode (.mupld ⟨g, m, routine, at_⟩) = encM 0x07 g false 0 0 0 routine.toNat (at_.toNat * 2 ^ 3 + m.toNat) := rfl
  refine ⟨he ▸ encM_lt (by omega) (by omega) (by omega) (by omega) (by omega) (by omega), accept_of hwf ?_⟩
  rw [he]; unfold rawM
  rw [encM_op_bits] <;> try omega
  simp (disch := omega) only [encM_g, encM_acc, encM_afmt, encM_bfmt, encM_gang, encM_routine, encM_imm, encM_afmt_bits, encM_bfmt_bits, encM_gang_bits, encM_routine_bits, encM_imm_bits, encM_imm_bit, fld_high, fld_low, fld_toNat, bitsAt_high, bitsAt_low, bitsAt_zero, bitAt_high, bitAt_low, bitAt_one, Nat.zero_add, Nat.zero_mul, bitAt_b2n, bitAt_of_zero, bitAt_small, BitVec.ofNat_toNat, BitVec.setWidth_eq, Option.map_some, Option.bind_some, if_true, if_false, Bool.false_eq_true]

theorem Laws.RoundTrip.massay (o : MassayArgs) : Statement (.massay o) := by
  obtain ⟨g, p⟩ := o
  intro hwf sl hs; cases hs
  have he : encode (.massay ⟨g, p⟩) = encM 0x08 g false 0 0 0 0 p.toNat := rfl
  refine ⟨he ▸ encM_lt (by omega) (by omega) (by omega) (by omega) (by omega) (by omega), accept_of hwf ?_⟩
  rw [he]; unfold rawM
  rw [encM_op_bits] <;> try omega
  simp (disch := omega) only [encM_g, encM_acc, encM_afmt, encM_bfmt, encM_gang, encM_routine, encM_imm, encM_afmt_bits, encM_bfmt_bits, encM_gang_bits, encM_routine_bits, encM_imm_bits, encM_imm_bit, fld_high, fld_low, fld_toNat, bitsAt_high, bitsAt_low, bitsAt_zero, bitAt_high, bitAt_low, bitAt_one, Nat.zero_add, Nat.zero_mul, bitAt_b2n, bitAt_of_zero, bitAt_small, BitVec.ofNat_toNat, BitVec.setWidth_eq, Option.map_some, Option.bind_some, if_true, if_false, Bool.false_eq_true]

theorem Laws.RoundTrip.msync (g : Guard) : Statement (.msync g) := by
  intro hwf sl hs; cases hs
  have he : encode (.msync g) = encM 0x09 g false 0 0 0 0 0 := rfl
  refine ⟨he ▸ encM_lt (by omega) (by omega) (by omega) (by omega) (by omega) (by omega), accept_of hwf ?_⟩
  rw [he]; unfold rawM
  rw [encM_op_bits] <;> try omega
  simp (disch := omega) only [encM_g, encM_acc, encM_afmt, encM_bfmt, encM_gang, encM_routine, encM_imm, encM_afmt_bits, encM_bfmt_bits, encM_gang_bits, encM_routine_bits, encM_imm_bits, encM_imm_bit, fld_high, fld_low, fld_toNat, bitsAt_high, bitsAt_low, bitsAt_zero, bitAt_high, bitAt_low, bitAt_one, Nat.zero_add, Nat.zero_mul, bitAt_b2n, bitAt_of_zero, bitAt_small, BitVec.ofNat_toNat, BitVec.setWidth_eq, Option.map_some, Option.bind_some, if_true, if_false, Bool.false_eq_true]

theorem Laws.RoundTrip.step (u : UStepArgs) : Statement (.step u) := by
  intro _ sl hs; cases hs

theorem Laws.RoundTrip.seta (u : USetaArgs) : Statement (.seta u) := by
  intro _ sl hs; cases hs

theorem Laws.RoundTrip.setacc (u : USetaccArgs) : Statement (.setacc u) := by
  intro _ sl hs; cases hs

theorem Laws.RoundTrip.scale (u : UScaleArgs) : Statement (.scale u) := by
  intro _ sl hs; cases hs

theorem Laws.RoundTrip.loopu (u : ULoopArgs) : Statement (.loopu u) := by
  intro _ sl hs; cases hs

theorem Laws.RoundTrip.endu (c : CtxNo) : Statement (.endu c) := by
  intro _ sl hs; cases hs

theorem Laws.RoundTrip.xld (o : XLdArgs) : Statement (.xld o) := by
  obtain ⟨g, x, base, land, disp⟩ := o
  intro hwf sl hs; cases hs
  have he : encode (.xld ⟨g, x, base, land, disp⟩) = encX 1 g x.toNat base.toNat land.toNat disp.toNat := rfl
  refine ⟨he ▸ encX_lt (by omega) (by omega) (by omega) (by omega) (by omega), accept_of hwf ?_⟩
  rw [he]; unfold rawX
  rw [encX_op_bits] <;> try omega
  simp (disch := omega) only [encX_g, encX_x, encX_base, encX_land, encX_disp, encX_x_bits, encX_base_bits, encX_land_bits, encX_disp_bits, encX_disp_bit, fld_high, fld_low, fld_toNat, bitsAt_high, bitsAt_low, bitsAt_zero, bitAt_high, bitAt_low, bitAt_one, Nat.zero_add, Nat.zero_mul, bitAt_b2n, bitAt_of_zero, bitAt_small, BitVec.ofNat_toNat, BitVec.setWidth_eq, Option.map_some, Option.bind_some, if_true, if_false, Bool.false_eq_true]

theorem Laws.RoundTrip.xldb (o : XLdArgs) : Statement (.xldb o) := by
  obtain ⟨g, x, base, land, disp⟩ := o
  intro hwf sl hs; cases hs
  have he : encode (.xldb ⟨g, x, base, land, disp⟩) = encX 2 g x.toNat base.toNat land.toNat disp.toNat := rfl
  refine ⟨he ▸ encX_lt (by omega) (by omega) (by omega) (by omega) (by omega), accept_of hwf ?_⟩
  rw [he]; unfold rawX
  rw [encX_op_bits] <;> try omega
  simp (disch := omega) only [encX_g, encX_x, encX_base, encX_land, encX_disp, encX_x_bits, encX_base_bits, encX_land_bits, encX_disp_bits, encX_disp_bit, fld_high, fld_low, fld_toNat, bitsAt_high, bitsAt_low, bitsAt_zero, bitAt_high, bitAt_low, bitAt_one, Nat.zero_add, Nat.zero_mul, bitAt_b2n, bitAt_of_zero, bitAt_small, BitVec.ofNat_toNat, BitVec.setWidth_eq, Option.map_some, Option.bind_some, if_true, if_false, Bool.false_eq_true]

theorem Laws.RoundTrip.xmov (o : XMovArgs) : Statement (.xmov o) := by
  obtain ⟨g, x, src⟩ := o
  intro hwf sl hs; cases hs
  have he : encode (.xmov ⟨g, x, src⟩) = encX 3 g x.toNat src.toNat 0 0 := rfl
  refine ⟨he ▸ encX_lt (by omega) (by omega) (by omega) (by omega) (by omega), accept_of hwf ?_⟩
  rw [he]; unfold rawX
  rw [encX_op_bits] <;> try omega
  simp (disch := omega) only [encX_g, encX_x, encX_base, encX_land, encX_disp, encX_x_bits, encX_base_bits, encX_land_bits, encX_disp_bits, encX_disp_bit, fld_high, fld_low, fld_toNat, bitsAt_high, bitsAt_low, bitsAt_zero, bitAt_high, bitAt_low, bitAt_one, Nat.zero_add, Nat.zero_mul, bitAt_b2n, bitAt_of_zero, bitAt_small, BitVec.ofNat_toNat, BitVec.setWidth_eq, Option.map_some, Option.bind_some, if_true, if_false, Bool.false_eq_true]

theorem Laws.RoundTrip.xset (o : XSetArgs) : Statement (.xset o) := by
  obtain ⟨g, x, imm⟩ := o
  intro hwf sl hs; cases hs
  have he : encode (.xset ⟨g, x, imm⟩) = encX 4 g x.toNat 0 0 imm.toNat := rfl
  refine ⟨he ▸ encX_lt (by omega) (by omega) (by omega) (by omega) (by omega), accept_of hwf ?_⟩
  rw [he]; unfold rawX
  rw [encX_op_bits] <;> try omega
  simp (disch := omega) only [encX_g, encX_x, encX_base, encX_land, encX_disp, encX_x_bits, encX_base_bits, encX_land_bits, encX_disp_bits, encX_disp_bit, fld_high, fld_low, fld_toNat, bitsAt_high, bitsAt_low, bitsAt_zero, bitAt_high, bitAt_low, bitAt_one, Nat.zero_add, Nat.zero_mul, bitAt_b2n, bitAt_of_zero, bitAt_small, BitVec.ofNat_toNat, BitVec.setWidth_eq, Option.map_some, Option.bind_some, if_true, if_false, Bool.false_eq_true]

theorem Laws.RoundTrip.cpgo (o : CpgoArgs) : Statement (.cpgo o) := by
  obtain ⟨g, a, unit⟩ := o
  intro hwf sl hs; cases hs
  have he : encode (.cpgo ⟨g, a, unit⟩) = encD 0x01 g a.toNat 0 0 unit.toNat 0 := rfl
  refine ⟨he ▸ encD_lt (by omega) (by omega) (by omega) (by omega) (by omega) (by omega), accept_of hwf ?_⟩
  rw [he]; unfold rawD
  rw [encD_op_bits] <;> try omega
  simp (disch := omega) only [encD_g, encD_a, encD_b, encD_c, encD_unit, encD_imm, encD_a_bits, encD_b_bits, encD_c_bits, encD_unit_bits, encD_imm_bits, encD_imm_bit, fld_high, fld_low, fld_toNat, bitsAt_high, bitsAt_low, bitsAt_zero, bitAt_high, bitAt_low, bitAt_one, Nat.zero_add, Nat.zero_mul, bitAt_b2n, bitAt_of_zero, bitAt_small, BitVec.ofNat_toNat, BitVec.setWidth_eq, Option.map_some, Option.bind_some, if_true, if_false, Bool.false_eq_true]

theorem Laws.RoundTrip.cpq (o : CpqArgs) : Statement (.cpq o) := by
  obtain ⟨g, a, unit, land⟩ := o
  intro hwf sl hs; cases hs
  have he : encode (.cpq ⟨g, a, unit, land⟩) = encD 0x02 g a.toNat 0 0 unit.toNat land.toNat := rfl
  refine ⟨he ▸ encD_lt (by omega) (by omega) (by omega) (by omega) (by omega) (by omega), accept_of hwf ?_⟩
  rw [he]; unfold rawD
  rw [encD_op_bits] <;> try omega
  simp (disch := omega) only [encD_g, encD_a, encD_b, encD_c, encD_unit, encD_imm, encD_a_bits, encD_b_bits, encD_c_bits, encD_unit_bits, encD_imm_bits, encD_imm_bit, fld_high, fld_low, fld_toNat, bitsAt_high, bitsAt_low, bitsAt_zero, bitAt_high, bitAt_low, bitAt_one, Nat.zero_add, Nat.zero_mul, bitAt_b2n, bitAt_of_zero, bitAt_small, BitVec.ofNat_toNat, BitVec.setWidth_eq, Option.map_some, Option.bind_some, if_true, if_false, Bool.false_eq_true]

theorem Laws.RoundTrip.cpstop (o : CpstopArgs) : Statement (.cpstop o) := by
  obtain ⟨g, unit⟩ := o
  intro hwf sl hs; cases hs
  have he : encode (.cpstop ⟨g, unit⟩) = encD 0x03 g 0 0 0 unit.toNat 0 := rfl
  refine ⟨he ▸ encD_lt (by omega) (by omega) (by omega) (by omega) (by omega) (by omega), accept_of hwf ?_⟩
  rw [he]; unfold rawD
  rw [encD_op_bits] <;> try omega
  simp (disch := omega) only [encD_g, encD_a, encD_b, encD_c, encD_unit, encD_imm, encD_a_bits, encD_b_bits, encD_c_bits, encD_unit_bits, encD_imm_bits, encD_imm_bit, fld_high, fld_low, fld_toNat, bitsAt_high, bitsAt_low, bitsAt_zero, bitAt_high, bitAt_low, bitAt_one, Nat.zero_add, Nat.zero_mul, bitAt_b2n, bitAt_of_zero, bitAt_small, BitVec.ofNat_toNat, BitVec.setWidth_eq, Option.map_some, Option.bind_some, if_true, if_false, Bool.false_eq_true]

theorem Laws.RoundTrip.wkapp (o : WkArgs) : Statement (.wkapp o) := by
  obtain ⟨g, a, b, c, uirq⟩ := o
  have := b2n_lt uirq
  intro hwf sl hs; cases hs
  have he : encode (.wkapp ⟨g, a, b, c, uirq⟩) = encD 0x04 g a.toNat b.toNat c.toNat 0 (b2n uirq) := rfl
  refine ⟨he ▸ encD_lt (by omega) (by omega) (by omega) (by omega) (by omega) (by omega), accept_of hwf ?_⟩
  rw [he]; unfold rawD
  rw [encD_op_bits] <;> try omega
  simp (disch := omega) only [encD_g, encD_a, encD_b, encD_c, encD_unit, encD_imm, encD_a_bits, encD_b_bits, encD_c_bits, encD_unit_bits, encD_imm_bits, encD_imm_bit, fld_high, fld_low, fld_toNat, bitsAt_high, bitsAt_low, bitsAt_zero, bitAt_high, bitAt_low, bitAt_one, Nat.zero_add, Nat.zero_mul, bitAt_b2n, bitAt_of_zero, bitAt_small, BitVec.ofNat_toNat, BitVec.setWidth_eq, Option.map_some, Option.bind_some, if_true, if_false, Bool.false_eq_true]

theorem Laws.RoundTrip.wkwalk (o : WkArgs) : Statement (.wkwalk o) := by
  obtain ⟨g, a, b, c, uirq⟩ := o
  have := b2n_lt uirq
  intro hwf sl hs; cases hs
  have he : encode (.wkwalk ⟨g, a, b, c, uirq⟩) = encD 0x05 g a.toNat b.toNat c.toNat 0 (b2n uirq) := rfl
  refine ⟨he ▸ encD_lt (by omega) (by omega) (by omega) (by omega) (by omega) (by omega), accept_of hwf ?_⟩
  rw [he]; unfold rawD
  rw [encD_op_bits] <;> try omega
  simp (disch := omega) only [encD_g, encD_a, encD_b, encD_c, encD_unit, encD_imm, encD_a_bits, encD_b_bits, encD_c_bits, encD_unit_bits, encD_imm_bits, encD_imm_bit, fld_high, fld_low, fld_toNat, bitsAt_high, bitsAt_low, bitsAt_zero, bitAt_high, bitAt_low, bitAt_one, Nat.zero_add, Nat.zero_mul, bitAt_b2n, bitAt_of_zero, bitAt_small, BitVec.ofNat_toNat, BitVec.setWidth_eq, Option.map_some, Option.bind_some, if_true, if_false, Bool.false_eq_true]

theorem Laws.RoundTrip.wkfix (o : WkfixArgs) : Statement (.wkfix o) := by
  obtain ⟨g, a, b, level, uirq⟩ := o
  have := b2n_lt uirq
  intro hwf sl hs; cases hs
  have he : encode (.wkfix ⟨g, a, b, level, uirq⟩) = encD 0x06 g a.toNat b.toNat 0 0 (level.toNat * 2 ^ 1 + b2n uirq) := rfl
  refine ⟨he ▸ encD_lt (by omega) (by omega) (by omega) (by omega) (by omega) (by omega), accept_of hwf ?_⟩
  rw [he]; unfold rawD
  rw [encD_op_bits] <;> try omega
  simp (disch := omega) only [encD_g, encD_a, encD_b, encD_c, encD_unit, encD_imm, encD_a_bits, encD_b_bits, encD_c_bits, encD_unit_bits, encD_imm_bits, encD_imm_bit, fld_high, fld_low, fld_toNat, bitsAt_high, bitsAt_low, bitsAt_zero, bitAt_high, bitAt_low, bitAt_one, Nat.zero_add, Nat.zero_mul, bitAt_b2n, bitAt_of_zero, bitAt_small, BitVec.ofNat_toNat, BitVec.setWidth_eq, Option.map_some, Option.bind_some, if_true, if_false, Bool.false_eq_true]

theorem Laws.RoundTrip.wkq (o : DLandArgs) : Statement (.wkq o) := by
  obtain ⟨g, a, land⟩ := o
  intro hwf sl hs; cases hs
  have he : encode (.wkq ⟨g, a, land⟩) = encD 0x07 g a.toNat 0 0 0 land.toNat := rfl
  refine ⟨he ▸ encD_lt (by omega) (by omega) (by omega) (by omega) (by omega) (by omega), accept_of hwf ?_⟩
  rw [he]; unfold rawD
  rw [encD_op_bits] <;> try omega
  simp (disch := omega) only [encD_g, encD_a, encD_b, encD_c, encD_unit, encD_imm, encD_a_bits, encD_b_bits, encD_c_bits, encD_unit_bits, encD_imm_bits, encD_imm_bit, fld_high, fld_low, fld_toNat, bitsAt_high, bitsAt_low, bitsAt_zero, bitAt_high, bitAt_low, bitAt_one, Nat.zero_add, Nat.zero_mul, bitAt_b2n, bitAt_of_zero, bitAt_small, BitVec.ofNat_toNat, BitVec.setWidth_eq, Option.map_some, Option.bind_some, if_true, if_false, Bool.false_eq_true]

theorem Laws.RoundTrip.wget (o : D3Args) : Statement (.wget o) := by
  obtain ⟨g, a, b, c, count, uirq⟩ := o
  have := b2n_lt uirq
  intro hwf sl hs; cases hs
  have he : encode (.wget ⟨g, a, b, c, count, uirq⟩) = encD 0x10 g a.toNat b.toNat c.toNat 0 (b2n uirq * 2 ^ 12 + count.toNat) := rfl
  refine ⟨he ▸ encD_lt (by omega) (by omega) (by omega) (by omega) (by omega) (by omega), accept_of hwf ?_⟩
  rw [he]; unfold rawD
  rw [encD_op_bits] <;> try omega
  simp (disch := omega) only [encD_g, encD_a, encD_b, encD_c, encD_unit, encD_imm, encD_a_bits, encD_b_bits, encD_c_bits, encD_unit_bits, encD_imm_bits, encD_imm_bit, fld_high, fld_low, fld_toNat, bitsAt_high, bitsAt_low, bitsAt_zero, bitAt_high, bitAt_low, bitAt_one, Nat.zero_add, Nat.zero_mul, bitAt_b2n, bitAt_of_zero, bitAt_small, BitVec.ofNat_toNat, BitVec.setWidth_eq, Option.map_some, Option.bind_some, if_true, if_false, Bool.false_eq_true]

theorem Laws.RoundTrip.wput (o : D3Args) : Statement (.wput o) := by
  obtain ⟨g, a, b, c, count, uirq⟩ := o
  have := b2n_lt uirq
  intro hwf sl hs; cases hs
  have he : encode (.wput ⟨g, a, b, c, count, uirq⟩) = encD 0x11 g a.toNat b.toNat c.toNat 0 (b2n uirq * 2 ^ 12 + count.toNat) := rfl
  refine ⟨he ▸ encD_lt (by omega) (by omega) (by omega) (by omega) (by omega) (by omega), accept_of hwf ?_⟩
  rw [he]; unfold rawD
  rw [encD_op_bits] <;> try omega
  simp (disch := omega) only [encD_g, encD_a, encD_b, encD_c, encD_unit, encD_imm, encD_a_bits, encD_b_bits, encD_c_bits, encD_unit_bits, encD_imm_bits, encD_imm_bit, fld_high, fld_low, fld_toNat, bitsAt_high, bitsAt_low, bitsAt_zero, bitAt_high, bitAt_low, bitAt_one, Nat.zero_add, Nat.zero_mul, bitAt_b2n, bitAt_of_zero, bitAt_small, BitVec.ofNat_toNat, BitVec.setWidth_eq, Option.map_some, Option.bind_some, if_true, if_false, Bool.false_eq_true]

theorem Laws.RoundTrip.wexp (o : D3Args) : Statement (.wexp o) := by
  obtain ⟨g, a, b, c, count, uirq⟩ := o
  have := b2n_lt uirq
  intro hwf sl hs; cases hs
  have he : encode (.wexp ⟨g, a, b, c, count, uirq⟩) = encD 0x12 g a.toNat b.toNat c.toNat 0 (b2n uirq * 2 ^ 12 + count.toNat) := rfl
  refine ⟨he ▸ encD_lt (by omega) (by omega) (by omega) (by omega) (by omega) (by omega), accept_of hwf ?_⟩
  rw [he]; unfold rawD
  rw [encD_op_bits] <;> try omega
  simp (disch := omega) only [encD_g, encD_a, encD_b, encD_c, encD_unit, encD_imm, encD_a_bits, encD_b_bits, encD_c_bits, encD_unit_bits, encD_imm_bits, encD_imm_bit, fld_high, fld_low, fld_toNat, bitsAt_high, bitsAt_low, bitsAt_zero, bitAt_high, bitAt_low, bitAt_one, Nat.zero_add, Nat.zero_mul, bitAt_b2n, bitAt_of_zero, bitAt_small, BitVec.ofNat_toNat, BitVec.setWidth_eq, Option.map_some, Option.bind_some, if_true, if_false, Bool.false_eq_true]

theorem Laws.RoundTrip.wsync (o : CRegArgs) : Statement (.wsync o) := by
  obtain ⟨g, a⟩ := o
  intro hwf sl hs; cases hs
  have he : encode (.wsync ⟨g, a⟩) = encD 0x13 g a.toNat 0 0 0 0 := rfl
  refine ⟨he ▸ encD_lt (by omega) (by omega) (by omega) (by omega) (by omega) (by omega), accept_of hwf ?_⟩
  rw [he]; unfold rawD
  rw [encD_op_bits] <;> try omega
  simp (disch := omega) only [encD_g, encD_a, encD_b, encD_c, encD_unit, encD_imm, encD_a_bits, encD_b_bits, encD_c_bits, encD_unit_bits, encD_imm_bits, encD_imm_bit, fld_high, fld_low, fld_toNat, bitsAt_high, bitsAt_low, bitsAt_zero, bitAt_high, bitAt_low, bitAt_one, Nat.zero_add, Nat.zero_mul, bitAt_b2n, bitAt_of_zero, bitAt_small, BitVec.ofNat_toNat, BitVec.setWidth_eq, Option.map_some, Option.bind_some, if_true, if_false, Bool.false_eq_true]

theorem Laws.RoundTrip.cxtab (o : CxtabArgs) : Statement (.cxtab o) := by
  obtain ⟨g, a, slot, gen, uirq⟩ := o
  have := b2n_lt uirq
  intro hwf sl hs; cases hs
  have he : encode (.cxtab ⟨g, a, slot, gen, uirq⟩) = encD 0x08 g a.toNat 0 0 slot.toNat (b2n uirq * 2 ^ 8 + gen.toNat) := rfl
  refine ⟨he ▸ encD_lt (by omega) (by omega) (by omega) (by omega) (by omega) (by omega), accept_of hwf ?_⟩
  rw [he]; unfold rawD
  rw [encD_op_bits] <;> try omega
  simp (disch := omega) only [encD_g, encD_a, encD_b, encD_c, encD_unit, encD_imm, encD_a_bits, encD_b_bits, encD_c_bits, encD_unit_bits, encD_imm_bits, encD_imm_bit, fld_high, fld_low, fld_toNat, bitsAt_high, bitsAt_low, bitsAt_zero, bitAt_high, bitAt_low, bitAt_one, Nat.zero_add, Nat.zero_mul, bitAt_b2n, bitAt_of_zero, bitAt_small, BitVec.ofNat_toNat, BitVec.setWidth_eq, Option.map_some, Option.bind_some, if_true, if_false, Bool.false_eq_true]

theorem Laws.RoundTrip.cxpk (o : CxpkArgs) : Statement (.cxpk o) := by
  obtain ⟨g, a, b, c, slot, count, uirq⟩ := o
  have := b2n_lt uirq
  intro hwf sl hs; cases hs
  have he : encode (.cxpk ⟨g, a, b, c, slot, count, uirq⟩) = encD 0x09 g a.toNat b.toNat c.toNat slot.toNat (b2n uirq * 2 ^ 12 + count.toNat) := rfl
  refine ⟨he ▸ encD_lt (by omega) (by omega) (by omega) (by omega) (by omega) (by omega), accept_of hwf ?_⟩
  rw [he]; unfold rawD
  rw [encD_op_bits] <;> try omega
  simp (disch := omega) only [encD_g, encD_a, encD_b, encD_c, encD_unit, encD_imm, encD_a_bits, encD_b_bits, encD_c_bits, encD_unit_bits, encD_imm_bits, encD_imm_bit, fld_high, fld_low, fld_toNat, bitsAt_high, bitsAt_low, bitsAt_zero, bitAt_high, bitAt_low, bitAt_one, Nat.zero_add, Nat.zero_mul, bitAt_b2n, bitAt_of_zero, bitAt_small, BitVec.ofNat_toNat, BitVec.setWidth_eq, Option.map_some, Option.bind_some, if_true, if_false, Bool.false_eq_true]

theorem Laws.RoundTrip.cxun (o : D3Args) : Statement (.cxun o) := by
  obtain ⟨g, a, b, c, count, uirq⟩ := o
  have := b2n_lt uirq
  intro hwf sl hs; cases hs
  have he : encode (.cxun ⟨g, a, b, c, count, uirq⟩) = encD 0x0A g a.toNat b.toNat c.toNat 0 (b2n uirq * 2 ^ 12 + count.toNat) := rfl
  refine ⟨he ▸ encD_lt (by omega) (by omega) (by omega) (by omega) (by omega) (by omega), accept_of hwf ?_⟩
  rw [he]; unfold rawD
  rw [encD_op_bits] <;> try omega
  simp (disch := omega) only [encD_g, encD_a, encD_b, encD_c, encD_unit, encD_imm, encD_a_bits, encD_b_bits, encD_c_bits, encD_unit_bits, encD_imm_bits, encD_imm_bit, fld_high, fld_low, fld_toNat, bitsAt_high, bitsAt_low, bitsAt_zero, bitAt_high, bitAt_low, bitAt_one, Nat.zero_add, Nat.zero_mul, bitAt_b2n, bitAt_of_zero, bitAt_small, BitVec.ofNat_toNat, BitVec.setWidth_eq, Option.map_some, Option.bind_some, if_true, if_false, Bool.false_eq_true]

theorem Laws.RoundTrip.clgo (o : ClgoArgs) : Statement (.clgo o) := by
  obtain ⟨g, a, uirq⟩ := o
  have := b2n_lt uirq
  intro hwf sl hs; cases hs
  have he : encode (.clgo ⟨g, a, uirq⟩) = encD 0x0B g a.toNat 0 0 0 (b2n uirq) := rfl
  refine ⟨he ▸ encD_lt (by omega) (by omega) (by omega) (by omega) (by omega) (by omega), accept_of hwf ?_⟩
  rw [he]; unfold rawD
  rw [encD_op_bits] <;> try omega
  simp (disch := omega) only [encD_g, encD_a, encD_b, encD_c, encD_unit, encD_imm, encD_a_bits, encD_b_bits, encD_c_bits, encD_unit_bits, encD_imm_bits, encD_imm_bit, fld_high, fld_low, fld_toNat, bitsAt_high, bitsAt_low, bitsAt_zero, bitAt_high, bitAt_low, bitAt_one, Nat.zero_add, Nat.zero_mul, bitAt_b2n, bitAt_of_zero, bitAt_small, BitVec.ofNat_toNat, BitVec.setWidth_eq, Option.map_some, Option.bind_some, if_true, if_false, Bool.false_eq_true]

theorem Laws.RoundTrip.lksend (o : LkArgs) : Statement (.lksend o) := by
  obtain ⟨g, a, b, c, port, uirq⟩ := o
  have := b2n_lt uirq
  intro hwf sl hs; cases hs
  have he : encode (.lksend ⟨g, a, b, c, port, uirq⟩) = encD 0x0C g a.toNat b.toNat c.toNat port.toNat (b2n uirq) := rfl
  refine ⟨he ▸ encD_lt (by omega) (by omega) (by omega) (by omega) (by omega) (by omega), accept_of hwf ?_⟩
  rw [he]; unfold rawD
  rw [encD_op_bits] <;> try omega
  simp (disch := omega) only [encD_g, encD_a, encD_b, encD_c, encD_unit, encD_imm, encD_a_bits, encD_b_bits, encD_c_bits, encD_unit_bits, encD_imm_bits, encD_imm_bit, fld_high, fld_low, fld_toNat, bitsAt_high, bitsAt_low, bitsAt_zero, bitAt_high, bitAt_low, bitAt_one, Nat.zero_add, Nat.zero_mul, bitAt_b2n, bitAt_of_zero, bitAt_small, BitVec.ofNat_toNat, BitVec.setWidth_eq, Option.map_some, Option.bind_some, if_true, if_false, Bool.false_eq_true]

theorem Laws.RoundTrip.lkradd (o : LkraddArgs) : Statement (.lkradd o) := by
  obtain ⟨g, a, b, c, port, fmt, uirq⟩ := o
  have := fmt.code_lt
  have := b2n_lt uirq
  intro hwf sl hs; cases hs
  have he : encode (.lkradd ⟨g, a, b, c, port, fmt, uirq⟩) = encD 0x0D g a.toNat b.toNat c.toNat port.toNat (fmt.code * 2 ^ 1 + b2n uirq) := rfl
  refine ⟨he ▸ encD_lt (by omega) (by omega) (by omega) (by omega) (by omega) (by omega), accept_of hwf ?_⟩
  rw [he]; unfold rawD
  rw [encD_op_bits] <;> try omega
  simp (disch := omega) only [encD_g, encD_a, encD_b, encD_c, encD_unit, encD_imm, encD_a_bits, encD_b_bits, encD_c_bits, encD_unit_bits, encD_imm_bits, encD_imm_bit, Fmt.ofCode_code, fld_high, fld_low, fld_toNat, bitsAt_high, bitsAt_low, bitsAt_zero, bitAt_high, bitAt_low, bitAt_one, Nat.zero_add, Nat.zero_mul, bitAt_b2n, bitAt_of_zero, bitAt_small, BitVec.ofNat_toNat, BitVec.setWidth_eq, Option.map_some, Option.bind_some, if_true, if_false, Bool.false_eq_true]

theorem Laws.RoundTrip.lkrecv (o : LkArgs) : Statement (.lkrecv o) := by
  obtain ⟨g, a, b, c, port, uirq⟩ := o
  have := b2n_lt uirq
  intro hwf sl hs; cases hs
  have he : encode (.lkrecv ⟨g, a, b, c, port, uirq⟩) = encD 0x0E g a.toNat b.toNat c.toNat port.toNat (b2n uirq) := rfl
  refine ⟨he ▸ encD_lt (by omega) (by omega) (by omega) (by omega) (by omega) (by omega), accept_of hwf ?_⟩
  rw [he]; unfold rawD
  rw [encD_op_bits] <;> try omega
  simp (disch := omega) only [encD_g, encD_a, encD_b, encD_c, encD_unit, encD_imm, encD_a_bits, encD_b_bits, encD_c_bits, encD_unit_bits, encD_imm_bits, encD_imm_bit, fld_high, fld_low, fld_toNat, bitsAt_high, bitsAt_low, bitsAt_zero, bitAt_high, bitAt_low, bitAt_one, Nat.zero_add, Nat.zero_mul, bitAt_b2n, bitAt_of_zero, bitAt_small, BitVec.ofNat_toNat, BitVec.setWidth_eq, Option.map_some, Option.bind_some, if_true, if_false, Bool.false_eq_true]

theorem Laws.RoundTrip.lkwait (o : CRegArgs) : Statement (.lkwait o) := by
  obtain ⟨g, a⟩ := o
  intro hwf sl hs; cases hs
  have he : encode (.lkwait ⟨g, a⟩) = encD 0x0F g a.toNat 0 0 0 0 := rfl
  refine ⟨he ▸ encD_lt (by omega) (by omega) (by omega) (by omega) (by omega) (by omega), accept_of hwf ?_⟩
  rw [he]; unfold rawD
  rw [encD_op_bits] <;> try omega
  simp (disch := omega) only [encD_g, encD_a, encD_b, encD_c, encD_unit, encD_imm, encD_a_bits, encD_b_bits, encD_c_bits, encD_unit_bits, encD_imm_bits, encD_imm_bit, fld_high, fld_low, fld_toNat, bitsAt_high, bitsAt_low, bitsAt_zero, bitAt_high, bitAt_low, bitAt_one, Nat.zero_add, Nat.zero_mul, bitAt_b2n, bitAt_of_zero, bitAt_small, BitVec.ofNat_toNat, BitVec.setWidth_eq, Option.map_some, Option.bind_some, if_true, if_false, Bool.false_eq_true]

theorem Laws.RoundTrip.txid (o : DLandArgs) : Statement (.txid o) := by
  obtain ⟨g, a, land⟩ := o
  intro hwf sl hs; cases hs
  have he : encode (.txid ⟨g, a, land⟩) = encD 0x14 g a.toNat 0 0 0 land.toNat := rfl
  refine ⟨he ▸ encD_lt (by omega) (by omega) (by omega) (by omega) (by omega) (by omega), accept_of hwf ?_⟩
  rw [he]; unfold rawD
  rw [encD_op_bits] <;> try omega
  simp (disch := omega) only [encD_g, encD_a, encD_b, encD_c, encD_unit, encD_imm, encD_a_bits, encD_b_bits, encD_c_bits, encD_unit_bits, encD_imm_bits, encD_imm_bit, fld_high, fld_low, fld_toNat, bitsAt_high, bitsAt_low, bitsAt_zero, bitAt_high, bitAt_low, bitAt_one, Nat.zero_add, Nat.zero_mul, bitAt_b2n, bitAt_of_zero, bitAt_small, BitVec.ofNat_toNat, BitVec.setWidth_eq, Option.map_some, Option.bind_some, if_true, if_false, Bool.false_eq_true]

theorem Laws.RoundTrip.txabort (o : TxabortArgs) : Statement (.txabort o) := by
  obtain ⟨g, a, retry⟩ := o
  have := b2n_lt retry
  intro hwf sl hs; cases hs
  have he : encode (.txabort ⟨g, a, retry⟩) = encD 0x15 g a.toNat 0 0 0 (b2n retry) := rfl
  refine ⟨he ▸ encD_lt (by omega) (by omega) (by omega) (by omega) (by omega) (by omega), accept_of hwf ?_⟩
  rw [he]; unfold rawD
  rw [encD_op_bits] <;> try omega
  simp (disch := omega) only [encD_g, encD_a, encD_b, encD_c, encD_unit, encD_imm, encD_a_bits, encD_b_bits, encD_c_bits, encD_unit_bits, encD_imm_bits, encD_imm_bit, fld_high, fld_low, fld_toNat, bitsAt_high, bitsAt_low, bitsAt_zero, bitAt_high, bitAt_low, bitAt_one, Nat.zero_add, Nat.zero_mul, bitAt_b2n, bitAt_of_zero, bitAt_small, BitVec.ofNat_toNat, BitVec.setWidth_eq, Option.map_some, Option.bind_some, if_true, if_false, Bool.false_eq_true]

theorem Laws.RoundTrip.qlaunch (o : QlaunchArgs) : Statement (.qlaunch o) := by
  obtain ⟨g, a, b⟩ := o
  intro hwf sl hs; cases hs
  have he : encode (.qlaunch ⟨g, a, b⟩) = encD 0x16 g a.toNat b.toNat 0 0 0 := rfl
  refine ⟨he ▸ encD_lt (by omega) (by omega) (by omega) (by omega) (by omega) (by omega), accept_of hwf ?_⟩
  rw [he]; unfold rawD
  rw [encD_op_bits] <;> try omega
  simp (disch := omega) only [encD_g, encD_a, encD_b, encD_c, encD_unit, encD_imm, encD_a_bits, encD_b_bits, encD_c_bits, encD_unit_bits, encD_imm_bits, encD_imm_bit, fld_high, fld_low, fld_toNat, bitsAt_high, bitsAt_low, bitsAt_zero, bitAt_high, bitAt_low, bitAt_one, Nat.zero_add, Nat.zero_mul, bitAt_b2n, bitAt_of_zero, bitAt_small, BitVec.ofNat_toNat, BitVec.setWidth_eq, Option.map_some, Option.bind_some, if_true, if_false, Bool.false_eq_true]

theorem Laws.RoundTrip.evpost (o : EvpostArgs) : Statement (.evpost o) := by
  obtain ⟨g, a, scope⟩ := o
  have := scope.code_lt
  intro hwf sl hs; cases hs
  have he : encode (.evpost ⟨g, a, scope⟩) = encD 0x17 g a.toNat 0 0 0 scope.code := rfl
  refine ⟨he ▸ encD_lt (by omega) (by omega) (by omega) (by omega) (by omega) (by omega), accept_of hwf ?_⟩
  rw [he]; unfold rawD
  rw [encD_op_bits] <;> try omega
  simp (disch := omega) only [encD_g, encD_a, encD_b, encD_c, encD_unit, encD_imm, encD_a_bits, encD_b_bits, encD_c_bits, encD_unit_bits, encD_imm_bits, encD_imm_bit, Scope.ofCode_code, fld_high, fld_low, fld_toNat, bitsAt_high, bitsAt_low, bitsAt_zero, bitAt_high, bitAt_low, bitAt_one, Nat.zero_add, Nat.zero_mul, bitAt_b2n, bitAt_of_zero, bitAt_small, BitVec.ofNat_toNat, BitVec.setWidth_eq, Option.map_some, Option.bind_some, if_true, if_false, Bool.false_eq_true]

theorem Laws.RoundTrip.bundleIssue (k : CoreNo) : Statement (.bundleIssue k) := by
  intro _ sl hs; cases hs

theorem Laws.RoundTrip.fixedResultLands (c : CtxNo) : Statement (.fixedResultLands c) := by
  intro _ sl hs; cases hs

theorem Laws.RoundTrip.landing (c : CtxNo) : Statement (.landing c) := by
  intro _ sl hs; cases hs

theorem Laws.RoundTrip.lateDataArrival (c : CtxNo) : Statement (.lateDataArrival c) := by
  intro _ sl hs; cases hs

theorem Laws.RoundTrip.landingTimeout (c : CtxNo) : Statement (.landingTimeout c) := by
  intro _ sl hs; cases hs

theorem Laws.RoundTrip.bankStallEnd (k : CoreNo) : Statement (.bankStallEnd k) := by
  intro _ sl hs; cases hs

theorem Laws.RoundTrip.pageWalk (c : CtxNo) : Statement (.pageWalk c) := by
  intro _ sl hs; cases hs

theorem Laws.RoundTrip.queueSpaceFree (c : CtxNo) : Statement (.queueSpaceFree c) := by
  intro _ sl hs; cases hs

theorem Laws.RoundTrip.selectorSwitch (k : CoreNo) : Statement (.selectorSwitch k) := by
  intro _ sl hs; cases hs

theorem Laws.RoundTrip.contextParks (c : CtxNo) : Statement (.contextParks c) := by
  intro _ sl hs; cases hs

theorem Laws.RoundTrip.userInterruptTaken (c : CtxNo) : Statement (.userInterruptTaken c) := by
  intro _ sl hs; cases hs

theorem Laws.RoundTrip.asyncCauseTaken (c : CtxNo) : Statement (.asyncCauseTaken c) := by
  intro _ sl hs; cases hs

theorem Laws.RoundTrip.haltDrainComplete (c : CtxNo) : Statement (.haltDrainComplete c) := by
  intro _ sl hs; cases hs

theorem Laws.RoundTrip.rendezvousRelease (c : CtxNo) : Statement (.rendezvousRelease c) := by
  intro _ sl hs; cases hs

theorem Laws.RoundTrip.mwaitWake (c : CtxNo) : Statement (.mwaitWake c) := by
  intro _ sl hs; cases hs

theorem Laws.RoundTrip.mwaitTimeout (c : CtxNo) : Statement (.mwaitTimeout c) := by
  intro _ sl hs; cases hs

theorem Laws.RoundTrip.barrierPhaseComplete (c : CtxNo) (id : BitVec 4) : Statement (.barrierPhaseComplete c id) := by
  intro _ sl hs; cases hs

theorem Laws.RoundTrip.msyncDone (c : CtxNo) : Statement (.msyncDone c) := by
  intro _ sl hs; cases hs

theorem Laws.RoundTrip.wsyncDone (c : CtxNo) : Statement (.wsyncDone c) := by
  intro _ sl hs; cases hs

theorem Laws.RoundTrip.lkwaitDone (c : CtxNo) : Statement (.lkwaitDone c) := by
  intro _ sl hs; cases hs

theorem Laws.RoundTrip.callxEntryArrives (c : CtxNo) : Statement (.callxEntryArrives c) := by
  intro _ sl hs; cases hs

theorem Laws.RoundTrip.objectTableReadDone (c : CtxNo) : Statement (.objectTableReadDone c) := by
  intro _ sl hs; cases hs

theorem Laws.RoundTrip.rtiWaitDone (c : CtxNo) : Statement (.rtiWaitDone c) := by
  intro _ sl hs; cases hs

theorem Laws.RoundTrip.trapEventEnqueue (k : CluNo) : Statement (.trapEventEnqueue k) := by
  intro _ sl hs; cases hs

theorem Laws.RoundTrip.trapEventDelivery (k : CluNo) : Statement (.trapEventDelivery k) := by
  intro _ sl hs; cases hs

theorem Laws.RoundTrip.runtimeTrapAction (k : CluNo) : Statement (.runtimeTrapAction k) := by
  intro _ sl hs; cases hs

theorem Laws.RoundTrip.ctxctlKill (c : CtxNo) : Statement (.ctxctlKill c) := by
  intro _ sl hs; cases hs

theorem Laws.RoundTrip.ctxctlRelease (c : CtxNo) : Statement (.ctxctlRelease c) := by
  intro _ sl hs; cases hs

theorem Laws.RoundTrip.ctxctlPark (c : CtxNo) : Statement (.ctxctlPark c) := by
  intro _ sl hs; cases hs

theorem Laws.RoundTrip.ctxctlResume (c : CtxNo) : Statement (.ctxctlResume c) := by
  intro _ sl hs; cases hs

theorem Laws.RoundTrip.channelReset (k : CluNo) (ch : BitVec 4) : Statement (.channelReset k ch) := by
  intro _ sl hs; cases hs

theorem Laws.RoundTrip.registerWrite (who : RegWho) (addr : Word) (value : Word) : Statement (.registerWrite who addr value) := by
  intro _ sl hs; cases hs

theorem Laws.RoundTrip.controlPairMismatch (k : CluNo) : Statement (.controlPairMismatch k) := by
  intro _ sl hs; cases hs

theorem Laws.RoundTrip.mcallRun (c : CtxNo) : Statement (.mcallRun c) := by
  intro _ sl hs; cases hs

theorem Laws.RoundTrip.mldwRun (c : CtxNo) : Statement (.mldwRun c) := by
  intro _ sl hs; cases hs

theorem Laws.RoundTrip.mswpRun (c : CtxNo) : Statement (.mswpRun c) := by
  intro _ sl hs; cases hs

theorem Laws.RoundTrip.mldixRun (c : CtxNo) : Statement (.mldixRun c) := by
  intro _ sl hs; cases hs

theorem Laws.RoundTrip.mclrRun (c : CtxNo) : Statement (.mclrRun c) := by
  intro _ sl hs; cases hs

theorem Laws.RoundTrip.mupldRun (c : CtxNo) : Statement (.mupldRun c) := by
  intro _ sl hs; cases hs

theorem Laws.RoundTrip.copyRecord (k : CluNo) (ch : BitVec 4) : Statement (.copyRecord k ch) := by
  intro _ sl hs; cases hs

theorem Laws.RoundTrip.wkappRun (k : CluNo) : Statement (.wkappRun k) := by
  intro _ sl hs; cases hs

theorem Laws.RoundTrip.wkwalkRun (k : CluNo) : Statement (.wkwalkRun k) := by
  intro _ sl hs; cases hs

theorem Laws.RoundTrip.wkfixRun (k : CluNo) : Statement (.wkfixRun k) := by
  intro _ sl hs; cases hs

theorem Laws.RoundTrip.walkerLockRetry (k : CluNo) : Statement (.walkerLockRetry k) := by
  intro _ sl hs; cases hs

theorem Laws.RoundTrip.wgetRun (c : CtxNo) : Statement (.wgetRun c) := by
  intro _ sl hs; cases hs

theorem Laws.RoundTrip.wputRun (c : CtxNo) : Statement (.wputRun c) := by
  intro _ sl hs; cases hs

theorem Laws.RoundTrip.wexpRun (c : CtxNo) : Statement (.wexpRun c) := by
  intro _ sl hs; cases hs

theorem Laws.RoundTrip.cxtabRun (c : CtxNo) : Statement (.cxtabRun c) := by
  intro _ sl hs; cases hs

theorem Laws.RoundTrip.cxpkRun (c : CtxNo) : Statement (.cxpkRun c) := by
  intro _ sl hs; cases hs

theorem Laws.RoundTrip.cxunRun (c : CtxNo) : Statement (.cxunRun c) := by
  intro _ sl hs; cases hs

theorem Laws.RoundTrip.clgoSend (c : CtxNo) : Statement (.clgoSend c) := by
  intro _ sl hs; cases hs

theorem Laws.RoundTrip.clgoRecvadd (c : CtxNo) : Statement (.clgoRecvadd c) := by
  intro _ sl hs; cases hs

theorem Laws.RoundTrip.clgoRecv (c : CtxNo) : Statement (.clgoRecv c) := by
  intro _ sl hs; cases hs

theorem Laws.RoundTrip.switchReduction (c : CtxNo) (members : List Member) : Statement (.switchReduction c members) := by
  intro _ sl hs; cases hs

theorem Laws.RoundTrip.lksendRun (c : CtxNo) : Statement (.lksendRun c) := by
  intro _ sl hs; cases hs

theorem Laws.RoundTrip.messageArrival (d : DieNo) (m : Message) : Statement (.messageArrival d m) := by
  intro _ sl hs; cases hs

theorem Laws.RoundTrip.qlaunchSlotReserved (c : CtxNo) : Statement (.qlaunchSlotReserved c) := by
  intro _ sl hs; cases hs

theorem Laws.RoundTrip.launchCommitting (h : Hall) : Statement (.launchCommitting h) := by
  intro _ sl hs; cases hs

theorem Laws.RoundTrip.commitFlip (h : Hall) : Statement (.commitFlip h) := by
  intro _ sl hs; cases hs

theorem Laws.RoundTrip.launchComplete (h : Hall) : Statement (.launchComplete h) := by
  intro _ sl hs; cases hs

theorem Laws.RoundTrip.launchAbort (h : Hall) : Statement (.launchAbort h) := by
  intro _ sl hs; cases hs

theorem Laws.RoundTrip.annealFold (line : Nat) : Statement (.annealFold line) := by
  intro _ sl hs; cases hs

theorem Laws.RoundTrip.hostWrite (p : HostJob) (va : Word) (bytes : List Byte) : Statement (.hostWrite p va bytes) := by
  intro _ sl hs; cases hs

theorem Laws.RoundTrip.hostRead (p : HostJob) (va : Word) (size : Nat) : Statement (.hostRead p va size) := by
  intro _ sl hs; cases hs

theorem Laws.RoundTrip.budgetExhausted (h : Hall) : Statement (.budgetExhausted h) := by
  intro _ sl hs; cases hs

theorem Laws.RoundTrip.tailObserved (q : QueueNo) : Statement (.tailObserved q) := by
  intro _ sl hs; cases hs

theorem Laws.RoundTrip.dispatchDecision : Statement (.dispatchDecision) := by
  intro _ sl hs; cases hs

theorem Laws.RoundTrip.tentativePreload (q : QueueNo) (rec : Nat) : Statement (.tentativePreload q rec) := by
  intro _ sl hs; cases hs

theorem Laws.RoundTrip.trinvRange (value : Word) : Statement (.trinvRange value) := by
  intro _ sl hs; cases hs

theorem Laws.RoundTrip.trinvTable (value : Word) : Statement (.trinvTable value) := by
  intro _ sl hs; cases hs

theorem Laws.RoundTrip.trinvAll (value : Word) : Statement (.trinvAll value) := by
  intro _ sl hs; cases hs

theorem Laws.RoundTrip.trinvDone : Statement (.trinvDone) := by
  intro _ sl hs; cases hs

theorem Laws.RoundTrip.keyLoad (value : Word) : Statement (.keyLoad value) := by
  intro _ sl hs; cases hs

theorem Laws.RoundTrip.keyClear (value : Word) : Statement (.keyClear value) := by
  intro _ sl hs; cases hs

theorem Laws.RoundTrip.keyFlush (value : Word) : Statement (.keyFlush value) := by
  intro _ sl hs; cases hs

theorem Laws.RoundTrip.keycmdRefused (value : Word) : Statement (.keycmdRefused value) := by
  intro _ sl hs; cases hs

theorem Laws.RoundTrip.keyCommandDone : Statement (.keyCommandDone) := by
  intro _ sl hs; cases hs

theorem Laws.RoundTrip.memoryReadError (pa : Nat) (syn : Syndrome) : Statement (.memoryReadError pa syn) := by
  intro _ sl hs; cases hs

theorem Laws.RoundTrip.patrolScrub (line : Nat) : Statement (.patrolScrub line) := by
  intro _ sl hs; cases hs

theorem Laws.RoundTrip.d2dLinkFailure (a : DieNo) (b : DieNo) : Statement (.d2dLinkFailure a b) := by
  intro _ sl hs; cases hs

theorem Laws.RoundTrip.errorRecordCopy (unit : BitVec 7) : Statement (.errorRecordCopy unit) := by
  intro _ sl hs; cases hs

theorem Laws.RoundTrip.heartbeatPeriodEnd : Statement (.heartbeatPeriodEnd) := by
  intro _ sl hs; cases hs

theorem Laws.RoundTrip.heartbeatStopTimeout (k : CoreNo) : Statement (.heartbeatStopTimeout k) := by
  intro _ sl hs; cases hs

theorem Laws.RoundTrip.clusterBeat (k : CoreNo) : Statement (.clusterBeat k) := by
  intro _ sl hs; cases hs

theorem Laws.RoundTrip.pairMismatch : Statement (.pairMismatch) := by
  intro _ sl hs; cases hs

theorem Laws.RoundTrip.packageReset : Statement (.packageReset) := by
  intro _ sl hs; cases hs

theorem Laws.RoundTrip.install (r : RingNo) : Statement (.install r) := by
  intro _ sl hs; cases hs

theorem Laws.RoundTrip.remove (r : RingNo) : Statement (.remove r) := by
  intro _ sl hs; cases hs

theorem Laws.RoundTrip.qset (r : RingNo) : Statement (.qset r) := by
  intro _ sl hs; cases hs

theorem Laws.RoundTrip.attest (r : RingNo) : Statement (.attest r) := by
  intro _ sl hs; cases hs

theorem Laws.RoundTrip.dbgload (r : RingNo) : Statement (.dbgload r) := by
  intro _ sl hs; cases hs

theorem Laws.RoundTrip.pcreate (r : RingNo) : Statement (.pcreate r) := by
  intro _ sl hs; cases hs

theorem Laws.RoundTrip.pswapout (r : RingNo) : Statement (.pswapout r) := by
  intro _ sl hs; cases hs

theorem Laws.RoundTrip.pswapin (r : RingNo) : Statement (.pswapin r) := by
  intro _ sl hs; cases hs

theorem Laws.RoundTrip.preset (r : RingNo) : Statement (.preset r) := by
  intro _ sl hs; cases hs

theorem Laws.RoundTrip.pdestroy (r : RingNo) : Statement (.pdestroy r) := by
  intro _ sl hs; cases hs

theorem Laws.RoundTrip.keyloadCmd (r : RingNo) : Statement (.keyloadCmd r) := by
  intro _ sl hs; cases hs

theorem Laws.RoundTrip.svcset (r : RingNo) : Statement (.svcset r) := by
  intro _ sl hs; cases hs

theorem Laws.RoundTrip.ckpt (r : RingNo) : Statement (.ckpt r) := by
  intro _ sl hs; cases hs

theorem Laws.RoundTrip.restore (r : RingNo) : Statement (.restore r) := by
  intro _ sl hs; cases hs

theorem Laws.RoundTrip.capset (r : RingNo) : Statement (.capset r) := by
  intro _ sl hs; cases hs

theorem Laws.RoundTrip.mread (r : RingNo) : Statement (.mread r) := by
  intro _ sl hs; cases hs

theorem Laws.RoundTrip.hbset (r : RingNo) : Statement (.hbset r) := by
  intro _ sl hs; cases hs

theorem Laws.RoundTrip.unprot (r : RingNo) : Statement (.unprot r) := by
  intro _ sl hs; cases hs

theorem Laws.RoundTrip.debugen (r : RingNo) : Statement (.debugen r) := by
  intro _ sl hs; cases hs

theorem Laws.RoundTrip.unlistedCommandOp (r : RingNo) : Statement (.unlistedCommandOp r) := by
  intro _ sl hs; cases hs

theorem Laws.RoundTrip.captureClear (d : DieNo) (u : BitVec 6) : Statement (.captureClear d u) := by
  intro _ sl hs; cases hs

theorem Laws.RoundTrip.sensorSample (samples : List ZoneSample) : Statement (.sensorSample samples) := by
  intro _ sl hs; cases hs

theorem Laws.RoundTrip.clallocWrite (z : ZoneNo) (value : Word) : Statement (.clallocWrite z value) := by
  intro _ sl hs; cases hs

theorem Laws.RoundTrip.pumpAvailLow (avail : BitVec 9) : Statement (.pumpAvailLow avail) := by
  intro _ sl hs; cases hs

theorem Laws.RoundTrip.flowLow (z : ZoneNo) : Statement (.flowLow z) := by
  intro _ sl hs; cases hs

theorem Laws.RoundTrip.deltaT (z : ZoneNo) : Statement (.deltaT z) := by
  intro _ sl hs; cases hs

theorem Laws.RoundTrip.dry (z : ZoneNo) : Statement (.dry z) := by
  intro _ sl hs; cases hs

theorem Laws.RoundTrip.leak (z : ZoneNo) : Statement (.leak z) := by
  intro _ sl hs; cases hs

theorem Laws.RoundTrip.zoneWithdraw (z : ZoneNo) : Statement (.zoneWithdraw z) := by
  intro _ sl hs; cases hs

theorem Laws.RoundTrip.zoneThrottleClear (z : ZoneNo) : Statement (.zoneThrottleClear z) := by
  intro _ sl hs; cases hs

theorem Laws.RoundTrip.gated (z : ZoneNo) : Statement (.gated z) := by
  intro _ sl hs; cases hs

theorem Laws.RoundTrip.inletShut (z : ZoneNo) : Statement (.inletShut z) := by
  intro _ sl hs; cases hs

theorem Laws.RoundTrip.purge (z : ZoneNo) : Statement (.purge z) := by
  intro _ sl hs; cases hs

theorem Laws.RoundTrip.outletShut (z : ZoneNo) : Statement (.outletShut z) := by
  intro _ sl hs; cases hs

theorem Laws.RoundTrip.evacuationDry (z : ZoneNo) : Statement (.evacuationDry z) := by
  intro _ sl hs; cases hs

theorem Laws.RoundTrip.coolantFault (z : ZoneNo) : Statement (.coolantFault z) := by
  intro _ sl hs; cases hs

theorem Laws.RoundTrip.refill (z : ZoneNo) : Statement (.refill z) := by
  intro _ sl hs; cases hs

theorem Laws.RoundTrip.bleed (z : ZoneNo) : Statement (.bleed z) := by
  intro _ sl hs; cases hs

theorem Laws.RoundTrip.refillDone (z : ZoneNo) : Statement (.refillDone z) := by
  intro _ sl hs; cases hs

theorem Laws.RoundTrip.hbmEdgeTrap (z : ZoneNo) : Statement (.hbmEdgeTrap z) := by
  intro _ sl hs; cases hs

theorem Laws.RoundTrip.portTrain (p : PortNo) : Statement (.portTrain p) := by
  intro _ sl hs; cases hs

theorem Laws.RoundTrip.portFailure (p : PortNo) : Statement (.portFailure p) := by
  intro _ sl hs; cases hs

theorem Laws.RoundTrip.windowContributionMerge (x : Contribution) : Statement (.windowContributionMerge x) := by
  intro _ sl hs; cases hs

theorem Laws.RoundTrip.windowPartialStage (x : Contribution) : Statement (.windowPartialStage x) := by
  intro _ sl hs; cases hs

theorem Laws.RoundTrip.windowCommitMessage (h : Hall) : Statement (.windowCommitMessage h) := by
  intro _ sl hs; cases hs

theorem Laws.RoundTrip.windowDiscardMessage (h : Hall) : Statement (.windowDiscardMessage h) := by
  intro _ sl hs; cases hs

theorem Laws.RoundTrip.commitAck (h : Hall) (home : BitVec 16) : Statement (.commitAck h home) := by
  intro _ sl hs; cases hs

theorem Laws.RoundTrip.commitResend (h : Hall) (home : BitVec 16) : Statement (.commitResend h home) := by
  intro _ sl hs; cases hs

theorem Laws.RoundTrip.commitGiveUp (h : Hall) (home : BitVec 16) : Statement (.commitGiveUp h home) := by
  intro _ sl hs; cases hs

theorem Laws.RoundTrip.epochRelease (pkg : BitVec 16) (epoch : BitVec 32) : Statement (.epochRelease pkg epoch) := by
  intro _ sl hs; cases hs

theorem Laws.RoundTrip.accessPerforms (c : CtxNo) (seq : Nat) (elem : Nat) : Statement (.accessPerforms c seq elem) := by
  intro _ sl hs; cases hs

theorem Laws.RoundTrip.dataArrived (c : CtxNo) (seq : Nat) : Statement (.dataArrived c seq) := by
  intro _ sl hs; cases hs

theorem Laws.RoundTrip.softError (c : CtxNo) (t : SoftTarget) : Statement (.softError c t) := by
  intro _ sl hs; cases hs

theorem Laws.RoundTrip.tlbEntryDropped (n : Nat) : Statement (.tlbEntryDropped n) := by
  intro _ sl hs; cases hs

theorem Laws.RoundTrip.directoryEntryRelease (h : Hall) : Statement (.directoryEntryRelease h) := by
  intro _ sl hs; cases hs

theorem Laws.RoundTrip.pendingLineFilterClear (line : Nat) : Statement (.pendingLineFilterClear line) := by
  intro _ sl hs; cases hs

theorem Laws.RoundTrip.powerOff : Statement (.powerOff) := by
  intro _ sl hs; cases hs

theorem Laws.RoundTrip.controlPairRestart (k : CluNo) : Statement (.controlPairRestart k) := by
  intro _ sl hs; cases hs

theorem Laws.RoundTrip.portUp (p : PortNo) (sw : BitVec 16) (lanes : BitVec 4) : Statement (.portUp p sw lanes) := by
  intro _ sl hs; cases hs

theorem Laws.RoundTrip.flitReplay (p : PortNo) : Statement (.flitReplay p) := by
  intro _ sl hs; cases hs

end Sys2Proof
end

