-- ==== Sys2Proof/Tests/Slice0.lean ====
section
/-! SUPPORT. The model's own tests: ill-formed terms, words of the spec's encoding tables, worked examples of the spec, and for every
obligation states and operands that meet its hypotheses. -/

namespace Sys2Proof.Tests

open Sys2Proof Sys2Proof.Machine Sys2Proof.Claims

set_option Elab.async false
set_option linter.unusedSimpArgs false

/-! ## What 02 R50 and the tables of each chapter shut out -/

theorem test_ill_bri : (Instr.bri ⟨.always, 9, 0, 7⟩).wf = false := by decide +kernel
theorem test_ill_callx : (Instr.callx ⟨.always, 54, 53, .core⟩).wf = false := by decide +kernel
theorem test_ill_loop : (Instr.loop ⟨.always, 22, 0⟩).wf = false := by decide +kernel
theorem test_ill_loopr : (Instr.loopr ⟨.always, 8, 0⟩).wf = false := by decide +kernel
theorem test_ill_fence : (Instr.fence ⟨.always, .mtx, .mtx⟩).wf = false := by decide +kernel
theorem test_ill_mfc : (Instr.mfc ⟨.always, 3, 0x003⟩).wf = false := by decide +kernel
theorem test_ill_mtc : (Instr.mtc ⟨.always, 3, 0x041⟩).wf = false := by decide +kernel
theorem test_ill_lidx : (Instr.lidx ⟨.always, 4, 6⟩).wf = false := by decide +kernel
theorem test_ill_div : (Instr.div ⟨.s1, .always, 3, 4, 5⟩).wf = false := by decide +kernel
theorem test_ill_divu : (Instr.divu ⟨.s1, .always, 3, 4, 5⟩).wf = false := by decide +kernel
theorem test_ill_rem : (Instr.rem ⟨.s1, .always, 3, 4, 5⟩).wf = false := by decide +kernel
theorem test_ill_remu : (Instr.remu ⟨.s1, .always, 3, 4, 5⟩).wf = false := by decide +kernel
theorem test_ill_bext : (Instr.bext ⟨.s0, .always, 9, 3, 57, 7, true⟩).wf = false := by decide +kernel
theorem test_ill_bins : (Instr.bins ⟨.s0, .always, 9, 3, 1, 63⟩).wf = false := by decide +kernel
theorem test_ill_fcvt : (Instr.fcvt ⟨.s0, .always, 6, 7, .fp32, .fp32, .rne, false⟩).wf = false := by decide +kernel
theorem test_ill_vadd : (Instr.vadd ⟨⟨.always, 0, false⟩, 5, 3, .reg 4, .i64, false⟩).wf = false := by decide +kernel
theorem test_ill_vsub : (Instr.vsub ⟨⟨.always, 0, false⟩, 5, 3, .reg 4, .i64, false⟩).wf = false := by decide +kernel
theorem test_ill_vmul : (Instr.vmul ⟨⟨.always, 0, false⟩, 5, 3, .reg 4, .i64, false⟩).wf = false := by decide +kernel
theorem test_ill_vmulh : (Instr.vmulh ⟨⟨.always, 0, false⟩, 5, 3, .reg 4, .i64, false⟩).wf = false := by decide +kernel
theorem test_ill_vmin : (Instr.vmin ⟨⟨.always, 0, false⟩, 5, 3, .reg 4, .i64, false⟩).wf = false := by decide +kernel
theorem test_ill_vmax : (Instr.vmax ⟨⟨.always, 0, false⟩, 5, 3, .reg 4, .i64, false⟩).wf = false := by decide +kernel
theorem test_ill_vand : (Instr.vand ⟨⟨.always, 0, false⟩, 5, 3, .reg 4, .i64, false⟩).wf = false := by decide +kernel
theorem test_ill_vor : (Instr.vor ⟨⟨.always, 0, false⟩, 5, 3, .reg 4, .i64, false⟩).wf = false := by decide +kernel
theorem test_ill_vxor : (Instr.vxor ⟨⟨.always, 0, false⟩, 5, 3, .reg 4, .i64, false⟩).wf = false := by decide +kernel
theorem test_ill_vshl : (Instr.vshl ⟨⟨.always, 0, false⟩, 5, 3, .reg 4, .i64, false⟩).wf = false := by decide +kernel
theorem test_ill_vshr : (Instr.vshr ⟨⟨.always, 0, false⟩, 5, 3, .reg 4, .i64, false⟩).wf = false := by decide +kernel
theorem test_ill_vsar : (Instr.vsar ⟨⟨.always, 0, false⟩, 5, 3, .reg 4, .i64, false⟩).wf = false := by decide +kernel
theorem test_ill_vmulh_again : (Instr.vmulh ⟨⟨.always, 0, false⟩, 5, 3, .reg 4, .i16, true⟩).wf = false := by decide +kernel
theorem test_ill_vabs : (Instr.vabs ⟨⟨.always, 0, false⟩, 5, 3, .u8, false⟩).wf = false := by decide +kernel
theorem test_ill_vcmpCc : (Instr.vcmpCc ⟨⟨.always, 0, false⟩, 6, 3, .reg 4, .bf16, .eq⟩).wf = false := by decide +kernel
theorem test_ill_vsel : (Instr.vsel ⟨⟨.always, 0, false⟩, 5, 3, 4, .mxi8⟩).wf = false := by decide +kernel
theorem test_ill_viota : (Instr.viota ⟨⟨.always, 0, false⟩, 5, 40, .fp32⟩).wf = false := by decide +kernel
theorem test_ill_vmovi : (Instr.vmovi ⟨⟨.always, 0, false⟩, 5, .bf16, 1⟩).wf = false := by decide +kernel
theorem test_ill_vfadd : (Instr.vfadd ⟨⟨.always, 0, false⟩, 5, 3, .reg 4, .e4m3, .rne⟩).wf = false := by decide +kernel
theorem test_ill_vfsub : (Instr.vfsub ⟨⟨.always, 0, false⟩, 5, 3, .reg 4, .e4m3, .rne⟩).wf = false := by decide +kernel
theorem test_ill_vfmul : (Instr.vfmul ⟨⟨.always, 0, false⟩, 5, 3, .reg 4, .e4m3, .rne⟩).wf = false := by decide +kernel
theorem test_ill_vfma : (Instr.vfma ⟨⟨.always, 0, false⟩, 4, 1, .reg 2, 3, .i32, .rne⟩).wf = false := by decide +kernel
theorem test_ill_vfmin : (Instr.vfmin ⟨⟨.always, 0, false⟩, 5, 3, .reg 4, .fp32, .rtz⟩).wf = false := by decide +kernel
theorem test_ill_vfmax : (Instr.vfmax ⟨⟨.always, 0, false⟩, 5, 3, .reg 4, .fp32, .rtz⟩).wf = false := by decide +kernel
theorem test_ill_vfabs : (Instr.vfabs ⟨⟨.always, 0, false⟩, 5, 3, .fp32, .rup⟩).wf = false := by decide +kernel
theorem test_ill_vfneg : (Instr.vfneg ⟨⟨.always, 0, false⟩, 5, 3, .fp32, .rup⟩).wf = false := by decide +kernel
theorem test_ill_vfcmpCc : (Instr.vfcmpCc ⟨⟨.always, 0, false⟩, 6, 3, .reg 4, .i8, .le⟩).wf = false := by decide +kernel
theorem test_ill_vfrcp : (Instr.vfrcp ⟨⟨.always, 0, false⟩, 5, 3, .e5m2, .rne⟩).wf = false := by decide +kernel
theorem test_ill_vfrsq : (Instr.vfrsq ⟨⟨.always, 0, false⟩, 5, 3, .e5m2, .rne⟩).wf = false := by decide +kernel
theorem test_ill_vfexp2 : (Instr.vfexp2 ⟨⟨.always, 0, false⟩, 5, 3, .e5m2, .rne⟩).wf = false := by decide +kernel
theorem test_ill_vflog2 : (Instr.vflog2 ⟨⟨.always, 0, false⟩, 5, 3, .e5m2, .rne⟩).wf = false := by decide +kernel
theorem test_ill_vfcvt : (Instr.vfcvt ⟨⟨.always, 0, false⟩, 5, 3, .bf16, .fp32, 2, .rne, false⟩).wf = false := by decide +kernel
theorem test_ill_vradd : (Instr.vradd ⟨⟨.always, 0, false⟩, 5, 3, .fp32, .rne, true⟩).wf = false := by decide +kernel
theorem test_ill_vrmax : (Instr.vrmax ⟨⟨.always, 0, false⟩, 5, 3, .e4m3, .rne, false⟩).wf = false := by decide +kernel
theorem test_ill_vrmin : (Instr.vrmin ⟨⟨.always, 0, false⟩, 5, 3, .fp32, .rtz, false⟩).wf = false := by decide +kernel
theorem test_ill_vscan : (Instr.vscan ⟨⟨.always, 0, false⟩, 5, 3, .max, .fp32, .rne, true⟩).wf = false := by decide +kernel
theorem test_ill_vperm : (Instr.vperm ⟨⟨.always, 0, false⟩, 5, 3, 4, .mxi4⟩).wf = false := by decide +kernel
theorem test_ill_vbcst : (Instr.vbcst ⟨⟨.always, 0, false⟩, 5, 40, .i64⟩).wf = false := by decide +kernel
theorem test_ill_vext : (Instr.vext ⟨.always, 40, 3, 128, .i16⟩).wf = false := by decide +kernel
theorem test_ill_vins : (Instr.vins ⟨.always, 5, 40, 64, .i32⟩).wf = false := by decide +kernel
theorem test_ill_vcmpr : (Instr.vcmpr ⟨⟨.always, 0, false⟩, 5, 3, .i64⟩).wf = false := by decide +kernel
theorem test_ill_vexpd : (Instr.vexpd ⟨⟨.always, 0, false⟩, 5, 3, .mxi6⟩).wf = false := by decide +kernel
theorem test_ill_vacrd : (Instr.vacrd ⟨⟨.always, 0, false⟩, 5, 40, .bf16, true, true, .rne, false⟩).wf = false := by decide +kernel
theorem test_ill_qcnt : (Instr.qcnt ⟨.always, 53, 1, .i64⟩).wf = false := by decide +kernel
theorem test_ill_ld : (Instr.ld ⟨.always, .release, .die, 9, 8, 0, .d, 140, 0⟩).wf = false := by decide +kernel
theorem test_ill_lds : (Instr.lds ⟨.always, .relaxed, .die, 9, 8, 0, .d, 140, 0⟩).wf = false := by decide +kernel
theorem test_ill_st : (Instr.st ⟨.always, .acquire, .clu, 13, 5, 0, .w, 0⟩).wf = false := by decide +kernel
theorem test_ill_sctaOp : (Instr.sctaOp ⟨.always, 0, 5, 8, 3, .h, .add⟩).wf = false := by decide +kernel
theorem test_ill_aadd : (Instr.aadd ⟨.always, .relaxed, .ctx, 26, 28, 4, .b, 255, 0⟩).wf = false := by decide +kernel
theorem test_ill_amin : (Instr.amin ⟨.always, .relaxed, .ctx, 26, 28, 4, .b, 255, 0⟩).wf = false := by decide +kernel
theorem test_ill_amax : (Instr.amax ⟨.always, .relaxed, .ctx, 26, 28, 4, .b, 255, 0⟩).wf = false := by decide +kernel
theorem test_ill_aminu : (Instr.aminu ⟨.always, .relaxed, .ctx, 26, 28, 4, .b, 255, 0⟩).wf = false := by decide +kernel
theorem test_ill_amaxu : (Instr.amaxu ⟨.always, .relaxed, .ctx, 26, 28, 4, .b, 255, 0⟩).wf = false := by decide +kernel
theorem test_ill_aand : (Instr.aand ⟨.always, .relaxed, .ctx, 26, 28, 4, .b, 255, 0⟩).wf = false := by decide +kernel
theorem test_ill_aor : (Instr.aor ⟨.always, .relaxed, .ctx, 26, 28, 4, .b, 255, 0⟩).wf = false := by decide +kernel
theorem test_ill_axor : (Instr.axor ⟨.always, .relaxed, .ctx, 26, 28, 4, .b, 255, 0⟩).wf = false := by decide +kernel
theorem test_ill_axchg : (Instr.axchg ⟨.always, .relaxed, .ctx, 26, 28, 4, .b, 255, 0⟩).wf = false := by decide +kernel
theorem test_ill_acas : (Instr.acas ⟨.always, .relaxed, .ctx, 26, 28, 4, .b, 255, 0⟩).wf = false := by decide +kernel
theorem test_ill_aadd_again : (Instr.aadd ⟨.always, .relaxed, .ctx, 0, 28, 4, .d, 24, 0⟩).wf = false := by decide +kernel
theorem test_ill_wkfix : (Instr.wkfix ⟨.always, 8, 13, 9, false⟩).wf = false := by decide +kernel
theorem test_ill_wget : (Instr.wget ⟨.always, 8, 9, 10, 0, false⟩).wf = false := by decide +kernel
theorem test_ill_wput : (Instr.wput ⟨.always, 8, 9, 10, 0, false⟩).wf = false := by decide +kernel
theorem test_ill_wexp : (Instr.wexp ⟨.always, 8, 9, 10, 0, false⟩).wf = false := by decide +kernel
theorem test_ill_cxun : (Instr.cxun ⟨.always, 8, 9, 10, 0, false⟩).wf = false := by decide +kernel
theorem test_ill_cxpk : (Instr.cxpk ⟨.always, 8, 9, 10, 2, 0, false⟩).wf = false := by decide +kernel
theorem test_ill_lkradd : (Instr.lkradd ⟨.always, 8, 9, 10, 5, .i8, false⟩).wf = false := by decide +kernel
theorem test_ill_evpost : (Instr.evpost ⟨.always, 10, .fab⟩).wf = false := by decide +kernel

/-! ## Words that are no instructions (02 R42, R43, R45–R50) -/

theorem test_refused_opcode_c : decodeSlot .c 0x1E0000000000 = none := by decide +kernel
theorem test_refused_opcode_s : decodeSlot .s0 0x3300000000 = none := by decide +kernel
theorem test_refused_div_in_s1 : decodeSlot .s1 0x0700C41400 = none := by decide +kernel
theorem test_refused_opcode_v : decodeSlot .v 0x3200000000000000 = none := by decide +kernel
theorem test_refused_opcode_l : decodeSlot .l 0x15000000000000 = none := by decide +kernel
theorem test_refused_opcode_m : decodeSlot .m 0x0A0000000000 = none := by decide +kernel
theorem test_refused_opcode_x : decodeSlot .x 0x50000000 = none := by decide +kernel
theorem test_refused_opcode_d : decodeSlot .d 0x180000000000 = none := by decide +kernel
theorem test_refused_nop_field : decodeSlot .c 0x000000000001 = none := by decide +kernel
theorem test_refused_relaxed_scope : decodeSlot .l 0x0100324803068C = none := by decide +kernel
theorem test_refused_gang : decodeSlot .m 0x010040280000 = none := by decide +kernel
theorem test_refused_micro_uop : decodeMicro 3 0x70000000000000000000000000000000 = none := by decide +kernel
theorem test_refused_header : decodeBundle (BitVec.ofNat 384 (2 ^ 376)) = .illegal 0 := by decide +kernel

/-! ## Words written out from the encoding tables, one of each instruction (02 R36–R49; 03–06, 08, 09, 13, 14, 18, 23) -/

theorem test_word_br : decodeSlot .c 0x013000FFFFE6 = some (.br ⟨⟨1, true⟩, -26⟩) := by decide +kernel
theorem test_word_bri : decodeSlot .c 0x020240005007 = some (.bri ⟨.always, 9, 5, 7⟩) := by decide +kernel
theorem test_word_call : decodeSlot .c 0x03003500000C = some (.call ⟨.always, 53, 12⟩) := by decide +kernel
theorem test_word_callx : decodeSlot .c 0x040DB5000004 = some (.callx ⟨.always, 54, 53, .pkg⟩) := by decide +kernel
theorem test_word_ret : decodeSlot .c 0x050D40000000 = some (.ret ⟨.always, 53⟩) := by decide +kernel
theorem test_word_loop : decodeSlot .c 0x060000016001 = some (.loop ⟨.always, 22, 1⟩) := by decide +kernel
theorem test_word_loopr : decodeSlot .c 0x070200000007 = some (.loopr ⟨.always, 8, 7⟩) := by decide +kernel
theorem test_word_lexit : decodeSlot .c 0x082000000000 = some (.lexit ⟨1, false⟩) := by decide +kernel
theorem test_word_yield : decodeSlot .c 0x090000000001 = some (.yield ⟨.always, true⟩) := by decide +kernel
theorem test_word_halt : decodeSlot .c 0x0A4000000000 = some (.halt ⟨2, false⟩) := by decide +kernel
theorem test_word_trap : decodeSlot .c 0x0B3000000001 = some (.trap ⟨⟨1, true⟩, 1⟩) := by decide +kernel
theorem test_word_rti : decodeSlot .c 0x0C0000000000 = some (.rti .always) := by decide +kernel
theorem test_word_marm : decodeSlot .c 0x0D0140000000 = some (.marm ⟨.always, 5⟩) := by decide +kernel
theorem test_word_mwait : decodeSlot .c 0x0E3240000040 = some (.mwait ⟨⟨1, true⟩, 9, 64⟩) := by decide +kernel
theorem test_word_mdisarm : decodeSlot .c 0x0F0000000000 = some (.mdisarm .always) := by decide +kernel
theorem test_word_bar : decodeSlot .c 0x100000000022 = some (.bar ⟨.always, 2, .clu⟩) := by decide +kernel
theorem test_word_bara : decodeSlot .c 0x11000000004F = some (.bara ⟨.always, 15, .pkg⟩) := by decide +kernel
theorem test_word_barw : decodeSlot .c 0x120000000031 = some (.barw ⟨.always, 1, .die⟩) := by decide +kernel
theorem test_word_drain : decodeSlot .c 0x130000000002 = some (.drain ⟨.always, .clu⟩) := by decide +kernel
theorem test_word_fence : decodeSlot .c 0x140000000020 = some (.fence ⟨.always, .ctx, .mtx⟩) := by decide +kernel
theorem test_word_pand : decodeSlot .c 0x150042000003 = some (.pand ⟨.always, 1, 2, 3⟩) := by decide +kernel
theorem test_word_por : decodeSlot .c 0x160042000003 = some (.por ⟨.always, 1, 2, 3⟩) := by decide +kernel
theorem test_word_pxor : decodeSlot .c 0x170042000003 = some (.pxor ⟨.always, 1, 2, 3⟩) := by decide +kernel
theorem test_word_pnot : decodeSlot .c 0x180042000000 = some (.pnot ⟨.always, 1, 2⟩) := by decide +kernel
theorem test_word_mfc : decodeSlot .c 0x190C80000021 = some (.mfc ⟨.always, 50, 0x021⟩) := by decide +kernel
theorem test_word_mtc : decodeSlot .c 0x1A00C0000010 = some (.mtc ⟨.always, 3, 0x010⟩) := by decide +kernel
theorem test_word_uien : decodeSlot .c 0x1B0000000000 = some (.uien .always) := by decide +kernel
theorem test_word_uidis : decodeSlot .c 0x1C0000000000 = some (.uidis .always) := by decide +kernel
theorem test_word_lidx : decodeSlot .c 0x1D0100000005 = some (.lidx ⟨.always, 4, 5⟩) := by decide +kernel
theorem test_word_add : decodeSlot .s1 0x0130C41400 = some (.add ⟨.s1, ⟨1, true⟩, 3, 4, 5⟩) := by decide +kernel
theorem test_word_sub : decodeSlot .s1 0x0330C41400 = some (.sub ⟨.s1, ⟨1, true⟩, 3, 4, 5⟩) := by decide +kernel
theorem test_word_mul : decodeSlot .s1 0x0430C41400 = some (.mul ⟨.s1, ⟨1, true⟩, 3, 4, 5⟩) := by decide +kernel
theorem test_word_mulh : decodeSlot .s1 0x0530C41400 = some (.mulh ⟨.s1, ⟨1, true⟩, 3, 4, 5⟩) := by decide +kernel
theorem test_word_mulhu : decodeSlot .s1 0x0630C41400 = some (.mulhu ⟨.s1, ⟨1, true⟩, 3, 4, 5⟩) := by decide +kernel
theorem test_word_and : decodeSlot .s1 0x0B30C41400 = some (.and ⟨.s1, ⟨1, true⟩, 3, 4, 5⟩) := by decide +kernel
theorem test_word_or : decodeSlot .s1 0x0D30C41400 = some (.or ⟨.s1, ⟨1, true⟩, 3, 4, 5⟩) := by decide +kernel
theorem test_word_xor : decodeSlot .s1 0x0F30C41400 = some (.xor ⟨.s1, ⟨1, true⟩, 3, 4, 5⟩) := by decide +kernel
theorem test_word_shl : decodeSlot .s1 0x1130C41400 = some (.shl ⟨.s1, ⟨1, true⟩, 3, 4, 5⟩) := by decide +kernel
theorem test_word_shr : decodeSlot .s1 0x1230C41400 = some (.shr ⟨.s1, ⟨1, true⟩, 3, 4, 5⟩) := by decide +kernel
theorem test_word_sar : decodeSlot .s1 0x1330C41400 = some (.sar ⟨.s1, ⟨1, true⟩, 3, 4, 5⟩) := by decide +kernel
theorem test_word_rol : decodeSlot .s1 0x1730C41400 = some (.rol ⟨.s1, ⟨1, true⟩, 3, 4, 5⟩) := by decide +kernel
theorem test_word_ror : decodeSlot .s1 0x1830C41400 = some (.ror ⟨.s1, ⟨1, true⟩, 3, 4, 5⟩) := by decide +kernel
theorem test_word_min : decodeSlot .s1 0x1930C41400 = some (.min ⟨.s1, ⟨1, true⟩, 3, 4, 5⟩) := by decide +kernel
theorem test_word_max : decodeSlot .s1 0x1A30C41400 = some (.max ⟨.s1, ⟨1, true⟩, 3, 4, 5⟩) := by decide +kernel
theorem test_word_minu : decodeSlot .s1 0x1B30C41400 = some (.minu ⟨.s1, ⟨1, true⟩, 3, 4, 5⟩) := by decide +kernel
theorem test_word_maxu : decodeSlot .s1 0x1C30C41400 = some (.maxu ⟨.s1, ⟨1, true⟩, 3, 4, 5⟩) := by decide +kernel
theorem test_word_div : decodeSlot .s0 0x0700C41400 = some (.div ⟨.s0, .always, 3, 4, 5⟩) := by decide +kernel
theorem test_word_divu : decodeSlot .s0 0x0800C41400 = some (.divu ⟨.s0, .always, 3, 4, 5⟩) := by decide +kernel
theorem test_word_rem : decodeSlot .s0 0x0900C41400 = some (.rem ⟨.s0, .always, 3, 4, 5⟩) := by decide +kernel
theorem test_word_remu : decodeSlot .s0 0x0A00C41400 = some (.remu ⟨.s0, .always, 3, 4, 5⟩) := by decide +kernel
theorem test_word_addi : decodeSlot .s0 0x020146FFFE = some (.addi ⟨.s0, .always, 5, 6, -2⟩) := by decide +kernel
theorem test_word_andi : decodeSlot .s0 0x0C0146FFFF = some (.andi ⟨.s0, .always, 5, 6, 0xFFFF⟩) := by decide +kernel
theorem test_word_ori : decodeSlot .s0 0x0E0146FFFF = some (.ori ⟨.s0, .always, 5, 6, 0xFFFF⟩) := by decide +kernel
theorem test_word_xori : decodeSlot .s0 0x100146FFFF = some (.xori ⟨.s0, .always, 5, 6, 0xFFFF⟩) := by decide +kernel
theorem test_word_shli : decodeSlot .s0 0x140CF2003F = some (.shli ⟨.s0, .always, 51, 50, 63⟩) := by decide +kernel
theorem test_word_shri : decodeSlot .s0 0x150CF2003F = some (.shri ⟨.s0, .always, 51, 50, 63⟩) := by decide +kernel
theorem test_word_sari : decodeSlot .s0 0x160CF2003F = some (.sari ⟨.s0, .always, 51, 50, 63⟩) := by decide +kernel
theorem test_word_abs : decodeSlot .s0 0x1D01C90000 = some (.abs ⟨.s0, .always, 7, 9⟩) := by decide +kernel
theorem test_word_clz : decodeSlot .s0 0x2401C90000 = some (.clz ⟨.s0, .always, 7, 9⟩) := by decide +kernel
theorem test_word_ctz : decodeSlot .s0 0x2501C90000 = some (.ctz ⟨.s0, .always, 7, 9⟩) := by decide +kernel
theorem test_word_popc : decodeSlot .s0 0x2601C90000 = some (.popc ⟨.s0, .always, 7, 9⟩) := by decide +kernel
theorem test_word_cmpCc : decodeSlot .s0 0x1E00830804 = some (.cmpCc ⟨.s0, .always, .ltu, 2, 3, 2⟩) := by decide +kernel
theorem test_word_cmpiCc : decodeSlot .s1 0x1F0A87FFFD = some (.cmpiCc ⟨.s1, .always, .ge, 2, 7, -3⟩) := by decide +kernel
theorem test_word_movi : decodeSlot .s0 0x2001014020 = some (.movi ⟨.s0, .always, 4, 1, 0x4020⟩) := by decide +kernel
theorem test_word_movk : decodeSlot .s0 0x2101038000 = some (.movk ⟨.s0, .always, 4, 3, 0x8000⟩) := by decide +kernel
theorem test_word_sext : decodeSlot .s0 0x2201050001 = some (.sext ⟨.s0, .always, 4, 5, .h⟩) := by decide +kernel
theorem test_word_zext : decodeSlot .s0 0x2301050002 = some (.zext ⟨.s0, .always, 4, 5, .w⟩) := by decide +kernel
theorem test_word_bext : decodeSlot .s0 0x2702433047 = some (.bext ⟨.s0, .always, 9, 3, 12, 7, true⟩) := by decide +kernel
theorem test_word_bins : decodeSlot .s0 0x280DF48007 = some (.bins ⟨.s0, .always, 55, 52, 32, 7⟩) := by decide +kernel
theorem test_word_selp : decodeSlot .s0 0x2900C41406 = some (.selp ⟨.s0, .always, 3, 4, 5, 6⟩) := by decide +kernel
theorem test_word_lea : decodeSlot .s0 0x2A028A2801 = some (.lea ⟨.s0, .always, 10, 10, 10, 1⟩) := by decide +kernel
theorem test_word_pmov : decodeSlot .s0 0x2B00C00000 = some (.pmov ⟨.s0, .always, 3⟩) := by decide +kernel
theorem test_word_pset : decodeSlot .s0 0x2C01C4003F = some (.pset ⟨.s0, .always, 7, 4, 63⟩) := by decide +kernel
theorem test_word_faddS : decodeSlot .s0 0x2D00C41401 = some (.faddS ⟨.s0, .always, 3, 4, 5, .rtz⟩) := by decide +kernel
theorem test_word_fmulS : decodeSlot .s0 0x2E00C41401 = some (.fmulS ⟨.s0, .always, 3, 4, 5, .rtz⟩) := by decide +kernel
theorem test_word_ffmaS : decodeSlot .s0 0x2F00C41401 = some (.ffmaS ⟨.s0, .always, 3, 4, 5, .rtz⟩) := by decide +kernel
theorem test_word_fcmpCc : decodeSlot .s0 0x3000841403 = some (.fcmpCc ⟨.s0, .always, .un, 2, 4, 5⟩) := by decide +kernel
theorem test_word_fcvt : decodeSlot .s0 0x3101871894 = some (.fcvt ⟨.s0, .always, 6, 7, .e4m3, .fp32, .rtz, true⟩) := by decide +kernel
theorem test_word_packwe : decodeSlot .s1 0x3202841401 = some (.packwe ⟨.s1, .always, 10, 4, 5, true⟩) := by decide +kernel
theorem test_word_vadd : decodeSlot .v 0x010328C801100000 = some (.vadd ⟨⟨.always, 1, true⟩, 5, 3, .reg 4, .i16, true⟩) := by decide +kernel
theorem test_word_vsub : decodeSlot .v 0x020328C801100000 = some (.vsub ⟨⟨.always, 1, true⟩, 5, 3, .reg 4, .i16, true⟩) := by decide +kernel
theorem test_word_vmul : decodeSlot .v 0x030328C801100000 = some (.vmul ⟨⟨.always, 1, true⟩, 5, 3, .reg 4, .i16, true⟩) := by decide +kernel
theorem test_word_vmulh : decodeSlot .v 0x040328C00B0A2000 = some (.vmulh ⟨⟨.always, 1, true⟩, 5, 3, .scalar 40, .u8, false⟩) := by decide +kernel
theorem test_word_vmin : decodeSlot .v 0x050328C00B0A2000 = some (.vmin ⟨⟨.always, 1, true⟩, 5, 3, .scalar 40, .u8, false⟩) := by decide +kernel
theorem test_word_vmax : decodeSlot .v 0x060328C00B0A2000 = some (.vmax ⟨⟨.always, 1, true⟩, 5, 3, .scalar 40, .u8, false⟩) := by decide +kernel
theorem test_word_vand : decodeSlot .v 0x080328C00B0A2000 = some (.vand ⟨⟨.always, 1, true⟩, 5, 3, .scalar 40, .u8, false⟩) := by decide +kernel
theorem test_word_vor : decodeSlot .v 0x090328C00B0A2000 = some (.vor ⟨⟨.always, 1, true⟩, 5, 3, .scalar 40, .u8, false⟩) := by decide +kernel
theorem test_word_vxor : decodeSlot .v 0x0A0328C00B0A2000 = some (.vxor ⟨⟨.always, 1, true⟩, 5, 3, .scalar 40, .u8, false⟩) := by decide +kernel
theorem test_word_vshl : decodeSlot .v 0x0B0328C00B0A2000 = some (.vshl ⟨⟨.always, 1, true⟩, 5, 3, .scalar 40, .u8, false⟩) := by decide +kernel
theorem test_word_vshr : decodeSlot .v 0x0C0328C00B0A2000 = some (.vshr ⟨⟨.always, 1, true⟩, 5, 3, .scalar 40, .u8, false⟩) := by decide +kernel
theorem test_word_vsar : decodeSlot .v 0x0D0328C00B0A2000 = some (.vsar ⟨⟨.always, 1, true⟩, 5, 3, .scalar 40, .u8, false⟩) := by decide +kernel
theorem test_word_vabs : decodeSlot .v 0x070328C000100000 = some (.vabs ⟨⟨.always, 1, true⟩, 5, 3, .i8, true⟩) := by decide +kernel
theorem test_word_vcmpCc : decodeSlot .v 0x0E0330C801000005 = some (.vcmpCc ⟨⟨.always, 1, true⟩, 6, 3, .reg 4, .i16, .leu⟩) := by decide +kernel
theorem test_word_vsel : decodeSlot .v 0x0F0328C805000000 = some (.vsel ⟨⟨.always, 1, true⟩, 5, 3, 4, .bf16⟩) := by decide +kernel
theorem test_word_vfadd : decodeSlot .v 0x100328C805600000 = some (.vfadd ⟨⟨.always, 1, true⟩, 5, 3, .reg 4, .bf16, .rup⟩) := by decide +kernel
theorem test_word_vfsub : decodeSlot .v 0x110328C805600000 = some (.vfsub ⟨⟨.always, 1, true⟩, 5, 3, .reg 4, .bf16, .rup⟩) := by decide +kernel
theorem test_word_vfmul : decodeSlot .v 0x120328C805600000 = some (.vfmul ⟨⟨.always, 1, true⟩, 5, 3, .reg 4, .bf16, .rup⟩) := by decide +kernel
theorem test_word_vfma : decodeSlot .v 0x1302204434000000 = some (.vfma ⟨⟨.always, 1, false⟩, 4, 1, .reg 2, 3, .fp32, .rne⟩) := by decide +kernel
theorem test_word_vfmin : decodeSlot .v 0x140328C0040A2000 = some (.vfmin ⟨⟨.always, 1, true⟩, 5, 3, .scalar 40, .fp32, .rne⟩) := by decide +kernel
theorem test_word_vfmax : decodeSlot .v 0x150328C0040A2000 = some (.vfmax ⟨⟨.always, 1, true⟩, 5, 3, .scalar 40, .fp32, .rne⟩) := by decide +kernel
theorem test_word_vfabs : decodeSlot .v 0x160328C004000000 = some (.vfabs ⟨⟨.always, 1, true⟩, 5, 3, .fp32, .rne⟩) := by decide +kernel
theorem test_word_vfneg : decodeSlot .v 0x170328C004000000 = some (.vfneg ⟨⟨.always, 1, true⟩, 5, 3, .fp32, .rne⟩) := by decide +kernel
theorem test_word_vfcmpCc : decodeSlot .v 0x180330C0040A2002 = some (.vfcmpCc ⟨⟨.always, 1, true⟩, 6, 3, .scalar 40, .fp32, .le⟩) := by decide +kernel
theorem test_word_vfrcp : decodeSlot .v 0x190328C004400000 = some (.vfrcp ⟨⟨.always, 1, true⟩, 5, 3, .fp32, .rdn⟩) := by decide +kernel
theorem test_word_vfrsq : decodeSlot .v 0x1A0328C004400000 = some (.vfrsq ⟨⟨.always, 1, true⟩, 5, 3, .fp32, .rdn⟩) := by decide +kernel
theorem test_word_vfexp2 : decodeSlot .v 0x1B0328C004400000 = some (.vfexp2 ⟨⟨.always, 1, true⟩, 5, 3, .fp32, .rdn⟩) := by decide +kernel
theorem test_word_vflog2 : decodeSlot .v 0x1C0328C004400000 = some (.vflog2 ⟨⟨.always, 1, true⟩, 5, 3, .fp32, .rdn⟩) := by decide +kernel
theorem test_word_vfcvt : decodeSlot .v 0x1D0328C000300034 = some (.vfcvt ⟨⟨.always, 1, true⟩, 5, 3, .i8, .fp32, 3, .rtz, true⟩) := by decide +kernel
theorem test_word_vqnt : decodeSlot .v 0x1E0018800A000000 = some (.vqnt ⟨.always, 3, 2, .mxi4, .rne⟩) := by decide +kernel
theorem test_word_vdqn : decodeSlot .v 0x1F0020C009000000 = some (.vdqn ⟨.always, 4, 3, .mxi6⟩) := by decide +kernel
theorem test_word_vradd : decodeSlot .v 0x200328C002100000 = some (.vradd ⟨⟨.always, 1, true⟩, 5, 3, .i32, .rne, true⟩) := by decide +kernel
theorem test_word_vrmax : decodeSlot .v 0x210328C005000000 = some (.vrmax ⟨⟨.always, 1, true⟩, 5, 3, .bf16, .rne, false⟩) := by decide +kernel
theorem test_word_vrmin : decodeSlot .v 0x220328C005000000 = some (.vrmin ⟨⟨.always, 1, true⟩, 5, 3, .bf16, .rne, false⟩) := by decide +kernel
theorem test_word_vscan : decodeSlot .v 0x230328C002100002 = some (.vscan ⟨⟨.always, 1, true⟩, 5, 3, .min, .i32, .rne, true⟩) := by decide +kernel
theorem test_word_vperm : decodeSlot .v 0x240328C807000000 = some (.vperm ⟨⟨.always, 1, true⟩, 5, 3, 4, .e5m2⟩) := by decide +kernel
theorem test_word_vbcst : decodeSlot .v 0x25032800040A0000 = some (.vbcst ⟨⟨.always, 1, true⟩, 5, 40, .fp32⟩) := by decide +kernel
theorem test_word_vext : decodeSlot .v 0x260000C0010A007F = some (.vext ⟨.always, 40, 3, 127, .i16⟩) := by decide +kernel
theorem test_word_vins : decodeSlot .v 0x27002800020A003F = some (.vins ⟨.always, 5, 40, 63, .i32⟩) := by decide +kernel
theorem test_word_viota : decodeSlot .v 0x280328000B0A0000 = some (.viota ⟨⟨.always, 1, true⟩, 5, 40, .u8⟩) := by decide +kernel
theorem test_word_vcmpr : decodeSlot .v 0x290228C002000000 = some (.vcmpr ⟨⟨.always, 1, false⟩, 5, 3, .i32⟩) := by decide +kernel
theorem test_word_vexpd : decodeSlot .v 0x2A0328C001000000 = some (.vexpd ⟨⟨.always, 1, true⟩, 5, 3, .i16⟩) := by decide +kernel
theorem test_word_vacrd : decodeSlot .v 0x2B032800040A0003 = some (.vacrd ⟨⟨.always, 1, true⟩, 5, 40, .fp32, true, true, .rne, false⟩) := by decide +kernel
theorem test_word_vacwr : decodeSlot .v 0x2C0300C0040A0002 = some (.vacwr ⟨⟨.always, 1, true⟩, 3, 40, false, true⟩) := by decide +kernel
theorem test_word_qand : decodeSlot .v 0x2D00088600000000 = some (.qand ⟨.always, 1, 2, 3⟩) := by decide +kernel
theorem test_word_qor : decodeSlot .v 0x2E00088600000000 = some (.qor ⟨.always, 1, 2, 3⟩) := by decide +kernel
theorem test_word_qnot : decodeSlot .v 0x2F00088000000000 = some (.qnot ⟨.always, 1, 2⟩) := by decide +kernel
theorem test_word_qcnt : decodeSlot .v 0x30000040020D4000 = some (.qcnt ⟨.always, 53, 1, .i32⟩) := by decide +kernel
theorem test_word_vmovi : decodeSlot .v 0x3103280001003FFE = some (.vmovi ⟨⟨.always, 1, true⟩, 5, .i16, -2⟩) := by decide +kernel
theorem test_word_ld : decodeSlot .l 0x0170B248038C08 = some (.ld ⟨⟨3, true⟩, .acquire, .die, 9, 8, 0, .d, 140, 0x08⟩) := by decide +kernel
theorem test_word_lds : decodeSlot .l 0x02000248151800 = some (.lds ⟨.always, .relaxed, .ctx, 9, 8, 5, .h, 24, 0⟩) := by decide +kernel
theorem test_word_st : decodeSlot .l 0x030123450200FF = some (.st ⟨.always, .release, .clu, 13, 5, 0, .w, 0xFF⟩) := by decide +kernel
theorem test_word_ldv : decodeSlot .l 0x04000058668C00 = some (.ldv ⟨.always, 0, 1, 24, 25, .w, 140, 0⟩) := by decide +kernel
theorem test_word_stv : decodeSlot .l 0x05020148160080 = some (.stv ⟨.always, 1, 5, 8, 5, .w, 0x80⟩) := by decide +kernel
theorem test_word_ldvs : decodeSlot .l 0x060000A0860600 = some (.ldvs ⟨.always, 0, 2, 32, 33, .w, 6, 0⟩) := by decide +kernel
theorem test_word_stvs : decodeSlot .l 0x070E0148180001 = some (.stvs ⟨.always, 7, 5, 8, 6, .b, 1⟩) := by decide +kernel
theorem test_word_gth : decodeSlot .l 0x080401480E0600 = some (.gth ⟨.always, 2, 5, 8, 3, .w, 6, 0⟩) := by decide +kernel
theorem test_word_sct : decodeSlot .l 0x090001480D0000 = some (.sct ⟨.always, 0, 5, 8, 3, .h, 0⟩) := by decide +kernel
theorem test_word_sctaOp : decodeSlot .l 0x0A0001480F0003 = some (.sctaOp ⟨.always, 0, 5, 8, 3, .d, .minu⟩) := by decide +kernel
theorem test_word_aadd : decodeSlot .l 0x0B01C69C13FF7F = some (.aadd ⟨.always, .acqRel, .pkg, 26, 28, 4, .d, 255, 0x7F⟩) := by decide +kernel
theorem test_word_amin : decodeSlot .l 0x0C01C69C13FF7F = some (.amin ⟨.always, .acqRel, .pkg, 26, 28, 4, .d, 255, 0x7F⟩) := by decide +kernel
theorem test_word_amax : decodeSlot .l 0x0D01C69C13FF7F = some (.amax ⟨.always, .acqRel, .pkg, 26, 28, 4, .d, 255, 0x7F⟩) := by decide +kernel
theorem test_word_aminu : decodeSlot .l 0x0E01C69C13FF7F = some (.aminu ⟨.always, .acqRel, .pkg, 26, 28, 4, .d, 255, 0x7F⟩) := by decide +kernel
theorem test_word_amaxu : decodeSlot .l 0x0F01C69C13FF7F = some (.amaxu ⟨.always, .acqRel, .pkg, 26, 28, 4, .d, 255, 0x7F⟩) := by decide +kernel
theorem test_word_aand : decodeSlot .l 0x1001C69C13FF7F = some (.aand ⟨.always, .acqRel, .pkg, 26, 28, 4, .d, 255, 0x7F⟩) := by decide +kernel
theorem test_word_aor : decodeSlot .l 0x1101C69C13FF7F = some (.aor ⟨.always, .acqRel, .pkg, 26, 28, 4, .d, 255, 0x7F⟩) := by decide +kernel
theorem test_word_axor : decodeSlot .l 0x1201C69C13FF7F = some (.axor ⟨.always, .acqRel, .pkg, 26, 28, 4, .d, 255, 0x7F⟩) := by decide +kernel
theorem test_word_axchg : decodeSlot .l 0x1301C69C13FF7F = some (.axchg ⟨.always, .acqRel, .pkg, 26, 28, 4, .d, 255, 0x7F⟩) := by decide +kernel
theorem test_word_acas : decodeSlot .l 0x1401C69C13FF7F = some (.acas ⟨.always, .acqRel, .pkg, 26, 28, 4, .d, 255, 0x7F⟩) := by decide +kernel
theorem test_word_mcall : decodeSlot .m 0x010848280000 = some (.mcall ⟨.always, true, .mxi8, .mxi4, 5⟩) := by decide +kernel
theorem test_word_mldw : decodeSlot .m 0x020000000002 = some (.mldw ⟨.always, .mxi8, .mxi8, 2⟩) := by decide +kernel
theorem test_word_mswp : decodeSlot .m 0x030000000000 = some (.mswp .always) := by decide +kernel
theorem test_word_mldix : decodeSlot .m 0x040000000007 = some (.mldix ⟨.always, 7⟩) := by decide +kernel
theorem test_word_mclr : decodeSlot .m 0x050800000000 = some (.mclr ⟨.always, true⟩) := by decide +kernel
theorem test_word_mset : decodeSlot .m 0x06000000004B = some (.mset ⟨.always, 3, 9⟩) := by decide +kernel
theorem test_word_mupld : decodeSlot .m 0x070007F81FFB = some (.mupld ⟨.always, 3, 255, 1023⟩) := by decide +kernel
theorem test_word_massay : decodeSlot .m 0x080000000001 = some (.massay ⟨.always, 1⟩) := by decide +kernel
theorem test_word_msync : decodeSlot .m 0x093000000000 = some (.msync ⟨1, true⟩) := by decide +kernel
theorem test_word_xld : decodeSlot .x 0x10321802 = some (.xld ⟨.always, 3, 8, 24, 2⟩) := by decide +kernel
theorem test_word_xldb : decodeSlot .x 0x203227FF = some (.xldb ⟨.always, 3, 8, 39, 0xFF⟩) := by decide +kernel
theorem test_word_xmov : decodeSlot .x 0x3040C000 = some (.xmov ⟨.always, 4, 3⟩) := by decide +kernel
theorem test_word_xset : decodeSlot .x 0x4000007F = some (.xset ⟨.always, 0, 127⟩) := by decide +kernel
theorem test_word_cpgo : decodeSlot .d 0x01020000C000 = some (.cpgo ⟨.always, 8, 3⟩) := by decide +kernel
theorem test_word_cpq : decodeSlot .d 0x02024000C018 = some (.cpq ⟨.always, 9, 3, 24⟩) := by decide +kernel
theorem test_word_cpstop : decodeSlot .d 0x03000003C000 = some (.cpstop ⟨.always, 15⟩) := by decide +kernel
theorem test_word_wkapp : decodeSlot .d 0x040209280000 = some (.wkapp ⟨.always, 8, 9, 10, false⟩) := by decide +kernel
theorem test_word_wkwalk : decodeSlot .d 0x05020B300001 = some (.wkwalk ⟨.always, 8, 11, 12, true⟩) := by decide +kernel
theorem test_word_wkfix : decodeSlot .d 0x06020D000011 = some (.wkfix ⟨.always, 8, 13, 8, true⟩) := by decide +kernel
theorem test_word_wkq : decodeSlot .d 0x070240000018 = some (.wkq ⟨.always, 9, 24⟩) := by decide +kernel
theorem test_word_cxtab : decodeSlot .d 0x080200008107 = some (.cxtab ⟨.always, 8, 2, 7, true⟩) := by decide +kernel
theorem test_word_cxpk : decodeSlot .d 0x090209289004 = some (.cxpk ⟨.always, 8, 9, 10, 2, 4, true⟩) := by decide +kernel
theorem test_word_cxun : decodeSlot .d 0x0A0209280FFF = some (.cxun ⟨.always, 8, 9, 10, 4095, false⟩) := by decide +kernel
theorem test_word_clgo : decodeSlot .d 0x0B0200000001 = some (.clgo ⟨.always, 8, true⟩) := by decide +kernel
theorem test_word_lksend : decodeSlot .d 0x0C0209294000 = some (.lksend ⟨.always, 8, 9, 10, 5, false⟩) := by decide +kernel
theorem test_word_lkradd : decodeSlot .d 0x0D020929400A = some (.lkradd ⟨.always, 8, 9, 10, 5, .bf16, false⟩) := by decide +kernel
theorem test_word_lkrecv : decodeSlot .d 0x0E0209294001 = some (.lkrecv ⟨.always, 8, 9, 10, 5, true⟩) := by decide +kernel
theorem test_word_lkwait : decodeSlot .d 0x0F02C0000000 = some (.lkwait ⟨.always, 11⟩) := by decide +kernel
theorem test_word_wget : decodeSlot .d 0x100209280004 = some (.wget ⟨.always, 8, 9, 10, 4, false⟩) := by decide +kernel
theorem test_word_wput : decodeSlot .d 0x110209281002 = some (.wput ⟨.always, 8, 9, 10, 2, true⟩) := by decide +kernel
theorem test_word_wexp : decodeSlot .d 0x120209280FFF = some (.wexp ⟨.always, 8, 9, 10, 4095, false⟩) := by decide +kernel
theorem test_word_wsync : decodeSlot .d 0x1302C0000000 = some (.wsync ⟨.always, 11⟩) := by decide +kernel
theorem test_word_txid : decodeSlot .d 0x140240000060 = some (.txid ⟨.always, 9, 96⟩) := by decide +kernel
theorem test_word_txabort : decodeSlot .d 0x150240000001 = some (.txabort ⟨.always, 9, true⟩) := by decide +kernel
theorem test_word_qlaunch : decodeSlot .d 0x160209000000 = some (.qlaunch ⟨.always, 8, 9⟩) := by decide +kernel
theorem test_word_evpost : decodeSlot .d 0x170280000004 = some (.evpost ⟨.always, 10, .pkg⟩) := by decide +kernel
theorem test_word_nop_c : decodeSlot .c 0 = some (.nop .c) := by decide +kernel
theorem test_word_nop_s0 : decodeSlot .s0 0 = some (.nop .s0) := by decide +kernel
theorem test_word_nop_s1 : decodeSlot .s1 0 = some (.nop .s1) := by decide +kernel
theorem test_word_nop_v : decodeSlot .v 0 = some (.nop .v) := by decide +kernel
theorem test_word_nop_l : decodeSlot .l 0 = some (.nop .l) := by decide +kernel
theorem test_word_nop_m : decodeSlot .m 0 = some (.nop .m) := by decide +kernel
theorem test_word_nop_x : decodeSlot .x 0 = some (.nop .x) := by decide +kernel
theorem test_word_nop_d : decodeSlot .d 0 = some (.nop .d) := by decide +kernel
theorem test_micro_step : decodeMicro 3 0x19000000000000000000000000000000 = some (.step ⟨3, true, .csel⟩) := by decide +kernel
theorem test_micro_seta : decodeMicro 3 0x22E0000000000000000000000000ABCD = some (.seta ⟨3, 5, 6, 0xABCD⟩) := by decide +kernel
theorem test_micro_setacc : decodeMicro 3 0x3000000000000000000000000000007F = some (.setacc ⟨3, 127⟩) := by decide +kernel
theorem test_micro_scale : decodeMicro 3 0x4000000000000000000000000000191F = some (.scale ⟨3, true, 9, 31⟩) := by decide +kernel
theorem test_micro_loopu : decodeMicro 3 0x5000000000000000000000001EFF1000 = some (.loopu ⟨3, true, 7, 255, 4096⟩) := by decide +kernel
theorem test_micro_endu : decodeMicro 3 0x60000000000000000000000000000000 = some (.endu 3) := by decide +kernel

/-! ## A small state -/

/-- The reset machine with the shadow of a die of the default size. -/
def fresh0 : State := State.reset.modMem fun m => { m with slots := 117440512 }

/-- Context 0 of core 0 of it, about to issue the bundle at address 0 in a launch of its own. -/
def base : State := fresh0.placeBundle (oneSlot .c 0x100000000022)

/-- The same after a change of context 0. -/
def ctx0 (f : Ctx → Ctx) : State := base.modCtx 0 f

/-- The state a bundle of context 0 reads. -/
def at0 (s : State) : State := (s.portReady s.cur.val).settleNow 0

theorem turn {s : State} (h : decide (s.holder s.cur.val = some 0 ∧ (s.portReady s.cur.val).boundary 0 = none ∧
    ((at0 s).ctx 0).seg.all (fun g => decide (g.lines.length < 64)) = true ∧ ((at0 s).ctx 0).rel = []) = true := by decide +kernel) :
    Turn s 0 (at0 s) :=
  have e := of_decide_eq_true h
  ⟨e.1, e.2.1, rfl, fun g i => by have l := e.2.2.1; rw [i] at l; exact of_decide_eq_true l, e.2.2.2⟩

/-- A closed fact that evaluates to true. -/
theorem dec {p : Prop} [Decidable p] (h : decide p = true := by decide +kernel) : p := of_decide_eq_true h

/-- A scalar register with a fresh residue. -/
def w (v : Word) : SVal := .of v none

/-- The state after an instruction. -/
def after (i : Instr) (s : State) : State := match exec i s with | .next t => t | _ => s

/-- The last result an instruction of context 0 has on its way. -/
def result (i : Instr) (s : State) : Option RVal := ((after i s).ctx 0).fixed.getLast?.map (·.val)

/-- Its scalar value. -/
def word? : Option RVal → Option Word
  | some (.s x) => some x.v
  | _ => none

/-- Two operands in s4 and s5. -/
def two (x y : Word) : State := ctx0 fun c => (c.setS 4 (w x)).setS 5 (w y)

theorem base_turn : Turn base 0 (at0 base) := turn

/-! ## Worked examples of the spec -/

/-- 04 R101: MULH of −1 and 3 is the sign of −3. -/
theorem test_mulh : word? (result (.mulh ⟨.s0, .always, 3, 4, 5⟩) (two (-1) 3)) = some 0xFFFFFFFFFFFFFFFF := by decide +kernel
/-- 04 R101: MULHU of 2^64 − 1 and 3 is 2. -/
theorem test_mulhu : word? (result (.mulhu ⟨.s0, .always, 3, 4, 5⟩) (two (-1) 3)) = some 2 := by decide +kernel
/-- 04 R101: MUL of −1 and 3 is −3. -/
theorem test_mul : word? (result (.mul ⟨.s0, .always, 3, 4, 5⟩) (two (-1) 3)) = some 0xFFFFFFFFFFFFFFFD := by decide +kernel
/-- 04 R102: a division by 0 gives all ones, its remainder the dividend. -/
theorem test_div_zero : word? (result (.div ⟨.s0, .always, 3, 4, 5⟩) (two 7 0)) = some 0xFFFFFFFFFFFFFFFF := by decide +kernel
theorem test_remu_zero : word? (result (.remu ⟨.s0, .always, 3, 4, 5⟩) (two 7 0)) = some 7 := by decide +kernel
/-- 04 R102: −2^63 by −1. -/
theorem test_div_most_negative : word? (result (.div ⟨.s0, .always, 3, 4, 5⟩) (two 0x8000000000000000 (-1))) =
    some 0x8000000000000000 := by decide +kernel
/-- 04 R102: the quotient rounds toward zero, the remainder has the dividend's sign. -/
theorem test_rem_sign : word? (result (.rem ⟨.s0, .always, 3, 4, 5⟩) (two (-7) 2)) = some (-1) := by decide +kernel
/-- 04 R103: a count of 65 shifts by 1. -/
theorem test_shl_modulo : word? (result (.shl ⟨.s0, .always, 3, 4, 5⟩) (two 1 65)) = some 2 := by decide +kernel
/-- 04 R104: BEXT.S s9, s3, 12, 8 of 0xFA123. -/
theorem test_bext : word? (result (.bext ⟨.s0, .always, 9, 4, 12, 7, true⟩) (two 0x0F_A123 0)) = some 0xFFFFFFFFFFFFFFFA := by
  decide +kernel
/-- 04 R104: BINS s9, s3, 0, 4 of the same. -/
theorem test_bins : word? (result (.bins ⟨.s0, .always, 5, 4, 0, 3⟩) (two 0x0F_A123 0xFFFFFFFFFFFFFFFA)) =
    some 0xFFFFFFFFFFFFFFF3 := by decide +kernel
/-- 04 R105: MOVK keeps the other quarters. -/
theorem test_movk : word? (result (.movk ⟨.s0, .always, 4, 3, 0x8000⟩) (two 0x0123456789ABCDEF 0)) = some 0x8000456789ABCDEF := by
  decide +kernel
/-- 04 R110: 500.0 to E4M3 under RTZ with sat is 448. -/
theorem test_fcvt : word? (result (.fcvt ⟨.s0, .always, 6, 4, .e4m3, .fp32, .rtz, true⟩) (two 0x43FA0000 0)) = some 0x7E := by
  decide +kernel
/-- 04 R110: under RNE without sat it is the NaN code. -/
theorem test_fcvt_overflow : word? (result (.fcvt ⟨.s0, .always, 6, 4, .e4m3, .fp32, .rne, false⟩) (two 0x43FA0000 0)) = some 0x7F := by
  decide +kernel
/-- 01 R14: 1.0, −2.5, 0.1 and 2^−8 from FP32. -/
theorem test_convert_bf16_rne : convert .fp32 .bf16 .rne false 0x3F800000 = 0x3F80 ∧
    convert .fp32 .bf16 .rne false 0xC0200000 = 0xC020 ∧
    convert .fp32 .bf16 .rne false 0x3DCCCCCD = 0x3DCD ∧
    convert .fp32 .bf16 .rne false 0x3B800000 = 0x3B80 := by decide +kernel
/-- 01 R14: 1.0, −2.5, 0.1 and 2^−8 from FP32. -/
theorem test_convert_bf16_rtz : convert .fp32 .bf16 .rtz false 0x3F800000 = 0x3F80 ∧
    convert .fp32 .bf16 .rtz false 0xC0200000 = 0xC020 ∧
    convert .fp32 .bf16 .rtz false 0x3DCCCCCD = 0x3DCC ∧
    convert .fp32 .bf16 .rtz false 0x3B800000 = 0x3B80 := by decide +kernel
/-- 01 R14: 1.0, −2.5, 0.1 and 2^−8 from FP32. -/
theorem test_convert_e4m3_rne : convert .fp32 .e4m3 .rne false 0x3F800000 = 0x38 ∧
    convert .fp32 .e4m3 .rne false 0xC0200000 = 0xC2 ∧
    convert .fp32 .e4m3 .rne false 0x3DCCCCCD = 0x1D ∧
    convert .fp32 .e4m3 .rne false 0x3B800000 = 0x2 := by decide +kernel
/-- 01 R14: 1.0, −2.5, 0.1 and 2^−8 from FP32. -/
theorem test_convert_e5m2_rne : convert .fp32 .e5m2 .rne false 0x3F800000 = 0x3C ∧
    convert .fp32 .e5m2 .rne false 0xC0200000 = 0xC1 ∧
    convert .fp32 .e5m2 .rne false 0x3DCCCCCD = 0x2E ∧
    convert .fp32 .e5m2 .rne false 0x3B800000 = 0x1C := by decide +kernel
/-- 01 R14: 1.0, −2.5, 0.1 and 2^−8 from FP32. -/
theorem test_convert_i8_rne : convert .fp32 .i8 .rne false 0x3F800000 = 0x1 ∧
    convert .fp32 .i8 .rne false 0xC0200000 = 0xFE ∧
    convert .fp32 .i8 .rne false 0x3DCCCCCD = 0x0 ∧
    convert .fp32 .i8 .rne false 0x3B800000 = 0x0 := by decide +kernel
/-- 01 R14: 500.0 overflows E4M3 to the NaN code, saturates to 448, is 512 in E5M2 and −128 or 127 in I8. -/
theorem test_convert_overflow : convert .fp32 .e4m3 .rne false 0x43FA0000 = 0x7F ∧ convert .fp32 .e4m3 .rne true 0x43FA0000 = 0x7E ∧
    convert .fp32 .e5m2 .rne false 0x43FA0000 = 0x60 ∧ convert .fp32 .i8 .rne false 0x43FA0000 = 0x80 ∧
    convert .fp32 .i8 .rne true 0x43FA0000 = 0x7F := by decide +kernel
/-- 01 R14: 0.1 under RTZ in E4M3 and under RUP in E5M2; −2.5 under RDN in I8. -/
theorem test_convert_directed : convert .fp32 .e4m3 .rtz false 0x3DCCCCCD = 0x1C ∧ convert .fp32 .e5m2 .rup false 0x3DCCCCCD = 0x2F ∧
    convert .fp32 .i8 .rdn false 0xC0200000 = 0xFD := by decide +kernel
/-- 01 R14: E4M3 rounds to 448 up to 464 and not above; E5M2 is infinite from 61,440. -/
theorem test_convert_edges : convert .fp32 .e4m3 .rne false 0x43E80000 = 0x7E ∧ convert .fp32 .e4m3 .rne false 0x43E80001 = 0x7F ∧
    convert .fp32 .e5m2 .rne false 0x47700000 = 0x7C ∧ convert .fp32 .e5m2 .rne false 0x476FFFFF = 0x7B := by decide +kernel

/-- A vector register. -/
def vec (v : VBits) : VVal := ⟨v, []⟩
/-- Bytes [lo + n − 1 : lo] of a vector result. -/
def bytes? (lo n : Nat) : Option RVal → Option Nat
  | some (.v b _ _) => some (b.toNat / 2 ^ (8 * lo) % 2 ^ (8 * n))
  | _ => none

/-- 05 R123: VQNT.MXI4 of 5.5, −3.25, 0.30078125 and −6.0: bytes 0 and 1, and the scale of block 0. -/
theorem test_vqnt : (let r := result (.vqnt ⟨.always, 3, 2, .mxi4, .rne⟩) (ctx0 fun c => c.setV 2 (vec 0xC0C03E9AC05040B0))
    (bytes? 0 2 r, bytes? 252 4 r)) = (some 0xA0D6, some 0x81) := by decide +kernel
/-- 05 R123: VDQN of that gives 6.0, −3.0, 0 and −6.0. -/
theorem test_vdqn : bytes? 0 8 (result (.vdqn ⟨.always, 4, 3, .mxi4⟩)
    (ctx0 fun c => c.setV 3 (vec (BitVec.ofNat 2048 (0xA0D6 + 0x81 * 2 ^ 2016))))) = some 0xC0C00000C04040C0 := by decide +kernel
/-- 01 R22: the pairwise tree over 2^24, 1, 1, 1 gives 16,777,218. -/
theorem test_vradd : bytes? 0 4 (result (.vradd ⟨⟨.always, 0, false⟩, 5, 3, .fp32, .rne, false⟩)
    (ctx0 fun c => c.setV 3 (vec 0x3F8000003F8000003F8000004B800000))) = some 0x4B800001 := by decide +kernel
/-- 01 R23: from the left the prefixes stay 16,777,216. -/
theorem test_vscan : bytes? 12 4 (result (.vscan ⟨⟨.always, 0, false⟩, 5, 3, .add, .fp32, .rne, false⟩)
    (ctx0 fun c => c.setV 3 (vec 0x3F8000003F8000003F8000004B800000))) = some 0x4B800000 := by decide +kernel
/-- 05 R119: the most negative I8 is itself, and 127 with sat. -/
theorem test_vabs : bytes? 0 1 (result (.vabs ⟨⟨.always, 0, false⟩, 5, 3, .i8, false⟩) (ctx0 fun c => c.setV 3 (vec 0x80))) = some 0x80 ∧
    bytes? 0 1 (result (.vabs ⟨⟨.always, 0, false⟩, 5, 3, .i8, true⟩) (ctx0 fun c => c.setV 3 (vec 0x80))) = some 0x7F := by
  decide +kernel
/-- 05 R121: the special cases +0, −0 and 1.0 of VFRCP. -/
theorem test_vfrcp : bytes? 0 12 (result (.vfrcp ⟨⟨.always, 0, false⟩, 5, 3, .fp32, .rne⟩)
    (ctx0 fun c => c.setV 3 (vec 0x3F8000008000000000000000))) = some 0x3F800000FF8000007F800000 := by decide +kernel
/-- 05 R121: 1 ÷ √0 is +∞, also from −0 it is −∞; of a negative number it is NaN. -/
theorem test_vfrsq : bytes? 0 8 (result (.vfrsq ⟨⟨.always, 0, false⟩, 5, 3, .fp32, .rne⟩)
    (ctx0 fun c => c.setV 3 (vec 0x8000000000000000))) = some 0xFF8000007F800000 := by decide +kernel
/-- 05 R121: VFEXP2 of −3.0 is 0.125. -/
theorem test_vfexp2 : bytes? 0 4 (result (.vfexp2 ⟨⟨.always, 0, false⟩, 5, 3, .fp32, .rne⟩)
    (ctx0 fun c => c.setV 3 (vec 0xC0400000))) = some 0x3E000000 := by decide +kernel
/-- 05 R121: VFLOG2 of 8.0 is 3.0. -/
theorem test_vflog2 : bytes? 0 4 (result (.vflog2 ⟨⟨.always, 0, false⟩, 5, 3, .fp32, .rne⟩)
    (ctx0 fun c => c.setV 3 (vec 0x41000000))) = some 0x40400000 := by decide +kernel

/-- 04 R113: the residue of 0x1234. -/
theorem test_residue : residue 0x1234 = 10 := by decide +kernel

/-- 21 R339: the samples 3, 1, 40, 1,000 and 3 in log mode. -/
theorem test_capture : (let u := [3, 1, 40, 1000, 3].foldl Capture.add { Capture.zero with ctl := 0x80000000 }
    (u.min, u.max, u.count, u.sum, u.bins)) = (1, 1000, 5, 1047, [(1, 1), (2, 2), (6, 1), (10, 1)]) := by decide +kernel

/-- 12 R240: the worked walk: partition 9, VA 0x45_6789_A123, key 5, PA 0x41_2345_6000. -/
def walkState : State :=
  let put (s : State) (a v : Nat) : State := s.writeMem none a 0 (clean (bytesOf 8 v))
  let s := put (put (put (put State.reset 0x100000 0x101001) 0x1018A8 0x102001) 0x1029E0 0x103001) 0x1034D0 0x005000412345602F
  { s with tr := { s.tr with trroot := [(9, 0x100001)], keys := [(5, ⟨true, 0, 9, false⟩)] } }

theorem test_walk : (match walkVA walkState ⟨false, some 9, none, 0, false⟩ 0x456789A123 with
    | .ok e => (e.pa + (0x456789A123 - e.base.toNat), e.size, e.key.toNat, [e.r, e.w, e.x, e.u])
    | _ => (0, 0, 0, [])) = (0x4123456123, 4096, 5, [true, true, false, true]) := by decide +kernel


/-! ## States that meet the hypotheses of the obligations -/

theorem passes_of {x : Ctx} {g : Guard} (h : decide ((x.preg g.pred).p = none ∧ (x.preg g.pred).v ≠ g.pneg) = true := by decide +kernel) : x.passes g := by
  have := of_decide_eq_true h; exact this
theorem fits_of {x : Ctx} {n : SReg} (h : decide ((x.sreg n).r = residue (x.sreg n).v) = true := by decide +kernel) : Fits x n := by
  have := of_decide_eq_true h; exact this
theorem unfit_of {x : Ctx} {n : SReg} (h : decide ((x.sreg n).r = residue (x.sreg n).v) = false := by decide +kernel) : ¬ Fits x n := by
  have := of_decide_eq_false h; exact this
theorem clean_of {b : State} {c : Nat} {n : SReg} (h : decide (((b.ctx c).sreg n).p = none ∧
    ((b.ctx c).sreg n).r = residue ((b.ctx c).sreg n).v) = true := by decide +kernel) : Clean b c n := by
  have := of_decide_eq_true h; exact this
theorem quiet_of {b : State} {c : Nat} (h : ((b.ctx c).seg.isNone && (b.ctx c).vac.isEmpty && (List.range 4).all fun i => (b.ctx (4 * coreOf c + i)).acc.isEmpty) = true
    := by decide +kernel) :
    Quiet b c := by
  simp only [Bool.and_eq_true, Option.isNone_iff_eq_none, List.all_eq_true, List.mem_range, List.isEmpty_iff] at h
  exact ⟨h.1.1, h.1.2, h.2⟩
theorem loopEnd_of {x : Ctx} {pc : BitVec 32} (h : decide (x.ctl.ldepth = 0 ∨ (x.ctl.uiact = true ∧ x.ctl.ldepth.toNat ≤ x.ctl.uidepth.toNat) ∨
    (top x).obj ≠ x.ctl.obj ∨ (top x).stop ≠ pc) = false := by decide +kernel) : ¬ NoLoopEnd x pc := by
  have := of_decide_eq_false h; exact this
theorem noLoopEnd_of {x : Ctx} {pc : BitVec 32} (h : decide (x.ctl.ldepth = 0 ∨ (x.ctl.uiact = true ∧ x.ctl.ldepth.toNat ≤ x.ctl.uidepth.toNat) ∨
    (top x).obj ≠ x.ctl.obj ∨ (top x).stop ≠ pc) = true := by decide +kernel) : NoLoopEnd x pc := by
  have := of_decide_eq_true h; exact this

/-! ### Scalar and vector instructions -/

theorem base_passes : ((at0 base).ctx 0).passes .always := passes_of
theorem base_quiet : Quiet (at0 base) 0 := quiet_of

/-- Every operand register of `base` is clean; a guard on p7, which is 0, passes when inverted. -/
theorem wit_scalar : Turn base 0 (at0 base) ∧ ((at0 base).ctx 0).passes .always ∧ ((at0 base).ctx 0).passes ⟨7, true⟩ ∧
    Fits ((at0 base).ctx 0) 4 ∧ Fits ((at0 base).ctx 0) 63 :=
  ⟨base_turn, base_passes, passes_of, fits_of, fits_of⟩

/-- Operands of each clause of 04 R102: a divisor 0, −2^63 by −1, and the others at their edges. -/
theorem wit_division : ((0x8000000000000000 : Word).toInt = -2 ^ 63 ∧ (0xFFFFFFFFFFFFFFFF : Word).toInt = -1) ∧
    ((1 : Word) ≠ 0 ∧ ¬((0x8000000000000000 : Word).toInt = -2 ^ 63 ∧ (1 : Word).toInt = -1)) ∧
    ((0xFFFFFFFFFFFFFFFF : Word) ≠ 0 ∧ ¬((0x8000000000000001 : Word).toInt = -2 ^ 63 ∧ (0xFFFFFFFFFFFFFFFF : Word).toInt = -1)) := by
  decide +kernel

/-- Fields that reach bit 63. -/
theorem wit_ScalarBitOperations : (Instr.bext ⟨.s0, .always, 9, 3, 63, 0, true⟩).wf = true ∧ (Instr.bext ⟨.s1, .always, 9, 3, 0, 63, false⟩).wf = true ∧
    (Instr.bins ⟨.s0, .always, 9, 3, 63, 0⟩).wf = true ∧ (Instr.bins ⟨.s1, .always, 9, 3, 0, 63⟩).wf = true := by decide +kernel

theorem wit_VectorIntegerOperations : ∀ f ∈ [Fmt.i8, .i16, .i32, .u8],
    (Instr.vadd ⟨⟨.always, 0, false⟩, 5, 3, .reg 4, f, true⟩).wf = true ∧ (Instr.vsub ⟨⟨.always, 0, false⟩, 5, 3, .reg 4, f, true⟩).wf = true ∧
    (Instr.vmul ⟨⟨.always, 0, false⟩, 5, 3, .reg 4, f, true⟩).wf = true ∧ (Instr.vmulh ⟨⟨.always, 0, false⟩, 5, 3, .scalar 4, f, false⟩).wf = true ∧
    (Instr.vmin ⟨⟨.always, 0, false⟩, 5, 3, .scalar 4, f, false⟩).wf = true ∧ (Instr.vmax ⟨⟨.always, 0, false⟩, 5, 3, .scalar 4, f, false⟩).wf = true ∧
    (Instr.vand ⟨⟨.always, 0, false⟩, 5, 3, .reg 4, f, false⟩).wf = true ∧ (Instr.vor ⟨⟨.always, 0, false⟩, 5, 3, .reg 4, f, false⟩).wf = true ∧
    (Instr.vxor ⟨⟨.always, 0, false⟩, 5, 3, .reg 4, f, false⟩).wf = true ∧ (Instr.vshl ⟨⟨.always, 0, false⟩, 5, 3, .reg 4, f, false⟩).wf = true ∧
    (Instr.vshr ⟨⟨.always, 0, false⟩, 5, 3, .reg 4, f, false⟩).wf = true ∧ (Instr.vsar ⟨⟨.always, 0, false⟩, 5, 3, .reg 4, f, false⟩).wf = true ∧
    (f ≠ .u8 → (Instr.vabs ⟨⟨.always, 0, false⟩, 5, 3, f, true⟩).wf = true) := by decide +kernel

theorem wit_VectorSelectionAndPermutes : (Instr.vcmpCc ⟨⟨.always, 1, true⟩, 7, 3, .scalar 4, .u8, .leu⟩).wf = true ∧
    (Instr.vsel ⟨⟨.always, 1, true⟩, 5, 3, 4, .e5m2⟩).wf = true ∧ (Instr.viota ⟨⟨.always, 1, true⟩, 5, 3, .i32⟩).wf = true ∧
    (Instr.vmovi ⟨⟨.always, 1, true⟩, 5, .u8, 0x2000⟩).wf = true ∧ (Instr.vperm ⟨⟨.always, 1, true⟩, 5, 3, 4, .e4m3⟩).wf = true ∧
    (Instr.vbcst ⟨⟨.always, 1, true⟩, 5, 3, .fp32⟩).wf = true ∧ (Instr.vext ⟨.always, 4, 3, 255, .u8⟩).wf = true ∧
    (Instr.vext ⟨.always, 4, 3, 63, .fp32⟩).wf = true ∧ (Instr.vins ⟨.always, 5, 4, 255, .i8⟩).wf = true ∧
    (Instr.vins ⟨.always, 5, 4, 127, .bf16⟩).wf = true ∧ (Instr.vcmpr ⟨⟨.always, 1, true⟩, 5, 3, .i16⟩).wf = true ∧
    (Instr.vexpd ⟨⟨.always, 1, true⟩, 5, 3, .i8⟩).wf = true := by decide +kernel

theorem wit_VectorFloatingPoint : ∀ f ∈ [Fmt.fp32, .bf16], ∀ r ∈ [Rnd.rne, .rup],
    (Instr.vfadd ⟨⟨.always, 0, false⟩, 5, 3, .reg 4, f, r⟩).wf = true ∧ (Instr.vfsub ⟨⟨.always, 0, false⟩, 5, 3, .reg 4, f, r⟩).wf = true ∧
    (Instr.vfmul ⟨⟨.always, 0, false⟩, 5, 3, .scalar 4, f, r⟩).wf = true ∧ (Instr.vfma ⟨⟨.always, 0, false⟩, 5, 3, .reg 4, 6, f, r⟩).wf = true ∧
    (Instr.vfmin ⟨⟨.always, 0, false⟩, 5, 3, .reg 4, f, .rne⟩).wf = true ∧ (Instr.vfmax ⟨⟨.always, 0, false⟩, 5, 3, .reg 4, f, .rne⟩).wf = true ∧
    (Instr.vfabs ⟨⟨.always, 0, false⟩, 5, 3, f, .rne⟩).wf = true ∧ (Instr.vfneg ⟨⟨.always, 0, false⟩, 5, 3, f, .rne⟩).wf = true ∧
    (Instr.vfcmpCc ⟨⟨.always, 0, false⟩, 5, 3, .reg 4, f, .un⟩).wf = true ∧ (Instr.vfrcp ⟨⟨.always, 0, false⟩, 5, 3, f, r⟩).wf = true ∧
    (Instr.vfrsq ⟨⟨.always, 0, false⟩, 5, 3, f, r⟩).wf = true ∧ (Instr.vfexp2 ⟨⟨.always, 0, false⟩, 5, 3, f, r⟩).wf = true ∧
    (Instr.vflog2 ⟨⟨.always, 0, false⟩, 5, 3, f, r⟩).wf = true := by decide +kernel

/-- A narrowing at its last part, a widening at its last part, an equal width. -/
theorem wit_VectorConversions : (Instr.vfcvt ⟨⟨.always, 0, false⟩, 5, 3, .u8, .i32, 3, .rne, true⟩).wf = true ∧
    (Instr.vfcvt ⟨⟨.always, 0, false⟩, 5, 3, .fp32, .e4m3, 3, .rtz, false⟩).wf = true ∧
    (Instr.vfcvt ⟨⟨.always, 0, false⟩, 5, 3, .bf16, .i16, 0, .rtz, false⟩).wf = true := by decide +kernel

theorem wit_VectorReductions : (Instr.vradd ⟨⟨.always, 0, false⟩, 5, 3, .i8, .rne, true⟩).wf = true ∧
    (Instr.vradd ⟨⟨.always, 0, false⟩, 5, 3, .bf16, .rup, false⟩).wf = true ∧ (Instr.vrmax ⟨⟨.always, 0, false⟩, 5, 3, .fp32, .rne, false⟩).wf = true ∧
    (Instr.vrmin ⟨⟨.always, 0, false⟩, 5, 3, .u8, .rne, false⟩).wf = true ∧
    (∀ op ∈ [ScanOp.add, .max, .min], (Instr.vscan ⟨⟨.always, 0, false⟩, 5, 3, op, .i32, .rne, true⟩).wf = true) ∧
    (Instr.vscan ⟨⟨.always, 0, false⟩, 5, 3, .add, .fp32, .rdn, false⟩).wf = true := by decide +kernel

theorem wit_LaneMasksAndAccumulatorRows : Turn base 0 (at0 base) ∧ Quiet (at0 base) 0 ∧
    ((at0 base).coreHolds (coreOf 0) (at0 base).seq = false ∧ mwf 0 (at0 base).mem.acc = true ∧ mwf none (at0 base).mem.accPoison = true ∧
      mwf false (at0 base).mem.accValid = true ∧ (Instr.vacrd ⟨⟨.always, 0, false⟩, 5, 4, .fp32, true, true, .rne, false⟩).wf = true ∧
      (Instr.vacrd ⟨⟨.always, 0, false⟩, 5, 4, .bf16, false, false, .rup, true⟩).wf = true ∧ (Instr.qcnt ⟨.always, 3, 7, .u8⟩).wf = true) :=
  ⟨base_turn, base_quiet, dec⟩

/-! ### Control -/

/-- A loop that ends at 4, with `r` iterations left. -/
def loop4 (r : BitVec 32) (x : Bool) : LoopEntry := ⟨0, 4, r, 0, 0, x⟩

/-- Context 0 with `d` loops open, all equal. -/
def looped (d : BitVec 3) (e : LoopEntry) : Ctx → Ctx := fun c =>
  { c with ctl := { c.ctl with ldepth := d }, loops := (List.range d.toNat).map fun i => (i, e) }

/-- No loop; one with iterations left; the last iteration and the exit of six nested loops whose outer loop goes on, or ends
elsewhere. -/
theorem wit_LoopEndTest : NoLoopEnd (base.ctx 0) 4 ∧
    (¬ NoLoopEnd (looped 1 (loop4 0xFFFFFFFF false) (base.ctx 0)) 4 ∧
      (top (looped 1 (loop4 0xFFFFFFFF false) (base.ctx 0))).remaining ≠ 1 ∧
      (top (looped 1 (loop4 0xFFFFFFFF false) (base.ctx 0))).exit = false) ∧
    (¬ NoLoopEnd (looped 6 (loop4 1 false) (base.ctx 0)) 4 ∧ (top (looped 6 (loop4 1 false) (base.ctx 0))).remaining = 1 ∧
      (looped 6 (loop4 1 false) (base.ctx 0)).ctl.ldepth.toNat ≤ 6 ∧ ¬ NoLoopEnd (looped 5 (loop4 1 false) (base.ctx 0)) 4) ∧
    (¬ NoLoopEnd (looped 1 (loop4 7 true) (base.ctx 0)) 4 ∧ (top (looped 1 (loop4 7 true) (base.ctx 0))).exit = true ∧
      (looped 1 (loop4 7 true) (base.ctx 0)).ctl.ldepth.toNat ≤ 6 ∧ NoLoopEnd (looped 0 (loop4 7 true) (base.ctx 0)) 4) :=
  ⟨noLoopEnd_of, ⟨loopEnd_of, dec⟩,
    ⟨loopEnd_of, dec, dec, loopEnd_of⟩,
    ⟨loopEnd_of, dec, dec, noLoopEnd_of⟩⟩

/-- Context 0 with a link, a loop count and five loops open. -/
def ctlState : State := ctx0 fun c => (looped 5 (loop4 7 false) ((c.setS 4 (w 0x40)).setS 5 (w 0xFFFFFFFF)))

theorem ctl_turn : Turn ctlState 0 (at0 ctlState) := turn
theorem ctl_quiet : Quiet (at0 ctlState) 0 := quiet_of
theorem ctl_passes : ((at0 ctlState).ctx 0).passes .always := passes_of

/-- Six loops open in context 0, a count of 2^32, one of 1. -/
def sixLoops : State := ctx0 fun c => (looped 6 (loop4 7 false) ((c.setS 4 (w 0x100000000)).setS 5 (w 1)))
/-- In a handler that has opened no loop of its own. -/
def inHandler : State := ctx0 fun c =>
  let y := looped 5 (loop4 7 false) c
  { y with ctl := { y.ctl with uiact := true, uidepth := 5 } }

/-- A link in the running object; counts 0, 4095 and 2^32 − 1 at a depth of five; the index of the outermost of them and of one
more; no loop, the handler's, and six loops with the counts 1 and 2^32; words of LEXIT and LIDX with and without other fields. -/
theorem wit_ControlTransfers : Turn ctlState 0 (at0 ctlState) ∧ Quiet (at0 ctlState) 0 ∧ ((at0 ctlState).ctx 0).passes .always ∧
    Clean (at0 ctlState) 0 4 ∧ Clean (at0 ctlState) 0 5 ∧
    ((sv (at0 ctlState) 0 4).extractLsb' 32 8 = ((at0 ctlState).ctx 0).ctl.obj ∧ (sv (at0 ctlState) 0 5).toNat < 2 ^ 32 ∧
      (sv (at0 ctlState) 0 5).setWidth 32 ≠ 0 ∧ ((at0 ctlState).ctx 0).ctl.ldepth.toNat < 6 ∧ ((at0 ctlState).ctx 0).ctl.ldepth ≠ 0 ∧
      ¬ (((at0 ctlState).ctx 0).ctl.uiact = true ∧ ((at0 ctlState).ctx 0).ctl.ldepth = ((at0 ctlState).ctx 0).ctl.uidepth) ∧
      (4 : BitVec 3).toNat < ((at0 ctlState).ctx 0).ctl.ldepth.toNat ∧ (Instr.loop ⟨.always, 0, 1⟩).wf = true ∧
      (Instr.loop ⟨.always, 4095, 4095⟩).wf = true ∧ (Instr.loopr ⟨.always, 5, 4095⟩).wf = true) ∧
    (((at0 ctlState).ctx 0).ctl.ldepth.toNat ≤ (5 : BitVec 3).toNat ∧ ((at0 base).ctx 0).ctl.ldepth = 0) ∧
    (Turn inHandler 0 (at0 inHandler) ∧ Quiet (at0 inHandler) 0 ∧ ((at0 inHandler).ctx 0).passes .always ∧
      (((at0 inHandler).ctx 0).ctl.uiact = true ∧ ((at0 inHandler).ctx 0).ctl.ldepth = ((at0 inHandler).ctx 0).ctl.uidepth)) ∧
    (Turn sixLoops 0 (at0 sixLoops) ∧ Quiet (at0 sixLoops) 0 ∧ ((at0 sixLoops).ctx 0).passes .always ∧ Clean (at0 sixLoops) 0 4 ∧
      Clean (at0 sixLoops) 0 5 ∧ (2 ^ 32 ≤ (sv (at0 sixLoops) 0 4).toNat ∧ (sv (at0 sixLoops) 0 5).toNat < 2 ^ 32 ∧
        sv (at0 sixLoops) 0 5 ≠ 0 ∧ ((at0 sixLoops).ctx 0).ctl.ldepth = 6)) ∧
    (0x1D0240000005 < 2 ^ 48 ∧ 0x1D0240000005 / 2 ^ 40 = 0x1D ∧ 0x080000000000 / 2 ^ 40 = 0x08) :=
  ⟨ctl_turn, ctl_quiet, ctl_passes, clean_of, clean_of, dec, dec,
    ⟨turn, quiet_of, passes_of,
      dec⟩,
    ⟨turn, quiet_of, passes_of,
      clean_of, clean_of, dec⟩, dec⟩

/-- LEXIT in a handler without a loop of its own, and LOOPR past 2^32, fault LOOPSTACK. -/
theorem test_loopstack : ([(Instr.lexit .always, inHandler, (0 : Word)), (.lexit .always, base, 0), (.lidx ⟨.always, 9, 5⟩, inHandler, 0),
      (.loop ⟨.always, 1, 4⟩, sixLoops, 0), (.loopr ⟨.always, 4, 4⟩, sixLoops, 0x100000000), (.loopr ⟨.always, 5, 4⟩, sixLoops, 0)].all fun i =>
    match exec i.1 i.2.1 with
    | .next t => decide ((t.ctx 0).ctl.trapcause = 0x09 ∧ (t.ctx 0).ctl.trapaddr = i.2.2 ∧ (t.ctx 0).ctl.trapmask = 0x01 ∧
      (t.ctx 0).act = .trapWaiting)
    | _ => false) = true := by
  decide +kernel

/-! States with data: page 0 is writable, a code table ends at 0x300, a link to object 1 at 0x200, its entry at 0x410. -/

/-- Bytes of a number placed in memory. -/
def put (a n v : Nat) (s : State) : State :=
  s.modMem fun m => { m with hbm := msetAll hbmDefault m.hbm ((List.range n).zip (bytesOf n v) |>.map fun e => (a + e.1, e.2)) }

/-- `base` with the data, after a change of context 0. -/
def rich (f : Ctx → Ctx) : State :=
  let s := base.modCtx 0 fun c => f { c with ctl := { c.ctl with cbase := 0x300, otbase := 0x400 } }
  put 0x2F8 4 0x80 (put 0x200 8 0x100000040 (put 0x410 16 (0x500 + (1 <<< 80))
    { s with tr := { s.tr with tlb := { idTlb with w := true } :: s.tr.tlb } }))

/-- s4 = 1 (a case of BRI), s5 = the link's address, s6 = a link to object 1. -/
def richState : State := rich fun c => ((c.setS 4 (w 1)).setS 5 (w 0x200)).setS 6 (w 0x100000040)

theorem rich_turn : Turn richState 0 (at0 richState) := turn
theorem rich_quiet : Quiet (at0 richState) 0 := quiet_of
theorem rich_passes : ((at0 richState).ctx 0).passes .always := passes_of

theorem got_of {g : Got} (n : Nat) (h : (match g with | .ok b _ => (tagOf b).isNone && valOf b == n | _ => false) = true) :
    ∃ m t, g = .ok m t ∧ tagOf m = none ∧ valOf m = n := by
  cases g <;> simp_all
theorem go_of {g : Go} (h : (match g with | .ok k _ => k.isSome | _ => false) = true) : ∃ k note, g = .ok (some k) note := by
  rcases g with _ | _ | _ | ⟨k, note⟩ <;> simp only [Bool.false_eq_true] at h
  exact ⟨k.get h, note, by simp⟩

/-- Context 0 in `a`. -/
def acting (a : Act) : State := ctx0 fun c => { c with act := a }

theorem wit_TransfersThroughMemory : Turn richState 0 (at0 richState) ∧ Quiet (at0 richState) 0 ∧
    ((at0 richState).ctx 0).passes .always ∧ Clean (at0 richState) 0 4 ∧ Clean (at0 richState) 0 5 ∧ Clean (at0 richState) 0 6 ∧
    ((sv (at0 richState) 0 4).toNat < 2 ∧ (sv (at0 richState) 0 5).toNat % 8 = 0 ∧
      (((at0 richState).ctx 0).ctl.cbase.setWidth 64 - BitVec.ofNat 64 (4 * (0 + (sv (at0 richState) 0 4).toNat + 1)) : Word) = 0x2F8) ∧
    (∃ m t, (at0 richState).readNow 0 0x2F8 4 = .ok m t ∧ tagOf m = none ∧ valOf m = 0x80) ∧
    (∃ m t, (at0 richState).readNow 0 (sv (at0 richState) 0 5) 8 = .ok m t ∧ tagOf m = none ∧ valOf m = 0x100000040) ∧
    (∃ k note, (at0 richState).goRead 0 (BitVec.ofNat 64 0x100000040) = .ok (some k) note) ∧
    (∃ k note, (at0 richState).goRead 0 (sv (at0 richState) 0 6) = .ok (some k) note) ∧
    ((acting (.blocked (.object 0x40 none))).ctx 0).act = .blocked (.object 0x40 none) ∧
    ((acting (.blocked (.callx 3 8 0x100000040 (some (0x500, 0, 1))))).ctx 0).act = .blocked (.callx 3 8 0x100000040 (some (0x500, 0, 1))) :=
  ⟨rich_turn, rich_quiet, rich_passes, clean_of, clean_of, clean_of,
    dec, got_of _ dec, got_of _ dec, go_of dec, go_of dec,
    dec, dec⟩

/-- A supervisor's context with STATUS as it reads in s4, and with a bit of its read-only level changed in s5. -/
def statusState : State := ctx0 fun c =>
  let y := { c with ctl := { c.ctl with priv := 1 } }
  let v := readCtl (base.modCtx 0 fun _ => y) 0 0x000
  (y.setS 4 (w v)).setS 5 (w (v ^^^ 0x400))

/-- A register of its own context, one of supervisor privilege and one that no MTC writes; STATUS written with and without a
change of a read-only field. -/
theorem wit_PredicatesAndControlRegisters : Turn base 0 (at0 base) ∧ Quiet (at0 base) 0 ∧ ((at0 base).ctx 0).passes .always ∧
    (((at0 base).ctx 0).evtAcq = [] ∧ ctlWritable ((at0 base).ctx 0).ctl.priv 0x010 = true ∧ sp (at0 base) 0 4 = none ∧
    ctlWritable ((at0 base).ctx 0).ctl.priv 0x028 = false ∧ ctlWritable ((at0 base).ctx 0).ctl.priv 0xFFF = false ∧
    (base.ctx 0).act ≠ .free ∧ (0x60 : Word).extractLsb' 4 3 ≠ 7) ∧
    Turn statusState 0 (at0 statusState) ∧ Quiet (at0 statusState) 0 ∧ ((at0 statusState).ctx 0).passes .always ∧
    (ctlWritable ((at0 statusState).ctx 0).ctl.priv 0x000 = true ∧
      (∀ n ∈ [(4 : SReg), 5], sp (at0 statusState) 0 n = none) ∧
      (sv (at0 statusState) 0 4 ^^^ readCtl (at0 statusState) 0 0x000) &&& 0xFFFF000C00 = 0 ∧
      (sv (at0 statusState) 0 5 ^^^ readCtl (at0 statusState) 0 0x000) &&& 0xFFFF000C00 ≠ 0) :=
  ⟨base_turn, base_quiet, base_passes, dec, turn, quiet_of, passes_of, dec⟩

/-- A context that waits for its drain with one result on its way, or none. -/
def halting (l : List Res) : State := ctx0 fun c => { c with act := .halting, fixed := l }

theorem wit_YieldHaltAndTrap : Turn base 0 (at0 base) ∧ Quiet (at0 base) 0 ∧ ((at0 base).ctx 0).passes .always ∧
    ((at0 base).ctx 0).dfaults = [] ∧
    (((halting []).ctx 0).act = .halting ∧ (halting []).drained 0 = true ∧ ((halting []).ctx 0).fixed = []) ∧
    (((halting [⟨9, 0, 0, .s 4, .s (w 7)⟩]).ctx 0).act = .halting ∧ (halting [⟨9, 0, 0, .s 4, .s (w 7)⟩]).drained 0 = true ∧
      ((halting [⟨9, 0, 0, .s 4, .s (w 7)⟩]).ctx 0).fixed = [⟨9, 0, 0, .s 4, .s (w 7)⟩] ∧ (4 : SReg) ≠ 0 ∧ w 7 ≠ SVal.zero) :=
  ⟨base_turn, base_quiet, base_passes, dec⟩

/-- Interrupts enabled, one pending, the handler in the running object. -/
def uiState : State := ctx0 fun c => { c with ctl := { c.ctl with uie := true, uipend := 0x80000000, uimask := 0x80000000, uivec := 0x80 } }
/-- Inside a handler. -/
def uiInside : State := ctx0 fun c => { c with ctl := { c.ctl with uiact := true, uiret := 0x40 } }
/-- An RTI that waits, before and after its target is read. -/
def uiLeaving (w : Wait) : State := ctx0 fun c =>
  { c with act := .blocked w, ctl := { c.ctl with uiact := true, uiret := 0x40 } }
/-- Inside a handler with a load on its way. -/
def uiBusy : State := ctx0 fun c =>
  { c with ctl := { c.ctl with uiact := true, uiret := 0x40 }, land := [⟨9, 4, 0, 3, .s 5, 0, none, false, none⟩] }

theorem wit_UserInterrupts : ((uiState.ctx 0).act = .ready ∧ (uiState.ctx 0).causes = [] ∧ (uiState.ctx 0).parkReq = false ∧
      (uiState.ctx 0).rel = [] ∧ (uiState.ctx 0).seg = none ∧ (uiState.ctx 0).evtAcq = [] ∧ (uiState.ctx 0).ctl.uie = true ∧ (uiState.ctx 0).ctl.uiact = false ∧
      (uiState.ctx 0).ctl.uipend &&& (uiState.ctx 0).ctl.uimask ≠ 0 ∧ (uiState.ctx 0).held ≤ 24) ∧
    uiState.goRead 0 (uiState.ctx 0).ctl.uivec = .ok none id ∧
    Turn uiInside 0 (at0 uiInside) ∧ Quiet (at0 uiInside) 0 ∧ ((at0 uiInside).ctx 0).passes .always ∧
    (((at0 uiInside).ctx 0).inFlight = false ∧ ((at0 uiInside).ctx 0).ctl.uiact = true ∧ ((at0 uiInside).ctx 0).ctl.ldepth = ((at0 uiInside).ctx 0).ctl.uidepth) ∧
    (at0 uiInside).goRead 0 ((at0 uiInside).ctx 0).ctl.uiret = .ok none id ∧
    (Turn uiBusy 0 (at0 uiBusy) ∧ Quiet (at0 uiBusy) 0 ∧ ((at0 uiBusy).ctx 0).passes .always ∧
      (((at0 uiBusy).ctx 0).inFlight = true ∧ ((at0 uiBusy).ctx 0).ctl.uiact = true ∧
        ((at0 uiBusy).ctx 0).ctl.ldepth = ((at0 uiBusy).ctx 0).ctl.uidepth)) ∧
    (∀ a ∈ [Wait.rtiWait 0, .rti 0 none false], ((uiLeaving a).ctx 0).act = .blocked a ∧
      ((uiLeaving a).ctx 0).landHandler.land = []) :=
  ⟨dec, State.goRead_same dec, turn,
    quiet_of, passes_of, dec, State.goRead_same dec, ⟨turn, quiet_of, passes_of, dec⟩,
    dec⟩

/-! ### Synchronisation and memory -/

theorem check_of {g : Checked} (h : (match g with | .ok l => !l.isEmpty | _ => false) = true) : ∃ d l, g = .ok (d :: l) := by
  rcases g with _ | _ | ⟨_ | ⟨d, l⟩⟩ <;> simp_all
theorem checkOk_of {g : Checked} (h : (g matches .ok _) = true) : ∃ l, g = .ok l := by
  cases g <;> simp_all

/-- Page 0 writable, after a change of context 0. -/
def writable (f : Ctx → Ctx) : State :=
  let s := ctx0 f
  { s with tr := { s.tr with tlb := { idTlb with w := true } :: s.tr.tlb } }

def monAt (l : Option Target) (hit filter : Bool) : State := ctx0 fun c => { c with mon := ⟨l, hit, filter⟩ }
def waitAt (hit filter : Bool) (dl : Option Nat) : State :=
  ctx0 fun c => { c with mon := ⟨some (.mem 64 0), hit, filter⟩, act := .blocked (.mwait 3 dl) }

/-- Monitors: an address whose line is read and watched; MWAIT without a line, after a hit, after a filter hit, and neither; a
wait after a hit, after a filter hit, and past its deadline. -/
theorem wit_Monitors : Turn (two 0x47 0) 0 (at0 (two 0x47 0)) ∧ Quiet (at0 (two 0x47 0)) 0 ∧ ((at0 (two 0x47 0)).ctx 0).passes .always ∧
    Clean (at0 (two 0x47 0)) 0 4 ∧
    (∃ d l, (at0 (two 0x47 0)).check 0 ((at0 (two 0x47 0)).who 0) .read 0 none [⟨0, sv (at0 (two 0x47 0)) 0 4 &&& ~~~63, 64, 0, 0⟩] = .ok (d :: l)) ∧
    Target.watchable (coreOf 0) (.mem 64 0) = true ∧ Turn (monAt none false false) 0 (at0 (monAt none false false)) ∧
    Turn (monAt (some (.mem 64 0)) true false) 0 (at0 (monAt (some (.mem 64 0)) true false)) ∧
    Turn (monAt (some (.mem 64 0)) false true) 0 (at0 (monAt (some (.mem 64 0)) false true)) ∧
    Turn (monAt (some (.mem 64 0)) false false) 0 (at0 (monAt (some (.mem 64 0)) false false)) ∧
    (((waitAt true false none).ctx 0).act = .blocked (.mwait 3 none) ∧ ((waitAt true false none).ctx 0).mon.hit = true ∧
      ((waitAt false true none).ctx 0).mon.hit = false ∧ ((waitAt false true none).ctx 0).mon.filter = true ∧
      ((waitAt false false (some 0)).ctx 0).act = .blocked (.mwait 3 (some 0)) ∧ 0 ≤ (waitAt false false (some 0)).cycle ∧
      ((waitAt false false (some 0)).ctx 0).mon.hit = false) :=
  ⟨turn, quiet_of, passes_of,
    clean_of, check_of dec, dec,
    turn, turn,
    turn, turn,
    dec⟩

/-- A launch granted `n` barriers, with arrivals of context 0. -/
def barred (n : Nat) (a : List Arrival) (x : Act) : State :=
  (ctx0 fun c => { c with arrivals := a, act := x }).modLaunch placedHall fun l => { l with nbars := n }

/-- Context 0 has acquired a store that context 4 has not performed. -/
def hostFence : State :=
  { ctx0 fun c => { c with deps := [⟨0, 4, 3⟩] } with seq := 5 }.modCtx 4 fun c => { c with
    acc := [⟨3, .store, .relaxed, .ctx, [⟨0, 0x138, .mem 0x138 0, 8, 0x55, 0, none, false⟩], .none, some placedHall, 0⟩] }

/-- The last granted barrier; the first that is not; a wait before and after its phase; a phase of one participant. -/
theorem wit_BarriersAndFences : (Turn hostFence 0 (at0 hostFence) ∧ Quiet (at0 hostFence) 0 ∧ ((at0 hostFence).ctx 0).passes .always ∧
    (at0 hostFence).fenced 0 (at0 hostFence).seq = true ∧ ((at0 (barred 16 [] .ready)).ctx 0).deps = []) ∧
    Turn (barred 16 [] .ready) 0 (at0 (barred 16 [] .ready)) ∧ Quiet (at0 (barred 16 [] .ready)) 0 ∧
    ((at0 (barred 16 [] .ready)).ctx 0).passes .always ∧
    (at0 (barred 16 [] .ready)).barMisuse 0 ⟨.always, 15, .clu⟩ true = false ∧
    (at0 (barred 16 [⟨15, .clu, 0, false, []⟩] .ready)).barMisuse 0 ⟨.always, 15, .clu⟩ false = false ∧
    (at0 (barred 16 [⟨15, .clu, 0, true, []⟩] .ready)).barMisuse 0 ⟨.always, 15, .clu⟩ false = false ∧
    (at0 (barred 15 [] .ready)).barMisuse 0 ⟨.always, 15, .clu⟩ true = true ∧
    (at0 (barred 16 [] .ready)).barMisuse 0 ⟨.always, 15, .clu⟩ false = true ∧
    (((at0 (barred 16 [⟨15, .clu, 0, true, []⟩] .ready)).ctx 0).arrival 15 = some ⟨15, .clu, 0, true, []⟩) ∧
    (((at0 (barred 16 [⟨15, .clu, 0, false, []⟩] .ready)).ctx 0).arrival 15 = some ⟨15, .clu, 0, false, []⟩) ∧
    (∀ x ∈ [Act.ready, .blocked (.barrier 15 .clu)], ((barred 16 [⟨15, .clu, 0, false, []⟩] x).launchOf 0).isSome = true ∧
      ((barred 16 [⟨15, .clu, 0, false, []⟩] x).ctx 0).act = x ∧
      (([0] : List Nat).filter fun d => sameInst .clu 0 d) = [0] ∧ ((barred 16 [⟨15, .clu, 0, false, []⟩] x).ctx 0).acc = [] ∧
      ((barred 16 [⟨15, .clu, 0, false, []⟩] x).ctx 0).deps = []) :=
  ⟨⟨turn, quiet_of, passes_of, dec⟩, turn, quiet_of, passes_of, dec⟩

/-- Base 0x100 in s4, −8 in s5 and data in s6; v1 holds indices and q1 every lane. -/
def memState : State := writable fun c =>
  let c := ((c.setS 4 (w 0x100)).setS 5 (w 0xFFFFFFFFFFFFFFF8)).setS 6 (w 0x1122334455667788)
  { c with regs := { c.regs with q := [(1, ⟨BitVec.allOnes 256, none⟩)] } }

theorem mem_turn : Turn memState 0 (at0 memState) := turn
theorem mem_passes : ((at0 memState).ctx 0).passes .always := passes_of
theorem mem_clean : Clean (at0 memState) 0 4 ∧ Clean (at0 memState) 0 5 ∧ Clean (at0 memState) 0 6 :=
  ⟨clean_of, clean_of, clean_of⟩

theorem wit_ScalarLoadsAndStores : Turn memState 0 (at0 memState) ∧ ((at0 memState).ctx 0).passes .always ∧
    (Clean (at0 memState) 0 4 ∧ Clean (at0 memState) 0 5 ∧ Clean (at0 memState) 0 6) ∧ (6 ≤ landL 140 ∧ ((at0 memState).ctx 0).held < 32) ∧
    (∃ l, (at0 memState).check 0 ((at0 memState).who 0) .read 8 (some (landL 140)) [⟨0, scalarVa (at0 memState) 0 4 5 0x80 1, 8, 0, 0⟩] = .ok l) ∧
    (∃ l, (at0 memState).check 0 ((at0 memState).who 0) .write 8 none
      [⟨0, scalarVa (at0 memState) 0 4 5 0x7F 8, 8, (sv (at0 memState) 0 6).toNat % 2 ^ (8 * 8), 0⟩] = .ok l) :=
  ⟨mem_turn, mem_passes, mem_clean, dec, checkOk_of dec, checkOk_of dec⟩

/-- Every lane active, at a stride of 0 for the strided forms. -/
theorem wit_VectorLoadsAndStores : Turn memState 0 (at0 memState) ∧ ((at0 memState).ctx 0).passes .always ∧
    (Clean (at0 memState) 0 4 ∧ Clean (at0 memState) 0 0 ∧ (((at0 memState).ctx 0).qreg 1).p = none) ∧
    (6 ≤ landL 140 ∧ ((at0 memState).ctx 0).held < 32) ∧
    (let e := elements (at0 memState) 0 1 8 (256 / 8) 8 (fun i => BitVec.ofInt 64 ((sv (at0 memState) 0 4).toInt + i * 8)) (fun _ => 0)
     e.length = 32 ∧ (∀ d ∈ e, ∀ j < (8 + 3) / 4, poiAt (((at0 memState).ctx 0).vreg 1).p (8 * d.lane / 4 + j) = none) ∧
     (match (at0 memState).check 0 ((at0 memState).who 0) .read 8 (some (landL 140)) e with | .ok _ => true | _ => false) = true ∧
     (match (at0 memState).check 0 ((at0 memState).who 0) .write 8 none e with | .ok _ => true | _ => false) = true) ∧
    (let e := elements (at0 memState) 0 1 4 (min 64 (256 / 4)) 4 (fun _ => BitVec.ofInt 64 (sv (at0 memState) 0 4).toInt) (fun _ => 1)
     e.length = 64 ∧ (∀ d ∈ e, poiAt (((at0 memState).ctx 0).vreg 1).p (4 * d.lane / 4) = none) ∧
     (match (at0 memState).check 0 ((at0 memState).who 0) .read 4 (some (landL 140)) e with | .ok _ => true | _ => false) = true ∧
     (match (at0 memState).check 0 ((at0 memState).who 0) .write 4 none e with | .ok _ => true | _ => false) = true ∧
     (match (at0 memState).check 0 ((at0 memState).who 0) (.atomic .add 4 false) 4 none e with | .ok _ => true | _ => false) = true) :=
  ⟨mem_turn, mem_passes, ⟨clean_of, clean_of, dec⟩, dec,
    dec, dec⟩

theorem wit_AtomicsAndScaleLoads : Turn memState 0 (at0 memState) ∧ ((at0 memState).ctx 0).seg = none ∧
    ((at0 memState).ctx 0).passes .always ∧ (Clean (at0 memState) 0 4 ∧ Clean (at0 memState) 0 5 ∧ Clean (at0 memState) 0 6) ∧
    ((3 : SReg) ≠ 0 → 6 ≤ landL 140 ∧ ((at0 memState).ctx 0).held < 32) ∧ (6 ≤ landX 63 ∧ ((at0 memState).ctx 0).held < 32) ∧
    (∃ l, (at0 memState).check 0 ((at0 memState).who 0) (.atomic .add 8 true) 8 (some (landL 140))
      [⟨0, scalarVa (at0 memState) 0 4 5 0 8, 8, 1, 0⟩] = .ok l) ∧
    (∃ l, (at0 memState).check 0 ((at0 memState).who 0) (.atomic .add 4 false) 4 none [⟨0, scalarVa (at0 memState) 0 4 5 0 4, 4, 1, 0⟩] = .ok l) ∧
    (∃ l, (at0 memState).check 0 ((at0 memState).who 0) (.atomic .cas 8 true) 8 (some (landL 140))
      [⟨0, BitVec.ofInt 64 ((sv (at0 memState) 0 4).toInt + (1 : BitVec 8).toInt * 8), 8, 1, 2⟩] = .ok l) ∧
    (∃ l, (at0 memState).check 0 ((at0 memState).who 0) .read 32 (some (landX 63))
      [⟨0, BitVec.ofInt 64 ((sv (at0 memState) 0 4).toInt + (112 : BitVec 8).toInt * 32), 32, 0, 0⟩] = .ok l) ∧
    (∃ l, (at0 memState).check 0 ((at0 memState).who 0) .read 0 (some (landX 63))
      [⟨0, BitVec.ofInt 64 ((sv (at0 memState) 0 4).toInt + (0 : BitVec 8).toInt * 32), 1, 0, 0⟩] = .ok l) :=
  ⟨mem_turn, dec, mem_passes, mem_clean, dec, dec, checkOk_of dec,
    checkOk_of dec, checkOk_of dec, checkOk_of dec, checkOk_of dec⟩

/-- s4 poisoned with tag 0x0123, s5 with a wrong residue, s6 odd. -/
def badState : State := writable fun c => ((c.setS 4 ⟨8, residue 8, some (.mem 0x123)⟩).setS 5 ⟨8, residue 9, none⟩).setS 6 (w 0x101)

theorem wit_ScalarAccessTraps : Turn badState 0 (at0 badState) ∧ Quiet (at0 badState) 0 ∧ ((at0 badState).ctx 0).held < 32 ∧
    ((at0 badState).ctx 0).passes .always ∧ 6 ≤ landL 6 ∧ pmeet (sp (at0 badState) 0 4) (sp (at0 badState) 0 5) = some (.mem 0x123) ∧
    (sp (at0 badState) 0 5 = none ∧ ¬ Fits ((at0 badState).ctx 0) 5) ∧
    (Clean (at0 badState) 0 6 ∧ Clean (at0 badState) 0 0 ∧ (scalarVa (at0 badState) 0 6 0 0 2).toNat % 2 ≠ 0 ∧
      (scalarVa (at0 badState) 0 6 0 0 8).toNat % 8 ≠ 0) :=
  ⟨turn, quiet_of, dec,
    passes_of, dec, dec, ⟨dec, unfit_of⟩,
    clean_of, clean_of, dec⟩

/-- A store of the launch to the last word of line 4, which its shadow holds. -/
def storing : Access := ⟨3, .store, .relaxed, .ctx, [⟨0, 0x138, .mem 0x138 0, 8, 0x55, 0, none, false⟩], .none, some placedHall, 0⟩
def storeState : State :=
  ((ctx0 fun c => { c with acc := [storing] }).modMem fun m => { m with
    shadow := [⟨4, placedHall, none, ⟨[], [], none⟩⟩], filter := [4] })

/-- An atomic that fetches or not, 8 or 4 bytes wide, on that line. -/
def atomicElem (n : Nat) : Elem := ⟨0, 0x138, .mem 0x138 0, n, 0x55, 0, none, false⟩
def atomically (n : Nat) (f : LandForm) : Access := ⟨3, .atomic .minu, .relaxed, .ctx, [atomicElem n], f, some placedHall, 0⟩
def atomicState (n : Nat) (f : LandForm) : State :=
  ((ctx0 fun c => { c with acc := [atomically n f] }).modMem fun m => { m with
    shadow := [⟨4, placedHall, none, ⟨[], [], none⟩⟩], filter := [4] })

theorem wit_AtomicPerforms : ∀ n ∈ [4, 8], ∀ f ∈ [LandForm.none, .zext 5], ((atomicState n f).ctx 0).acc = [atomically n f] ∧
    ((atomicState n f).ctx 0).col = [] ∧ (∀ i < 4, 4 * coreOf 0 + i ≠ 0 → ((atomicState n f).ctx (4 * coreOf 0 + i)).acc = []) ∧
    (atomicState n f).windowAt (atomicElem n).tgt = none ∧ 0x138 % n = 0 ∧
    ((atomicState n f).launch placedHall).any (fun l => decide (l.state = .running) && !l.excl) = true ∧
    (atomicState n f).mem.reported (0x138 / 64) = true ∧
    ((atomicState n f).mem.entry (0x138 / 64) placedHall).map (·.val) = some ⟨[], [], none⟩ ∧ none = (atomicState n f).tr.material 0 ∧
    ((⟨[], [], none⟩ : LineVal).word (0x138 / 8 % 8)).2 = none ∧ ((atomicState n f).ctx 0).act ≠ .free ∧
    (atomicState n f).mayPerform 0 (atomically n f) (atomicElem n) = true := by decide +kernel

/-- A load of a byte, and its data on the way. -/
def loading (g : Option (Nat × List (Nat × Tag))) (d : Bool) : Access :=
  ⟨3, .load, .relaxed, .ctx, [⟨0, 0x13F, .mem 0x13F 0, 1, 0, 0, g, d⟩], .zext 5, some placedHall, 0⟩
def loadState (g : Option (Nat × List (Nat × Tag))) (d : Bool) : State :=
  ctx0 fun c => { c with acc := [loading g d], land := [⟨200, 4, 0, 3, .s 5, 0x13F, none, false, none⟩] }

theorem wit_AccessesPerform : ((base.ctx 0).act ≠ .free ∧ (base.ctx 0).seg = none) ∧
    ((storeState.ctx 0).acc = [storing] ∧ (storeState.ctx 0).col = [] ∧
      (∀ i < 4, 4 * coreOf 0 + i ≠ 0 → (storeState.ctx (4 * coreOf 0 + i)).acc = []) ∧ 0x138 % 8 = 0 ∧
      (storeState.launch placedHall).any (fun l => decide (l.state = .running) && !l.excl) = true ∧ storeState.mem.reported (0x138 / 64) = true ∧
      (storeState.mem.entry (0x138 / 64) placedHall).map (·.val) = some ⟨[], [], none⟩ ∧ none = storeState.tr.material 0 ∧
      ((⟨[], [], none⟩ : LineVal).word (0x138 / 8 % 8)).2 = none ∧ (storeState.ctx 0).act ≠ .free ∧
      storeState.mayPerform 0 storing ⟨0, 0x138, .mem 0x138 0, 8, 0x55, 0, none, false⟩ = true) ∧
    (((loadState none false).ctx 0).acc = [loading none false] ∧ ((loadState none false).ctx 0).col = [] ∧
      ((loadState none false).ctx 0).seg = none ∧ ((loadState none false).ctx 0).rel = [] ∧ (∀ i < 4, 4 * coreOf 0 + i ≠ 0 → ((loadState none false).ctx (4 * coreOf 0 + i)).acc = []) ∧
      (loadState none false).mayPerform 0 (loading none false) ⟨0, 0x13F, .mem 0x13F 0, 1, 0, 0, none, false⟩ = true) ∧
    (((loadState (some (7, [])) true).ctx 0).act ≠ .free ∧ ((loadState (some (7, [])) true).ctx 0).acc = [loading (some (7, [])) true] ∧
      ((loadState (some (7, [])) true).ctx 0).land = [⟨200, 4, 0, 3, .s 5, 0x13F, none, false, none⟩]) := by decide +kernel

/-! ### The matrix unit -/

/-- Context 0 granted the scratchpad and the stores, its matrix side changed, with micro-words `u` and routine entry `e`. -/
def mtxState (f : Mtx → Mtx) (u : SMap (BitVec 128)) (e : BitVec 32) : State :=
  ((ctx0 fun c => { c with grant := ⟨0, 8, 0, 1024, 0, 256⟩, mtx := f c.mtx }).modMem fun m => { m with
    ucode := u, rtable := mset 0 [] 255 e }).modCore 0 fun k => { k with grants := 0x8080808080808080 }

/-- The queue holds one command. -/
def queued (op : MtxOp) : State := mtxState (fun m => { m with queue := [⟨op, 0, 0⟩] }) [] 0

theorem mtx_next {s : State} {op : MtxOp} (h : (decide ((s.ctx 0).mtx.queue = [⟨op, 0, 0⟩]) && !s.fenced 0 0 &&
    (List.range 4).all fun i => i == 0 || ((s.ctx i).mtx.queue.isEmpty && (s.ctx i).mtx.run.isNone)) = true
    := by decide +kernel) : MtxNext s 0 op [] := by
  simp only [Bool.and_eq_true, decide_eq_true_eq, Bool.not_eq_true', List.all_eq_true, List.mem_range, Bool.or_eq_true, beq_iff_eq,
    List.isEmpty_iff, Option.isNone_iff_eq_none] at h
  refine ⟨⟨⟨op, 0, 0⟩, rfl, h.1⟩, fun i hi hn => ?_⟩
  have e : 4 * coreOf 0 + i = i := Nat.zero_add i
  rw [e] at hn ⊢
  exact (h.2 i hi).resolve_left hn

theorem read_of {α β : Type} {g : Except α β} (h : g.isOk = true) : ∃ l, g = .ok l := by
  cases g <;> simp_all [Except.isOk, Except.toBool]

/-- m3 poisoned. -/
def mtxPoison : State := ctx0 fun c => { c with grant := ⟨0, 8, 0, 1024, 0, 255⟩, regs := { c.regs with m := [(3, ⟨0, some (.mem 9)⟩)] } }
def mtxFull : State := mtxState (fun m => { m with queue := List.replicate 8 ⟨.mswp, 0, 0⟩ }) [] 0

/-- The last routine and word of a grant and the first outside; a full queue; a poisoned image register. -/
theorem wit_MatrixCommandsQueue : Turn mtxPoison 0 (at0 mtxPoison) ∧ Quiet (at0 mtxPoison) 0 ∧ ((at0 mtxPoison).ctx 0).passes .always ∧
    (((at0 mtxPoison).ctx 0).seg = none ∧ (at0 mtxPoison).accepts 0 = true ∧ ((at0 mtxPoison).ctx 0).mtx.queue.length < 8 ∧
      (254 : BitVec 8).toNat < ((at0 mtxPoison).ctx 0).grant.reCount ∧ ((at0 mtxPoison).ctx 0).grant.reCount ≤ (255 : BitVec 8).toNat ∧
      (1023 : BitVec 10).toNat < ((at0 mtxPoison).ctx 0).grant.uwCount ∧ ((base.ctx 0).grant.uwCount ≤ (0 : BitVec 10).toNat) ∧
      (((at0 mtxPoison).ctx 0).mreg 3).p = some (.mem 9) ∧ (((at0 mtxPoison).ctx 0).mreg 4).p = none) ∧
    Turn mtxFull 0 (at0 mtxFull) ∧ Quiet (at0 mtxFull) 0 ∧ ((at0 mtxFull).ctx 0).mtx.queue.length = 8 :=
  ⟨turn, quiet_of, passes_of,
    dec, turn, quiet_of, dec⟩

/-- A recorded fault of the matrix unit. -/
def mtxDeferred : State := ctx0 fun c => { c with dfaults := [⟨.mtx, 0, ⟨.align, 0x10, 0, none⟩⟩] }

theorem wit_MatrixResultsAndSync : Turn badState 0 (at0 badState) ∧ Quiet (at0 badState) 0 ∧ ((at0 badState).ctx 0).passes .always ∧
    ((∀ d ∈ ((at0 badState).ctx 0).dfaults, d.unit ≠ .mtx) ∧ ((at0 badState).ctx 0).mtx.queue = []) ∧
    (((at0 mtxFull).ctx 0).mtx.queue ≠ [] ∧ (∀ d ∈ ((at0 mtxFull).ctx 0).dfaults, d.unit ≠ .mtx)) ∧
    Turn mtxDeferred 0 (at0 mtxDeferred) ∧ Quiet (at0 mtxDeferred) 0 ∧ ((at0 mtxDeferred).ctx 0).dfaults = [⟨.mtx, 0, ⟨.align, 0x10, 0, none⟩⟩] ∧
    (((acting (.blocked .msync)).ctx 0).act = .blocked .msync ∧ ((acting (.blocked .msync)).ctx 0).mtx.queue = []) :=
  ⟨turn, quiet_of, passes_of,
    dec, dec,
    turn, quiet_of, dec⟩

/-- A microprogram image at scratchpad offset 0x20 of `n` words, all SETACC. -/
def imageState (n : Nat) (m : MVal) : State :=
  (queued (.mupld m 0 1023)).modMem fun x => { x with
    spad := [(4, BitVec.ofNat 64 n), (7, 0x3000000000000000)], spadValid := [(0, true)] }

/-- MLDW of a poisoned, a misaligned and a good image; an image of one word into the last word of the grant; a count of 0. -/
theorem wit_MatrixCommandsRunAndLoad : (base.ctx 0).act = .ready ∧
    MtxNext (queued (.mldix ⟨0, []⟩)) 0 (.mldix ⟨0, []⟩) [] ∧
    (MtxNext (queued (.mldw .mxi4 .mxi4 ⟨0x100, none⟩)) 0 (.mldw .mxi4 .mxi4 ⟨0x100, none⟩) [] ∧
      ((queued .mswp).ctx 0).act = .ready ∧ ((queued .mswp).ctx 0).dfaults = [] ∧
      (∃ d, (queued (.mldw .mxi4 .mxi4 ⟨0x100, none⟩)).mtxRead 0 0x100 (imageBytes .mxi4 .mxi4) = .ok d)) ∧
    (MtxNext (imageState 1 ⟨0x20, none⟩) 0 (.mupld ⟨0x20, none⟩ 0 1023) [] ∧
      (∃ ws, (imageState 1 ⟨0x20, none⟩).upldImage 0 ⟨0x20, none⟩ 1023 = .ok ws) ∧
      mwf 0 (imageState 1 ⟨0x20, none⟩).mem.ucode = true ∧ mwf 0 (imageState 1 ⟨0x20, none⟩).mem.rtable = true) ∧
    (MtxNext (queued (.mupld ⟨0x20, none⟩ 0 0)) 0 (.mupld ⟨0x20, none⟩ 0 0) [] ∧
      (∃ h, (queued (.mupld ⟨0x20, none⟩ 0 0)).mtxRead 0 0x20 16 = .ok h)) :=
  ⟨dec, mtx_next,
    ⟨mtx_next, dec, dec, read_of dec⟩,
    ⟨mtx_next, read_of dec, dec⟩, mtx_next, read_of dec⟩

theorem wit_MsetMovesAScalar : Turn badState 0 (at0 badState) ∧ Quiet (at0 badState) 0 ∧ ((at0 badState).ctx 0).passes .always ∧
    (sp (at0 badState) 0 4 ≠ none ∧ Fits ((at0 badState).ctx 0) 6 ∧ (sp (at0 badState) 0 5 = none ∧ ¬ Fits ((at0 badState).ctx 0) 5)) :=
  ⟨turn, quiet_of, passes_of,
    dec, fits_of, dec, unfit_of⟩

/-- Issue with an empty queue; both commands as the oldest, tile 0 and tile 1. -/
theorem wit_SwapAndClear : (Turn mtxPoison 0 (at0 mtxPoison) ∧ ((at0 mtxPoison).ctx 0).passes .always ∧ ((at0 mtxPoison).ctx 0).seg = none ∧
      (at0 mtxPoison).accepts 0 = true ∧ ((at0 mtxPoison).ctx 0).mtx.queue.length < 8) ∧
    ((queued .mswp).ctx 0).act = .ready ∧ ((queued (.mclr false)).ctx 0).mtx.queue = [⟨.mclr false, 0, 0⟩] ∧
    MtxNext (queued .mswp) 0 .mswp [] ∧ MtxNext (queued (.mclr false)) 0 (.mclr false) [] ∧
    MtxNext (queued (.mclr true)) 0 (.mclr true) [] ∧
    mwf 0 (queued (.mclr true)).mem.acc = true ∧ mwf none (queued (.mclr true)).mem.accPoison = true ∧
    mwf false (queued (.mclr true)).mem.accValid = true :=
  ⟨⟨turn, passes_of, dec, dec,
    dec⟩, dec, dec, mtx_next, mtx_next,
    mtx_next, dec, dec, dec⟩

/-- The run of a routine at its word `n` of four, in loops `l`. -/
def running (n : Nat) (l : List ULevel) : URun :=
  ⟨false, .mxi8, .mxi8, [], [], ⟨0x40, none⟩, ⟨128, none⟩, 0, 127, 0, false, 0, 8, n, l⟩
/-- The routine stored at word 0: STEP, SETA, SETACC, SCALE, LOOPU of a register, LOOPU of 4096, END. -/
def words : SMap (BitVec 128) :=
  [(0, 0x10000000000000000000000000000000), (1, 0x22E0000000000000000000000000ABCD), (2, 0x3000000000000000000000000000007F),
    (3, 0x4000000000000000000000000000191F), (4, 0x5000000000000000000000001EFF1000), (5, 0x50000000000000000000000000FF1000),
    (6, 0x60000000000000000000000000000000)]
def runState (n : Nat) (l : List ULevel) : State := mtxState (fun m => { m with run := some (running n l) }) words 0
/-- A call of routine 255, whose entry is `e`. -/
def callState (e : BitVec 32) : State := mtxState (fun m => { m with queue := [⟨.mcall false .mxi8 .mxi8 255 [] [], 0, 0⟩] }) words e

/-- A call whose first word is SETA, SETACC, SCALE, LOOPU, STEP or END. -/
theorem wit_RoutineStart (n : Fin 7) : let s := callState (0x80000400 + BitVec.ofNat 32 n.val)
    MtxNext s 0 (.mcall false .mxi8 .mxi8 255 [] []) [] ∧ (s.ctx 0).act = .ready ∧ (s.ctx 0).mtx.run.isNone = true ∧
    (s.ctx 0).mtx.active.tag = none ∧ (s.nextUop 0
      ⟨false, .mxi8, .mxi8, [], [], mget .zero [] 0, mget .zero [] 1, 0, 0, 0, false, n.val, 1, 0, []⟩).isSome = true := by
  have h : ∀ n : Fin 7, (decide (((callState (0x80000400 + BitVec.ofNat 32 n.val)).ctx 0).mtx.queue = [⟨.mcall false .mxi8 .mxi8 255 [] [], 0, 0⟩]) &&
      !(callState (0x80000400 + BitVec.ofNat 32 n.val)).fenced 0 0 && (List.range 4).all fun i => i == 0 ||
        (((callState (0x80000400 + BitVec.ofNat 32 n.val)).ctx i).mtx.queue.isEmpty &&
          ((callState (0x80000400 + BitVec.ofNat 32 n.val)).ctx i).mtx.run.isNone)) = true := by decide +kernel
  refine ⟨mtx_next (h n), ?_⟩
  revert n; decide +kernel

/-- A call whose active plane holds weights of another format. -/
theorem wit_RoutineTag : let s := mtxState (fun m => { m with queue := [⟨.mcall false .mxi8 .mxi8 255 [] [], 0, 0⟩], active := ⟨[], [], .mxi8, some (.mxi4, 1)⟩ }) words 0x80000406
    MtxNext s 0 (.mcall false .mxi8 .mxi8 255 [] []) [] ∧ (s.ctx 0).mtx.run = none ∧
    (s.ctx 0).mtx.active.tag = some (.mxi4, 1) ∧ ((.mxi4, 1) : MxFmt × Nat) ≠ (.mxi8, gangOf .mxi8 .mxi8) :=
  ⟨mtx_next, dec⟩

theorem wit_RoutineControl : (MtxNext (callState 0x7FFFFFFF) 0 (.mcall false .mxi8 .mxi8 255 [] []) [] ∧ (callState 0x7FFFFFFF).mem.rtable = [(255, 0x7FFFFFFF)] ∧
      ((callState 0).ctx 0).act = .ready ∧ ((callState 0).ctx 0).dfaults = [] ∧ ((callState 0).ctx 0).mtx.run = none) ∧
    (MtxNext (callState 0x80000406) 0 (.mcall false .mxi8 .mxi8 255 [] []) [] ∧ ((callState 0x80000406).ctx 0).mtx.active.tag = none ∧
      decodeUop (mget 0 (callState 0x80000406).mem.ucode (coreOf 0 * 1024 + 0x80000406 % 1024)) = some .end_) ∧
    (((runState 0 []).ctx 0).act = .ready ∧ ((runState 0 []).ctx 0).dfaults = [] ∧
      ((runState 0 []).ctx 0).mtx.run = some (running 0 []) ∧
      (runState 1 []).nextUop 0 (running 1 []) = some (.seta 5 6 0xABCD) ∧ (runState 2 []).nextUop 0 (running 2 []) = some (.setacc 127) ∧
      (runState 3 []).nextUop 0 (running 3 []) = some (.scale true 9 31) ∧
      (runState 4 []).nextUop 0 (running 4 []) = some (.loopu true 7 255 4096) ∧
      (runState 5 []).nextUop 0 (running 5 []) = some (.loopu false 0 255 4096) ∧
      (runState 6 []).nextUop 0 (running 6 []) = some .end_ ∧ (mget MVal.zero (running 4 []).m 7).p = none) ∧
    (∀ n ∈ [1, 2], ((runState 2 [⟨2, 1, n⟩]).ctx 0).mtx.run = some (running 2 [⟨2, 1, n⟩]) ∧
      (runState 2 [⟨2, 1, n⟩]).nextUop 0 (running 2 [⟨2, 1, n⟩]) = some (.setacc 127)) :=
  ⟨⟨mtx_next, dec⟩, ⟨mtx_next, dec⟩, dec⟩

/-- A linear STEP at accumulator row 127 over a zero plane. -/
theorem wit_MatrixStep : ((runState 0 []).nextUop 0 (running 0 []) = some (.step false .madd) ∧ (running 0 []).c < 128) ∧
    (∃ row, (runState 0 []).mtxRead 0 0x40 (4 * (4 * MxFmt.mxi8.bits)) = .ok row ∧
      (∀ b ∈ rowBlocks (running 0 []) row, b.tag = none ∧ b.scale ≠ 255)) ∧
    (∀ n < 128, ∀ j < 4, (((runState 0 []).ctx 0).mtx.active.block .mxi8 .mxi8 n j).tag = none ∧
      (((runState 0 []).ctx 0).mtx.active.block .mxi8 .mxi8 n j).scale ≠ 255) ∧
    (mwf 0 (runState 0 []).mem.acc = true ∧ mwf none (runState 0 []).mem.accPoison = true ∧ mwf false (runState 0 []).mem.accValid = true) := by
  refine ⟨dec, ?_, dec, dec⟩
  have h : (((runState 0 []).mtxRead 0 0x40 (4 * (4 * MxFmt.mxi8.bits))).toOption.any fun r =>
    decide (r = List.replicate 128 (0, none))) = true := by decide +kernel
  generalize (runState 0 []).mtxRead 0 0x40 (4 * (4 * MxFmt.mxi8.bits)) = g at h ⊢
  obtain _ | r := g
  · nomatch h
  · exact ⟨r, rfl, of_decide_eq_true h ▸ dec⟩

/-! ### The engines -/

/-- Context 0 with the scratchpad of core 0, which holds `d` by words, and an identity page table for the engines. -/
def eng (f : Ctx → Ctx) (d : SMap Word) : State :=
  let s := put 0x10000 8 0x11001 (put 0x11000 8 0x2F (writable f))
  ({ s with tr := { s.tr with trroot := mset 0 s.tr.trroot 0 0x10001 } }.modMem fun m => { m with
    spad := d, spadValid := (List.range 256).map fun i => (i, true) }).modCore 0 fun k => { k with grants := 0x8080808080808080 }

/-- A scratchpad address of core 0. -/
def win (off : Nat) : Word := BitVec.ofNat 64 (0x100000000000 + off)

/-- Engine work that ends. -/
theorem work_of {α : Type} {m : EM α} {s : State} (p : α → State → Bool)
    (h : ((m.go s).1.toOption.any fun r => p r (m.go s).2) = true) : ∃ r u, m.go s = (.ok r, u) ∧ p r u = true := by
  revert h
  generalize m.go s = g
  obtain ⟨_ | r, u⟩ := g <;> simp [Except.toOption]
/-- Engine work that stops on a fault. -/
theorem stop_of {α : Type} {m : EM α} {s : State} (p : Trap → State → Bool)
    (h : (match (m.go s).1 with | .error f => p f (m.go s).2 | _ => false) = true) : ∃ r u, m.go s = (.error r, u) ∧ p r u = true := by
  revert h
  generalize m.go s = g
  obtain ⟨_ | r, u⟩ := g <;> simp
/-- An access of an engine that is made. -/
theorem made_of {α : Type} {g : Except Trap α} (p : α → Bool) (h : g.toOption.any p = true) : ∃ r, g = .ok r ∧ p r = true := by
  cases g <;> simp_all [Except.toOption]

/-- Operands of the engine commands, all clean; table slot 15 is the launch's. -/
def cmdState : State :=
  let s := eng (fun c => ((c.setS 4 (w 0x1000)).setS 5 (w 0x2000)).setS 6 (w 1)) []
  { s with fab := { s.fab with cxslots := [(15, ⟨0, false, true, 0, 0⟩)] } }

theorem cmd_turn : Turn cmdState 0 (at0 cmdState) := turn
theorem cmd_passes : ((at0 cmdState).ctx 0).passes .always := passes_of
theorem cmd_clean : Clean (at0 cmdState) 0 4 ∧ Clean (at0 cmdState) 0 5 ∧ Clean (at0 cmdState) 0 6 :=
  ⟨clean_of, clean_of, clean_of⟩

/-- The receive forms need an own access still on its way. -/
def fencedState : State := eng (fun c => { c with acc := [loading none false], fences := [(fenceCode .col, 4)] }) []

/-- A fault of the coordinate unit recorded: later commands of it are discarded. -/
def discardState : State := eng (fun c => { (((c.setS 4 (w 0x1000)).setS 5 (w 0x2000)).setS 6 (w 1)) with
  dfaults := [⟨.crd, 0, ⟨.align, 0x10, 0, none⟩⟩] }) []

theorem wit_EngineCommandsQueue : Turn cmdState 0 (at0 cmdState) ∧ ((at0 cmdState).ctx 0).seg = none ∧ (at0 cmdState).accepts 0 = true ∧
    ((at0 cmdState).ctx 0).passes .always ∧ (Clean (at0 cmdState) 0 4 ∧ Clean (at0 cmdState) 0 5 ∧ Clean (at0 cmdState) 0 6) ∧
    ((at0 cmdState).walkerFull 0 = false ∧ (at0 cmdState).crdFull 0 = false ∧ (at0 cmdState).colFull 0 = false ∧
      ((at0 cmdState).ctx 0).col = [] ∧ ((at0 cmdState).ctx 0).dfaults = [] ∧ (at0 cmdState).slotOwned 0 15 = true ∧ (at0 cmdState).clgoSlot 0 (sv (at0 cmdState) 0 4) = none) ∧
    Turn fencedState 0 (at0 fencedState) ∧ (at0 fencedState).accepts 0 = true ∧ (at0 fencedState).colFull 0 = false ∧
    (at0 fencedState).fenced 0 (Claims.fence (at0 fencedState) 0 .col) = true ∧ Clean (at0 fencedState) 0 4 ∧
    Turn discardState 0 (at0 discardState) ∧ ((at0 discardState).ctx 0).seg = none ∧ (at0 discardState).accepts 0 = true ∧
    (at0 discardState).crdFull 0 = false ∧ (∃ d ∈ ((at0 discardState).ctx 0).dfaults, d.unit = .crd) ∧
    ((at0 discardState).ctx 0).passes .always ∧ Clean (at0 discardState) 0 4 ∧ Clean (at0 discardState) 0 5 ∧ Clean (at0 discardState) 0 6 :=
  ⟨cmd_turn, dec, dec, cmd_passes, cmd_clean, dec,
    turn, dec, dec, dec,
    clean_of,
    turn, dec, dec, dec, dec,
    passes_of, clean_of, clean_of, clean_of⟩

/-- Channel 0 of the launch: running or not, at a record, with heads queued behind. -/
def chan (st : BitVec 2) (head : Word) (heads : List Head) (stop : Bool := false) : Chan :=
  ⟨head, st, 0, 0, heads, 0, 1, 0, 0, 0x80, some placedHall, stop⟩
def copyState (ch : Chan) (d : SMap Word) : State :=
  ((eng (fun c => c.setS 4 (w 0x40)) d).modChan 0 0 fun _ => ch).modLaunch placedHall fun l => { l with nchan := 1 }

/-- Unit 0 is the launch's and unit 1 is not; the channel idle, and running with three heads queued. -/
theorem wit_CopyChannels : ∀ ch ∈ [chan 0 0 [], chan 1 (win 0) [⟨1, 0, 0⟩, ⟨2, 0, 0⟩, ⟨3, 0, 0⟩]],
    (copyState ch []).holder (copyState ch []).cur.val = some 0 ∧
    ((copyState ch []).portReady (copyState ch []).cur.val).boundary 0 = none ∧ ((at0 (copyState ch [])).ctx 0).seg = none ∧
    ((at0 (copyState ch [])).ctx 0).rel = [] ∧ ((at0 (copyState ch [])).launchOf 0).any (fun l => decide (l.state = .running) && l.nchan == 1) = true ∧
    (at0 (copyState ch [])).physChan 0 0 = some 0 ∧ ((at0 (copyState ch [])).chan 0 0) = ch ∧ ch.heads.length < 4 ∧
    (24 ≤ landL 255 ∧ ((at0 (copyState ch [])).ctx 0).held < 32 ∧ 1 ≤ (1 : BitVec 4).toNat) := by decide +kernel

/-- Deferred faults of the two units stand in for none: the waits with and without commands outstanding. -/
theorem wit_EngineStatusWords : Turn base 0 (at0 base) ∧ Quiet (at0 base) 0 ∧ ((at0 base).ctx 0).passes .always ∧
    (24 ≤ landL 24 ∧ 96 ≤ landL 96 ∧ ((at0 base).ctx 0).held < 32 ∧ ((at0 base).ctx 0).hall = some placedHall ∧ ((at0 base).launch placedHall).isSome = true ∧
      ((at0 base).ctx 0).ctl.priv = 0 ∧ (∀ d ∈ ((at0 base).ctx 0).dfaults, d.unit ≠ .crd ∧ d.unit ≠ .col) ∧
      ((at0 base).ctx 0).crd = [] ∧ ((at0 base).ctx 0).col = []) ∧
    (let s := ctx0 fun c => { c with ctl := { c.ctl with priv := 1 }, crd := [⟨.wget, 0, 0, 0, 1, false, 0⟩]
                                     col := [⟨.clgo, 0, 0, 0, false, 0, 0, none, none, false, 0, 0, none, 0⟩] }
     s.holder s.cur.val = some 0 ∧ (s.portReady s.cur.val).boundary 0 = none ∧ ((at0 s).ctx 0).rel = [] ∧ ((at0 s).ctx 0).ctl.priv ≠ 0 ∧ ((at0 s).ctx 0).crd ≠ [] ∧
      ((at0 s).ctx 0).col ≠ []) ∧
    (∀ a ∈ [Act.blocked (.wsync 3), .blocked (.lkwait 3)], ((acting a).ctx 0).act = a ∧ ((acting a).ctx 0).crd = [] ∧
      ((acting a).ctx 0).col = []) :=
  ⟨base_turn, base_quiet, base_passes, dec⟩

/-- A second context of the launch, on core 1. -/
def pairState : State :=
  ((ctx0 fun c => (c.setS 4 (w 0x10000)).setS 5 (w 0)).modCtx 4 fun c => { c with act := .ready, hall := some placedHall }).modLaunch
    placedHall fun l => { l with team := [0, 4] }
/-- A segment open, a record at 0x80 and queue 0 that takes device postings of partition 0. -/
def launchState (g : Option Seg) : State :=
  let s := writable fun c => { (c.setS 4 (w 0x80)).setS 5 (w 0) with seg := g }
  { s with sched := { s.sched with queues := [(0, { Queue.zero with dev := true, en := true })] } }

theorem wit_TransactionsAndPostings : (Turn pairState 0 (at0 pairState) ∧ Quiet (at0 pairState) 0 ∧ ((at0 pairState).ctx 0).passes .always ∧
      Clean (at0 pairState) 0 4) ∧
    (((at0 pairState).ctx 0).hall = some placedHall ∧
      ((at0 pairState).launch placedHall).any (fun l => decide (l.state = .running) && decide (0 ∈ l.team) && decide
        ((sv (at0 pairState) 0 4).toNat % 2 ^ 16 < l.clusters.length)) = true ∧ ((at0 pairState).ctx 0).ctl.priv = 0 ∧
      (sv (at0 pairState) 0 4).toNat / 2 ^ 19 = 0 ∧ (at0 pairState).postTarget 0 (sv (at0 pairState) 0 4).toNat = some 4 ∧
      ((at0 pairState).ctx 4).act = .ready ∧ ((at0 pairState).ctx 0).causes = []) ∧
    ∀ g ∈ [some ⟨[], [], [], 0, 0, 0, 0, 0, [], 0, false, false⟩, none], Turn (launchState g) 0 (at0 (launchState g)) ∧
      (Clean (at0 (launchState g)) 0 4 ∧ Clean (at0 (launchState g)) 0 5) ∧
      (((at0 (launchState g)).ctx 0).seg = g ∧ (at0 (launchState g)).qlaunchOk 0 (sv (at0 (launchState g)) 0 5) = true ∧
        (sv (at0 (launchState g)) 0 4).toNat % 128 = 0 ∧ ((at0 (launchState g)).queue (sv (at0 (launchState g)) 0 5).toNat).room = true) ∧
      ∃ m t, (at0 (launchState g)).readNow 0 (sv (at0 (launchState g)) 0 4) 128 = .ok m t ∧ tagOf m = none ∧ valOf m = 0 := by
  refine ⟨⟨turn, quiet_of, passes_of, clean_of⟩, dec, ?_⟩
  intro g hg
  simp only [List.mem_cons, List.not_mem_nil, or_false] at hg
  obtain rfl | rfl := hg <;> exact ⟨turn, ⟨clean_of, clean_of⟩, dec, got_of _ dec⟩

/-- Work on a record at scratchpad offset 0. -/
def recordAt (ch : Chan) (d : SMap Word) : EM RecEnd := doRecord ((copyState ch d).chanWho 0 ch) ch.head

/-- What a record leaves that a clause of its end asks for. -/
def recordOk (ch : Chan) (u : State) : Bool :=
  u.chanLive ch && decide (u.chan 0 0 = ch) && decide ((u.ctx 0).act ≠ .free)

/-- A record done without and with a next one, with a head behind it and after CPSTOP; a chain that stops; a fault, whose status
is written. -/
theorem wit_CopyRecords :
    (∀ ch ∈ [chan 1 (win 0) [], chan 1 (win 0) [⟨7, 0, 0⟩], chan 1 (win 0) [] true], ch.head ≠ 0 ∧ (copyState ch []).fenced ch.by_ ch.after = false ∧
      (copyState ch []).chanLive ch = true ∧ ch.ownerCtx 0 = 0 ∧ ch.state = 1) ∧
    (∀ ch ∈ [chan 1 (win 0) [], chan 1 (win 0) [⟨7, 0, 0⟩], chan 1 (win 0) [] true],
      ∃ r u, (recordAt ch [(1, 1)]).go (copyState ch [(1, 1)]) = (.ok r, u) ∧ (decide (r = .done 0 false) && recordOk ch u) = true) ∧
    (∃ r u, (recordAt (chan 1 (win 0) []) [(0, 0x40), (1, 5)]).go (copyState (chan 1 (win 0) []) [(0, 0x40), (1, 5)]) = (.ok r, u) ∧
      (decide (r = .done 0x40 true) && recordOk (chan 1 (win 0) []) u) = true) ∧
    (∃ r u, (recordAt (chan 1 (win 0) []) []).go (copyState (chan 1 (win 0) []) []) = (.ok r, u) ∧
      (decide (r = .stopped) && recordOk (chan 1 (win 0) []) u) = true) ∧
    (∃ f u, (recordAt (chan 1 (win 0) []) [(1, 0x80001)]).go (copyState (chan 1 (win 0) []) [(1, 0x80001)]) = (.error f, u) ∧
      (decide (f.cause = .illegalBundle) && recordOk (chan 1 (win 0) []) u &&
        (match u.engineWrite (u.chanWho 0 (chan 1 (win 0) [])) (win 0 + 12) (clean (bytesOf 4 (2 + 256 * f.cause.code))) with
         | .ok v => decide ((v.ctx 0).act = .ready ∧ (v.ctx 0).causes = []) | _ => false)) = true) := by
  refine ⟨dec, ?_, work_of _ dec, work_of _ dec, stop_of _ dec⟩
  intro ch h
  simp only [List.mem_cons, List.not_mem_nil, or_false] at h
  obtain rfl | rfl | rfl := h <;> exact work_of _ dec

/-- Engine work that ends, as a value. -/
def ran {α : Type} (m : EM α) (s : State) : Option (α × State) := match m.go s with | (.ok r, u) => some (r, u) | _ => none
theorem ran_eq {α : Type} {m : EM α} {s u : State} {r : α} (h : ran m s = some (r, u)) : m.go s = (.ok r, u) := by
  unfold ran at h
  split at h
  · rename_i e; rw [e]; simpa using h
  · simp at h

def runCopied (w : Who) : List (Word × Word × Nat) → State → Option State
  | [], s => some s
  | (a, d, n) :: l, s => (ran (emRead w a n) s).bind fun r => (ran (emWrite w d r.1) r.2).bind fun q => runCopied w l q.2
theorem copied_of (w : Who) : ∀ (l : List (Word × Word × Nat)) (s t : State), runCopied w l s = some t → Copied w l s t
  | [], s, t, h => by simpa [runCopied, Copied, eq_comm] using h
  | (a, d, n) :: l, s, t, h => by
    simp only [runCopied, Option.bind_eq_some_iff] at h
    obtain ⟨⟨b, s1⟩, h1, ⟨⟨⟩, s2⟩, h2, h3⟩ := h
    exact ⟨b, s1, s2, ran_eq h1, ran_eq h2, copied_of w l s2 t h3⟩

def runStored (w : Who) : List (Word × List PByte) → State → Option State
  | [], s => some s
  | (d, b) :: l, s => (ran (emWrite w d b) s).bind fun q => runStored w l q.2
theorem stored_of (w : Who) : ∀ (l : List (Word × List PByte)) (s t : State), runStored w l s = some t → Stored w l s t
  | [], s, t, h => by simpa [runStored, Stored, eq_comm] using h
  | (d, b) :: l, s, t, h => by
    simp only [runStored, Option.bind_eq_some_iff] at h
    obtain ⟨⟨⟨⟩, s1⟩, h1, h2⟩ := h
    exact ⟨s1, ran_eq h1, stored_of w l s1 t h2⟩

def runFetched (w : Who) : List (Word × Nat) → State → Option (List (List PByte) × State)
  | [], s => some ([], s)
  | (a, n) :: r, s => (ran (emRead w a n) s).bind fun x => (runFetched w r x.2).map fun y => (x.1 :: y.1, y.2)
theorem fetched_of (w : Who) : ∀ (l : List (Word × Nat)) (s t : State) (m : List (List PByte)), runFetched w l s = some (m, t) →
    Fetched w l s m t
  | [], s, t, m, h => by simp only [runFetched, Option.some.injEq, Prod.mk.injEq] at h; exact ⟨h.1.symm, h.2.symm⟩
  | (a, n) :: r, s, t, m, h => by
    simp only [runFetched, Option.bind_eq_some_iff, Option.map_eq_some_iff] at h
    obtain ⟨⟨b, s1⟩, h1, ⟨k, t1⟩, h2, h3⟩ := h
    obtain ⟨rfl, rfl⟩ := Prod.mk.injEq .. ▸ h3
    exact ⟨b, k, s1, ran_eq h1, fetched_of w r s1 _ k h2, rfl⟩

/-- A record that passes its checks, run by the parts the statement names: the states before its data, after them, after the stamp
and at the end. -/
def recordRun (p : Plan) (ch : Chan) (d : SMap Word) : Option (List PByte × State × State × State × State) :=
  let w := (copyState ch d).chanWho 0 ch
  (ran (emRead w ch.head 64) (copyState ch d)).bind fun x =>
    let r := Halyard.ofBytes x.1
    let data := if p = .copy then
        runCopied w ((List.range r.rows).flatMap fun i => chunks (rowAt r.src r.srcStride i) (rowAt r.dst r.dstStride i) r.rowBytes) x.2
      else (runFetched w ((List.range r.rows).map fun i => (rowAt r.src r.srcStride i, r.rowBytes)) x.2).bind fun y =>
        runStored w (transformed r y.1 p) y.2
    data.bind fun s2 => (runStored w (if r.stamp then [(r.stampAddr, clean (bytesOf 8 r.stampValue.toNat))] else []) s2).bind fun s3 =>
      (runStored w [(ch.head + 8, clean (bytesOf 8 (valOf ((x.1.drop 8).take 8) % 2 ^ 32 - 1 + 2 ^ 32)))] s3).map fun u =>
        (x.1, x.2, s2, s3, u)
def recordFits (p : Plan) (ch : Chan) (d : SMap Word) (b : List PByte) (s1 : State) : Bool :=
  let w := (copyState ch d).chanWho 0 ch
  let r := Halyard.ofBytes b
  decide (tagOf b = none ∧ valOf ((b.drop 8).take 8) % 2 = 1 ∧ tagOf ((b.drop 8).take 8) = none ∧ r.misaligned ch.head = false ∧
    r.plan = some p ∧ r.overlapBad p = false ∧ r.rows ≠ 0 ∧ r.rowBytes ≠ 0) &&
  (s1.engineTargets w .read r.src (hullLen r.rows r.srcStride r.rowBytes)).isOk &&
  (s1.engineTargets w .write r.dst (r.dstLen p + p.assayLen)).isOk &&
  (s1.engineTargets w .write r.stampAddr (if r.stamp then 8 else 0)).isOk

/-- A copy with a stamp, an expansion and a conversion, each of two rows. -/
theorem wit_RecordWorks : ([(Plan.copy, 3, 0x800000008), (.expand, 0x31, 0x1000000008), (.convert .bf16 .e4m3, 0x6511, 0x1000000008)].all
    fun x =>
      let d : SMap Word := [(1, x.2.1), (2, win 0x200), (3, win 0x400), (4, 0x800000002), (5, x.2.2), (6, win 0x600), (7, 0x77), (64, 5)]
      (recordRun x.1 (chan 1 (win 0) []) d).any fun y => recordFits x.1 (chan 1 (win 0) []) d y.1 y.2.1) = true := by decide +kernel

/-- A tree of no summary data at distance 0: poisoned centroid, a node to prune, one to summarise, one to open. -/
theorem wit_OpeningTest :
    (let x : Summary := ⟨1, (0, none), [], [], []⟩
     let dlo := Fmt.fp32.decode (normRound .rdn (List.zipWith FV.sub [] (fvs x.c)))
     let r := Fmt.fp32.decode x.radius.1
     (elTag (⟨1, (0, none), [(0, some 5)], [], []⟩ : Summary).c).isSome = true ∧ (elTag x.c).isSome = false ∧
     (FV.num false 0 0).le (FV.sub dlo r) = true ∧ (FV.num false 1 0).le (FV.sub dlo r) = false ∧
     r.le ((FV.num false 1 0).mul dlo) = true ∧ (0 < 1 ∧ 0 < 8)) ∧
    (let x : Summary := ⟨1, (0, none), [], [], []⟩
     let r := Fmt.fp32.decode x.radius.1
     let g := FV.sum (List.zipWith FV.mul [] (fvs x.c))
     let qr := (FV.num false 1 0).mul r
     let u := Fmt.fp32.decode (Fmt.fp32.encode .rup false (FV.add .rne g qr))
     let spread := Fmt.fp32.decode (Fmt.fp32.encode .rup false qr)
     let far (m : Nat) : Bool := u.le (FV.sub (Fmt.fp32.decode m) (.num false 0 0))
     far 0x3F800000 = true ∧ far 0xBF800000 = false ∧ spread.le (.num false 1 0) = true ∧ spread.le (.num true 1 0) = false) := by
  decide +kernel

/-- A WKAPP, WKWALK or WKFIX of context 0 on a tree at 0x1000. -/
def wk (op : WkOp) : WkCmd := ⟨op, 0x1000, 0x2000, win 0, 0, 0, 0, 8, 64, true, 0, 0, 0⟩
def walkerState (q : WkCmd) (run : Bool) : State := (eng id []).modWalker 0 fun x =>
  if run then { x with running := some q, waiting := true } else { x with queue := [q] }
/-- The state a command's work begins in. -/
def walkerBegun (q : WkCmd) (run : Bool) : State := (walkerState q run).modWalker 0 fun x =>
  if run then { x with waiting := false } else { x with running := some q, queue := [], tree := q.a, pos := 0 }

/-- With the lock taken the launch goes on, and so it does when the work ends, with a code below 256. -/
def worksAfter (s : State) (q : WkCmd) (s2 : State) : Bool :=
  s2.goesOn (s.engine q.ctx).hall && ((walkerWork (s.engine q.ctx) 0 q).go s2).1.toOption.any fun c =>
    decide (0 < c ∧ c < 256) && ((walkerWork (s.engine q.ctx) 0 q).go s2).2.goesOn (s.engine q.ctx).hall
theorem works_of {s : State} {q : WkCmd} (h : (((preCheck (s.engine q.ctx) 0 q).go s).1.toOption.any fun k =>
    decide (k = .lock) && ((takeLock (s.engine q.ctx) 0 q).go ((preCheck (s.engine q.ctx) 0 q).go s).2).1.toOption.any fun b =>
      b && worksAfter s q ((takeLock (s.engine q.ctx) 0 q).go ((preCheck (s.engine q.ctx) 0 q).go s).2).2) = true) :
    ∃ code u, 0 < code ∧ code < 256 ∧ Claims.WalkerWorks s 0 q code u := by
  obtain ⟨k, s1, h1, e⟩ := work_of (m := preCheck (s.engine q.ctx) 0 q) (fun k s1 => decide (k = .lock) &&
    ((takeLock (s.engine q.ctx) 0 q).go s1).1.toOption.any fun b => b && worksAfter s q ((takeLock (s.engine q.ctx) 0 q).go s1).2) h
  obtain ⟨rfl, e⟩ : k = .lock ∧ _ = true := by simpa only [Bool.and_eq_true, decide_eq_true_eq] using e
  obtain ⟨b, s2, h2, e⟩ := work_of (m := takeLock (s.engine q.ctx) 0 q) (fun b s2 => b && worksAfter s q s2) e
  obtain ⟨rfl, g, e⟩ : b = true ∧ s2.goesOn (s.engine q.ctx).hall = true ∧ _ = true := by
    simpa only [worksAfter, Bool.and_eq_true] using e
  obtain ⟨c, s3, h3, e⟩ := work_of (m := walkerWork (s.engine q.ctx) 0 q) (fun c s3 => decide (0 < c ∧ c < 256) && s3.goesOn (s.engine q.ctx).hall) e
  obtain ⟨r, t⟩ := (Bool.and_eq_true _ _).mp e
  exact ⟨c, _, (of_decide_eq_true r).1, (of_decide_eq_true r).2, s1, s2, s3, h1, h2, g, h3, t, rfl⟩

/-- Each command on a tree whose lock is free, as the queue's first and as one that waits for the lock. -/
theorem wit_WalkerCommandsRun :
    (∀ q ∈ [wk .wkapp, wk .wkwalk, wk (.wkfix 1)], ((walkerState q false).cluster 0).walker.running = none ∧
      ((walkerState q false).cluster 0).walker.queue = [q] ∧ (walkerState q false).fenced q.ctx q.after = false ∧
      ((walkerState q true).cluster 0).walker.running = some q ∧ ((walkerState q true).cluster 0).walker.waiting = true) ∧
    (∃ c u, 0 < c ∧ c < 256 ∧ Claims.WalkerWorks (walkerBegun (wk .wkapp) false) 0 (wk .wkapp) c u) ∧
    (∃ c u, 0 < c ∧ c < 256 ∧ Claims.WalkerWorks (walkerBegun (wk .wkwalk) false) 0 (wk .wkwalk) c u) ∧
    (∃ c u, 0 < c ∧ c < 256 ∧ Claims.WalkerWorks (walkerBegun (wk (.wkfix 1)) false) 0 (wk (.wkfix 1)) c u) ∧
    (∃ c u, 0 < c ∧ c < 256 ∧ Claims.WalkerWorks (walkerBegun (wk .wkapp) true) 0 (wk .wkapp) c u) :=
  ⟨dec, works_of dec, works_of dec, works_of dec, works_of dec⟩

/-- The tree of the commands above: a header with `n` keys of `dk` values, one level, its leaf's count and its lock. -/
def treeState (n dk leaf lock : Nat) : State :=
  put 0x1000 8 n (put 0x1008 8 (dk + 0x100200000) (put 0x1010 8 0x4000 (put 0x1018 8 0x8000 (put 0x1058 8 lock (put 0x4000 8 leaf (eng id []))))))

/-- A command that finds the lock taken; the lock's word free and taken. -/
theorem wit_WalkerLock :
    ([WkOp.wkapp, .wkwalk, .wkfix 1].all fun op =>
      let s := (treeState 0 32 0 5).modWalker 0 fun x => { x with running := some (wk op), queue := [], tree := (wk op).a, pos := 0 }
      (ran (preCheck (s.engine 0) 0 (wk op)) s).any fun r => decide (r.1 = .lock) &&
        (ran (takeLock (s.engine 0) 0 (wk op)) r.2).any fun b => !b.1) = true ∧
    ([0, 5].all fun v => let s := treeState 0 32 0 v
      (ran (emWord (s.engine 0) 0x1058) s).any fun r => r.1 == v && (ran (emWrite (s.engine 0) 0x1058 (clean (bytesOf 8 1))) r.2).isSome) = true := by
  decide +kernel

/-- What a command reads of its header holds. -/
def headed (n dk leaf : Nat) (q : WkCmd) (p : Who → Tree → State → Bool) : Bool :=
  let s := treeState n dk leaf 0
  (ran (emWords (s.engine 0) q.a 16) s).any fun r => headerOk r.1 == (dk == 32) && s.goesOn (s.engine 0).hall &&
    decide ((r.1[0]?).getD 0 = n ∧ (r.1[1]?).getD 0 = dk + 0x100200000) && p (s.engine 0) (treeOf q.a r.1) r.2

/-- One key that is appended, by the parts the statement names. -/
def appends (n leaf : Nat) : Bool :=
  headed n 32 leaf { wk .wkapp with c := 1 } fun w t s0 =>
    let at_ := t.node 0 (n / 32)
    (if n % 32 = 0 then some s0 else (ran (emWord w at_) s0).bind fun r => if r.1 = n % 32 then some r.2 else none).any fun u0 =>
      (ran (emRead w 0x2000 64) u0).any fun k => (runStored w [(t.keyRow (n / 32) (n % 32), k.1)] k.2).any fun u2 =>
        (ran (emRead w (0x2000 + BitVec.ofNat 64 64) 64) u2).any fun v =>
          (runStored w [(t.valRow (n / 32) (n % 32), v.1), (at_, clean (bytesOf 8 (n % 32 + 1)))] v.2).any fun u4 =>
            (runStored w [(0x1000, clean (bytesOf 8 (n + 1)))] (u4.modWalker 0 fun x => { x with pos := 1 })).isSome

/-- A header that is no tree's; a tree at capacity, one whose leaf is new and one whose leaf has a key; a leaf that is full; a
reserved mode, and a tree of no keys. -/
theorem wit_WalkerWork :
    (headed 0 0 0 (wk .wkapp) fun _ _ _ => true) = true ∧
    (headed 0 0 0 (wk .wkwalk) fun w _ s0 =>
      (runStored w [(win 0, clean (bytesOf 4 6 ++ List.replicate 28 0 ++ bytesOf 8 0 ++ List.replicate 24 0))] s0).isSome) = true ∧
    (4096 < (wk .wkapp).c.toNat ∧ (headed 0 32 0 (wk .wkapp) fun _ _ _ => true) = true) ∧
    (headed 512 32 0 { wk .wkapp with c := 1 } fun w t s0 => t.n == 32 * 16 ^ t.depth &&
      (runStored w [(0x1000, clean (bytesOf 8 512))] s0).isSome) = true ∧
    (appends 0 0 && appends 1 1) = true ∧
    (headed 32 32 32 { wk (.wkfix 0) with b := 0 } fun w t s0 => (ran (readNode w t 0 0 1) s0).any fun x =>
      (ran (readKeys w t 0 32) x.2).any fun k => (ran (readVals w t 0 32) k.2).any fun v =>
        (ran (writeNode w t 0 0 { x.1 with sum := fixSummary 32 32 k.1 v.1 }) (v.2.modWalker 0 fun x => { x with pos := 32 })).isSome) = true ∧
    (headed 0 32 0 (wk .wkwalk) fun w _ s0 =>
      (runStored w [(win 0, clean (bytesOf 4 3 ++ List.replicate 28 0 ++ bytesOf 8 0 ++ List.replicate 24 0))] s0).isSome &&
      (ran (readQuery w 0x2000 32) s0).any fun y => (runStored w [(win 0 + 0x40, clean (List.replicate 2048 0)),
        (win 0, clean (bytesOf 4 1 ++ List.replicate 28 0 ++ bytesOf 8 0 ++ bytesOf 4 0xFF800000 ++ List.replicate 20 0))] y.2).isSome) = true := by
  refine ⟨?_, ?_, ⟨?_, ?_⟩, ?_, ?_, ?_, ?_⟩ <;> decide +kernel

/-- `n` elements of a plain FP32 tensor of four; `a` is the map's address. -/
def crd (op : CrdOp) (a : Word) (n : Nat := 1) : CrdCmd := ⟨op, a, win 0x180, win 0x400, n, true, 0⟩
def crdState (q : CrdCmd) (j : Option (CrdJob × Nat)) : State := eng (fun c => { c with crd := [q], crdJob := j })
  [(32, 0x301), (33, 4), (35, 0x100000001), (36, 0x100), (37, win 0x200), (38, 0x100000001), (64, win 0x300), (65, 0x100000000)]
/-- What the command does next, and what its checks leave. -/
def crdNext (q : CrdCmd) (j : Option (CrdJob × Nat)) : Except Trap (Option (CrdJob × Nat)) × State :=
  (crdWork ((crdState q j).engine 0) 0 q j).go (crdState q j)
def crdJobOf (q : CrdCmd) : Option (CrdJob × Nat) := match (crdNext q none).1 with | .ok j => j | _ => none

/-- The checks, the last element and one before the last of each command; a map out of line. -/
theorem wit_CoordinateCommandsRun : (∀ op ∈ [CrdOp.wget, .wput, .wexp], ∀ n ∈ [1, 2],
      let q := crd op (win 0x100) n
      let j := crdJobOf q
      ((crdState q j).ctx 0).crd = [q] ∧ ((crdState q j).ctx 0).crdJob = j ∧ (crdState q j).fenced 0 0 = false ∧ j.isSome = true ∧
        ((crdNext q none).2.ctx 0).crd = [q] ∧
        (match crdNext q j with | (.ok r, u) => r.isNone == (n == 1) && decide ((u.ctx 0).crd = [q]) | _ => false) = true) ∧
    (match crdNext (crd .wget 8) none with
     | (.error f, u) => decide (f.cause = .align ∧ (u.ctx 0).act = .ready ∧ (u.ctx 0).dfaults = [])
     | _ => false) = true := by decide +kernel

/-! Link and collective commands. -/

/-- A command of context 0 at scratchpad offset 0, with `n` bytes, peer 1 and tag 2. -/
def link (op : ColOp) (n : Nat) : ColCmd := ⟨op, win 0, BitVec.ofNat 64 n, 0x20001, false, 0, 3, none, none, false, 0, 0, none, 0⟩
def colState (d : ColCmd) (m : SMap Word) : State := eng (fun c => { c with col := [d] }) m

theorem next_of {s : State} {d : ColCmd} (h : decide (s.colHead 0 = some d ∧ d ∈ (s.ctx 0).col) = true) : ColNext s 0 d := by
  have := of_decide_eq_true h
  exact this

/-- A message of four bytes for the command above. -/
def mail : Message := ⟨false, 0, 1, 0, 2, 0, [1, 2, 3, 4], [], 0, 0, 0⟩
/-- The receive posted, and before it is. -/
def posted (op : ColOp) : ColCmd := { link op 4 with want := some (msgKey mail) }
def boxState (d : ColCmd) (held : List Message) : State := (colState d []).modDie 0 fun z => { z with held := held }

theorem wit_LinkMessages : (ColNext (colState (link (.lksend 0) 0x40) []) 0 (link (.lksend 0) 0x40) ∧
      (link (.lksend 0) 0x40).linkBad = none ∧ (link (.lksend 0) 0).linkBad.isSome = true ∧
      (∃ r, (colState (link (.lksend 0) 0x40) []).engineRead ((colState (link (.lksend 0) 0x40) []).engine 0) (win 0) 0x40 = .ok r ∧ r.2.length = 0x40) ∧
      ColNext (colState (link (.lksend 0) 0) []) 0 (link (.lksend 0) 0) ∧ ((colState (link (.lksend 0) 0) []).ctx 0).dfaults = []) ∧
    (∀ held ∈ [[], [mail]], ((boxState (link (.lkrecv 0) 4) held).ctx 0).col = [link (.lkrecv 0) 4] ∧
      ((boxState (link (.lkrecv 0) 4) held).die 0).held = held ∧ ((boxState (link (.lkrecv 0) 4) held).die 0).lost = [] ∧
      ((boxState (link (.lkrecv 0) 4) held).ctx 0).act ≠ .free ∧ (boxState (link (.lkrecv 0) 4) held).fenced 0 0 = false ∧
      (link (.lkrecv 0) 4).linkBad = none ∧ (link (.lkrecv 0) 4).op.posts = true ∧ mail.bytes.length = (link (.lkrecv 0) 4).b.toNat ∧
      msgKey mail = ⟨false, 0, 1, (boxState (link (.lkrecv 0) 4) held).partNo 0, 2, 0⟩) ∧
    (∃ u, (boxState (link (.lkrecv 0) 4) []).engineWrite ((boxState (link (.lkrecv 0) 4) [mail]).engine 0) (win 0) (msgBytes mail) = .ok u ∧
      decide ((u.ctx 0).act ≠ .free ∧ (u.ctx 0).col = [link (.lkrecv 0) 4]) = true) ∧
    (∀ op ∈ [ColOp.lkrecv 0, .lkradd 0 .fp32], oldest ((boxState (posted op) []).waiting (msgKey mail)) = some (0, 3) ∧
      (posted op).want = some (msgKey mail) ∧ ((boxState (posted op) []).ctx 0).col = [posted op] ∧ (posted op).linkBad = none) ∧
    (∃ r, (boxState (posted (.lkradd 0 .fp32)) []).engineRead ((boxState (posted (.lkradd 0 .fp32)) []).engine 0) (win 0) (4 * (4 / (Fmt.fp32.bits / 8))) = .ok r ∧
      (match r.1.engineWrite ((boxState (posted (.lkradd 0 .fp32)) []).engine 0) (win 0) (elBytes 4 [(0, none)]) with
       | .ok u => decide ((u.ctx 0).act ≠ .free) | _ => false) = true) ∧
    ([[], [mail]].all fun held =>
      let s := boxState (link (.lkrecv 0) 4) held
      let s1 := ((s.tick.modCol 0 3 fun q => { q with want := some (msgKey mail), postedAt := s.fresh }).modDie 0 fun z =>
        { z with held := [] }).modCol 0 3 fun q => { q with msg := some mail }
      (match s1.engineWrite (s.engine 0) (win 0) (msgBytes mail) with
       | .ok u => u.goesOn (s.engine 0).hall && decide ((u.ctx 0).act ≠ .free ∧ (u.ctx 0).col = (s1.ctx 0).col) | _ => false)) = true ∧
    (∀ held, (recvCheck ((boxState (link (.lkrecv 0) 4) held).engine 0) (link (.lkrecv 0) 4)).go (boxState (link (.lkrecv 0) 4) held) =
      (.ok (), boxState (link (.lkrecv 0) 4) held)) ∧
    ([ColOp.lkrecv 0, .lkradd 0 .fp32].all fun op =>
      let s := boxState (posted op) []
      let s1 := (s.seeEpoch mail.peer mail.epoch).modCol 0 3 fun q => { q with msg := some mail }
      let ends (s : State) (b : List PByte) : Bool := match s.engineWrite (s1.engine 0) (win 0) b with
        | .ok u => u.goesOn (s1.engine 0).hall && decide ((u.ctx 0).act ≠ .free ∧ (u.ctx 0).col = (s1.ctx 0).col) | _ => false
      s.fenced 0 0 == false && decide ((posted op).msg = none ∧ (posted op).lost = false) && ends s1 (msgBytes mail) &&
      (match s1.engineRead (s1.engine 0) (win 0) (4 * (4 / (Fmt.fp32.bits / 8))) with | .ok r => ends r.1 (elBytes 4 [(0, none)]) | _ => false)) = true ∧
    ((base.waiting (msgKey mail) = []) ∧ heldBytes ((base.die 0).held ++ [{ mail with bytes := [] }]) ≤ Config.holdBytes) :=
  ⟨⟨next_of dec, dec, dec,
      (made_of (fun r => r.2.length == 0x40) dec).imp fun r h => ⟨h.1, by simpa using h.2⟩, next_of dec, dec⟩,
    dec, made_of _ dec, dec,
    made_of (fun (r : State × List PByte) => match r.1.engineWrite ((boxState (posted (.lkradd 0 .fp32)) []).engine 0) (win 0) (elBytes 4 [(0, none)]) with
       | .ok u => decide ((u.ctx 0).act ≠ .free) | _ => false) dec,
    dec, fun _ => rfl, dec, dec⟩

theorem recv_checked (s : State) : (recvCheck (s.engine 0) (link (.lkrecv 0) 4)).go s = (.ok (), s) := rfl

/-- A table command of context 0: the slot, the table at scratchpad offset 0. -/
def tab (slot : CxSlot) (d : ColCmd) (m : SMap Word) : State :=
  let s := colState d m
  { s with fab := { s.fab with cxslots := [(15, slot)] } }
def cx (op : ColOp) (a b c : Nat) : ColCmd := ⟨op, win a, win b, win c, true, 0, 3, none, none, false, 0, 0, none, 0⟩

/-- Slot 15 in use by a collective of another context. -/
def busyState : State := (tab ⟨8, true, true, 0, 0⟩ (cx (.cxtab 15 7) 0 0 0) []).modCtx 4 fun c =>
  { c with act := .ready, col := [⟨.clgo, 0, 0, 0, false, 0, 9, none, none, false, 0, 0, some 15, 0⟩] }

/-- A table of three codes of length 1, which is one too many; the valid slot of the same generation and of another; a slot in use; an
empty table. -/
theorem wit_CompressionTables : (ColNext busyState 0 (cx (.cxtab 15 7) 0 0 0) ∧ busyState.cxInUse 15 = 1 ∧ (busyState.ctx 0).act ≠ .free) ∧
    (ColNext (tab ⟨8, true, true, 0, 0⟩ (cx (.cxtab 15 7) 0 0 0) []) 0 (cx (.cxtab 15 7) 0 0 0) ∧
      (tab ⟨8, true, true, 0, 0⟩ (cx (.cxtab 15 7) 0 0 0) []).cxInUse 15 = 0 ∧
      ∃ r u, (emWords ((tab ⟨8, true, true, 0, 0⟩ (cx (.cxtab 15 7) 0 0 0) []).engine 0) (win 0) 16).go
        (tab ⟨8, true, true, 0, 0⟩ (cx (.cxtab 15 7) 0 0 0) []) = (.ok r, u) ∧
      (!oversubscribed (BitVec.ofNat 1024 (r.foldr (fun v a => v + 2 ^ 64 * a) 0))) = true) ∧ (∀ g ∈ [(7 : BitVec 8)], ColNext (tab ⟨g, true, true, 0, 0⟩ (cx (.cxtab 15 7) 0 0 0) []) 0 (cx (.cxtab 15 7) 0 0 0) ∧
      (tab ⟨g, true, true, 0, 0⟩ (cx (.cxtab 15 7) 0 0 0) []).cxInUse 15 = 0 ∧ (win 0).toNat % 64 = 0) ∧
    (∀ d ∈ [([] : SMap Word), [(0, 0x111)]], (tab ⟨7, false, true, 0, 0⟩ (cx (.cxtab 15 7) 0 0 0) d).cxInUse 15 = 0) ∧
    (∃ r u, (emWords ((tab ⟨7, false, true, 0, 0⟩ (cx (.cxtab 15 7) 0 0 0) []).engine 0) (win 0) 16).go
        (tab ⟨7, false, true, 0, 0⟩ (cx (.cxtab 15 7) 0 0 0) []) = (.ok r, u) ∧
      (!oversubscribed (BitVec.ofNat 1024 (r.foldr (fun v a => v + 2 ^ 64 * a) 0))) = true) ∧
    (∃ r u, (emWords ((tab ⟨7, false, true, 0, 0⟩ (cx (.cxtab 15 7) 0 0 0) [(0, 0x111)]).engine 0) (win 0) 16).go
        (tab ⟨7, false, true, 0, 0⟩ (cx (.cxtab 15 7) 0 0 0) [(0, 0x111)]) = (.ok r, u) ∧
      oversubscribed (BitVec.ofNat 1024 (r.foldr (fun v a => v + 2 ^ 64 * a) 0)) = true) :=
  ⟨⟨next_of dec, dec, dec⟩, ⟨next_of dec, dec, work_of _ dec⟩, fun g _ => ⟨next_of (by revert g; decide +kernel), by revert g; decide +kernel⟩, dec, work_of _ dec,
    work_of _ dec⟩

/-- CXPK of a block of zeros under an empty table, which stores it raw. -/
def pkState : State := tab ⟨7, false, true, 0, 0⟩ (cx (.cxpk 15 1) 0 0x1000 0x2000) []

/-- CXUN of a raw block of one byte, in place. -/
def unCmd : ColCmd := ⟨.cxun 1, win 0x1000, win 0x1000, win 0x2000, true, 0, 3, none, none, false, 0, 0, none, 0⟩
def unState : State := tab ⟨7, false, true, 0, 0⟩ unCmd [(0x400, 0x100000000 + 0xF0000 + (7 <<< 24)), (0x401, (crc32c [0]).setWidth 64)]

/-- The same block coded under another generation of the table. -/
def staleState : State := tab ⟨8, false, true, 0, 0⟩ unCmd [(0x400, 0x100000001 + 0xF0000 + (7 <<< 24)), (0x401, (crc32c [0]).setWidth 64)]

theorem wit_CompressionBlocks : (∃ r u, (unpackBlocks (staleState.engine 0) unCmd 1 0 1).go staleState = (.ok r, u) ∧
      (r.2.any (fun f => decide (f.cause = .staleTable)) && decide ((u.ctx 0).act = .ready ∧ (u.ctx 0).dfaults = [] ∧
        (u.ctx 0).col = (staleState.ctx 0).col)) = true) ∧
    ColNext pkState 0 (cx (.cxpk 15 1) 0 0x1000 0x2000) ∧ ColNext unState 0 unCmd ∧
    (∃ r, pkState.engineRead (pkState.engine 0) (win 0) 4096 = .ok r ∧
      (match r.1.engineWrite (pkState.engine 0) (win 0x1000) (codeBlock (pkState.cxslot 15) r.2).2 with
       | .ok u => (match u.engineWrite (pkState.engine 0) (win 0x2000) (taggedBytes 16 ((codeBlock (pkState.cxslot 15) r.2).1 + 15 * 2 ^ 16 +
           (pkState.cxslot 15).gen.toNat * 2 ^ 24 + r.2.length * 2 ^ 32 + (crc32c (r.2.map (·.1))).toNat * 2 ^ 64) (tagOf r.2)) with
         | .ok v => v.goesOn (pkState.engine 0).hall && decide ((v.ctx 0).act ≠ .free ∧ (v.ctx 0).col = (pkState.ctx 0).col) | _ => false)
       | _ => false) = true) ∧
    (∃ r, unState.engineRead (unState.engine 0) (win 0x2000) 16 = .ok r ∧
      (match readHeader r.2 with
       | some h => decide (h.clen = 0 ∧ h.ulen = 1 ∧ h.slot = 15) && (match r.1.engineRead (unState.engine 0) (win 0x1000) h.ulen with
         | .ok q => (match expandBlock (unState.cxslot h.slot) h q.2 with
           | .ok b => (match q.1.engineWrite (unState.engine 0) (win 0x1000) b with
             | .ok v => v.goesOn (unState.engine 0).hall && decide ((v.ctx 0).act ≠ .free ∧ (v.ctx 0).col = (unState.ctx 0).col) | _ => false)
           | _ => false)
         | _ => false)
       | none => false) = true) :=
  ⟨work_of _ dec, next_of dec, next_of dec, made_of _ dec,
    made_of _ dec⟩

/-- The shortest and the longest block, with a table and without. -/
theorem wit_BlocksExpand : (0 < ([0] : List Byte).length ∧ (List.replicate 4096 (0 : Byte)).length ≤ 4096) ∧
    oversubscribed CxSlot.zero.table = false ∧ oversubscribed 0x221 = false := by decide +kernel

/-- A collective of `n` steps at step 0, of a buffer of 32 FP32 elements at 0x400; the step's action is `a`. -/
def clgo (m : Option Message) (want : Option RecvKey) : ColCmd := ⟨.clgo, win 0, 0, 0, true, 0, 3, want, m, false, 0, 0, none, 0⟩
def clgoState (svc : BitVec 2) (n a : Nat) (d : ColCmd) : State :=
  let s := colState d [(0, 0x401), (1, win 0x400), (2, BitVec.ofNat 64 n), (3, win 0x100), (5, win 0x1000), (32, BitVec.ofNat 64 (a + 0x200010000)),
    (33, 0x8000000000)]
  { s with mgmt := { s.mgmt with svc := svc } }
/-- The message of a receive step. -/
def parcel : Message := ⟨false, 0, 1, 0, 2, 0, List.replicate 128 0, [], 0, 0, 0⟩

theorem wit_CollectivesRun :
    (∀ n ∈ [1, 4096], ∃ r u, (clgoNow 0 (clgo none none)).go (clgoState 2 n 1 (clgo none none)) = (.ok r, u) ∧
      (decide (r.1.steps = n ∧ r.1.comp = false ∧ r.2.action = 1 ∧ r.2.len = 128 ∧ u.ctx 0 = (clgoState 2 n 1 (clgo none none)).ctx 0 ∧
        u.engine 0 = (clgoState 2 n 1 (clgo none none)).engine 0) &&
       (match u.engineRead (u.engine 0) (r.1.buffer + BitVec.ofNat 64 r.2.off) 128 with
        | .ok q => decide (q.1.ctx 0 = (clgoState 2 n 1 (clgo none none)).ctx 0) | _ => false)) = true) ∧
    (∀ a ∈ [2, 3], ∃ r u, (clgoNow 0 (clgo (some parcel) (some (msgKey parcel)))).go (clgoState 2 1 a (clgo (some parcel) (some (msgKey parcel)))) = (.ok r, u) ∧
      (decide (r.2.key = msgKey parcel ∧ r.2.action = a) &&
       (match (stepRecv (u.engine 0) r.1 r.2 parcel).go u with
        | (.ok st, v) => decide (st ≠ 0 ∧ v.ctx 0 = (clgoState 2 1 a (clgo (some parcel) (some (msgKey parcel)))).ctx 0) | _ => false)) = true) ∧
    (ColNext (clgoState 2 1 1 (clgo none none)) 0 (clgo none none) ∧ (clgoState 2 1 1 (clgo none none)).mgmt.svc ≠ 1) ∧
    (ColNext (clgoState 1 1 1 (clgo none none)) 0 (clgo none none) ∧ (clgoState 1 1 1 (clgo none none)).mgmt.svc = 1) ∧
    (∃ r u, (reduceWork 0 (clgo none none) [⟨0, .fp32, [0, 0], []⟩, ⟨1, .fp32, [1, 2], [(0, 0xFE0)]⟩]).go (clgoState 1 1 1 (clgo none none)) = (.ok r, u) ∧
      (r && decide ((u.ctx 0).act ≠ .free ∧ (u.ctx 0).col = [clgo none none])) = true) := by
  refine ⟨fun n hn => ?_, fun a ha => ?_, ⟨next_of dec, dec⟩, ⟨next_of dec, dec⟩,
    work_of _ dec⟩
  · fin_cases hn <;> exact work_of _ dec
  · fin_cases ha <;> exact work_of _ dec

/-! ### What the core does by itself -/

/-- The fetch and the decoding of a step at `s`. -/
theorem fetch_of {g : Fetch} (p : BundleBits → Nat → Bool) (h : (match g with | .ok b l => p b l | _ => false) = true) :
    ∃ b l, g = .ok b l ∧ p b l = true := by
  cases g <;> simp_all

/-- A bundle of one instruction, one of nothing, and one of two; an agenda of one item. -/
theorem wit_StepRunsDecodedInstruction : (base.agenda = [] ∧ base.powered = true ∧
      (at0 (base.switch base.cur.val)).codeBusy 0 = false) ∧ Turn (base.switch base.cur.val) 0 (at0 (base.switch base.cur.val)) ∧
    (∃ b l, (at0 (base.switch base.cur.val)).fetch 0 = .ok b l ∧
      (match decodeBundle b with | .ok ⟨.plain, [(_, i)]⟩ => !i.isNop | _ => false) = true) ∧
    (∃ b l, (at0 ((fresh0.placeBundle 0).switch base.cur.val)).fetch 0 = .ok b l ∧
      (match decodeBundle b with | .ok ⟨.plain, []⟩ => true | _ => false) = true) ∧
    (({ base with agenda := [(5, .nop .c)] } : State).agenda = (5, .nop .c) :: [] ∧ ({ base with agenda := [(5, .nop .c)] } : State).powered = true) :=
  ⟨dec, turn, fetch_of _ dec,
    fetch_of _ dec, rfl, dec⟩

theorem wit_SlotsReadBeforeTheyWrite : (((at0 base).ctx 0).act = .ready ∧ ((at0 base).ctx 0).rel = []) ∧ Quiet (at0 base) 0 ∧ ((at0 base).ctx 0).passes .always ∧ (5 : SReg) ≠ 0 :=
  ⟨dec, base_quiet, base_passes, dec⟩

/-- Context 0 with results and landings. -/
def owed (r : List Res) (l : List Land) (a : Act) : State := ctx0 fun c => { c with fixed := r, land := l, act := a, ct := 9 }
def res (due : Nat) (v : Word) : Res := ⟨due, 0, 0, .s 5, .s (w v)⟩
def lnd (due : Nat) (arrived : Bool) : Land := ⟨due, 4, 0, 3, .s 5, 0x100, if arrived then some (.s (w 7)) else none, arrived, if arrived then none else some 0⟩

/-- At an MSWP with the matrix queue full, with the same owed. -/
def heldBack (r : List Res) (l : List Land) (a : Act) : State :=
  (fresh0.placeBundle (oneSlot .m (encode (.mswp .always)))).modCtx 0 fun c => { c with
    fixed := r, land := l, act := a, ct := 9, mtx := { c.mtx with queue := List.replicate 8 ⟨.mswp, 0, 0⟩ } }

/-- A result and a landing due now and a tick later, before a bundle that issues and one that waits; data that is late; two results
for one register. -/
theorem wit_ResultsLand : ((owed [res 9 1] [] .ready).holdsBack 0 = false ∧ (owed [] [lnd 9 true] .ready).holdsBack 0 = false ∧
      (owed [res 8 1, res 9 2] [] .ready).holdsBack 0 = false ∧ (heldBack [res 9 1] [lnd 9 true] .ready).holdsBack 0 = true ∧
      AtBoundary ((heldBack [res 9 1] [lnd 9 true] .ready).ctx 0) ∧ ((heldBack [res 9 1] [lnd 9 true] .ready).ctx 0).late 9 = false ∧
      ((owed [res 9 1] [] .ready).ctx 0).vac = [] ∧
      (woken (owed [] [lnd 9 true] (.blocked (.landing 0))) 0).holdsBack 0 = false ∧
      (woken (heldBack [] [lnd 9 true] (.blocked (.landing 0))) 0).holdsBack 0 = true) ∧ (((owed [res 9 1] [] .ready).ctx 0).seg = none ∧ AtBoundary ((owed [res 9 1] [] .ready).ctx 0)) ∧
    ((res 9 1).due ≤ ((owed [res 9 1] [] .ready).ctx 0).ct ∧ ((owed [res 10 1] [] .ready).ctx 0).ct < (res 10 1).due) ∧
    (AtBoundary ((owed [] [lnd 9 true] .ready).ctx 0) ∧ (lnd 9 true).due ≤ ((owed [] [lnd 9 true] .ready).ctx 0).ct ∧
      ((owed [] [lnd 10 true] .ready).ctx 0).ct < (lnd 10 true).due ∧ (lnd 9 false).arrived = false ∧ (lnd 9 true).data = some (.s (w 7))) ∧
    (((owed [] [lnd 9 true] (.blocked (.landing 0))).ctx 0).act = .blocked (.landing 0) ∧
      ((owed [] [lnd 9 true] (.blocked (.landing 0))).ctx 0).land = [lnd 9 true]) ∧
    (AtBoundary ((owed [res 8 1, res 9 2] [] .ready).ctx 0) ∧ (5 : SReg) ≠ 0 ∧
      mwf .zero ((owed [res 8 1, res 9 2] [] .ready).ctx 0).regs.s = true) := by
  simp only [AtBoundary]
  decide +kernel

theorem wit_RegistersDelivered : mwf .zero (base.ctx 0).regs.s = true ∧ mwf .zero (base.ctx 0).regs.p = true ∧
    mwf .zero (base.ctx 0).regs.v = true ∧ (63 : SReg) ≠ 0 ∧ (15 : PReg) ≠ 0 := by decide +kernel

/-- Blocked on missing data since cycle 0, one cycle short of the limit and at it. -/
def late (n : Nat) : State := { owed [] [lnd 9 false] (.blocked (.landing 0)) with cycle := n }
theorem wit_LandingTimesOut : (∀ n ∈ [65535, 65536], ((late n).ctx 0).act = .blocked (.landing 0) ∧ ((late n).ctx 0).fixed = [] ∧
    ((late n).ctx 0).land = [lnd 9 false] ∧ (lnd 9 false).due ≤ ((late n).ctx 0).ct ∧ (lnd 9 false).dst = .s 5 ∧
    (lnd 9 false).since = some 0 ∧ ((late n).ctx 0).vac = [] ∧ ((late n).ctx 0).acc = [] ∧ ((late n).ctx 0).seg = none ∧ mwf .zero ((late n).ctx 0).regs.s = true) ∧
    (late 65535).cycle < 0 + 65536 ∧ 0 + 65536 ≤ (late 65536).cycle := by decide +kernel

/-- A port with no context running and contexts 0 and 2 ready; a ready context that keeps it; none ready. -/
def portState (r : Option (Fin 4)) (a : Act) : State :=
  ((ctx0 fun c => { c with act := a }).modCtx 2 fun c => { c with act := a }).modCore 0 fun k => { k with running := r, last := 0 }
theorem wit_SelectorSwitches : ((portState none .ready).core 0).stopped = false ∧ ((portState none .ready).core 0).gated = false ∧
    ((portState none .ready).core 0).running = none ∧ (∀ i : Fin 4, ((portState none .ready).ctx (4 * 0 + i.val)).act = .ready ↔ (i = 0 ∨ i = 2)) ∧
    (∀ j : Fin 4, (j = 0 ∨ j = 2) → (2 - ((portState none .ready).core 0).last - 1 : Fin 4).val ≤ (j - ((portState none .ready).core 0).last - 1).val) ∧
    (((portState (some 0) .ready).core 0).running = some 0 ∧ ((portState (some 0) .ready).core 0).yielded = false ∧
      ((portState (some 0) .ready).core 0).released = false) ∧
    (let s := (portState (some 0) .ready).modCore 0 fun k => { k with released := true }
     (s.core 0).running = some 0 ∧ (s.core 0).released = true ∧ (s.ctx 0).act = .ready ∧
      (∀ j : Fin 4, (s.ctx (4 * 0 + j.val)).act = .ready → (2 - 0 - 1 : Fin 4).val ≤ (j - 0 - 1).val)) ∧
    (((portState (some 0) .halted).core 0).running = some 0 ∧ (∀ j : Fin 4, ((portState (some 0) .halted).ctx (4 * 0 + j.val)).act ≠ .ready) ∧
      (∀ j : Fin 4, ((portState none .halted).ctx (4 * 0 + j.val)).act ≠ .ready)) ∧
    (let s := (portState (some 0) .ready).modCore 0 fun k => { k with yielded := true }
     (s.core 0).running = some 0 ∧ (s.core 0).released = false ∧ (s.core 0).yielded = true ∧ (s.ctx 0).ctl.prio ≤ (s.ctx 2).ctl.prio ∧
      (∀ m : Fin 4, (s.ctx (4 * 0 + m.val)).act = .ready → (2 - 0 - 1 : Fin 4).val ≤ (m - 0 - 1).val)) := by decide +kernel

theorem walkOk_of {g : Walk} (h : (g matches .ok _) = true) : ∃ e, g = .ok e := by
  cases g <;> simp_all
theorem walkBad_of {g : Walk} (h : (g matches .fault _) = true) : ∃ e, g = .fault e := by
  cases g <;> simp_all

/-- A full matrix queue and one with a place; a queue with and without room; the rendezvous with the other context rewinding or not;
parking; a cause that ends the launch and one that does not; a soft error. -/
theorem wit_WaitsEnd : (∃ e, walkVA (eng id []) ((eng id []).who 0) 0x3FFFFFF8 = .ok e) ∧ (∃ e, walkVA base (base.who 0) 0x40000000 = .fault e) ∧
    ((acting (.blocked (.tlb 0x3FFFFFF8))).ctx 0).act = .blocked (.tlb 0x3FFFFFF8) ∧
    (mtxFull.ctx 0).mtx.queue.length = 8 ∧ ((queued .mswp).ctx 0).mtx.queue.length < 8 ∧ ((launchState none).queue 0).room = true ∧
    (let s := (ctx0 fun c => { c with act := .blocked .rendezvous }).modLaunch placedHall fun l => { l with team := [0, 4] }
     (s.ctx 0).act = .blocked .rendezvous ∧ (s.launch placedHall).any (fun l => l.team == [0, 4]) = true ∧ (s.ctx 4).rewindFlag = false ∧
     ((s.modCtx 4 fun c => { c with rewindFlag := true }).ctx 4).rewindFlag = true) ∧
    (let s := ctx0 fun c => { c with parkReq := true, boundary := true }
     (s.ctx 0).act = .ready ∧ (s.ctx 0).causes = [] ∧ (s.ctx 0).seg = none) ∧
    (let s := ctx0 fun c => { c with causes := [⟨⟨.budget, 0, 0, none⟩, true⟩] }
     (s.ctx 0).causes = [⟨⟨.budget, 0, 0, none⟩, true⟩] ∧ (s.ctx 0).act = .ready ∧ (s.ctx 0).fixed = [] ∧ (s.ctx 0).vac = [] ∧ (s.ctx 0).rel = [] ∧
     (s.ctx 0).rtiDone = false ∧ (s.ctx 0).seg = none) ∧
    (let s := ctx0 fun c => { c with causes := [⟨⟨.budget, 0, 0, none⟩, true⟩], rtiDone := true }
     (s.ctx 0).causes = [⟨⟨.budget, 0, 0, none⟩, true⟩] ∧ (s.ctx 0).act = .ready ∧ (s.ctx 0).rtiDone = true) ∧
    (let s := ctx0 fun c => { c with causes := [⟨⟨.align, 0, 0, none⟩, false⟩], act := .blocked (.mwait 3 none) }
     (s.ctx 0).causes = [⟨⟨.align, 0, 0, none⟩, false⟩] ∧ (s.ctx 0).act = .blocked (.mwait 3 none) ∧ (s.ctx 0).rtiDone = false) ∧
    ((63 : SReg) ≠ 0 ∧ (base.ctx 0).act ≠ .free ∧ mwf .zero (base.ctx 0).regs.s = true ∧ Fits (base.ctx 0) 63) :=
  ⟨walkOk_of dec, walkBad_of dec, dec, dec, dec, dec,
    dec, dec, dec, dec, dec, dec, dec, dec,
    fits_of⟩

/-- A segment rewound `n` times; s5 has a wrong residue. -/
def segState (n : Nat) : State := ctx0 fun c =>
  { (c.setS 5 ⟨8, residue 9, none⟩) with seg := some ⟨[], [], [], 0, 0, 0, 0, 0, [], n, false, false⟩ }

theorem wit_SegmentsRewind : (∀ n ∈ [1, 2], Turn (segState n) 0 (at0 (segState n)) ∧ ¬ Fits ((at0 (segState n)).ctx 0) 5 ∧
      ((at0 (segState n)).ctx 0).passes .always) ∧
    (∀ n ∈ [1, 2], (∀ i < 4, ((at0 (segState n)).ctx (4 * coreOf 0 + i)).acc = []) ∧ sp (at0 (segState n)) 0 5 = none ∧
      ((at0 (segState n)).ctx 0).seg = some ⟨[], [], [], 0, 0, 0, 0, 0, [], n, false, false⟩ ∧ ((at0 (segState n)).ctx 0).held < 32 ∧
      ((at0 (segState n)).ctx 0).fixed = [] ∧ ((at0 (segState n)).ctx 0).vac = [] ∧ 6 ≤ landL 6) := by
  refine ⟨fun n hn => ?_, dec⟩
  fin_cases hn <;>
    exact ⟨turn, unfit_of, passes_of⟩

/-- Context 0 trapped with a residue fault, its event delivered. -/
def event : TrapEvent := ⟨0, 0x08, 0, 0, 1, some placedHall⟩
def trapState (a : Act) (q d : List TrapEvent) : State := (acting a).modCluster 0 fun k => { k with events := q, delivered := d }

theorem wit_ControlCoreActs : (cluOf (coreOf 0) = 0 ∧ ((trapState .trapWaiting [] []).ctx 0).act = .trapWaiting ∧ ((trapState .trapWaiting [] []).ctx 0).rel = [] ∧
      ((trapState .trapWaiting [] []).ctx 0).mtx.queue = [] ∧ ((trapState .trapWaiting [] []).ctx 0).mtx.run = none ∧
      ((trapState .trapWaiting [] []).cluster 0).events = [] ∧ (trapState .trapWaiting [] []).ctxs.all (fun e => (e.1 == 0 || e.2.act != .trapWaiting) && e.2.lateEvent.isNone) = true) ∧
    (((trapState .trapped [event] []).cluster 0).events = [event] ∧ ((trapState .trapped [event] []).cluster 0).pairStopped = false) ∧
    (∀ a ∈ [Act.parked, .trapped, .ready, .halted], ((acting a).ctx 0).act = a ∧ ((acting a).ctx 0).hall = some placedHall ∧
      mwf .zero (acting a).ctxs = true) ∧
    ((base.launch placedHall).any fun l => decide (l.state = .running) && l.team == [0] && l.held.isEmpty) = true ∧
    (((trapState .trapped [] [event]).cluster 0).delivered = [event] ∧ event.cause.toNat % 256 = 0x08) := by decide +kernel

/-! ### Registers, transactions, the scheduler -/

/-- `base` with its one launch changed. -/
def solo (f : Launch → Launch) (g : Ctx → Ctx) : State := (ctx0 g).modLaunch placedHall f

/-- An access that is refused. -/
theorem refused_of {α : Type} {g : Except Trap α} (h : g.isOk = false) : ∃ f, g = .error f := by
  cases g <;> simp_all [Except.isOk, Except.toBool]

theorem wit_RegistersAreWritten : (100 ≤ (100 : Word).toNat % 2 ^ 32 ∧ (100000 : Word).toNat % 2 ^ 32 ≤ 100000 ∧ (99 : Word).toNat % 2 ^ 32 < 100 ∧
      100000 < (100001 : Word).toNat % 2 ^ 32) ∧
    ((1 : Word).getLsbD 0 = true ∧ (0x8000000000000000 : Word).getLsbD 63 = true ∧ (1 : Word).setWidth 8 ≠ 0#8) ∧
    (((launchState none).queue 0).en = true ∧ (0x83 : Word) &&& grantsMask ≠ 0) ∧
    (∀ a ∈ [Act.trapped, .ready, .parked], ((acting a).ctx 0).act = a) ∧
    ((copyState (chan 1 8 [⟨7, 0, 0⟩]) []).chan 0 0).map ≠ 0 ∧
    (base.sched.launches = [(placedHall, placedLaunch)] ∧ placedLaunch.state = .running ∧ placedLaunch.team = [0] ∧ placedLaunch.held = [] ∧
      cluOf (coreOf 0) = 0 ∧ mwf .zero base.ctxs = true) ∧ fresh0.sched.launches = [] ∧ mwf .zero base.clusters = true := by decide +kernel

theorem sig_full (n : Nat) : sigTest (BitVec.allOnes 4096) n = true := by
  simp only [sigTest, BitVec.getLsbD_allOnes, Bool.and_eq_true, decide_eq_true_eq]
  exact ⟨⟨(Config.sigHash 0 n).isLt, (Config.sigHash 1 n).isLt⟩, (Config.sigHash 2 n).isLt⟩
theorem sig_empty (n : Nat) : sigTest 0 n = false := by simp [sigTest]

/-- Two launches: the first committing with ticket 5, the second as given. -/
def duo (m : Launch) (e : List Shadow) : State :=
  let s := base.modSched fun x => { x with launches := [(0, { placedLaunch with state := .committing, ticket := some 5 }), (1, m)] }
  s.modMem fun x => { x with shadow := e }

/-- Two launches that wait for their tickets, the one of the lower queue last in the list. -/
def waitState : State :=
  let l := { placedLaunch with state := .committing, ticket := none }
  base.modSched fun x => { x with launches := [(1, { l with queue := 1 }), (0, l)] }

theorem wit_LaunchesCommitOrAbort :
    ((∀ e ∈ (solo id fun c => { c with act := .halted }).sched.launches, e.2.state = .committing → e.2.ticket ≠ none) ∧
      (∀ e ∈ (solo id fun c => { c with act := .halted }).sched.launches, e.1 = 0 → some e.2 = (solo id id).launch 0) ∧
      ((solo (fun l => { l with state := .committing }) id).launch 0).any (fun l => decide (l.state = .committing)) = true ∧
      waitState.turnToDraw 0 0 = true ∧ waitState.turnToDraw 1 0 = true) ∧
    ((storeState.modMem fun m => { m with shadow := [⟨4, 0, some 9, ⟨[], [], none⟩⟩] }).mem.oldest (homeDie 4) = some 9 ∧
      storeState.mem.oldest (homeDie 4) = none) ∧
    (let s := solo id fun c => { c with act := .halted }
     (s.launch 0).any (fun l => decide (l.state = .running ∧ l.ticket = none)) = true ∧ (∀ c ∈ [0], (s.ctx c).act = .halted) ∧
     (∀ k ∈ [0], ∀ e ∈ (s.cluster k).chans, e.2.hall = some 0 → e.2.state ≠ 1) ∧ s.turnToDraw 0 0 = true ∧ s.turnToDraw 0 1 = false) ∧
    ((base.launch 0).any (fun l => decide (l.state = .running ∧ 0 ∈ l.team ∧ l.budget ≠ 0)) = true ∧ (base.ctx 0).act = .ready ∧
      (base.ctx 0).causes = []) ∧
    ((1, { placedLaunch with state := .committing, ticket := some 4 }) ∈
        (duo { placedLaunch with state := .committing, ticket := some 4 } []).sched.launches ∧
      (((duo { placedLaunch with state := .committing, ticket := some 4 } []).launch 0).map fun l => (l.state, l.ticket)) =
        some (.committing, some 5) ∧ 4 < 5) ∧
    (let s := solo (fun l => { l with state := .aborted }) fun c => { c with act := .halted }
     (s.launch 0).any (fun l => decide (l.state = .aborted ∧ l.team = [0])) = true ∧ (s.ctx 0).act = .halted ∧ mwf .zero s.ctxs = true) ∧
    ((solo (fun l => { l with budget := 0 }) id).launch 0).any (fun l => decide (l.state = .running ∧ l.budget = 0)) = true ∧
    ((duo { placedLaunch with sig := BitVec.allOnes 4096 } [⟨4, 0, none, ⟨[], [], none⟩⟩]).mem.shadow.any fun e => e.hall == 0 && e.line == 4) = true ∧
    (let s := solo (fun l => { l with state := .committed, recNo := 1, touch := [⟨5, 0, true, false⟩, ⟨6, 0, false, true⟩] }) id
     (s.launch 0).any (fun l => decide (l.state = .committed ∧ l.team = [0] ∧ (∀ d ∈ l.touch, d.acked = true ∨ d.given = true) ∧
       (s.queue l.queue).head.toNat ≠ l.recNo ∧ finished (s.recOf l.queue (s.queue l.queue).head.toNat).state = false)) = true ∧
     mwf .zero s.ctxs = true) ∧
    ((solo (fun l => { l with state := .committed, touch := [⟨5, 0, false, false⟩] }) id).launch 0).any
      (fun l => decide (l.state = .committed ∧ ∃ d ∈ l.touch, d.acked = false ∧ d.given = false)) = true ∧
    Memory.wf storeState.mem.hbm = true ∧ storeState.mem.reported 4 = true := by decide +kernel

/-- Both outcomes of the signature test at a commit and at a host's write. -/
theorem wit_Signatures (n : Nat) : sigTest (BitVec.allOnes 4096) n = true ∧ sigTest 0 n = false := ⟨sig_full n, sig_empty n⟩

/-- Queue 0 of the host, a tail word at 0x2000, four slots. -/
def tailState (v : Nat) : State :=
  let s := put 0x2000 8 v (eng id [])
  { s with sched := { s.sched with queues := [(0, { Queue.zero with en := true, tail := 0x2000, lsize := 2 })] } }

/-- One record at 0x1000 of queue 0 for node 0 of image 7, which needs one cluster; zone 0 filled. -/
def readyState : State :=
  let s := put 0x2000 8 1 (put 0x1008 8 0x101000000 (put 0x1000 8 7 (eng (fun _ => .zero) [])))
  let s := { s with cores := (List.range 8).map fun k => (k, { Core.zero with freeAt := 1 }) }
  { s with
    sched := { s.sched with
      launches := []
      pshare := [(0, 1)]
      queues := [(0, { Queue.zero with en := true, base := 0x1000, tail := 0x2000, lsize := 2, seen := 1, recs := [(0, { Rec.zero with state := 1 })] })] }
    cool := { s.cool with zones := [(0, { Zone.zero with state := .filled, any := true, step := 15 })] }
    mgmt := { s.mgmt with images := [⟨7, 0, 0, 0x10, 0x21, [], [], [(0, 0)], 0, 0, false, false⟩] } }

theorem chosen_of {g : Option (Cand × State)} (h : (g.bind fun e => e.1.fit).isSome = true) :
    ∃ c u cl, g = some (c, u) ∧ c.fit = some cl := by
  obtain ⟨cl, h⟩ := Option.isSome_iff_exists.mp h
  obtain ⟨⟨c, u⟩, e, h⟩ := Option.bind_eq_some_iff.mp h
  exact ⟨c, u, cl, e, h⟩

/-- Partition 0 with an endpoint that accepts job 5. -/
def jobState : State :=
  let s := eng id []
  { s with mgmt := { s.mgmt with parts := [(0, some ⟨0, [], 0, 1, 0, 0, [5], false⟩)] } }

/-- The operator ring at the start of management-private memory. -/
def opRingState : State :=
  { jobState with tr := { jobState.tr with rsv := [(0, 0x8000000000800001)] }, mgmt := { jobState.mgmt with operatorRing := 0 } }

/-- An access within the operator ring, by the management endpoint; one of another endpoint; one past its end. -/
theorem wit_RingAccess : (opRingState.acceptsJob ⟨0, 6, Config.mgmtEndpoint⟩ = false ∧
      opRingState.ringAccess ⟨0, 6, Config.mgmtEndpoint⟩ 0 8 = some 0x10000) ∧
    (Config.mgmtEndpoint + 1 ≠ Config.mgmtEndpoint ∧ 0x2008 < (0x2001 : Word).toNat + 8) := by
  refine ⟨⟨dec, ?_⟩, by bv_omega, dec⟩
  simp only [State.ringAccess, true_and]
  decide

theorem wit_SchedulerActs :
    (jobState.acceptsJob ⟨0, 5, 0⟩ = true ∧ jobState.acceptsJob ⟨0, 6, 0⟩ = false ∧ jobState.acceptsJob ⟨9, 5, 0⟩ = false ∧
      jobState.acceptsJob ⟨0, 5, 1⟩ = false ∧ jobState.tr.keyPending = none ∧
      mwf 0 base.mem.spad = true ∧ mwf none base.mem.spadPoison = true ∧ mwf false base.mem.spadValid = true) ∧
    ((0 < ([7] : List Byte).length ∧ (0x107 : Word).toNat % 8 + ([7] : List Byte).length ≤ 8 ∧ 0x107 % 8 + ([7] : List Byte).length ≤ 8) ∧
      (∃ t, jobState.engineTarget (hostWho 0) .write 0x107 1 = .ok t ∧ decide (t = .mem 0x107 0) = true) ∧
      jobState.sched.launches = [(placedHall, placedLaunch)] ∧ mget none jobState.mem.lineKey (0x107 / 64) = none ∧
      (∀ e ∈ jobState.mem.shadow, e.line ≠ 0x107 / 64) ∧ mget none jobState.mem.hbmPoison (0x107 / 8) = none ∧
      mwf none jobState.mem.hbmPoison = true ∧ Memory.wf jobState.mem.hbm = true) ∧
    ((∃ l, jobState.engineTargets (hostWho 0) .read 0x107 200 = .ok l ∧ l.length = 4) ∧
      (∃ f, base.engineTargets (hostWho 0) .read 0x107 200 = .error f)) ∧
    (∀ v ∈ [0, 4, 5], ((tailState v).queue 0).en = true ∧ ((tailState v).queue 0).dev = false ∧
      (tailState v).tr.keyPending = none ∧ ((tailState v).awaitAt 0 (stampAddr ((tailState v).queue 0).tail.toNat) 8).hostWord? 0 (stampAddr ((tailState v).queue 0).tail.toNat) = some v ∧ ((tailState v).queue 0).seen = 0 ∧
      ((tailState v).queue 0).lsize.toNat = 2) ∧
    (readyState.sched.launches = [] ∧
      (let v := (readyState.queueNos.foldl State.refresh readyState).sampleDepth
       ∃ c u cl, v.chooseRec (v.queueNos.flatMap v.candsOf) = some (c, u) ∧ c.fit = some cl)) ∧
    (∀ t ∈ [[], [0]], ((solo (fun l => { l with state := .aborted, team := t }) id).sched.launches.map fun e => (e.1, e.2.state, e.2.team)) =
      [(0, .aborted, t)]) ∧
    ((∀ e ∈ base.mem.shadow, e.line ≠ 4) ∧ ∃ e ∈ storeState.mem.shadow, e.line = 4) :=
  ⟨dec, ⟨dec, made_of _ dec, dec, dec, dec, dec,
      dec, dec⟩,
    ⟨(made_of (fun l => l.length == 4) dec).imp fun l h => ⟨h.1, by simpa using h.2⟩, refused_of dec⟩,
    dec, ⟨dec, chosen_of dec⟩, dec, dec⟩

/-! ### Translation, errors, coolant, fabric -/

/-- A change of the translation state. -/
def transState (f : Trans → Trans) : State := { base with tr := f base.tr }

/-- A segment that holds an access numbered 3. -/
def holding (n : Nat) : State :=
  { ctx0 fun c => { c with seg := some ⟨[], [], [], 0, 0, 0, 0, 0, [.acc (loading none false)], 0, false, false⟩ } with
    tr := { base.tr with inv := some 1, invSeq := n } }
def Seg1 (s : State) (n : Nat) (p : Nat → Nat → Bool) : Bool :=
  s.tr.inv.isSome && s.ctxs.any fun e => e.2.heldLines.any fun l => match l with
    | .acc a => p n a.seq
    | _ => false

theorem wit_TranslationAndKeys :
    (Seg1 (holding 4) 4 (fun n a => decide (a < n)) = true ∧ Seg1 (holding 3) 3 (fun n a => decide (n ≤ a)) = true ∧
      (holding 3).tr.invNext = [] ∧ ((acting (.blocked .order)).ctx 0).act = .blocked .order) ∧
    ((0x1001 : Word).getLsbD 0 = true ∧ base.tr.inv = none ∧ (0x1001 : Word).extractLsb' 2 2 = 0#2 ∧ (0x1005 : Word).extractLsb' 2 2 = 1#2 ∧
      (0x1009 : Word).extractLsb' 2 2 = 2#2 ∧ (transState fun t => { t with inv := some 1 }).tr.inv ≠ none) ∧
    ((transState fun t => { t with inv := some 1, invSeq := 9 }).tr.inv = some 1 ∧
      (∀ e ∈ (transState fun t => { t with inv := some 1, invSeq := 9 }).ctxs, ∀ a ∈ e.2.acc, a.seq < 9 → ∀ l ∈ a.elems, l.done = true)) ∧
    (let s : State := { loadState none false with tr := { base.tr with inv := some 1, invSeq := 4 } }
     ∃ e ∈ s.ctxs, ∃ a ∈ e.2.acc, ∃ l ∈ a.elems, a.seq < s.tr.invSeq ∧ l.done = false) ∧
    (base.tr.keyPending = none ∧ (0xFFF1 : Word).extractLsb' 4 12 ≠ (0 : BitVec 12) ∧ (0xFFF1 : Word).extractLsb' 0 4 = 1#4 ∧
      (0x12 : Word).extractLsb' 0 4 = 2#4 ∧ (0x13 : Word).extractLsb' 0 4 = 3#4 ∧ base.mem.shadow = [] ∧ mwf .zero base.tr.keys = true) ∧
    ((transState fun t => { t with keyPending := some 0x11 }).tr.keyPending ≠ none ∧ (0x1 : Word).extractLsb' 4 12 = (0 : BitVec 12) ∧
      (0x10 : Word).extractLsb' 0 4 = 0#4 ∧ 4 ≤ ((0x14 : Word).extractLsb' 0 4).toNat) := by decide +kernel

/-- One context of core 0, and core 0 with its beat and misses. -/
def beatState (x : Ctx) (b : Bool) (m : Nat) : State :=
  { base with ctxs := [(0, x)], cores := [(0, { Core.zero with running := some 0, beaten := b, misses := m })] }

theorem wit_ErrorRecords :
    (let e : ErrRec := ⟨1, 2, 3, 0, 0, 0, 0, false⟩
     let s : State := { base with mgmt := { base.mgmt with errors := [e] } }
     s.mgmt.errors = [e] ∧ e.copied = false ∧ s.mgmt.errCopies.length < 65536) ∧
    ((base.modDie 0 fun d => { d with captures := [(63, { Capture.zero with ctl := 1 })] }).capture 0 63).ctl ≠ 0 ∧
    base.agenda = [] := by decide +kernel

/-- A load on its way to the HBM of die 1. -/
def farLoad : State := ctx0 fun c => { c with acc := [⟨3, .load, .relaxed, .ctx,
  [⟨0, 0x2000000000, .mem 0x2000000000 0, 8, 0, 0, none, false⟩], .zext 5, some placedHall, 0⟩] }

theorem wit_LinkFailure : ((farLoad.ctx 0).hall = some placedHall ∧ dieOf (coreOf 0) = 0 ∧
      (farLoad.ctx 0).acc.any (Access.inFlight 1) = true ∧ ∀ e ∈ base.ctxs, e.2.acc = []) ∧
    ((0 : DieNo) ≠ 1 ∧ base.fab.links = [] ∧ fresh0.fab.links = [] ∧ fresh0.sched.launches = []) ∧
    (base.sched.launches = [(placedHall, placedLaunch)] ∧ placedLaunch.state = .running ∧ placedLaunch.team = [0] ∧ placedLaunch.held = [] ∧
      mwf .zero base.ctxs = true) ∧
    ((∃ k ∈ [0, 8], k / 8 = 0) ∧ (∃ k ∈ [0, 8], k / 8 = 1) ∧ (∀ k ∈ placedLaunch.clusters, k / 8 ≠ 1)) := by decide +kernel

theorem wit_Heartbeat : ((base.ctx 0).hall = some placedHall ∧ (base.ctx 0).act = .ready ∧ (base.ctx 0).seg = none ∧ (base.ctx 0).causes = []) ∧
    (∀ b ∈ [true, false], ∀ m ∈ [0, 1], (beatState (base.ctx 0) b m).ctxs = [(0, base.ctx 0)] ∧
      mwf .zero (beatState (base.ctx 0) b m).cores = true ∧ ((beatState (base.ctx 0) b m).core 0).stopped = false ∧
      ((beatState (base.ctx 0) b m).core 0).beaten = b ∧ ((beatState (base.ctx 0) b m).core 0).misses = m ∧
      (beatState (base.ctx 0) b m).mgmt.snapshots = []) := by decide +kernel

theorem wit_ClusterBeat (x : Ctx) : (beatState { x with act := .blocked .msync, hall := some 0 } false 0).ctxs = [(4 * 0 + 0, (beatState { x with
    act := .blocked .msync, hall := some 0 } false 0).ctx (4 * 0 + 0))] := rfl

theorem wit_PairMismatch : (solo (fun l => { l with state := .committing }) id).sched.launches =
    [(placedHall, { placedLaunch with state := .committing })] ∧ placedLaunch.team = [0] ∧ placedLaunch.held = [] := by decide +kernel

/-- Zone `z` of a package without launches, in service level S1 at wall time `now`. -/
def zoneState (z : Nat) (x : Zone) (now : Nat) : State :=
  { fresh0 with wall := now, cool := { fresh0.cool with zones := [(z, x)], avail := 100 } }
def zone (st : ZState) : Zone := { Zone.zero with state := st }

theorem wit_CoolantSamples : ((zoneState 0 { zone .filled with step := 15 } 0).zone 0).state ≠ .dry ∧
    (let z := (zoneState 0 { zone .filled with step := 15 } 0).zone 0
     1 ≤ z.step.toNat ∧ (59 : BitVec 16).toNat < 4 * z.step.toNat ∧ 4 * z.step.toNat ≤ (60 : BitVec 16).toNat) ∧
    ((0 : BitVec 16).toNat + 144 < (145 : BitVec 16).toNat ∧ (144 : BitVec 16).toNat ≤ (0 : BitVec 16).toNat + 144) := by decide +kernel

/-- An HBM-edge zone takes 15 steps and in S2 no 8. -/
theorem wit_EdgeAllocations : (if (1 : BitVec 2) = 2 ∧ Config.edgeLoad 32 < 9 then 9 else Config.edgeLoad 32).toNat ≤ (15 : BitVec 4).toNat ∧
    (8 : BitVec 4).toNat < (if (2 : BitVec 2) = 2 ∧ Config.edgeLoad 32 < 9 then 9 else Config.edgeLoad 32).toNat := by
  have h := (Config.edgeLoad 32).isLt
  refine ⟨?_, ?_⟩ <;> split <;> simp_all [BitVec.lt_def] <;> omega

/-- An allocation that fits the budget to the last step, and those refused: over it, below what is in use, another owner's. -/
theorem wit_CoolantAllocations :
    (let s := zoneState 0 (zone .filled) 0
     s.stepSum - (s.zone 0).step.toNat + (15 : BitVec 4).toNat ≤ min s.cool.budget.toNat s.cool.avail.toNat ∧ (s.zone 0).inuse = 0 ∧
     (s.zone 0).state ≠ .dry ∧ s.stepSum ≤ (0 : BitVec 9).toNat ∧ s.mgmt.svc = 1) ∧
    (let s : State := { zoneState 0 (zone .filled) 0 with cool := { (zoneState 0 (zone .filled) 0).cool with avail := 14 } }
     min s.cool.budget.toNat s.cool.avail.toNat < s.stepSum - (s.zone 0).step.toNat + (15 : BitVec 4).toNat) ∧
    (let s := zoneState 0 { zone .filled with step := 3, inuse := 2 } 0
     (1 : BitVec 4).toNat < (s.zone 0).inuse.toNat ∧ (s.zone 0).inuse ≠ 0 ∧ (s.zone 0).owner ≠ (0x10000 : Word).extractLsb' 16 6 ∧
     (2 : BitVec 9).toNat < s.stepSum ∧ mwf .zero s.cool.zones = true) := by decide +kernel

/-- Wall time `n` microseconds after `t`. -/
def at_ (t n : Nat) : Nat := t + n * 1100

theorem wit_CoolantSteps :
    (let x := (zoneState 31 { zone .filled with lowCount := 100, tout := 561 } 7).zone 31
     x.state = .filled ∧ x.throttledAt = none ∧ 100 ≤ x.lowCount ∧ (100 ≤ x.deltaCount ∨ 560 < x.tout.toNat)) ∧
    (let x := (zoneState 31 { zone .filled with throttledAt := some 1, lowCount := 99, deltaCount := 99, tout := 560 } 7).zone 31
     x.state = .filled ∧ x.held = false ∧ x.throttledAt = some 1 ∧ x.lowCount < 100 ∧ x.deltaCount < 100 ∧ x.tout.toNat ≤ 560) ∧
    (let s := zoneState 31 { zone .withdrawn with throttledAt := some 1, clearSince := some 5 } (at_ 5 100000)
     (s.zone 31).state = .withdrawn ∧ (s.zone 31).clearSince = some 5 ∧ 5 + 100000 * 1100 ≤ s.wall ∧
     ¬ 6 + 100000 * 1100 ≤ s.wall) ∧
    (let s := zoneState 31 { zone .filled with throttledAt := some 1, lowCount := 100 } (at_ 1 10000)
     (s.zone 31).state = .filled ∧ (s.zone 31).throttledAt = some 1 ∧ 100 ≤ (s.zone 31).lowCount ∧ 1 + 10000 * 1100 ≤ s.wall ∧
     s.sched.launches = []) ∧
    (let s : State := { base with wall := at_ 1 10000, cool := { base.cool with zones := [(0, { zone .filled with throttledAt := some 1, lowCount := 100 })] } }
     s.sched.launches = [(0, placedLaunch)] ∧ cluOf (coreOf 0) = 0 ∧ (s.ctx 0).act = .ready ∧ (s.ctx 0).seg = none ∧ mwf .zero s.ctxs = true ∧
     (s.zone 0).state = .filled ∧ 1 + 10000 * 1100 ≤ s.wall) ∧
    (let x := (zoneState 31 { zone .filled with dp := 4, cond := 51 } 7).zone 31
     x.state = .filled ∧ x.dp.toNat < 5 ∧ 50 < x.cond.toNat ∧ (zone .filled).cond.toNat ≤ 50) ∧
    (let x := (zoneState 31 { zone .bleed with cond := 51 } 7).zone 31
     x.state = .bleed ∧ 50 < x.cond.toNat) ∧
    (∀ st ∈ [ZState.quiesce, .gated, .inletShut, .outletShut, .dry, .refill], ((zoneState 31 (zone st) 0).zone 31).state = st ∧
      ((zoneState 31 (zone st) 0).zone 31).stuck = false ∧ ((zoneState 31 (zone st) 0).zone 31).leaked = false ∧
      ((zoneState 31 (zone st) 0).zone 31).evac = false ∧ ((zoneState 31 (zone st) 0).zone 31).held = false) ∧
    (let s := (solo (fun l => { l with state := .committing }) id)
     s.sched.launches.map (fun e => (e.2.state, e.2.team)) = [(.committing, [0])] ∧ cluOf (coreOf 0) = 0) ∧
    ((zoneState 31 { zone .inletShut with stuck := true } (at_ 0 50000 + 1)).zone 31).stuck = true := by decide +kernel

theorem zone_other {z k : Nat} {x : Zone} {n : Nat} (h : k ≠ z) : (zoneState z x n).zone k = .zero := by
  simp [zoneState, State.zone, mget, h]

theorem wit_CoolantPurge : (∀ k < 31, ((zoneState 31 (zone .inletShut) 0).zone k).state ≠ .inletShut) ∧
    ∀ k, ((zoneState 31 (zone .inletShut) 0).zone k).state ≠ .purge := by
  refine ⟨dec, fun k => ?_⟩
  by_cases h : k = 31
  · subst h; decide +kernel
  · rw [zone_other h]; decide

/-- Two zones. -/
def zones2 (a b : Nat) (x y : Zone) : State := { fresh0 with cool := { fresh0.cool with zones := [(a, x), (b, y)] } }

theorem wit_CoolantWaits : ((zones2 30 31 (zone .inletShut) (zone .inletShut)).zone 30).state = .inletShut ∧
    ((zones2 30 31 (zone .inletShut) (zone .inletShut)).zone 30).stuck = false ∧
    ((zones2 30 31 (zone .inletShut) (zone .inletShut)).zone 31).state = .inletShut ∧
    (145 ≤ (145 : BitVec 16).toNat ∧ (155 : BitVec 16).toNat ≤ 155) ∧
    (9 ≤ (9 : BitVec 16).toNat ∧ (11 : BitVec 16).toNat ≤ 11 ∧ (50 : BitVec 16).toNat ≤ 50) ∧
    (zoneState 31 (zone .purge) 0).mgmt.svc = 1 ∧ (zone .purge).enteredAt = 0 := by decide +kernel

/-- The first moment a time has passed and the last before, which is the last a bound allows; the dry signature too late for a
purge, and full flow too late for a bleed. -/
theorem wit_CoolantBounds (t n : Nat) : (t + n * 1100 ≤ at_ t n ∧ ¬ t + 1 + n * 1100 ≤ at_ t n) ∧ (at_ t n ≤ t + n * 1100 ∧
      t + n * 1100 < at_ t n + 1) ∧ (at_ 0 4500000 + 500000 * 1100 ≤ at_ 0 5000000 ∧ at_ 0 5000000 < at_ 0 4500000 + 1 + 500000 * 1100) ∧
    (at_ 0 30000000 < at_ 0 28000000 + 1 + 2000000 * 1100 ∧ ¬ at_ 0 30000000 < at_ 0 28000000 + 2000000 * 1100) := by
  simp only [at_]; omega

/-- The states these conditions hold in. -/
theorem wit_CoolantEvacuation (n : Nat) :
    ((zoneState 31 { zone .purge with clearSince := some 5, dp := 145 } n).zone 31 = { zone .purge with clearSince := some 5, dp := 145 } ∧
      (zoneState 31 { zone .dry with leaked := true, evac := true } n).zone 31 = { zone .dry with leaked := true, evac := true } ∧
      (zoneState 31 { zone .bleed with clearSince := some 5, flow := 9, cond := 50 } n).zone 31 =
        { zone .bleed with clearSince := some 5, flow := 9, cond := 50 } ∧ (zoneState 31 (zone .purge) n).wall = n) := ⟨rfl, rfl, rfl, rfl⟩

theorem wit_HbmEdge : ((zones2 7 32 (zone .filled) { zone .filled with dp := 4 }).zone 32).state = .filled ∧
    ((zones2 7 32 (zone .filled) { zone .filled with dp := 4 }).zone 32).held = false ∧
    ((zones2 7 32 (zone .filled) { zone .filled with dp := 4 }).zone 32).dp.toNat < 5 ∧
    (zones2 7 32 (zone .filled) { zone .filled with dp := 4 }).sched.launches = [] ∧
    ((zones2 7 32 (zone .dry) { zone .filled with dp := 4 }).zone (8 * ((32 - 32) / 2) + 7)).state = .dry := by decide +kernel

/-- Port `p` in a state, enabled or not. -/
def portAt (p : Nat) (st : BitVec 3) (x : Ctx → Ctx) : State :=
  { ctx0 x with fab := { base.fab with ports := [(p, { Port.zero with state := st })] } }
def lksend (q : BitVec 4) : ColCmd := ⟨.lksend q, 0, 0, 0, false, 0, 3, none, none, false, 0, 0, none, 0⟩
def contrib : Contribution := ⟨7, 3, 0, 0x10000, 5, 0⟩
theorem none_later (s : State) (p : BitVec 16) : ¬ s.epochOf p < contrib.epoch := BitVec.not_lt_zero

/-- Window 0 homed here; staged entries `e`, `n` shadow slots. -/
def homeState (e : List Staged) (n : Nat) : State :=
  { (base.modMem fun m => { m with slots := n }) with
    fab := { base.fab with frwin := [(0, (0xC000000000000000, 0))], staged := e }
    sched := { base.sched with launches := [(7, placedLaunch)] } }

/-- Two entries of hallmark 7 in window 0, of doublewords that are added: 5 to 10, and 1 to the greatest, which wraps. -/
def commitState (sig : BitVec 4096) : State :=
  let s := homeState [⟨7, 3, 0, 0x10000, 5, 0⟩, ⟨8, 3, 0, 0x10000, 5, 0⟩, ⟨7, 3, 0, 0x10008, 1, 0⟩] 4
  (put 0x10008 8 (2 ^ 64 - 1) (put 0x10000 8 10 { s with fab := { s.fab with frwin := [(0, (0xC300000000000000, 0))] } })).modLaunch 7
    fun l => { l with sig := sig }

/-- A commit of entries no launch has read, and of one that another launch's signature holds. -/
theorem wit_WindowCommit :
    (let s := commitState 0
     let mine := s.fab.staged.filter fun e => decide (e.hall = 7)
     (∀ e ∈ s.fab.partials, e.hall ≠ 7) ∧ s.mem.shadow = [] ∧ mwf hbmDefault s.mem.hbm = true ∧ (mine.map fun e => e.pa / 8).Nodup ∧
     (∀ e ∈ mine, 2 ^ ((mget (0, 0) s.fab.frwin e.window.val).1.extractLsb' 56 2).toNat = 8 ∧ e.pa % 8 = 0 ∧
       mget none s.mem.hbmPoison (e.pa / 8) = none ∧ ((mget (0, 0) s.fab.frwin e.window.val).1.extractLsb' 58 4).toNat < 4 ∧
       ∀ x ∈ s.sched.launches, x.2.sig = 0)) ∧
    (let s := commitState (BitVec.allOnes 4096)
     s.fab.staged.filter (fun e => decide (e.hall = 8)) = [⟨8, 3, 0, 0x10000, 5, 0⟩] ∧ (∀ e ∈ s.fab.partials, e.hall ≠ 8) ∧
     s.sched.launches.map (fun x => (x.1, x.2.state)) = [(7, .running)]) ∧
    (let s : State := { homeState [] 4 with fab := { (homeState [] 4).fab with
       frwin := [(0, (0x8000000000000000, 0))], partials := [⟨7, 3, 0, 0x10000, 9, 0⟩] } }
     (mget (0, 0) s.fab.frwin contrib.window.val).1.getLsbD 62 = false ∧ s.fab.partials = [⟨7, 3, 0, 0x10000, 9, 0⟩] ∧
     (s.launch contrib.hall).any (fun l => decide (l.state = .running)) = true) := by decide +kernel

/-- What the addition leaves. -/
theorem test_window_commit : (List.range 16).map (fun i => mget hbmDefault (after (.windowCommitMessage 7) { commitState 0 with sched := { base.sched with launches := [] } }).mem.hbm (0x10000 + i)) =
    [15, 0, 0, 0, 0, 0, 0, 0, 0, 0, 0, 0, 0, 0, 0, 0] := by decide +kernel

theorem pkg_other : Config.pkgId + 1 ≠ Config.pkgId := by bv_omega

theorem wit_FabricActs :
    ((base.port 15).state = 0 ∧ (base.port 15).en = false ∧ (∀ st ∈ [(1 : BitVec 3), 2, 3], ((portAt 15 st id).port 15).state = st)) ∧
    (let s : State := { fresh0 with fab := { base.fab with ports := [(15, { Port.zero with state := 2 })] } }
     (s.port 15).state = 2 ∧ s.sched.launches = [] ∧ s.ctxs = []) ∧
    (∀ q ∈ [(15 : BitVec 4), 14], let s := portAt 15 2 fun c => { c with col := [lksend q] }
     (s.port 15).state = 2 ∧ s.sched.launches = [(0, placedLaunch)] ∧ mwf .zero s.ctxs = true ∧ (∀ e ∈ s.ctxs, e.1 ≠ 0 → e.2.col = []) ∧
     (s.ctx 0).acc = [] ∧ (s.ctx 0).col = [lksend q] ∧ (lksend q).want = none) ∧
    (let e : Staged := ⟨7, 3, 0, 0x10000, 9, 0⟩
     base.fab.partials = [] ∧ e.hall = contrib.hall ∧ e.pa = contrib.pa ∧ e.home = contrib.home ∧
     (mget (0, 0) (homeState [e] 4).fab.frwin contrib.window.val).1.getLsbD 62 = true ∧ (homeState [e] 4).fab.partials = [] ∧
     (homeState [e] 4).fab.staged = [e] ∧ (∀ d ∈ ([⟨8, 3, 0, 0x10000, 9, 0⟩] : List Staged), ¬ (d.hall = contrib.hall ∧ d.pa = contrib.pa)) ∧
     (homeState [] 4).slotsUsed (homeDie (contrib.pa / 64)) < (homeState [] 4).mem.slots ∧ (homeState [] 0).mem.slots = 0 ∧
     (homeState [] 0).launch contrib.hall = some placedLaunch ∧ placedLaunch.state = .running) ∧
    (({ homeState [] 4 with fab := { (homeState [] 4).fab with partials := [⟨7, 3, 0, 0x10000, 9, 0⟩] } } : State).slotsUsed
      (homeDie (contrib.pa / 64)) < 4) ∧
    (Config.pkgId + 1 ≠ Config.pkgId ∧ base.epochOf 5 < 1 ∧ ¬ base.epochOf 5 < 0) ∧
    (∀ r ∈ [63, 64], (solo (fun l => { l with state := .committed, touch := [⟨5, r, false, false⟩] }) id).sched.launches.map
      (fun e => (e.2.state, e.2.team, e.2.touch)) = [(.committed, [0], [⟨5, r, false, false⟩])]) := by
  refine ⟨dec, dec, dec, dec, dec, ⟨pkg_other, ?_⟩, dec⟩
  unfold State.epochOf
  split <;> decide +kernel

/-! ### The management core's commands -/

theorem heads_of {s : State} {r : RingNo} (p : Cmd → Bool) (h : (s.headCmd r.val).any (fun c => s.turnOf r.val &&
    decide ((s.ring r.val).seq < c.seq) && c.clean && (r.val != 64 || c.signed s.mgmt.operatorKey) && p c) = true) :
    ∃ c, Heads s r c ∧ p c = true := by
  cases hc : s.headCmd r.val <;> simp only [hc, Option.any_some, Option.any_none, Bool.false_eq_true, Bool.and_eq_true, Bool.or_eq_true] at h
  rename_i c
  refine ⟨c, ⟨hc, h.1.1.1.1, of_decide_eq_true h.1.1.1.2, h.1.1.2, fun e => h.1.2.resolve_left ?_⟩, h.2⟩
  simp [e]

/-- The partition of the tests. -/
def part0 (dbg : Bool) : Part := ⟨0, [], 0, 8, 0x4000, 0, [5], dbg⟩

/-- Partition 0's ring with a command at its head: op, sequence number 1, five arguments, the response's address. -/
def ringState (dbg : Bool) (op a0 a1 a4 : Nat) (i : List Image) : State :=
  let s := put 0x6000 8 1 (put 0x4000 64 (op + (1 <<< 64) + (a0 <<< 128) + (a1 <<< 192) + (a4 <<< 384) + (0x8000 <<< 448)) (eng id []))
  { s with mgmt := { s.mgmt with parts := [(0, some (part0 dbg))], images := i } }

/-- An image of a partition. -/
def image (h : BitVec 32) (p : Fin 64) : Image := ⟨h, p, 0, 0x10, 0x21, [], [], [], 0, 0, false, false⟩

/-- A string that can be read and one that cannot; a debug load allowed or not; an image owned, another's, none. -/
theorem wit_PartitionImages : (ringState false 1 0 0 0 []).partition 0 = some (part0 false) ∧
    (∃ c, Heads (ringState false 1 0x40000000 8 0 []) 0 c ∧ (c.op == 1 && (((ringState false 1 0x40000000 8 0 []).awaitRing 0).stringAt (partFin 0) (c.a 0) (c.a 1)).isNone) = true) ∧
    (∃ c, Heads (ringState false 1 0x1000 8 0 []) 0 c ∧ (c.op == 1 && (((ringState false 1 0x1000 8 0 []).awaitRing 0).stringAt (partFin 0) (c.a 0) (c.a 1)).isSome) = true) ∧
    (∃ c, Heads (ringState true 5 0x1000 8 0 []) 0 c ∧ (c.op == 5 && (((ringState true 5 0x1000 8 0 []).awaitRing 0).stringAt (partFin 0) (c.a 0) (c.a 1)).isSome) = true) ∧
    (∃ c, Heads (ringState true 5 0x40000000 8 0 []) 0 c ∧ (c.op == 5 && (((ringState true 5 0x40000000 8 0 []).awaitRing 0).stringAt (partFin 0) (c.a 0) (c.a 1)).isNone) = true) ∧
    (∃ c, Heads (ringState false 5 0x1000 8 0 []) 0 c ∧ (c.op == 5) = true) ∧
    (∃ c, Heads (ringState false 2 7 0 0 [image 7 0]) 0 c ∧ (c.op == 2 && c.a 0 == 7) = true) ∧
    (∃ c, Heads (ringState false 2 8 0 0 [image 7 0, image 8 1]) 0 c ∧ (c.op == 2 && c.a 0 == 8) = true) ∧
    (∃ c, Heads (ringState false 2 9 0 0 [image 7 0]) 0 c ∧ (c.op == 2 && c.a 0 == 9) = true) :=
  ⟨rfl, heads_of _ dec, heads_of _ dec, heads_of _ dec, heads_of _ dec, heads_of _ dec,
    heads_of _ dec, heads_of _ dec, heads_of _ dec⟩

/-- Queues 7 and 8 of a partition that owns eight, at sizes 2 and 16 and outside them; reports of no image, its own, another's, and a
nonce that cannot be read; an op that is not listed. -/
theorem wit_PartitionQueues :
    (∃ c, Heads (ringState false 3 7 1 0x41 []) 0 c ∧ (c.op == 3 && decide (c.a 0 = 7 ∧ ((c.a 4).extractLsb' 5 5).toNat = 2)) = true) ∧
    (∃ c, Heads (ringState false 3 8 1 0x201 []) 0 c ∧ (c.op == 3 && decide (c.a 0 = 8 ∧ ((c.a 4).extractLsb' 5 5).toNat = 16)) = true) ∧
    (∃ c, Heads (ringState false 3 7 1 0x221 []) 0 c ∧ (c.op == 3 && decide (16 < ((c.a 4).extractLsb' 5 5).toNat)) = true) ∧
    (∃ c, Heads (ringState false 3 1024 1 0x41 []) 0 c ∧ (c.op == 3 && decide (1024 ≤ (c.a 0).toNat)) = true) ∧
    ((ringState false 3 7 1 0x41 []).queue 7).owner = partFin 0 ∧
    (∃ c, Heads (ringState false 4 0x1000 0 0 []) 0 c ∧ (c.op == 4 && decide (c.a 1 = 0) &&
      (((ringState false 4 0x1000 0 0 []).awaitRing 0).stringAt (partFin 0) (c.a 0) 32).isSome) = true) ∧
    (∃ c, Heads (ringState false 4 0x1000 7 0 [image 7 0]) 0 c ∧ (c.op == 4 && decide (c.a 1 ≠ 0) &&
      ((ringState false 4 0x1000 7 0 [image 7 0]).byHandle (c.a 1)).isSome) = true) ∧
    (∃ c, Heads (ringState false 4 0x1000 8 0 [image 8 1]) 0 c ∧ (c.op == 4 && ((ringState false 4 0x1000 8 0 [image 8 1]).byHandle (c.a 1)).any
      fun i => decide (i.part ≠ partFin 0)) = true) ∧
    (∃ c, Heads (ringState false 4 0x40000000 0 0 []) 0 c ∧ (c.op == 4 && (((ringState false 4 0x40000000 0 0 []).awaitRing 0).stringAt (partFin 0) (c.a 0) 32).isNone) = true) ∧
    (∃ c, Heads (ringState false 4 0x1000 9 0 [image 7 0]) 0 c ∧ (c.op == 4 && decide (c.a 1 ≠ 0) &&
      ((ringState false 4 0x1000 9 0 [image 7 0]).byHandle (c.a 1)).isNone && (((ringState false 4 0x1000 9 0 [image 7 0]).awaitRing 0).stringAt (partFin 0) (c.a 0) 32).isSome) = true) ∧
    (∃ c, Heads (ringState false 0x1B 0 0 0 []) 0 c ∧ (!listed 0 c.op) = true) :=
  ⟨heads_of _ dec, heads_of _ dec, heads_of _ dec, heads_of _ dec, rfl, heads_of _ dec,
    heads_of _ dec, heads_of _ dec, heads_of _ dec, heads_of _ dec,
    heads_of _ dec⟩

/-! Operator commands. A command of 128 bytes carries the signature its key (chosen with it) verifies. -/

/-- The operator's ring at 0x20000, with a command at its head (its 64 bytes and a half of its signature), and a key. -/
def opState (f : State → State) (v : List Byte × List Byte) (k : BitVec 256 × BitVec 256) : State :=
  let s := (eng id []).modMem fun m => { m with
    hbm := m.hbm ++ (((List.range 128).map (0x20000 + ·)).zip (v.1 ++ v.2 ++ v.2)).filter (·.2 != 0) ++ [(0x22000, 1)] }
  f { s with
    tr := { s.tr with rsv := [(0, 0x8000000FFF800002)] }
    mgmt := { s.mgmt with operatorKey := k, parts := [(0, some (part0 false))] } }

/-- A command of the operator's ring. -/
def cmdOf (v : List Byte × List Byte) : Cmd := Cmd.ofBytes true ((v.1 ++ v.2 ++ v.2).map (·, none))

/-- Bytes of a word. -/
def wordBytes (w : Word × Option Tag) : List PByte := (List.range 8).map fun j => (w.1.extractLsb' (8 * j) 8, w.2)

theorem readBytes_word (rd : Nat → Word × Option Tag) (q n : Nat) : readBytes rd (8 * q) (n + 8) = wordBytes (rd q) ++ readBytes rd (8 * (q + 1)) n := by
  have h (j : Nat) (hj : j < 8) : (8 * q + j) / 8 = q ∧ (8 * q + j) % 8 = j := by omega
  have d : 8 * q / 8 = q := by omega
  simp only [readBytes, wordBytes, List.range, List.range.loop, List.map, List.cons_append, List.nil_append, Nat.add_assoc, Nat.reduceAdd,
    h 1 (by decide), h 2 (by decide), h 3 (by decide), h 4 (by decide), h 5 (by decide), h 6 (by decide), h 7 (by decide), d,
    Nat.mul_mod_right, Nat.mul_add, Nat.reduceMul]

theorem readBytes_words (rd : Nat → Word × Option Tag) (m q : Nat) :
    readBytes rd (8 * q) (8 * m) = (List.range m).flatMap fun j => wordBytes (rd (q + j)) := by
  induction m generalizing q with
  | zero => rfl
  | succ m ih =>
    rw [Nat.mul_succ, readBytes_word, ih, List.range_succ_eq_map, List.flatMap_cons, List.flatMap_map]
    simp only [Nat.succ_eq_add_one, Nat.add_zero, Nat.add_assoc, Nat.add_comm 1]

/-- Does the operator's ring at 0x20000 hold its first command, which passes every check and `p`? -/
def opHolds (s : State) (c : Cmd) (p : Cmd → Bool) : Bool :=
  s.holdsCmd 64 && decide ((s.ring 64).taken = 0 ∧ s.privPa (s.mgmt.operatorRing.toNat + 0) = some 0x20000) &&
    (s.privPa (s.mgmt.operatorRing.toNat + 0 + 128)).isSome && s.turnOf 64 && decide ((s.ring 64).seq < c.seq) && c.clean &&
    c.signed s.mgmt.operatorKey && p c

theorem opHead {s : State} {v : List Byte × List Byte} {p : Cmd → Bool} (h : opHolds s (cmdOf v) p = true)
    (hb : ((List.range 16).flatMap fun j => wordBytes
      (((s.mem.view none ((0x4000 + j) / 8)).under ((0x4000 + j) / 8) none).word ((0x4000 + j) % 8))) = (v.1 ++ v.2 ++ v.2).map (·, none)) :
    s.headCmd 64 = some (cmdOf v) := by
  simp only [opHolds, Bool.and_eq_true, decide_eq_true_eq] at h
  obtain ⟨⟨⟨⟨⟨⟨⟨h1, h2, h3⟩, h4⟩, -⟩, -⟩, -⟩, -⟩, -⟩ := h
  obtain ⟨q, h4⟩ := Option.isSome_iff_exists.mp h4
  have hr : s.ringBytes 64 0 128 = some ((v.1 ++ v.2 ++ v.2).map (·, none)) := by
    simp only [State.ringBytes, operatorNo, if_true, h3, h4, State.readMem, Trans.material, Option.some.injEq]
    exact (readBytes_words _ 16 0x4000).trans hb
  rw [State.headCmd, if_pos h1, h2]
  exact congrArg (Option.map (Cmd.ofBytes true)) hr

theorem op_heads {f : State → State} {v : List Byte × List Byte} {k : BitVec 256 × BitVec 256} {p : Cmd → Bool}
    (h : opHolds (opState f v k) (cmdOf v) p = true)
    (hb : ((List.range 16).flatMap fun j => wordBytes
      ((((opState f v k).mem.view none ((0x4000 + j) / 8)).under ((0x4000 + j) / 8) none).word ((0x4000 + j) % 8))) = (v.1 ++ v.2 ++ v.2).map (·, none)) :
    ∃ c, Heads (opState f v k) 64 c ∧ p c = true := by
  have hc := opHead h hb
  simp only [opHolds, Bool.and_eq_true, decide_eq_true_eq] at h
  obtain ⟨⟨⟨⟨⟨-, h5⟩, h6⟩, h7⟩, h8⟩, h9⟩ := h
  exact ⟨_, ⟨hc, h5, h6, h7, fun _ => h8⟩, h9⟩

/-- Nothing runs. -/
def idle (s : State) : State := { s with sched := { s.sched with launches := [] } }

def cmd_pcreate : List Byte × List Byte :=
  ([16, 0, 0, 0, 0, 0, 0, 0, 1, 0, 0, 0, 0, 0, 0, 0, 0, 0, 0, 0, 0, 0, 0, 0, 0, 0, 0, 0, 0, 0, 0, 0, 0, 0, 16, 0, 0, 0, 0, 0, 0, 64, 0, 0, 0, 0, 0, 0, 0, 16, 0, 0, 0, 0, 0, 0, 0, 128, 0, 0, 0, 0, 0, 0],
    [103, 181, 108, 182, 222, 19, 169, 150, 234, 240, 38, 75, 191, 176, 184, 6, 50, 38, 85, 181, 22, 85, 207, 254, 8, 139, 75, 6, 238, 185, 73, 65])
def key_pcreate : BitVec 256 × BitVec 256 :=
  (0x3C6A83353945EC194A8311AB9C5FB46BCB049D801D67DD244ADE29D30E447706,
    0x4C4C3F9519F228E3590069B6E3969082B8F69D9C3E8DA043C2FC3B515121F3E5)
def cmd_pcreateBad : List Byte × List Byte :=
  ([16, 0, 0, 0, 0, 0, 0, 0, 4, 0, 0, 0, 0, 0, 0, 0, 0, 0, 0, 0, 0, 0, 0, 0, 0, 0, 0, 0, 0, 0, 0, 0, 0, 0, 0, 0, 0, 0, 0, 0, 0, 64, 0, 0, 0, 0, 0, 0, 0, 0, 0, 64, 0, 0, 0, 0, 0, 128, 0, 0, 0, 0, 0, 0],
    [244, 148, 55, 104, 133, 248, 169, 90, 235, 214, 233, 209, 114, 229, 176, 242, 152, 14, 4, 5, 72, 87, 168, 23, 126, 140, 81, 1, 111, 217, 111, 130])
def key_pcreateBad : BitVec 256 × BitVec 256 :=
  (0xE2CE743C1CEE53FA1F3BF9F5BEA00ADC136537DA4DB37C46E5912F1B8AD04F02,
    0x80F7B1A2431BC7887E1230FA2A7100E0EF7695C929CA7F1060B98A82B244AE6F)

/-- No partition, a descriptor that asks for zone 0, and that zone free or in use. -/
def zoneAsked (z : Zone) (s : State) : State :=
  put 0x1008 8 1 { s with mgmt := { s.mgmt with parts := [] }, cool := { s.cool with zones := [(0, z)] } }

/-- A descriptor that cannot be read; one that can, of every queue, for a partition that exists and one that does not; its zone taken
and not. -/
theorem wit_Pcreate :
    (∃ c, Heads (opState id cmd_pcreateBad key_pcreateBad) 64 c ∧ (c.op == 0x10 && ((opState id cmd_pcreateBad key_pcreateBad).partDesc (partFin c.target) (c.a 4)).isNone) = true) ∧
    (∃ c, Heads (opState id cmd_pcreate key_pcreate) 64 c ∧ (c.op == 0x10 && ((opState id cmd_pcreate key_pcreate).partDesc (partFin c.target) (c.a 4)).isSome && decide ((c.a 2).toNat % 2 ^ 10 + (c.a 2).toNat / 2 ^ 10 % 2 ^ 11 ≤ 1024 ∧ (c.a 2).toNat < 2 ^ 29) && ((opState id cmd_pcreate key_pcreate).partition (partFin c.target).val).isSome) = true) ∧
    (∃ c, Heads (opState (fun s => { s with mgmt := { s.mgmt with parts := [] } }) cmd_pcreate key_pcreate) 64 c ∧ (c.op == 0x10 && ((opState (fun s => { s with mgmt := { s.mgmt with parts := [] } }) cmd_pcreate key_pcreate).partDesc (partFin c.target) (c.a 4)).isSome && decide ((opState (fun s => { s with mgmt := { s.mgmt with parts := [] } }) cmd_pcreate key_pcreate).mgmt.parts = [])) = true) ∧
    (∃ c, Heads (opState (zoneAsked { zone .filled with inuse := 1 }) cmd_pcreate key_pcreate) 64 c ∧
      (((opState (zoneAsked { zone .filled with inuse := 1 }) cmd_pcreate key_pcreate).partDesc (partFin c.target) (c.a 4)).any (fun d => d.zones.testBit 0) &&
        (opState (zoneAsked { zone .filled with inuse := 1 }) cmd_pcreate key_pcreate).zoneTaken (partFin c.target).val 0) = true) ∧
    (∃ c, Heads (opState (zoneAsked (zone .filled)) cmd_pcreate key_pcreate) 64 c ∧
      (((opState (zoneAsked (zone .filled)) cmd_pcreate key_pcreate).partDesc (partFin c.target) (c.a 4)).any (fun d => decide (d.zones = 1)) &&
        !(opState (zoneAsked (zone .filled)) cmd_pcreate key_pcreate).zoneTaken (partFin c.target).val 0) = true) :=
  ⟨op_heads dec dec,
    op_heads dec dec,
    op_heads dec dec,
    op_heads dec dec,
    op_heads dec dec⟩
def cmd_pswapout : List Byte × List Byte :=
  ([17, 0, 0, 0, 0, 0, 0, 0, 3, 0, 0, 0, 0, 0, 0, 0, 0, 0, 0, 0, 0, 0, 0, 0, 0, 0, 0, 0, 0, 0, 0, 0, 0, 0, 0, 0, 0, 0, 0, 0, 0, 0, 0, 0, 0, 0, 0, 0, 0, 0, 0, 0, 0, 0, 0, 0, 0, 128, 0, 0, 0, 0, 0, 0],
    [11, 19, 239, 55, 85, 56, 28, 116, 4, 44, 206, 198, 13, 190, 130, 132, 188, 212, 94, 215, 180, 237, 105, 221, 86, 177, 244, 53, 251, 0, 28, 158])
def key_pswapout : BitVec 256 × BitVec 256 :=
  (0x5319115B04955C64FC5A67CBAF3784BB16589C5BCA408D6D2D213C79D5DB2B9E,
    0xCD9E1721273BD04A38E24D4D4BDE0A54363817EA9F4325AEC8AF48EA1D1C16D1)
def cmd_pswapin : List Byte × List Byte :=
  ([18, 0, 0, 0, 0, 0, 0, 0, 1, 0, 0, 0, 0, 0, 0, 0, 0, 0, 0, 0, 0, 0, 0, 0, 0, 0, 0, 0, 0, 0, 0, 0, 0, 0, 0, 0, 0, 0, 0, 0, 0, 0, 0, 0, 0, 0, 0, 0, 0, 0, 0, 0, 0, 0, 0, 0, 0, 128, 0, 0, 0, 0, 0, 0],
    [136, 176, 225, 189, 240, 137, 140, 148, 98, 108, 186, 120, 51, 118, 127, 145, 238, 177, 30, 229, 124, 62, 247, 213, 113, 106, 177, 28, 37, 153, 207, 64])
def key_pswapin : BitVec 256 × BitVec 256 :=
  (0xDFBFDD7DBB63F757EB63F8DEA9D0A9B50DC7CF55DE3080135BB30C8E53DB1C36,
    0x8587BB512E0AAAED1E04F24F9AA64EEA17EAB43577026222650E7A0C0C8B9E1D)
def cmd_preset : List Byte × List Byte :=
  ([19, 0, 0, 0, 0, 0, 0, 0, 1, 0, 0, 0, 0, 0, 0, 0, 0, 0, 0, 0, 0, 0, 0, 0, 0, 0, 0, 0, 0, 0, 0, 0, 0, 0, 0, 0, 0, 0, 0, 0, 0, 0, 0, 0, 0, 0, 0, 0, 0, 0, 0, 0, 0, 0, 0, 0, 0, 128, 0, 0, 0, 0, 0, 0],
    [61, 101, 182, 82, 167, 139, 153, 191, 105, 23, 194, 88, 123, 176, 91, 175, 226, 141, 124, 203, 154, 181, 164, 172, 11, 128, 148, 187, 11, 57, 4, 81])
def key_preset : BitVec 256 × BitVec 256 :=
  (0xF710BF863C4AEF1161DEB3DB7494BE191CE46837B4870B81ADBB48E96BA72109,
    0x4DA31020BFA887FEF617804442796E149139B574B304484BC2B408A8676394C9)
def cmd_pdestroy : List Byte × List Byte :=
  ([20, 0, 0, 0, 0, 0, 0, 0, 2, 0, 0, 0, 0, 0, 0, 0, 0, 0, 0, 0, 0, 0, 0, 0, 0, 0, 0, 0, 0, 0, 0, 0, 0, 0, 0, 0, 0, 0, 0, 0, 0, 0, 0, 0, 0, 0, 0, 0, 0, 0, 0, 0, 0, 0, 0, 0, 0, 128, 0, 0, 0, 0, 0, 0],
    [136, 39, 210, 27, 231, 207, 144, 177, 226, 45, 122, 86, 224, 86, 29, 72, 211, 170, 78, 49, 225, 242, 178, 190, 141, 2, 174, 179, 78, 72, 4, 251])
def key_pdestroy : BitVec 256 × BitVec 256 :=
  (0x15284C3D065019BD9BDB7BDE6C2131949F3A4147FE6FA27A00E8AC48BAF5207E,
    0x2EBB1A65426B9CE7B31875A4727C22418C481D5CBFC51F297F7E5CF30C545307)

/-- A partition that runs a launch is swapped out, in, reset and destroyed; one that runs none, with a queue, is reset. -/
theorem wit_Partitions :
    (∃ c, Heads (opState id cmd_pswapout key_pswapout) 64 c ∧ (c.op == 0x11 && ((opState id cmd_pswapout key_pswapout).partition c.target).isSome && decide ((opState id cmd_pswapout key_pswapout).sched.launches = [(placedHall, placedLaunch)] ∧ placedLaunch.part = partFin c.target ∧ mwf .zero (opState id cmd_pswapout key_pswapout).ctxs = true)) = true) ∧
    (∃ c, Heads (opState id cmd_pswapin key_pswapin) 64 c ∧ (c.op == 0x12 && ((opState id cmd_pswapin key_pswapin).partition c.target).isSome) = true) ∧
    (∃ c, Heads (opState id cmd_preset key_preset) 64 c ∧ (c.op == 0x13 && ((opState id cmd_preset key_preset).partition c.target).isSome && decide ((opState id cmd_preset key_preset).sched.launches = [(placedHall, placedLaunch)] ∧ placedLaunch.part = partFin c.target ∧ mwf .zero (opState id cmd_preset key_preset).ctxs = true)) = true) ∧
    (∃ c, Heads (opState (fun s => { idle s with sched := { (idle s).sched with queues := [(0, .zero)] } }) cmd_preset key_preset) 64 c ∧ (c.op == 0x13 && ((opState (fun s => { idle s with sched := { (idle s).sched with queues := [(0, .zero)] } }) cmd_preset key_preset).partition c.target).isSome && decide ((opState (fun s => { idle s with sched := { (idle s).sched with queues := [(0, .zero)] } }) cmd_preset key_preset).sched.launches = [] ∧ (opState (fun s => { idle s with sched := { (idle s).sched with queues := [(0, .zero)] } }) cmd_preset key_preset).sched.queues.map (fun e => (e.1, e.2.owner)) = [(0, partFin c.target)])) = true) ∧
    (∃ c, Heads (opState id cmd_pdestroy key_pdestroy) 64 c ∧ (c.op == 0x14 && ((opState id cmd_pdestroy key_pdestroy).partition c.target).isSome && decide ((opState id cmd_pdestroy key_pdestroy).tr.keyPending = none ∧ mwf none (opState id cmd_pdestroy key_pdestroy).mgmt.parts = true)) = true) ∧
    (∃ c, Heads (opState (fun s => { s with tr := { s.tr with keyPending := some 0x11 } }) cmd_pdestroy key_pdestroy) 64 c ∧ (c.op == 0x14 && ((opState (fun s => { s with tr := { s.tr with keyPending := some 0x11 } }) cmd_pdestroy key_pdestroy).partition c.target).isSome && decide ((opState (fun s => { s with tr := { s.tr with keyPending := some 0x11 } }) cmd_pdestroy key_pdestroy).tr.keyPending ≠ none)) = true) :=
  ⟨op_heads dec dec,
    op_heads dec dec,
    op_heads dec dec,
    op_heads dec dec,
    op_heads dec dec,
    op_heads dec dec⟩
def cmd_key0 : List Byte × List Byte :=
  ([21, 0, 0, 0, 0, 0, 0, 0, 1, 0, 0, 0, 0, 0, 0, 0, 0, 0, 0, 0, 0, 0, 0, 0, 0, 0, 0, 0, 0, 0, 0, 0, 0, 0, 0, 0, 0, 0, 0, 0, 0, 0, 0, 0, 0, 0, 0, 0, 0, 0, 0, 0, 0, 0, 0, 0, 0, 128, 0, 0, 0, 0, 0, 0],
    [184, 33, 10, 93, 243, 79, 16, 47, 0, 153, 226, 129, 228, 230, 127, 20, 115, 218, 218, 210, 90, 175, 233, 179, 255, 10, 183, 207, 79, 248, 88, 66])
def key_key0 : BitVec 256 × BitVec 256 :=
  (0xDD6802FFA71414F50D139A5B1C58099F093439AC0B2AEE9F476D543CA8BB1E45,
    0x737C561BBCFF2967B5022D96CEC62826EBC5C2BF673B257B90761D816CA9E8E9)
def cmd_key1 : List Byte × List Byte :=
  ([21, 0, 0, 0, 0, 0, 0, 0, 3, 0, 0, 0, 0, 0, 0, 0, 1, 0, 0, 0, 0, 0, 0, 0, 0, 0, 0, 0, 0, 0, 0, 0, 0, 0, 0, 0, 0, 0, 0, 0, 0, 0, 0, 0, 0, 0, 0, 0, 0, 0, 0, 0, 0, 0, 0, 0, 0, 128, 0, 0, 0, 0, 0, 0],
    [234, 185, 53, 207, 2, 164, 49, 213, 94, 206, 30, 126, 164, 78, 78, 205, 71, 238, 231, 219, 165, 243, 94, 17, 222, 53, 90, 181, 84, 65, 193, 119])
def key_key1 : BitVec 256 × BitVec 256 :=
  (0xC3D9C67E216C647F87ADC802FECE6C4B2850D47EA1B2D26CF4D00A40FDF53A40,
    0x45A04F05A7008AA193033974BA0C60541A27D800FFA7E08AE64F7AF592D460B2)
def cmd_key4095 : List Byte × List Byte :=
  ([21, 0, 0, 0, 0, 0, 0, 0, 3, 0, 0, 0, 0, 0, 0, 0, 255, 15, 0, 0, 0, 0, 0, 0, 1, 0, 0, 0, 0, 0, 0, 0, 0, 0, 0, 0, 0, 0, 0, 0, 0, 0, 0, 0, 0, 0, 0, 0, 0, 0, 0, 0, 0, 0, 0, 0, 0, 128, 0, 0, 0, 0, 0, 0],
    [50, 44, 102, 168, 235, 19, 163, 24, 164, 73, 165, 29, 11, 222, 141, 27, 203, 85, 50, 179, 255, 131, 123, 3, 137, 39, 39, 249, 205, 166, 146, 123])
def key_key4095 : BitVec 256 × BitVec 256 :=
  (0xAA3D65672EDF44C4AD46A696C0438987D7961806D7FD3055D144A4315C04B8B1,
    0x11429CA468AC157B8C811944E52E760B7E8AC4151B7F5731587BDE33EA3B796C)
def cmd_key4096 : List Byte × List Byte :=
  ([21, 0, 0, 0, 0, 0, 0, 0, 4, 0, 0, 0, 0, 0, 0, 0, 0, 16, 0, 0, 0, 0, 0, 0, 0, 0, 0, 0, 0, 0, 0, 0, 0, 0, 0, 0, 0, 0, 0, 0, 0, 0, 0, 0, 0, 0, 0, 0, 0, 0, 0, 0, 0, 0, 0, 0, 0, 128, 0, 0, 0, 0, 0, 0],
    [176, 193, 65, 36, 135, 188, 129, 223, 177, 82, 49, 20, 230, 215, 188, 26, 30, 64, 0, 193, 52, 198, 191, 118, 104, 90, 152, 199, 211, 209, 162, 143])
def key_key4096 : BitVec 256 × BitVec 256 :=
  (0x5486BF4ACE645503D2853B0F9882E723969ACA566C8EF0EDB58AA5B099B728CC,
    0x78F670B0785E99E265277C9BA29157BCC42F1CF700ACB15BFE05AAF0A42A432F)
def cmd_dbg1 : List Byte × List Byte :=
  ([29, 0, 0, 0, 0, 0, 0, 0, 1, 0, 0, 0, 0, 0, 0, 0, 1, 0, 0, 0, 0, 0, 0, 0, 0, 0, 0, 0, 0, 0, 0, 0, 0, 0, 0, 0, 0, 0, 0, 0, 0, 0, 0, 0, 0, 0, 0, 0, 0, 0, 0, 0, 0, 0, 0, 0, 0, 128, 0, 0, 0, 0, 0, 0],
    [229, 226, 244, 50, 248, 15, 106, 11, 37, 105, 146, 8, 46, 229, 16, 243, 102, 207, 64, 127, 14, 49, 175, 170, 22, 255, 176, 79, 31, 62, 13, 17])
def key_dbg1 : BitVec 256 × BitVec 256 :=
  (0x6E2141389057B59A78558C613F6A831B3C59C80B5B44701D5514B37AE3C91F40,
    0x1A4EDC637D6EE0EC1D195A7F861A86037152122331464D93ECA4BF3FA4492D5B)
def cmd_dbg0 : List Byte × List Byte :=
  ([29, 0, 0, 0, 0, 0, 0, 0, 2, 0, 0, 0, 0, 0, 0, 0, 0, 0, 0, 0, 0, 0, 0, 0, 0, 0, 0, 0, 0, 0, 0, 0, 0, 0, 0, 0, 0, 0, 0, 0, 0, 0, 0, 0, 0, 0, 0, 0, 0, 0, 0, 0, 0, 0, 0, 0, 0, 128, 0, 0, 0, 0, 0, 0],
    [248, 89, 114, 89, 6, 244, 82, 23, 153, 29, 235, 95, 33, 105, 21, 11, 241, 10, 177, 87, 21, 234, 247, 246, 171, 122, 120, 225, 199, 88, 153, 160])
def key_dbg0 : BitVec 256 × BitVec 256 :=
  (0x226ECD309C5E3961B83E3D66B7A2B2D2956A040BF1C4F3FA9A3FB3742016CCF6,
    0x8BC7BB9E2A173E5BA6757F23D74F1B8944A54BCDE85EE58B968152679C8F8099)

/-- Key slots 0, 1, its own and another partition's, 4,095 and 4,096; debug loading allowed and forbidden. -/
theorem wit_KeysAndDebug :
    (∃ c, Heads (opState id cmd_key0 key_key0) 64 c ∧ (c.op == 0x15 && ((opState id cmd_key0 key_key0).partition c.target).isSome && decide ((opState id cmd_key0 key_key0).tr.keyPending = none) && decide ((c.a 0).toNat = 0)) = true) ∧
    (∃ c, Heads (opState id cmd_key1 key_key1) 64 c ∧ (c.op == 0x15 && ((opState id cmd_key1 key_key1).partition c.target).isSome && decide ((opState id cmd_key1 key_key1).tr.keyPending = none) && decide (0 < (c.a 0).toNat) && !(opState id cmd_key1 key_key1).keyForeign (partFin c.target) (c.a 0).toNat) = true) ∧
    (∃ c, Heads (opState (fun s => { s with tr := { s.tr with keys := [(1, ⟨true, 0, 9, false⟩)] } }) cmd_key1 key_key1) 64 c ∧
      (c.op == 0x15 && (opState (fun s => { s with tr := { s.tr with keys := [(1, ⟨true, 0, 9, false⟩)] } }) cmd_key1 key_key1).keyForeign (partFin c.target) (c.a 0).toNat) = true) ∧
    (∃ c, Heads (opState id cmd_key4095 key_key4095) 64 c ∧ (c.op == 0x15 && ((opState id cmd_key4095 key_key4095).partition c.target).isSome && decide ((opState id cmd_key4095 key_key4095).tr.keyPending = none) && decide ((c.a 0).toNat < 4096)) = true) ∧
    (∃ c, Heads (opState id cmd_key4096 key_key4096) 64 c ∧ (c.op == 0x15 && ((opState id cmd_key4096 key_key4096).partition c.target).isSome && decide ((opState id cmd_key4096 key_key4096).tr.keyPending = none) && decide (4096 ≤ (c.a 0).toNat)) = true) ∧
    (∃ c, Heads (opState id cmd_dbg1 key_dbg1) 64 c ∧ (c.op == 0x1D && ((opState id cmd_dbg1 key_dbg1).partition c.target).isSome && decide (c.a 0 = 1)) = true) ∧
    (∃ c, Heads (opState id cmd_dbg0 key_dbg0) 64 c ∧ (c.op == 0x1D && ((opState id cmd_dbg0 key_dbg0).partition c.target).isSome && decide (c.a 0 = 0)) = true) :=
  ⟨op_heads dec dec, op_heads dec dec,
    op_heads dec dec,
    op_heads dec dec,
    op_heads dec dec,
    op_heads dec dec,
    op_heads dec dec⟩
def cmd_svc3 : List Byte × List Byte :=
  ([22, 0, 0, 0, 0, 0, 0, 0, 7, 0, 0, 0, 0, 0, 0, 0, 0, 0, 0, 0, 0, 0, 0, 0, 3, 0, 0, 0, 0, 0, 0, 0, 0, 0, 0, 0, 0, 0, 0, 0, 0, 0, 0, 0, 0, 0, 0, 0, 0, 0, 0, 0, 0, 0, 0, 0, 0, 128, 0, 0, 0, 0, 0, 0],
    [195, 32, 31, 32, 31, 22, 36, 243, 88, 107, 62, 146, 58, 175, 220, 79, 159, 65, 173, 78, 16, 254, 165, 212, 90, 205, 195, 196, 1, 147, 153, 94])
def key_svc3 : BitVec 256 × BitVec 256 :=
  (0x30A20F65551958213182F377056B2652CFACF9B1E6FEB6AEAB8844D06765E561,
    0xCB655538A926431638CEDC5FEA8FC932C5F2A5378543C5FEF6630D90F6E12FE7)
def cmd_svc2 : List Byte × List Byte :=
  ([22, 0, 0, 0, 0, 0, 0, 0, 3, 0, 0, 0, 0, 0, 0, 0, 1, 0, 0, 0, 0, 0, 0, 0, 2, 0, 0, 0, 0, 0, 0, 0, 0, 0, 0, 0, 0, 0, 0, 0, 0, 0, 0, 0, 0, 0, 0, 0, 0, 0, 0, 0, 0, 0, 0, 0, 0, 128, 0, 0, 0, 0, 0, 0],
    [109, 106, 217, 176, 135, 107, 125, 86, 130, 2, 105, 253, 114, 197, 21, 201, 114, 255, 51, 183, 54, 170, 145, 187, 230, 166, 215, 139, 141, 239, 77, 158])
def key_svc2 : BitVec 256 × BitVec 256 :=
  (0x151037F98CA22FB247B853329CE961B4FE8BAF2D8BE9957F7132B1C2D2F029F3,
    0xDD58551D5AF7075D2787710ED91F638F7A7C7B31BFD29588AD5F40293E8F4768)
def cmd_svc1 : List Byte × List Byte :=
  ([22, 0, 0, 0, 0, 0, 0, 0, 2, 0, 0, 0, 0, 0, 0, 0, 0, 0, 0, 0, 0, 0, 0, 0, 1, 0, 0, 0, 0, 0, 0, 0, 0, 0, 0, 0, 0, 0, 0, 0, 0, 0, 0, 0, 0, 0, 0, 0, 0, 0, 0, 0, 0, 0, 0, 0, 0, 128, 0, 0, 0, 0, 0, 0],
    [97, 131, 167, 225, 115, 85, 46, 156, 230, 70, 17, 59, 254, 23, 42, 95, 171, 78, 71, 120, 41, 84, 77, 255, 229, 48, 87, 127, 54, 39, 16, 110])
def key_svc1 : BitVec 256 × BitVec 256 :=
  (0x0F6FD77019D8BEB2EAC0CC6F2E6499C683F316143D3B6CCBAD3B09C5D5EE071A,
    0xA57623267C7AD4F7491AE2836C54D99FD3E45C892BBDC0F2DFE0FDB2003CC2C4)

/-- No level 3; level 2 with zones dry and with all filled and nothing running; back to level 1. -/
theorem wit_ServiceLevels :
    (∃ c, Heads (opState id cmd_svc3 key_svc3) 64 c ∧ (c.op == 0x16 && decide (c.a 1 ≠ 1 ∧ c.a 1 ≠ 2)) = true) ∧
    (∃ c, Heads (opState id cmd_svc2 key_svc2) 64 c ∧ (c.op == 0x16 && decide ((c.a 0).toNat ≤ 1 ∧ c.a 1 = 2 ∧ (opState id cmd_svc2 key_svc2).mgmt.svc ≠ 2) && !(opState id cmd_svc2 key_svc2).allFilled) = true) ∧
    (∃ c, Heads (opState (fun s => { idle s with cool := { s.cool with zones := (List.range 40).map fun z => (z, { Zone.zero with state := .filled }) } }) cmd_svc2 key_svc2) 64 c ∧ (c.op == 0x16 && decide ((c.a 0).toNat ≤ 1 ∧ c.a 1 = 2 ∧ (opState (fun s => { idle s with cool := { s.cool with zones := (List.range 40).map fun z => (z, { Zone.zero with state := .filled }) } }) cmd_svc2 key_svc2).mgmt.svc = 1) && (opState (fun s => { idle s with cool := { s.cool with zones := (List.range 40).map fun z => (z, { Zone.zero with state := .filled }) } }) cmd_svc2 key_svc2).allFilled && (opState (fun s => { idle s with cool := { s.cool with zones := (List.range 40).map fun z => (z, { Zone.zero with state := .filled }) } }) cmd_svc2 key_svc2).live.isEmpty) = true) ∧
    (∃ c, Heads (opState (fun s => { idle s with mgmt := { s.mgmt with svc := 2 } }) cmd_svc1 key_svc1) 64 c ∧ (c.op == 0x16 && decide ((c.a 0).toNat ≤ 1 ∧ c.a 1 = 1 ∧ (opState (fun s => { idle s with mgmt := { s.mgmt with svc := 2 } }) cmd_svc1 key_svc1).mgmt.svc = 2 ∧ mwf .zero (opState (fun s => { idle s with mgmt := { s.mgmt with svc := 2 } }) cmd_svc1 key_svc1).cool.zones = true) && (opState (fun s => { idle s with mgmt := { s.mgmt with svc := 2 } }) cmd_svc1 key_svc1).live.isEmpty) = true) :=
  ⟨op_heads dec dec,
    op_heads dec dec,
    op_heads dec dec,
    op_heads dec dec⟩
def cmd_ckpt : List Byte × List Byte :=
  ([23, 0, 0, 0, 0, 0, 0, 0, 3, 0, 0, 0, 0, 0, 0, 0, 0, 0, 0, 0, 0, 0, 0, 0, 0, 0, 0, 0, 0, 0, 0, 0, 0, 0, 0, 0, 0, 0, 0, 0, 0, 0, 0, 0, 0, 0, 0, 0, 0, 0, 0, 0, 0, 0, 0, 0, 0, 128, 0, 0, 0, 0, 0, 0],
    [94, 160, 90, 115, 103, 12, 189, 195, 176, 173, 148, 90, 63, 194, 183, 222, 237, 224, 132, 107, 109, 228, 1, 132, 241, 224, 79, 123, 215, 46, 213, 185])
def key_ckpt : BitVec 256 × BitVec 256 :=
  (0xBE3C10C3BD60629D8F0F62686FD19CB05A4A123D5CA626F745A25D8243DCD081,
    0x3936136ECCEF8509E6C89DCEA18C1D7F1C060A838B808579295811239BF0F572)
def cmd_restore : List Byte × List Byte :=
  ([24, 0, 0, 0, 0, 0, 0, 0, 1, 0, 0, 0, 0, 0, 0, 0, 0, 0, 0, 0, 0, 0, 0, 0, 0, 0, 0, 0, 0, 0, 0, 0, 0, 0, 0, 0, 0, 0, 0, 0, 0, 0, 0, 0, 0, 0, 0, 0, 0, 0, 0, 0, 0, 0, 0, 0, 0, 128, 0, 0, 0, 0, 0, 0],
    [222, 146, 136, 38, 155, 189, 99, 85, 242, 16, 1, 222, 244, 102, 196, 162, 65, 215, 176, 54, 11, 168, 47, 125, 89, 223, 228, 88, 113, 1, 107, 159])
def key_restore : BitVec 256 × BitVec 256 :=
  (0x5A307F0CBB8470B323F8F7EB5147D14FA60D05325ECEF270FB43E288FB785B93,
    0xC06C75C2FC9D23F8B3CB50B84C3006CC23D7A1DEDB71C31E59D561C6BB43B58E)

/-- With and without a launch running. -/
theorem wit_Checkpoints :
    (∃ c, Heads (opState idle cmd_ckpt key_ckpt) 64 c ∧ (c.op == 0x17 && (opState idle cmd_ckpt key_ckpt).live.isEmpty) = true) ∧
    (∃ c, Heads (opState id cmd_ckpt key_ckpt) 64 c ∧ (c.op == 0x17 && !(opState id cmd_ckpt key_ckpt).live.isEmpty && !(c.a 2).getLsbD 0 && decide ((opState id cmd_ckpt key_ckpt).mgmt.waitFrom = none)) = true) ∧
    (∃ c, Heads (opState id cmd_restore key_restore) 64 c ∧ (c.op == 0x18 && !(opState id cmd_restore key_restore).live.isEmpty) = true) ∧
    (∃ c, Heads (opState idle cmd_restore key_restore) 64 c ∧ (c.op == 0x18 && (opState idle cmd_restore key_restore).live.isEmpty) = true) :=
  ⟨op_heads dec dec,
    op_heads dec dec,
    op_heads dec dec,
    op_heads dec dec⟩
def cmd_cap255 : List Byte × List Byte :=
  ([25, 0, 0, 0, 0, 0, 0, 0, 2, 0, 0, 0, 0, 0, 0, 0, 255, 0, 0, 0, 0, 0, 0, 0, 1, 0, 0, 0, 0, 0, 0, 0, 0, 0, 0, 0, 0, 0, 0, 0, 0, 0, 0, 0, 0, 0, 0, 0, 0, 0, 0, 0, 0, 0, 0, 0, 0, 128, 0, 0, 0, 0, 0, 0],
    [195, 114, 30, 34, 250, 246, 202, 247, 223, 102, 206, 155, 251, 19, 77, 216, 139, 83, 200, 95, 97, 77, 100, 241, 28, 246, 231, 77, 188, 222, 213, 209])
def key_cap255 : BitVec 256 × BitVec 256 :=
  (0x574A8931671771CACF2B9112AD350B1F11879611683C0CECB643265567C9CEC8,
    0x5712356C1D9C7FF7C524112689514D75CD9A7C2E74A8585071B1E567A0631D41)
def cmd_cap256 : List Byte × List Byte :=
  ([25, 0, 0, 0, 0, 0, 0, 0, 1, 0, 0, 0, 0, 0, 0, 0, 0, 1, 0, 0, 0, 0, 0, 0, 0, 0, 0, 0, 0, 0, 0, 0, 0, 0, 0, 0, 0, 0, 0, 0, 0, 0, 0, 0, 0, 0, 0, 0, 0, 0, 0, 0, 0, 0, 0, 0, 0, 128, 0, 0, 0, 0, 0, 0],
    [75, 34, 41, 146, 5, 144, 236, 69, 26, 15, 203, 252, 249, 236, 242, 111, 212, 58, 238, 159, 62, 19, 179, 253, 17, 42, 133, 184, 78, 136, 72, 24])
def key_cap256 : BitVec 256 × BitVec 256 :=
  (0x4DB38B1E8E3E13D7CCD01D5518C6E658F46BCD8646F1AF28E2B4DF66E2CD8037,
    0x35C382E13DE5961D5675B41A8762F355C7A66BDFE7553954F7D0AB7BF4D48D14)
def cmd_mreadBad : List Byte × List Byte :=
  ([26, 0, 0, 0, 0, 0, 0, 0, 1, 0, 0, 0, 0, 0, 0, 0, 248, 255, 255, 255, 255, 127, 255, 255, 8, 0, 0, 0, 0, 0, 0, 0, 0, 16, 0, 0, 0, 0, 0, 0, 0, 0, 0, 0, 0, 0, 0, 0, 0, 0, 0, 0, 0, 0, 0, 0, 0, 128, 0, 0, 0, 0, 0, 0],
    [12, 146, 18, 193, 72, 193, 209, 4, 116, 96, 206, 134, 212, 189, 61, 149, 253, 110, 64, 152, 244, 111, 202, 165, 0, 133, 96, 124, 189, 176, 246, 69])
def key_mreadBad : BitVec 256 × BitVec 256 :=
  (0x520349BD158A27DAB49FED617EEC14DC0846ADFDE966D7A83D3CD29B63C6D4E7,
    0xC5DAFC94D50D94EB8464572C6082AF641A51569273E184BE035C9957C9097FEA)
def cmd_mread : List Byte × List Byte :=
  ([26, 0, 0, 0, 0, 0, 0, 0, 3, 0, 0, 0, 0, 0, 0, 0, 0, 0, 0, 0, 0, 128, 255, 255, 8, 0, 0, 0, 0, 0, 0, 0, 0, 16, 0, 0, 0, 0, 0, 0, 0, 0, 0, 0, 0, 0, 0, 0, 0, 0, 0, 0, 0, 0, 0, 0, 0, 128, 0, 0, 0, 0, 0, 0],
    [138, 62, 63, 54, 25, 145, 83, 174, 3, 253, 187, 188, 186, 127, 113, 96, 50, 241, 253, 53, 89, 76, 231, 132, 105, 218, 35, 142, 19, 236, 74, 16])
def key_mread : BitVec 256 × BitVec 256 :=
  (0x21A28640FD2EC8C709F57D56C3C1944E953C87C887B62711B1DC161BF32B153F,
    0xBE4EFDDE1FFD5D12C2102565D62569E516ED6C78BD529B440326FAFC1FAC1E64)
def cmd_mreadNone : List Byte × List Byte :=
  ([26, 0, 0, 0, 0, 0, 0, 0, 1, 0, 0, 0, 0, 0, 0, 0, 0, 0, 0, 0, 0, 240, 255, 255, 8, 0, 0, 0, 0, 0, 0, 0, 0, 16, 0, 0, 0, 0, 0, 0, 0, 0, 0, 0, 0, 0, 0, 0, 0, 0, 0, 0, 0, 0, 0, 0, 0, 128, 0, 0, 0, 0, 0, 0],
    [158, 85, 72, 100, 9, 234, 142, 93, 62, 180, 196, 73, 49, 110, 133, 207, 223, 173, 198, 65, 146, 83, 109, 55, 62, 49, 147, 22, 69, 211, 198, 195])
def key_mreadNone : BitVec 256 × BitVec 256 :=
  (0x2143EBA108FE4BA0227BD9463150B19143F6B23929BF987F8C9CA3C577A06D17,
    0x5DE042031C85FB5E36CD0EF2D5064E66F9B3B8EAC33648BA135162F75199D0C5)

/-- Capture units 255 and 256; management space at its first byte, below it and outside its blocks. -/
theorem wit_CaptureAndReads :
    (∃ c, Heads (opState id cmd_cap255 key_cap255) 64 c ∧ (c.op == 0x19 && decide ((c.a 0).toNat < 256 ∧ c.a 1 &&& 0x80FFFFFFFFFFFFFF ≠ 0)) = true) ∧
    (∃ c, Heads (opState id cmd_cap256 key_cap256) 64 c ∧ (c.op == 0x19 && decide (256 ≤ (c.a 0).toNat)) = true) ∧
    (∃ c, Heads (opState id cmd_mreadBad key_mreadBad) 64 c ∧ (c.op == 0x1A && decide ((c.a 0).toNat < mgmtBase)) = true) ∧
    (∃ c, Heads (opState id cmd_mread key_mread) 64 c ∧ (c.op == 0x1A && decide (mgmtBase ≤ (c.a 0).toNat ∧ (c.a 1).toNat ≤ 2 ^ 29) && ((opState id cmd_mread key_mread).spaceBytes ((c.a 0).toNat - mgmtBase) (c.a 1).toNat).isSome) = true) ∧
    (∃ c, Heads (opState id cmd_mreadNone key_mreadNone) 64 c ∧ (c.op == 0x1A && decide (mgmtBase ≤ (c.a 0).toNat) && ((opState id cmd_mreadNone key_mreadNone).spaceBytes ((c.a 0).toNat - mgmtBase) (c.a 1).toNat).isNone) = true) :=
  ⟨op_heads dec dec,
    op_heads dec dec,
    op_heads dec dec,
    op_heads dec dec,
    op_heads dec dec⟩
def cmd_hb99 : List Byte × List Byte :=
  ([27, 0, 0, 0, 0, 0, 0, 0, 3, 0, 0, 0, 0, 0, 0, 0, 99, 0, 0, 0, 0, 0, 0, 0, 0, 0, 0, 0, 0, 0, 0, 0, 0, 0, 0, 0, 0, 0, 0, 0, 0, 0, 0, 0, 0, 0, 0, 0, 0, 0, 0, 0, 0, 0, 0, 0, 0, 128, 0, 0, 0, 0, 0, 0],
    [49, 200, 88, 119, 186, 231, 27, 203, 115, 0, 19, 31, 254, 116, 253, 82, 127, 79, 141, 53, 45, 166, 106, 151, 70, 204, 69, 69, 110, 163, 6, 222])
def key_hb99 : BitVec 256 × BitVec 256 :=
  (0x5C610A3E375C03868A4689281EB5FB4CD9093F30747944EA20CB6AA43145E7A7,
    0x1C8B8FB1305F3B114EF88D123E7B4B692ACB6B36C2B61A59C94C38976FBF5228)
def cmd_hb100 : List Byte × List Byte :=
  ([27, 0, 0, 0, 0, 0, 0, 0, 1, 0, 0, 0, 0, 0, 0, 0, 100, 0, 0, 0, 0, 0, 0, 0, 0, 0, 0, 0, 0, 0, 0, 0, 0, 0, 0, 0, 0, 0, 0, 0, 0, 0, 0, 0, 0, 0, 0, 0, 0, 0, 0, 0, 0, 0, 0, 0, 0, 128, 0, 0, 0, 0, 0, 0],
    [204, 147, 32, 143, 25, 166, 228, 113, 62, 245, 242, 217, 244, 61, 158, 73, 54, 34, 131, 141, 237, 223, 86, 140, 181, 151, 123, 129, 59, 34, 22, 98])
def key_hb100 : BitVec 256 × BitVec 256 :=
  (0x682EA1E18DBE9942F5DC8E8208094882587102E8838CAC4556AD662F49CB00F6,
    0x0276DCB7D60DB898EDCAE9F0656F80F7CEFFC9D5F5D89C041E975117AC5EAB78)
def cmd_hb100000 : List Byte × List Byte :=
  ([27, 0, 0, 0, 0, 0, 0, 0, 2, 0, 0, 0, 0, 0, 0, 0, 160, 134, 1, 0, 0, 0, 0, 0, 0, 0, 0, 0, 0, 0, 0, 0, 0, 0, 0, 0, 0, 0, 0, 0, 0, 0, 0, 0, 0, 0, 0, 0, 0, 0, 0, 0, 0, 0, 0, 0, 0, 128, 0, 0, 0, 0, 0, 0],
    [115, 197, 83, 4, 4, 145, 164, 173, 10, 224, 204, 130, 84, 30, 172, 195, 169, 26, 27, 107, 184, 251, 50, 99, 110, 26, 223, 75, 66, 115, 94, 114])
def key_hb100000 : BitVec 256 × BitVec 256 :=
  (0xDE75FD94C0E7B7C9848CA5A123015240368882BF7392945DD5306EE269B44A6F,
    0xF3378E6D0626CAE3B955DDCAA23DB8CD5580273CCF82501860A90C2426F91931)
def cmd_hb100001 : List Byte × List Byte :=
  ([27, 0, 0, 0, 0, 0, 0, 0, 1, 0, 0, 0, 0, 0, 0, 0, 161, 134, 1, 0, 0, 0, 0, 0, 0, 0, 0, 0, 0, 0, 0, 0, 0, 0, 0, 0, 0, 0, 0, 0, 0, 0, 0, 0, 0, 0, 0, 0, 0, 0, 0, 0, 0, 0, 0, 0, 0, 128, 0, 0, 0, 0, 0, 0],
    [43, 171, 151, 255, 195, 59, 4, 47, 127, 217, 238, 148, 98, 141, 174, 239, 170, 177, 194, 220, 233, 118, 56, 60, 243, 75, 148, 242, 120, 159, 248, 207])
def key_hb100001 : BitVec 256 × BitVec 256 :=
  (0x8A8AA416E909066F7AB55C2C722F6A9E7F49ABFE003BB6FD4572BFB2E96F91C6,
    0xF878C696A290BEFF678568A4184563321843A34AA521A64EB5F24F47F9957EE3)
def cmd_un0 : List Byte × List Byte :=
  ([28, 0, 0, 0, 0, 0, 0, 0, 1, 0, 0, 0, 0, 0, 0, 0, 0, 0, 0, 0, 0, 0, 0, 0, 0, 0, 0, 0, 0, 0, 0, 0, 0, 0, 0, 0, 0, 0, 0, 0, 0, 0, 0, 0, 0, 0, 0, 0, 0, 0, 0, 0, 0, 0, 0, 0, 0, 128, 0, 0, 0, 0, 0, 0],
    [158, 65, 249, 213, 73, 217, 39, 222, 167, 54, 191, 209, 9, 136, 44, 155, 195, 91, 182, 60, 8, 142, 54, 5, 108, 24, 49, 195, 134, 119, 90, 188])
def key_un0 : BitVec 256 × BitVec 256 :=
  (0x5FDE1A047A7DBB9379BBDCCFC0642AFF0CDCA4364923392132D497FEB2049FED,
    0x065E1FC2E9885AF14B37C4C6A733055BE4FDD2C7E94A0258EED0F8A32598B3BD)
def cmd_un1 : List Byte × List Byte :=
  ([28, 0, 0, 0, 0, 0, 0, 0, 2, 0, 0, 0, 0, 0, 0, 0, 1, 0, 0, 0, 0, 0, 0, 0, 0, 0, 0, 0, 0, 0, 0, 0, 0, 0, 0, 0, 0, 0, 0, 0, 0, 0, 0, 0, 0, 0, 0, 0, 0, 0, 0, 0, 0, 0, 0, 0, 0, 128, 0, 0, 0, 0, 0, 0],
    [128, 188, 25, 139, 91, 238, 131, 45, 139, 249, 127, 145, 117, 253, 177, 12, 248, 176, 5, 22, 233, 231, 170, 151, 233, 90, 177, 202, 224, 18, 66, 71])
def key_un1 : BitVec 256 × BitVec 256 :=
  (0x3135C351BE6848482991B1A00CF0CD344A9EE9A18B1708FA40C72999A63A42DE,
    0x90F775988CD35D80DACA5A3C9760CCB1FF6E84391D81E9B4F685BFB8D12A9D18)
def cmd_un2 : List Byte × List Byte :=
  ([28, 0, 0, 0, 0, 0, 0, 0, 1, 0, 0, 0, 0, 0, 0, 0, 2, 0, 0, 0, 0, 0, 0, 0, 0, 0, 0, 0, 0, 0, 0, 0, 0, 0, 0, 0, 0, 0, 0, 0, 0, 0, 0, 0, 0, 0, 0, 0, 0, 0, 0, 0, 0, 0, 0, 0, 0, 128, 0, 0, 0, 0, 0, 0],
    [236, 196, 98, 105, 37, 8, 28, 98, 45, 225, 67, 211, 116, 205, 185, 126, 124, 210, 31, 62, 220, 158, 115, 42, 31, 87, 116, 156, 67, 65, 85, 240])
def key_un2 : BitVec 256 × BitVec 256 :=
  (0x3A13B798653393987B4B731DDC73A2FB1FF4DEDD0148872585FEE62FDD58335D,
    0xC90E7834F0F8E3CDAF2AB783C6C3FD4CE22A2AAF4296A3A1E67B044BCFF419D5)
def cmd_op30 : List Byte × List Byte :=
  ([48, 0, 0, 0, 0, 0, 0, 0, 2, 0, 0, 0, 0, 0, 0, 0, 0, 0, 0, 0, 0, 0, 0, 0, 0, 0, 0, 0, 0, 0, 0, 0, 0, 0, 0, 0, 0, 0, 0, 0, 0, 0, 0, 0, 0, 0, 0, 0, 0, 0, 0, 0, 0, 0, 0, 0, 0, 128, 0, 0, 0, 0, 0, 0],
    [4, 106, 13, 245, 89, 214, 91, 19, 78, 199, 84, 37, 237, 100, 234, 116, 191, 182, 23, 10, 12, 53, 129, 92, 99, 249, 242, 70, 172, 164, 128, 22])
def key_op30 : BitVec 256 × BitVec 256 :=
  (0x0CAECB3CFE26AFBED452F230CAE2A8D66A5E256F9FE3CB106667B34E0EFF4DBD,
    0x50017DC8EE6F66AD1AB75216EDC184386D1EC78619CA2C1ED3ECC5F19060970B)

/-- Periods 99, 100, 100,000 and 100,001; unprotected mode with and without a launch, and a value it does not have; an op that is not listed. -/
theorem wit_HeartbeatAndMode :
    (∃ c, Heads (opState id cmd_hb99 key_hb99) 64 c ∧ (c.op == 0x1B && decide ((c.a 0).toNat < 100)) = true) ∧
    (∃ c, Heads (opState id cmd_hb100 key_hb100) 64 c ∧ (c.op == 0x1B && decide (100 ≤ (c.a 0).toNat ∧ (c.a 0).toNat ≤ 100000)) = true) ∧
    (∃ c, Heads (opState id cmd_hb100000 key_hb100000) 64 c ∧ (c.op == 0x1B && decide ((c.a 0).toNat = 100000)) = true) ∧
    (∃ c, Heads (opState id cmd_hb100001 key_hb100001) 64 c ∧ (c.op == 0x1B && decide (100000 < (c.a 0).toNat)) = true) ∧
    (∃ c, Heads (opState idle cmd_un1 key_un1) 64 c ∧ (c.op == 0x1C && decide ((c.a 0).toNat = 1) && (opState idle cmd_un1 key_un1).live.isEmpty) = true) ∧
    (∃ c, Heads (opState id cmd_un0 key_un0) 64 c ∧ (c.op == 0x1C && decide ((c.a 0).toNat ≤ 1) && !(opState id cmd_un0 key_un0).live.isEmpty) = true) ∧
    (∃ c, Heads (opState id cmd_un2 key_un2) 64 c ∧ (c.op == 0x1C && decide (1 < (c.a 0).toNat)) = true) ∧
    (∃ c, Heads (opState id cmd_op30 key_op30) 64 c ∧ (!listed 64 c.op) = true) :=
  ⟨op_heads dec dec,
    op_heads dec dec,
    op_heads dec dec,
    op_heads dec dec,
    op_heads dec dec,
    op_heads dec dec,
    op_heads dec dec,
    op_heads dec dec⟩

theorem head_of {s : State} {r : Nat} {P : Cmd → Prop} [DecidablePred P] (h : (s.headCmd r).any (fun c => decide (P c)) = true) :
    ∃ c, s.headCmd r = some c ∧ P c := by
  cases hc : s.headCmd r <;> simp_all

/-- A command whose signature is not the key's, and one signed whose sequence number was taken. -/
theorem wit_Refused : (∃ c, (opState id cmd_hb100 (0, 0)).headCmd 64 = some c ∧ (opState id cmd_hb100 (0, 0)).turnOf 64 = true ∧
      c.op = 0x1B ∧ c.signed (opState id cmd_hb100 (0, 0)).mgmt.operatorKey = false) ∧
    (∃ c, (opState (fun s => { s with mgmt := { s.mgmt with rings := [(64, ⟨0, 99⟩)] } }) cmd_hb100 key_hb100).headCmd 64 = some c ∧
      c.op = 0x1B ∧ c.signed key_hb100 = true ∧ c.seq ≤ 99) ∧
    mwf .zero (opState (fun s => { s with mgmt := { s.mgmt with rings := [(64, ⟨0, 99⟩)] } }) cmd_hb100 key_hb100).mgmt.rings = true :=
  ⟨head_of dec, head_of dec, dec⟩

/-! ### The whole machine -/

/-- Instructions of each kind the frame covers, under a guard that passes and under one that does not. -/
theorem wit_RegisterFrame : Turn base 0 (at0 base) ∧ Quiet (at0 base) 0 ∧ writes (.add ⟨.s0, .always, 0, 4, 5⟩) = some (.s 0) ∧
    writes (.vradd ⟨⟨⟨7, false⟩, 1, true⟩, 5, 3, .bf16, .rne, false⟩) = some (.v 5) ∧ writes (.cmpiCc ⟨.s1, ⟨7, false⟩, .ltu, 0, 4, 0x8000⟩) = some (.p 0) ∧
    ¬ ((at0 base).ctx 0).passes ⟨7, false⟩ ∧ NoLoopEnd ((at0 base).ctx 0) ((at0 base).nextPc 0) := by
  refine ⟨base_turn, base_quiet, rfl, rfl, rfl, ?_, noLoopEnd_of⟩
  have h : decide ((((at0 base).ctx 0).preg 7).p = none ∧ (((at0 base).ctx 0).preg 7).v ≠ false) = false := by decide +kernel
  have := of_decide_eq_false h
  exact this

/-- A bundle of one instruction, one of nothing, a slot's own instruction, and a word that decodes. -/
theorem wit_EncodeDecodeAgree : ([(Slot.s0, Instr.add ⟨.s0, .always, 9, 3, 4⟩)].map (·.1)).Sublist Slot.all ∧
    (∀ e ∈ [(Slot.s0, Instr.add ⟨.s0, .always, 9, 3, 4⟩)], e.2.slot = some e.1 ∧ e.2.wf = true ∧ e.2.isNop = false) ∧
    decodeSlot .c 0x100000000022 = some (.bar ⟨.always, 2, .clu⟩) ∧ (255 : BitVec 8) ≠ 0 := by
  refine ⟨?_, by decide, by decide, by decide⟩
  decide

/-- A canonical state whose step goes on, and a package that is off. -/
theorem wit_MemoryStaysCanonical : Canonical base ∧ base.powered = true ∧
    (match step base with | .next _ => true | _ => false) = true ∧
    (({ State.reset with powered := false } : State).powered = false ∧ ({ State.reset with powered := false } : State).agenda = []) := by
  simp only [Canonical]
  decide +kernel


end Sys2Proof.Tests
end

section
/-! # 03 R72–R81, R90: the C-slot transfers and the hardware loops -/

namespace Sys2Proof.Machine

open Sys2Proof Sys2Proof.Claims

/-! ## The context at issue

A context that issues is ready, and settling what is due keeps it so: it differs from the empty context, so what is written
to it is read back. -/

/-- A result that is applied touches the registers and the snapshot of an open segment alone. -/
theorem Ctx.apply_touches (x : Ctx) (r : Res) : ∃ regs seg, x.apply r = { x with regs := regs, seg := seg } := by
  unfold Ctx.apply
  rw [x.deliver_eq]
  dsimp only
  split
  · exact ⟨_, _, rfl⟩
  · split_ifs
    · split
      · split_ifs <;> exact ⟨_, _, rfl⟩
      · split_ifs <;> exact ⟨_, _, rfl⟩
      · exact ⟨_, _, rfl⟩
    · exact ⟨_, _, rfl⟩

/-- So do several. -/
theorem Ctx.applyAll_touches (x : Ctx) (l : List Res) : ∃ regs seg, x.applyAll l = { x with regs := regs, seg := seg } := by
  unfold Ctx.applyAll
  induction l generalizing x with
  | nil => exact ⟨_, _, rfl⟩
  | cons r l ih =>
    obtain ⟨_, _, h⟩ := x.apply_touches r
    obtain ⟨g, sg, h'⟩ := ih (x.apply r)
    exact ⟨g, sg, by rw [List.foldl_cons, h', h]⟩

@[simp] theorem Ctx.drainFixed_pc (x : Ctx) : x.drainFixed.pc = x.pc := by
  obtain ⟨_, _, h⟩ := Ctx.applyAll_touches { x with fixed := [] } x.fixed
  rw [Ctx.drainFixed, h]

@[simp] theorem Ctx.drainFixed_ct (x : Ctx) : x.drainFixed.ct = x.ct := by
  obtain ⟨_, _, h⟩ := Ctx.applyAll_touches { x with fixed := [] } x.fixed
  rw [Ctx.drainFixed, h]

@[simp] theorem Ctx.settle_act (x : Ctx) (t : Nat) : (x.settle t).act = x.act := by
  unfold Ctx.settle
  obtain ⟨_, _, h⟩ := Ctx.applyAll_touches _ (x.dueBy t)
  rw [h]

@[simp] theorem State.portReady_ctx (s : State) (k c : Nat) : (s.portReady k).ctx c = s.ctx c := by
  unfold State.portReady State.advanceTo State.advance
  split <;> rfl

/-- Writes of memory one after another leave every context. -/
theorem State.foldl_modMem_ctx {α : Type} (g : α → Mem → Mem) (l : List α) (s : State) (c : Nat) :
    (l.foldl (fun s e => s.modMem (g e)) s).ctx c = s.ctx c := by
  induction l generalizing s with
  | nil => rfl
  | cons e l ih => exact ih (s.modMem (g e))

/-- A context that is not free keeps its activity while its VACWR elements reach the matrix unit. -/
theorem State.landAcc_act {s : State} {c : Nat} {p : AccNew → Bool} (h : (s.ctx c).act ≠ .free) :
    ((s.landAcc c p).ctx c).act = (s.ctx c).act := by
  unfold State.landAcc
  split
  · have hm := State.foldl_modMem_ctx (fun (e : AccNew) m => m.putAcc e.at_ e.val e.p) ((s.ctx c).vac.filter p) s c
    rw [State.ctx_modCtx_same (Ctx.ne_zero_of_act (by simpa only [hm] using h)), hm]
  · rfl

/-- The context whose turn it is is ready. -/
theorem Turn.ready {s b : State} {c : Nat} (h : Turn s c b) : (b.ctx c).act = .ready := by
  have hs : ((s.portReady s.cur.val).ctx c).act = .ready := by
    rw [State.portReady_ctx]; exact (State.holder_spec h.holder).2
  have hl := (State.landAcc_act (p := fun e => decide (e.due ≤ ((s.portReady s.cur.val).ctx c).ct))
    (by rw [hs]; nofun)).trans hs
  rw [h.reads]
  unfold State.settleNow
  rw [State.ctx_modCtx_same (Ctx.ne_zero_of_act (by rw [Ctx.settle_act, hl]; nofun)), Ctx.settle_act, hl]

/-! ## The loop-end test and the move to the next bundle (03 R73) -/

/-- The loop-end test touches the loop stack, its depth and the PC alone. -/
theorem loopEnd_touches (k : Nat) (x : Ctx) :
    ∃ loops ctl pc, (loopEnd k x).1 = { x with loops := loops, ctl := ctl, pc := pc } := by
  induction k generalizing x with
  | zero => exact ⟨_, _, _, rfl⟩
  | succ k ih =>
    rw [loopEnd]
    dsimp only
    split_ifs
    · exact ⟨_, _, _, rfl⟩
    · exact ⟨_, _, _, rfl⟩
    · obtain ⟨l, t, pc, h⟩ := ih _
      exact ⟨l, t, pc, h⟩
    · exact ⟨_, _, _, rfl⟩

/-- A context that moves on keeps its activity and its accesses. -/
theorem Ctx.moveOn_frame (x : Ctx) (npc : BitVec 32) (f : Flow) (mul : Bool) :
    (x.moveOn npc f mul).act = x.act ∧ (x.moveOn npc f mul).acc = x.acc := by
  cases f with
  | jump _ => exact ⟨rfl, rfl⟩
  | later => exact ⟨rfl, rfl⟩
  | next | skip _ =>
    obtain ⟨_, _, _, h⟩ := loopEnd_touches 7 _
    simp only [Ctx.moveOn]
    rw [h]
    exact ⟨rfl, rfl⟩

/-- A transfer sets the PC, and nothing else moves but the clock. -/
theorem Ctx.moveOn_jump (x : Ctx) (npc pc : BitVec 32) : x.moveOn npc (.jump pc) false = left x pc := rfl

/-- Where no loop of the running code ends, the test does nothing. -/
theorem loopEnd_of_noLoopEnd {x : Ctx} (k : Nat) (h : NoLoopEnd x x.pc) : loopEnd k x = (x, false) := by
  cases k with
  | zero => rfl
  | succ k =>
    rw [loopEnd]
    dsimp only
    obtain h | h | h | h := h
    · rw [if_pos (.inl h)]
    · rw [if_pos (.inr h)]
    · split
      · rfl
      · rw [if_pos (.inl h)]
    · split
      · rfl
      · rw [if_pos (.inr (Ne.symm h))]

/-- Where no loop of the running code ends, the next bundle is the one behind. -/
theorem Ctx.moveOn_of_noLoopEnd {x : Ctx} {npc : BitVec 32} (h : NoLoopEnd x npc) : x.moveOn npc .next false = left x npc := by
  unfold Ctx.moveOn
  dsimp only
  rw [loopEnd_of_noLoopEnd 7 h]
  rfl

/-! ## The context after a bundle of one C-slot instruction -/

/-- `act` makes context `c` into `y` and leaves the others. -/
structure Sets (act : State → State) (s : State) (c : Nat) (y : Ctx) : Prop where
  same : (act s).ctx c = y
  other : ∀ d, d ≠ c → (act s).ctx d = s.ctx d

theorem sets_id (s : State) (c : Nat) : Sets id s c (s.ctx c) := ⟨rfl, fun _ _ => rfl⟩

theorem sets_modCtx {s : State} {c : Nat} {f : Ctx → Ctx} (h : (f (s.ctx c)).act ≠ .free) :
    Sets (fun t => t.modCtx c f) s c (f (s.ctx c)) :=
  ⟨State.ctx_modCtx_same (Ctx.ne_zero_of_act h), fun _ hd => State.ctx_modCtx_ne (Ctx.ne_zero_of_act h) hd⟩

/-- With nothing in flight on the core, the context after the bundle is what the slot made of it, moved on. -/
theorem State.issued_ctx {b : State} {c : Nat} {mul : Bool} {fl : Flow} {act : State → State} {y : Ctx} (hq : Quiet b c)
    (hs : Sets act (b.busy (coreOf c) (bundleCost (b.pcLen c))) c y) (ha : y.act = .ready) (hy : y.acc = []) :
    (b.issued c mul fl act id).ctx c = y.moveOn (b.nextPc c) fl mul := by
  have hz : ((act (b.busy (coreOf c) (bundleCost (b.pcLen c)))).ctx c).moveOn (b.nextPc c) fl mul ≠ .zero :=
    Ctx.ne_zero_of_act (by rw [(Ctx.moveOn_frame ..).1, hs.same, ha]; nofun)
  have hm := State.ctx_modCtx_same (f := fun x => x.moveOn (b.nextPc c) fl mul) hz
  unfold State.issued
  rw [State.settleCore_quiet, id, hm, hs.same]
  intro i hi
  by_cases hc : 4 * coreOf c + i = c
  · rw [hc, hm, hs.same, (Ctx.moveOn_frame ..).2, hy]
  · rw [State.ctx_modCtx_ne hz hc, hs.other _ hc, State.busy_ctx]
    exact hq.noAcc i hi

/-- Nothing of a context with nothing in flight on its core is in flight. -/
theorem Quiet.ownAcc {b : State} {c : Nat} (h : Quiet b c) : (b.ctx c).acc = [] := by
  have := h.noAcc (c % 4) (Nat.mod_lt _ (by decide))
  rwa [coreOf, Nat.div_add_mod] at this

/-- A C-slot instruction of meaning `m` that is no NOP, lands nothing, closes no segment and is no multiplication. -/
structure PlainC (i : Instr) (m : SlotM) : Prop where
  alone : ∀ s, exec i s = execSlot m .c i s
  noNop : i.isNop = false
  noLand : i.lands = false
  long : i.landShort = false
  noClose : i.closes = false
  noMul : i.isMul = false

theorem plain_br (o : BrArgs) : PlainC (.br o) (slotBr o) := ⟨fun _ => rfl, rfl, rfl, rfl, rfl, rfl⟩
theorem plain_call (o : CallArgs) : PlainC (.call o) (slotCall o) := ⟨fun _ => rfl, rfl, rfl, rfl, rfl, rfl⟩
theorem plain_ret (o : CRegArgs) : PlainC (.ret o) (slotRet o) := ⟨fun _ => rfl, rfl, rfl, rfl, rfl, rfl⟩
theorem plain_loop (o : LoopArgs) : PlainC (.loop o) (slotLoop o) := ⟨fun _ => rfl, rfl, rfl, rfl, rfl, rfl⟩
theorem plain_loopr (o : LooprArgs) : PlainC (.loopr o) (slotLoopr o) := ⟨fun _ => rfl, rfl, rfl, rfl, rfl, rfl⟩
theorem plain_lexit (g : Guard) : PlainC (.lexit g) (slotLexit g) := ⟨fun _ => rfl, rfl, rfl, rfl, rfl, rfl⟩
theorem plain_lidx (o : LidxArgs) : PlainC (.lidx o) (slotLidx o) := ⟨fun _ => rfl, rfl, rfl, rfl, rfl, rfl⟩

section

variable {s b : State} {c : Nat} {i : Instr} {m : SlotM}

/-- A plain instruction that changes its own context and then transfers or goes on. -/
theorem ends_of_sets {fl : Flow} {act : State → State} {y : Ctx} (h : Turn s c b) (hq : Quiet b c) (hi : PlainC i m)
    (hg : (b.ctx c).passes i.guard) (hr : m (b.envAt c .c) b = { flow := fl, commit := act })
    (hs : Sets act (b.busy (coreOf c) (bundleCost (b.pcLen c))) c y) (ha : y.act = .ready) (hy : y.acc = []) :
    Ends s c i fun _ z => z = y.moveOn (b.nextPc c) fl false := by
  have he := exec_alone h hg hi.noNop hi.long hr rfl rfl rfl (by simp [hi.noLand]) (by simp [hi.noClose])
  exact ⟨_, (hi.alone s).trans he, hi.noMul ▸ State.issued_ctx hq hs ha hy⟩

/-- A plain instruction that only transfers or goes on. -/
theorem ends_of_flow {fl : Flow} (h : Turn s c b) (hq : Quiet b c) (hi : PlainC i m) (hg : (b.ctx c).passes i.guard)
    (hr : m (b.envAt c .c) b = { flow := fl }) : Ends s c i fun _ z => z = (b.ctx c).moveOn (b.nextPc c) fl false :=
  ends_of_sets h hq hi hg hr (sets_id _ c) h.ready hq.ownAcc

/-- A plain instruction that changes its own context, leaving it ready and with its accesses as they were, and goes on. -/
theorem ends_of_modCtx {f : Ctx → Ctx} (h : Turn s c b) (hq : Quiet b c) (hi : PlainC i m) (hg : (b.ctx c).passes i.guard)
    (hr : m (b.envAt c .c) b = .of fun s => s.modCtx c f) (ha : (f (b.ctx c)).act = (b.ctx c).act)
    (hy : (f (b.ctx c)).acc = (b.ctx c).acc) :
    Ends s c i fun _ z => z = (f (b.ctx c)).moveOn (b.nextPc c) .next false :=
  have hr' := ha.trans h.ready
  ends_of_sets h hq hi hg hr (sets_modCtx (by rw [State.busy_ctx, hr']; nofun)) hr' (hy.trans hq.ownAcc)

/-- An empty bundle moves on. -/
theorem exec_nop (h : Turn s c b) (sl : Slot) : exec (.nop sl) s = .next (b.issued c false .next id id) := by
  change execSlot (slotNop sl) sl (.nop sl) s = _
  have hseg : b.segStep c .plain [] = b := State.segStep_plain rfl fun g hg => (h.lines g hg).le
  have hends : ((b.ctx c).seg.isSome && (b.ctx c).segEnds []) = false := by
    cases hg : (b.ctx c).seg with
    | none => rfl
    | some g => simpa [Ctx.segEnds, hg] using (h.lines g hg).le
  unfold execSlot State.issueAlone
  rw [h.holder]
  simp only [h.clear, ← h.reads]
  simp [State.issueBundle, bundleOnly, Instr.isNop, show Header.plain.rdv = false from rfl,
    show b.segEntry c .plain = b from State.segEntry_none .., hseg, hends, Ctx.relWait_nil h.rel]
  rfl

/-! ## Faults at issue -/

/-- A fault other than a residue mismatch, with nothing in flight on the core and no segment open: the context stops. -/
theorem State.issueFault_quiet (hq : Quiet b c) {t : Trap} (hc : t.cause ≠ .residue) (mask : BitVec 8) :
    b.issueFault c t mask = b.stopAt c t (b.ctx c).pc mask := by
  unfold State.issueFault State.noteResidue
  simp [hc, hq.noSeg]

/-- What a trap leaves of a context without a segment or a VACWR element on its way. -/
theorem State.stopAt_quiet (hq : Quiet b c) (t : Trap) (pc : BitVec 32) (mask : BitVec 8) :
    b.stopAt c t pc mask = (b.letGo c).modCtx c fun x => { x.drainFixed with
      ctl := { x.drainFixed.ctl with trapcause := t.word, trappc := pc, trapaddr := t.addr, trapmask := mask }
      act := .trapWaiting, rtiDone := false, walk := [], landed := [], trapAt := b.cycle } := by
  unfold State.stopAt State.closeSeg State.landVac State.landAcc
  simp [hq.noSeg, hq.noVac, Trap.withCount]

/-- A plain instruction that faults. -/
theorem traps_of_fault {t : Trap} (h : Turn s c b) (hq : Quiet b c) (hi : PlainC i m) (hg : (b.ctx c).passes i.guard)
    (hc : t.cause ≠ .residue) (hr : m (b.envAt c .c) b = { fault := some t }) : Traps s b c i t.word t.addr 0x01 := by
  have he : execSlot m .c i s = .next (b.issueFault c t (maskOf [.c])) :=
    exec_fault h hg hi.noNop hi.long hr rfl rfl (by simp [hi.noLand])
  rw [State.issueFault_quiet hq hc, State.stopAt_quiet hq] at he
  refine ⟨_, (hi.alone s).trans he, ?_⟩
  rw [State.ctx_modCtx_same (Ctx.ne_zero_of_act (by nofun))]
  simp [maskOf, Slot.pos]

theorem loopstack_word (addr : Word) : Trap.word ⟨.loopstack, addr, 0, none⟩ = 0x09 := by simp [Trap.word, Cause.code]

/-- A plain instruction that faults LOOPSTACK (03 R67, R95). -/
theorem traps_loopstack {addr : Word} (h : Turn s c b) (hq : Quiet b c) (hi : PlainC i m) (hg : (b.ctx c).passes i.guard)
    (hr : m (b.envAt c .c) b = .trap .loopstack addr) : Traps s b c i 0x09 addr 0x01 :=
  loopstack_word addr ▸ traps_of_fault (t := ⟨.loopstack, addr, 0, none⟩) h hq hi hg nofun hr

end

/-! ## Operands -/

/-- A clean register passes the checked use. -/
theorem checkedUse_clean {b : State} {c : Nat} {n : SReg} (h : Clean b c n) (addr : Word) :
    checkedUse [((b.ctx c).sreg n, addr)] = none := by
  obtain ⟨hp, hf⟩ := h
  simp only [sp] at hp
  simp only [Fits] at hf
  simp [checkedUse, pmeets, pmeet, hp, hf]

/-- A link value is the object number above the PC (03 R81). -/
theorem linkOf_eq (obj : BitVec 8) (pc : BitVec 32) : linkOf obj pc = obj.setWidth 64 <<< 32 ||| pc.setWidth 64 := by
  apply BitVec.eq_of_toNat_eq
  have h := Nat.shiftLeft_add_eq_or_of_lt pc.isLt obj.toNat
  simp only [linkOf, BitVec.toNat_ofNat, BitVec.toNat_or, BitVec.toNat_shiftLeft, BitVec.toNat_setWidth]
  rw [Nat.mod_eq_of_lt (a := obj.toNat) (by omega), Nat.mod_eq_of_lt (a := pc.toNat) (by omega),
    Nat.mod_eq_of_lt (a := obj.toNat <<< 32) (by rw [Nat.shiftLeft_eq]; omega), ← h, Nat.shiftLeft_eq]
  omega

/-- A count fits 32 bits when the word's upper half is zero. -/
theorem high_eq_zero_iff (v : Word) : v.extractLsb' 32 32 = 0 ↔ v.toNat < 2 ^ 32 := by
  rw [← BitVec.toNat_inj, BitVec.extractLsb'_toNat, Nat.shiftRight_eq_div_pow]
  have := v.isLt
  change v.toNat / 2 ^ 32 % 2 ^ 32 = 0 ↔ _
  omega

/-! ## What each instruction does -/

/-- The context with a link value on its way to `d` (03 R81). -/
def withLink (x : Ctx) (npc : BitVec 32) (d : SReg) : Ctx :=
  if d = 0 then x
  else x.pushRes ⟨x.ct + 1, 0, x.issues, .s d, .s (.of (x.ctl.obj.setWidth 64 <<< 32 ||| npc.setWidth 64) none)⟩

@[simp] theorem withLink_act (x : Ctx) (npc : BitVec 32) (d : SReg) : (withLink x npc d).act = x.act := by
  unfold withLink; split <;> rfl
@[simp] theorem withLink_acc (x : Ctx) (npc : BitVec 32) (d : SReg) : (withLink x npc d).acc = x.acc := by
  unfold withLink; split <;> rfl

/-- The context with a loop of `n` iterations opened that starts at `npc` and ends at `stop` (03 R72). -/
def withLoop (x : Ctx) (npc stop n : BitVec 32) : Ctx :=
  { x with
    loops := mset .zero x.loops x.ctl.ldepth.toNat ⟨npc, stop, n, 0, x.ctl.obj, false⟩
    ctl := { x.ctl with ldepth := x.ctl.ldepth + 1 } }

/-- The loop opened is the top one. -/
theorem top_withLoop {x : Ctx} {npc stop n : BitVec 32} (hn : n ≠ 0) (hd : x.ctl.ldepth.toNat < 6) :
    top (withLoop x npc stop n) = ⟨npc, stop, n, 0, x.ctl.obj, false⟩ := by
  have hi : (x.ctl.ldepth + 1).toNat - 1 = x.ctl.ldepth.toNat := by
    rw [BitVec.toNat_add]
    change (x.ctl.ldepth.toNat + 1) % 2 ^ 3 - 1 = _
    omega
  unfold top withLoop
  dsimp only
  rw [hi]
  exact mget_mset_nd fun e => hn (congrArg LoopEntry.remaining e)

/-- The context with the exit flag of its top loop set (03 R74). -/
def withExit (x : Ctx) : Ctx :=
  { x with loops := mset .zero x.loops (x.ctl.ldepth.toNat - 1) { top x with exit := true } }

section

variable {s b : State} {c : Nat}

theorem sets_putLink (hr : (b.ctx c).act = .ready) (d : SReg) (k n : Nat) :
    Sets (putLink (b.envAt c .c) b d) (b.busy k n) c (withLink (b.ctx c) (b.nextPc c) d) := by
  unfold putLink Env.put
  rw [linkOf_eq]
  by_cases hd : d = 0
  · subst hd
    exact sets_id (b.busy k n) c
  · have hs : (Dest.s d).discards = false := by simpa [Dest.discards] using hd
    simp only [hs, Bool.false_eq_true, if_false, withLink, if_neg hd]
    exact sets_modCtx (s := b.busy k n) (c := c) (by rw [Ctx.pushRes_act, State.busy_ctx, hr]; nofun)

/-- NOP goes on (03 R90). -/
theorem nop_ends (h : Turn s c b) (hq : Quiet b c) (sl : Slot) :
    Ends s c (.nop sl) fun _ y => y = (b.ctx c).moveOn (b.nextPc c) .next false :=
  ⟨_, exec_nop h sl, State.issued_ctx hq (sets_id _ c) h.ready hq.ownAcc⟩

/-- BR transfers (03 R78). -/
theorem br_ends (h : Turn s c b) (hq : Quiet b c) (o : BrArgs) (hg : (b.ctx c).passes o.g) :
    Ends s c (.br o) fun _ y => y = left (b.ctx c) (b.nextPc c + BitVec.ofInt 32 o.off.toInt) :=
  ends_of_flow h hq (plain_br o) hg rfl

/-- CALL transfers with its link on its way (03 R81). -/
theorem call_ends (h : Turn s c b) (hq : Quiet b c) (o : CallArgs) (hg : (b.ctx c).passes o.g) :
    Ends s c (.call o) fun _ y =>
      y = left (withLink (b.ctx c) (b.nextPc c) o.b) (b.nextPc c + BitVec.ofInt 32 o.off.toInt) :=
  ends_of_sets h hq (plain_call o) hg rfl (sets_putLink h.ready o.b _ _) ((withLink_act ..).trans h.ready)
    ((withLink_acc ..).trans hq.ownAcc)

/-- RET within the object transfers at once (03 R81). -/
theorem ret_ends (h : Turn s c b) (hq : Quiet b c) (o : CRegArgs) (hg : (b.ctx c).passes o.g) (ha : Clean b c o.a)
    (hv : (sv b c o.a).extractLsb' 32 8 = (b.ctx c).ctl.obj) :
    Ends s c (.ret o) fun _ y => y = left (b.ctx c) ((sv b c o.a).setWidth 32) := by
  have hr : slotRet o (b.envAt c .c) b = { flow := .jump ((sv b c o.a).setWidth 32) } := by
    simp only [slotRet, State.envAt, checkedUse_clean ha, trapOr]
    rw [State.goRead_same (v := ((b.ctx c).sreg o.a).v) hv, BitVec.setWidth_eq_extractLsb' (by decide)]
    rfl
  exact ends_of_flow h hq (plain_ret o) hg hr

/-! ### Loops -/

/-- An instruction that means to open a loop of no iterations skips it (03 R72). -/
theorem loopSlot_skips {i : Instr} {m : SlotM} {off : BitVec 12} (h : Turn s c b) (hq : Quiet b c) (hi : PlainC i m)
    (hg : (b.ctx c).passes i.guard) (hr : m (b.envAt c .c) b = loopSlot (b.envAt c .c) b 0 off) :
    Ends s c i fun _ y => y = (b.ctx c).moveOn (b.nextPc c) (.skip (b.nextPc c + off.setWidth 32)) false :=
  ends_of_flow h hq hi hg hr

/-- Below the depth of six it opens a loop of any other count; the loop does not end where it starts (03 R72, R73). -/
theorem loopSlot_opens {i : Instr} {m : SlotM} {n : BitVec 32} {off : BitVec 12} (h : Turn s c b) (hq : Quiet b c)
    (hi : PlainC i m) (hg : (b.ctx c).passes i.guard) (hr : m (b.envAt c .c) b = loopSlot (b.envAt c .c) b n off)
    (ho : off ≠ 0) (hn : n ≠ 0) (hd : (b.ctx c).ctl.ldepth.toNat < 6) :
    Ends s c i fun _ y =>
      y = left (withLoop (b.ctx c) (b.nextPc c) (b.nextPc c + off.setWidth 32) n) (b.nextPc c) := by
  have hd6 : (b.ctx c).ctl.ldepth ≠ 6 := fun e => by rw [e] at hd; exact absurd hd (by decide)
  have hopen : loopSlot (b.envAt c .c) b n off =
      .of fun s => s.modCtx c fun x => withLoop x (b.nextPc c) (b.nextPc c + off.setWidth 32) n :=
    (if_neg hn).trans (if_neg hd6)
  have hstop : b.nextPc c + off.setWidth 32 ≠ b.nextPc c := by
    intro e
    apply ho
    bv_omega
  have hend : NoLoopEnd (withLoop (b.ctx c) (b.nextPc c) (b.nextPc c + off.setWidth 32) n) (b.nextPc c) := by
    refine .inr (.inr (.inr ?_))
    rw [top_withLoop hn hd]
    exact hstop
  rw [← Ctx.moveOn_of_noLoopEnd hend]
  exact ends_of_modCtx h hq hi hg (hr.trans hopen) rfl rfl

/-- What such an instruction leaves, for a count of zero and for any other below the depth of six (03 R72). -/
theorem loopSlot_ends {i : Instr} {m : SlotM} {n : BitVec 32} {off : BitVec 12} (h : Turn s c b) (hq : Quiet b c)
    (hi : PlainC i m) (hg : (b.ctx c).passes i.guard) (ho : off ≠ 0)
    (hr : m (b.envAt c .c) b = loopSlot (b.envAt c .c) b n off) :
    (n = 0 → Ends s c i fun _ y => y = (b.ctx c).moveOn (b.nextPc c) (.skip (b.nextPc c + off.setWidth 32)) false) ∧
    (n ≠ 0 → (b.ctx c).ctl.ldepth.toNat < 6 → Ends s c i fun _ y =>
      y.pc = b.nextPc c ∧ y.ctl = { (b.ctx c).ctl with ldepth := (b.ctx c).ctl.ldepth + 1 } ∧
      top y = ⟨b.nextPc c, b.nextPc c + off.setWidth 32, n, 0, (b.ctx c).ctl.obj, false⟩ ∧
      y.ct = (b.ctx c).ct + 1 ∧ y.regs = (b.ctx c).regs) := by
  constructor
  · rintro rfl
    exact loopSlot_skips h hq hi hg hr
  · intro hn hd
    obtain ⟨t, he, hy⟩ := loopSlot_opens h hq hi hg hr ho hn hd
    exact ⟨t, he, by rw [hy]; exact ⟨rfl, rfl, top_withLoop hn hd, rfl, rfl⟩⟩

/-- At the depth of six it faults LOOPSTACK (03 R72). -/
theorem loopSlot_traps {i : Instr} {m : SlotM} {n : BitVec 32} {off : BitVec 12} (h : Turn s c b) (hq : Quiet b c)
    (hi : PlainC i m) (hg : (b.ctx c).passes i.guard) (hr : m (b.envAt c .c) b = loopSlot (b.envAt c .c) b n off)
    (hn : n ≠ 0) (hd : (b.ctx c).ctl.ldepth = 6) : Traps s b c i 0x09 0 0x01 := by
  have ht : loopSlot (b.envAt c .c) b n off = .trap .loopstack := (if_neg hn).trans (if_pos hd)
  exact traps_loopstack h hq hi hg (hr.trans ht)

/-- LOOPR of a clean count below 2^32 means to open a loop of that count (03 R72). -/
theorem slotLoopr_clean {o : LooprArgs} (ha : Clean b c o.a) (hv : (sv b c o.a).toNat < 2 ^ 32) :
    slotLoopr o (b.envAt c .c) b = loopSlot (b.envAt c .c) b ((sv b c o.a).setWidth 32) o.off := by
  have hz : ((b.ctx c).sreg o.a).v.extractLsb' 32 32 = 0 := (high_eq_zero_iff _).2 hv
  rw [BitVec.setWidth_eq_extractLsb' (by decide)]
  simp only [slotLoopr, State.envAt, checkedUse_clean ha, trapOr, hz, ne_eq, not_true_eq_false, if_false]
  rfl

/-- LOOPR of a clean count from 2^32 on faults LOOPSTACK with the count (03 R72). -/
theorem loopr_traps_large (h : Turn s c b) (hq : Quiet b c) (o : LooprArgs) (hg : (b.ctx c).passes o.g)
    (ha : Clean b c o.a) (hv : 2 ^ 32 ≤ (sv b c o.a).toNat) : Traps s b c (.loopr o) 0x09 (sv b c o.a) 0x01 := by
  have hz : ((b.ctx c).sreg o.a).v.extractLsb' 32 32 ≠ 0 := fun e => absurd ((high_eq_zero_iff _).1 e) hv.not_gt
  have hr : slotLoopr o (b.envAt c .c) b = .trap .loopstack (sv b c o.a) := by
    simp only [slotLoopr, State.envAt, checkedUse_clean ha, trapOr]
    exact if_pos hz
  exact traps_loopstack h hq (plain_loopr o) hg hr

/-- LEXIT with a loop of the running code open sets the flag (03 R74). -/
theorem lexit_ends (h : Turn s c b) (hq : Quiet b c) (g : Guard) (hg : (b.ctx c).passes g) (hd : (b.ctx c).ctl.ldepth ≠ 0)
    (hu : ¬ ((b.ctx c).ctl.uiact = true ∧ (b.ctx c).ctl.ldepth = (b.ctx c).ctl.uidepth)) :
    Ends s c (.lexit g) fun _ y => y = (withExit (b.ctx c)).moveOn (b.nextPc c) .next false := by
  have hr : slotLexit g (b.envAt c .c) b = .of fun s => s.modCtx c withExit := if_neg (not_or.2 ⟨hd, hu⟩)
  exact ends_of_modCtx h hq (plain_lexit g) hg hr rfl rfl

/-- LEXIT without one faults LOOPSTACK (03 R74). -/
theorem lexit_traps (h : Turn s c b) (hq : Quiet b c) (g : Guard) (hg : (b.ctx c).passes g)
    (hd : (b.ctx c).ctl.ldepth = 0 ∨ ((b.ctx c).ctl.uiact = true ∧ (b.ctx c).ctl.ldepth = (b.ctx c).ctl.uidepth)) :
    Traps s b c (.lexit g) 0x09 0 0x01 := by
  exact traps_loopstack h hq (plain_lexit g) hg (if_pos hd)

/-- LIDX of a level that is open puts its index on its way (03 R75). -/
theorem lidx_puts (h : Turn s c b) (o : LidxArgs) (hg : (b.ctx c).passes o.g)
    (hd : o.k.toNat < (b.ctx c).ctl.ldepth.toNat) :
    Puts s b c (.lidx o) .c 1 (.s o.a)
      (.s (.of ((mget .zero (b.ctx c).loops ((b.ctx c).ctl.ldepth.toNat - 1 - o.k.toNat)).index.setWidth 64) none)) := by
  have hi := plain_lidx o
  refine (hi.alone s).trans (exec_put h hg hi.noNop hi.long hi.noLand hi.noClose ?_)
  exact if_neg fun e => absurd e.1 hd.not_ge

/-- LIDX of a level that is not open faults LOOPSTACK (03 R75). -/
theorem lidx_traps (h : Turn s c b) (hq : Quiet b c) (o : LidxArgs) (hg : (b.ctx c).passes o.g)
    (hd : (b.ctx c).ctl.ldepth.toNat ≤ o.k.toNat) : Traps s b c (.lidx o) 0x09 0 0x01 := by
  exact traps_loopstack h hq (plain_lidx o) hg (if_pos ⟨hd, rfl⟩)

end

/-! ## The words of LEXIT and LIDX -/

/-- The guard read from a word has that word's bits. -/
theorem guardAt_bits (x lo : Nat) : (Guard.at x lo).bits = bitsAt x lo 4 := by
  have hp : x / 2 ^ (lo + 1) = x / 2 ^ lo / 2 := by rw [Nat.pow_succ, Nat.div_div_eq_div_mul]
  have hb : b2n (bitAt x lo) = x / 2 ^ lo % 2 := by
    unfold b2n bitAt
    split <;> simp_all
  simp only [Guard.bits, Guard.at, fld, BitVec.toNat_ofNat, bitsAt, hp, hb]
  omega

/-- A reading is accepted when it is well formed and encodes back to the word (02 R42, R50). -/
theorem accept_some (x : Nat) (i : Instr) : accept x (some i) = if i.wf = true ∧ encode i = x then some i else none := by
  simp [accept]

/-- The words of LEXIT: a guard, and no other field (03 R74). -/
theorem decode_lexit {w : Nat} (ho : w / 2 ^ 40 = 0x08) :
    decodeSlot .c w = if w % 2 ^ 36 = 0 then some (.lexit (Guard.at w 36)) else none := by
  have hop : bitsAt w 40 8 = 8 := congrArg (· % 2 ^ 8) ho
  have hraw : rawC w = some (.lexit (Guard.at w 36)) := by simp only [rawC, hop]
  have henc : encode (.lexit (Guard.at w 36)) = w ↔ w % 2 ^ 36 = 0 := by
    change encC 0x08 _ 0 0 0 = w ↔ _
    simp only [encC, guardAt_bits, bitsAt]
    omega
  have hdec : decodeSlot .c w = accept w (some (.lexit (Guard.at w 36))) := congrArg (accept w) hraw
  rw [hdec, accept_some]
  simp only [henc, Instr.wf, true_and]

/-- The words of LIDX: a guard, a destination and a level of 0–5, and no other field (03 R75). -/
theorem decode_lidx {w : Nat} (ho : w / 2 ^ 40 = 0x1D) :
    decodeSlot .c w =
      if w / 2 ^ 24 % 2 ^ 6 = 0 ∧ w / 2 ^ 3 % 2 ^ 21 = 0 ∧ w % 2 ^ 3 ≤ 5 then
        some (.lidx ⟨Guard.at w 36, BitVec.ofNat 6 (w / 2 ^ 30), BitVec.ofNat 3 w⟩)
      else none := by
  have hop : bitsAt w 40 8 = 29 := congrArg (· % 2 ^ 8) ho
  have hraw : rawC w = some (.lidx ⟨Guard.at w 36, BitVec.ofNat 6 (w / 2 ^ 30), BitVec.ofNat 3 w⟩) := by
    simp only [rawC, hop, fld, pow_zero, Nat.div_one]
  have hok : (Instr.lidx ⟨Guard.at w 36, BitVec.ofNat 6 (w / 2 ^ 30), BitVec.ofNat 3 w⟩).wf = true ∧
      encode (.lidx ⟨Guard.at w 36, BitVec.ofNat 6 (w / 2 ^ 30), BitVec.ofNat 3 w⟩) = w ↔
      w / 2 ^ 24 % 2 ^ 6 = 0 ∧ w / 2 ^ 3 % 2 ^ 21 = 0 ∧ w % 2 ^ 3 ≤ 5 := by
    change decide ((BitVec.ofNat 3 w).toNat ≤ 5) = true ∧
      encC 0x1D _ (BitVec.ofNat 6 (w / 2 ^ 30)).toNat 0 (BitVec.ofNat 3 w).toNat = w ↔ _
    simp only [encC, guardAt_bits, bitsAt, BitVec.toNat_ofNat, decide_eq_true_eq]
    omega
  have hdec : decodeSlot .c w = accept w (some _) := congrArg (accept w) hraw
  rw [hdec, accept_some]
  simp only [hok]

/-- Settles O12: the transfers and loops by the one lemma about a C-slot instruction that issues alone, the faults by the one
about a fault at issue, the words by the decoder's reading back. -/
theorem controlTransfers : Obligations.ControlTransfers := by
  unfold Obligations.ControlTransfers
  refine ⟨fun s b c h hq => ?_, fun w _ => ⟨decode_lexit, decode_lidx⟩⟩
  refine ⟨nop_ends h hq, br_ends h hq, call_ends h hq, ret_ends h hq, ?loop, ?loopr, lexit_ends h hq, lidx_puts h,
    lexit_traps h hq, lidx_traps h hq, ?loopFull, fun o _ hg ha => ⟨loopr_traps_large h hq o hg ha, ?looprFull⟩⟩
  case loop => exact fun o hw hg => loopSlot_ends h hq (plain_loop o) hg (bne_iff_ne.1 hw) rfl
  case loopr => exact fun o hw hg ha hv => loopSlot_ends h hq (plain_loopr o) hg (bne_iff_ne.1 hw) (slotLoopr_clean ha hv)
  case loopFull =>
    intro o _ hg hn hd
    have hn' : o.count.setWidth 32 ≠ 0 := fun e => hn (by bv_omega)
    exact loopSlot_traps h hq (plain_loop o) hg rfl hn' hd
  case looprFull =>
    intro hv hn hd
    have hn' : (sv b c o.a).setWidth 32 ≠ 0 := fun e => hn (by bv_omega)
    exact loopSlot_traps h hq (plain_loopr o) hg (slotLoopr_clean ha hv) hn' hd

end Sys2Proof.Machine
end

section
/-! # 06 R157, R159, R160: the planes exchanged, a tile cleared, a scalar moved into an m register -/

namespace Sys2Proof

/-! ## Sparse maps, canonical or not -/

section

variable {α : Type} {d : α} {m m' : SMap α} {k : Nat}

/-- A key that no entry has reads the default. -/
theorem mget_of_no_key (h : ∀ e ∈ m, e.1 ≠ k) : mget d m k = d := by
  induction m with
  | nil => rfl
  | cons e t ih =>
    obtain ⟨he, ht⟩ := List.forall_mem_cons.1 h
    simp [mget, Ne.symm he, ih ht]

/-- A cleared key reads the default. -/
theorem mget_mclear_inside {lo n : Nat} (hk : lo ≤ k ∧ k < lo + n) : mget d (mclear m lo n) k = d := by
  refine mget_of_no_key fun e he => ?_
  simp only [mclear, mfilter, List.mem_filter, Bool.or_eq_true, decide_eq_true_eq] at he
  omega

/-- Behind a map, entries of higher keys are not read. -/
theorem mget_append_of_lt (h : ∀ e ∈ m', k < e.1) : mget d (m ++ m') k = mget d m k := by
  induction m with
  | nil => exact mget_of_no_key fun e he => (h e he).ne'
  | cons e t ih =>
    rw [List.cons_append]
    simp only [mget, ih]

/-- In front of a map, entries of lower keys are not read. -/
theorem mget_append_of_gt (h : ∀ e ∈ m, e.1 < k) : mget d (m ++ m') k = mget d m' k := by
  induction m with
  | nil => rfl
  | cons e t ih =>
    obtain ⟨he, ht⟩ := List.forall_mem_cons.1 h
    rw [List.cons_append]
    simp only [mget, ih ht]
    rw [if_neg he.ne', if_neg he.not_gt]

/-- A map whose values are replaced under their keys reads, at any key, a replacement of what it read. -/
theorem mget_map_rel {R : α → α → Prop} {g : Nat × α → Nat × α} (hd : R d d) (hg : ∀ e, (g e).1 = e.1 ∧ R e.2 (g e).2) :
    R (mget d m k) (mget d (m.map g) k) := by
  induction m with
  | nil => exact hd
  | cons e t ih =>
    obtain ⟨hkey, hval⟩ := hg e
    rw [List.map_cons]
    simp only [mget, hkey]
    split_ifs
    · exact hval
    · exact hd
    · exact ih

end

namespace Machine

open Claims

/-! ## Clearing a tile (06 R159) -/

/-- Lines other than those marked are as valid as they were (07 R186). -/
theorem Mem.markAcc_valid_outside {m : Mem} {i n k : Nat} (h : mwf false m.accValid = true) (hk : k < i ∨ i + n ≤ k) :
    mget false (m.markAcc i n).accValid k = mget false m.accValid k := by
  have hlow : ∀ e ∈ mfilter (fun j => decide (j < i)) m.accValid, e.1 < i := by
    simp [mfilter]
  have hmid : ∀ e ∈ (List.range n).map fun j => (i + j, true), i ≤ e.1 ∧ e.1 < i + n := by
    simp
  have hhigh : ∀ e ∈ mfilter (fun j => decide (i + n ≤ j)) m.accValid, i + n ≤ e.1 := by
    simp [mfilter]
  unfold Mem.markAcc
  rcases hk with hk | hk
  · rw [mget_append_of_lt fun e he => by have := hhigh e he; omega,
      mget_append_of_lt fun e he => by have := hmid e he; omega, mget_mfilter h, if_pos (by simpa using hk)]
  · have hfront : ∀ e ∈ mfilter (fun j => decide (j < i)) m.accValid ++ (List.range n).map fun j => (i + j, true), e.1 < k := by
      intro e he
      rcases List.mem_append.1 he with he | he
      · have := hlow e he; omega
      · have := hmid e he; omega
    rw [mget_append_of_gt hfront, mget_mfilter h, if_pos (by simpa using hk)]

/-- Memory with the tile from element `i` on cleared: what MCLR_RUN makes of it. -/
def Mem.clearTile (m : Mem) (i : Nat) : Mem :=
  { m with acc := mclear m.acc i 16384, accPoison := mclear m.accPoison i 16384 }.markAcc (i / 16) 1024

@[simp] theorem Mem.clearTile_hbm (m : Mem) (i : Nat) : (m.clearTile i).hbm = m.hbm := rfl
@[simp] theorem Mem.clearTile_spad (m : Mem) (i : Nat) : (m.clearTile i).spad = m.spad := rfl

/-- Every element of the tile is +0 without poison. -/
theorem Mem.accElem_clearTile_inside {m : Mem} {i k : Nat} (hk : i ≤ k ∧ k < i + 16384) :
    (m.clearTile i).accElem k = (0, none) := by
  simp [Mem.accElem, Mem.clearTile, Mem.markAcc, mget_mclear_inside hk]

/-- Of a tile that begins on a line, no other element changes. -/
theorem Mem.accElem_clearTile_outside {m : Mem} {i k : Nat} (hi : 16 ∣ i) (ha : mwf 0 m.acc = true)
    (hp : mwf none m.accPoison = true) (hv : mwf false m.accValid = true) (hk : k < i ∨ i + 16384 ≤ k) :
    (m.clearTile i).accElem k = m.accElem k := by
  have hin : ¬ (i ≤ k ∧ k < i + 16384) := by omega
  have hval : mget false (m.clearTile i).accValid (k / 16) = mget false m.accValid (k / 16) :=
    Mem.markAcc_valid_outside hv (by omega)
  have hacc : mget 0 (m.clearTile i).acc k = mget 0 m.acc k := (mget_mclear ha).trans (if_neg hin)
  have hpoi : mget none (m.clearTile i).accPoison k = mget none m.accPoison k := (mget_mclear hp).trans (if_neg hin)
  simp only [Mem.accElem, hval, hacc, hpoi]

/-- The elements of a tile are the 16,384 from its first on (06 R148). -/
theorem accIndex_inside {c row col : Nat} {tile : Bool} (hr : row < 128) (hc : col < 128) :
    accIndex c tile 0 0 ≤ accIndex c tile row col ∧ accIndex c tile row col < accIndex c tile 0 0 + 16384 := by
  simp only [accIndex]
  omega

/-- A tile begins on a line of 16 elements. -/
theorem accIndex_line (c : Nat) (tile : Bool) : 16 ∣ accIndex c tile 0 0 := by
  simp only [accIndex]
  omega

/-- A write of a window touches the monitors alone. -/
theorem State.hitWin_ctx (s : State) (k kind lo n c : Nat) :
    ∃ mon, (s.hitWin k kind lo n).ctx c = { s.ctx c with mon := mon } := by
  refine mget_map_rel (R := fun x y : Ctx => ∃ mon, y = { x with mon := mon }) ⟨_, rfl⟩ fun e => ?_
  split
  · split_ifs <;> exact ⟨rfl, _, rfl⟩
  · exact ⟨rfl, _, rfl⟩

/-! ## The unit's oldest command (06 R143, R165) -/

section

variable {s : State} {c : Nat} {op : MtxOp} {rest : List MtxCmd}

/-- A context without a command has none ready. -/
theorem State.mtxReady_nil (h : (s.ctx c).mtx.queue = []) : s.mtxReady c = none := by
  simp [State.mtxReady, h]

/-- The oldest command, once its FENCE lets it, is ready. -/
theorem State.mtxReady_of_next (h : MtxNext s c op rest) : s.mtxReady c = some op := by
  obtain ⟨⟨m, rfl, hqueue, hfence⟩, -⟩ := h
  simp [State.mtxReady, hqueue, hfence]

/-- A context of the core other than `c` has nothing ready and nothing running. -/
theorem State.other_of_next (h : MtxNext s c op rest) {i : Nat} (hi : i < 4) (hne : 4 * coreOf c + i ≠ c) :
    s.mtxReady (4 * coreOf c + i) = none ∧ (s.ctx (4 * coreOf c + i)).mtx.run = none := by
  obtain ⟨hqueue, hrun⟩ := h.2 i hi hne
  exact ⟨State.mtxReady_nil hqueue, hrun⟩

/-- Every context of a core has a place in its rotation. -/
theorem mem_rotation (i j : Fin 4) : j ∈ rotation i := by
  revert i j
  decide

/-- The contexts of the core of `c` with a command ready, in rotation. -/
def State.readyInRotation (s : State) (c : Nat) : List Nat :=
  ((rotation (s.core (coreOf c)).mtxLast).map fun i => 4 * coreOf c + i.val).filter fun d => (s.mtxReady d).isSome

theorem State.mem_readyInRotation_of_next (h : MtxNext s c op rest) : c ∈ s.readyInRotation c := by
  have hc : 4 * coreOf c + c % 4 = c := Nat.div_add_mod c 4
  simp only [State.readyInRotation, List.mem_filter, State.mtxReady_of_next h, Option.isSome_some, and_true, List.mem_map]
  exact ⟨⟨c % 4, Nat.mod_lt _ (by decide)⟩, mem_rotation _ _, hc⟩

theorem State.readyInRotation_only (h : MtxNext s c op rest) {d : Nat} (hd : d ∈ s.readyInRotation c) : d = c := by
  obtain ⟨hd, hready⟩ := List.mem_filter.1 hd
  obtain ⟨i, -, rfl⟩ := List.mem_map.1 hd
  by_contra hne
  simp [(State.other_of_next h i.isLt hne).1] at hready

/-- A list of one value, however often, has it at its head. -/
theorem head?_of_forall_eq {α : Type} {l : List α} {a : α} (h : ∀ x ∈ l, x = a) (hl : l ≠ []) : l.head? = some a := by
  rw [List.head?_eq_some_head hl, h _ (List.head_mem hl)]

/-- When no other context of its core has matrix work, it is the turn of the context with a command ready: the routine that
runs is its own, and in rotation it is the only one. -/
theorem State.mtxTurn_of_next (h : MtxNext s c op rest) : s.mtxTurn c = true := by
  unfold State.mtxTurn
  dsimp only
  split
  next d hd =>
    obtain ⟨i, hi, rfl⟩ := List.mem_map.1 (List.mem_of_find?_eq_some hd)
    have hi4 : i < 4 := by simp at hi; omega
    have hrun := List.find?_some hd
    by_contra hne
    simp [(State.other_of_next h hi4 (by simpa using hne)).2] at hrun
  next =>
    have honly : ∀ d ∈ s.readyInRotation c, d = c := fun d => State.readyInRotation_only h
    rw [beq_iff_eq]
    split_ifs with hhigh
    · exact head?_of_forall_eq honly (List.ne_nil_of_mem (State.mem_readyInRotation_of_next h))
    · exact head?_of_forall_eq (fun d hd => honly d (List.mem_of_mem_filter hd)) (by simpa using hhigh)

/-- What the unit runs next is the command `MtxNext` names. -/
theorem State.mtxHead_of_next (h : MtxNext s c op rest) : s.mtxHead c = some op := by
  rw [State.mtxHead, if_pos (State.mtxTurn_of_next h), State.mtxReady_of_next h]

/-- The unit runs no command that is not the oldest. -/
theorem State.mtxHead_of_cons {m : MtxCmd} (h : (s.ctx c).mtx.queue = m :: rest) :
    s.mtxHead c = none ∨ s.mtxHead c = some m.op := by
  simp only [State.mtxHead, State.mtxReady, h]
  split_ifs <;> simp

/-- A change of the matrix side is read back. -/
theorem State.modMtx_ctx (ha : (s.ctx c).act ≠ .free) (f : Mtx → Mtx) :
    (s.modMtx c f).ctx c = { s.ctx c with mtx := f (s.ctx c).mtx } :=
  State.ctx_modCtx_same (Ctx.ne_zero_of_act ha)

/-- Being served changes no context that is not trapped (06 R167). -/
theorem State.mtxServed_ctx (ha : (s.ctx c).act ≠ .free) (hw : (s.ctx c).act ≠ .trapWaiting) :
    (s.mtxServed c).ctx c = s.ctx c := by
  have hsame : (if (s.ctx c).act == .trapWaiting then { s.ctx c with trapAt := s.cycle } else s.ctx c) = s.ctx c :=
    if_neg (by simpa using hw)
  refine (State.ctx_modCtx_same ?_).trans hsame
  exact fun e => Ctx.ne_zero_of_act ha (hsame.symm.trans e)

/-- What the end of a command that changed the matrix side by `f` leaves of its context. -/
theorem State.modMtx_mtxDone_ctx (ha : (s.ctx c).act ≠ .free) (hw : (s.ctx c).act ≠ .trapWaiting) (f : Mtx → Mtx) :
    ((s.modMtx c f).mtxDone c).ctx c =
      mtxOver { s.ctx c with mtx := f (s.ctx c).mtx } ((f (s.ctx c).mtx).queue.drop 1) := by
  have hchanged := State.modMtx_ctx ha f
  have hover : ((s.modMtx c f).modMtx c fun m => { m with queue := m.queue.drop 1, run := none }).ctx c =
      mtxOver { s.ctx c with mtx := f (s.ctx c).mtx } ((f (s.ctx c).mtx).queue.drop 1) := by
    rw [State.modMtx_ctx (by rwa [hchanged]), hchanged]
    rfl
  exact (State.mtxServed_ctx (by rwa [hover]) (by rwa [hover])).trans hover

@[simp] theorem State.modMtx_mtxDone_mem (f : Mtx → Mtx) : ((s.modMtx c f).mtxDone c).mem = s.mem := rfl

end

/-! ## The commands issued and run (06 R143, R157, R159) -/

section

variable {s b : State} {c : Nat} {rest : List MtxCmd}

/-- Outside a segment a matrix command of a launch that runs goes into the queue at once (06 R143, 07 R177). -/
theorem State.command_mtx {m : MtxCmd} (hseg : (s.ctx c).seg = none) (ha : s.accepts c = true) :
    s.command c (.mtx m) = s.modCtx c fun x => { x with mtx := { x.mtx with queue := x.mtx.queue ++ [m] } } := by
  simp [State.command, hseg, State.enqueue, ha]

/-- An M-slot instruction of meaning `m` that is no NOP, lands nothing, closes no segment and is no multiplication. -/
structure PlainM (i : Instr) (m : SlotM) : Prop where
  alone : ∀ s, exec i s = execSlot m .m i s
  noNop : i.isNop = false
  noLand : i.lands = false
  long : i.landShort = false
  noClose : i.closes = false
  noMul : i.isMul = false

theorem plain_mswp (g : Guard) : PlainM (.mswp g) (slotMswp g) := ⟨fun _ => rfl, rfl, rfl, rfl, rfl, rfl⟩
theorem plain_mclr (o : MclrArgs) : PlainM (.mclr o) (slotMclr o) := ⟨fun _ => rfl, rfl, rfl, rfl, rfl, rfl⟩
theorem plain_mset (o : MsetArgs) : PlainM (.mset o) (slotMset o) := ⟨fun _ => rfl, rfl, rfl, rfl, rfl, rfl⟩

/-- What a bundle leaves depends on its slot's act through the state the slot acts on alone. -/
theorem State.issued_congr {mul : Bool} {fl : Flow} {act act' post : State → State}
    (h : act (b.busy (coreOf c) (bundleCost (b.pcLen c))) = act' (b.busy (coreOf c) (bundleCost (b.pcLen c)))) :
    b.issued c mul fl act post = b.issued c mul fl act' post := by
  unfold State.issued
  rw [h]

/-- An instruction that means to queue `op` queues it, while fewer than eight are queued (06 R143). -/
theorem queuesMtx_of_mtxSlot {i : Instr} {m : SlotM} {op : MtxOp} (h : Turn s c b) (hi : PlainM i m)
    (hg : (b.ctx c).passes i.guard) (hseg : (b.ctx c).seg = none) (ha : b.accepts c = true)
    (hroom : (b.ctx c).mtx.queue.length < 8) (hm : m (b.envAt c .m) b = mtxSlot (b.envAt c .m) b op) :
    QueuesMtx s b c i op := by
  have hfull : (mtxSlot (b.envAt c .m) b op).full = none := by
    refine if_neg fun e => hroom.not_ge ?_
    exact of_decide_eq_true (Bool.and_eq_true_iff.1 e).2
  have he := exec_alone h hg hi.noNop hi.long hm rfl rfl hfull (by simp [hi.noLand]) (by simp [hi.noClose])
  rw [QueuesMtx, hi.alone, he, hi.noMul]
  exact congrArg _ (State.issued_congr (State.command_mtx hseg ha))

/-- While another command is the oldest, MSWP_RUN does nothing (06 R157). -/
theorem mswpRun_waits {c : CtxNo} {m : MtxCmd} (hq : (s.ctx c.val).mtx.queue = m :: rest) (hm : m.op ≠ .mswp) :
    exec (.mswpRun c) s = .next s := by
  change execMswpRun c s = _
  unfold execMswpRun
  rcases State.mtxHead_of_cons hq with h | h
  · rw [h]
  · rw [h]
    split
    next he => exact absurd (Option.some.inj he) hm
    next => rfl

/-- MSWP_RUN, once MSWP is the oldest command: the planes exchanged, the assay state cleared (06 R157). -/
theorem mswpRun_next {c : CtxNo} (h : MtxNext s c.val .mswp rest) :
    exec (.mswpRun c) s = .next ((s.modMtx c.val fun u =>
      { u with active := u.standby, standby := u.active, assay := .clear }).mtxDone c.val) := by
  change execMswpRun c s = _
  unfold execMswpRun
  rw [State.mtxHead_of_next h]

/-- The state with tile `t` of context `c` cleared, as monitors see it. -/
def State.tileCleared (s : State) (c : Nat) (t : Bool) : State :=
  (s.modMem fun m => m.clearTile (accIndex c t 0 0)).hitWin (coreOf c) 1 (4 * (accIndex c t 0 0 % 131072)) 65536

/-- MCLR_RUN, once MCLR is the oldest command: its tile and the assay state cleared (06 R159). -/
theorem mclrRun_next {c : CtxNo} {t : Bool} (h : MtxNext s c.val (.mclr t) rest) :
    exec (.mclrRun c) s = .next (((s.tileCleared c.val t).modMtx c.val fun u => { u with assay := .clear }).mtxDone c.val) := by
  change execMclrRun c s = _
  unfold execMclrRun
  rw [State.mtxHead_of_next h]
  rfl

/-- The oldest command leads the queue. -/
theorem queue_of_next {op : MtxOp} (h : MtxNext s c op rest) : (s.ctx c).mtx.queue.drop 1 = rest := by
  obtain ⟨⟨m, -, hqueue, -⟩, -⟩ := h
  rw [hqueue]
  rfl

/-- MSWP exchanges the planes, clears the assay state and leaves the queue (06 R157). -/
theorem mswpRun_ends {c : CtxNo} (ha : (s.ctx c.val).act ≠ .free) (hw : (s.ctx c.val).act ≠ .trapWaiting)
    (h : MtxNext s c.val .mswp rest) :
    Ends s c.val (.mswpRun c) fun t y => t.mem = s.mem ∧ y = mtxOver { s.ctx c.val with
      mtx := { (s.ctx c.val).mtx with
        active := (s.ctx c.val).mtx.standby, standby := (s.ctx c.val).mtx.active, assay := .clear } } rest := by
  refine ⟨_, mswpRun_next h, rfl, ?_⟩
  rw [State.modMtx_mtxDone_ctx ha hw, ← queue_of_next h]

/-- MCLR clears its tile and the assay state, hits the monitors of its window, and leaves the queue (06 R159). -/
theorem mclrRun_ends {c : CtxNo} {t : Bool} (ha : (s.ctx c.val).act ≠ .free) (hw : (s.ctx c.val).act ≠ .trapWaiting)
    (h : MtxNext s c.val (.mclr t) rest) :
    Ends s c.val (.mclrRun c) fun u y => u.mem = s.mem.clearTile (accIndex c.val t 0 0) ∧
      { y with mon := (s.ctx c.val).mon } =
        mtxOver { s.ctx c.val with mtx := { (s.ctx c.val).mtx with assay := .clear } } rest := by
  refine ⟨_, mclrRun_next h, rfl, ?_⟩
  obtain ⟨mon, hmon⟩ : ∃ mon, (s.tileCleared c.val t).ctx c.val = { s.ctx c.val with mon := mon } :=
    State.hitWin_ctx ..
  rw [State.modMtx_mtxDone_ctx (by rwa [hmon]) (by rwa [hmon]), hmon, ← queue_of_next h]
  rfl

end

/-- Settles O27: issue by the lemma about a matrix command that enters its queue; the runs by the lemmas about the oldest
command and about the tile it clears. -/
theorem swapAndClear : Obligations.SwapAndClear := by
  unfold Obligations.SwapAndClear
  refine ⟨fun s b c h => ?_, fun s c rest => ?_⟩
  · dsimp only
    intro hseg hacc hroom
    exact ⟨fun g hg => queuesMtx_of_mtxSlot h (plain_mswp g) hg hseg hacc hroom rfl,
      fun o hg => queuesMtx_of_mtxSlot h (plain_mclr o) hg hseg hacc hroom rfl⟩
  · dsimp only
    intro ha hw
    refine ⟨fun m hq hm => mswpRun_waits hq hm, mswpRun_ends ha hw, fun acc hnext => ?_⟩
    obtain ⟨t, hexec, hmem, hctx⟩ := mclrRun_ends ha hw hnext
    refine ⟨t, hexec, hctx, ?inside, ?outside, by rw [hmem, Mem.clearTile_hbm], by rw [hmem, Mem.clearTile_spad]⟩
    case inside =>
      intro row hr col hc
      rw [hmem]
      exact Mem.accElem_clearTile_inside (accIndex_inside hr hc)
    case outside =>
      intro hwa hwp hwv i hi
      rw [hmem]
      exact Mem.accElem_clearTile_outside (accIndex_line ..) hwa hwp hwv hi

/-! ## MSET (06 R160) -/

section

variable {s b : State} {c : Nat}

/-- Noting a residue mismatch changes no context. -/
@[simp] theorem State.noteResidue_ctx (s : State) (c : Nat) (t : Trap) (d : Nat) : (s.noteResidue c t).ctx d = s.ctx d := by
  unfold State.noteResidue
  split <;> rfl

/-- Noting a residue mismatch changes no memory. -/
@[simp] theorem State.noteResidue_mem (s : State) (c : Nat) (t : Trap) : (s.noteResidue c t).mem = s.mem := by
  unfold State.noteResidue
  split <;> rfl

/-- So nothing is in flight after it that was not before. -/
theorem Quiet.noteResidue (h : Quiet b c) (t : Trap) : Quiet (b.noteResidue c t) c :=
  ⟨by simpa using h.noSeg, by simpa using h.noVac, by simpa using h.noAcc⟩

/-- A fault at issue outside a segment, a residue mismatch too, stops the context (03 R96). -/
theorem traps_of_issueFault {i : Instr} {t : Trap} {mask : BitVec 8} (hq : Quiet b c)
    (h : exec i s = .next (b.issueFault c t mask)) : Traps s b c i t.word t.addr mask := by
  have hstop : b.issueFault c t mask = (b.noteResidue c t).stopAt c t (b.ctx c).pc mask := by
    simp only [State.issueFault, State.noteResidue_ctx, hq.noSeg]
  rw [hstop, State.stopAt_quiet (hq.noteResidue t)] at h
  refine ⟨_, h, ?_⟩
  rw [State.ctx_modCtx_same (Ctx.ne_zero_of_act (by nofun))]
  simp

/-- MSET of a register that is poisoned or fits its residue sends value and poison on their way (06 R160). -/
theorem slotMset_moves {o : MsetArgs} (h : sp b c o.s ≠ none ∨ Fits (b.ctx c) o.s) :
    slotMset o (b.envAt c .m) b = .of ((b.envAt c .m).put 1 (.m o.m) (.m ⟨sv b c o.s, sp b c o.s⟩)) := by
  refine if_neg ?_
  rintro ⟨hclean, -, hbad⟩
  exact h.elim (fun hp => hp (Option.isNone_iff_eq_none.1 hclean)) hbad

/-- MSET of a clean register whose residue does not fit faults RESIDUE (06 R160). -/
theorem slotMset_faults {o : MsetArgs} (hp : sp b c o.s = none) (hf : ¬ Fits (b.ctx c) o.s) :
    slotMset o (b.envAt c .m) b = .trap .residue :=
  if_pos ⟨Option.isNone_iff_eq_none.2 hp, rfl, hf⟩

/-- MSET puts its operand on its way to the m register, poison and all (06 R160). -/
theorem mset_puts (h : Turn s c b) (o : MsetArgs) (hg : (b.ctx c).passes o.g) (hok : sp b c o.s ≠ none ∨ Fits (b.ctx c) o.s) :
    Puts s b c (.mset o) .m 1 (.m o.m) (.m ⟨sv b c o.s, sp b c o.s⟩) :=
  have hi := plain_mset o
  (hi.alone s).trans (exec_put h hg hi.noNop hi.long hi.noLand hi.noClose (slotMset_moves hok))

/-- A residue mismatch of the operand faults in the M slot (06 R160, 04 R114). -/
theorem mset_traps (h : Turn s c b) (hq : Quiet b c) (o : MsetArgs) (hg : (b.ctx c).passes o.g) (hp : sp b c o.s = none)
    (hf : ¬ Fits (b.ctx c) o.s) : Traps s b c (.mset o) 0x08 0 0x20 := by
  have hi := plain_mset o
  have hfault : exec (.mset o) s = .next (b.issueFault c ⟨.residue, 0, 0, none⟩ (maskOf [.m])) :=
    (hi.alone s).trans (exec_fault (i := .mset o) h hg hi.noNop hi.long (slotMset_faults hp hf) rfl rfl (by simp [hi.noLand]))
  exact traps_of_issueFault hq hfault

end

/-- Settles O26: a result on its way, or a fault at issue, as the operand's poison and residue say. -/
theorem msetMovesAScalar : Obligations.MsetMovesAScalar := by
  unfold Obligations.MsetMovesAScalar
  intro s b c h
  exact ⟨mset_puts h, fun o hq => mset_traps h hq o⟩

end Machine
end Sys2Proof
end
